-- ==== Sys2Proof/Word.lean ====
section
/-! DEFINITION. The word types of the package (00 R4, R6; 09 R205). -/

namespace Sys2Proof

/-- A word: 64 bits (00 R6). -/
abbrev Word := BitVec 64

/-- A byte. -/
abbrev Byte := BitVec 8

/-- An instruction word: 32 bits (02 R24). -/
abbrev IWord := BitVec 32

/-- A 24-bit timestamp (09 R205). -/
abbrev Stamp := BitVec 24

/-- The contents of a 32-byte line, byte 0 in bits 7:0 (08 R187). -/
abbrev LineData := BitVec 256

/-- One bit per byte of a line (08 R182). -/
abbrev LineMask := BitVec 32

end Sys2Proof
end

