-- ==== Sys2Proof/Syntax.lean ====
section
/-! DEFINITION. The instructions and events of spec/opcode_table.json: one constructor per row. A word's constructor
carries the row's free fields at their widths; an event's carries what the event names and the choices that the spec
leaves open (01 to 20; notes/assumptions/1.md). -/

namespace Sys2Proof

/-- An agent that keeps an own time (09 R206), by its number in the package. -/
inductive Agent where
  | core (n : Nat)
  | slice (n : Nat)
  | bank (n : Nat)
  | trestle (n : Nat)
  | copyUnit (n : Nat)
  | sideboard (n : Nat)
  deriving DecidableEq, Repr

/-- A stored 64-bit word that a soft error can strike (15 R358, R361). -/
inductive Loc where
  /-- Word of an L1 data line of a core; `key` is four times the physical line number plus the attribute code. -/
  | l1 (core key word : Nat)
  /-- Word of a line of a core's L1 instruction cache, by physical line number. -/
  | l1i (core line word : Nat)
  /-- Word of a line in its home L2 slice, by physical line number. -/
  | l2 (line word : Nat)
  /-- Word of a bank. -/
  | bank (bank word : Nat)
  /-- Entry of a core's register file. -/
  | reg (core entry : Nat)
  /-- A core-shared register. -/
  | sh (core n : Nat)
  /-- A forward cell. -/
  | cell (core slot : Nat)
  /-- Entry of a thread's load-data queue, oldest first. -/
  | ldq (tid n : Nat)
  /-- Entry of a thread's store-data queue, oldest first. -/
  | sdq (tid n : Nat)
  /-- Word of a slot's compose buffer. -/
  | compose (tid n : Nat)
  /-- Step of a thread's recipe, by formula name. -/
  | step (tid name n : Nat)
  /-- Word of a shadow line of an engine job, by cluster, engine, job and line (08 R197). -/
  | shadow (cluster : Nat) (copy : Bool) (jid line word : Nat)
  deriving DecidableEq, Repr

/-- A register that a bureau's register space reaches (14 R346; 15 R362, R378). -/
inductive RegName where
  | coreReg (core num : Nat)
  | slotReg (tid num : Nat)
  | shootA (cluster : Nat)
  | portReg (port offset : Nat)
  | sliceReg (slice offset : Nat)
  | coreCounter (core offset : Nat)
  | chkRetry (cluster : Nat)
  | trestleSpill (cluster : Nat)
  | copySpill (cluster : Nat)
  /-- An address of a cluster's bureau: of its register space, or of pooled memory. -/
  | bureau (cluster : Nat) (addr : Nat)
  deriving DecidableEq, Repr

/-- A host command: the fabric address that sent it, and the words of its tagged send (14 R352, R353). -/
structure HostCmd where
  host : Nat
  words : List Word
  deriving DecidableEq, Repr

/-- Word 0 of a command (14 R353). -/
def HostCmd.word0 (c : HostCmd) : Word := c.words.headD 0
/-- The command's number (14 R353). -/
def HostCmd.code (c : HostCmd) : Nat := c.word0.toNat / 2 ^ 56
/-- The context that a command names (14 R353). -/
def HostCmd.ctx (c : HostCmd) : Nat := c.word0.toNat / 2 ^ 44 % 2 ^ 12
/-- The sequence number of a command (14 R353). -/
def HostCmd.seq (c : HostCmd) : Nat := c.word0.toNat % 2 ^ 32
/-- The arguments of a command (14 R353, R354). -/
def HostCmd.args (c : HostCmd) : List Word := c.words.drop 1
/-- Whether a tagged send is a command of a number: at most 4 KiB (14 R353). -/
def HostCmd.isCommand (c : HostCmd) (code : Nat) : Bool := c.code = code && !c.words.isEmpty && decide (c.words.length ≤ 512)

/-- What the steward finds in the boot image (14 R357): whether its signature holds, the package identity, the host
list, the fabric table and the retry budget. -/
structure BootImage where
  signed : Bool
  pkgid : Nat
  hosts : List Nat
  fabric : List (Nat × Nat)
  retries : Nat
  deriving DecidableEq, Repr

/-- One row of an incoming RMA request (10 R252): its address, its length and, for a put, its bytes. -/
structure RmaRow where
  va : Nat
  len : Nat
  data : List Byte
  deriving DecidableEq, Repr

/-- An RMA request that reaches this package (10 R252). -/
structure RmaRequest where
  pkg : Nat
  ctx : Nat
  rkey : Nat
  put : Bool
  rows : List RmaRow
  deriving DecidableEq, Repr

/-- A remote package's answer to a transfer of this package (10 R252): a status of 06 R156, an address, the bytes. -/
structure RemoteAnswer where
  status : Nat
  addr : Nat
  data : List Byte
  deriving DecidableEq, Repr

/-- An instruction or event: one constructor per row of spec/opcode_table.json, the words and the package's own
events first, the host's commands and the bring-up last. -/
inductive Instr where
  /-- PFX_IMM (R35). -/
  | pfxImm (h : BitVec 24)
  /-- PFX_MOD (R37). -/
  | pfxMod (r : BitVec 3) (c : BitVec 2) (s : BitVec 2) (f : BitVec 4) (x : BitVec 5) (n : BitVec 8)
  /-- ADD (R90). -/
  | add (d : BitVec 8) (a : BitVec 8) (b : BitVec 8)
  /-- SUB (R90). -/
  | sub (d : BitVec 8) (a : BitVec 8) (b : BitVec 8)
  /-- ADDI (R90). -/
  | addi (d : BitVec 8) (a : BitVec 8) (i : BitVec 8)
  /-- MUL (R91). -/
  | mul (d : BitVec 8) (a : BitVec 8) (b : BitVec 8)
  /-- MULH (R91). -/
  | mulh (d : BitVec 8) (a : BitVec 8) (b : BitVec 8)
  /-- MULHU (R91). -/
  | mulhu (d : BitVec 8) (a : BitVec 8) (b : BitVec 8)
  /-- DIV (R92). -/
  | div (d : BitVec 8) (a : BitVec 8) (b : BitVec 8)
  /-- DIVU (R92). -/
  | divu (d : BitVec 8) (a : BitVec 8) (b : BitVec 8)
  /-- REM (R92). -/
  | rem (d : BitVec 8) (a : BitVec 8) (b : BitVec 8)
  /-- REMU (R92). -/
  | remu (d : BitVec 8) (a : BitVec 8) (b : BitVec 8)
  /-- AND (R90). -/
  | and (d : BitVec 8) (a : BitVec 8) (b : BitVec 8)
  /-- OR (R90). -/
  | or (d : BitVec 8) (a : BitVec 8) (b : BitVec 8)
  /-- XOR (R90). -/
  | xor (d : BitVec 8) (a : BitVec 8) (b : BitVec 8)
  /-- ANDI (R90). -/
  | andi (d : BitVec 8) (a : BitVec 8) (i : BitVec 8)
  /-- ORI (R90). -/
  | ori (d : BitVec 8) (a : BitVec 8) (i : BitVec 8)
  /-- XORI (R90). -/
  | xori (d : BitVec 8) (a : BitVec 8) (i : BitVec 8)
  /-- SHL (R93). -/
  | shl (d : BitVec 8) (a : BitVec 8) (b : BitVec 8)
  /-- SHR (R93). -/
  | shr (d : BitVec 8) (a : BitVec 8) (b : BitVec 8)
  /-- SAR (R93). -/
  | sar (d : BitVec 8) (a : BitVec 8) (b : BitVec 8)
  /-- SHLI (R93). -/
  | shli (d : BitVec 8) (a : BitVec 8) (i : BitVec 8)
  /-- SHRI (R93). -/
  | shri (d : BitVec 8) (a : BitVec 8) (i : BitVec 8)
  /-- SARI (R93). -/
  | sari (d : BitVec 8) (a : BitVec 8) (i : BitVec 8)
  /-- SLT (R94). -/
  | slt (d : BitVec 8) (a : BitVec 8) (b : BitVec 8)
  /-- SLTU (R94). -/
  | sltu (d : BitVec 8) (a : BitVec 8) (b : BitVec 8)
  /-- SEQ (R94). -/
  | seq (d : BitVec 8) (a : BitVec 8) (b : BitVec 8)
  /-- SLTI (R94). -/
  | slti (d : BitVec 8) (a : BitVec 8) (i : BitVec 8)
  /-- SEL (R95). -/
  | sel (d : BitVec 8) (a : BitVec 8) (b : BitVec 8)
  /-- MIN (R94). -/
  | min (d : BitVec 8) (a : BitVec 8) (b : BitVec 8)
  /-- MAX (R94). -/
  | max (d : BitVec 8) (a : BitVec 8) (b : BitVec 8)
  /-- MINU (R94). -/
  | minu (d : BitVec 8) (a : BitVec 8) (b : BitVec 8)
  /-- MAXU (R94). -/
  | maxu (d : BitVec 8) (a : BitVec 8) (b : BitVec 8)
  /-- CLZ (R96). -/
  | clz (d : BitVec 8) (a : BitVec 8)
  /-- POPC (R96). -/
  | popc (d : BitVec 8) (a : BitVec 8)
  /-- HASH64 (R98). -/
  | hash64 (d : BitVec 8) (a : BitVec 8) (b : BitVec 8)
  /-- CVTU (R99). -/
  | cvtu (d : BitVec 8) (a : BitVec 8)
  /-- LDI (R100). -/
  | ldi (d : BitVec 8) (i : BitVec 16)
  /-- ADDPC (R100). -/
  | addpc (d : BitVec 8) (i : BitVec 16)
  /-- BZ (R102). -/
  | bz (a : BitVec 8) (o : BitVec 16)
  /-- BNZ (R102). -/
  | bnz (a : BitVec 8) (o : BitVec 16)
  /-- BLTZ (R102). -/
  | bltz (a : BitVec 8) (o : BitVec 16)
  /-- BGEZ (R102). -/
  | bgez (a : BitVec 8) (o : BitVec 16)
  /-- BGTZ (R102). -/
  | bgtz (a : BitVec 8) (o : BitVec 16)
  /-- BLEZ (R102). -/
  | blez (a : BitVec 8) (o : BitVec 16)
  /-- J (R103). -/
  | j (o : BitVec 24)
  /-- CALL (R103). -/
  | call (o : BitVec 24)
  /-- JMPR (R104). -/
  | jmpr (d : BitVec 8) (a : BitVec 8)
  /-- SEXT (R97). -/
  | sext (d : BitVec 8) (a : BitVec 8) (i : BitVec 8)
  /-- FADD (R111). -/
  | fadd (d : BitVec 8) (a : BitVec 8) (b : BitVec 8)
  /-- FSUB (R111). -/
  | fsub (d : BitVec 8) (a : BitVec 8) (b : BitVec 8)
  /-- FMUL (R111). -/
  | fmul (d : BitVec 8) (a : BitVec 8) (b : BitVec 8)
  /-- FFMA (R111). -/
  | ffma (d : BitVec 8) (a : BitVec 8) (b : BitVec 8)
  /-- FDIV (R111). -/
  | fdiv (d : BitVec 8) (a : BitVec 8) (b : BitVec 8)
  /-- FSQRT (R111). -/
  | fsqrt (d : BitVec 8) (a : BitVec 8)
  /-- FMIN (R112). -/
  | fmin (d : BitVec 8) (a : BitVec 8) (b : BitVec 8)
  /-- FMAX (R112). -/
  | fmax (d : BitVec 8) (a : BitVec 8) (b : BitVec 8)
  /-- FLG2 (R114). -/
  | flg2 (d : BitVec 8) (a : BitVec 8)
  /-- FEX2 (R114). -/
  | fex2 (d : BitVec 8) (a : BitVec 8)
  /-- FEQ (R113). -/
  | feq (d : BitVec 8) (a : BitVec 8) (b : BitVec 8)
  /-- FLT (R113). -/
  | flt (d : BitVec 8) (a : BitVec 8) (b : BitVec 8)
  /-- FLE (R113). -/
  | fle (d : BitVec 8) (a : BitVec 8) (b : BitVec 8)
  /-- FCVT (R117). -/
  | fcvt (d : BitVec 8) (a : BitVec 8) (i : BitVec 8)
  /-- FCLASS (R115). -/
  | fclass (d : BitVec 8) (a : BitVec 8)
  /-- FSGNJ (R116). -/
  | fsgnj (d : BitVec 8) (a : BitVec 8) (b : BitVec 8)
  /-- FRINT (R111). -/
  | frint (d : BitVec 8) (a : BitVec 8)
  /-- FFMS (R111). -/
  | ffms (d : BitVec 8) (a : BitVec 8) (b : BitVec 8)
  /-- VADD (R119). -/
  | vadd (d : BitVec 8) (a : BitVec 8) (b : BitVec 8)
  /-- VSUB (R119). -/
  | vsub (d : BitVec 8) (a : BitVec 8) (b : BitVec 8)
  /-- VMUL (R119). -/
  | vmul (d : BitVec 8) (a : BitVec 8) (b : BitVec 8)
  /-- VFMA (R119). -/
  | vfma (d : BitVec 8) (a : BitVec 8) (b : BitVec 8)
  /-- VMIN (R119). -/
  | vmin (d : BitVec 8) (a : BitVec 8) (b : BitVec 8)
  /-- VMAX (R119). -/
  | vmax (d : BitVec 8) (a : BitVec 8) (b : BitVec 8)
  /-- VLG2 (R121). -/
  | vlg2 (d : BitVec 8) (a : BitVec 8)
  /-- VEX2 (R121). -/
  | vex2 (d : BitVec 8) (a : BitVec 8)
  /-- VCVT (R129). -/
  | vcvt (d : BitVec 8) (a : BitVec 8) (i : BitVec 8)
  /-- VCMP (R122). -/
  | vcmp (d : BitVec 8) (a : BitVec 8) (b : BitVec 8)
  /-- VSEL (R123). -/
  | vsel (d : BitVec 8) (a : BitVec 8) (b : BitVec 8)
  /-- VBCAST (R124). -/
  | vbcast (d : BitVec 8) (a : BitVec 8)
  /-- VSUM (R125). -/
  | vsum (d : BitVec 8) (a : BitVec 8)
  /-- VMAXR (R125). -/
  | vmaxr (d : BitVec 8) (a : BitVec 8)
  /-- VARGMAX (R126). -/
  | vargmax (d : BitVec 8) (a : BitVec 8) (b : BitVec 8)
  /-- VHASH (R127). -/
  | vhash (d : BitVec 8) (a : BitVec 8) (b : BitVec 8)
  /-- VIADD (R119). -/
  | viadd (d : BitVec 8) (a : BitVec 8) (b : BitVec 8)
  /-- VIMUL (R119). -/
  | vimul (d : BitVec 8) (a : BitVec 8) (b : BitVec 8)
  /-- VAND (R120). -/
  | vand (d : BitVec 8) (a : BitVec 8) (b : BitVec 8)
  /-- VOR (R120). -/
  | vor (d : BitVec 8) (a : BitVec 8) (b : BitVec 8)
  /-- VXOR (R120). -/
  | vxor (d : BitVec 8) (a : BitVec 8) (b : BitVec 8)
  /-- VSHF (R128). -/
  | vshf (d : BitVec 8) (a : BitVec 8) (b : BitVec 8)
  /-- VLD (R130). -/
  | vld (d : BitVec 8) (a : BitVec 8) (i : BitVec 8)
  /-- VST (R130). -/
  | vst (d : BitVec 8) (a : BitVec 8) (i : BitVec 8)
  /-- VLDN (R131). -/
  | vldn (d : BitVec 8) (a : BitVec 8) (b : BitVec 8)
  /-- LDB (R233). -/
  | ldb (d : BitVec 8) (a : BitVec 8) (i : BitVec 8)
  /-- LDBU (R233). -/
  | ldbu (d : BitVec 8) (a : BitVec 8) (i : BitVec 8)
  /-- LDH (R233). -/
  | ldh (d : BitVec 8) (a : BitVec 8) (i : BitVec 8)
  /-- LDHU (R233). -/
  | ldhu (d : BitVec 8) (a : BitVec 8) (i : BitVec 8)
  /-- LDS (R233). -/
  | lds (d : BitVec 8) (a : BitVec 8) (i : BitVec 8)
  /-- LDSU (R233). -/
  | ldsu (d : BitVec 8) (a : BitVec 8) (i : BitVec 8)
  /-- LDW (R233). -/
  | ldw (d : BitVec 8) (a : BitVec 8) (i : BitVec 8)
  /-- STB (R233). -/
  | stb (d : BitVec 8) (a : BitVec 8) (i : BitVec 8)
  /-- STH (R233). -/
  | sth (d : BitVec 8) (a : BitVec 8) (i : BitVec 8)
  /-- STS (R233). -/
  | sts (d : BitVec 8) (a : BitVec 8) (i : BitVec 8)
  /-- STW (R233). -/
  | stw (d : BitVec 8) (a : BitVec 8) (i : BitVec 8)
  /-- LDRO (R235). -/
  | ldro (d : BitVec 8) (a : BitVec 8) (i : BitVec 8)
  /-- LDE (R237). -/
  | lde (d : BitVec 8) (a : BitVec 8) (i : BitVec 8)
  /-- STF (R237). -/
  | stf (d : BitVec 8) (a : BitVec 8) (i : BitVec 8)
  /-- AADD (R239). -/
  | aadd (d : BitVec 8) (a : BitVec 8) (b : BitVec 8)
  /-- ASWP (R239). -/
  | aswp (d : BitVec 8) (a : BitVec 8) (b : BitVec 8)
  /-- ACAS (R239). -/
  | acas (d : BitVec 8) (a : BitVec 8) (b : BitVec 8)
  /-- AMIN (R239). -/
  | amin (d : BitVec 8) (a : BitVec 8) (b : BitVec 8)
  /-- AMAX (R239). -/
  | amax (d : BitVec 8) (a : BitVec 8) (b : BitVec 8)
  /-- HOLD (R241). -/
  | hold (d : BitVec 8) (a : BitVec 8)
  /-- UNHOLD (R241). -/
  | unhold (d : BitVec 8) (a : BitVec 8)
  /-- FENCE (R242). -/
  | fence
  /-- FENCE_SIB (R243). -/
  | fenceSib
  /-- FLUSHP (R244). -/
  | flushp (d : BitVec 8) (a : BitVec 8) (b : BitVec 8)
  /-- INVP (R244). -/
  | invp (d : BitVec 8) (a : BitVec 8) (b : BitVec 8)
  /-- DISCARD (R244). -/
  | discard (d : BitVec 8) (a : BitVec 8) (b : BitVec 8)
  /-- PREF (R245). -/
  | pref (a : BitVec 8) (i : BitVec 8)
  /-- TICK (R246). -/
  | tick (i : BitVec 16)
  /-- TSPROBE (R247). -/
  | tsprobe (d : BitVec 8) (a : BitVec 8)
  /-- LDEX (R236). -/
  | ldex (d : BitVec 8) (a : BitVec 8) (i : BitVec 8)
  /-- BSET (R278). -/
  | bset (d : BitVec 8) (a : BitVec 8) (b : BitVec 8)
  /-- BCOMP (R279). -/
  | bcomp (d : BitVec 8) (a : BitVec 8) (b : BitVec 8)
  /-- BINFO (R280). -/
  | binfo (d : BitVec 8) (a : BitVec 8)
  /-- RCP (R164). -/
  | rcp (d : BitVec 8) (i : BitVec 16)
  /-- RCPFREE (R170). -/
  | rcpfree (d : BitVec 8)
  /-- RCPQ (R171). -/
  | rcpq (d : BitVec 8) (a : BitVec 8)
  /-- SPAWN (R320). -/
  | spawn (d : BitVec 8) (a : BitVec 8) (b : BitVec 8)
  /-- EXIT (R323). -/
  | exit
  /-- WAITW (R322). -/
  | waitw (d : BitVec 8) (i : BitVec 16)
  /-- POST (R321). -/
  | post (d : BitVec 8) (a : BitVec 8) (b : BitVec 8)
  /-- YIELD (R324). -/
  | yield
  /-- LAUNCH (R326). -/
  | launch (d : BitVec 8) (a : BitVec 8)
  /-- LWAIT (R327). -/
  | lwait (d : BitVec 8) (a : BitVec 8)
  /-- CANCEL (R329). -/
  | cancel (d : BitVec 8) (a : BitVec 8)
  /-- BARRIER (R330). -/
  | barrier (d : BitVec 8)
  /-- EPBIND (R331). -/
  | epbind (d : BitVec 8) (a : BitVec 8)
  /-- MIGR (R332). -/
  | migr (d : BitVec 8) (a : BitVec 8)
  /-- MM (R158). -/
  | mm (d : BitVec 8) (a : BitVec 8)
  /-- MMS (R158). -/
  | mms (d : BitVec 8) (a : BitVec 8)
  /-- CPY (R248). -/
  | cpy (d : BitVec 8) (a : BitVec 8)
  /-- COLL (R255). -/
  | coll (d : BitVec 8) (a : BitVec 8)
  /-- JWAIT (R160). -/
  | jwait (d : BitVec 8) (a : BitVec 8)
  /-- JPOLL (R160). -/
  | jpoll (d : BitVec 8) (a : BitVec 8)
  /-- SYSR (R345). -/
  | sysr (d : BitVec 8) (i : BitVec 16)
  /-- SYSW (R345). -/
  | sysw (d : BitVec 8) (i : BitVec 16)
  /-- TRAP (R372). -/
  | trap (i : BitVec 16)
  /-- TRET (R372). -/
  | tret (a : BitVec 8)
  /-- SHOOT (R344). -/
  | shoot (d : BitVec 8) (a : BitVec 8) (b : BitVec 8)
  /-- PAGE_WALK (R343). -/
  | pageWalk (tid : Nat)
  /-- LOAD_REPLY (R213). -/
  | loadReply (tid part : Nat)
  /-- BANK_REPLY (R57). -/
  | bankReply (op : Nat)
  /-- THREAD_READY (R54). -/
  | threadReady (tid : Nat)
  /-- COH_READ (R209). -/
  | cohRead (tid part : Nat)
  /-- EXCLUSIVE_REQUEST (R211). -/
  | exclusiveRequest (core line : Nat)
  /-- RECALL (R212). -/
  | recall (line : Nat) (keep : Bool)
  /-- STORE_TIMESTAMP (R211). -/
  | storeTimestamp (core entry : Nat)
  /-- FAR_ATOMIC (R221). -/
  | farAtomic (tid : Nat)
  /-- WRITE_BACK (R182). -/
  | writeBack (entry : Nat)
  /-- L2_FILL (R193). -/
  | l2Fill (line : Nat) (shared : Bool)
  /-- MERGE_WINDOW_CLOSE (R193). -/
  | mergeWindowClose (block : Nat)
  /-- DEFERRED_DISCARD (R202). -/
  | deferredDiscard (line : Nat)
  /-- HOLD_CAP (R222). -/
  | holdCap (tid line : Nat)
  /-- PTS_TICK (R207). -/
  | ptsTick (core : Nat)
  /-- FLOOR_RAISE (R225). -/
  | floorRaise
  /-- OWN_TIME_RAISE (R225). -/
  | ownTimeRaise (agent : Agent)
  /-- L2_STAMP_SWEEP (R226). -/
  | l2StampSweep (slice line : Nat)
  /-- CORE_STAMP_SWEEP (R226). -/
  | coreStampSweep (core line : Nat)
  /-- STEPPED_ADVANCE (R227). -/
  | steppedAdvance (agent : Agent)
  /-- STORAGE_SWEEP (R360). -/
  | storageSweep (loc : Loc)
  /-- REGISTER_SWEEP (R361). -/
  | registerSweep (loc : Loc)
  /-- BANK_LOAD (R263). -/
  | bankLoad (op : Nat)
  /-- BANK_STORE (R263). -/
  | bankStore (op : Nat)
  /-- FULL_BIT_READ (R263). -/
  | fullBitRead (op : Nat)
  /-- GRANULE_EMPTY (R263). -/
  | granuleEmpty (op : Nat)
  /-- POP (R264). -/
  | pop (op : Nat)
  /-- PUSH (R264). -/
  | push (op : Nat)
  /-- PEEK (R264). -/
  | peek (op : Nat)
  /-- COUNT (R264). -/
  | count (op : Nat)
  /-- MAP_LOOKUP (R265). -/
  | mapLookup (op : Nat)
  /-- MAP_INSERT (R265). -/
  | mapInsert (op : Nat)
  /-- MAP_TAKE (R265). -/
  | mapTake (op : Nat)
  /-- MAP_DELETE (R265). -/
  | mapDelete (op : Nat)
  /-- HEAP_INSERT (R266). -/
  | heapInsert (op : Nat)
  /-- HEAP_POP (R266). -/
  | heapPop (op : Nat)
  /-- HIST_READ (R267). -/
  | histRead (op : Nat)
  /-- HIST_ADD (R267). -/
  | histAdd (op : Nat)
  /-- HIST_READ_CLEAR (R267). -/
  | histReadClear (op : Nat)
  /-- HIST_SET (R267). -/
  | histSet (op : Nat)
  /-- BANK_VECTOR_ACCESS (R132). -/
  | bankVectorAccess (op : Nat)
  /-- BANK_LDE (R237). -/
  | bankLde (op : Nat)
  /-- BANK_STF (R237). -/
  | bankStf (op : Nat)
  /-- KEEP (R270). -/
  | keep (op : Nat) (slots order : List Nat)
  /-- DRAIN (R271). -/
  | drain (op : Nat)
  /-- CLEAR (R273). -/
  | clear (op : Nat)
  /-- COMPOSITION_FORM (R279). -/
  | compositionForm (op : Nat)
  /-- BANK_HANDOVER (R339). -/
  | bankHandover (bank owner : Nat)
  /-- TRESTLE_ACCEPT (R158). -/
  | trestleAccept (tid : Nat)
  /-- TILE_STEP (R149). -/
  | tileStep (cluster mismatches : Nat) (room fetch : Bool)
  /-- PUBLISH (R223). -/
  | publish (cluster : Nat) (copy : Bool) (coreIn : Nat)
  /-- TRESTLE_SAVE (R154). -/
  | trestleSave (cluster : Nat)
  /-- COPY_ACCEPT (R248). -/
  | copyAccept (tid : Nat)
  /-- COPY (R251). -/
  | copy (cluster coreIn : Nat) (room : Bool)
  /-- FILL (R251). -/
  | fill (cluster coreIn : Nat) (room : Bool)
  /-- GATHER (R251). -/
  | gather (cluster coreIn : Nat) (room : Bool)
  /-- SCATTERADD (R251). -/
  | scatteradd (cluster coreIn : Nat)
  /-- PUT (R252). -/
  | put (cluster coreIn : Nat)
  /-- GET (R252). -/
  | get (cluster coreIn : Nat) (room : Bool) (answer : RemoteAnswer)
  /-- RMA_REQUEST (R252). -/
  | rmaRequest (request : RmaRequest)
  /-- REMOTE_PUT_PUBLISH (R252). -/
  | remotePutPublish (request : Nat)
  /-- RETRY_BUDGET_EXHAUSTED (R252). -/
  | retryBudgetExhausted (cluster coreIn : Nat)
  /-- COPY_SAVE (R253). -/
  | copySave (cluster : Nat)
  /-- ALLREDUCE (R257). -/
  | allreduce (ctx group instance_ rank : Nat) (room : Bool) (answer : RemoteAnswer)
  /-- REDUCE (R257). -/
  | reduce (ctx group instance_ rank : Nat) (room : Bool) (answer : RemoteAnswer)
  /-- BCAST (R257). -/
  | bcast (ctx group instance_ rank : Nat) (room : Bool) (answer : RemoteAnswer)
  /-- ALLGATHER (R257). -/
  | allgather (ctx group instance_ rank : Nat) (room : Bool) (answer : RemoteAnswer)
  /-- WAITW_DISPATCH (R296). -/
  | waitwDispatch (cluster : Nat)
  /-- QUIESCENCE (R297). -/
  | quiescence (launch : Nat)
  /-- THREAD_CREATION (R289). -/
  | threadCreation (launch cluster : Nat)
  /-- LAUNCH_RECORD_READ (R326). -/
  | launchRecordRead (launch : Nat)
  /-- SIDEBOARD_REPORT (R293). -/
  | sideboardReport (cluster : Nat)
  /-- RESTART (R366). -/
  | restart (launch index : Nat)
  /-- MESSAGE_INJECTION (R333). -/
  | messageInjection (tid : Nat)
  /-- MESSAGE_DELIVERY (R312). -/
  | messageDelivery (message : Nat)
  /-- OVERFLOW_DRAIN (R312). -/
  | overflowDrain (ctx job message : Nat)
  /-- MIGRATION_ARRIVAL (R302). -/
  | migrationArrival (packet : Nat)
  /-- QUANTUM_BOUNDARY (R298). -/
  | quantumBoundary (core : Nat)
  /-- PRE_EMPTION (R374). -/
  | preEmption (tid : Nat)
  /-- THREAD_SAVE (R375). -/
  | threadSave (tid : Nat)
  /-- SLOT_RST (R377). -/
  | slotRst (tid : Nat) (pa : Word)
  /-- SLOT_OWN (R345). -/
  | slotOwn (tid : Nat) (v : Word)
  /-- CX_ID (R345). -/
  | cxId (core tableEntry : Nat) (v : Word)
  /-- TMBOX (R373). -/
  | tmbox (tid : Nat)
  /-- MAILBOX_REPLY (R373). -/
  | mailboxReply (cluster coreIn entryIn : Nat) (v : Word)
  /-- SYS_SHOOT_D (R344). -/
  | sysShootD (cluster : Nat) (v : Word)
  /-- TRESTLE_PRE (R378). -/
  | trestlePre (cluster : Nat) (v : Word)
  /-- TRESTLE_RES (R378). -/
  | trestleRes (cluster : Nat) (v : Word)
  /-- COPY_PRE (R378). -/
  | copyPre (cluster : Nat) (v : Word)
  /-- COPY_RES (R378). -/
  | copyRes (cluster : Nat) (v : Word)
  /-- REGISTER_WRITE (R345). -/
  | registerWrite (reg : RegName) (v : Word)
  /-- PUT_PUBLISH_ACKNOWLEDGED (R252). -/
  | putPublishAcknowledged (cluster coreIn : Nat) (answer : RemoteAnswer)
  /-- PRIV_STORE_ENTERS_L1 (R182). -/
  | privStoreEntersL1 (core entry : Nat)
  /-- BINFO_REPORT (R280). -/
  | binfoReport (op : Nat)
  /-- CTXNEW (R354). -/
  | ctxnew (cmd : HostCmd) (frames : List Nat)
  /-- CTXEND (R354). -/
  | ctxend (cmd : HostCmd)
  /-- MAP (R354). -/
  | map (cmd : HostCmd) (frames : List Nat)
  /-- UNMAP (R354). -/
  | unmap (cmd : HostCmd)
  /-- WINOPEN (R354). -/
  | winopen (cmd : HostCmd)
  /-- WINCLOSE (R354). -/
  | winclose (cmd : HostCmd)
  /-- SUBMIT (R354). -/
  | submit (cmd : HostCmd) (frames : List Nat)
  /-- HOST_CANCEL (R354). -/
  | hostCancel (cmd : HostCmd)
  /-- STATUS (R354). -/
  | status (cmd : HostCmd)
  /-- LOGREAD (R354). -/
  | logread (cmd : HostCmd)
  /-- GROUP (R355). -/
  | group (cmd : HostCmd)
  /-- POLICY (R354). -/
  | policy (cmd : HostCmd)
  /-- PACKAGE_RESET (R357). -/
  | packageReset
  /-- POWER_GOOD (R357). -/
  | powerGood
  /-- LINK_TRAINED (R357). -/
  | linkTrained (port : Nat)
  /-- BOOT_IMAGE_READ (R357). -/
  | bootImageRead (image : BootImage)
  /-- SLICE_START (R357). -/
  | sliceStart (slice : Nat)
  /-- SLICE_FINISHED (R357). -/
  | sliceFinished (slice : Nat)
  deriving DecidableEq, Repr

end Sys2Proof
end

