-- ==== Sys2Proof/WellFormed.lean ====
section
/-! DEFINITION. Well-formed instructions: what 02 R26 to R31, R41 and the entries ask of a word's fields whatever the
thread (its window, mode and prefixes are judged when it issues), and that an event names units the package has
(01 R17, R18). -/

namespace Sys2Proof

/-- A name that an operand may read: not fwo, snd, nor sdq outside a store's data (02 R29). -/
abbrev Name.source (n : BitVec 8) : Prop := n ≠ 246#8 ∧ n ≠ 250#8 ∧ n ≠ 251#8

/-- The data operand of a store may also be sdq (02 R29). -/
abbrev Name.storeData (n : BitVec 8) : Prop := n ≠ 250#8 ∧ n ≠ 251#8

/-- A name that a result may go to: not fwi, rcv, nor ldq outside a load (02 R29); a name of at least 128 and below
240 is never resident (02 R27, R53). -/
abbrev Name.dest (n : BitVec 8) : Prop := n ≠ 249#8 ∧ n ≠ 252#8 ∧ n ≠ 253#8 ∧ (n.toNat < 128 ∨ 240 ≤ n.toNat)

/-- The destination of a load may also be ldq (02 R29). -/
abbrev Name.loadDest (n : BitVec 8) : Prop := n ≠ 249#8 ∧ n ≠ 252#8 ∧ (n.toNat < 128 ∨ 240 ≤ n.toNat)

/-- A destination that is judged only when it is written, where it is no name that a destination may never be: JMPR's, after its target
(04 R104; 02 R53). -/
abbrev Name.link (n : BitVec 8) : Prop := n ≠ 249#8 ∧ n ≠ 252#8 ∧ n ≠ 253#8

/-- A vector group's first name (02 R28). -/
abbrev Name.group (n : BitVec 8) : Prop := n.toNat % 8 = 0 ∧ n.toNat < 240

/-- A name that some window makes resident (02 R27; 04 R95). -/
abbrev Name.resident (n : BitVec 8) : Prop := n.toNat < 128

/-- The first of VARGMAX's three resident names (05 R126). -/
abbrev Name.argmax (n : BitVec 8) : Prop := n.toNat + 2 < 128

/-- A name that some window makes a formula name (02 R27). -/
abbrev Name.formula (n : BitVec 8) : Prop := 8 ≤ n.toNat ∧ n.toNat < 240

/-- The agent exists (01 R17; 09 R206). -/
def Agent.valid : Agent → Bool
  | .core n => n < 4096
  | .slice n => n < 768
  | .bank n => n < 16384
  | .trestle n => n < 512
  | .copyUnit n => n < 512
  | .sideboard n => n < 512

/-- The storage word exists as far as the package's numbering goes (01 R17, R18). -/
def Loc.valid : Loc → Bool
  | .l1 c _ w => c < 4096 && w < 4
  | .l1i c l w => c < 4096 && l < 2 ^ 47 && w < 4
  | .l2 l w => l < 2 ^ 47 && w < 4
  | .bank b w => b < 16384 && w < 8192
  | .reg c e => c < 4096 && e < 2048
  | .sh c n => c < 4096 && n < 6
  | .cell c s => c < 4096 && s < 64
  | .ldq t n => t < 262144 && n < 8
  | .sdq t n => t < 262144 && n < 8
  | .compose t n => t < 262144 && n < 31
  | .step t nm n => t < 262144 && nm < 240 && n < 4
  | .shadow k _ _ l w => k < 512 && l < 2 ^ 47 && w < 4

/-- The register exists in some bureau's register space (14 R346). -/
def RegName.valid : RegName → Bool
  | .coreReg c _ => c < 4096
  | .slotReg t _ => t < 262144
  | .shootA k => k < 512
  | .portReg p _ => p < 64
  | .sliceReg n _ => n < 768
  | .coreCounter c _ => c < 4096
  | .chkRetry k => k < 512
  | .trestleSpill k => k < 512
  | .copySpill k => k < 512
  | .bureau k _ => k < 512

/-- Whether an instruction's fields, or an event's unit numbers, are well formed. -/
def wellFormed : Instr → Bool
  | .pfxImm _ => true
  | .pfxMod _ _ _ _ _ _ => true
  | .add d a b => decide (Name.dest d ∧ Name.source a ∧ Name.source b)
  | .sub d a b => decide (Name.dest d ∧ Name.source a ∧ Name.source b)
  | .addi d a _ => decide (Name.dest d ∧ Name.source a)
  | .mul d a b => decide (Name.dest d ∧ Name.source a ∧ Name.source b)
  | .mulh d a b => decide (Name.dest d ∧ Name.source a ∧ Name.source b)
  | .mulhu d a b => decide (Name.dest d ∧ Name.source a ∧ Name.source b)
  | .div d a b => decide (Name.dest d ∧ Name.source a ∧ Name.source b)
  | .divu d a b => decide (Name.dest d ∧ Name.source a ∧ Name.source b)
  | .rem d a b => decide (Name.dest d ∧ Name.source a ∧ Name.source b)
  | .remu d a b => decide (Name.dest d ∧ Name.source a ∧ Name.source b)
  | .and d a b => decide (Name.dest d ∧ Name.source a ∧ Name.source b)
  | .or d a b => decide (Name.dest d ∧ Name.source a ∧ Name.source b)
  | .xor d a b => decide (Name.dest d ∧ Name.source a ∧ Name.source b)
  | .andi d a _ => decide (Name.dest d ∧ Name.source a)
  | .ori d a _ => decide (Name.dest d ∧ Name.source a)
  | .xori d a _ => decide (Name.dest d ∧ Name.source a)
  | .shl d a b => decide (Name.dest d ∧ Name.source a ∧ Name.source b)
  | .shr d a b => decide (Name.dest d ∧ Name.source a ∧ Name.source b)
  | .sar d a b => decide (Name.dest d ∧ Name.source a ∧ Name.source b)
  | .shli d a i => decide (Name.dest d ∧ Name.source a ∧ i.toNat < 64)
  | .shri d a i => decide (Name.dest d ∧ Name.source a ∧ i.toNat < 64)
  | .sari d a i => decide (Name.dest d ∧ Name.source a ∧ i.toNat < 64)
  | .slt d a b => decide (Name.dest d ∧ Name.source a ∧ Name.source b)
  | .sltu d a b => decide (Name.dest d ∧ Name.source a ∧ Name.source b)
  | .seq d a b => decide (Name.dest d ∧ Name.source a ∧ Name.source b)
  | .slti d a _ => decide (Name.dest d ∧ Name.source a)
  | .sel d a b => decide (Name.resident d ∧ Name.source a ∧ Name.source b)
  | .min d a b => decide (Name.dest d ∧ Name.source a ∧ Name.source b)
  | .max d a b => decide (Name.dest d ∧ Name.source a ∧ Name.source b)
  | .minu d a b => decide (Name.dest d ∧ Name.source a ∧ Name.source b)
  | .maxu d a b => decide (Name.dest d ∧ Name.source a ∧ Name.source b)
  | .clz d a => decide (Name.dest d ∧ Name.source a)
  | .popc d a => decide (Name.dest d ∧ Name.source a)
  | .hash64 d a b => decide (Name.dest d ∧ Name.source a ∧ Name.source b)
  | .cvtu d a => decide (Name.dest d ∧ Name.source a)
  | .ldi d _ => decide (Name.dest d)
  | .addpc d _ => decide (Name.dest d)
  | .bz a _ => decide (Name.source a)
  | .bnz a _ => decide (Name.source a)
  | .bltz a _ => decide (Name.source a)
  | .bgez a _ => decide (Name.source a)
  | .bgtz a _ => decide (Name.source a)
  | .blez a _ => decide (Name.source a)
  | .j _ => true
  | .call _ => true
  | .jmpr d a => decide (Name.link d ∧ Name.source a)
  | .sext d a i => decide (Name.dest d ∧ Name.source a ∧ (1 ≤ i.toNat ∧ i.toNat ≤ 64))
  | .fadd d a b => decide (Name.dest d ∧ Name.source a ∧ Name.source b)
  | .fsub d a b => decide (Name.dest d ∧ Name.source a ∧ Name.source b)
  | .fmul d a b => decide (Name.dest d ∧ Name.source a ∧ Name.source b)
  | .ffma d a b => decide (Name.dest d ∧ Name.source d ∧ Name.source a ∧ Name.source b)
  | .fdiv d a b => decide (Name.dest d ∧ Name.source a ∧ Name.source b)
  | .fsqrt d a => decide (Name.dest d ∧ Name.source a)
  | .fmin d a b => decide (Name.dest d ∧ Name.source a ∧ Name.source b)
  | .fmax d a b => decide (Name.dest d ∧ Name.source a ∧ Name.source b)
  | .flg2 d a => decide (Name.dest d ∧ Name.source a)
  | .fex2 d a => decide (Name.dest d ∧ Name.source a)
  | .feq d a b => decide (Name.dest d ∧ Name.source a ∧ Name.source b)
  | .flt d a b => decide (Name.dest d ∧ Name.source a ∧ Name.source b)
  | .fle d a b => decide (Name.dest d ∧ Name.source a ∧ Name.source b)
  | .fcvt d a i => decide (Name.dest d ∧ Name.source a ∧ (i.toNat / 16 < 12 ∧ i.toNat % 16 < 12))
  | .fclass d a => decide (Name.dest d ∧ Name.source a)
  | .fsgnj d a b => decide (Name.dest d ∧ Name.source a ∧ Name.source b)
  | .frint d a => decide (Name.dest d ∧ Name.source a)
  | .ffms d a b => decide (Name.dest d ∧ Name.source d ∧ Name.source a ∧ Name.source b)
  | .vadd d a b => decide (Name.group d ∧ Name.group a ∧ Name.group b)
  | .vsub d a b => decide (Name.group d ∧ Name.group a ∧ Name.group b)
  | .vmul d a b => decide (Name.group d ∧ Name.group a ∧ Name.group b)
  | .vfma d a b => decide (Name.group d ∧ Name.group a ∧ Name.group b)
  | .vmin d a b => decide (Name.group d ∧ Name.group a ∧ Name.group b)
  | .vmax d a b => decide (Name.group d ∧ Name.group a ∧ Name.group b)
  | .vlg2 d a => decide (Name.group d ∧ Name.group a)
  | .vex2 d a => decide (Name.group d ∧ Name.group a)
  | .vcvt d a i => decide (Name.group d ∧ Name.group a ∧ (i.toNat / 16 < 8 ∧ i.toNat % 16 < 8))
  | .vcmp d a b => decide (Name.dest d ∧ Name.group a ∧ Name.group b)
  | .vsel d a b => decide (Name.group d ∧ Name.group a ∧ Name.source b)
  | .vbcast d a => decide (Name.group d ∧ Name.source a)
  | .vsum d a => decide (Name.dest d ∧ Name.group a)
  | .vmaxr d a => decide (Name.dest d ∧ Name.group a)
  | .vargmax d a b => decide (Name.argmax d ∧ Name.group a ∧ Name.source b)
  | .vhash d a b => decide (Name.group d ∧ Name.source a ∧ Name.source b)
  | .viadd d a b => decide (Name.group d ∧ Name.group a ∧ Name.group b)
  | .vimul d a b => decide (Name.group d ∧ Name.group a ∧ Name.group b)
  | .vand d a b => decide (Name.group d ∧ Name.group a ∧ Name.group b)
  | .vor d a b => decide (Name.group d ∧ Name.group a ∧ Name.group b)
  | .vxor d a b => decide (Name.group d ∧ Name.group a ∧ Name.group b)
  | .vshf d a b => decide (Name.group d ∧ Name.group a ∧ Name.group b)
  | .vld d a _ => decide (Name.group d ∧ Name.source a)
  | .vst d a _ => decide (Name.group d ∧ Name.source a)
  | .vldn d a b => decide (Name.group d ∧ Name.source a ∧ Name.source b)
  | .ldb d a _ => decide (Name.loadDest d ∧ Name.source a)
  | .ldbu d a _ => decide (Name.loadDest d ∧ Name.source a)
  | .ldh d a _ => decide (Name.loadDest d ∧ Name.source a)
  | .ldhu d a _ => decide (Name.loadDest d ∧ Name.source a)
  | .lds d a _ => decide (Name.loadDest d ∧ Name.source a)
  | .ldsu d a _ => decide (Name.loadDest d ∧ Name.source a)
  | .ldw d a _ => decide (Name.loadDest d ∧ Name.source a)
  | .stb d a _ => decide (Name.storeData d ∧ Name.source a)
  | .sth d a _ => decide (Name.storeData d ∧ Name.source a)
  | .sts d a _ => decide (Name.storeData d ∧ Name.source a)
  | .stw d a _ => decide (Name.storeData d ∧ Name.source a)
  | .ldro d a _ => decide (Name.loadDest d ∧ Name.source a)
  | .lde d a _ => decide (Name.loadDest d ∧ Name.source a)
  | .stf d a _ => decide (Name.storeData d ∧ Name.source a)
  | .aadd d a b => decide (Name.dest d ∧ Name.source a ∧ Name.source b)
  | .aswp d a b => decide (Name.dest d ∧ Name.source a ∧ Name.source b)
  | .acas d a b => decide (Name.resident d ∧ Name.source a ∧ Name.source b)
  | .amin d a b => decide (Name.dest d ∧ Name.source a ∧ Name.source b)
  | .amax d a b => decide (Name.dest d ∧ Name.source a ∧ Name.source b)
  | .hold d a => decide (Name.dest d ∧ Name.source a)
  | .unhold d a => decide (Name.dest d ∧ Name.source a)
  | .fence => true
  | .fenceSib => true
  | .flushp d a b => decide (Name.dest d ∧ Name.source a ∧ Name.source b)
  | .invp d a b => decide (Name.dest d ∧ Name.source a ∧ Name.source b)
  | .discard d a b => decide (Name.dest d ∧ Name.source a ∧ Name.source b)
  | .pref a _ => decide (Name.source a)
  | .tick _ => true
  | .tsprobe d a => decide (Name.dest d ∧ Name.source a)
  | .ldex d a _ => decide (Name.loadDest d ∧ Name.source a)
  | .bset d a b => decide (Name.dest d ∧ Name.source a ∧ Name.source b)
  | .bcomp d a b => decide (Name.dest d ∧ Name.source a ∧ Name.source b)
  | .binfo d a => decide (Name.dest d ∧ Name.source a)
  | .rcp d i => decide (Name.formula d ∧ (1 ≤ i.toNat ∧ i.toNat ≤ 4))
  | .rcpfree d => decide (Name.formula d)
  | .rcpq d _ => decide (Name.dest d)
  | .spawn d a b => decide (Name.dest d ∧ Name.source a ∧ Name.group b)
  | .exit => true
  | .waitw d _ => decide (Name.dest d)
  | .post d a b => decide (Name.dest d ∧ Name.source a ∧ Name.group b)
  | .yield => true
  | .launch d a => decide (Name.dest d ∧ Name.source a)
  | .lwait d a => decide (Name.dest d ∧ Name.source a)
  | .cancel d a => decide (Name.dest d ∧ Name.source a)
  | .barrier d => decide (Name.dest d)
  | .epbind d a => decide (Name.dest d ∧ Name.source a)
  | .migr d a => decide (Name.dest d ∧ Name.source a)
  | .mm d a => decide (Name.dest d ∧ Name.group a)
  | .mms d a => decide (Name.dest d ∧ Name.group a)
  | .cpy d a => decide (Name.dest d ∧ Name.group a)
  | .coll d a => decide (Name.dest d ∧ Name.group a)
  | .jwait d a => decide (Name.dest d ∧ Name.source a)
  | .jpoll d a => decide (Name.dest d ∧ Name.source a)
  | .sysr d _ => decide (Name.dest d)
  | .sysw d _ => decide (Name.source d)
  | .trap _ => true
  | .tret a => decide (Name.source a)
  | .shoot d a b => decide (Name.dest d ∧ Name.source a ∧ Name.source b)
  | .pageWalk tid => decide (tid < 262144)
  | .loadReply tid _ => decide (tid < 262144)
  | .bankReply _ => true
  | .threadReady tid => decide (tid < 262144)
  | .cohRead tid _ => decide (tid < 262144)
  | .exclusiveRequest core line => decide (core < 4096) && decide (line < 2 ^ 47)
  | .recall line _ => decide (line < 2 ^ 47)
  | .storeTimestamp core _ => decide (core < 4096)
  | .farAtomic tid => decide (tid < 262144)
  | .writeBack _ => true
  | .l2Fill line _ => decide (line < 2 ^ 47)
  | .mergeWindowClose block => decide (block < 2 ^ 44)
  | .deferredDiscard line => decide (line < 2 ^ 47)
  | .holdCap tid line => decide (tid < 262144) && decide (line < 2 ^ 47)
  | .ptsTick core => decide (core < 4096)
  | .floorRaise => true
  | .ownTimeRaise agent => agent.valid
  | .l2StampSweep slice line => decide (slice < 768) && decide (line < 2 ^ 47)
  | .coreStampSweep core line => decide (core < 4096) && decide (line < 2 ^ 47)
  | .steppedAdvance agent => agent.valid
  | .storageSweep loc => loc.valid
  | .registerSweep loc => loc.valid
  | .bankLoad _ => true
  | .bankStore _ => true
  | .fullBitRead _ => true
  | .granuleEmpty _ => true
  | .pop _ => true
  | .push _ => true
  | .peek _ => true
  | .count _ => true
  | .mapLookup _ => true
  | .mapInsert _ => true
  | .mapTake _ => true
  | .mapDelete _ => true
  | .heapInsert _ => true
  | .heapPop _ => true
  | .histRead _ => true
  | .histAdd _ => true
  | .histReadClear _ => true
  | .histSet _ => true
  | .bankVectorAccess _ => true
  | .bankLde _ => true
  | .bankStf _ => true
  | .keep _ _ _ => true
  | .drain _ => true
  | .clear _ => true
  | .compositionForm _ => true
  | .bankHandover bank owner => decide (bank < 16384) && decide (owner < 4096)
  | .trestleAccept tid => decide (tid < 262144)
  | .tileStep cluster _ _ _ => decide (cluster < 512)
  | .publish cluster _ coreIn => decide (cluster < 512) && decide (coreIn < 8)
  | .trestleSave cluster => decide (cluster < 512)
  | .copyAccept tid => decide (tid < 262144)
  | .copy cluster coreIn _ => decide (cluster < 512) && decide (coreIn < 8)
  | .fill cluster coreIn _ => decide (cluster < 512) && decide (coreIn < 8)
  | .gather cluster coreIn _ => decide (cluster < 512) && decide (coreIn < 8)
  | .scatteradd cluster coreIn => decide (cluster < 512) && decide (coreIn < 8)
  | .put cluster coreIn => decide (cluster < 512) && decide (coreIn < 8)
  | .get cluster coreIn _ _ => decide (cluster < 512) && decide (coreIn < 8)
  | .rmaRequest _ => true
  | .remotePutPublish _ => true
  | .retryBudgetExhausted cluster coreIn => decide (cluster < 512) && decide (coreIn < 8)
  | .copySave cluster => decide (cluster < 512)
  | .allreduce _ _ _ _ _ _ => true
  | .reduce _ _ _ _ _ _ => true
  | .bcast _ _ _ _ _ _ => true
  | .allgather _ _ _ _ _ _ => true
  | .waitwDispatch cluster => decide (cluster < 512)
  | .quiescence _ => true
  | .threadCreation _ cluster => decide (cluster < 512)
  | .launchRecordRead _ => true
  | .sideboardReport cluster => decide (cluster < 512)
  | .restart _ _ => true
  | .messageInjection tid => decide (tid < 262144)
  | .messageDelivery _ => true
  | .overflowDrain _ _ _ => true
  | .migrationArrival _ => true
  | .quantumBoundary core => decide (core < 4096)
  | .preEmption tid => decide (tid < 262144)
  | .threadSave tid => decide (tid < 262144)
  | .slotRst tid _ => decide (tid < 262144)
  | .slotOwn tid _ => decide (tid < 262144)
  | .cxId core tableEntry _ => decide (core < 4096) && decide (tableEntry < 64)
  | .tmbox tid => decide (tid < 262144)
  | .mailboxReply cluster coreIn entryIn _ => decide (cluster < 512) && decide (coreIn < 8) && decide (entryIn < 4)
  | .sysShootD cluster _ => decide (cluster < 512)
  | .trestlePre cluster _ => decide (cluster < 512)
  | .trestleRes cluster _ => decide (cluster < 512)
  | .copyPre cluster _ => decide (cluster < 512)
  | .copyRes cluster _ => decide (cluster < 512)
  | .registerWrite reg _ => reg.valid
  | .ctxnew _ _ => true
  | .ctxend _ => true
  | .map _ _ => true
  | .unmap _ => true
  | .winopen _ => true
  | .winclose _ => true
  | .submit _ _ => true
  | .hostCancel _ => true
  | .status _ => true
  | .logread _ => true
  | .group _ => true
  | .policy _ => true
  | .packageReset => true
  | .powerGood => true
  | .linkTrained port => decide (port < 80)
  | .bootImageRead _ => true
  | .sliceStart slice => decide (slice < 768)
  | .sliceFinished slice => decide (slice < 768)
  | .putPublishAcknowledged cluster coreIn _ => decide (cluster < 512) && decide (coreIn < 8)
  | .privStoreEntersL1 core _ => decide (core < 4096)
  | .binfoReport _ => true

end Sys2Proof
end

