-- ==== Sys2Proof/Decode.lean ====
section
/-! DEFINITION. The decoder and the encoder of instruction words (02 R24 to R26, R39), from the encodings that the
entries of 04 to 15 give. The decoder checks the opcode and the reserved fields; it refuses by name. -/

namespace Sys2Proof

/-- Why a word is no instruction (02 R41). -/
inductive DecodeError where
  /-- Fewer than four bytes. -/
  | short
  /-- Opcode 0x00 or a reserved opcode of 02 R39. -/
  | reservedOpcode
  /-- A reserved field that is not zero (02 R26). -/
  | reservedField
  deriving DecidableEq, Repr

/-- One opcode: its code, the reserved fields of its word, and the instruction that the fields give. -/
structure Encoding where
  op : BitVec 8
  reserved : IWord
  make : IWord → Instr

/-- Opcodes 0x00 to 0x0F (02 R39). -/
def Encoding.rows0 : List Encoding := [
  ⟨0x01#8, 0x000000#32, fun w => .add (w.extractLsb' 16 8) (w.extractLsb' 8 8) (w.extractLsb' 0 8)⟩,
  ⟨0x02#8, 0x000000#32, fun w => .sub (w.extractLsb' 16 8) (w.extractLsb' 8 8) (w.extractLsb' 0 8)⟩,
  ⟨0x03#8, 0x000000#32, fun w => .addi (w.extractLsb' 16 8) (w.extractLsb' 8 8) (w.extractLsb' 0 8)⟩,
  ⟨0x04#8, 0x000000#32, fun w => .mul (w.extractLsb' 16 8) (w.extractLsb' 8 8) (w.extractLsb' 0 8)⟩,
  ⟨0x05#8, 0x000000#32, fun w => .mulh (w.extractLsb' 16 8) (w.extractLsb' 8 8) (w.extractLsb' 0 8)⟩,
  ⟨0x06#8, 0x000000#32, fun w => .mulhu (w.extractLsb' 16 8) (w.extractLsb' 8 8) (w.extractLsb' 0 8)⟩,
  ⟨0x07#8, 0x000000#32, fun w => .div (w.extractLsb' 16 8) (w.extractLsb' 8 8) (w.extractLsb' 0 8)⟩,
  ⟨0x08#8, 0x000000#32, fun w => .divu (w.extractLsb' 16 8) (w.extractLsb' 8 8) (w.extractLsb' 0 8)⟩,
  ⟨0x09#8, 0x000000#32, fun w => .rem (w.extractLsb' 16 8) (w.extractLsb' 8 8) (w.extractLsb' 0 8)⟩,
  ⟨0x0A#8, 0x000000#32, fun w => .remu (w.extractLsb' 16 8) (w.extractLsb' 8 8) (w.extractLsb' 0 8)⟩,
  ⟨0x0B#8, 0x000000#32, fun w => .and (w.extractLsb' 16 8) (w.extractLsb' 8 8) (w.extractLsb' 0 8)⟩,
  ⟨0x0C#8, 0x000000#32, fun w => .or (w.extractLsb' 16 8) (w.extractLsb' 8 8) (w.extractLsb' 0 8)⟩,
  ⟨0x0D#8, 0x000000#32, fun w => .xor (w.extractLsb' 16 8) (w.extractLsb' 8 8) (w.extractLsb' 0 8)⟩,
  ⟨0x0E#8, 0x000000#32, fun w => .andi (w.extractLsb' 16 8) (w.extractLsb' 8 8) (w.extractLsb' 0 8)⟩,
  ⟨0x0F#8, 0x000000#32, fun w => .ori (w.extractLsb' 16 8) (w.extractLsb' 8 8) (w.extractLsb' 0 8)⟩]

/-- Opcodes 0x10 to 0x1F (02 R39). -/
def Encoding.rows1 : List Encoding := [
  ⟨0x10#8, 0x000000#32, fun w => .xori (w.extractLsb' 16 8) (w.extractLsb' 8 8) (w.extractLsb' 0 8)⟩,
  ⟨0x11#8, 0x000000#32, fun w => .shl (w.extractLsb' 16 8) (w.extractLsb' 8 8) (w.extractLsb' 0 8)⟩,
  ⟨0x12#8, 0x000000#32, fun w => .shr (w.extractLsb' 16 8) (w.extractLsb' 8 8) (w.extractLsb' 0 8)⟩,
  ⟨0x13#8, 0x000000#32, fun w => .sar (w.extractLsb' 16 8) (w.extractLsb' 8 8) (w.extractLsb' 0 8)⟩,
  ⟨0x14#8, 0x000000#32, fun w => .shli (w.extractLsb' 16 8) (w.extractLsb' 8 8) (w.extractLsb' 0 8)⟩,
  ⟨0x15#8, 0x000000#32, fun w => .shri (w.extractLsb' 16 8) (w.extractLsb' 8 8) (w.extractLsb' 0 8)⟩,
  ⟨0x16#8, 0x000000#32, fun w => .sari (w.extractLsb' 16 8) (w.extractLsb' 8 8) (w.extractLsb' 0 8)⟩,
  ⟨0x17#8, 0x000000#32, fun w => .slt (w.extractLsb' 16 8) (w.extractLsb' 8 8) (w.extractLsb' 0 8)⟩,
  ⟨0x18#8, 0x000000#32, fun w => .sltu (w.extractLsb' 16 8) (w.extractLsb' 8 8) (w.extractLsb' 0 8)⟩,
  ⟨0x19#8, 0x000000#32, fun w => .seq (w.extractLsb' 16 8) (w.extractLsb' 8 8) (w.extractLsb' 0 8)⟩,
  ⟨0x1A#8, 0x000000#32, fun w => .slti (w.extractLsb' 16 8) (w.extractLsb' 8 8) (w.extractLsb' 0 8)⟩,
  ⟨0x1B#8, 0x000000#32, fun w => .sel (w.extractLsb' 16 8) (w.extractLsb' 8 8) (w.extractLsb' 0 8)⟩,
  ⟨0x1C#8, 0x000000#32, fun w => .min (w.extractLsb' 16 8) (w.extractLsb' 8 8) (w.extractLsb' 0 8)⟩,
  ⟨0x1D#8, 0x000000#32, fun w => .max (w.extractLsb' 16 8) (w.extractLsb' 8 8) (w.extractLsb' 0 8)⟩,
  ⟨0x1E#8, 0x000000#32, fun w => .minu (w.extractLsb' 16 8) (w.extractLsb' 8 8) (w.extractLsb' 0 8)⟩,
  ⟨0x1F#8, 0x000000#32, fun w => .maxu (w.extractLsb' 16 8) (w.extractLsb' 8 8) (w.extractLsb' 0 8)⟩]

/-- Opcodes 0x20 to 0x2F (02 R39). -/
def Encoding.rows2 : List Encoding := [
  ⟨0x20#8, 0x0000FF#32, fun w => .clz (w.extractLsb' 16 8) (w.extractLsb' 8 8)⟩,
  ⟨0x21#8, 0x0000FF#32, fun w => .popc (w.extractLsb' 16 8) (w.extractLsb' 8 8)⟩,
  ⟨0x22#8, 0x000000#32, fun w => .hash64 (w.extractLsb' 16 8) (w.extractLsb' 8 8) (w.extractLsb' 0 8)⟩,
  ⟨0x23#8, 0x0000FF#32, fun w => .cvtu (w.extractLsb' 16 8) (w.extractLsb' 8 8)⟩,
  ⟨0x24#8, 0x000000#32, fun w => .ldi (w.extractLsb' 16 8) (w.extractLsb' 0 16)⟩,
  ⟨0x25#8, 0x000000#32, fun w => .addpc (w.extractLsb' 16 8) (w.extractLsb' 0 16)⟩,
  ⟨0x26#8, 0x000000#32, fun w => .bz (w.extractLsb' 16 8) (w.extractLsb' 0 16)⟩,
  ⟨0x27#8, 0x000000#32, fun w => .bnz (w.extractLsb' 16 8) (w.extractLsb' 0 16)⟩,
  ⟨0x28#8, 0x000000#32, fun w => .bltz (w.extractLsb' 16 8) (w.extractLsb' 0 16)⟩,
  ⟨0x29#8, 0x000000#32, fun w => .bgez (w.extractLsb' 16 8) (w.extractLsb' 0 16)⟩,
  ⟨0x2A#8, 0x000000#32, fun w => .bgtz (w.extractLsb' 16 8) (w.extractLsb' 0 16)⟩,
  ⟨0x2B#8, 0x000000#32, fun w => .blez (w.extractLsb' 16 8) (w.extractLsb' 0 16)⟩,
  ⟨0x2C#8, 0x000000#32, fun w => .j (w.extractLsb' 0 24)⟩,
  ⟨0x2D#8, 0x000000#32, fun w => .call (w.extractLsb' 0 24)⟩,
  ⟨0x2E#8, 0x0000FF#32, fun w => .jmpr (w.extractLsb' 16 8) (w.extractLsb' 8 8)⟩,
  ⟨0x2F#8, 0x000000#32, fun w => .sext (w.extractLsb' 16 8) (w.extractLsb' 8 8) (w.extractLsb' 0 8)⟩]

/-- Opcodes 0x30 to 0x3F (02 R39). -/
def Encoding.rows3 : List Encoding := [
  ⟨0x30#8, 0x000000#32, fun w => .fadd (w.extractLsb' 16 8) (w.extractLsb' 8 8) (w.extractLsb' 0 8)⟩,
  ⟨0x31#8, 0x000000#32, fun w => .fsub (w.extractLsb' 16 8) (w.extractLsb' 8 8) (w.extractLsb' 0 8)⟩,
  ⟨0x32#8, 0x000000#32, fun w => .fmul (w.extractLsb' 16 8) (w.extractLsb' 8 8) (w.extractLsb' 0 8)⟩,
  ⟨0x33#8, 0x000000#32, fun w => .ffma (w.extractLsb' 16 8) (w.extractLsb' 8 8) (w.extractLsb' 0 8)⟩,
  ⟨0x34#8, 0x000000#32, fun w => .fdiv (w.extractLsb' 16 8) (w.extractLsb' 8 8) (w.extractLsb' 0 8)⟩,
  ⟨0x35#8, 0x0000FF#32, fun w => .fsqrt (w.extractLsb' 16 8) (w.extractLsb' 8 8)⟩,
  ⟨0x36#8, 0x000000#32, fun w => .fmin (w.extractLsb' 16 8) (w.extractLsb' 8 8) (w.extractLsb' 0 8)⟩,
  ⟨0x37#8, 0x000000#32, fun w => .fmax (w.extractLsb' 16 8) (w.extractLsb' 8 8) (w.extractLsb' 0 8)⟩,
  ⟨0x38#8, 0x0000FF#32, fun w => .flg2 (w.extractLsb' 16 8) (w.extractLsb' 8 8)⟩,
  ⟨0x39#8, 0x0000FF#32, fun w => .fex2 (w.extractLsb' 16 8) (w.extractLsb' 8 8)⟩,
  ⟨0x3A#8, 0x000000#32, fun w => .feq (w.extractLsb' 16 8) (w.extractLsb' 8 8) (w.extractLsb' 0 8)⟩,
  ⟨0x3B#8, 0x000000#32, fun w => .flt (w.extractLsb' 16 8) (w.extractLsb' 8 8) (w.extractLsb' 0 8)⟩,
  ⟨0x3C#8, 0x000000#32, fun w => .fle (w.extractLsb' 16 8) (w.extractLsb' 8 8) (w.extractLsb' 0 8)⟩,
  ⟨0x3D#8, 0x000000#32, fun w => .fcvt (w.extractLsb' 16 8) (w.extractLsb' 8 8) (w.extractLsb' 0 8)⟩,
  ⟨0x3E#8, 0x0000FF#32, fun w => .fclass (w.extractLsb' 16 8) (w.extractLsb' 8 8)⟩,
  ⟨0x3F#8, 0x000000#32, fun w => .fsgnj (w.extractLsb' 16 8) (w.extractLsb' 8 8) (w.extractLsb' 0 8)⟩]

/-- Opcodes 0x40 to 0x4F (02 R39). -/
def Encoding.rows4 : List Encoding := [
  ⟨0x40#8, 0x0000FF#32, fun w => .frint (w.extractLsb' 16 8) (w.extractLsb' 8 8)⟩,
  ⟨0x41#8, 0x000000#32, fun w => .ffms (w.extractLsb' 16 8) (w.extractLsb' 8 8) (w.extractLsb' 0 8)⟩]

/-- Opcodes 0x50 to 0x5F (02 R39). -/
def Encoding.rows5 : List Encoding := [
  ⟨0x50#8, 0x000000#32, fun w => .vadd (w.extractLsb' 16 8) (w.extractLsb' 8 8) (w.extractLsb' 0 8)⟩,
  ⟨0x51#8, 0x000000#32, fun w => .vsub (w.extractLsb' 16 8) (w.extractLsb' 8 8) (w.extractLsb' 0 8)⟩,
  ⟨0x52#8, 0x000000#32, fun w => .vmul (w.extractLsb' 16 8) (w.extractLsb' 8 8) (w.extractLsb' 0 8)⟩,
  ⟨0x53#8, 0x000000#32, fun w => .vfma (w.extractLsb' 16 8) (w.extractLsb' 8 8) (w.extractLsb' 0 8)⟩,
  ⟨0x54#8, 0x000000#32, fun w => .vmin (w.extractLsb' 16 8) (w.extractLsb' 8 8) (w.extractLsb' 0 8)⟩,
  ⟨0x55#8, 0x000000#32, fun w => .vmax (w.extractLsb' 16 8) (w.extractLsb' 8 8) (w.extractLsb' 0 8)⟩,
  ⟨0x56#8, 0x0000FF#32, fun w => .vlg2 (w.extractLsb' 16 8) (w.extractLsb' 8 8)⟩,
  ⟨0x57#8, 0x0000FF#32, fun w => .vex2 (w.extractLsb' 16 8) (w.extractLsb' 8 8)⟩,
  ⟨0x58#8, 0x000000#32, fun w => .vcvt (w.extractLsb' 16 8) (w.extractLsb' 8 8) (w.extractLsb' 0 8)⟩,
  ⟨0x59#8, 0x000000#32, fun w => .vcmp (w.extractLsb' 16 8) (w.extractLsb' 8 8) (w.extractLsb' 0 8)⟩,
  ⟨0x5A#8, 0x000000#32, fun w => .vsel (w.extractLsb' 16 8) (w.extractLsb' 8 8) (w.extractLsb' 0 8)⟩,
  ⟨0x5B#8, 0x0000FF#32, fun w => .vbcast (w.extractLsb' 16 8) (w.extractLsb' 8 8)⟩,
  ⟨0x5C#8, 0x0000FF#32, fun w => .vsum (w.extractLsb' 16 8) (w.extractLsb' 8 8)⟩,
  ⟨0x5D#8, 0x0000FF#32, fun w => .vmaxr (w.extractLsb' 16 8) (w.extractLsb' 8 8)⟩,
  ⟨0x5E#8, 0x000000#32, fun w => .vargmax (w.extractLsb' 16 8) (w.extractLsb' 8 8) (w.extractLsb' 0 8)⟩,
  ⟨0x5F#8, 0x000000#32, fun w => .vhash (w.extractLsb' 16 8) (w.extractLsb' 8 8) (w.extractLsb' 0 8)⟩]

/-- Opcodes 0x60 to 0x6F (02 R39). -/
def Encoding.rows6 : List Encoding := [
  ⟨0x60#8, 0x000000#32, fun w => .viadd (w.extractLsb' 16 8) (w.extractLsb' 8 8) (w.extractLsb' 0 8)⟩,
  ⟨0x61#8, 0x000000#32, fun w => .vimul (w.extractLsb' 16 8) (w.extractLsb' 8 8) (w.extractLsb' 0 8)⟩,
  ⟨0x62#8, 0x000000#32, fun w => .vand (w.extractLsb' 16 8) (w.extractLsb' 8 8) (w.extractLsb' 0 8)⟩,
  ⟨0x63#8, 0x000000#32, fun w => .vor (w.extractLsb' 16 8) (w.extractLsb' 8 8) (w.extractLsb' 0 8)⟩,
  ⟨0x64#8, 0x000000#32, fun w => .vxor (w.extractLsb' 16 8) (w.extractLsb' 8 8) (w.extractLsb' 0 8)⟩,
  ⟨0x65#8, 0x000000#32, fun w => .vshf (w.extractLsb' 16 8) (w.extractLsb' 8 8) (w.extractLsb' 0 8)⟩,
  ⟨0x66#8, 0x000000#32, fun w => .vld (w.extractLsb' 16 8) (w.extractLsb' 8 8) (w.extractLsb' 0 8)⟩,
  ⟨0x67#8, 0x000000#32, fun w => .vst (w.extractLsb' 16 8) (w.extractLsb' 8 8) (w.extractLsb' 0 8)⟩,
  ⟨0x68#8, 0x000000#32, fun w => .vldn (w.extractLsb' 16 8) (w.extractLsb' 8 8) (w.extractLsb' 0 8)⟩]

/-- Opcodes 0x80 to 0x8F (02 R39). -/
def Encoding.rows8 : List Encoding := [
  ⟨0x80#8, 0x000000#32, fun w => .ldb (w.extractLsb' 16 8) (w.extractLsb' 8 8) (w.extractLsb' 0 8)⟩,
  ⟨0x81#8, 0x000000#32, fun w => .ldbu (w.extractLsb' 16 8) (w.extractLsb' 8 8) (w.extractLsb' 0 8)⟩,
  ⟨0x82#8, 0x000000#32, fun w => .ldh (w.extractLsb' 16 8) (w.extractLsb' 8 8) (w.extractLsb' 0 8)⟩,
  ⟨0x83#8, 0x000000#32, fun w => .ldhu (w.extractLsb' 16 8) (w.extractLsb' 8 8) (w.extractLsb' 0 8)⟩,
  ⟨0x84#8, 0x000000#32, fun w => .lds (w.extractLsb' 16 8) (w.extractLsb' 8 8) (w.extractLsb' 0 8)⟩,
  ⟨0x85#8, 0x000000#32, fun w => .ldsu (w.extractLsb' 16 8) (w.extractLsb' 8 8) (w.extractLsb' 0 8)⟩,
  ⟨0x86#8, 0x000000#32, fun w => .ldw (w.extractLsb' 16 8) (w.extractLsb' 8 8) (w.extractLsb' 0 8)⟩,
  ⟨0x87#8, 0x000000#32, fun w => .stb (w.extractLsb' 16 8) (w.extractLsb' 8 8) (w.extractLsb' 0 8)⟩,
  ⟨0x88#8, 0x000000#32, fun w => .sth (w.extractLsb' 16 8) (w.extractLsb' 8 8) (w.extractLsb' 0 8)⟩,
  ⟨0x89#8, 0x000000#32, fun w => .sts (w.extractLsb' 16 8) (w.extractLsb' 8 8) (w.extractLsb' 0 8)⟩,
  ⟨0x8A#8, 0x000000#32, fun w => .stw (w.extractLsb' 16 8) (w.extractLsb' 8 8) (w.extractLsb' 0 8)⟩,
  ⟨0x8B#8, 0x000000#32, fun w => .ldro (w.extractLsb' 16 8) (w.extractLsb' 8 8) (w.extractLsb' 0 8)⟩,
  ⟨0x8C#8, 0x000000#32, fun w => .lde (w.extractLsb' 16 8) (w.extractLsb' 8 8) (w.extractLsb' 0 8)⟩,
  ⟨0x8D#8, 0x000000#32, fun w => .stf (w.extractLsb' 16 8) (w.extractLsb' 8 8) (w.extractLsb' 0 8)⟩,
  ⟨0x8E#8, 0x000000#32, fun w => .aadd (w.extractLsb' 16 8) (w.extractLsb' 8 8) (w.extractLsb' 0 8)⟩,
  ⟨0x8F#8, 0x000000#32, fun w => .aswp (w.extractLsb' 16 8) (w.extractLsb' 8 8) (w.extractLsb' 0 8)⟩]

/-- Opcodes 0x90 to 0x9F (02 R39). -/
def Encoding.rows9 : List Encoding := [
  ⟨0x90#8, 0x000000#32, fun w => .acas (w.extractLsb' 16 8) (w.extractLsb' 8 8) (w.extractLsb' 0 8)⟩,
  ⟨0x91#8, 0x000000#32, fun w => .amin (w.extractLsb' 16 8) (w.extractLsb' 8 8) (w.extractLsb' 0 8)⟩,
  ⟨0x92#8, 0x000000#32, fun w => .amax (w.extractLsb' 16 8) (w.extractLsb' 8 8) (w.extractLsb' 0 8)⟩,
  ⟨0x93#8, 0x0000FF#32, fun w => .hold (w.extractLsb' 16 8) (w.extractLsb' 8 8)⟩,
  ⟨0x94#8, 0x0000FF#32, fun w => .unhold (w.extractLsb' 16 8) (w.extractLsb' 8 8)⟩,
  ⟨0x95#8, 0xFFFFFF#32, fun _ => .fence⟩,
  ⟨0x96#8, 0xFFFFFF#32, fun _ => .fenceSib⟩,
  ⟨0x97#8, 0x000000#32, fun w => .flushp (w.extractLsb' 16 8) (w.extractLsb' 8 8) (w.extractLsb' 0 8)⟩,
  ⟨0x98#8, 0x000000#32, fun w => .invp (w.extractLsb' 16 8) (w.extractLsb' 8 8) (w.extractLsb' 0 8)⟩,
  ⟨0x99#8, 0x000000#32, fun w => .discard (w.extractLsb' 16 8) (w.extractLsb' 8 8) (w.extractLsb' 0 8)⟩,
  ⟨0x9A#8, 0xFF0000#32, fun w => .pref (w.extractLsb' 8 8) (w.extractLsb' 0 8)⟩,
  ⟨0x9B#8, 0xFF0000#32, fun w => .tick (w.extractLsb' 0 16)⟩,
  ⟨0x9C#8, 0x0000FF#32, fun w => .tsprobe (w.extractLsb' 16 8) (w.extractLsb' 8 8)⟩,
  ⟨0x9D#8, 0x000000#32, fun w => .ldex (w.extractLsb' 16 8) (w.extractLsb' 8 8) (w.extractLsb' 0 8)⟩]

/-- Opcodes 0xA0 to 0xAF (02 R39). -/
def Encoding.rowsA : List Encoding := [
  ⟨0xA0#8, 0x000000#32, fun w => .bset (w.extractLsb' 16 8) (w.extractLsb' 8 8) (w.extractLsb' 0 8)⟩,
  ⟨0xA1#8, 0x000000#32, fun w => .bcomp (w.extractLsb' 16 8) (w.extractLsb' 8 8) (w.extractLsb' 0 8)⟩,
  ⟨0xA2#8, 0x0000FF#32, fun w => .binfo (w.extractLsb' 16 8) (w.extractLsb' 8 8)⟩]

/-- Opcodes 0xB0 to 0xBF (02 R39). -/
def Encoding.rowsB : List Encoding := [
  ⟨0xB0#8, 0x000000#32, fun w => .rcp (w.extractLsb' 16 8) (w.extractLsb' 0 16)⟩,
  ⟨0xB1#8, 0x00FFFF#32, fun w => .rcpfree (w.extractLsb' 16 8)⟩,
  ⟨0xB2#8, 0x0000FF#32, fun w => .rcpq (w.extractLsb' 16 8) (w.extractLsb' 8 8)⟩]

/-- Opcodes 0xC0 to 0xCF (02 R39). -/
def Encoding.rowsC : List Encoding := [
  ⟨0xC0#8, 0x000000#32, fun w => .spawn (w.extractLsb' 16 8) (w.extractLsb' 8 8) (w.extractLsb' 0 8)⟩,
  ⟨0xC1#8, 0xFFFFFF#32, fun _ => .exit⟩,
  ⟨0xC2#8, 0x000000#32, fun w => .waitw (w.extractLsb' 16 8) (w.extractLsb' 0 16)⟩,
  ⟨0xC3#8, 0x000000#32, fun w => .post (w.extractLsb' 16 8) (w.extractLsb' 8 8) (w.extractLsb' 0 8)⟩,
  ⟨0xC4#8, 0xFFFFFF#32, fun _ => .yield⟩,
  ⟨0xC5#8, 0x0000FF#32, fun w => .launch (w.extractLsb' 16 8) (w.extractLsb' 8 8)⟩,
  ⟨0xC6#8, 0x0000FF#32, fun w => .lwait (w.extractLsb' 16 8) (w.extractLsb' 8 8)⟩,
  ⟨0xC7#8, 0x0000FF#32, fun w => .cancel (w.extractLsb' 16 8) (w.extractLsb' 8 8)⟩,
  ⟨0xC8#8, 0x00FFFF#32, fun w => .barrier (w.extractLsb' 16 8)⟩,
  ⟨0xC9#8, 0x0000FF#32, fun w => .epbind (w.extractLsb' 16 8) (w.extractLsb' 8 8)⟩,
  ⟨0xCA#8, 0x0000FF#32, fun w => .migr (w.extractLsb' 16 8) (w.extractLsb' 8 8)⟩]

/-- Opcodes 0xD0 to 0xDF (02 R39). -/
def Encoding.rowsD : List Encoding := [
  ⟨0xD0#8, 0x0000FF#32, fun w => .mm (w.extractLsb' 16 8) (w.extractLsb' 8 8)⟩,
  ⟨0xD1#8, 0x0000FF#32, fun w => .mms (w.extractLsb' 16 8) (w.extractLsb' 8 8)⟩,
  ⟨0xD2#8, 0x0000FF#32, fun w => .cpy (w.extractLsb' 16 8) (w.extractLsb' 8 8)⟩,
  ⟨0xD3#8, 0x0000FF#32, fun w => .coll (w.extractLsb' 16 8) (w.extractLsb' 8 8)⟩,
  ⟨0xD4#8, 0x0000FF#32, fun w => .jwait (w.extractLsb' 16 8) (w.extractLsb' 8 8)⟩,
  ⟨0xD5#8, 0x0000FF#32, fun w => .jpoll (w.extractLsb' 16 8) (w.extractLsb' 8 8)⟩]

/-- Opcodes 0xE0 to 0xEF (02 R39). -/
def Encoding.rowsE : List Encoding := [
  ⟨0xE0#8, 0x000000#32, fun w => .sysr (w.extractLsb' 16 8) (w.extractLsb' 0 16)⟩,
  ⟨0xE1#8, 0x000000#32, fun w => .sysw (w.extractLsb' 16 8) (w.extractLsb' 0 16)⟩,
  ⟨0xE2#8, 0xFF0000#32, fun w => .trap (w.extractLsb' 0 16)⟩,
  ⟨0xE3#8, 0xFF00FF#32, fun w => .tret (w.extractLsb' 8 8)⟩,
  ⟨0xE4#8, 0x000000#32, fun w => .shoot (w.extractLsb' 16 8) (w.extractLsb' 8 8) (w.extractLsb' 0 8)⟩]

/-- Opcodes 0xF0 to 0xFF (02 R39). -/
def Encoding.rowsF : List Encoding := [
  ⟨0xFE#8, 0x000000#32, fun w => .pfxImm (w.extractLsb' 0 24)⟩,
  ⟨0xFF#8, 0x000000#32, fun w => .pfxMod (w.extractLsb' 21 3) (w.extractLsb' 19 2) (w.extractLsb' 17 2) (w.extractLsb' 13 4) (w.extractLsb' 8 5) (w.extractLsb' 0 8)⟩]

/-- The assigned opcodes whose upper half is `h` (02 R39). -/
def Encoding.rows : Nat → List Encoding
  | 0 => rows0
  | 1 => rows1
  | 2 => rows2
  | 3 => rows3
  | 4 => rows4
  | 5 => rows5
  | 6 => rows6
  | 8 => rows8
  | 9 => rows9
  | 10 => rowsA
  | 11 => rowsB
  | 12 => rowsC
  | 13 => rowsD
  | 14 => rowsE
  | 15 => rowsF
  | _ => []

/-- The opcode of a word: bits 31:24 (02 R24). -/
def opcodeOf (w : IWord) : BitVec 8 := w.extractLsb' 24 8

/-- The instruction that a word holds, or why it holds none (02 R41). -/
def decodeWord (w : IWord) : Except DecodeError Instr :=
  match (Encoding.rows ((opcodeOf w).toNat / 16)).find? (fun r => r.op == opcodeOf w) with
  | none => .error .reservedOpcode
  | some r => if w &&& r.reserved = 0#32 then .ok (r.make w) else .error .reservedField

/-- The word of four bytes, the first at the lowest address (02 R24; 00 R4). -/
def wordOfBytes (b0 b1 b2 b3 : Byte) : IWord := b3 ++ b2 ++ b1 ++ b0

/-- The four bytes of a word, the first at the lowest address. -/
def bytesOfWord (w : IWord) : List Byte :=
  [w.extractLsb' 0 8, w.extractLsb' 8 8, w.extractLsb' 16 8, w.extractLsb' 24 8]

/-- Decodes the first word of a byte sequence and returns the rest. -/
def decode : List Byte → Except DecodeError (Instr × List Byte)
  | b0 :: b1 :: b2 :: b3 :: rest => (decodeWord (wordOfBytes b0 b1 b2 b3)).map (fun i => (i, rest))
  | _ => .error .short

/-- The word of an instruction, written from the encodings of 02 R25 and the entries; an event has none. -/
def encode : Instr → Option IWord
  | .pfxImm h => some (0xFE#8 ++ h)
  | .pfxMod r c s f x n => some (0xFF#8 ++ r ++ c ++ s ++ f ++ x ++ n)
  | .add d a b => some (0x01#8 ++ d ++ a ++ b)
  | .sub d a b => some (0x02#8 ++ d ++ a ++ b)
  | .addi d a i => some (0x03#8 ++ d ++ a ++ i)
  | .mul d a b => some (0x04#8 ++ d ++ a ++ b)
  | .mulh d a b => some (0x05#8 ++ d ++ a ++ b)
  | .mulhu d a b => some (0x06#8 ++ d ++ a ++ b)
  | .div d a b => some (0x07#8 ++ d ++ a ++ b)
  | .divu d a b => some (0x08#8 ++ d ++ a ++ b)
  | .rem d a b => some (0x09#8 ++ d ++ a ++ b)
  | .remu d a b => some (0x0A#8 ++ d ++ a ++ b)
  | .and d a b => some (0x0B#8 ++ d ++ a ++ b)
  | .or d a b => some (0x0C#8 ++ d ++ a ++ b)
  | .xor d a b => some (0x0D#8 ++ d ++ a ++ b)
  | .andi d a i => some (0x0E#8 ++ d ++ a ++ i)
  | .ori d a i => some (0x0F#8 ++ d ++ a ++ i)
  | .xori d a i => some (0x10#8 ++ d ++ a ++ i)
  | .shl d a b => some (0x11#8 ++ d ++ a ++ b)
  | .shr d a b => some (0x12#8 ++ d ++ a ++ b)
  | .sar d a b => some (0x13#8 ++ d ++ a ++ b)
  | .shli d a i => some (0x14#8 ++ d ++ a ++ i)
  | .shri d a i => some (0x15#8 ++ d ++ a ++ i)
  | .sari d a i => some (0x16#8 ++ d ++ a ++ i)
  | .slt d a b => some (0x17#8 ++ d ++ a ++ b)
  | .sltu d a b => some (0x18#8 ++ d ++ a ++ b)
  | .seq d a b => some (0x19#8 ++ d ++ a ++ b)
  | .slti d a i => some (0x1A#8 ++ d ++ a ++ i)
  | .sel d a b => some (0x1B#8 ++ d ++ a ++ b)
  | .min d a b => some (0x1C#8 ++ d ++ a ++ b)
  | .max d a b => some (0x1D#8 ++ d ++ a ++ b)
  | .minu d a b => some (0x1E#8 ++ d ++ a ++ b)
  | .maxu d a b => some (0x1F#8 ++ d ++ a ++ b)
  | .clz d a => some (0x20#8 ++ d ++ a ++ 0#8)
  | .popc d a => some (0x21#8 ++ d ++ a ++ 0#8)
  | .hash64 d a b => some (0x22#8 ++ d ++ a ++ b)
  | .cvtu d a => some (0x23#8 ++ d ++ a ++ 0#8)
  | .ldi d i => some (0x24#8 ++ d ++ i)
  | .addpc d i => some (0x25#8 ++ d ++ i)
  | .bz a o => some (0x26#8 ++ a ++ o)
  | .bnz a o => some (0x27#8 ++ a ++ o)
  | .bltz a o => some (0x28#8 ++ a ++ o)
  | .bgez a o => some (0x29#8 ++ a ++ o)
  | .bgtz a o => some (0x2A#8 ++ a ++ o)
  | .blez a o => some (0x2B#8 ++ a ++ o)
  | .j o => some (0x2C#8 ++ o)
  | .call o => some (0x2D#8 ++ o)
  | .jmpr d a => some (0x2E#8 ++ d ++ a ++ 0#8)
  | .sext d a i => some (0x2F#8 ++ d ++ a ++ i)
  | .fadd d a b => some (0x30#8 ++ d ++ a ++ b)
  | .fsub d a b => some (0x31#8 ++ d ++ a ++ b)
  | .fmul d a b => some (0x32#8 ++ d ++ a ++ b)
  | .ffma d a b => some (0x33#8 ++ d ++ a ++ b)
  | .fdiv d a b => some (0x34#8 ++ d ++ a ++ b)
  | .fsqrt d a => some (0x35#8 ++ d ++ a ++ 0#8)
  | .fmin d a b => some (0x36#8 ++ d ++ a ++ b)
  | .fmax d a b => some (0x37#8 ++ d ++ a ++ b)
  | .flg2 d a => some (0x38#8 ++ d ++ a ++ 0#8)
  | .fex2 d a => some (0x39#8 ++ d ++ a ++ 0#8)
  | .feq d a b => some (0x3A#8 ++ d ++ a ++ b)
  | .flt d a b => some (0x3B#8 ++ d ++ a ++ b)
  | .fle d a b => some (0x3C#8 ++ d ++ a ++ b)
  | .fcvt d a i => some (0x3D#8 ++ d ++ a ++ i)
  | .fclass d a => some (0x3E#8 ++ d ++ a ++ 0#8)
  | .fsgnj d a b => some (0x3F#8 ++ d ++ a ++ b)
  | .frint d a => some (0x40#8 ++ d ++ a ++ 0#8)
  | .ffms d a b => some (0x41#8 ++ d ++ a ++ b)
  | .vadd d a b => some (0x50#8 ++ d ++ a ++ b)
  | .vsub d a b => some (0x51#8 ++ d ++ a ++ b)
  | .vmul d a b => some (0x52#8 ++ d ++ a ++ b)
  | .vfma d a b => some (0x53#8 ++ d ++ a ++ b)
  | .vmin d a b => some (0x54#8 ++ d ++ a ++ b)
  | .vmax d a b => some (0x55#8 ++ d ++ a ++ b)
  | .vlg2 d a => some (0x56#8 ++ d ++ a ++ 0#8)
  | .vex2 d a => some (0x57#8 ++ d ++ a ++ 0#8)
  | .vcvt d a i => some (0x58#8 ++ d ++ a ++ i)
  | .vcmp d a b => some (0x59#8 ++ d ++ a ++ b)
  | .vsel d a b => some (0x5A#8 ++ d ++ a ++ b)
  | .vbcast d a => some (0x5B#8 ++ d ++ a ++ 0#8)
  | .vsum d a => some (0x5C#8 ++ d ++ a ++ 0#8)
  | .vmaxr d a => some (0x5D#8 ++ d ++ a ++ 0#8)
  | .vargmax d a b => some (0x5E#8 ++ d ++ a ++ b)
  | .vhash d a b => some (0x5F#8 ++ d ++ a ++ b)
  | .viadd d a b => some (0x60#8 ++ d ++ a ++ b)
  | .vimul d a b => some (0x61#8 ++ d ++ a ++ b)
  | .vand d a b => some (0x62#8 ++ d ++ a ++ b)
  | .vor d a b => some (0x63#8 ++ d ++ a ++ b)
  | .vxor d a b => some (0x64#8 ++ d ++ a ++ b)
  | .vshf d a b => some (0x65#8 ++ d ++ a ++ b)
  | .vld d a i => some (0x66#8 ++ d ++ a ++ i)
  | .vst d a i => some (0x67#8 ++ d ++ a ++ i)
  | .vldn d a b => some (0x68#8 ++ d ++ a ++ b)
  | .ldb d a i => some (0x80#8 ++ d ++ a ++ i)
  | .ldbu d a i => some (0x81#8 ++ d ++ a ++ i)
  | .ldh d a i => some (0x82#8 ++ d ++ a ++ i)
  | .ldhu d a i => some (0x83#8 ++ d ++ a ++ i)
  | .lds d a i => some (0x84#8 ++ d ++ a ++ i)
  | .ldsu d a i => some (0x85#8 ++ d ++ a ++ i)
  | .ldw d a i => some (0x86#8 ++ d ++ a ++ i)
  | .stb d a i => some (0x87#8 ++ d ++ a ++ i)
  | .sth d a i => some (0x88#8 ++ d ++ a ++ i)
  | .sts d a i => some (0x89#8 ++ d ++ a ++ i)
  | .stw d a i => some (0x8A#8 ++ d ++ a ++ i)
  | .ldro d a i => some (0x8B#8 ++ d ++ a ++ i)
  | .lde d a i => some (0x8C#8 ++ d ++ a ++ i)
  | .stf d a i => some (0x8D#8 ++ d ++ a ++ i)
  | .aadd d a b => some (0x8E#8 ++ d ++ a ++ b)
  | .aswp d a b => some (0x8F#8 ++ d ++ a ++ b)
  | .acas d a b => some (0x90#8 ++ d ++ a ++ b)
  | .amin d a b => some (0x91#8 ++ d ++ a ++ b)
  | .amax d a b => some (0x92#8 ++ d ++ a ++ b)
  | .hold d a => some (0x93#8 ++ d ++ a ++ 0#8)
  | .unhold d a => some (0x94#8 ++ d ++ a ++ 0#8)
  | .fence => some (0x95#8 ++ 0#24)
  | .fenceSib => some (0x96#8 ++ 0#24)
  | .flushp d a b => some (0x97#8 ++ d ++ a ++ b)
  | .invp d a b => some (0x98#8 ++ d ++ a ++ b)
  | .discard d a b => some (0x99#8 ++ d ++ a ++ b)
  | .pref a i => some (0x9A#8 ++ 0#8 ++ a ++ i)
  | .tick i => some (0x9B#8 ++ 0#8 ++ i)
  | .tsprobe d a => some (0x9C#8 ++ d ++ a ++ 0#8)
  | .ldex d a i => some (0x9D#8 ++ d ++ a ++ i)
  | .bset d a b => some (0xA0#8 ++ d ++ a ++ b)
  | .bcomp d a b => some (0xA1#8 ++ d ++ a ++ b)
  | .binfo d a => some (0xA2#8 ++ d ++ a ++ 0#8)
  | .rcp d i => some (0xB0#8 ++ d ++ i)
  | .rcpfree d => some (0xB1#8 ++ d ++ 0#16)
  | .rcpq d a => some (0xB2#8 ++ d ++ a ++ 0#8)
  | .spawn d a b => some (0xC0#8 ++ d ++ a ++ b)
  | .exit => some (0xC1#8 ++ 0#24)
  | .waitw d i => some (0xC2#8 ++ d ++ i)
  | .post d a b => some (0xC3#8 ++ d ++ a ++ b)
  | .yield => some (0xC4#8 ++ 0#24)
  | .launch d a => some (0xC5#8 ++ d ++ a ++ 0#8)
  | .lwait d a => some (0xC6#8 ++ d ++ a ++ 0#8)
  | .cancel d a => some (0xC7#8 ++ d ++ a ++ 0#8)
  | .barrier d => some (0xC8#8 ++ d ++ 0#16)
  | .epbind d a => some (0xC9#8 ++ d ++ a ++ 0#8)
  | .migr d a => some (0xCA#8 ++ d ++ a ++ 0#8)
  | .mm d a => some (0xD0#8 ++ d ++ a ++ 0#8)
  | .mms d a => some (0xD1#8 ++ d ++ a ++ 0#8)
  | .cpy d a => some (0xD2#8 ++ d ++ a ++ 0#8)
  | .coll d a => some (0xD3#8 ++ d ++ a ++ 0#8)
  | .jwait d a => some (0xD4#8 ++ d ++ a ++ 0#8)
  | .jpoll d a => some (0xD5#8 ++ d ++ a ++ 0#8)
  | .sysr d i => some (0xE0#8 ++ d ++ i)
  | .sysw d i => some (0xE1#8 ++ d ++ i)
  | .trap i => some (0xE2#8 ++ 0#8 ++ i)
  | .tret a => some (0xE3#8 ++ 0#8 ++ a ++ 0#8)
  | .shoot d a b => some (0xE4#8 ++ d ++ a ++ b)
  | .pageWalk _ => none
  | .loadReply _ _ => none
  | .bankReply _ => none
  | .threadReady _ => none
  | .cohRead _ _ => none
  | .exclusiveRequest _ _ => none
  | .recall _ _ => none
  | .storeTimestamp _ _ => none
  | .farAtomic _ => none
  | .writeBack _ => none
  | .l2Fill _ _ => none
  | .mergeWindowClose _ => none
  | .deferredDiscard _ => none
  | .holdCap _ _ => none
  | .ptsTick _ => none
  | .floorRaise => none
  | .ownTimeRaise _ => none
  | .l2StampSweep _ _ => none
  | .coreStampSweep _ _ => none
  | .steppedAdvance _ => none
  | .storageSweep _ => none
  | .registerSweep _ => none
  | .bankLoad _ => none
  | .bankStore _ => none
  | .fullBitRead _ => none
  | .granuleEmpty _ => none
  | .pop _ => none
  | .push _ => none
  | .peek _ => none
  | .count _ => none
  | .mapLookup _ => none
  | .mapInsert _ => none
  | .mapTake _ => none
  | .mapDelete _ => none
  | .heapInsert _ => none
  | .heapPop _ => none
  | .histRead _ => none
  | .histAdd _ => none
  | .histReadClear _ => none
  | .histSet _ => none
  | .bankVectorAccess _ => none
  | .bankLde _ => none
  | .bankStf _ => none
  | .keep _ _ _ => none
  | .drain _ => none
  | .clear _ => none
  | .compositionForm _ => none
  | .bankHandover _ _ => none
  | .trestleAccept _ => none
  | .tileStep _ _ _ _ => none
  | .publish _ _ _ => none
  | .trestleSave _ => none
  | .copyAccept _ => none
  | .copy _ _ _ => none
  | .fill _ _ _ => none
  | .gather _ _ _ => none
  | .scatteradd _ _ => none
  | .put _ _ => none
  | .get _ _ _ _ => none
  | .rmaRequest _ => none
  | .remotePutPublish _ => none
  | .retryBudgetExhausted _ _ => none
  | .copySave _ => none
  | .allreduce _ _ _ _ _ _ => none
  | .reduce _ _ _ _ _ _ => none
  | .bcast _ _ _ _ _ _ => none
  | .allgather _ _ _ _ _ _ => none
  | .waitwDispatch _ => none
  | .quiescence _ => none
  | .threadCreation _ _ => none
  | .launchRecordRead _ => none
  | .sideboardReport _ => none
  | .restart _ _ => none
  | .messageInjection _ => none
  | .messageDelivery _ => none
  | .overflowDrain _ _ _ => none
  | .migrationArrival _ => none
  | .quantumBoundary _ => none
  | .preEmption _ => none
  | .threadSave _ => none
  | .slotRst _ _ => none
  | .slotOwn _ _ => none
  | .cxId _ _ _ => none
  | .tmbox _ => none
  | .mailboxReply _ _ _ _ => none
  | .sysShootD _ _ => none
  | .trestlePre _ _ => none
  | .trestleRes _ _ => none
  | .copyPre _ _ => none
  | .copyRes _ _ => none
  | .registerWrite _ _ => none
  | .ctxnew _ _ => none
  | .ctxend _ => none
  | .map _ _ => none
  | .unmap _ => none
  | .winopen _ => none
  | .winclose _ => none
  | .submit _ _ => none
  | .hostCancel _ => none
  | .status _ => none
  | .logread _ => none
  | .group _ => none
  | .policy _ => none
  | .packageReset => none
  | .powerGood => none
  | .linkTrained _ => none
  | .bootImageRead _ => none
  | .sliceStart _ => none
  | .sliceFinished _ => none
  | .putPublishAcknowledged _ _ _ => none
  | .privStoreEntersL1 _ _ => none
  | .binfoReport _ => none

/-- The host's question: the instruction whose bits are `w`, numbered as spec/opcode_table.json numbers them. Every
instruction has one word; its bits above `nbits` are zero. -/
def decodeTableWord (nbits w : Nat) : Option Instr :=
  match decode (bytesOfWord (BitVec.ofNat 32 (w % 2 ^ nbits))) with
  | .ok (i, _) => some i
  | .error _ => none

end Sys2Proof
end

