-- ==== Sys2Proof/Config.lean ====
section
/-! DEFINITION. What the implementation fixes (01 R17, R18) and the free values of the model (notes/assumptions/2.md). -/

namespace Sys2Proof.Config

/-- Cores of the package (01 R17). -/
def cores : Nat := 4096
/-- Slots of a core (01 R17). -/
def slots : Nat := 64
/-- Clusters of the package (01 R17). -/
def clusters : Nat := 512
/-- Cores of a cluster. -/
def clusterCores : Nat := 8
/-- Banks of the package, four to a core. -/
def banks : Nat := 16384
/-- L2 slices of the package (08 R188). -/
def slices : Nat := 768
/-- Storage words of a bank (11 R259). -/
def bankWords : Nat := 8192
/-- The largest advance of an own time in 2^14 cycles (09 R227). -/
def maxAdvance : Nat := 2 ^ 20

/-- A value that the spec leaves open, one for each draw of the counter `fresh` of the state (notes/assumptions/2.md):
the contents of a bank word that holds no live entry (11 R260). Nothing constrains it. -/
opaque freeWord : Nat → Word

/-- Which line or entry a full cache or TLB replaces (08 R187; 14 R342), one choice for each draw of the counter `fresh`
(notes/assumptions/14.md). Nothing constrains it. -/
opaque choice : Nat → Nat

end Sys2Proof.Config
end

