-- ==== Sys2Proof/Machine/State.lean ====
section
/-! DEFINITION. The state of the package (INVENTORY.md, "State"), as plain data, and its value after package reset
(14 R357). A map from numbers is a list of pairs with strictly rising keys; a unit that is not listed is in its reset
state. -/

namespace Sys2Proof.Machine

/-- A map from unit numbers, as a list with rising keys. -/
abbrev FMap (α : Type) := List (Nat × α)

/-- Why a step faults. -/
inductive Fault where
  /-- Raised by an instruction word when no thread stands at the slot that issues (a choice of the agenda that names an
  empty slot runs nothing). Safe: nothing is claimed of it. -/
  | noThread
  /-- Raised by an event that names a unit the package does not have (01 R17). Safe. -/
  | noSuchUnit
  deriving DecidableEq, Repr

/-- Why a step refuses. -/
inductive Refusal where
  /-- Raised by an arm of `exec` that has no meaning yet. Safe. -/
  | notModelled (mnemonic : String)
  deriving DecidableEq, Repr

/-- A region attribute (08 R179). -/
inductive Attr where
  | priv
  | rshr
  | coh
  deriving DecidableEq, Repr

/-- An agent's own time (09 R206), how much of the limit of 09 R227 is left, and a time it is still to reach in steps. -/
structure Clock where
  t : Stamp := 0
  room : Nat := 2 ^ 20
  late : Option Stamp := none
  deriving DecidableEq, Repr

/-- The prefix latch (02 R33, R35, R37). -/
structure Latch where
  imm : BitVec 48 := 0
  nimm : Nat := 0
  modf : BitVec 24 := 0
  nmod : Nat := 0
  deriving DecidableEq, Repr

/-- One step of a recipe body (07 R162, R173). -/
structure RecipeStep where
  px : Bool
  hi : BitVec 24
  iw : IWord
  poison : Bool := false
  deriving DecidableEq, Repr

/-- A recipe bound to a formula name (07 R164). -/
structure Recipe where
  rm : BitVec 3
  stale : Bool
  body : List RecipeStep
  deriving DecidableEq, Repr

/-- A line that arrived for a load: its data, poison and lease end (09 R209, R213). -/
structure Served where
  line : Nat
  attr : Attr
  data : LineData
  poison : Bool
  wts : Stamp
  rts : Stamp
  /-- No copy is placed in the L1 (08 R191; 02 R37). -/
  once : Bool := false
  /-- A renewal: the reply carries no data, for a copy with this wts (09 R209). -/
  renew : Option Stamp := none
  deriving DecidableEq, Repr

/-- A request for a line that waits at the line's owner while a hold lasts (09 R222): a read by a load of a thread (10 R233: 0, or
one more than the number of its entry in the load-data queue), an exclusive request of a core, a far atomic of a thread. -/
inductive Request where
  | read (uid entry : Nat)
  | exclusive (core : Nat)
  | far (uid : Nat)
  deriving DecidableEq, Repr

/-- An entry of the load-data queue (02 R29; 10 R234; 15 R376). -/
structure LdEntry where
  iw : IWord
  ea : Word
  line : Nat
  attr : Attr
  lease : Nat
  size : Nat
  signed : Bool
  /-- The cache hint (02 R37; 08 R187). -/
  ch : Nat := 0
  mask : LineMask := 0
  seq : Nat := 0
  served : Option Served := none
  val : Option Word := none
  poison : Bool := false
  /-- The poison is the entry's own, not its line's (15 R361, R368). -/
  swept : Bool := false
  deriving DecidableEq, Repr

/-- The kinds of bank operation (11 R261 to R267, R278 to R280; 05 R132; 10 R237). -/
inductive BankKind where
  | load (size : Nat) (signed : Bool)
  | store (size : Nat)
  | vload (count : Nat)
  | vstore (data : List Word)
  | lde (empty : Bool)
  | stf
  | bset
  | bcomp
  | binfo
  deriving DecidableEq, Repr

/-- A status and a value that come back from a bank, the home or an engine (02 R57; 06 R158). -/
structure Reply where
  status : Nat := 0
  value : Word := 0
  values : List Word := []
  time : Stamp := 0
  poison : Bool := false
  deriving DecidableEq, Repr

/-- The atomics (10 R239). -/
inductive AtomicKind where
  | add
  | swap
  | cas (old : Word)
  | min (unsigned : Bool)
  | max (unsigned : Bool)
  deriving DecidableEq, Repr

/-- An effect that leaves a pair, as the comparator sees it (15 R381). -/
structure Effect where
  kind : Nat
  addr : Word
  size : Nat
  data : List Word
  deriving DecidableEq, Repr

/-- A bank operation on its way (02 R57; 11 R268). -/
structure BankOp where
  tid : Nat
  uid : Nat
  ctx : Nat
  ea : Word
  bank : Nat
  cls : Nat
  key : Nat
  byte : Nat
  kind : BankKind
  v : Word
  time : Stamp
  ldq : Bool := false
  /-- The value begins a message: one that is no header of one traps before the operation has an effect (13 R333; 02 R55). -/
  header : Bool := false
  reply : Option Reply := none
  deriving DecidableEq, Repr

/-- What a parked thread waits for (12 R286). -/
inductive Wait where
  /-- The walk of a TLB miss (14 R343): the virtual address and 0 load, 1 store, 2 fetch; of a replay's load step, its name and
  step (07 R167). -/
  | walk (va : Word) (kind : Nat) (replay : Option (Nat × Nat))
  /-- The bytes `mask` of a line (09 R209), and the home's answer where it is on its way. `excl`: the line exclusively
  (09 R211). `ch`: the cache hint (08 R187). `step`: a replay's load asks for them (07 R165). -/
  | line (ea : Word) (line : Nat) (attr : Attr) (lease : Nat) (excl : Bool) (ch : Nat) (mask : LineMask) (reply : Option Served)
    (step : Bool)
  /-- The reply of a bank operation, by its number (02 R57). -/
  | bank (op : Nat)
  /-- A bank operation that is to be sent (02 R57). -/
  | bankSend (op : BankOp)
  /-- An atomic on its near or far path (09 R221). `header`: the old word begins a message (13 R333). -/
  | atomic (kind : AtomicKind) (b : Word) (line : Nat) (off : Nat) (header : Bool)
  /-- The head of the load-data queue (02 R29). -/
  | ldq
  | fwi
  | fwo
  | rcv
  /-- A complete message that is to leave (13 R333). -/
  | inject
  /-- The timestamps of the thread's older stores (09 R216). -/
  | stores
  /-- The timestamps of other stores of the core that a load met in part (09 R217), or of the thread's own (13 R323). -/
  | sibling (entries : List Nat)
  /-- The accesses that FENCE waits for (09 R219). -/
  | fence
  /-- A full store buffer, with the entries that it held (10 R233; 12 R286). -/
  | room (entries : List Nat)
  /-- Write-backs that the instruction started (08 R183, R196). -/
  | writeBacks
  /-- The end of other holds on a line (10 R241). -/
  | hold (line : Nat)
  /-- A deferred discard of lines under their attributes (08 R202, R204). -/
  | discard (lines : List (Nat × Attr))
  /-- An advance of own time that does not fit yet, and the room that it needs (09 R227). -/
  | advance (room : Nat)
  /-- The reply of an engine: 0 MM, 1 MMS, 2 CPY, 3 COLL, with the parameter group (06 R158; 10 R248, R255). -/
  | engine (kind : Nat) (param : List Word) (keep : Bool)
  /-- JWAIT (06 R160). -/
  | job (jid : Nat)
  /-- WAITW (13 R322): its destination and mask, and whether the thread is one that SPAWN created and has not issued. -/
  | work (d : BitVec 8) (mask : BitVec 16) (start : Bool)
  /-- LWAIT (13 R327). -/
  | launch (handle : Nat)
  /-- BARRIER after the arrival, with its destination (13 R330). -/
  | barrier (d : BitVec 8)
  /-- A handler's read of tmbox (15 R373); `posted` once its record has been made. -/
  | mailbox (posted : Bool)
  /-- A kill record that waits for its reply (15 R365). -/
  | killed (record : List Word) (posted : Bool)
  /-- A SHOOT that has made its drops (14 R344): its word and address, stores and loads on their way, threads with an access on
  its way, and engine jobs whose publish is to come, each with its cluster and unit. -/
  | shoot (w : IWord) (va : Word) (ids uids : List Nat) (jobs : List (Nat × Bool × Nat))
  /-- Threads that a SYSW pre-empts (14 R345). -/
  | saves (uids : List Nat)
  /-- The comparator of a pair: an effect, or a trap (15 R381, R382). -/
  | effect (e : Effect)
  | pairTrap (cause : Nat) (value : Word)
  /-- The load-value queue empty or full, or the release buffer full (15 R380, R381). -/
  | pairValue
  /-- A migration in transit (12 R302). -/
  | migration
  /-- The save of a pre-empted thread (15 R375): the destination of a BARRIER that it has arrived in, and the mask of a thread that
  SPAWN created and that has not issued. -/
  | save (arrived : Option (BitVec 8)) (start : Option (BitVec 16))
  deriving DecidableEq, Repr

/-- A value of the load-value queue (15 R380). -/
structure PairValue where
  kind : Nat
  addr : Word
  value : Word
  values : List Word
  bst : BitVec 3
  poison : Bool
  deriving DecidableEq, Repr

/-- What the unit in progress has received when it goes on: the address of the access it parked on, lines, a reply, and the
values that a leading thread has recorded for it (15 R380). -/
structure Resume where
  ea : Option Word := none
  served : List Served := []
  reply : Option Reply := none
  entered : List PairValue := []
  /-- How many of the recorded values the run has used. -/
  used : Nat := 0
  /-- Replay steps whose turns have been taken (07 R165, R166), and steps that the run has made. -/
  turns : Nat := 0
  ran : Nat := 0
  /-- The words of an RCP's body that have taken their turns; none: its own word has not (07 R164; 12 R285). -/
  body : Option (List IWord) := none
  /-- The words that the names of a unit had when it made its request; such a unit is not judged again (02 R54, R55). -/
  operands : Option (List Word) := none
  /-- The exception flags that the replays among those names raised (03 R70). -/
  flags : Nat := 0
  deriving DecidableEq, Repr

/-- A pair's role (15 R379). -/
inductive Role where
  | single
  | leading
  | trailing
  deriving DecidableEq, Repr

/-- A thread (02 R24 to R33; 07 R162; 10 R241; 12 R289). -/
structure Thread where
  uid : Nat
  ctx : Nat
  launch : Nat
  index : Option Nat
  home : Nat
  win : Nat
  wbase : Nat
  pc : BitVec 55
  unitPc : BitVec 55
  unitLen : Nat := 0
  latch : Latch := {}
  bst : BitVec 3 := 0
  ldq : List LdEntry := []
  sdq : List (Word × Bool) := []
  recipes : FMap Recipe := []
  holds : List Nat := []
  early : List Nat := []
  /-- The latest timestamp of stores that early reads were forwarded from on a core that the thread has left, extended (09 R218). -/
  earlyTime : Option Nat := none
  privLines : List Nat := []
  park : Option Wait := none
  resume : Resume := {}
  preempt : Option Nat := none
  role : Role := .single
  values : List PairValue := []
  /-- Effects of a leading thread that wait for the comparator without stopping it, oldest first, each with the store buffer entries
  that it made (15 R381). -/
  effects : List (Effect × Nat) := []
  released : Option Effect := none
  deriving DecidableEq, Repr

/-- The state of a slot (12 R281). -/
inductive SlotState where
  | free
  | home
  | away
  | guest
  deriving DecidableEq, Repr

/-- A message in a receive store or in a job's overflow queue, with its extended time (12 R312; 09 R225). `words` are those
not yet read. -/
structure HeldMessage where
  ctx : Nat
  job : Nat
  dst : Nat
  src : Nat
  srcUid : Nat
  words : List Word
  time : Nat
  /-- An unread rest of a message that was partly read (12 R312). -/
  partly : Bool := false
  /-- An error response (12 R314). -/
  error : Bool := false
  deriving DecidableEq, Repr

/-- A slot and its slot-scope registers (12 R281, R309; 14 R345; 15 R369, R371). -/
structure Slot where
  state : SlotState := .free
  owner : Option Nat := none
  own : Word := 0
  thread : Option Thread := none
  tstat : Word := 0
  tcause : Word := 0
  tvalue : Word := 0
  tpc : Word := 0
  tkeep : List Word := [0, 0, 0, 0]
  trecw : List Word := [0, 0, 0, 0]
  tsave : Word := 0
  rst : Nat := 0
  /-- The window that an AWAY slot keeps for its thread: its base and size (12 R281, R304). -/
  kept : Option (Nat × Nat) := none
  /-- The thread that an AWAY slot is reserved for (12 R281). -/
  awayOf : Option Nat := none
  compose : List (Word × Bool) := []
  /-- The job and the endpoint that is bound to the slot (13 R331). -/
  endpoint : Option (Nat × Nat) := none
  /-- Messages that have arrived for the slot, oldest first; the first may be partly read (12 R312; 13 R334). -/
  inbox : List HeldMessage := []
  deriving DecidableEq, Repr

/-- An entry of a register file, a core-shared register or a forward cell with its poison bit (15 R361). -/
structure Reg where
  val : Word := 0
  poison : Bool := false
  deriving DecidableEq, Repr

/-- A line of an L1 data cache (08 R182, R187; 09 R208). -/
structure L1Line where
  data : LineData
  dirty : LineMask := 0
  excl : Bool := false
  wts : Stamp := 0
  rts : Stamp := 0
  held : Option Nat := none
  poison : Bool := false
  /-- The first to be replaced (02 R37; 08 R187). -/
  soon : Bool := false
  /-- A copy whose line has been discarded: its wts names no state of the line that enters later (08 R202, R204). -/
  discarded : Bool := false
  deriving DecidableEq, Repr

/-- An entry of a store buffer: the bytes `mask` of one line (09 R211, R217). -/
structure StEntry where
  id : Nat
  uid : Nat
  ctx : Nat
  line : Nat
  attr : Attr
  mask : LineMask
  data : LineData
  /-- A PRIV store of a migratory launch, written through to the home (12 R305). -/
  through : Bool := false
  /-- The cache hint (02 R37; 08 R187). -/
  ch : Nat := 0
  /-- A store that the comparator of its pair has not let through (15 R381). -/
  waits : Bool := false
  deriving DecidableEq, Repr

/-- A TLB entry: the context, the level of its page (1 4 TiB, 2 512 MiB, 3 64 KiB), the page and its leaf (14 R342). -/
structure TlbEntry where
  ctx : Nat
  level : Nat
  page : Nat
  leaf : Word
  deriving DecidableEq, Repr

/-- A context-table entry of a core (14 R345). -/
structure CtxEntry where
  id : Word := 0
  sched : Word := 0x000007FF00010000
  time : Word := 256
  root : Word := 0
  trap : Word := 0
  jobs : Word := 0
  deriving DecidableEq, Repr

/-- A status entry of an engine's table of a core (06 R139, R160, R161). -/
structure StatusEntry where
  jid : Nat
  ctx : Nat
  launch : Nat
  keep : Bool
  ended : Option (Word × Stamp) := none
  /-- Threads whose JWAIT has been answered and has not completed. -/
  waiting : List Nat := []
  deriving DecidableEq, Repr

/-- A core (01 R17, R18). -/
structure Core where
  slots : FMap Slot := []
  rf : FMap Reg := []
  sh : FMap Reg := []
  /-- The values before the last writes of a core-shared register, youngest first, each with the slot that wrote and the cycle of
  its issue (02 R30). -/
  shOld : FMap (List (Word × Nat × Nat)) := []
  issues : Nat := 0
  /-- The cycle of the next issue, and of each slot's last (12 R284). -/
  cycle : Nat := 0
  issuedAt : FMap Nat := []
  /-- The cycle of the last tick of the package's own turns (notes/assumptions/1.md). -/
  ticked : Nat := 0
  cells : FMap Reg := []
  full : List Nat := []
  buffer : List StEntry := []
  l1 : FMap L1Line := []
  icache : FMap LineData := []
  tlb : List TlbEntry := []
  last : Nat := 63
  table : FMap CtxEntry := []
  cxSel : Nat := 0
  slotSel : Nat := 0
  guest : Nat := 8
  refetch : Nat := 0
  corrected : Nat := 0
  poisoned : Nat := 0
  regPoison : Nat := 0
  serial : List Nat := [1, 1]
  status : List StatusEntry := []
  holdQueue : List (Nat × Nat) := []
  deriving DecidableEq, Repr

/-- A waiting LDE (10 R237). -/
structure LdeWait where
  op : Nat
  key : Nat
  empty : Bool
  deriving DecidableEq, Repr

/-- A bank (11 R259, R260). `words` lists the words written since they were last scrubbed (15 R358). -/
structure Bank where
  owner : Nat := 0
  pers : Nat := 0
  cap : Nat := 8192
  words : FMap Reg := []
  full : List Nat := []
  head : Nat := 0
  count : Nat := 0
  live : FMap Reg := []
  /-- The keys of a MAP whose key word is poisoned (15 R363). -/
  badKeys : List Nat := []
  heap : List (Nat × Reg) := []
  /-- How many words of a HEAP, or slots of a MAP, inserts may have written since it was emptied (11 R260). -/
  high : Nat := 0
  home : Option Nat := none
  members : List Nat := []
  waiting : List LdeWait := []
  deriving DecidableEq, Repr

/-- A line at its L2 home (08 R188 to R191; 09 R208). `data = none`: a tag without a data entry (08 R191). -/
structure L2Line where
  data : Option LineData
  dirty : Bool := false
  tag : Option (Stamp × Nat) := none
  owner : Option Nat := none
  poison : Bool := false
  pins : Nat := 0
  /-- The line that it shares its data entry with (08 R189). -/
  mate : Option Nat := none
  /-- The first to be replaced (02 R37; 08 R187). -/
  soon : Bool := false
  deriving DecidableEq, Repr

/-- A write-back in flight: of a PRIV line to its home, or of an L2 line to pooled memory (08 R182, R203). -/
structure WriteBack where
  line : Nat
  toMemory : Bool
  /-- The core that it comes from, of a PRIV line. -/
  core : Nat
  mask : LineMask
  data : LineData
  poison : Bool
  deriving DecidableEq, Repr

/-- A slice's eviction time and counters (08 R190, R194; 15 R362). -/
structure Slice where
  ets : Stamp := 0
  bypass : Nat := 0
  sharedEntry : Nat := 0
  cancelled : Nat := 0
  refetch : Nat := 0
  corrected : Nat := 0
  poisoned : Nat := 0
  deriving DecidableEq, Repr

/-- A CXL controller: format regions and counters (03 R81; 08 R194). -/
structure Port where
  regions : FMap (List Word) := []
  single : Nat := 0
  burst : Nat := 0
  merged : Nat := 0
  dropped : Nat := 0
  wb : Nat := 0
  /-- Open merge windows: block and the lines that joined (08 R193). -/
  windows : FMap (List Nat) := []
  deriving DecidableEq, Repr

/-- A line of an engine's shadow (08 R197). -/
structure Shadow where
  mask : LineMask := 0
  data : LineData := 0
  attr : Attr := .priv
  /-- The address of the line, as its job writes it. -/
  va : Nat := 0
  /-- The line of the engine's spill area that holds its bytes. -/
  spilled : Option Nat := none
  poison : Bool := false
  deriving DecidableEq, Repr

/-- An engine job (06 R135 to R157; 10 R248 to R257). `kind`: 0 MM, 1 MMS, 2 CPY, 3 COLL. -/
structure Job where
  jid : Nat
  kind : Nat
  ctx : Nat
  core : Nat
  tid : Nat
  launch : Nat
  param : List Word
  /-- The latest time that the job has carried or met (09 R223). -/
  time : Stamp
  started : Bool := false
  /-- Position of the next step (06 R154; 10 R253): problem, tile row, tile column, pair, chunk; or row and offset. -/
  pos : List Nat := [0, 0, 0, 0, 0]
  /-- The accumulators of the output tile in progress, row by row; none yet: all zero (06 R154). -/
  acc : List (BitVec 128) := []
  shadow : FMap Shadow := []
  /-- Lines of the next tile-step that the fetch unit has pinned (06 R143). -/
  pinned : List Nat := []
  /-- All work is done and the publish is to come (06 R157). -/
  ready : Bool := false
  /-- The save area of a saved job, and its time, extended (15 R378; 09 R225). -/
  saved : Option Nat := none
  savedTime : Nat := 0
  cancel : Bool := false
  /-- A transfer with a remote package is under way (10 R252). -/
  sent : Bool := false
  /-- Bytes read for a PUT, or a rank's own bytes of a collective. -/
  bytes : List Byte := []
  /-- The instance of a collective, and whether this rank has contributed (10 R255, R256). -/
  inst : Nat := 0
  given : Bool := false
  /-- Contributions that a save area has held for the job, by rank; they take the place of its instance's (10 R258). -/
  parts : FMap (List Byte) := []
  deriving DecidableEq, Repr

/-- A request that a running job be pre-empted (15 R378): the save address, the job, and whether its step in progress has
ended. -/
structure PreRequest where
  addr : Nat
  jid : Nat
  stepped : Bool := false
  deriving DecidableEq, Repr

/-- An engine: its jobs in issue order, its turn (06 R142), its pre-emption registers (15 R378). -/
structure Engine where
  jobs : List Job := []
  pointer : Nat := 7
  turn : Nat := 0
  pre : Option PreRequest := none
  preJob : Nat := 0
  res : Nat := 0
  spill : Word := 0
  retries : Nat := 0
  deriving DecidableEq, Repr

/-- An item of a sideboard stage (12 R294, R295). -/
structure Item where
  words : List Word
  time : Stamp
  deriving DecidableEq, Repr

/-- A sideboard stage (12 R294). -/
structure Stage where
  launch : Nat := 0
  hwm : Nat := 0
  out : Option Nat := none
  items : List Item := []
  deriving DecidableEq, Repr

/-- A report to a launch's home sideboard (12 R293): 0 creation, 1 exit, 2 kill, 3 arrival, 4 arrival withdrawn. -/
structure Report where
  launch : Nat
  kind : Nat
  uid : Nat
  time : Stamp
  deriving DecidableEq, Repr

/-- A record of the bureau mailbox, with the slot that waits for its reply (15 R373). -/
structure Mail where
  words : List Word
  tid : Option Nat
  uid : Nat
  deriving DecidableEq, Repr

/-- A miss of an engine that waits for its walk, or that the walk of another's miss has answered (14 R343): the context, the page, the
engine (its copy unit or not) and the job, and once the walk has found no page, whether an entry was poisoned. -/
structure EngineMiss where
  ctx : Nat
  page : Nat
  copy : Bool
  jid : Nat
  ended : Option Bool := none
  deriving DecidableEq, Repr

/-- A cluster's shared units (01 R17). -/
structure Cluster where
  trestle : Engine := {}
  copy : Engine := {}
  stages : FMap Stage := []
  waiters : List Nat := []
  reports : List Report := []
  serial : Nat := 1
  tlb : List TlbEntry := []
  mailbox : FMap Mail := []
  /-- Posts that wait for an entry, in order: the core, the record and the waiting slot (15 R373). -/
  posts : List (Nat × Mail) := []
  shootA : Word := 0
  /-- The misses that the page walker runs or that wait for it, in arrival order: the context and the page (14 R343). -/
  walks : List (Nat × Nat) := []
  /-- The misses of the engines among them, with those answered that their engines have not taken up. -/
  asked : List EngineMiss := []
  deriving DecidableEq, Repr

/-- The state of a launch (13 R327). -/
inductive LaunchState where
  | pending
  | running
  | complete
  | cancelled
  | refused
  deriving DecidableEq, Repr

/-- A launch record's fields (02 R48). -/
structure LaunchRecord where
  win : Nat := 0
  paired : Bool := false
  restart : Bool := false
  migr : Bool := false
  nthr : Nat := 0
  entry : Nat := 0
  args : Word := 0
  smask : BitVec 16 := 0
  cmask : Nat := 0
  ccnt : Nat := 0
  cbase : Nat := 0
  stages : List (Nat × Option Nat) := []
  deriving DecidableEq, Repr

/-- A launch and its entry (12 R290, R293; 13 R325 to R328). -/
structure Launch where
  handle : Nat
  ctx : Nat
  job : Nat
  issuer : Option Nat
  recordVa : Word
  state : LaunchState := .pending
  why : Nat := 0
  record : LaunchRecord := {}
  nthr : Nat := 0
  created : Nat := 0
  exited : Nat := 0
  killed : Nat := 0
  /-- Next index of each cluster (12 R289), by cluster. -/
  next : FMap Nat := []
  /-- Indices to be created again (15 R366). -/
  again : List Nat := []
  /-- Indices of killed threads that no restart has replaced. -/
  lost : List Nat := []
  arrivals : List (Nat × Stamp) := []
  cancelling : Bool := false
  /-- The sideboard's time at the LAUNCH, which the record carries to each creation (09 R214). -/
  since : Stamp := 0
  /-- The latest exit (09 R214). -/
  time : Stamp := 0
  /-- Counters as they come about; those above are the home's (12 R293). -/
  made : Nat := 0
  gone : Nat := 0
  deriving DecidableEq, Repr

/-- A message on the network (12 R308 to R314). `toSlot`: its destination slot; none: the overflow queue. -/
structure Message where
  words : List Word
  ctx : Nat
  job : Nat
  dst : Nat
  src : Nat
  srcUid : Nat
  time : Stamp
  error : Bool := false
  toSlot : Option Nat
  deriving DecidableEq, Repr

/-- A thread packet on the migration class (12 R303), on its way to a slot that holds its place: the words of its header flit and
the window. -/
structure Packet where
  uid : Nat
  header : List Word
  window : List Reg
  /-- The recipe records, by rising name, with each word's poison (07 R173). -/
  records : List (Word × Bool) := []
  target : Nat
  deriving DecidableEq, Repr

/-- A saved thread as the package counts it (12 R289, R290; 13 R330; 15 R375): its identity, the address of its record, what
it holds in a barrier, and the messages for its slot that no endpoint names. -/
structure SavedThread where
  pa : Nat
  uid : Nat
  ctx : Nat
  launch : Nat
  index : Option Nat
  home : Nat
  role : Role
  endpoint : Option (Nat × Nat)
  /-- The destination of the BARRIER that it has arrived in. -/
  arrived : Option (BitVec 8)
  start : Option (BitVec 16) := none
  /-- The release of its barrier, and its time, extended (09 R225). -/
  reply : Option Reply := none
  due : Nat := 0
  /-- The other thread of its pair (15 R379). -/
  mate : Option Nat := none
  inbox : List HeldMessage := []
  /-- The load-data queue as its record holds it, with what the record has no place for: the addresses of the loads that have arrived
  (15 R368, R376). -/
  ldq : List LdEntry := []
  deriving DecidableEq, Repr

/-- A memory window for remote access (10 R252; 14 R354). -/
structure Window where
  rkey : Nat
  va : Nat
  len : Nat
  put : Bool
  get : Bool
  peer : Nat
  deriving DecidableEq, Repr

/-- A job of a context as the steward keeps it (14 R354). -/
structure CtxJob where
  number : Nat
  /-- Launches that have not ended. -/
  incomplete : Nat := 0
  /-- A launch of the job has been taken. -/
  begun : Bool := false
  deriving DecidableEq, Repr

/-- An instance of a collective (10 R255 to R257; 14 R355): the group it started with, by rank the package and home tid, the
ranks that have issued it, the parameters they share, the contributions, the latest issue time, and its failure. -/
structure Coll where
  grp : Nat
  inst : Nat
  members : List (Nat × Nat)
  joined : List Nat := []
  shape : List Word := []
  parts : FMap (List Byte) := []
  time : Stamp := 0
  failed : Option Nat := none
  deriving DecidableEq, Repr

/-- A context in being (14 R336, R352, R354). -/
structure Context where
  host : Nat
  root : Nat
  jobTable : Nat
  /-- The sequence number of the CTXEND that is ending it (14 R354, R356). -/
  ending : Option Nat := none
  windows : List Window := []
  jobs : List CtxJob := []
  /-- Pooled memory that it holds: base and bytes (14 R354). -/
  frames : List (Nat × Nat) := []
  groups : FMap (List (Nat × Nat)) := []
  /-- How many instances each rank of a group has issued, by 2^32 times the group plus the rank. -/
  issued : FMap Nat := []
  colls : List Coll := []
  deriving DecidableEq, Repr

/-- A violation log: its entries, oldest first, and the overflow count (14 R348). -/
structure Log where
  entries : List (List Word) := []
  overflow : Nat := 0
  deriving DecidableEq, Repr

/-- The bring-up of 14 R357. -/
structure Boot where
  power : Bool := false
  links : List Nat := []
  imaged : Bool := false
  started : List Nat := []
  finished : List Nat := []
  opened : Bool := false
  pkgid : Nat := 0
  hosts : List Nat := []
  fabric : List (Nat × Nat) := []
  retries : Nat := 0
  deriving DecidableEq, Repr

/-- A choice of what acts next (notes/assumptions/1.md). -/
inductive Turn where
  /-- A core issues, with the datum that picks a member of an allowed set (00 R13). -/
  | issue (core : Nat) (pick : Nat)
  /-- An event of the opcode table. -/
  | event (i : Instr)
  /-- Replacement of a line of an L1 data cache, an L1 instruction cache or an L2 slice (08 R187). -/
  | evictL1 (core key : Nat)
  | evictI (core line : Nat)
  | evictL2 (line : Nat)
  /-- A TLB drops its entries of a page (14 R342). -/
  | evictTlb (core n : Nat)
  /-- The controller accepts a write-back from a slice's buffer (08 R203). -/
  | acceptWb (entry : Nat)
  /-- 2^14 cycles pass for an agent (09 R227). -/
  | elapse (agent : Agent)
  /-- A soft error flips the bits of `mask` in a stored word (15 R358). -/
  | softError (loc : Loc) (mask : Word)
  /-- Firmware enters a violation of its own in a context's log (14 R347, kind 7). -/
  | firmwareLog (ctx code src id : Nat) (addr : Word)
  /-- An agent outside the package writes a byte of pooled memory, or a memory device reports poison (07 R169). -/
  | outside (addr : Nat) (v : Byte)
  | memPoison (line : Nat)
  /-- A quantum's or a SHOOT's engine boundary passes; a parked SHOOT may end (14 R344). -/
  | idle
  deriving DecidableEq, Repr

structure State where
  cores : FMap Core := []
  clusters : FMap Cluster := []
  banks : FMap Bank := []
  slices : FMap Slice := []
  ports : FMap Port := []
  l2 : FMap L2Line := []
  mem : List Host.Cell := []
  memPoison : List Nat := []
  wbs : FMap WriteBack := []
  discards : List Nat := []
  /-- Requests that wait for the end of a hold, by line, in arrival order (09 R222). -/
  requests : FMap (List Request) := []
  clocks : List (Agent × Clock) := []
  floor : Nat := 0
  bankOps : FMap BankOp := []
  launches : FMap Launch := []
  contexts : FMap Context := []
  logs : FMap Log := []
  messages : FMap Message := []
  overflow : List HeldMessage := []
  /-- Where the oldest word of a job's overflow queue lies in its ring, by the job's entry (12 R311). -/
  rings : FMap Nat := []
  packets : FMap Packet := []
  saved : List SavedThread := []
  boot : Boot := {}
  responses : List (Nat × List Word) := []
  /-- The sequence number of the last command performed of each host (14 R356). -/
  sequence : FMap Nat := []
  /-- Remote puts that have arrived and are not yet published, requests sent to other packages, and answers to theirs: the
  status, the address, the bytes (10 R252). -/
  rma : FMap RmaRequest := []
  rmaSent : List RmaRequest := []
  rmaAnswers : List RemoteAnswer := []
  /-- Bytes of PRIV lines that publishes have written, by line, with the extended time of the latest (08 R198). -/
  published : FMap (List (LineMask × Nat)) := []
  errs : List (Loc × Word) := []
  /-- The issues of all cores when a line last moved between issues (notes/assumptions/1.md). -/
  moved : Nat := 0
  agenda : List Turn := []
  cur : Nat := 0
  pick : Nat := 0
  fresh : Nat := 0
  deriving DecidableEq, Repr

/-- The package after package reset (14 R357): every slot FREE with no owner, every context entry invalid, every bank
ARRAY and owned by context 0, every TLB empty, every own time and the floor zero; what the spec gives no reset value
for is as notes/assumptions/4.md says. -/
def State.reset : State := {}

end Sys2Proof.Machine
end

