-- ==== Sys2Proof/Machine/Bits.lean ====
section
/-! DEFINITION. Bit fields, maps, byte order and timestamps: the small operations that the rest of the model shares
(00 R4, R8; 09 R205). -/

namespace Sys2Proof.Machine

/-- The value of a map at a key, if it lists one. -/
def find {α : Type} : FMap α → Nat → Option α
  | [], _ => none
  | (k, v) :: m, n => if k = n then some v else find m n

/-- The value of a map at a key, `d` where it lists none. -/
def findD {α : Type} (m : FMap α) (d : α) (n : Nat) : α := (find m n).getD d

/-- A map with a value put at a key; the keys keep rising. -/
def put {α : Type} : FMap α → Nat → α → FMap α
  | [], n, v => [(n, v)]
  | (k, x) :: m, n, v => if n < k then (n, v) :: (k, x) :: m else if n = k then (n, v) :: m else (k, x) :: put m n v

/-- A map without a key. -/
def del {α : Type} (m : FMap α) (n : Nat) : FMap α := m.filter (fun p => p.1 != n)

/-- A map with a function applied to every value. -/
def mapVals {α : Type} (f : α → α) (m : FMap α) : FMap α := m.map (fun p => (p.1, f p.2))

/-- Bits `hi` to `lo` of a word, as a number (00 R4). -/
def bits (w : Word) (hi lo : Nat) : Nat := w.toNat / 2 ^ lo % 2 ^ (hi + 1 - lo)

/-- One bit of a word. -/
def bit (w : Word) (n : Nat) : Bool := w.getLsbD n

/-- A word with bits `hi` to `lo` replaced. -/
def setBits (w : Word) (hi lo : Nat) (v : Nat) : Word :=
  let m : Word := BitVec.ofNat 64 ((2 ^ (hi + 1 - lo) - 1) * 2 ^ lo)
  (w &&& ~~~m) ||| (BitVec.ofNat 64 (v % 2 ^ (hi + 1 - lo) * 2 ^ lo))

/-- A number as a word. -/
def word (n : Nat) : Word := BitVec.ofNat 64 n

/-- The low `n` bits of a word, read as two's complement and extended to 64 bits. -/
def signExtendFrom (n : Nat) (w : Word) : Word := (w.setWidth n).signExtend 64

/-- Replaces the element at an index of a list. -/
def setAt {α : Type} (l : List α) (n : Nat) (v : α) : List α := l.set n v

/-- Byte `k` of a line. -/
def lineByte (d : LineData) (k : Nat) : Byte := d.extractLsb' (8 * k) 8

/-- Word `k` of a line. -/
def lineWord (d : LineData) (k : Nat) : Word := d.extractLsb' (64 * k) 64

/-- A byte mask of `n` bytes from byte `off` of a line. -/
def maskOf (off n : Nat) : LineMask := BitVec.ofNat 32 ((2 ^ n - 1) * 2 ^ off)

/-- All bytes of a line. -/
def fullMask : LineMask := BitVec.allOnes 32

/-- A byte mask as a bit mask of the line. -/
def wideMask (m : LineMask) : LineData :=
  (List.range 32).foldl (fun acc k => if m.getLsbD k then acc ||| (BitVec.ofNat 256 (255 * 2 ^ (8 * k))) else acc) 0

/-- A line whose masked bytes come from `new` (08 R182). -/
def mergeLine (old new : LineData) (m : LineMask) : LineData :=
  if m = fullMask then new else (old &&& ~~~(wideMask m)) ||| (new &&& wideMask m)

/-- `v` placed at byte `off` of a line. -/
def atByte (v : Word) (off : Nat) : LineData := (v.setWidth 256) <<< (8 * off)

/-- The bytes from byte `off` of a line, as a word's low bytes. -/
def fromByte (d : LineData) (off : Nat) : Word := (d >>> (8 * off)).setWidth 64

/-- The `n` low bytes of a word, sign- or zero-extended (10 R233). -/
def extendBytes (n : Nat) (signed : Bool) (w : Word) : Word :=
  if n ≥ 8 then w else if signed then signExtendFrom (8 * n) w else word (w.toNat % 2 ^ (8 * n))

/-- A line from its four words, word 0 lowest. -/
def lineOfWords (ws : List Word) : LineData :=
  (ws.getD 3 0) ++ (ws.getD 2 0) ++ (ws.getD 1 0) ++ (ws.getD 0 0)

/-- The bytes of a word, lowest first (00 R4). -/
def wordBytes (w : Word) : List Byte := (List.range 8).map (fun k => w.extractLsb' (8 * k) 8)

/-- The number that a list of bytes holds, lowest first. -/
def bytesNat : List Byte → Nat
  | [] => 0
  | b :: bs => b.toNat + 256 * bytesNat bs

/-- The `n` low bytes of a number, lowest first. -/
def natBytes (n v : Nat) : List Byte := (List.range n).map (fun k => BitVec.ofNat 8 (v / 256 ^ k))

/-- Whether `b` is later than `a` (09 R205). -/
def later (a b : Stamp) : Bool := 1 ≤ (b - a).toNat && (b - a).toNat < 2 ^ 23

/-- Whether `a ≤ b` (09 R205). -/
def atMost (a b : Stamp) : Bool := a = b || later a b

/-- The later of two timestamps (09 R205). -/
def tmax (a b : Stamp) : Stamp := if later a b then b else a

/-- The extended time of a timestamp: the value congruent to it in [F - 2^23, F + 2^23) (09 R225). -/
def extendTime (floor : Nat) (t : Stamp) : Nat :=
  let base := floor + 2 ^ 24 - 2 ^ 23
  let up := base + (t.toNat + 2 ^ 24 - base % 2 ^ 24) % 2 ^ 24
  (up + 2 ^ 40 - 2 ^ 24) % 2 ^ 40

/-- The timestamp of a time that returns from outside the live agents: one earlier than F is replaced by F (09 R225). -/
def returnTime (floor : Nat) (x : Nat) : Stamp := 
  BitVec.ofNat 24 (if (x + 2 ^ 40 - floor % 2 ^ 40) % 2 ^ 40 ≥ 2 ^ 39 then floor else x)

/-- The number of one bits of a word. -/
def popCount (w : Word) : Nat := (List.range 64).foldl (fun n k => if w.getLsbD k then n + 1 else n) 0

/-- The numbers from `a`, `n` of them. -/
def numbers (a n : Nat) : List Nat := (List.range n).map (a + ·)

/-- The least element of a list by a key, the first on a tie. -/
def leastBy {α : Type} (key : α → Nat) : List α → Option α
  | [] => none
  | x :: xs => match leastBy key xs with
    | none => some x
    | some y => if key x ≤ key y then some x else some y

/-- The greatest element of a list by a key, the first on a tie. -/
def greatestBy {α : Type} (key : α → Nat) : List α → Option α
  | [] => none
  | x :: xs => match greatestBy key xs with
    | none => some x
    | some y => if key x ≥ key y then some x else some y

/-- Puts an element into a list that rises by a key, after those of the same key. -/
def insertBy {α : Type} (key : α → Nat) (x : α) : List α → List α
  | [] => [x]
  | y :: ys => if key x < key y then x :: y :: ys else y :: insertBy key x ys

/-- A list in rising order of a key, elements of one key in their order. -/
def sortBy {α : Type} (key : α → Nat) (l : List α) : List α := l.foldl (fun acc x => insertBy key x acc) []

/-- The byte of pooled memory at an address; a byte that nothing has written reads 0 (notes/assumptions/3.md). -/
def Memory.read : List Host.Cell → Nat → Byte
  | [], _ => 0
  | (k, v) :: m, a => if k = a then v else Memory.read m a

/-- Pooled memory with a byte written; a byte that reads 0 is not listed. -/
def Memory.write : List Host.Cell → Nat → Byte → List Host.Cell
  | [], a, v => if v = 0 then [] else [(a, v)]
  | (k, x) :: m, a, v =>
    if a < k then (if v = 0 then (k, x) :: m else (a, v) :: (k, x) :: m)
    else if a = k then (if v = 0 then m else (a, v) :: m)
    else (k, x) :: Memory.write m a v

/-- The canonical form of pooled memory: addresses rise strictly and no entry is 0. -/
def Memory.sorted : List Host.Cell → Bool
  | [] => true
  | [(_, v)] => v != 0
  | (k, v) :: (k', v') :: m => v != 0 && decide (k < k') && Memory.sorted ((k', v') :: m)

/-- Whether a state's pooled memory is in canonical form. -/
def Memory.wf (s : State) : Bool := Memory.sorted s.mem

/-- The line of pooled memory with a physical line number. -/
def Memory.readLine (m : List Host.Cell) (line : Nat) : LineData :=
  (List.range 32).foldl (fun acc k => acc ||| ((Memory.read m (32 * line + k)).setWidth 256) <<< (8 * k)) 0

/-- Pooled memory with the masked bytes of a line written. -/
def Memory.writeLine (m : List Host.Cell) (line : Nat) (d : LineData) (mask : LineMask) : List Host.Cell :=
  (List.range 32).foldl (fun acc k => if mask.getLsbD k then Memory.write acc (32 * line + k) (lineByte d k) else acc) m

end Sys2Proof.Machine
end

