-- ==== Sys2Proof/Machine/Ops.lean ====
section
/-! DEFINITION. The named operations over the state that the meanings share: accessors of the units, own times, the
violation log, the way an instruction ends (completes, traps, parks, is killed, migrates), and taking and leaving a
trap (02 R54, R55; 09 R227; 14 R347, R348; 15 R367 to R372). -/

namespace Sys2Proof.Machine

/-- A trap (15 R368): its cause and value, the words fetched for the unit after its instruction word (15 R372), the
name and step of a replay fault (07 R167), and what the unit had taken from outside (15 R380). -/
structure TrapInfo where
  cause : Nat
  value : Word
  extra : Nat := 0
  replay : Option (Nat × Nat) := none
  entered : List PairValue := []
  deriving DecidableEq, Repr

/-- How a unit ends without completing. -/
inductive Abort where
  /-- A trap (02 R55). -/
  | trap (t : TrapInfo)
  /-- The thread parks; the unit has had no effect and goes on later (02 R54). -/
  | park (w : Wait)
  /-- The thread parks for what its unit has asked for: the words of its names stand, with the flags that reading them raised and the
  values that it has taken from outside, and the unit goes on with them (02 R54, R55). -/
  | begun (w : Wait) (operands : List Word) (flags : Nat) (entered : List PairValue)
  /-- A leading thread parks at an effect; the values that the unit has taken from outside stay recorded (15 R380, R381). -/
  | match_ (e : Effect) (entered : List PairValue)
  /-- A replay step has had its turn; the unit goes on at the thread's next, with the lines that its loads took
  (07 R165, R166). -/
  | turn (served : List Served)
  /-- The thread is killed by an error: the record's code, value and further words (15 R365). -/
  | kill (code : Nat) (value : Word)
  /-- The thread is killed by a poisoned line that it consumed: the address and the line (15 R360, R364). -/
  | consumed (ea : Word) (line : Nat)
  /-- The thread migrates to a core, or home (12 R302, R304), where the unit begins again. -/
  | migrate (core : Nat) (home : Bool)
  /-- An engine's miss waits for its walk in a cluster's walker (14 R343). -/
  | miss (cluster : Nat) (m : EngineMiss)
  /-- An advance of an own time does not fit the limit (09 R227). -/
  | late (a : Agent) (t : Stamp)
  /-- The step stops. -/
  | stop (f : Fault)
  deriving DecidableEq, Repr

/-- A computation of one unit or event: its effects are on a state, and an abort leaves none (02 R55). -/
abbrev M := StateT State (Except Abort)

/-- Ends the unit. -/
def abort {α : Type} (a : Abort) : M α := throw a

/-- The core of a tid (00 R3). -/
def coreOf (tid : Nat) : Nat := tid / 64
/-- The slot of a tid (00 R3). -/
def slotOf (tid : Nat) : Nat := tid % 64
/-- The cluster of a core. -/
def clusterOf (core : Nat) : Nat := core / 8

def State.core (s : State) (c : Nat) : Core := findD s.cores {} c
def State.setCore (s : State) (c : Nat) (v : Core) : State := { s with cores := put s.cores c v }
def State.cluster (s : State) (k : Nat) : Cluster := findD s.clusters {} k
def State.setCluster (s : State) (k : Nat) (v : Cluster) : State := { s with clusters := put s.clusters k v }
def State.bank (s : State) (b : Nat) : Bank := findD s.banks {} b
def State.setBank (s : State) (b : Nat) (v : Bank) : State := { s with banks := put s.banks b v }
def State.slice (s : State) (n : Nat) : Slice := findD s.slices {} n
def State.setSlice (s : State) (n : Nat) (v : Slice) : State := { s with slices := put s.slices n v }
def State.port (s : State) (n : Nat) : Port := findD s.ports {} n
def State.setPort (s : State) (n : Nat) (v : Port) : State := { s with ports := put s.ports n v }
def State.slot (s : State) (tid : Nat) : Slot := findD (s.core (coreOf tid)).slots {} (slotOf tid)
def State.setSlot (s : State) (tid : Nat) (v : Slot) : State :=
  let c := s.core (coreOf tid)
  s.setCore (coreOf tid) { c with slots := put c.slots (slotOf tid) v }
def State.thread (s : State) (tid : Nat) : Option Thread := (s.slot tid).thread
def State.setThread (s : State) (tid : Nat) (t : Option Thread) : State :=
  s.setSlot tid { s.slot tid with thread := t }
def State.stage (s : State) (k n : Nat) : Stage := findD (s.cluster k).stages {} n
def State.setStage (s : State) (k n : Nat) (v : Stage) : State :=
  s.setCluster k { s.cluster k with stages := put (s.cluster k).stages n v }

/-- The clock of an agent. -/
def State.clock (s : State) (a : Agent) : Clock := ((s.clocks.find? (fun p => p.1 == a)).map (·.2)).getD {}

/-- The clocks with one replaced. -/
def setClockIn : List (Agent × Clock) → Agent → Clock → List (Agent × Clock)
  | [], a, c => [(a, c)]
  | (b, x) :: l, a, c => if b = a then (a, c) :: l else (b, x) :: setClockIn l a c

def State.setClock (s : State) (a : Agent) (c : Clock) : State := { s with clocks := setClockIn s.clocks a c }

/-- A core's logical time (02 R58). -/
def State.pts (s : State) (c : Nat) : Stamp := (s.clock (.core c)).t

/-- Every tid that holds a slot entry, in order. -/
def State.tids (s : State) : List Nat := s.cores.flatMap (fun c => c.2.slots.map (fun p => 64 * c.1 + p.1))

/-- The threads of the package with the slots they run in. -/
def State.threads (s : State) : List (Nat × Thread) :=
  s.tids.filterMap (fun t => (s.thread t).map (fun x => (t, x)))

/-- The thread of an identity. -/
def State.byUid (s : State) (uid : Nat) : Option (Nat × Thread) := s.threads.find? (fun p => p.2.uid == uid)

def getS : M State := get
def modS (f : State → State) : M Unit := modify f
def modCore (c : Nat) (f : Core → Core) : M Unit := modS (fun s => s.setCore c (f (s.core c)))
def modCluster (k : Nat) (f : Cluster → Cluster) : M Unit := modS (fun s => s.setCluster k (f (s.cluster k)))
def modBank (b : Nat) (f : Bank → Bank) : M Unit := modS (fun s => s.setBank b (f (s.bank b)))
def modSlice (n : Nat) (f : Slice → Slice) : M Unit := modS (fun s => s.setSlice n (f (s.slice n)))
def modPort (n : Nat) (f : Port → Port) : M Unit := modS (fun s => s.setPort n (f (s.port n)))
def modSlot (tid : Nat) (f : Slot → Slot) : M Unit := modS (fun s => s.setSlot tid (f (s.slot tid)))
def modThread (tid : Nat) (f : Thread → Thread) : M Unit := modSlot tid (fun x => { x with thread := x.thread.map f })

/-- A number never drawn before. -/
def draw : M Nat := do
  let s ← getS
  set { s with fresh := s.fresh + 1 }
  return s.fresh

/-- The slot that issues. -/
def myTid : M Nat := do return (← getS).cur
/-- The core that issues. -/
def myCore : M Nat := do return coreOf (← getS).cur
/-- The thread that issues. -/
def me : M Thread := do
  let s ← getS
  match s.thread s.cur with
  | some t => return t
  | none => abort (.stop .noThread)
def mySlot : M Slot := do let s ← getS; return s.slot s.cur
def modMe (f : Thread → Thread) : M Unit := do modThread (← myTid) f
def modMySlot (f : Slot → Slot) : M Unit := do modSlot (← myTid) f

/-- Raises an own time to `t` if that is later; an advance that does not fit waits (09 R206, R227). -/
def raise (a : Agent) (t : Stamp) : M Unit := do
  let s ← getS
  let c := s.clock a
  if later c.t t then
    let d := (t - c.t).toNat
    if d ≤ c.room then set (s.setClock a { t := t, room := c.room - d, late := none })
    else abort (.late a t)
  else pure ()

/-- An agent's own time. -/
def timeOf (a : Agent) : M Stamp := do return ((← getS).clock a).t

/-- The issuing core's pts. -/
def pts : M Stamp := do timeOf (.core (← myCore))

/-- Raises the issuing core's pts. -/
def raisePts (t : Stamp) : M Unit := do raise (.core (← myCore)) t

/-- A log with an entry: 64 entries, the oldest overwritten (14 R348). -/
def Log.add (l : Log) (e : List Word) : Log :=
  if l.entries.length < 64 then { l with entries := l.entries ++ [e] }
  else { entries := l.entries.drop 1 ++ [e], overflow := min (l.overflow + 1) 0xFFFFFFFF }

/-- The words of a log entry (14 R348). `src`: 0 thread, 1 engine, 2 host, 3 bureau. -/
def logWords (pkg kind code src id : Nat) (addr : Word) (time : Nat) : List Word :=
  [setBits (setBits (setBits (setBits (setBits 0 63 60 kind) 59 52 code) 51 32 pkg) 29 28 src) 17 0 id, addr,
   setBits 0 39 0 time, 0]

/-- A state with an entry in a context's violation log (14 R347, R348). -/
def State.logIn (s : State) (ctx kind code src id : Nat) (addr : Word) (time : Nat) (pkg : Nat) : State :=
  { s with logs := put s.logs ctx ((findD s.logs {} ctx).add (logWords pkg kind code src id addr time)) }

/-- Enters a violation of the package itself at an agent's time. -/
def violation (ctx kind code src id : Nat) (addr : Word) (t : Stamp) : M Unit :=
  modS (fun s => s.logIn ctx kind code src id addr (extendTime s.floor t) s.boot.pkgid)

/-- tstat's fields (03 R69; 07 R167; 15 R369). -/
def prv (w : Word) : Bool := bit w 28

/-- The number of a context's valid entry on a core (14 R345). -/
def State.entryOf (s : State) (core ctx : Nat) : Option Nat :=
  ((s.core core).table.find? (fun p => bit p.2.id 63 && bits p.2.id 11 0 = ctx)).map (·.1)

/-- A context's entry on a core; the reset entry where it has none. -/
def State.entry (s : State) (core ctx : Nat) : CtxEntry :=
  match s.entryOf core ctx with
  | some n => findD (s.core core).table {} n
  | none => {}

/-- The first word of the unit in progress (02 R33). -/
def Thread.first (t : Thread) : BitVec 55 := if t.unitLen = 0 then t.pc else t.unitPc

/-- A thread with its unit ended: the latch clear and nothing received (02 R55). -/
def Thread.endUnit (t : Thread) : Thread := { t with latch := {}, unitLen := 0, resume := {}, park := none }

/-- The context's owner of slot 0's sh registers: the assignment that slot_own holds, where its context has a valid
entry (02 R30; 14 R345). -/
def State.assigned (s : State) (tid : Nat) : Option Nat :=
  let w := (s.slot tid).own
  let ctx := bits w 11 0
  if bit w 63 && (s.entryOf (coreOf tid) ctx).isSome then some ctx else none

/-- tstat with the fields that every trap writes (07 R167; 15 R369). -/
def trapStat (w : Word) (ulen : Nat) (replay : Option (Nat × Nat)) : Word :=
  let w := setBits (setBits w 28 28 1) 25 22 ulen
  match replay with
  | some (name, step) => setBits (setBits (setBits w 19 18 step) 17 10 name) 9 9 1
  | none => setBits w 19 9 0

/-- An access fault of a thread is entered in its context's log (14 R347, kind 1). -/
def State.logFault (s : State) (tid : Nat) (x : Thread) (t : TrapInfo) : State :=
  if t.cause = 1 ∨ t.cause = 5 ∨ t.cause = 7 then
    s.logIn x.ctx 1 t.cause 0 x.home t.value (extendTime s.floor (s.pts (coreOf tid))) s.boot.pkgid
  else s

/-- What a thread's trap changes in its slot (02 R55; 15 R367 to R370): the trap registers, tstat, the handler's entry, the unit
ended, with what it recorded for its pair. -/
def State.enterTrap (s : State) (tid : Nat) (x : Thread) (t : TrapInfo) : State :=
  let sl := s.slot tid
  s.setSlot tid { sl with
    tcause := word t.cause, tvalue := t.value, tpc := x.first.setWidth 64,
    tstat := trapStat sl.tstat (x.unitLen + t.extra) t.replay,
    thread := some { x.endUnit with
      values := []
      released := none
      pc := (s.entry (coreOf tid) x.ctx).trap.setWidth 55 &&& ~~~3#55 } }

/-- Taking a trap that is no double trap (02 R55; 15 R367 to R370); an access fault is logged (14 R347). -/
def State.takeTrap (s : State) (tid : Nat) (x : Thread) (t : TrapInfo) : State := (s.enterTrap tid x t).logFault tid x t

/-- The return from a trap handler that goes on with the thread: prv is cleared and the pc is the trap's unit, or the
word after it (15 R372). -/
def State.returnTrap (s : State) (tid : Nat) (x : Thread) (skip : Bool) : State :=
  let sl := s.slot tid
  let pc := sl.tpc.setWidth 55 &&& ~~~3#55
  let n := bits sl.tstat 25 22 + 1
  s.setSlot tid { sl with
    tstat := setBits sl.tstat 28 28 0,
    thread := some { x.endUnit with pc := if skip then pc + BitVec.ofNat 55 (4 * n) else pc } }

/-- What the unit in progress has taken from outside (15 R380). -/
def State.entered (s : State) : List PairValue := ((s.thread s.cur).map (·.resume.entered)).getD []

/-- A trap of the unit in progress. -/
def trapWith {α : Type} (t : TrapInfo) : M α := do
  let s ← getS
  abort (.trap { t with entered := s.entered })

/-- An illegal instruction: cause 2 with the word (02 R41). -/
def illegal {α : Type} (w : IWord) (extra : Nat := 0) : M α := trapWith { cause := 2, value := w.setWidth 64, extra := extra }

/-- A trap with a cause of 15 R368. -/
def trap {α : Type} (cause : Nat) (value : Word) : M α := trapWith { cause := cause, value := value }

/-- Parks the thread; the unit goes on from here later (02 R54). -/
def park {α : Type} (w : Wait) : M α := abort (.park w)

/-- Goes on only if a condition holds; otherwise the thread parks (02 R54). -/
def parkUntil (c : Bool) (w : Wait) : M Unit := if c then pure () else park w

/-- Parks the thread for what its unit has asked for with the words of its names; the unit goes on with them later (02 R54, R55). -/
def parkBegun {α : Type} (w : Wait) (operands : List Word) : M α := do
  let s ← getS
  abort (.begun w operands (bits (s.slot s.cur).tstat 7 3) s.entered)

/-- Goes on only if a condition holds; otherwise the thread parks with the words of its names. -/
def begunUntil (c : Bool) (w : Wait) (operands : List Word) : M Unit := if c then pure () else parkBegun w operands

/-- The condition of an event: without it the event does nothing. -/
def need (c : Bool) : M Unit := if c then pure () else abort (.park (.advance 0))

/-- A value an event needs. -/
def needSome {α : Type} (o : Option α) : M α := match o with | some x => pure x | none => abort (.park (.advance 0))

end Sys2Proof.Machine
end

