-- ==== Sys2Proof/Machine/Alu.lean ====
section
/-! DEFINITION. The integer unit's results as functions of its operands (04 R90 to R99). -/

namespace Sys2Proof.Machine

/-- Bits 127:64 of the signed product (04 R91). -/
def mulh (a b : Word) : Word := BitVec.ofInt 64 (a.toInt * b.toInt / 2 ^ 64)
/-- Bits 127:64 of the unsigned product (04 R91). -/
def mulhu (a b : Word) : Word := word (a.toNat * b.toNat / 2 ^ 64)
/-- DIV (04 R92). -/
def divS (a b : Word) : Word :=
  if b = 0 then BitVec.allOnes 64 else BitVec.ofInt 64 (a.toInt.tdiv b.toInt)
/-- REM (04 R92). -/
def remS (a b : Word) : Word :=
  if b = 0 then a else BitVec.ofInt 64 (a.toInt - b.toInt * a.toInt.tdiv b.toInt)
/-- DIVU (04 R92). -/
def divU (a b : Word) : Word := if b = 0 then BitVec.allOnes 64 else word (a.toNat / b.toNat)
/-- REMU (04 R92). -/
def remU (a b : Word) : Word := if b = 0 then a else word (a.toNat % b.toNat)
/-- A comparison's result (04 R94). -/
def truth (c : Bool) : Word := if c then 1 else 0
def ltS (a b : Word) : Bool := decide (a.toInt < b.toInt)
def ltU (a b : Word) : Bool := decide (a.toNat < b.toNat)
def minS (a b : Word) : Word := if a.toInt ≤ b.toInt then a else b
def maxS (a b : Word) : Word := if b.toInt ≤ a.toInt then a else b
def minU (a b : Word) : Word := if a.toNat ≤ b.toNat then a else b
def maxU (a b : Word) : Word := if b.toNat ≤ a.toNat then a else b
/-- CLZ (04 R96). -/
def clz (a : Word) : Word := if a = 0 then 64 else word (63 - Nat.log2 a.toNat)
/-- POPC (04 R96). -/
def popc (a : Word) : Word := word (popCount a)
/-- SEXT (04 R97). -/
def sext (a : Word) (n : Nat) : Word := signExtendFrom n a
/-- HASH64 (04 R98). -/
def hash64 (a b : Word) : Word :=
  let z := a + b * 0x9E3779B97F4A7C15#64
  let z := (z ^^^ (z >>> 30)) * 0xBF58476D1CE4E5B9#64
  let z := (z ^^^ (z >>> 27)) * 0x94D049BB133111EB#64
  z ^^^ (z >>> 31)
/-- The FP32 pattern of n · 2^-24 for an odd n below 2^24 (04 R99). -/
def uniform32 (n : Nat) : Nat :=
  let top := Nat.log2 n
  (127 - 24 + top) * 2 ^ 23 + (n * 2 ^ (23 - top) - 2 ^ 23)
/-- CVTU (04 R99). -/
def cvtu (a : Word) : Word := word (uniform32 (2 * bits a 63 41 + 1))

end Sys2Proof.Machine
end

