-- ==== Sys2Proof/Machine/Num.lean ====
section
/-! DEFINITION. Number formats and exact arithmetic rounded once: the float formats, the five modes, the flags, the
logarithmic family, conversions (03; 05 R111 to R117). -/

namespace Sys2Proof.Machine

/-- The flags of 03 R69 as a number: nv 16, dz 8, of 4, uf 2, nx 1. -/
abbrev Flags := Nat

/-- A float format: exponent and fraction bits, and how far up its container the pattern stands (03 R64, R66). -/
structure Fmt where
  ebits : Nat
  fbits : Nat
  shift : Nat := 0
  e4m3 : Bool := false
  deriving DecidableEq, Repr

def Fmt.fp64 : Fmt := { ebits := 11, fbits := 52 }
def Fmt.fp32 : Fmt := { ebits := 8, fbits := 23 }
def Fmt.fp19 : Fmt := { ebits := 8, fbits := 10, shift := 13 }
def Fmt.bf16 : Fmt := { ebits := 8, fbits := 7 }
def Fmt.fp16 : Fmt := { ebits := 5, fbits := 10 }
def Fmt.e5m2 : Fmt := { ebits := 5, fbits := 2 }
def Fmt.e4m3' : Fmt := { ebits := 4, fbits := 3, e4m3 := true }

/-- The width of a format's pattern. -/
def Fmt.width (f : Fmt) : Nat := 1 + f.ebits + f.fbits
def Fmt.bias (f : Fmt) : Nat := 2 ^ (f.ebits - 1) - 1
/-- The exponent of the least normal value. -/
def Fmt.emin (f : Fmt) : Int := 1 - (f.bias : Int)
/-- The sign bit alone. -/
def Fmt.signBit (f : Fmt) : Nat := 2 ^ (f.width - 1) * 2 ^ f.shift
/-- The positive infinity, or for E4M3 its largest value (03 R77). -/
def Fmt.infBits (f : Fmt) : Nat := if f.e4m3 then 0x7E else (2 ^ f.ebits - 1) * 2 ^ f.fbits * 2 ^ f.shift
/-- The largest finite value. -/
def Fmt.maxBits (f : Fmt) : Nat := if f.e4m3 then 0x7E else ((2 ^ f.ebits - 1) * 2 ^ f.fbits - 1) * 2 ^ f.shift
/-- The canonical NaN (03 R64). -/
def Fmt.nanBits (f : Fmt) : Nat :=
  if f.e4m3 then 0x7F else ((2 ^ f.ebits - 1) * 2 ^ f.fbits + 2 ^ (f.fbits - 1)) * 2 ^ f.shift

/-- What a pattern stands for: a NaN, an infinity, or (-1)^neg · m · 2^e. -/
inductive Fp where
  | nan (signalling : Bool)
  | inf (neg : Bool)
  | fin (neg : Bool) (m : Nat) (e : Int)
  deriving DecidableEq, Repr

/-- The value of a pattern (03 R64 to R66). -/
def Fmt.read (f : Fmt) (w : Nat) : Fp :=
  let b := w / 2 ^ f.shift % 2 ^ f.width
  let neg := decide (2 ^ (f.width - 1) ≤ b)
  let ex := b / 2 ^ f.fbits % 2 ^ f.ebits
  let fr := b % 2 ^ f.fbits
  if f.e4m3 && ex = 15 && fr = 7 then .nan false
  else if !f.e4m3 && ex = 2 ^ f.ebits - 1 then (if fr = 0 then .inf neg else .nan (decide (fr < 2 ^ (f.fbits - 1))))
  else if ex = 0 then .fin neg fr (f.emin - f.fbits)
  else .fin neg (2 ^ f.fbits + fr) ((ex : Int) - f.bias - f.fbits)

/-- Rounds m · 2^e, with something more below if `sticky`, to a multiple of 2^q: the multiple, and whether it is inexact
(03 R68). Modes: 0 RNE, 1 RTZ, 2 RUP, 3 RDN, 4 RNA. -/
def roundAt (mode : Nat) (neg : Bool) (m : Nat) (e : Int) (sticky : Bool) (q : Int) : Nat × Bool :=
  if q ≤ e then (m * 2 ^ (e - q).toNat, sticky)
  else
    let k := (q - e).toNat
    let n := m / 2 ^ k
    let r := m % 2 ^ k
    let h := 2 ^ (k - 1)
    let inexact := sticky || r != 0
    let up := match mode with
      | 0 => decide (h < r) || (r = h && (sticky || n % 2 = 1))
      | 1 => false
      | 2 => inexact && !neg
      | 3 => inexact && neg
      | _ => decide (h ≤ r)
    (if up then n + 1 else n, inexact)

/-- A pattern with a sign. -/
def Fmt.signed (f : Fmt) (neg : Bool) (b : Nat) : Nat := if neg then b + f.signBit else b

/-- Rounds an exact value to a format: the pattern and the flags (02 R56; 03 R67, R68, R77). -/
def Fmt.round (f : Fmt) (mode : Nat) (neg : Bool) (m : Nat) (e : Int) (sticky : Bool := false) : Nat × Flags :=
  if m = 0 && !sticky then (f.signed neg 0, 0)
  else
    let top := e + (Nat.log2 m : Int)
    let q := max (top - f.fbits) (f.emin - f.fbits)
    let (n, inexact) := roundAt mode neg m e sticky q
    let (n, q) := if n = 2 ^ (f.fbits + 1) then (2 ^ f.fbits, q + 1) else (n, q)
    let free := (roundAt mode neg m e sticky (top - f.fbits)).1
    let tiny := decide (top < f.emin) && !(free = 2 ^ (f.fbits + 1) && top = f.emin - 1)
    let ex := if 2 ^ f.fbits ≤ n then (q + f.fbits + f.bias).toNat else 0
    let pat := if 2 ^ f.fbits ≤ n then ex * 2 ^ f.fbits + (n - 2 ^ f.fbits) else n
    let big := if f.e4m3 then decide (0x7E < pat) else decide (2 ^ f.ebits - 1 ≤ ex)
    if big then
      let toMax := !f.e4m3 && (mode = 1 || (mode = 2 && neg) || (mode = 3 && !neg))
      (f.signed neg (if toMax then f.maxBits else f.infBits), 5)
    else (f.signed neg (pat * 2 ^ f.shift), (if inexact then 1 else 0) + (if inexact && tiny then 2 else 0))

/-- Rounds an operation's value to a format. -/
def Fmt.write (f : Fmt) (mode : Nat) : Fp → Nat × Flags
  | .nan _ => (f.nanBits, 0)
  | .inf neg => (f.signed neg f.infBits, if f.e4m3 then 16 else 0)
  | .fin neg m e => f.round mode neg m e

/-- The exact sum of two finite values as a signed multiple of a power of two. -/
def exactSum (n1 : Bool) (m1 : Nat) (e1 : Int) (n2 : Bool) (m2 : Nat) (e2 : Int) : Int × Int :=
  let e := min e1 e2
  let a : Int := (m1 * 2 ^ (e1 - e).toNat : Nat)
  let b : Int := (m2 * 2 ^ (e2 - e).toNat : Nat)
  ((if n1 then -a else a) + (if n2 then -b else b), e)

/-- The sum of two values with its invalid flag; zero signs follow 05 R111. -/
def fpAdd (mode : Nat) (x y : Fp) : Fp × Flags :=
  match x, y with
  | .nan s, .nan t => (.nan false, if s || t then 16 else 0)
  | .nan s, _ => (.nan false, if s then 16 else 0)
  | _, .nan t => (.nan false, if t then 16 else 0)
  | .inf a, .inf b => if a = b then (.inf a, 0) else (.nan false, 16)
  | .inf a, _ => (.inf a, 0)
  | _, .inf b => (.inf b, 0)
  | .fin n1 m1 e1, .fin n2 m2 e2 =>
    let (s, e) := exactSum n1 m1 e1 n2 m2 e2
    if s = 0 then (.fin (if m1 = 0 && m2 = 0 && n1 = n2 then n1 else mode = 3) 0 0, 0)
    else (.fin (decide (s < 0)) s.natAbs e, 0)

/-- The product of two values with its invalid flag. -/
def fpMul (x y : Fp) : Fp × Flags :=
  match x, y with
  | .nan s, .nan t => (.nan false, if s || t then 16 else 0)
  | .nan s, _ => (.nan false, if s then 16 else 0)
  | _, .nan t => (.nan false, if t then 16 else 0)
  | .inf a, .inf b => (.inf (a != b), 0)
  | .inf a, .fin b m _ => if m = 0 then (.nan false, 16) else (.inf (a != b), 0)
  | .fin a m _, .inf b => if m = 0 then (.nan false, 16) else (.inf (a != b), 0)
  | .fin n1 m1 e1, .fin n2 m2 e2 => (.fin (n1 != n2) (m1 * m2) (e1 + e2), 0)

/-- The negative of a value. -/
def Fp.neg : Fp → Fp
  | .nan s => .nan s
  | .inf n => .inf (!n)
  | .fin n m e => .fin (!n) m e

/-- An operation's value rounded, with its own flags. -/
def finish (f : Fmt) (mode : Nat) (r : Fp × Flags) : Nat × Flags :=
  let (b, fl) := f.write mode r.1
  (b, fl ||| r.2)

def Fmt.add (f : Fmt) (mode a b : Nat) : Nat × Flags := finish f mode (fpAdd mode (f.read a) (f.read b))
def Fmt.sub (f : Fmt) (mode a b : Nat) : Nat × Flags := finish f mode (fpAdd mode (f.read a) (f.read b).neg)
def Fmt.mul (f : Fmt) (mode a b : Nat) : Nat × Flags := finish f mode (fpMul (f.read a) (f.read b))

/-- A · B + C rounded once; `neg` subtracts C. 0 × ∞ raises nv even when C is a quiet NaN (05 R111). -/
def Fmt.fma (f : Fmt) (mode a b c : Nat) (neg : Bool := false) : Nat × Flags :=
  let (p, fl) := fpMul (f.read a) (f.read b)
  let z := f.read c
  let (r, fl2) := fpAdd mode p (if neg then z.neg else z)
  finish f mode (r, fl ||| fl2)

/-- A / B (05 R111). -/
def Fmt.div (f : Fmt) (mode a b : Nat) : Nat × Flags :=
  match f.read a, f.read b with
  | .nan s, .nan t => (f.nanBits, if s || t then 16 else 0)
  | .nan s, _ => (f.nanBits, if s then 16 else 0)
  | _, .nan t => (f.nanBits, if t then 16 else 0)
  | .inf _, .inf _ => (f.nanBits, 16)
  | .inf n1, .fin n2 _ _ => f.write mode (.inf (n1 != n2))
  | .fin n1 _ _, .inf n2 => (f.signed (n1 != n2) 0, 0)
  | .fin n1 m1 e1, .fin n2 m2 e2 =>
    if m2 = 0 then (if m1 = 0 then (f.nanBits, 16) else (f.signed (n1 != n2) f.infBits, 8))
    else if m1 = 0 then (f.signed (n1 != n2) 0, 0)
    else
      let k := 2 * f.fbits + 8
      let q := m1 * 2 ^ k / m2
      f.round mode (n1 != n2) q (e1 - e2 - k) (m1 * 2 ^ k % m2 != 0)

/-- The integer square root: the greatest r with r·r ≤ n below 2^bits, found bit by bit from the top. -/
def isqrt (n : Nat) : Nat → Nat → Nat
  | 0, r => r
  | b + 1, r =>
    let r' := r + 2 ^ b
    isqrt n b (if r' * r' ≤ n then r' else r)

/-- √A (05 R111). -/
def Fmt.sqrt (f : Fmt) (mode a : Nat) : Nat × Flags :=
  match f.read a with
  | .nan s => (f.nanBits, if s then 16 else 0)
  | .inf neg => if neg then (f.nanBits, 16) else (f.infBits, 0)
  | .fin neg m e =>
    if m = 0 then (f.signed neg 0, 0)
    else if neg then (f.nanBits, 16)
    else
      let k := 2 * f.fbits + 8 + (if (e - (2 * f.fbits + 8 : Nat)) % 2 = 0 then 0 else 1)
      let n := m * 2 ^ k
      let r := isqrt n (Nat.log2 n / 2 + 1) 0
      f.round mode false r ((e - k) / 2) (r * r != n)

/-- A rounded to an integral value in its own format (05 R111). -/
def Fmt.rint (f : Fmt) (mode a : Nat) : Nat × Flags :=
  match f.read a with
  | .nan s => (f.nanBits, if s then 16 else 0)
  | .inf neg => (f.signed neg f.infBits, 0)
  | .fin neg m e =>
    if m = 0 || 0 ≤ e then f.round mode neg m e
    else
      let (n, inexact) := roundAt mode neg m e false 0
      ((f.round mode neg n 0).1, if inexact then 1 else 0)

/-- The key by which non-NaN values compare, with -0 below +0 where `zeros`. -/
def fpLess (x y : Fp) (zeros : Bool) : Bool :=
  match x, y with
  | .nan _, _ => false
  | _, .nan _ => false
  | .inf a, .inf b => a && !b
  | .inf a, _ => a
  | _, .inf b => !b
  | .fin n1 m1 e1, .fin n2 m2 e2 =>
    let (s, _) := exactSum n1 m1 e1 (!n2) m2 e2
    if s = 0 then zeros && m1 = 0 && n1 && !n2 else decide (s < 0)

def fpSame (x y : Fp) (zeros : Bool) : Bool :=
  match x, y with
  | .nan _, _ => false
  | _, .nan _ => false
  | _, _ => !fpLess x y zeros && !fpLess y x zeros

def Fp.isNan : Fp → Bool | .nan _ => true | _ => false
def Fp.isSnan : Fp → Bool | .nan s => s | _ => false

/-- minimumNumber, or maximumNumber (05 R112). -/
def Fmt.minmax (f : Fmt) (big : Bool) (a b : Nat) : Nat × Flags :=
  let x := f.read a
  let y := f.read b
  let fl := if x.isSnan || y.isSnan then 16 else 0
  let m := 2 ^ (f.width + f.shift)
  if x.isNan && y.isNan then (f.nanBits, fl)
  else if x.isNan then (b % m, fl)
  else if y.isNan then (a % m, fl)
  else if big then (if fpLess x y true then b % m else a % m, fl)
  else (if fpLess y x true then b % m else a % m, fl)

/-- The relations: 0 equal, 1 less, 2 less or equal, 3 not equal (05 R113, R122). -/
def Fmt.compare (f : Fmt) (rel a b : Nat) : Bool × Flags :=
  let x := f.read a
  let y := f.read b
  let quiet := rel = 0 || rel = 3
  let fl := if x.isSnan || y.isSnan || (!quiet && (x.isNan || y.isNan)) then 16 else 0
  let r := match rel with
    | 0 => fpSame x y false
    | 1 => fpLess x y false
    | 2 => fpLess x y false || fpSame x y false
    | _ => !fpSame x y false
  (r, fl)

/-- The class mask (05 R115). -/
def Fmt.classOf (f : Fmt) (a : Nat) : Nat :=
  match f.read a with
  | .nan s => if s then 256 else 512
  | .inf n => if n then 1 else 128
  | .fin n m _ =>
    if m = 0 then (if n then 8 else 16)
    else if m < 2 ^ f.fbits then (if n then 4 else 32)
    else if n then 2 else 64

/-- A · 2^-P below atanh(num/den) · 2^P by at most 3·n + 2, for num/den at most 1/3, from n terms of its series. -/
def atanhFix (p num den : Nat) : Nat :=
  let z := num * 2 ^ p / den
  let z2 := z * z / 2 ^ p
  ((List.range (p / 3 + 2)).foldl (fun (st : Nat × Nat) k => (st.1 + st.2 / (2 * k + 1), st.2 * z2 / 2 ^ p)) (0, z)).1

/-- The error bound of `atanhFix`. -/
def atanhErr (p : Nat) : Nat := 3 * (p / 3 + 2) + 2

/-- log2(m / 2^log2 m) · 2^P from below, and the width of the interval it lies in. -/
def log2Fix (p m : Nat) : Nat × Nat :=
  let one := 2 ^ Nat.log2 m
  let a := 2 * atanhFix p (m - one) (m + one)
  let b := 2 * atanhFix p 1 3
  let er := 2 * atanhErr p
  let lo := a * 2 ^ p / (b + er)
  (lo, (a + er) * 2 ^ p / b + 1 - lo)

/-- 2^(r / 2^k) · 2^P from below for 0 ≤ r < 2^k, and the width of the interval it lies in. -/
def exp2Fix (p r k : Nat) : Nat × Nat :=
  let ln2 := 2 * atanhFix p 1 3
  let er := 2 * atanhErr p
  let t := r * ln2 / 2 ^ k
  let n := p / 4 + 8
  let s := ((List.range n).foldl (fun (st : Nat × Nat) j => (st.1 + st.2, st.2 * t / 2 ^ p / (j + 1))) (0, 2 ^ p)).1
  (s, 2 * (er + 1) + 3 * n + 2)

/-- Rounds a value that is no rounding boundary and lies above lo · 2^(x - P) by at most the width, for growing P until
both ends round alike (05 R114). -/
def roundInterval (f : Fmt) (mode : Nat) (neg : Bool) (value : Nat → Nat × Nat) (x : Int) : List Nat → Nat × Flags
  | [] => (f.nanBits, 0)
  | p :: ps =>
    let (lo, w) := value p
    let a := f.round mode neg lo (x - p) true
    let b := f.round mode neg (lo + w) (x - p) true
    if a = b then a else roundInterval f mode neg value x ps

/-- The precisions tried. -/
def precisions : List Nat := [64, 192, 448, 960, 1984]

/-- FLG2 in a format (05 R114). -/
def Fmt.lg2 (f : Fmt) (mode a : Nat) : Nat × Flags :=
  match f.read a with
  | .nan s => (f.nanBits, if s then 16 else 0)
  | .inf neg => if neg then (f.nanBits, 16) else (f.infBits, 0)
  | .fin neg m e =>
    if m = 0 then (f.signed true f.infBits, 8)
    else if neg then (f.nanBits, 16)
    else
      let top := e + (Nat.log2 m : Int)
      if m = 2 ^ Nat.log2 m then f.round mode (decide (top < 0)) top.natAbs 0
      else if 0 ≤ top then
        roundInterval f mode false (fun p => let (l, w) := log2Fix p m; (top.toNat * 2 ^ p + l, w)) 0 precisions
      else
        -- The magnitude is -(top + log): it lies below -top · 2^P - lo.
        roundInterval f mode true (fun p => let (l, w) := log2Fix p m; (top.natAbs * 2 ^ p - (l + w), w)) 0 precisions

/-- 2^x for a dyadic x = (-1)^neg · m · 2^e that is no integer, rounded (05 R114). -/
def exp2Round (f : Fmt) (mode : Nat) (neg : Bool) (m k : Nat) : Nat × Flags :=
  -- x = ± m / 2^k; its floor and fraction
  let w := m / 2 ^ k
  let r := m % 2 ^ k
  let fl : Int := if neg then -(w : Int) - 1 else w
  let fr := if neg then 2 ^ k - r else r
  if fl < -400 then f.round mode false 1 (-400) true
  else if 400 < fl then f.round mode false 1 400 true
  else roundInterval f mode false (fun p => exp2Fix p fr k) fl precisions

/-- FEX2 in a format (05 R114). -/
def Fmt.ex2 (f : Fmt) (mode a : Nat) : Nat × Flags :=
  match f.read a with
  | .nan s => (f.nanBits, if s then 16 else 0)
  | .inf neg => if neg then (0, 0) else (f.infBits, 0)
  | .fin neg m e =>
    if m = 0 then f.round mode false 1 0
    else if 12 ≤ e + (Nat.log2 m : Int) then f.round mode false 1 (if neg then -400 else 400)
    else
      let n := if 0 ≤ e then m * 2 ^ e.toNat else m
      let k := (-e).toNat
      if n % 2 ^ k = 0 then
        let i := min (n / 2 ^ k) 400
        f.round mode false 1 (if neg then -(i : Int) else i)
      else exp2Round f mode neg n k

/-- The L8 value 2^((q-64)/8) as an interval-rounded float (03 R72, R75). An inexact tiny result raises uf beside nx, as 03 R67
says of every float result; 03 R75 names only nx and of (DESIGN CHOICE, notes/assumptions/59.md). -/
def l8ToFmt (f : Fmt) (mode : Nat) (b : Nat) : Nat × Flags :=
  let neg := decide (128 ≤ b % 256)
  let q := b % 128
  if q = 0 then (f.signed neg 0, 0)
  else if q % 8 = 0 then f.round mode neg 1 ((q / 8 : Nat) - 8)
  else roundInterval f mode neg (fun p => exp2Fix p (q % 8) 3) ((q / 8 : Nat) - 8) precisions

/-- The nearest logarithmic code of a value (03 R75), for a code with `bias`, `step` and largest code `top`. -/
def toLog (bias step top : Nat) (x : Fp) : Bool × Nat × Flags :=
  match x with
  | .nan _ => (false, 0, 16)
  | .inf neg => (neg, top, 16)
  | .fin neg m e =>
    if m = 0 then (neg, 0, 0)
    else
      let t : Int := (Nat.log2 (m ^ (2 * step)) : Int) + 2 * step * e
      let n : Int := bias + (t + 1) / 2
      let inexact := m != 2 ^ Nat.log2 m
      if n < 1 then (neg, 0, 3)
      else if top < n then (neg, top, 5)
      else (neg, n.toNat, if inexact then 1 else 0)

/-- A value as an L8 pattern (03 R75). -/
def toL8 (x : Fp) : Nat × Flags :=
  let (neg, q, fl) := toLog 64 8 127 x
  ((if neg then 128 else 0) + q, fl)

/-- A rounded integer clamped to a range (03 R76). -/
def clampInt (lo hi : Int) (n : Int) (inexact : Bool) : Int × Flags :=
  if n < lo then (lo, 16) else if hi < n then (hi, 16) else (n, if inexact then 1 else 0)

/-- A float to an integer (03 R76). -/
def toInt (mode : Nat) (lo hi : Int) : Fp → Int × Flags
  | .nan _ => (0, 16)
  | .inf neg => (if neg then lo else hi, 16)
  | .fin neg m e =>
    let (n, inexact) := roundAt mode neg m e false 0
    clampInt lo hi (if neg then -(n : Int) else n) inexact

/-- An L8 value to an integer (03 R75): rounded through an interval, as no half-integer is met. -/
def l8ToInt (mode : Nat) (lo hi : Int) (b : Nat) : Int × Flags :=
  let neg := decide (128 ≤ b % 256)
  let q := b % 128
  if q = 0 then (0, 0)
  else if q % 8 = 0 then toInt mode lo hi (.fin neg 1 ((q / 8 : Nat) - 8))
  else
    let (v, _) := exp2Fix 192 (q % 8) 3
    let (n, inexact) := roundAt mode neg v ((q / 8 : Nat) - 8 - 192) true 0
    clampInt lo hi (if neg then -(n : Int) else n) inexact

/-- An integer as a value. -/
def ofInt (n : Int) : Fp := .fin (decide (n < 0)) n.natAbs 0

/-- The float formats of FCVT's codes 0 to 6 (05 R117). -/
def fcvtFmt : Nat → Fmt
  | 0 => .fp32
  | 1 => .fp64
  | 2 => .bf16
  | 3 => .fp16
  | 4 => .fp19
  | 5 => .e4m3'
  | _ => .e5m2

/-- The range of an integer code 8 to 11 (05 R117). -/
def intRange : Nat → Int × Int
  | 8 => (-(2 ^ 31), 2 ^ 31 - 1)
  | 9 => (-(2 ^ 63), 2 ^ 63 - 1)
  | 10 => (0, 2 ^ 32 - 1)
  | _ => (0, 2 ^ 64 - 1)

/-- The value that an integer code reads from a register (05 R117). -/
def intValue (code : Nat) (a : Word) : Int :=
  match code with
  | 8 => (a.setWidth 32).toInt
  | 9 => a.toInt
  | 10 => (a.setWidth 32).toNat
  | _ => a.toNat

/-- A conversion of a float that keeps its format: only a signalling NaN changes (05 R117). -/
def Fmt.same (f : Fmt) (a : Nat) : Nat × Flags :=
  if (f.read a).isSnan then (f.nanBits, 16) else (a / 2 ^ f.shift % 2 ^ f.width * 2 ^ f.shift, 0)

/-- A conversion of a float value to a format, its signalling NaN raising nv (03 R76, R77). -/
def Fmt.convert (f : Fmt) (mode : Nat) (x : Fp) : Nat × Flags :=
  let (b, fl) := f.write mode x
  (b, fl ||| (if x.isSnan then 16 else 0))

/-- The bits of an integer code 8 to 11 (05 R117). -/
def intBits (code : Nat) : Nat := if code = 8 ∨ code = 10 then 32 else 64

/-- An integer between integer codes (03 R63): to a wider format it is extended as its own signedness says, else it saturates. Of
formats of one width the rule says nothing: saturation there is DESIGN CHOICE (notes/assumptions/58.md). -/
def intToInt (dst src : Nat) (n : Int) : Word :=
  if intBits src < intBits dst then BitVec.ofInt 64 n
  else BitVec.ofInt 64 (clampInt (intRange dst).1 (intRange dst).2 n false).1

/-- FCVT's conversion (05 R117). -/
def fcvt (mode dst src : Nat) (a : Word) : Word × Flags :=
  if dst = src then
    if src < 7 then let (b, fl) := (fcvtFmt src).same a.toNat; (word b, fl)
    else if src = 7 then (word (a.toNat % 256), 0)
    else (BitVec.ofInt 64 (intValue src a), 0)
  else if src < 7 then
    let x := (fcvtFmt src).read a.toNat
    if dst < 7 then let (b, fl) := (fcvtFmt dst).convert mode x; (word b, fl)
    else if dst = 7 then let (b, fl) := toL8 x; (word b, fl)
    else let (n, fl) := toInt mode (intRange dst).1 (intRange dst).2 x; (BitVec.ofInt 64 n, fl)
  else if src = 7 then
    if dst < 7 then let (b, fl) := l8ToFmt (fcvtFmt dst) mode a.toNat; (word b, fl)
    else let (n, fl) := l8ToInt mode (intRange dst).1 (intRange dst).2 a.toNat; (BitVec.ofInt 64 n, fl)
  else
    let n := intValue src a
    if dst < 7 then let (b, fl) := (fcvtFmt dst).write mode (ofInt n); (word b, fl)
    else if dst = 7 then let (b, fl) := toL8 (ofInt n); (word b, fl)
    else (intToInt dst src n, 0)

end Sys2Proof.Machine
end

