-- ==== Sys2Proof/Machine/Flags.lean ====
section
/-! DEFINITION. The arithmetic fields of tstat: the rounding mode that an instruction uses and the sticky flags it
raises (02 R56; 03 R68 to R70). -/

namespace Sys2Proof.Machine

/-- The mode that tstat.frm holds (03 R69). -/
def frmOf (w : Word) : Nat := min (bits w 2 0) 4

/-- The rounding mode: PFX.MOD's where it gives one, else tstat's (02 R56; 03 R68). -/
def modeOf (rm : Nat) (stat : Word) : Nat := if rm = 0 then frmOf stat else rm - 1

/-- tstat with flags ORed into bits 7:3 (03 R69, R70). -/
def orFlags (stat : Word) (fl : Flags) : Word := stat ||| word (fl % 32 * 8)

/-- tstat with er written (05 R126). -/
def setEr (stat : Word) (er : Bool) : Word := setBits stat 8 8 (if er then 1 else 0)

/-- tstat with its RW fields written from a value, frm clamped (03 R69; 07 R167; 15 R369; 00 R16). -/
def writeStat (stat v : Word) : Word :=
  setBits (setBits stat 19 3 (bits v 19 3)) 2 0 (min (bits v 2 0) 4)

end Sys2Proof.Machine
end

