-- ==== Sys2Proof/Machine/Format.lean ====
section
/-! DEFINITION. Format regions (03 R81 to R86): the line that pooled memory gives at a physical line number, decoded
where it lies in a region's view. -/

namespace Sys2Proof.Machine

/-- A format region as its four words give it (03 R81). -/
structure Region where
  enabled : Bool
  enc : Nat
  blocks : Nat
  view : Nat
  fmt : Nat
  blen : Nat
  scale : Nat
  deriving DecidableEq, Repr

/-- The bits of a stored element (03 R82). -/
def storedBits (fmt : Nat) : Nat := if fmt = 0 ∨ fmt = 12 then 4 else if fmt = 6 then 1 else 8

/-- The view bytes of an element (03 R82). -/
def viewBytes (fmt : Nat) : Nat := if fmt = 0 ∨ fmt = 2 ∨ fmt = 7 ∨ fmt = 8 then 2 else 1

/-- Reads a register's fields. A code that is no stored format, or no blocks, acts as disabled (03 R81). -/
def readRegion (ws : List Word) : Region :=
  let w := fun k => ws.getD k 0
  let fmt := bits (w 3) 63 59
  let nblk := bits (w 1) 31 0
  { enabled := bit (w 0) 0 && nblk != 0 && [0, 2, 6, 7, 8, 12, 13, 14].contains fmt
    enc := bits (w 0) 51 8 * 256, blocks := nblk, view := bits (w 2) 51 8 * 256, fmt := fmt
    blen := 32 * 2 ^ bits (w 3) 58 57, scale := bits (w 3) 51 0 }

/-- The elements of a region. -/
def Region.count (r : Region) : Nat := r.blocks * r.blen

/-- Whether an address lies in the `n` bytes from `base`. -/
def within (base n pa : Nat) : Bool := decide (base ≤ pa) && decide (pa < base + n)

/-- The enabled regions of a controller, lowest register first. -/
def State.regions (s : State) (port : Nat) : List Region :=
  ((s.port port).regions.map (fun p => readRegion p.2)).filter (·.enabled)

/-- Whether one of `n` bytes from an address lies in the view, the encoded range or the scale region of an enabled region
of any controller (03 R84). -/
def State.inRegion (s : State) (pa n : Nat) : Bool :=
  s.ports.any (fun p => (s.regions p.1).any (fun r =>
    let hit := fun (base len : Nat) => decide (base < pa + n) && decide (pa < base + len)
    hit r.view (r.count * viewBytes r.fmt) || hit r.enc ((r.count * storedBits r.fmt + 7) / 8) || hit r.scale r.blocks))

/-- The decoded bits of a stored element with a scale (03 R82, R86). -/
def decodeElement (fmt v : Nat) (t : Int) : Nat :=
  let scaled := fun (x : Fp) => (Fmt.bf16.write 0 (match x with | .fin n m e => .fin n m (e + t) | y => y)).1
  let l8 := fun (neg : Bool) (q : Nat) =>
    (if neg then 128 else 0) + (if q = 0 then 0 else (Max.max 1 (Min.min 127 ((q : Int) + 8 * t))).toNat)
  match fmt with
  | 0 => scaled (ofInt (BitVec.ofNat 4 v).toInt)
  | 2 => scaled (ofInt (BitVec.ofNat 8 v).toInt)
  | 6 => if v % 2 = 0 then 0x01 else 0xFF
  | 7 => scaled (Fmt.e4m3'.read v)
  | 8 => scaled (Fmt.e5m2.read v)
  | 12 => l8 (decide (8 ≤ v % 16)) (if v % 8 = 0 then 0 else 4 * (v % 8) + 48)
  | 13 => l8 (decide (32 ≤ v % 64)) (if v % 32 = 0 then 0 else 2 * (v % 32) + 32)
  | _ => l8 (decide (128 ≤ v % 256)) (v % 128)

/-- The stored bits of an element (03 R60, R82). -/
def storedElement (m : List Host.Cell) (r : Region) (i : Nat) : Nat :=
  let w := storedBits r.fmt
  (Memory.read m (r.enc + i * w / 8)).toNat / 2 ^ (i * w % 8) % 2 ^ w

/-- The line of a region's view (03 R82, R85). -/
def decodeLine (m : List Host.Cell) (r : Region) (line : Nat) : LineData :=
  let b := viewBytes r.fmt
  let first := (32 * line - r.view) / b
  let t : Int := (Memory.read m (r.scale + first / r.blen)).toInt
  (List.range (32 / b)).foldl (fun acc k =>
    acc ||| (BitVec.ofNat 256 (decodeElement r.fmt (storedElement m r (first + k)) t)) <<< (8 * b * k)) 0

/-- The lines that a view line is decoded from (03 R85). -/
def sourceLines (r : Region) (line : Nat) : List Nat :=
  let b := viewBytes r.fmt
  let first := (32 * line - r.view) / b
  [(r.scale + first / r.blen) / 32, (r.enc + first * storedBits r.fmt / 8) / 32]

/-- The line that the CXL controller returns, with its poison (03 R83, R85; 08 R193; 14 R350). A line of an enabled view that lies in an
encoded range or a scale region too, which R83 both decodes and returns undecoded, is decoded (DESIGN CHOICE, notes/assumptions/64.md). -/
def State.memLine (s : State) (line : Nat) : LineData × Bool :=
  match (s.regions (line / 2 ^ 41)).find? (fun r => within r.view (r.count * viewBytes r.fmt) (32 * line)) with
  | some r => (decodeLine s.mem r line, (sourceLines r line).any s.memPoison.contains)
  | none => (Memory.readLine s.mem line, s.memPoison.contains line)

end Sys2Proof.Machine
end

