-- ==== Sys2Proof/Machine/Home.lean ====
section
/-! DEFINITION. The L2 homes and the L1 caches: reads and writes of a line at its home, its tag and owner, recalls,
write-backs and the L1 copies (08 R181 to R204; 09 R208 to R212; 15 R358 to R363). -/

namespace Sys2Proof.Machine

/-- The home slice of a line (08 R188). -/
def sliceOf (line : Nat) : Nat := line / 8 % 768
/-- The CXL controller of a line (14 R350). -/
def portOf (line : Nat) : Nat := line / 2 ^ 41
/-- The set of a line in its slice (notes/assumptions/12.md). -/
def setOf (line : Nat) : Nat := (line / 6144 * 8 + line % 8) % 16384
/-- The key of an L1 copy: the line and its attribute (08 R187). -/
def l1Key (line : Nat) (a : Attr) : Nat := 4 * line + match a with | .priv => 0 | .rshr => 1 | .coh => 2

/-- A compressible line (08 R189). -/
def compressible (d : LineData) : Bool :=
  d = 0 || (numbers 1 3).all (fun k =>
    let x := (lineWord d k - lineWord d 0).toInt
    decide (-32768 ≤ x) && decide (x ≤ 32767))

/-- The lines that share a line's set in its slice, without the line itself (08 R189). -/
def State.setLines (s : State) (line : Nat) : List (Nat × L2Line) :=
  s.l2.filter (fun p => p.1 != line && sliceOf p.1 = sliceOf line && setOf p.1 = setOf line)

/-- The data entries that some lines of one set take: two that share one count once (08 R189). -/
def usedEntries (ls : List (Nat × L2Line)) : Nat :=
  (ls.filter (fun p => p.2.data.isSome && p.2.mate.isNone)).length + ((ls.filter (fun p => p.2.data.isSome && p.2.mate.isSome)).length + 1) / 2

/-- Whether a line is pinned or shares a pinned entry (08 R191). -/
def State.pinnedEntry (s : State) (x : L2Line) : Bool :=
  decide (0 < x.pins) || match x.mate.bind (find s.l2) with
    | some y => decide (0 < y.pins)
    | none => false

/-- Whether every data entry of a line's set is pinned, so that a demand access of a line with no entry is served by bypass
(08 R191). -/
def State.allPinned (s : State) (line : Nat) : Bool := 16 ≤ usedEntries ((s.setLines line).filter (fun p => s.pinnedEntry p.2))

/-- The odd-weight bytes of an error mask: what parity detects (15 R358). -/
def parityFails (m : Word) : Bool := (wordBytes m).any (fun b => popCount (b.setWidth 64) % 2 = 1)

/-- What is left of the soft errors of some words, and the outcome for one word: nothing, corrected, refetched, silent
or uncorrectable (15 R359, R360; notes/assumptions/7.md). -/
inductive ErrFate where
  | refetched
  | corrected
  | silent
  | uncorrectable
  deriving DecidableEq, Repr

/-- The fate of an error in a clean or dirty word (15 R359, R360). -/
def errFate (dirty : Bool) (m : Word) : ErrFate :=
  if dirty then (if popCount m ≤ 2 then .corrected else .uncorrectable)
  else if parityFails m then .refetched else .silent

/-- The lines of an L2 with a line's share in another's data entry ended (08 R189). -/
def unmate (l2 : FMap L2Line) (line : Nat) : FMap L2Line :=
  l2.map (fun p => if p.2.mate = some line || p.1 = line then (p.1, { p.2 with mate := none }) else p)

/-- The lines of pooled memory that a line is read from: of a decoded view, the encoded bytes and the scale (08 R193). -/
def State.missLines (s : State) (line : Nat) : List Nat :=
  match (s.regions (portOf line)).find? (fun r => within r.view (r.count * viewBytes r.fmt) (32 * line)) with
  | some r => sourceLines r line
  | none => [line]

/-- A merge window closes (08 R193, R194): one line is a single read, two or more a burst, whose other lines are dropped. -/
def Port.closeWindow (p : Port) (block : Nat) (lines : List Nat) : Port :=
  let p := { p with windows := del p.windows block }
  if lines.length ≤ 1 then { p with single := p.single + 1 }
  else { p with
    burst := p.burst + 1
    dropped := p.dropped + (8 - lines.length) }

/-- A read of a line reaches its CXL controller: it opens a merge window or joins one, which closes when all eight lines of its block
have joined (08 R193). -/
def Port.join (p : Port) (line : Nat) : Port :=
  let block := line / 8
  match find p.windows block with
  | none => { p with windows := put p.windows block [line] }
  | some ls =>
    if ls.contains line then p
    else
      let p := { p with
        windows := put p.windows block (ls ++ [line])
        merged := p.merged + 1 }
      if 8 ≤ ls.length + 1 then p.closeWindow block (ls ++ [line]) else p

/-- A state in which a read of a line of pooled memory has reached its CXL controller (08 R193). -/
def State.noteRead (s : State) (line : Nat) : State := s.setPort (portOf line) ((s.port (portOf line)).join line)

/-- Counts a read of a line of pooled memory at its CXL controller (08 R193). -/
def noteRead (line : Nat) : M Unit := modS (fun s => s.noteRead line)

/-- Counts a miss of a home (08 R193). -/
def noteMiss (line : Nat) : M Unit := do
  for l in (← getS).missLines line do noteRead l

/-- What lies behind a home for a line: a write-back in the slice's buffer, else pooled memory (08 R181, R203). -/
def State.behind (s : State) (line : Nat) : LineData × Bool :=
  match s.wbs.findSome? (fun w => if w.2.toMemory && w.2.line = line then some (w.2.data, w.2.poison) else none) with
  | some x => x
  | none => s.memLine line

/-- The state of a line that its home gives: its data entry, else what lies behind it (08 R181). -/
def State.homeLine (s : State) (line : Nat) : LineData × Bool :=
  match find s.l2 line with
  | some { data := some d, poison := p, .. } => (d, p)
  | _ => s.behind line

/-- A clean L2 line is read again, a line of a decoded view decoded again (15 R359). One that shared a data entry and no longer
compresses keeps none (08 R189). -/
def State.refetch (s : State) (line : Nat) (x : L2Line) : State :=
  let s := (s.missLines line).foldl State.noteRead s
  let (d, p) := s.behind line
  if x.mate.isSome && !compressible d then
    { s with l2 := put (unmate s.l2 line) line { x with
      data := none
      mate := none
      poison := false } }
  else { s with l2 := put s.l2 line { x with
    data := some d
    poison := p } }

/-- Checks a word of an L2 line: its errors are gone and the line is as 15 R359, R360 say. -/
def State.checkL2 (s : State) (line : Nat) : State :=
  (s.errs.filter (fun e => match e.1 with | .l2 l _ => l = line | _ => false)).foldl (fun s e =>
    let s := { s with errs := s.errs.filter (fun x => x != e) }
    match e.1, find s.l2 line with
    | .l2 _ w, some x =>
      let sl := s.slice (sliceOf line)
      match errFate x.dirty e.2 with
      | .refetched => (s.refetch line x).setSlice (sliceOf line) { sl with refetch := sl.refetch + 1 }
      | .corrected => s.setSlice (sliceOf line) { sl with corrected := sl.corrected + 1 }
      | .silent => { s with l2 := put s.l2 line { x with data := x.data.map (fun d => d ^^^ ((e.2.setWidth 256) <<< (64 * w))) } }
      | .uncorrectable =>
        { s with l2 := put s.l2 line { x with poison := true } }.setSlice (sliceOf line)
          { sl with poisoned := sl.poisoned + (if x.poison then 0 else 1) }
    | _, _ => s) s

/-- A tag that holds two stamps: wts is raised to rts - 255 when they lie further apart (09 R208). -/
def tagOf (wts rts : Stamp) : Stamp × Nat :=
  if (rts - wts).toNat > 255 then (rts - 255, 255) else (wts, (rts - wts).toNat)

/-- An unwritten exclusive copy leaves its core: the home takes its stamps back and names no owner (09 R212). -/
def State.releaseStamps (s : State) (line : Nat) (y : L1Line) : State :=
  match find s.l2 line with
  | some x => { s with l2 := put s.l2 line { x with tag := some (tagOf y.wts y.rts), owner := none } }
  | none => s

/-- Checks a line of an L1 (15 R358 to R360). A line is dirty where bytes of it have been written and not yet gone to its home. A
refetched line is dropped, an exclusive copy with its stamps returned; a held copy takes the home's data in place. -/
def State.checkL1 (s : State) (core key : Nat) : State :=
  (s.errs.filter (fun e => match e.1 with | .l1 c k _ => c = core && k = key | _ => false)).foldl (fun s e =>
    let s := { s with errs := s.errs.filter (fun x => x != e) }
    let c := s.core core
    match e.1, find c.l1 key with
    | .l1 _ _ w, some x =>
      match errFate (x.dirty != 0) e.2 with
      | .refetched =>
        if x.held.isSome then
          let h := s.homeLine (key / 4)
          s.setCore core { c with
            l1 := put c.l1 key { x with data := h.1, poison := h.2 }
            refetch := c.refetch + 1 }
        else
          let s := if x.excl then s.releaseStamps (key / 4) x else s
          s.setCore core { c with
            l1 := del c.l1 key
            refetch := c.refetch + 1 }
      | .corrected => s.setCore core { c with corrected := c.corrected + 1 }
      | .silent => s.setCore core { c with l1 := put c.l1 key { x with data := x.data ^^^ ((e.2.setWidth 256) <<< (64 * w)) } }
      | .uncorrectable => s.setCore core { c with
          l1 := put c.l1 key { x with poison := true }, poisoned := c.poisoned + (if x.poison then 0 else 1) }
    | _, _ => s) s

/-- Checks a line of an L1 instruction cache, which is always clean (15 R359). -/
def State.checkI (s : State) (core line : Nat) : State :=
  (s.errs.filter (fun e => match e.1 with | .l1i c l _ => c = core && l = line | _ => false)).foldl (fun s e =>
    let s := { s with errs := s.errs.filter (fun x => x != e) }
    let c := s.core core
    match e.1, find c.icache line with
    | .l1i _ _ w, some d =>
      match errFate false e.2 with
      | .silent => s.setCore core { c with icache := put c.icache line (d ^^^ ((e.2.setWidth 256) <<< (64 * w))) }
      | _ => s.setCore core { c with
          icache := del c.icache line
          refetch := c.refetch + 1 }
    | _, _ => s) s

/-- Reads a line at its home: its data and poison (08 R195). DESIGN CHOICE (log 64): a read that the slice's write-back buffer answers
is a read miss of its controller too. -/
def homeRead (line : Nat) : M (LineData × Bool) := do
  modS (fun s => s.checkL2 line)
  let s ← getS
  match find s.l2 line with
  | some { data := some _, .. } => pure ()
  | _ => noteMiss line
  return (← getS).homeLine line

/-- The stamps of a line at its home: its tag's, or the eviction time twice (08 R190). -/
def State.stamps (s : State) (line : Nat) : Stamp × Stamp :=
  match find s.l2 line with
  | some { tag := some (w, d), .. } => (w, w + BitVec.ofNat 24 d)
  | _ => let e := (s.slice (sliceOf line)).ets; (e, e)

/-- Stores stamps into a line's tag; a line with no tag raises the eviction time instead (08 R190). -/
def setStamps (line : Nat) (wts rts : Stamp) : M Unit := do
  let s ← getS
  match find s.l2 line with
  | some x =>
    if x.tag.isSome then set { s with l2 := put s.l2 line { x with tag := some (tagOf wts rts) } }
    else modSlice (sliceOf line) (fun sl => { sl with ets := tmax sl.ets rts })
  | none => modSlice (sliceOf line) (fun sl => { sl with ets := tmax sl.ets rts })

/-- Whether a write-back of a slice's buffer is one of a line (08 R203). -/
def WriteBack.leaves (w : WriteBack) (line : Nat) : Bool := w.toMemory && w.line = line

/-- A line goes to pooled memory through its home (08 R191): its controller accepts what the slice's buffer still holds of the line,
then the line (08 R194). -/
def memPut (line : Nat) (d : LineData) (poison : Bool) : M Unit := do
  let older := ((← getS).wbs.filter (fun w => w.2.leaves line)).length
  modS (fun s => { s with
    mem := Memory.writeLine s.mem line d fullMask
    memPoison := if poison then s.memPoison.insert line else s.memPoison.filter (· != line)
    wbs := s.wbs.filter (fun w => !w.2.leaves line) })
  modPort (portOf line) (fun p => { p with wb := p.wb + older + 1 })

/-- A line's tag leaves its home: the eviction time rises to its rts (08 R190). -/
def State.departTag (s : State) (line : Nat) : State :=
  match find s.l2 line with
  | some { tag := some _, .. } =>
    let n := sliceOf line
    let sl := s.slice n
    s.setSlice n { sl with ets := tmax sl.ets (s.stamps line).2 }
  | _ => s

/-- A state without a line's tag and data entry at its home. -/
def State.dropHome (s : State) (line : Nat) : State := { s with l2 := del (unmate s.l2 line) line }

/-- The owner of a line at its home. -/
def State.ownerAt (s : State) (line : Nat) : Option Nat := (find s.l2 line).bind (·.owner)

/-- Whether the exclusive copy of a line is held (09 R222). -/
def State.heldAway (s : State) (line : Nat) : Bool :=
  match s.ownerAt line with
  | some c => ((find (s.core c).l1 (l1Key line .coh)).map (·.held.isSome)).getD false
  | none => false

/-- The owning core returns a line to its home; `keep` leaves it a shared copy (09 R212). A held copy stays. What a bypassed line
returns goes to pooled memory, but for a discard (08 R191, R202). A flip of a word that is replaced has gone with it (15 R358). -/
def takeBack (line : Nat) (keep toMemory : Bool) : M Unit := do
  let s ← getS
  match find s.l2 line with
  | some x =>
    match x.owner with
    | none => pure ()
    | some c =>
      modS (fun s => s.checkL1 c (l1Key line .coh))
      let s ← getS
      let k := l1Key line .coh
      match find s.l2 line, find (s.core c).l1 k with
      | some x, some y =>
        need y.held.isNone
        set { s with
          errs := s.errs.filter (fun e => match e.1 with | .l2 l _ => l != line | _ => true)
          l2 := put s.l2 line { x with
            data := x.data.map (fun _ => y.data)
            dirty := x.data.isSome && (x.dirty || y.dirty != 0)
            poison := y.poison
            tag := some (tagOf y.wts y.rts)
            owner := none } }
        if x.data.isNone && toMemory && y.dirty != 0 then memPut line y.data y.poison else pure ()
        let left := { y with excl := false, dirty := 0 }
        modCore c (fun co => { co with l1 := if keep then put co.l1 k left else del co.l1 k })
      | some x, none => set { s with l2 := put s.l2 line { x with owner := none } }
      | none, _ => pure ()
  | none => pure ()

/-- A CXL controller accepts a write-back of a slice's buffer (08 R194, R203). -/
def acceptWb (n : Nat) : M Unit := do
  let s ← getS
  let w ← needSome (find s.wbs n)
  need w.toMemory
  set { s with
    wbs := del s.wbs n, mem := Memory.writeLine s.mem w.line w.data fullMask
    memPoison := if w.poison then s.memPoison.insert w.line else s.memPoison.filter (· != w.line) }
  modPort (portOf w.line) (fun p => { p with wb := p.wb + 1 })

/-- A line leaves its L2 slice (08 R190, R203): not while it is pinned or owned; a dirty line goes to the write-back
buffer, behind which no older write-back of the line waits. -/
def evictL2 (line : Nat) : M Unit := do
  modS (fun s => s.checkL2 line)
  let s ← getS
  match find s.l2 line with
  | none => pure ()
  | some x =>
    need (x.pins = 0 && x.owner.isNone)
    modS (fun s => s.departTag line)
    match x.data with
    | some d =>
      if x.dirty then
        need (!s.wbs.any (fun w => w.2.leaves line))
        let n ← draw
        let w : WriteBack := { line := line, toMemory := true, core := 0, mask := fullMask, data := d, poison := x.poison }
        modS (fun s => { s with wbs := put s.wbs n w })
    | none => pure ()
    modS (fun s => s.dropHome line)

/-- A line is evicted from its slice to make room (08 R187, R203): its owner returns it, and older write-backs of it are accepted. -/
def displace (line : Nat) : M Unit := do
  takeBack line false true
  for w in (← getS).wbs do
    if w.2.leaves line then acceptWb w.1 else pure ()
  evictL2 line

/-- A member of a list, by a choice that the spec leaves open (08 R187); those marked first to be replaced stand before the others
(02 R37). -/
def choose {α : Type} (first : α → Bool) (l : List α) : M (Option α) := do
  let l := if l.any first then l.filter first else l
  match l with
  | [] => return none
  | [x] => return some x
  | _ => do
    let n ← draw
    return l[Config.choice n % l.length]?

/-- Whether a line of a slice can be replaced: it holds no pinned entry, and its owner does not hold it. -/
def State.replaceable (s : State) (p : Nat × L2Line) : Bool := !s.pinnedEntry p.2 && !s.heldAway p.1

/-- Makes room for a tag of a line; false where none of the set's tags can go (08 R191). -/
def roomForTag (line : Nat) : M Bool := do
  let s ← getS
  let ls := s.setLines line
  if ls.length < 32 then return true
  else match ← choose (fun p => p.2.soon) (ls.filter s.replaceable) with
    | none => return false
    | some p => do
      displace p.1
      return true

/-- Makes room for a data entry of a line; false where none of the set's entries can go. -/
def roomForData (line : Nat) : M Bool := do
  let s ← getS
  let ls := s.setLines line
  if usedEntries ls < 16 then return true
  else
    let free := ls.filter (fun p => p.2.data.isSome && s.replaceable p && match p.2.mate with
      | some m => !s.heldAway m
      | none => true)
    match ← choose (fun p => p.2.soon) free with
    | none => return false
    | some p => do
      displace p.1
      match p.2.mate with
      | some m => displace m
      | none => pure ()
      return true

/-- Counts an access served by bypass (08 R194). -/
def countBypass (line : Nat) : M Unit := modSlice (sliceOf line) (fun sl => { sl with bypass := sl.bypass + 1 })

/-- A line of a slice that was written is recompressed or expanded (08 R189): one that no longer compresses takes an entry of its own;
where none can be had its data goes to pooled memory. DESIGN CHOICE (log 67): the line that finds no entry keeps its tag, and the access
is counted as a bypass. -/
def expand (line : Nat) : M Unit := do
  match find (← getS).l2 line with
  | some { data := some d, mate := some _, .. } =>
    if compressible d then pure ()
    else do
      modS (fun s => { s with l2 := unmate s.l2 line })
      if ← roomForData line then pure ()
      else do
        let s ← getS
        match find s.l2 line with
        | some x => do
          set { s with l2 := put s.l2 line { x with
            data := none
            dirty := false
            poison := false } }
          memPut line d x.poison
          countBypass line
        | none => pure ()
  | _ => pure ()

/-- A compressible line of a set that shares no entry yet, for a line that would share one (08 R189). -/
def State.mateFor (s : State) (line : Nat) : Option Nat :=
  ((s.setLines line).find? (fun p => p.2.mate.isNone && match p.2.data with
    | some d => compressible d
    | none => false)).map (·.1)

/-- Gives a line of a slice its data entry: a shared one where both lines compress and either `share` asks for it or the set is
full (08 R189; notes/assumptions/14.md), else one of its own. -/
def giveEntry (line : Nat) (x : L2Line) (d : LineData) (share : Bool) : M Unit := do
  let s ← getS
  match if compressible d && (share || 16 ≤ usedEntries (s.setLines line)) then s.mateFor line else none with
  | some m => do
    modS (fun s => { s with l2 := put ((unmate s.l2 m).map (fun p =>
      if p.1 = m then (p.1, { p.2 with mate := some line }) else p)) line { x with
        data := some d
        mate := some m } })
    modSlice (sliceOf line) (fun sl => { sl with sharedEntry := sl.sharedEntry + 1 })
  | none => do
    need (← roomForData line)
    modS (fun s => { s with l2 := put s.l2 line { x with
      data := some d
      mate := none } })

/-- Fills a line at its home, with the tag of a COH line if it enters as one (08 R189 to R191). Where every data entry of the set is
pinned the access is served by bypass: the line gets no data entry, and a tag only where one can be had. -/
def fillLine (line : Nat) (coh share : Bool) : M Unit := do
  let (d, p) ← homeRead line
  let s ← getS
  match find s.l2 line with
  | some x => do
    let x := if coh && x.tag.isNone then { x with tag := some ((s.slice (sliceOf line)).ets, 0) } else x
    if x.data.isSome then set { s with l2 := put s.l2 line x }
    else if s.allPinned line then do
      set { s with l2 := put s.l2 line x }
      countBypass line
    else giveEntry line { x with poison := p } d share
  | none =>
    let full := s.allPinned line
    let room ← roomForTag line
    let ets := ((← getS).slice (sliceOf line)).ets
    let tag := if coh then some (ets, 0) else none
    if full then do
      if room then modS (fun s => { s with l2 := put s.l2 line { data := none, tag := tag } }) else pure ()
      countBypass line
    else do
      need room
      giveEntry line { data := none, tag := tag, poison := p } d share

/-- A demand access brings a line to its home (08 R190, R191). -/
def fillHome (line : Nat) (coh : Bool) : M Unit := fillLine line coh false

/-- Whether a line has a data entry at its home; one that has none after a fill was served by bypass (08 R191). -/
def State.atHome (s : State) (line : Nat) : Bool := ((find s.l2 line).bind (·.data)).isSome

/-- Whether a home would serve a demand access of a line by bypass (08 R191). -/
def State.bypasses (s : State) (line : Nat) : Bool := !s.atHome line && s.allPinned line

/-- A state in which no publish is the last write of the masked bytes of a line (08 R198). -/
def State.forgetPublished (s : State) (line : Nat) (mask : LineMask) : State :=
  match find s.published line with
  | none => s
  | some l => { s with published :=
      match (l.map (fun e => (e.1 &&& ~~~mask, e.2))).filter (fun e => e.1 != 0) with
      | [] => del s.published line
      | kept => put s.published line kept }

/-- Writes the masked bytes of a line at its home; a write of the whole line clears poison (08 R182, R189, R191; 15 R363). A part of
a line that is not there is merged with what pooled memory holds, which `read`: the access has read already (08 R193). -/
def homeWrite (line : Nat) (mask : LineMask) (d : LineData) (poison : Bool := false) (read : Bool := false) : M Unit := do
  modS (fun s => (s.checkL2 line).forgetPublished line mask)
  if mask != fullMask && !read && !(← getS).atHome line then noteMiss line else pure ()
  let s ← getS
  let (old, p) := s.homeLine line
  let new := mergeLine old d mask
  let p' := poison || (p && mask != fullMask)
  match find s.l2 line with
  | some x =>
    if x.data.isSome then do
      set { s with l2 := put s.l2 line { x with data := some new, dirty := true, poison := p' } }
      expand line
    else if s.allPinned line then do
      memPut line new p'
      countBypass line
    else giveEntry line { x with dirty := true, poison := p' } new false
  | none =>
    let full := s.allPinned line
    let room ← roomForTag line
    if full then do
      if room then modS (fun s => { s with l2 := put s.l2 line { data := none } }) else pure ()
      memPut line new p'
      countBypass line
    else do
      need room
      giveEntry line { data := none, dirty := true, poison := p' } new false

/-- Bytes of a line that a demand access has just brought to its home are written there (08 R191): in its data entry, or in pooled
memory where the home serves the access by bypass. -/
def writeAsked (line : Nat) (mask : LineMask) (d : LineData) : M Unit := do
  let s ← getS
  if s.atHome line then homeWrite line mask d
  else
    modS (·.forgetPublished line mask)
    let (old, p) := s.homeLine line
    memPut line (mergeLine old d mask) (p && mask != fullMask)

/-- The owning core returns a line to its home (09 R212; 08 R189). -/
def recallNow (line : Nat) (keep : Bool) : M Unit := do
  takeBack line keep true
  expand line

/-- A line of a core's L1, after its check (15 R359). -/
def l1Read (core line : Nat) (a : Attr) : M (Option L1Line) := do
  modS (fun s => s.checkL1 core (l1Key line a))
  return find ((← getS).core core).l1 (l1Key line a)

/-- Puts a line into a core's L1. -/
def l1Put (core line : Nat) (a : Attr) (x : L1Line) : M Unit :=
  modCore core (fun c => { c with l1 := put c.l1 (l1Key line a) x })

/-- The lines of the set of an L1 data cache that a line falls into (01 R18; 08 R187), without the copy of a key. -/
def Core.l1Set (c : Core) (line key : Nat) : List (Nat × L1Line) :=
  c.l1.filter (fun p => p.1 != key && p.1 / 4 % 1024 = line % 1024)

/-- A state in which an access with a cache hint of 2 has made a line the first to be replaced, in a core's L1 and at its home (02 R37;
08 R187). -/
def State.markSoon (s : State) (core line : Nat) (a : Attr) (ch : Nat) : State :=
  if ch = 2 then
    let c := s.core core
    { s.setCore core { c with l1 := c.l1.map (fun p => if p.1 = l1Key line a then (p.1, { p.2 with soon := true }) else p) } with
      l2 := s.l2.map (fun p => if p.1 = line then (p.1, { p.2 with soon := true }) else p) }
  else s

/-- Drops a line from a core's L1. -/
def l1Drop (core line : Nat) (a : Attr) : M Unit :=
  modCore core (fun c => { c with l1 := del c.l1 (l1Key line a) })

/-- Starts the write-back of the dirty bytes that a core's L1 holds of a PRIV line; the line stays, clean (08 R182). -/
def startWriteBack (core line : Nat) : M Unit := do
  match ← l1Read core line .priv with
  | none => pure ()
  | some x =>
    if x.dirty = 0 then pure ()
    else
      let n ← draw
      let w : WriteBack :=
        { line := line, toMemory := false, core := core, mask := x.dirty, data := x.data, poison := x.poison }
      modS (fun s => { s with wbs := put s.wbs n w })
      l1Put core line .priv { x with dirty := 0 }

/-- A line leaves an L1 (08 R187; 09 R212): dirty PRIV bytes are written back, an exclusive copy returns to its home, a
held copy stays. -/
def evictL1 (core key : Nat) : M Unit := do
  modS (fun s => s.checkL1 core key)
  let line := key / 4
  match find ((← getS).core core).l1 key with
  | none => pure ()
  | some x =>
    need x.held.isNone
    if x.excl then recallNow line false
    else
      if key % 4 = 0 then startWriteBack core line
      modCore core (fun c => { c with l1 := del c.l1 key })

/-- Places a new line in a core's L1, of 20 ways; the line that leaves is not architected, and a held one stays (01 R18; 08 R187). -/
def l1Place (core line : Nat) (a : Attr) (x : L1Line) : M Unit := do
  let others := ((← getS).core core).l1Set line (l1Key line a)
  if others.length < 20 then pure ()
  else match ← choose (fun p => p.2.soon) (others.filter (fun p => p.2.held.isNone)) with
    | some p => evictL1 core p.1
    | none => need false
  l1Put core line a x

/-- Places a line in a core's L1 instruction cache, of 2,048 lines (01 R18; 08 R187). -/
def iPlace (core line : Nat) (d : LineData) : M Unit := do
  let c := (← getS).core core
  if c.icache.length < 2048 || (find c.icache line).isSome then pure ()
  else match ← choose (fun _ => false) c.icache with
    | some p => modCore core (fun c => { c with icache := del c.icache p.1 })
    | none => pure ()
  modCore core (fun c => { c with icache := put c.icache line d })

/-- A core that has evicted dirty bytes of a PRIV line reads or writes the line again once they have reached the home
(08 R181; 09 R216). -/
def awaitWriteBack (core line : Nat) : M Unit := do
  parkUntil (!(← getS).wbs.any (fun w => !w.2.toMemory && w.2.core = core && w.2.line = line)) .writeBacks

/-- The current bytes of a PRIV line for a core (08 R181; 12 R305): those of its L1, else those of the home, which the access brings the
line to. -/
def privRead (core line : Nat) (through : Bool) : M (LineData × Bool) := do
  match ← if through then pure none else l1Read core line .priv with
  | some x => return (x.data, x.poison)
  | none => do
    if through then pure () else awaitWriteBack core line
    fillHome line false
    return (← getS).homeLine line

/-- Bytes of a PRIV line that an access of a core has read enter its L1, or reach the home where the line takes no place in it (02 R37;
08 R182, R187, R191; 12 R305). A write of the whole line clears poison (15 R363). -/
def privPut (core line : Nat) (mask : LineMask) (d : LineData) (through : Bool) (ch : Nat := 0) : M Unit := do
  modS (fun s => s.markSoon core line .priv ch)
  match ← if through then pure none else l1Read core line .priv with
  | some x => l1Put core line .priv { x with
      data := mergeLine x.data d mask
      dirty := x.dirty ||| mask
      poison := x.poison && mask != fullMask }
  | none => do
    let s ← getS
    let (h, p) := s.homeLine line
    if s.atHome line && !through then
      l1Place core line .priv { data := mergeLine h d mask, dirty := mask, poison := p && mask != fullMask, soon := ch = 2 }
    else writeAsked line mask d

/-- A store of bytes of a PRIV line (08 R182; 12 R305): into the core's L1, or to the home where a cache hint of 1 gives it no place
there (02 R37; 08 R187). -/
def privWrite (core line : Nat) (mask : LineMask) (d : LineData) (through : Bool) (ch : Nat := 0) : M Unit := do
  if through then do
    homeWrite line mask d
    modS (fun s => s.markSoon core line .priv ch)
  else
    match ← l1Read core line .priv with
    | some _ => privPut core line mask d false ch
    | none => do
      awaitWriteBack core line
      if ch = 1 then homeWrite line mask d
      else do
        fillHome line false
        privPut core line mask d false ch

/-- The dirty bytes of a PRIV line of a core reach the home at once (08 R199). -/
def flushLine (core line : Nat) : M Unit := do
  match ← l1Read core line .priv with
  | none => pure ()
  | some x =>
    if x.dirty = 0 then pure ()
    else
      homeWrite line x.dirty x.data x.poison
      l1Put core line .priv { x with dirty := 0 }

/-- A reply with a discarded COH line that is on its way takes no place in the L1 (08 R187, R204). -/
def Served.passing (v : Served) (line : Nat) : Served := if v.attr = .coh && v.line = line then { v with once := true } else v

/-- What a thread has been sent of a discarded COH line takes no place in the L1. -/
def Thread.passing (x : Thread) (line : Nat) : Thread := { x with
  park := x.park.map (fun w => match w with
    | .line ea l attr lease excl ch mask reply step => .line ea l attr lease excl ch mask (reply.map (·.passing line)) step
    | w => w)
  ldq := x.ldq.map (fun e => { e with served := e.served.map (·.passing line) }) }

/-- The COH copies of a discarded line, in the caches and on their way to them, name no state that the line enters with later
(08 R202, R204). -/
def State.discardCopies (s : State) (line : Nat) : State := { s with
  cores := s.cores.map (fun c => (c.1, { c.2 with
    l1 := c.2.l1.map (fun p => if p.1 = l1Key line .coh then (p.1, { p.2 with discarded := true }) else p)
    slots := c.2.slots.map (fun p => (p.1, { p.2 with thread := p.2.thread.map (·.passing line) })) })) }

/-- The home drops its state of a line without writing it back; write-backs still in the buffer are cancelled
(08 R202, R203), and what the discarding cores have evicted of it goes with their copies. -/
def discardHome (line : Nat) (cores : List Nat) : M Unit := do
  takeBack line false false
  modS (fun s => (s.departTag line).discardCopies line)
  let s ← getS
  let gone := (s.wbs.filter (fun w => w.2.leaves line)).length
  set { s.dropHome line with
    wbs := s.wbs.filter (fun w => !w.2.leaves line && !(w.2.line = line && cores.contains w.2.core))
    published := del s.published line }
  modSlice (sliceOf line) (fun sl => { sl with cancelled := sl.cancelled + gone })

/-- Whether a discard of a line must wait: it is pinned, or held in some core (08 R202, R204). -/
def State.discardWaits (s : State) (line : Nat) : Bool :=
  ((find s.l2 line).map (fun x => decide (0 < x.pins))).getD false || s.heldAway line

/-- The current whole-package contents of a word of pooled memory as firmware and hardware records see it: the home's
state of its line (14 R343). -/
def physRead (pa : Nat) : M (Word × Bool) := do
  let (d, p) ← homeRead (pa / 32)
  return (lineWord d (pa % 32 / 8), p)

/-- Writes a word of a hardware record to pooled memory, through its home (15 R375). -/
def physWrite (pa : Nat) (v : Word) : M Unit :=
  homeWrite (pa / 32) (maskOf (pa % 32) 8) (atByte v (pa % 32))

/-- Writes consecutive words. DESIGN CHOICE (log 67): each word is a write of its own, so that no run of them clears the poison of a line. -/
def physWrites (pa : Nat) : List Word → M Unit
  | [] => pure ()
  | w :: ws => do physWrite pa w; physWrites (pa + 8) ws

/-- Reads consecutive words, each line once; `read`: the line of the first has been read. The second value is the first poisoned
line's address, if any. -/
def physReads (pa : Nat) (n : Nat) (read : Bool := false) : M (List Word × Option Nat) :=
  match n with
  | 0 => pure ([], none)
  | n + 1 => do
    let (d, p) ← if read && pa % 32 != 0 then (do return (← getS).homeLine (pa / 32)) else homeRead (pa / 32)
    let (ws, q) ← physReads (pa + 8) n true
    return (lineWord d (pa % 32 / 8) :: ws, if p then some (pa / 32 * 32) else q)

end Sys2Proof.Machine
end

