-- ==== Sys2Proof/Machine/Net.lean ====
section
/-! DEFINITION. Messages: job and endpoint tables in pooled memory, injection, routing, delivery, the overflow queue and
error responses (12 R308 to R315). -/

namespace Sys2Proof.Machine

/-- A job-table entry as the network interfaces read it (12 R311). -/
structure JobEntry where
  pa : Nat
  valid : Bool
  epbase : Nat
  nep : Nat
  ovbase : Nat
  ovlen : Nat
  ovused : Nat
  deriving DecidableEq, Repr

/-- The job-table entry of a context's job, at the place that cx_jobs gives on a core (12 R311; 14 R345). -/
def readJob (core ctx job : Nat) : M JobEntry := do
  let s ← getS
  let pa := bits (s.entry core ctx).jobs 51 16 * 65536 + 32 * job
  let (ws, _) ← physReads pa 4
  let w := fun k => ws.getD k 0
  return { pa := pa, valid := bit (w 0) 63, epbase := bits (w 0) 51 6 * 64, nep := bits (w 1) 23 0,
           ovbase := bits (w 2) 51 6 * 64, ovlen := bits (w 3) 63 32, ovused := bits (w 3) 31 0 }

/-- How many endpoints a job has: none where its entry names no live job. -/
def JobEntry.count (j : JobEntry) : Nat := if j.valid then j.nep else 0

/-- An endpoint-table entry: its state and slot (12 R311). -/
def readEndpoint (j : JobEntry) (ep : Nat) : M (Nat × Nat) := do
  let (w, _) ← physRead (j.epbase + 8 * ep)
  return (bits w 63 62, bits w 17 0)

/-- A change of an endpoint entry by one write of its word (12 R311). -/
def writeEndpoint (j : JobEntry) (ep state slot : Nat) : M Unit :=
  physWrite (j.epbase + 8 * ep) (setBits (setBits 0 63 62 state) 17 0 slot)

/-- The words in use of a job's overflow queue change (12 R311). -/
def writeUsed (j : JobEntry) (used : Nat) : M Unit :=
  physWrite (j.pa + 24) (setBits (setBits 0 63 32 j.ovlen) 31 0 used)

/-- Puts a message on the network. -/
def sendMessage (m : Message) : M Unit := do
  let n ← draw
  modS (fun s => { s with messages := put s.messages n m })

/-- An error response answers a message that cannot be delivered, and is logged (12 R314; 14 R347). -/
def answerError (ecode : Nat) (m : Message) : M Unit := do
  violation m.ctx 4 ecode 0 m.src (word m.dst) m.time
  sendMessage { m with words := [setBits (m.words.headD 0) 63 62 ecode], error := true, toSlot := some m.src }

/-- Routes a message by the state of its endpoint (12 R310, R311). -/
def route (core : Nat) (m : Message) : M Unit := do
  let j ← readJob core m.ctx m.job
  if m.dst ≥ j.count then answerError 3 m
  else
    let (st, slot) ← readEndpoint j m.dst
    if st = 3 then answerError 1 m
    else if st = 1 then sendMessage { m with toSlot := some slot }
    else sendMessage { m with toSlot := none }

/-- The messages that lie in the overflow queue for an endpoint, in order. -/
def State.heldFor (s : State) (ctx job dst : Nat) : List HeldMessage :=
  s.overflow.filter (fun h => h.ctx = ctx && h.job = job && h.dst = dst)

/-- The words that a job's overflow queue holds, oldest message first (12 R311). -/
def State.queueWords (s : State) (ctx job : Nat) : List Word :=
  (s.overflow.filter (fun h => h.ctx = ctx && h.job = job)).flatMap (·.words)

/-- The address of word `n` of a job's ring, counted from its oldest (12 R311). -/
def JobEntry.ringWord (j : JobEntry) (head n : Nat) : Nat := j.ovbase + 8 * ((head + n) % j.ovlen)

/-- Words go into a job's ring from place `n` on. -/
def layWords (j : JobEntry) (head : Nat) : Nat → List Word → M Unit
  | _, [] => pure ()
  | n, w :: ws => do
    physWrite (j.ringWord head n) w
    layWords j head (n + 1) ws

/-- Reads words of a job's ring from place `n` on. -/
def ringWords (j : JobEntry) (head n : Nat) : Nat → M (List Word)
  | 0 => return []
  | k + 1 => do
    let (w, _) ← physRead (j.ringWord head n)
    return w :: (← ringWords j head (n + 1) k)

/-- A job's overflow queue changes (12 R311, R312): its ring in pooled memory and its count of words follow. Words that join stand
behind the others; when the oldest leave the ring's start moves up; else the words are laid out anew (notes/assumptions/60.md). -/
def changeQueue (core ctx job : Nat) (f : List HeldMessage → List HeldMessage) : M Unit := do
  let j ← readJob core ctx job
  let s ← getS
  let old := s.queueWords ctx job
  let s := { s with overflow := f s.overflow }
  set s
  let new := s.queueWords ctx job
  let head := findD s.rings 0 j.pa
  if new = old then pure ()
  else do
    if new = old.drop (old.length - new.length) then
      set { s with rings := put s.rings j.pa ((head + (old.length - new.length)) % j.ovlen) }
    else if old.isPrefixOf new then layWords j head old.length (new.drop old.length)
    else layWords j head 0 new
    writeUsed j new.length

/-- A message as it is held, with its extended time. -/
def Message.hold (s : State) (m : Message) : HeldMessage :=
  { ctx := m.ctx, job := m.job, dst := m.dst, src := m.src, srcUid := m.srcUid, words := m.words,
    time := extendTime s.floor m.time, error := m.error }

/-- Changes a context in being. -/
def modContext (ctx : Nat) (f : Context → Context) : M Unit :=
  modS (fun s => match find s.contexts ctx with
    | some c => { s with contexts := put s.contexts ctx (f c) }
    | none => s)

/-- A launch that has come to its end (13 R327). -/
def LaunchState.ended : LaunchState → Bool
  | .complete => true
  | .cancelled => true
  | .refused => true
  | _ => false

/-- A job of a context that has no incomplete launch and no message held for it leaves the context's table (12 R311): its entry is
cleared and its memory freed. -/
def sweepJobs (ctx : Nat) : M Unit := do
  let s ← getS
  match find s.contexts ctx with
  | none => pure ()
  | some c =>
    for j in c.jobs do
      let held := s.overflow.any (fun m => m.ctx = ctx && m.job = j.number) ||
        s.messages.any (fun m => m.2.ctx = ctx && m.2.job = j.number) ||
        s.launches.any (fun l => l.2.ctx = ctx && l.2.job = j.number && !l.2.state.ended)
      if j.incomplete = 0 && j.begun && !held then do
        let pa := c.jobTable + 32 * j.number
        let (ws, _) ← physReads pa 4
        physWrite pa 0
        let bases := [bits (ws.getD 0 0) 51 6 * 64, bits (ws.getD 2 0) 51 6 * 64]
        modS (fun s => { s with rings := del s.rings pa })
        modContext ctx (fun c => { c with
          jobs := c.jobs.filter (fun x => x.number != j.number)
          frames := c.frames.filter (fun f => !bases.contains f.1) })
      else pure ()

/-- Of some messages, in order, those that find room in a queue with so many free words, and those that do not (12 R311). -/
def roomFor : Nat → List HeldMessage → List HeldMessage × List HeldMessage
  | _, [] => ([], [])
  | room, h :: hs =>
    if h.words.length ≤ room then
      let (fit, rest) := roomFor (room - h.words.length) hs
      (h :: fit, rest)
    else
      let (fit, rest) := roomFor room hs
      (fit, h :: rest)

/-- An error response that no thread will read is discarded and logged, with the endpoint and the code of its header (12 R314). -/
def dropResponse (h : HeldMessage) : M Unit := do
  let w := h.words.headD 0
  violation h.ctx 4 (bits w 63 62) 0 h.src (word (bits w 23 0)) (returnTime (← getS).floor h.time)

/-- A message that will not be delivered is answered with an ecode; an error response is discarded (12 R314). -/
def refuseMessage (ecode : Nat) (h : HeldMessage) : M Unit := do
  if h.error then dropResponse h
  else answerError ecode { words := h.words, ctx := h.ctx, job := h.job, dst := h.dst, src := h.src, srcUid := h.srcUid,
                           time := returnTime (← getS).floor h.time, toSlot := none }

/-- Messages join a job's overflow queue, behind the others or ahead of them, as far as the ring has room; the others are answered with
ecode 2 (12 R311, R312, R314). The answer: the rest of a message that was partly read, if it finds no room; its reader keeps it
(notes/assumptions/48.md). -/
def joinQueue (core ctx job : Nat) (ahead : Bool) (ms : List HeldMessage) : M (List HeldMessage) := do
  let j ← readJob core ctx job
  let (fit, rest) := roomFor (j.ovlen - j.ovused) ms
  changeQueue core ctx job (fun q => if ahead then fit ++ q else q ++ fit)
  for h in rest do
    if h.partly then pure () else refuseMessage 2 h
  return rest.filter (·.partly)

/-- A message joins its job's overflow queue (12 R311, R312). -/
def toOverflow (core : Nat) (m : Message) : M Unit := do
  let _ ← joinQueue core m.ctx m.job false [m.hold (← getS)]

/-- Messages held for an endpoint that has become EXITED are answered with ecode 1 (12 R310, R314). -/
def answerHeld (core ctx job dst : Nat) : M Unit := do
  let s ← getS
  let held := s.heldFor ctx job dst
  if held.isEmpty then pure ()
  else
    changeQueue core ctx job (·.filter (fun h => !(h.ctx = ctx && h.job = job && h.dst = dst)))
    for h in held do
      if h.partly then pure () else refuseMessage 1 h
    sweepJobs ctx

/-- The undelivered messages of a thread whose endpoint leaves its slot go ahead of those that the endpoint's queue holds
(12 R312), as far as the ring has room (notes/assumptions/48.md); the answer is what its reader keeps. -/
def spill (core ctx job ep : Nat) (ms : List HeldMessage) : M (List HeldMessage) :=
  if ms.isEmpty then pure []
  else joinQueue core ctx job true (ms.map (fun m => { m with
    ctx := ctx
    job := job
    dst := ep }))

/-- The words of a core's receive store in use (12 R312). -/
def Core.received (c : Core) : Nat := (c.slots.map (fun p => (p.2.inbox.map (·.words.length)).sum)).sum

/-- Whether a core's receive store has room for some words (12 R312). -/
def State.hasRoom (s : State) (core n : Nat) : Bool := (s.core core).received + n ≤ 512

/-- A message enters the receive store for a slot, and its core learns its time (12 R312; 09 R214). -/
def deliverTo (tid : Nat) (h : HeldMessage) (t : Stamp) : M Unit := do
  raise (.core (coreOf tid)) t
  modSlot tid (fun sl => { sl with inbox := sl.inbox ++ [h] })

/-- Whether a thread has been killed and only its slot waits for the bureau's answer (15 R365). -/
def Thread.dead (x : Thread) : Bool := match x.park with
  | some (.killed _ _) => true
  | _ => false

/-- The slot and the thread of an identity that lives. -/
def State.living (s : State) (uid : Nat) : Option (Nat × Thread) := s.threads.find? (fun p => p.2.uid == uid && !p.2.dead)

/-- The endpoint that an error response is held for: that of its sender's slot, else none (12 R314). -/
def State.errorEndpoint (s : State) (x : Thread) : Nat := (((s.slot x.home).endpoint).map (·.2)).getD 0xFFFFFF

/-- A message waits with a saved thread. -/
def State.keepFor (s : State) (uid : Nat) (h : HeldMessage) : State :=
  { s with saved := s.saved.map (fun (x : SavedThread) => if x.uid = uid then { x with inbox := x.inbox ++ [h] } else x) }

/-- An error response reaches its sender (12 R312, R314): its receive store, or its job's overflow queue where that lacks room. A
sender that has left gets none. -/
def deliverError (m : Message) : M Unit := do
  let s ← getS
  match s.living m.srcUid with
  | some (_, x) =>
    let ep := s.errorEndpoint x
    if (s.heldFor m.ctx m.job ep).isEmpty && s.hasRoom (coreOf x.home) m.words.length then
      deliverTo x.home (m.hold s) m.time
    else toOverflow (coreOf x.home) { m with dst := ep }
  | none =>
    match s.saved.find? (fun x => x.uid = m.srcUid) with
    | some x =>
      match x.endpoint with
      | some (_, ep) => toOverflow (coreOf x.home) { m with dst := ep }
      | none => set (s.keepFor m.srcUid (m.hold s))
    | none => dropResponse (m.hold s)

/-- The arrival of a message at its slot or its overflow queue (12 R311 to R314). Messages of one thread to one endpoint
keep their order; one whose endpoint has left the slot is queued, or answered. -/
def deliverMessage (n : Nat) : M Unit := do
  let s ← getS
  let m ← needSome (find s.messages n)
  need (!(s.messages.any (fun p => decide (p.1 < n) && p.2.srcUid = m.srcUid && p.2.dst = m.dst && p.2.error = m.error)))
  set { s with messages := del s.messages n }
  if m.error then deliverError m
  else
    let here := match m.toSlot with
      | some tid =>
        let sl := s.slot tid
        if sl.endpoint = some (m.job, m.dst) && sl.owner = some m.ctx && sl.state != .free then some tid else none
      | none => none
    match here with
    | some tid =>
      if (s.heldFor m.ctx m.job m.dst).isEmpty && s.hasRoom (coreOf tid) m.words.length then deliverTo tid (m.hold s) m.time
      else toOverflow (coreOf tid) m
    | none => do
      let j ← readJob (coreOf m.src) m.ctx m.job
      if m.dst ≥ j.count then answerError 3 m
      else do
        let (st, _) ← readEndpoint j m.dst
        if st = 3 then answerError 1 m else toOverflow (coreOf m.src) m
  sweepJobs m.ctx

/-- A held message leaves its overflow queue for the receive store of a slot, with the words that the ring holds (12 R311, R312). -/
def drainTo (tid ctx job : Nat) (h : HeldMessage) : M Unit := do
  let s ← getS
  need (s.hasRoom (coreOf tid) h.words.length)
  let j ← readJob (coreOf tid) ctx job
  let before := (s.overflow.filter (fun x => x.ctx = ctx && x.job = job)).takeWhile (fun x => x != h)
  let ws ← ringWords j (findD s.rings 0 j.pa) ((before.map (·.words.length)).sum) h.words.length
  changeQueue (coreOf tid) ctx job (·.erase h)
  deliverTo tid { h with words := ws } (returnTime s.floor h.time)

/-- A held message leaves the overflow queue for the receive store, in arrival order, as room appears (12 R312). Error responses of
senders with no endpoint are held apart, and find their sender by its identity. -/
def drainOverflow (ctx job dst : Nat) : M Unit := do
  let s ← getS
  if dst = 0xFFFFFF then do
    let room := fun (h : HeldMessage) => match s.living h.srcUid with
      | some (_, x) => s.hasRoom (coreOf x.home) h.words.length
      | none => true
    let h ← needSome ((s.heldFor ctx job dst).find? room)
    match s.living h.srcUid with
    | some (_, x) => drainTo x.home ctx job h
    | none => do
      changeQueue (coreOf h.src) ctx job (·.erase h)
      let s ← getS
      if s.saved.any (fun x => x.uid = h.srcUid) then set (s.keepFor h.srcUid h)
      else dropResponse h
  else do
    let h ← needSome (s.heldFor ctx job dst).head?
    let slot ← needSome ((s.cores.flatMap (fun c => c.2.slots.filterMap (fun p =>
      if p.2.endpoint = some (job, dst) && p.2.state != .free && p.2.owner = some ctx then some (64 * c.1 + p.1) else none))).head?)
    let j ← readJob (coreOf slot) ctx job
    let (st, at_) ← readEndpoint j dst
    need (st = 1 && at_ = slot)
    drainTo slot ctx job h
  sweepJobs ctx

/-- Injects a complete message from a slot's compose buffer (13 R333). -/
def inject (tid : Nat) (x : Thread) (job : Nat) (words : List Word) (t : Stamp) : M Unit := do
  let s ← getS
  let srcep := ((s.slot x.home).endpoint.map (·.2)).getD 0xFFFFFF
  let h := setBits (words.headD 0) 47 24 srcep
  route (coreOf tid) { words := h :: words.drop 1, ctx := x.ctx, job := job, dst := bits h 23 0, src := x.home,
                       srcUid := x.uid, time := t, toSlot := none }

end Sys2Proof.Machine
end

