-- ==== Sys2Proof/Machine/Life.lean ====
section
/-! DEFINITION. The life of a thread: windows and slots, creation, exit, kill and cancellation, the counters and reports
of its launch, and the records of the bureau mailbox (12 R281 to R293, R307; 14 R338; 15 R365, R370, R373). -/

namespace Sys2Proof.Machine

/-- The blocks of a core's register file that windows occupy (12 R282). A slot that waits for the answer to a kill record
still holds its window. -/
def Core.usedBlocks (c : Core) : List Nat :=
  c.slots.flatMap (fun p => match p.2.thread, p.2.kept with
    | some x, _ => numbers (x.wbase / 8) (x.win / 8)
    | none, some (b, n) => numbers (b / 8) (n / 8)
    | none, none => [])

/-- The first free run of `n` blocks; the blocks above `top` are the guests' reserve (12 R282). -/
def Core.freeRun (c : Core) (n top : Nat) : Option Nat :=
  let used := c.usedBlocks
  (List.range 256).find? (fun b => decide (b + n ≤ top) && (numbers b n).all (fun k => !used.contains k))

/-- The top of the blocks that a thread created or restored may take: 2 blocks stay for each guest slot (12 R282). -/
def Core.top (c : Core) : Nat := 256 - 2 * min c.guest 16

/-- Whether a launch is placed on a core (12 R299). -/
def Launch.covers (l : Launch) (core : Nat) : Bool :=
  l.record.cbase ≤ clusterOf core && clusterOf core < l.record.cbase + l.record.ccnt && l.record.cmask.testBit (core % 8)

/-- The contexts that hold a placed launch on a core (12 R299). -/
def State.placedContexts (s : State) (core : Nat) : List Nat :=
  ((s.launches.filter (fun l => l.2.state = .running && l.2.covers core)).map (·.2.ctx)).dedup

/-- The slots that a context is guaranteed on a core (12 R299): a context that has no placed launch there is guaranteed none. -/
def State.guarantee (s : State) (core ctx : Nat) : Nat :=
  let w := fun c => bits (s.entry core c).sched 55 48
  let placed := s.placedContexts core
  let sum := (placed.map w).sum
  if sum = 0 || !placed.contains ctx then 0 else 64 * w ctx / sum

/-- The owner of a slot (12 R281, R307): a thread's context while it holds one, else the assignment. -/
def State.ownerOf (s : State) (tid : Nat) : Option Nat :=
  match (s.slot tid).state with
  | .free => s.assigned tid
  | _ => (s.slot tid).owner

/-- The FREE slots of a core, whatever their owner (12 R307). -/
def State.freeSlots (s : State) (core : Nat) : List Nat :=
  (numbers (64 * core) 64).filter (fun t => (s.slot t).state = .free)

/-- The slots of a core that hold a context's threads or are kept for them (12 R281, R299). -/
def State.usedSlots (s : State) (core ctx : Nat) : Nat :=
  ((numbers (64 * core) 64).filter (fun t => (s.slot t).state != .free && (s.slot t).owner = some ctx)).length

/-- Whether a context may take a FREE slot of a core for a new thread or a restore (12 R307), once it has taken `taken` more. -/
def State.mayTake (s : State) (core ctx : Nat) (taken : Nat := 0) : Bool :=
  (s.core core).guest + taken < (s.freeSlots core).length || s.usedSlots core ctx + taken < s.guarantee core ctx

/-- The FREE slots of a core that a context owns. -/
def State.ownFree (s : State) (core ctx : Nat) : List Nat :=
  (s.freeSlots core).filter (fun t => s.assigned t = some ctx)

/-- The slot pairs of a core that a context owns, by leading slot (12 R289; 15 R379). -/
def State.ownPairs (s : State) (core ctx : Nat) : List Nat :=
  (s.ownFree core ctx).filter (fun t => decide (slotOf t < 32) && (s.ownFree core ctx).contains (t + 32))

/-- A thread in its state after creation (14 R338). -/
def newThread (uid ctx launch : Nat) (index : Option Nat) (home win wbase : Nat) (pc : BitVec 55) : Thread :=
  { uid := uid, ctx := ctx, launch := launch, index := index, home := home, win := win, wbase := wbase, pc := pc,
    unitPc := pc }

/-- Zeroes a window, or writes it (02 R50; 15 R365): the write of an entry sets its parity (15 R361). -/
def writeWindow (core base n : Nat) (ws : List Reg) : M Unit := do
  modS (fun s => { s with errs := s.errs.filter (fun e => match e.1 with
    | .reg c k => !(c = core && decide (base ≤ k) && decide (k < base + n))
    | _ => true) })
  modCore core (fun c =>
    let rf := c.rf.filter (fun p => !(decide (base ≤ p.1) && decide (p.1 < base + n)))
    { c with rf := ((numbers 0 ws.length).zip ws).foldl (fun rf p =>
        if p.2 = {} then rf else put rf (base + p.1) p.2) rf })

/-- A register-class entry as it is met (15 R361): poisoned where its parity fails, else with its flipped bits. -/
def State.met (s : State) (loc : Loc) (r : Reg) : Reg :=
  match s.errs.find? (fun e => e.1 = loc) with
  | none => r
  | some e => if popCount e.2 % 2 = 1 then { r with poison := true } else { r with val := r.val ^^^ e.2 }

/-- The step word of a recipe step (07 R173). -/
def RecipeStep.word (st : RecipeStep) : Word :=
  setBits (setBits (setBits 0 56 56 (if st.px then 1 else 0)) 55 32 st.hi.toNat) 31 0 st.iw.toNat

/-- A recipe's steps as they are met (15 R361). -/
def State.metSteps (s : State) (tid name : Nat) (body : List RecipeStep) : List RecipeStep :=
  body.mapIdx (fun k st => match s.errs.find? (fun e => e.1 = .step tid name k) with
    | none => st
    | some e =>
      if popCount e.2 % 2 = 1 then { st with poison := true }
      else
        let w := st.word ^^^ e.2
        { st with
          px := bit w 56
          hi := w.extractLsb' 32 24
          iw := w.setWidth 32 })

/-- Creates one thread in a slot (02 R50; 12 R284, R288; 14 R338): the window zeroed but for the words given, its cell and
compose buffer empty, nothing issued yet, tstat zero but for a pair's bits, and no register of the slot's handler left as another thread had it. -/
def createIn (tid : Nat) (x : Thread) (window : List Word) (role : Role) : M Unit := do
  writeWindow (coreOf tid) x.wbase x.win (window.map (fun w => { val := w }))
  let stat : Word := match role with | .single => 0 | .leading => setBits 0 27 27 1 | .trailing => setBits 0 27 26 3
  modSlot tid (fun sl => { sl with
    state := .home, owner := some x.ctx, tstat := stat, compose := [], inbox := [], endpoint := none,
    tcause := 0, tvalue := 0, tpc := 0, tkeep := [0, 0, 0, 0], trecw := [0, 0, 0, 0],
    thread := some { x with role := role } })
  modCore (coreOf tid) (fun c => { c with
    full := c.full.filter (· != slotOf tid)
    issuedAt := del c.issuedAt (slotOf tid) })

/-- Sends a report to a launch's home sideboard (12 R293). -/
def report (cluster launch kind uid : Nat) (t : Stamp) : M Unit :=
  modCluster cluster (fun k => { k with reports := k.reports ++ [{ launch := launch, kind := kind, uid := uid, time := t }] })

/-- Creates a thread, or both threads of a pair, and counts it once (02 R50; 12 R289; 15 R379). `tid` is the slot, the
leading one of a pair; it returns false when a core lacks the blocks. -/
def createThread (tid : Nat) (l : Launch) (index : Option Nat) (pc : BitVec 55) (window : List Word) (park : Option Wait)
    (time : Stamp) : M Bool := do
  let core := coreOf tid
  let n := l.record.win / 8
  let s ← getS
  match (s.core core).freeRun n (s.core core).top with
  | none => return false
  | some b =>
    raise (.core core) time
    let uid ← draw
    let x := { newThread uid l.ctx l.handle index tid l.record.win (8 * b) pc with park := park }
    if l.record.paired then
      createIn tid x window .leading
      match ((← getS).core core).freeRun n (s.core core).top with
      | none => return false
      | some b2 => do
        let uid2 ← draw
        createIn (tid + 32) { x with uid := uid2, wbase := 8 * b2 } window .trailing
    else createIn tid x window .single
    report (clusterOf core) l.handle 0 uid (← timeOf (.core core))
    return true

/-- The other slot of a pair (15 R379). -/
def partnerOf (tid : Nat) : Nat := if slotOf tid < 32 then tid + 32 else tid - 32

/-- The other thread of a pair, if it is there. -/
def State.partner (s : State) (tid : Nat) : Option Thread :=
  match s.thread tid with
  | some x => if x.role = .single then none else
    (s.thread (partnerOf tid)).bind (fun y => if y.launch = x.launch && y.role != .single then some y else none)
  | none => none

/-- Every hold of a thread ends (09 R222). -/
def endHolds (core : Nat) (x : Thread) : M Unit :=
  modCore core (fun c => { c with
    l1 := c.l1.map (fun p => if p.2.held = some x.uid then (p.1, { p.2 with held := none }) else p),
    holdQueue := c.holdQueue.filter (fun q => q.2 != x.uid) })

/-- Empties the two cells of a slot (12 R287). -/
def emptyCells (tid : Nat) : M Unit :=
  modCore (coreOf tid) (fun c =>
    let a := slotOf tid
    let b := (slotOf tid + 63) % 64
    { c with
      full := c.full.filter (fun n => n != a && n != b)
      cells := del (del c.cells a) b })

/-- The soft errors of a thread's queues, compose buffer and recipes go with them. -/
def forgetErrs (tid : Nat) : M Unit :=
  modS (fun s => { s with errs := s.errs.filter (fun e => match e.1 with
    | .ldq t _ => t != tid
    | .sdq t _ => t != tid
    | .compose t _ => t != tid
    | .step t _ _ => t != tid
    | _ => true) })

/-- A slot becomes FREE and takes the owner that firmware assigned; a change of owner that is no guest's departure empties
its cells (12 R281, R287, R307; 15 R375). -/
def freeSlot (tid : Nat) : M Unit := do
  let old := (← getS).slot tid
  forgetErrs tid
  modSlot tid (fun sl => { sl with
    state := .free, thread := none, owner := none, kept := none, awayOf := none, compose := [], inbox := [], endpoint := none })
  let s ← getS
  let o := s.assigned tid
  modSlot tid (fun sl => { sl with owner := o })
  if old.state != .guest && old.owner != o then emptyCells tid else pure ()

/-- The launch's home sideboard (12 R293). -/
def Launch.homeCluster (l : Launch) : Nat := l.record.cbase

/-- The engine jobs of the package with the cluster and engine they are in. -/
def State.jobs (s : State) : List (Nat × Bool × Job) :=
  s.clusters.flatMap (fun k => k.2.trestle.jobs.map (fun j => (k.1, false, j)) ++ k.2.copy.jobs.map (fun j => (k.1, true, j)))

/-- The next index of a launch in a cluster: those to be created again stand first (12 R289; 15 R366). -/
def Launch.nextIndex (l : Launch) (cluster : Nat) : Option Nat :=
  match leastBy id (l.again.filter (fun i => i % l.record.ccnt = cluster - l.record.cbase)) with
  | some i => some i
  | none =>
    let i := findD l.next (cluster - l.record.cbase) cluster
    if i < l.record.nthr then some i else none

/-- Whether every thread of a launch, and every one that is to be created again, has been created (12 R290; 15 R366). -/
def Launch.allMade (l : Launch) : Bool :=
  (numbers l.record.cbase l.record.ccnt).all (fun k => (l.nextIndex k).isNone)

/-- Whether every thread of a launch has left and none can still be created (06 R161). -/
def Launch.isOver (l : Launch) : Bool :=
  l.made = l.gone && (l.cancelling || l.state != .running || l.allMade)

/-- The code of a launch's state (13 R327). -/
def LaunchState.code : LaunchState → Nat
  | .pending => 0
  | .running => 1
  | .complete => 2
  | .cancelled => 3
  | .refused => 4

/-- The threads of a launch that live (12 R290). -/
def Launch.live (l : Launch) : Nat := l.created - l.exited - l.killed

/-- The value that a selector of LWAIT asks for: of the status word, or of a counter (13 R327). -/
def Launch.report (l : Launch) (sel : Nat) : Word :=
  if sel = 0 then
    setBits (setBits (setBits (setBits 0 63 60 l.state.code) 59 56 (if l.state = .refused then l.why else 0)) 32 32
      (if 0 < l.killed then 1 else 0)) 31 0 (min l.live 0xFFFFFFFF)
  else if sel = 1 then word l.created else if sel = 2 then word l.exited else if sel = 3 then word l.killed
  else word l.nthr

/-- A launch ends in a state (12 R290, R291; 13 R326, R327): its job counts it done, and every LWAIT that waits for it is
answered with the values that its selector may ask for. -/
def endLaunch (l : Launch) : M Unit := do
  modS (fun s => { s with launches := put s.launches l.handle l })
  modS (fun s => match find s.contexts l.ctx with
    | none => s
    | some c => { s with contexts := put s.contexts l.ctx { c with jobs := c.jobs.map (fun j =>
        if j.number = l.job then { j with incomplete := j.incomplete - 1 } else j) } })
  sweepJobs l.ctx
  for p in (← getS).threads do
    if p.2.park = some (.launch l.handle) then
      modThread p.1 (fun x => { x with
        park := none
        resume := { x.resume with reply := some { values := (numbers 0 5).map l.report, time := l.time } } })
    else pure ()

/-- Ends a launch if its conditions hold (12 R290, R291): its stages are released, its job counts it done. -/
def completeLaunch (h : Nat) : M Unit := do
  let s ← getS
  match find s.launches h with
  | none => pure ()
  | some l =>
    let live := l.created - l.exited - l.killed
    let quiet := !(s.jobs.any (fun j => j.2.2.launch = h))
    let done := l.state = .running && live = 0 && quiet && l.made = l.gone &&
      l.created = l.made && (l.cancelling || l.allMade)
    if done then
      endLaunch { l with state := if l.cancelling then .cancelled else .complete }
      for c in numbers l.record.cbase l.record.ccnt do
        modCluster c (fun k => { k with stages := k.stages.filter (fun p => p.2.launch != h) })
    else pure ()

/-- Status entries that no thread can ask for any more are freed (06 R161). -/
def freeStatus (h : Nat) : M Unit := do
  let s ← getS
  let done := ((find s.launches h).map Launch.isOver).getD false
  if done then
    modS (fun s => { s with cores := s.cores.map (fun c => (c.1, { c.2 with
      status := c.2.status.filter (fun e => !(e.launch = h && e.ended.isSome)) })) })
  else pure ()

/-- Launch entries that no LWAIT has freed are freed when their issuer's launch has ended and they have (13 R328). -/
def freeHandles : M Unit :=
  modS (fun s => { s with launches := s.launches.filter (fun p =>
    !((p.2.state = .complete || p.2.state = .cancelled || p.2.state = .refused) &&
      match p.2.issuer with
      | none => false
      | some i => match find s.launches i with
        | none => true
        | some l => l.state = .complete || l.state = .cancelled || l.state = .refused)) })

/-- An engine of a cluster: its trestle or its copy unit. -/
def Cluster.engine (k : Cluster) (copy : Bool) : Engine := if copy then k.copy else k.trestle

def State.engine (s : State) (k : Nat) (copy : Bool) : Engine := (s.cluster k).engine copy

def modEngine (k : Nat) (copy : Bool) (f : Engine → Engine) : M Unit :=
  modCluster k (fun c => if copy then { c with copy := f c.copy } else { c with trestle := f c.trestle })

/-- An engine as an agent that keeps a time (09 R206). -/
def engineAgent (k : Nat) (copy : Bool) : Agent := if copy then .copyUnit k else .trestle k

/-- Changes a job of an engine. -/
def modJob (k : Nat) (copy : Bool) (jid : Nat) (f : Job → Job) : M Unit :=
  modEngine k copy (fun e => { e with jobs := e.jobs.map (fun j => if j.jid = jid then f j else j) })

/-- The soft errors of a shadow line of a job are met (15 R360): it is dirty until it is published. -/
def checkShadow (k : Nat) (copy : Bool) (jid line : Nat) : M Unit := do
  for e in (← getS).errs do
    match e.1 with
    | .shadow k' copy' jid' line' _ =>
      if k' = k && copy' = copy && jid' = jid && line' = line then do
        modS (fun s => { s with errs := s.errs.filter (· != e) })
        match (((← getS).engine k copy).jobs.find? (fun j => j.jid = jid)).bind (fun j => find j.shadow line) with
        | none => pure ()
        | some x =>
          if popCount e.2 ≤ 2 then modSlice (sliceOf line) (fun sl => { sl with corrected := sl.corrected + 1 })
          else do
            modSlice (sliceOf line) (fun sl => { sl with poisoned := sl.poisoned + (if x.poison then 0 else 1) })
            modJob k copy jid (fun j => { j with shadow := put j.shadow line { x with poison := true } })
      else pure ()
    | _ => pure ()

/-- Takes the pins of a tile-step from its lines (08 R191; 06 R143). -/
def unpin (lines : List Nat) : M Unit :=
  modS (fun s => { s with l2 := s.l2.map (fun p =>
    if lines.contains p.1 then (p.1, { p.2 with pins := p.2.pins - 1 }) else p) })

/-- Changes an instance of a collective of a context. -/
def modColl (ctx grp inst : Nat) (f : Coll → Coll) : M Unit :=
  modS (fun s => match find s.contexts ctx with
    | none => s
    | some c => { s with contexts := put s.contexts ctx { c with
        colls := c.colls.map (fun x => if x.grp = grp && x.inst = inst then f x else x) } })

/-- The group that a collective job names (10 R255). -/
def Job.grp (j : Job) : Nat := bits (j.param.getD 3 0) 63 52

/-- The misses of an engine's job go with it (14 R343). -/
def dropMisses (k : Nat) (copy : Bool) (jid : Nat) : M Unit :=
  modCluster k (fun c => { c with asked := c.asked.filter (fun m => !(m.copy = copy && m.jid = jid)) })

/-- An engine job ends with a status and an address: its pins and shadow lines go (08 R200), its status entry takes the word and
the end time (06 R160, R161; 09 R223), every JWAIT on it is answered, a pre-emption that waits for it completes without a save
(15 R378), and its instance fails where it has not contributed (10 R256). -/
def endJob (k : Nat) (copy : Bool) (j : Job) (status addr : Nat) : M Unit := do
  unpin j.pinned
  dropMisses k copy j.jid
  modS (fun s => { s with errs := s.errs.filter (fun e => match e.1 with
    | .shadow k' copy' jid _ _ => !(k' = k && copy' = copy && jid = j.jid)
    | _ => true) })
  let t ← timeOf (engineAgent k copy)
  let w := word (256 * (addr % 2 ^ 55) + status)
  modEngine k copy (fun e =>
    let hit := (e.pre.map (·.jid)) = some j.jid
    { e with
      jobs := e.jobs.filter (·.jid != j.jid)
      pre := if hit then none else e.pre
      preJob := if hit then 0 else e.preJob })
  let s ← getS
  let held := ((s.core j.core).status.find? (fun e => e.jid = j.jid)).map (·.keep) = some true
  let waiters := s.threads.filter (fun p => coreOf p.1 = j.core && p.2.park = some (.job j.jid))
  let mark := fun (e : StatusEntry) =>
    if e.jid = j.jid then { e with ended := some (w, t), waiting := waiters.map (·.2.uid) } else e
  modCore j.core (fun c => { c with
    status := if held then c.status.map mark else c.status.filter (·.jid != j.jid) })
  for p in waiters do
    modThread p.1 (fun x => { x with
      park := none
      resume := { x.resume with reply := some { value := w, time := t } } })
  if j.kind = 3 && !j.given && status != 0 && status != 6 then
    modColl j.ctx j.grp j.inst (fun c => { c with failed := some (c.failed.getD 7) })
  else pure ()
  freeStatus j.launch
  completeLaunch j.launch
  freeHandles

/-- How a thread leaves (12 R290, R291; 13 R323; 15 R365). -/
inductive Leaving where
  | exit
  | killed
  | cancelled
  deriving DecidableEq, Repr

/-- The endpoint of a thread that leaves becomes EXITED, with the first of a pair that does, and the slot has none (12 R310; 13 R323):
unread messages go with it. -/
def exitEndpoint (x : Thread) : M Unit := do
  match ((← getS).slot x.home).endpoint with
  | some (job, ep) => do
    modSlot x.home (fun sl => { sl with endpoint := none, inbox := [] })
    let j ← readJob (coreOf x.home) x.ctx job
    if ep < j.count then writeEndpoint j ep 3 0 else pure ()
    answerHeld (coreOf x.home) x.ctx job ep
  | none => pure ()

/-- Whether a thread is the last of its pair in being: its partner neither runs nor is saved (15 R379, R382). -/
def State.lastOf (s : State) (tid uid : Nat) : Bool := (s.partner tid).isNone && !s.saved.any (fun q => q.mate = some uid)

/-- A thread leaves the package as EXIT leaves it (13 R323): its queues, recipes and buffers go with it, its holds end,
its endpoint becomes EXITED, its barrier arrival is withdrawn, its launch counts it. What waits in its release buffer goes
(15 R381). The slot is left to the caller. -/
def leave (tid : Nat) (how : Leaving) : M Unit := do
  let s ← getS
  match s.thread tid with
  | none => pure ()
  | some x =>
    let core := coreOf tid
    endHolds core x
    modCore core (fun c => { c with buffer := c.buffer.filter (fun e => !(e.uid = x.uid && e.waits)) })
    let alone := s.lastOf tid x.uid
    exitEndpoint x
    let k := clusterOf (coreOf x.home)
    modCluster k (fun c => { c with waiters := c.waiters.filter (· != x.uid) })
    let t ← timeOf (.core core)
    match x.park with
    | some (.barrier _) => report k x.launch 4 x.uid t
    | some (.save (some _) _) => report k x.launch 4 x.uid t
    | _ => pure ()
    if alone then
      report k x.launch (if how = .exit then 1 else 2) x.uid t
      modS (fun s => match find s.launches x.launch with
        | none => s
        | some l => { s with launches := put s.launches x.launch { l with
            gone := l.gone + 1
            lost := match how, x.index with | .killed, some i => l.lost ++ [i] | _, _ => l.lost } })
      freeStatus x.launch
    else pure ()

/-- Both slots of a thread are freed (12 R306). -/
def freeSlots (tid : Nat) (x : Thread) : M Unit := do
  freeSlot tid
  if x.role = .single && x.home != tid then freeSlot x.home else pure ()

/-- Word 0 of a mailbox record (15 R373). -/
def recordWord (src intr code ctx home jid : Nat) : Word :=
  setBits (setBits (setBits (setBits (setBits (setBits 0 63 62 src) 61 61 intr) 60 53 code) 52 41 ctx) 40 23 home) 15 0 jid

/-- Posts a record: it takes one of its core's four entries, or waits for one in order (15 R373). -/
def post (core : Nat) (m : Mail) : M Unit := do
  let k := clusterOf core
  let c := (← getS).cluster k
  let mine := numbers (4 * (core % 8)) 4
  match mine.find? (fun e => (find c.mailbox e).isNone) with
  | some e =>
    if c.posts.any (fun p => p.1 = core) then modCluster k (fun c => { c with posts := c.posts ++ [(core, m)] })
    else modCluster k (fun c => { c with mailbox := put c.mailbox e m })
  | none => modCluster k (fun c => { c with posts := c.posts ++ [(core, m)] })

/-- A core's free mailbox entries go to the posts that wait for them, in order (15 R373). -/
def promote (core : Nat) : M Unit := do
  let k := clusterOf core
  for e in numbers (4 * (core % 8)) 4 do
    modCluster k (fun c =>
      if (find c.mailbox e).isSome then c
      else match c.posts.find? (fun p => p.1 = core) with
        | none => c
        | some p => { c with
            mailbox := put c.mailbox e p.2
            posts := c.posts.erase p })

/-- The mailbox entries and the waiting posts of a thread are freed (15 R373). -/
def dropMail (core uid : Nat) : M Unit := do
  let k := clusterOf core
  modCluster k (fun c => { c with
    mailbox := c.mailbox.filter (fun m => m.2.uid != uid || m.2.tid.isNone)
    posts := c.posts.filter (fun m => m.2.uid != uid || m.2.tid.isNone) })
  promote core

/-- A thread is killed by an error (15 R365): its window is zeroed, it leaves as EXIT leaves it but counted in killed,
the cell of its home slot is emptied, and its slot waits for the bureau's answer to the kill record. `record`: the record is this
thread's, and is posted; else it is that of the other thread of its pair, whose words are given. -/
def killOne (tid : Nat) (words : List Word) (record : Bool) : M Unit := do
  let s ← getS
  match s.thread tid with
  | none => pure ()
  | some x =>
    writeWindow (coreOf tid) x.wbase x.win []
    leave tid .killed
    dropMail (coreOf tid) x.uid
    let own := if x.role = .single then x.home else tid
    modCore (coreOf own) (fun c => { c with full := c.full.filter (· != slotOf own), cells := del c.cells (slotOf own) })
    if x.role = .single && x.home != tid then freeSlot x.home else pure ()
    modSlot tid (fun sl => { sl with
      compose := [], inbox := [], endpoint := none,
      thread := some { newThread x.uid x.ctx x.launch x.index tid x.win x.wbase x.pc with
        park := some (.killed words record) } })
    if record then post (coreOf tid) { words := words, tid := some tid, uid := x.uid } else pure ()

/-- A saved thread is discarded without being restored (12 R291): its endpoint becomes EXITED, its launch counts it killed, with the
last of a pair, a home slot that is AWAY for it becomes FREE (12 R306), and the error responses that it has not read are discarded
(12 R314). -/
def leaveSaved (p : SavedThread) : M Unit := do
  let s ← getS
  set { s with saved := s.saved.filter (fun q => q.uid != p.uid) }
  let core := coreOf p.home
  let alone := !s.saved.any (fun q => q.mate = some p.uid) && ((p.mate.bind s.living).isNone)
  if p.arrived.isSome then report (clusterOf core) p.launch 4 p.uid (s.pts core) else pure ()
  match p.endpoint with
  | some (job, ep) => do
    let j ← readJob core p.ctx job
    if ep < j.count then writeEndpoint j ep 3 0 else pure ()
    answerHeld core p.ctx job ep
  | none => pure ()
  for h in p.inbox do
    if h.error then dropResponse h else pure ()
  if alone then do
    report (clusterOf core) p.launch 2 p.uid (s.pts core)
    modS (fun s => match find s.launches p.launch with
      | none => s
      | some l => { s with launches := put s.launches p.launch { l with gone := l.gone + 1 } })
    freeStatus p.launch
  else pure ()
  if (s.slot p.home).awayOf = some p.uid then freeSlot p.home else pure ()

/-- The address of the oldest effect that waits in a leading thread's release buffer; 0 where none does (15 R368, R381). -/
def Thread.firstRelease (x : Thread) : Word := (x.effects.head?.map (·.1.addr)).getD 0

/-- A kill by an error of a thread, or of both threads of its pair with one record, one that is saved too (15 R365, R381, R382). Both
slots of a pair wait for the record's answer. -/
def killThread (tid code : Nat) (value : Word) (pc : BitVec 55) : M Unit := do
  let s ← getS
  match s.thread tid with
  | none => pure ()
  | some x => do
    let words := [recordWord 1 0 code x.ctx x.home 0, value, pc.setWidth 64, word x.launch]
    match s.partner tid with
    | none => do
      for q in s.saved do
        if q.mate = some x.uid then leaveSaved q else pure ()
    | some _ => killOne (partnerOf tid) words false
    killOne tid words true

/-- A cancellation kills a thread (12 R291): its cells stay as EXIT leaves them, its slots are freed; a handler's
mailbox entry is freed (15 R373). -/
def cancelThread (tid : Nat) : M Unit := do
  let s ← getS
  match s.thread tid with
  | none => pure ()
  | some x =>
    match x.park with
    | some (.killed _ _) => pure ()
    | _ => do
      leave tid .cancelled
      dropMail (coreOf tid) x.uid
      freeSlots tid x

/-- Cancelling a launch (12 R291): no further creation, its threads killed, its engine jobs marked, its stages emptied. -/
def cancelLaunch (h : Nat) : M Unit := do
  let s ← getS
  match find s.launches h with
  | none => pure ()
  | some l =>
    set { s with launches := put s.launches h { l with cancelling := true, again := [] } }
    for p in s.threads do
      if p.2.launch = h then cancelThread p.1 else pure ()
    for c in numbers l.record.cbase l.record.ccnt do
      modCluster c (fun k => { k with stages := k.stages.filter (fun p => p.2.launch != h) })
    modS (fun s => { s with
      clusters := s.clusters.map (fun k => (k.1, { k.2 with
        trestle := { k.2.trestle with jobs := k.2.trestle.jobs.map (fun j => if j.launch = h then { j with cancel := true } else j) }
        copy := { k.2.copy with jobs := k.2.copy.jobs.map (fun j => if j.launch = h then { j with cancel := true } else j) } }))
      packets := s.packets.filter (fun p => s.threads.any (fun t => t.2.uid = p.2.uid)) })
    for p in (← getS).saved do
      if p.launch = h then leaveSaved p else pure ()
    for p in (← getS).jobs do
      if p.2.2.launch = h && p.2.2.saved.isSome then endJob p.1 p.2.1 p.2.2 7 0 else pure ()
    freeStatus h
    completeLaunch h
    freeHandles

/-- The silent-data fault of a pair (15 R381). -/
def silentFault (tid : Nat) (addr : Word) : M Unit := do
  let s ← getS
  match s.thread tid with
  | none => pure ()
  | some x => killThread tid 27 addr x.first

/-- A trap of a thread that stands alone, or of both threads of its pair (15 R370, R382): a double trap kills. An access fault is
entered in the log in either case (14 R347). -/
def takeTrapOf (tid : Nat) (x : Thread) (t : TrapInfo) (partner : Option Thread) : M Unit := do
  let s ← getS
  if prv (s.slot tid).tstat then do
    modS (fun s => s.logFault tid x t)
    killThread tid 28 (word t.cause) x.first
  else do
    match partner with
    | some y => modS (fun s => s.enterTrap (partnerOf tid) { y with park := none } t)
    | none => pure ()
    modS (fun s => s.takeTrap tid x t)

/-- A trap of a thread (15 R370, R382): a pair's trap is taken when both threads reach it. A thread of a pair whose partner is not in
place waits; one whose partner has made another effect does not match it. -/
def trapThread (tid : Nat) (t : TrapInfo) : M Unit := do
  let s ← getS
  match s.thread tid with
  | none => pure ()
  | some x =>
    -- What the leading thread's unit took enters the trailing one too, which reaches the trap with it (15 R380).
    let values := x.values ++ (if x.role = .leading then t.entered.drop x.resume.entered.length else [])
    let wait := modThread tid (fun x => { x with
      values := values
      park := some (.pairTrap t.cause t.value) })
    -- A trailing thread that waits in the same unit finds a name as illegal as its leading thread has.
    let again := do
      wait
      modThread (partnerOf tid) (fun y => { y with park := none })
    if x.role = .single then takeTrapOf tid x t none
    else match s.partner tid with
    | none => wait
    | some y =>
      match y.park with
      | some (.pairTrap c v) =>
        if c = t.cause && v = t.value && y.first = x.first && x.effects.isEmpty && y.effects.isEmpty then do
          modThread (partnerOf tid) (fun y => { y with park := none })
          takeTrapOf tid x t (some y)
        else silentFault tid (if x.role = .leading then x.firstRelease else y.firstRelease)
      | some (.effect e) =>
        if x.role = .leading && !x.effects.isEmpty then wait
        else if x.role = .leading && t.cause = 2 && y.first = x.first then again
        else silentFault tid (if x.role = .trailing then e.addr else 0)
      | some .pairValue =>
        let stuck := if y.role = .trailing then values.isEmpty && x.effects.isEmpty
          else decide (16 ≤ y.values.length) || !y.effects.isEmpty
        if stuck && x.role = .leading && t.cause = 2 && y.first = x.first then again
        else if stuck then silentFault tid (if x.role = .trailing then y.firstRelease else 0) else wait
      | _ => if x.role = .trailing && !y.effects.isEmpty then silentFault tid y.firstRelease else wait

/-- The steps that a thread's recipes hold (07 R162). -/
def Thread.steps (x : Thread) : Nat := (x.recipes.map (fun p => p.2.body.length)).sum

/-- A word of a thread record or packet, and whether it holds a poisoned entry. -/
abbrev RecordWord := Word × Bool

/-- The words of a recipe record (07 R173). -/
def recipeRecord (name : Nat) (r : Recipe) : List RecordWord :=
  (setBits (setBits (setBits (setBits 0 15 8 name) 7 7 (if r.stale then 1 else 0)) 6 4 r.rm.toNat) 1 0 (r.body.length - 1), false) ::
    r.body.map (fun st => (st.word, st.poison))

/-- A step word (07 R173), if its reserved field is zero. -/
def stepOf (w : Word) : Option RecipeStep :=
  if bits w 63 57 != 0 then none
  else some { px := bit w 56, hi := w.extractLsb' 32 24, iw := w.setWidth 32 }

/-- The recipe whose record has a header word, with its steps. -/
def recipeOf (h : Word) (steps : List RecipeStep) : Recipe :=
  { rm := BitVec.ofNat 3 (bits h 6 4), stale := bit h 7, body := steps }

/-- The recipes of the first `n` recipe records among some words (07 R173). -/
def recipesOf : Nat → List RecordWord → FMap Recipe
  | 0, _ => []
  | _, [] => []
  | n + 1, h :: ws =>
    let k := bits h.1 1 0 + 1
    let steps := (ws.take k).filterMap (fun w => (stepOf w.1).map (fun st => { st with poison := w.2 }))
    put (recipesOf n (ws.drop k)) (bits h.1 15 8) (recipeOf h.1 steps)

/-- The steps that a thread's recipes hold, those that a packet brings it among them (07 R162, R174). -/
def State.stepsOf (s : State) (x : Thread) : Nat :=
  x.steps + (match s.packets.find? (fun p => p.2.uid = x.uid) with
    | some (_, p) => ((recipesOf p.records.length p.records).map (fun r => r.2.body.length)).sum
    | none => 0)

/-- The steps of a core's pool that are in use: what its threads hold beyond their reserves of 8, those that are AWAY among them,
whose home keeps the room that they return to (07 R162, R174; notes/assumptions/61.md). -/
def State.poolUsed (s : State) (core : Nat) : Nat :=
  ((s.core core).slots.map (fun p => match p.2.thread, p.2.awayOf with
    | some x, _ => s.stepsOf x - 8
    | none, some uid => match s.byUid uid with
      | some (_, x) => s.stepsOf x - 8
      | none => 0
    | none, none => 0)).sum

/-- The steps that a thread could take now: its unused reserve and the free pool, of a guest that of its home core too (07 R171;
notes/assumptions/61.md). -/
def State.freeSteps (s : State) (core : Nat) (x : Thread) : Nat :=
  let pool := 512 - s.poolUsed core
  (8 - x.steps) + (if coreOf x.home = core then pool else min pool (512 - s.poolUsed (coreOf x.home)))

/-- The slot that a thread would take on a core as a guest, with the base of its window (12 R304, R307; 07 R174): its own
home slot where that is the core, else the first FREE slot, whatever its owner, of a core with room for its recipes. -/
def State.guestPlace (s : State) (x : Thread) (core : Nat) : Option (Nat × Nat) :=
  if coreOf x.home = core then (s.slot x.home).kept.map (fun k => (x.home, k.1))
  else match (s.freeSlots core).head?, (s.core core).freeRun (x.win / 8) 256 with
    | some t, some b => if x.steps ≤ 8 + (512 - s.poolUsed core) then some (t, 8 * b) else none
    | _, _ => none

/-- The header flit of a thread packet (12 R303): the place of the unit, tstat, the home and the departing core's time, the context and
bst. -/
def State.packetHeader (s : State) (tid : Nat) (x : Thread) (stat : Word) : List Word :=
  [setBits (setBits (setBits 0 59 59 (if x.win = 16 then 1 else 0)) 58 55 x.recipes.length) 54 0 x.first.toNat,
   stat,
   setBits (setBits 0 57 40 x.home) 39 0 (extendTime s.floor (s.pts (coreOf tid))),
   setBits (setBits 0 14 3 x.ctx) 2 0 x.bst.toNat]

/-- The thread sends itself over the migration class (12 R302, R303): its holds end, its slot becomes AWAY or FREE, and it takes its place
in the slot it goes to, parked until its packet arrives. The packet holds its window and its recipe records. DESIGN CHOICE (log 67): a
return home brings along the entries of the load-data and store-data queues. -/
def sendAway (tid core : Nat) (home : Bool) : M Unit := do
  let s ← getS
  match s.thread tid with
  | none => pure ()
  | some x =>
    match s.guestPlace x (if home then coreOf x.home else core) with
    | none => pure ()
    | some (t, b) => do
      endHolds (coreOf tid) x
      let sl := s.slot tid
      let window := (numbers x.wbase x.win).map (fun k => s.met (.reg (coreOf tid) k) (findD (s.core (coreOf tid)).rf {} k))
      let recipes := x.recipes.map (fun p => (p.1, { p.2 with body := s.metSteps tid p.1 p.2.body }))
      modS (fun s => { s with errs := s.errs.filter (fun e => match e.1 with
        | .step t _ _ => t != tid
        | _ => true) })
      let n ← draw
      writeWindow (coreOf tid) x.wbase x.win []
      if sl.state = .guest then freeSlot tid
      else modSlot tid (fun sl => { sl with state := .away, thread := none, kept := some (x.wbase, x.win), awayOf := some x.uid })
      modSlot t (fun sl' => { sl' with
        state := if t = x.home then .home else .guest
        owner := some x.ctx, tstat := sl.tstat, kept := none, awayOf := none
        thread := some { x.endUnit with wbase := b, holds := [], pc := x.first, park := some .migration, recipes := [] } })
      modCore (coreOf t) (fun c => { c with issuedAt := del c.issuedAt (slotOf t) })
      modS (fun s => { s with packets := put s.packets n { uid := x.uid, header := s.packetHeader tid x sl.tstat, window := window,
                                                           records := recipes.flatMap (fun p => recipeRecord p.1 p.2), target := t } })

/-- The bytes of a page whose leaf lies at a level (14 R340). -/
def pageSize (level : Nat) : Nat := if level = 1 then 2 ^ 42 else if level = 2 then 2 ^ 29 else 2 ^ 16

/-- The threads of a cluster that wait for the walk of a page of a context, with the address, the kind and the replay step of each
(14 R343). -/
def State.misses (s : State) (cluster ctx level page : Nat) : List (Nat × Word × Nat × Option (Nat × Nat)) :=
  s.threads.filterMap (fun p => match p.2.park with
    | some (.walk va kind replay) =>
      if clusterOf (coreOf p.1) = cluster && p.2.ctx = ctx && va.toNat % 2 ^ 55 / pageSize level = page then some (p.1, va, kind, replay)
      else none
    | _ => none)

/-- Whether a miss of an engine waits for the walk of a page. -/
def EngineMiss.waits (m : EngineMiss) (ctx page : Nat) : Bool := m.ended.isNone && m.ctx = ctx && m.page = page

/-- The walks of a cluster's walker that a thread or an engine waits for, in the order in which their first misses came (14 R343). -/
def State.liveWalks (s : State) (cluster : Nat) : List (Nat × Nat) :=
  (s.cluster cluster).walks.filter (fun w => !(s.misses cluster w.1 3 w.2).isEmpty || (s.cluster cluster).asked.any (·.waits w.1 w.2))

/-- A miss joins the walks of its cluster: the one of its page where there is one (14 R343). -/
def State.queueWalk (s : State) (cluster ctx page : Nat) : State :=
  let live := s.liveWalks cluster
  s.setCluster cluster { s.cluster cluster with walks := if live.contains (ctx, page) then live else live ++ [(ctx, page)] }

/-- An engine's miss joins the walks of its cluster, and is kept until its engine takes up the answer or its job goes (14 R343). -/
def State.queueMiss (s : State) (cluster : Nat) (m : EngineMiss) : State :=
  let s := s.queueWalk cluster m.ctx m.page
  let k := s.cluster cluster
  s.setCluster cluster { k with asked := if k.asked.contains m then k.asked else k.asked ++ [m] }

/-- Parks a thread (02 R54): a miss joins the walker's queue (14 R343), a bank operation is sent as it parks (02 R57), an arrival is reported (12 R293), and the
comparator sees an effect of a pair (15 R381). -/
def parkThread (tid : Nat) (w : Wait) : M Unit := do
  let s ← getS
  match s.thread tid with
  | none => pure ()
  | some x =>
    match w with
    | .walk va _ _ => do
      modS (fun s => s.queueWalk (clusterOf (coreOf tid)) x.ctx (va.toNat % 2 ^ 55 / pageSize 3))
      modThread tid (fun x => { x with park := some w })
    | .bankSend op => do
      let n ← draw
      modS (fun s => { s with bankOps := put s.bankOps n op })
      modThread tid (fun x => { x with park := some (.bank n) })
    | .barrier _ => do
      modThread tid (fun x => { x with park := some w })
      if x.role = .trailing then pure ()
      else report (clusterOf (coreOf tid)) x.launch 3 x.uid (s.pts (coreOf tid))
    | .work _ _ _ => do
      modThread tid (fun x => { x with park := some w })
      modCluster (clusterOf (coreOf tid)) (fun k => { k with waiters := k.waiters ++ [x.uid] })
    | .hold line => do
      modThread tid (fun x => { x with park := some w })
      modCore (coreOf tid) (fun c => { c with
        holdQueue := if c.holdQueue.contains (line, x.uid) then c.holdQueue else c.holdQueue ++ [(line, x.uid)] })
    | .discard lines => do
      modThread tid (fun x => { x with park := some w })
      modS (fun s => { s with discards := s.discards ++ (lines.map (·.1)).filter (fun l => !s.discards.contains l) })
    | .effect e =>
      -- The comparator meets the leading thread's effects in order, those that it did not stop at first. A thread that stops where the
      -- other cannot have made the same effect or value differs from it.
      match s.partner tid with
      | some y =>
        if x.role = .trailing && !y.effects.isEmpty then silentFault tid y.firstRelease
        else match y.park with
        | some (.effect e') =>
          if !x.effects.isEmpty then modThread tid (fun x => { x with park := some w })
          else if e' = e then do
            modThread tid (fun x => { x with released := some e, park := none })
            modThread (partnerOf tid) (fun y => { y with released := some e, park := none })
          else silentFault tid (if x.role = .leading then e.addr else e'.addr)
        | some (.pairTrap _ _) => silentFault tid (if x.role = .leading then e.addr else 0)
        | some .pairValue =>
          if x.role = .leading && x.values.isEmpty && x.effects.isEmpty then silentFault tid e.addr
          else modThread tid (fun x => { x with park := some w })
        | _ => modThread tid (fun x => { x with park := some w })
      | none => modThread tid (fun x => { x with park := some w })
    | .pairValue =>
      match s.partner tid with
      | some y =>
        match y.park with
        | some (.pairTrap _ _) => silentFault tid (if x.role = .leading then x.firstRelease else y.firstRelease)
        | some (.effect e) =>
          if x.role = .trailing then silentFault tid e.addr else modThread tid (fun x => { x with park := some w })
        | some .pairValue =>
          let lead := if x.role = .leading then x else y
          if lead.values.isEmpty && !lead.effects.isEmpty then silentFault tid lead.firstRelease else modThread tid (fun x => { x with park := some w })
        | _ => modThread tid (fun x => { x with park := some w })
      | none => modThread tid (fun x => { x with park := some w })
    | _ => modThread tid (fun x => { x with park := some w })

/-- A word of the oldest message of a slot has been read (13 R334). -/
def popWord (slot : Nat) : M Unit :=
  modSlot slot (fun sl => match sl.inbox with
    | [] => sl
    | m :: ms =>
      let rest := m.words.drop 1
      { sl with inbox := if rest.isEmpty then ms else { m with words := rest, partly := true } :: ms })

/-- The forward cell before a slot has been read (12 R287). -/
def popCell (tid : Nat) : M Unit :=
  modCore (coreOf tid) (fun c =>
    let k := (slotOf tid + 63) % 64
    { c with
      full := c.full.filter (· != k)
      cells := del c.cells k })

/-- The values that a unit of a pair has taken from outside stay recorded while it waits: a leading thread's enter the load-value queue,
and a message's word or a cell's word that was taken is gone; a trailing thread's have left the queue (15 R380, R381). -/
def commitEntered (tid : Nat) (entered : List PairValue) : M Unit := do
  match (← getS).thread tid with
  | none => pure ()
  | some x =>
    let new := entered.drop x.resume.entered.length
    if x.role = .trailing then modThread (partnerOf tid) (fun y => { y with values := y.values.drop new.length })
    else do
      for p in new do
        if p.kind = 3 then popCell tid
        else if p.kind = 4 then popWord x.home
        else pure ()
      modThread tid (fun x => { x with values := x.values ++ new })
    modThread tid (fun x => { x with resume := { x.resume with
      entered := entered
      used := 0 } })

/-- A line that a unit of the thread consumed is marked as the access found it (15 R360). -/
def markConsumed (tid line : Nat) : M Unit :=
  modS (fun s =>
    let core := coreOf tid
    let s := s.checkL1 core (l1Key line .priv)
    let s := s.checkL1 core (l1Key line .rshr)
    let s := s.checkL1 core (l1Key line .coh)
    s.checkL2 line)

/-- What becomes of a unit that did not complete: the trap, park, kill, migration or delayed advance of the thread at
`tid`, on the state that the unit found (02 R54, R55). -/
def settle (tid : Nat) (a : Abort) : M Unit := do
  let kill := fun (code : Nat) (v : Word) => do
    match (← getS).thread tid with
    | some x => killThread tid code v x.first
    | none => pure ()
  match a with
  | .trap t => trapThread tid t
  | .park w => parkThread tid w
  | .begun w operands flags entered => do
    if entered.isEmpty then pure () else commitEntered tid entered
    modThread tid (fun x => { x with resume := { x.resume with
      operands := some operands
      used := entered.length
      flags := flags } })
    parkThread tid w
  | .match_ e entered => do
    commitEntered tid entered
    parkThread tid (.effect e)
  | .turn lines => modThread tid (fun x => { x with resume := { x.resume with
      served := lines
      turns := x.resume.turns + 1 } })
  | .kill code v => kill code v
  | .consumed ea line => do
    markConsumed tid line
    kill 26 ea
  | .migrate core home => sendAway tid core home
  | .late g t => do
    modS (fun s => s.setClock g { s.clock g with late := some t })
    modThread tid (fun x => { x with park := some (.advance 0) })
  | .miss _ _ => pure ()
  | .stop f => abort (.stop f)

/-- Runs an event: an abort means that its condition does not hold, and nothing happens; an advance that does not fit
is left for the agent to make (09 R227), and an engine's miss joins the walker's queue (14 R343). -/
def runEvent (body : M Unit) (s : State) : Host.Outcome State Fault Refusal :=
  match body s with
  | .ok (_, s') => .next s'
  | .error (.stop f) => .fault f
  | .error (.miss k m) => .next (s.queueMiss k m)
  | .error (.late a t) => .next (s.setClock a { s.clock a with late := some t })
  | .error _ => .next s

/-- An event that names a unit the package lacks stops. -/
def unit (i : Instr) (body : M Unit) (s : State) : Host.Outcome State Fault Refusal :=
  if wellFormed i then runEvent body s else .fault .noSuchUnit

end Sys2Proof.Machine
end

