-- ==== Sys2Proof/Machine/Translate.lean ====
section
/-! DEFINITION. Address ranges, page tables, the TLBs, the walker and shootdown (08 R176 to R180; 14 R340 to R344). -/

namespace Sys2Proof.Machine

/-- Whether an address lies outside the space (08 R176). -/
def outside (ea : Word) : Bool := 2 ^ 55 ≤ ea.toNat
/-- The first address of the bank aperture (08 R176). -/
def apertureBase : Nat := 0x7FFFC000000000
/-- Whether an address lies in the bank aperture (08 R176). -/
def inAperture (ea : Word) : Bool := decide (0x7FFFC000000000 ≤ ea.toNat) && decide (ea.toNat < 2 ^ 55)

/-- What a walk finds (14 R341). -/
inductive WalkResult where
  | absent
  | poisoned
  | leaf (level : Nat) (w : Word)
  deriving DecidableEq, Repr

/-- A leaf that acts as present (14 R341): no reserved field, no w without r, no reserved attribute, aligned. -/
def leafOk (level : Nat) (w : Word) : Bool :=
  !(bit w 2 && !bit w 1) && !bit w 63 && !bit w 52 && bits w 15 5 = 0 && bits w 54 53 != 3 &&
  bits w 51 16 * 65536 % pageSize level = 0

/-- The walk from a table at a level (14 R340, R341). -/
def walkFrom (table va : Nat) : Nat → Nat → M WalkResult
  | 0, _ => pure .absent
  | n + 1, level => do
    let idx := va / pageSize level % 8192
    let (w, p) ← physRead (table + 8 * idx)
    if p then return .poisoned
    else if !bit w 0 then return .absent
    else if !bit w 1 && !bit w 2 && !bit w 3 then walkFrom (bits w 51 16 * 65536) va n (level + 1)
    else if leafOk level w then return .leaf level w
    else return .absent

/-- The walk of an address under a root (14 R341). -/
def walk (root va : Nat) : M WalkResult := walkFrom root (va % 2 ^ 55) 3 1

/-- The root of a context's tables on a core (14 R345). -/
def State.rootOf (s : State) (core ctx : Nat) : Nat := bits (s.entry core ctx).root 51 16 * 65536

/-- The entry of a TLB that answers an address (14 R342). -/
def tlbFind (l : List TlbEntry) (ctx va : Nat) : Option TlbEntry :=
  l.find? (fun e => e.ctx = ctx && e.page = va % 2 ^ 55 / pageSize e.level)

/-- Whether two TLB entries are of one page of one context (14 R342). -/
def TlbEntry.same (a b : TlbEntry) : Bool := a.ctx = b.ctx && a.level = b.level && a.page = b.page

/-- A first-level TLB with an entry: 32 sets of 8 ways (01 R18; notes/assumptions/14.md), one entry for a page. -/
def tlbPut (l : List TlbEntry) (e : TlbEntry) : List TlbEntry :=
  let rest := l.filter (fun f => !f.same e)
  e :: (rest.filter (fun f => f.page % 32 = e.page % 32)).take 7 ++ rest.filter (fun f => f.page % 32 != e.page % 32)

/-- A second-level TLB with an entry, of 4,096 (01 R18). -/
def tlbPut2 (l : List TlbEntry) (e : TlbEntry) : List TlbEntry := (e :: l.filter (fun f => !f.same e)).take 4096

/-- A translation: the physical address, the attribute and lease, the leaf (08 R179). -/
structure Page where
  pa : Nat
  attr : Attr
  lease : Nat
  leaf : Word
  deriving DecidableEq, Repr

/-- The translation that a leaf gives an address. A lease of 0 acts as 1 (08 R179). -/
def pageOf (level : Nat) (leaf : Word) (va : Nat) : Page :=
  { pa := bits leaf 51 16 * 65536 + va % pageSize level
    attr := if bits leaf 54 53 = 0 then .priv else if bits leaf 54 53 = 1 then .rshr else .coh
    lease := max 1 (bits leaf 62 55), leaf := leaf }

/-- Whether a leaf permits an access: 0 load, 1 store, 2 fetch (14 R341). -/
def permits (leaf : Word) (kind : Nat) (user : Bool) : Bool :=
  (if kind = 0 then bit leaf 1 else if kind = 1 then bit leaf 1 && bit leaf 2 else bit leaf 3) && !(user && bit leaf 4)

/-- The page fault of an access (10 R230; 14 R341). -/
def pageFault (kind : Nat) : Nat := if kind = 0 then 13 else if kind = 1 then 15 else 12

/-- Translates an address for the issuing thread: a miss of both TLBs parks it (10 R230 step 4). `kindOf`: the kind of
access that the page found makes it, `miss` the kind while none is known. -/
def translateBy (ea : Word) (miss : Nat) (kindOf : Page → Nat) : M Page := do
  let x ← me
  let s ← getS
  let core := coreOf s.cur
  let user := !prv (s.slot s.cur).tstat
  let judge := fun (p : Page) => if permits p.leaf (kindOf p) user then pure p else trap (pageFault (kindOf p)) ea
  match tlbFind (s.core core).tlb x.ctx ea.toNat with
  | some e => judge (pageOf e.level e.leaf ea.toNat)
  | none =>
    match tlbFind (s.cluster (clusterOf core)).tlb x.ctx ea.toNat with
    | some e => do
      modCore core (fun c => { c with tlb := tlbPut c.tlb e })
      judge (pageOf e.level e.leaf ea.toNat)
    | none => park (.walk ea miss none)

/-- Translates an address for an access of a kind: 0 load, 1 store, 2 fetch. -/
def translate (ea : Word) (kind : Nat) : M Page := translateBy ea kind (fun _ => kind)

/-- The walks that have been answered leave the walker's queue (14 R343). -/
def tidyWalks (cluster : Nat) : M Unit := do
  let left := (← getS).liveWalks cluster
  modCluster cluster (fun k => { k with walks := left })

/-- A page that a walk has found enters the TLBs and answers every miss that joined the walk (14 R342, R343). -/
def answerMisses (cluster : Nat) (e : TlbEntry) : M Unit := do
  modCluster cluster (fun k => { k with
    tlb := tlbPut2 k.tlb e
    asked := k.asked.filter (fun m => !(m.ended.isNone && m.ctx = e.ctx && m.page * 65536 / pageSize e.level = e.page)) })
  for m in (← getS).misses cluster e.ctx e.level e.page do
    modCore (coreOf m.1) (fun c => { c with tlb := tlbPut c.tlb e })
    modThread m.1 (fun x => { x with park := none })
  tidyWalks cluster

/-- Whether a walk is one of the 32 that a cluster's walker runs at once, those that came first (14 R343). -/
def State.walkTurn (s : State) (cluster ctx page : Nat) : Bool :=
  decide (((s.liveWalks cluster).takeWhile (fun w => w != (ctx, page))).length < 32)

/-- A walk that finds no page gives its result to every miss that joined it (14 R343): a page fault, or where it has met a poisoned entry a
kill (15 R364), to threads; an engine takes it up at its job's next step. -/
def failMisses (cluster ctx page : Nat) (poisoned : Bool) : M Unit := do
  for m in (← getS).misses cluster ctx 3 page do
    if poisoned then settle m.1 (.kill 26 m.2.1)
    else
      let pc := (((← getS).thread m.1).map (·.pc.toNat)).getD 0
      settle m.1 (.trap { cause := pageFault m.2.2.1, value := m.2.1,
                          extra := if m.2.2.1 = 2 then (m.2.1.toNat - pc) / 4 else 0, replay := m.2.2.2 })
  modCluster cluster (fun k => { k with asked := k.asked.map (fun m => if m.waits ctx page then { m with ended := some poisoned } else m) })
  tidyWalks cluster

/-- PAGE_WALK (14 R343): a walk ends and answers the misses of its context and page; a poisoned entry kills the threads
(15 R364). -/
def pageWalk (tid : Nat) : M Unit := do
  let s ← getS
  let x ← needSome (s.thread tid)
  match x.park with
  | some (.walk va _ _) => do
    let cluster := clusterOf (coreOf tid)
    let page := va.toNat % 2 ^ 55 / pageSize 3
    need (s.walkTurn cluster x.ctx page)
    match ← walk (s.rootOf (coreOf tid) x.ctx) va.toNat with
    | .leaf level w =>
      answerMisses cluster { ctx := x.ctx, level := level, page := va.toNat % 2 ^ 55 / pageSize level, leaf := w }
    | .poisoned => failMisses cluster x.ctx page true
    | .absent => failMisses cluster x.ctx page false
  | _ => abort (.park (.advance 0))

/-- The result of an engine's or a bureau's translation (06 R156). -/
inductive EngineXlat where
  | ok (p : Page)
  | page
  | denied
  | poison
  deriving DecidableEq, Repr

/-- An answer that a job of an engine has for the walk of a page is taken up: whether an entry was poisoned (14 R343). -/
def takeAnswer (cluster ctx page : Nat) (job : Bool × Nat) : M (Option Bool) := do
  let mine := fun (m : EngineMiss) => m.ctx = ctx && m.page = page && m.copy = job.1 && m.jid = job.2 && m.ended.isSome
  let found := ((← getS).cluster cluster).asked.find? mine
  modCluster cluster (fun k => { k with asked := k.asked.filter (fun m => !mine m) })
  return found.bind (·.ended)

/-- The walk of a miss under a root, which is one of those that the walker runs; its result goes to every miss that joined it
(14 R343). -/
def walkNow (cluster root ctx va : Nat) : M (WalkResult × Option Page) := do
  let page := va % 2 ^ 55 / pageSize 3
  match ← walk root va with
  | .leaf level w => do
    answerMisses cluster { ctx := ctx, level := level, page := va % 2 ^ 55 / pageSize level, leaf := w }
    return (.leaf level w, some (pageOf level w va))
  | r => do
    failMisses cluster ctx page (r = .poisoned)
    return (r, none)

/-- The page of an address as a core's cluster finds it under the core's entry of a context (14 R342, R343), with poison on the way
apart. `job`: the engine's job whose miss it is; its miss waits in the walker's queue while 32 walks that came before it go on. Any other
miss comes when the walker has room for it (DESIGN CHOICE, notes/assumptions/66.md). -/
def walkPage (core ctx : Nat) (va : Nat) (job : Option (Bool × Nat)) : M (WalkResult × Option Page) := do
  let cluster := clusterOf core
  let page := va % 2 ^ 55 / pageSize 3
  let answer ← match job with
    | some j => takeAnswer cluster ctx page j
    | none => pure none
  match answer with
  | some bad => return (if bad then .poisoned else .absent, none)
  | none =>
    let s ← getS
    match tlbFind (s.cluster cluster).tlb ctx va with
    | some e => return (.leaf e.level e.leaf, some (pageOf e.level e.leaf va))
    | none =>
      if s.walkTurn cluster ctx page then walkNow cluster (s.rootOf core ctx) ctx va
      else match job with
        | some j => abort (.miss cluster { ctx := ctx, page := page, copy := j.1, jid := j.2 })
        | none => do
          need false
          return (.absent, none)

/-- The root of a context's tables as a cluster's bureau knows it (14 R345, R354): of the entry on one of its cores, else of the
context itself. -/
def State.bureauRoot (s : State) (cluster ctx : Nat) : Nat :=
  match (numbers (8 * cluster) 8).find? (fun c => (s.entryOf c ctx).isSome) with
  | some c => s.rootOf c ctx
  | none => ((find s.contexts ctx).map (·.root)).getD 0

/-- The page of an address as a cluster's bureau finds it: in the cluster's TLB, or by a walk of its own, which is none of the cluster's
walker (14 R343). -/
def bureauPage (cluster ctx va : Nat) : M (Option Page) := do
  let s ← getS
  match tlbFind (s.cluster cluster).tlb ctx va with
  | some e => return some (pageOf e.level e.leaf va)
  | none => do
    match ← walk (s.bureauRoot cluster ctx) va with
    | .leaf level w => return some (pageOf level w va)
    | _ => return none

/-- A bureau's read of a word of a context's memory: none where a page, an attribute or poison stops it. -/
def bureauRead (cluster ctx : Nat) (va : Nat) : M (Option Word) := do
  if apertureBase ≤ va then return none
  else match ← bureauPage cluster ctx va with
    | some p =>
      if permits p.leaf 0 true then do
        let (w, bad) ← physRead p.pa
        return if bad then none else some w
      else return none
    | none => return none

/-- A bureau's read of `n` words. -/
def bureauReads (cluster ctx : Nat) (va : Nat) : Nat → M (Option (List Word))
  | 0 => return some []
  | n + 1 => do
    match ← bureauRead cluster ctx va with
    | none => return none
    | some w => return (← bureauReads cluster ctx (va + 8) n).map (fun ws => w :: ws)

/-- The page of an address, if it is there (10 R245). -/
def engineXlatPage (core ctx : Nat) (va : Nat) : M (Option Page) := do return (← walkPage core ctx va none).2

/-- Translates for an engine's job, which waits for the walk (14 R343): a user-mode access of a context. -/
def engineXlat (core ctx : Nat) (va kind : Nat) (job : Bool × Nat) : M EngineXlat := do
  match ← walkPage core ctx va (some job) with
  | (.poisoned, _) => return .poison
  | (_, some p) => return if permits p.leaf kind true then .ok p else .denied
  | (_, none) => return .page

/-- Whether a shootdown's descriptor matches a TLB entry (14 R344). -/
def shootMatches (a b : Word) (e : TlbEntry) : Bool :=
  let scope := bits b 51 50
  let sizeOk := bits b 49 48 = 3 || (e.level = 3 && bits b 49 48 = 0) || (e.level = 2 && bits b 49 48 = 1) ||
    (e.level = 1 && bits b 49 48 = 2)
  if scope = 2 then true
  else if scope = 1 then e.ctx = bits b 63 52
  else e.ctx = bits b 63 52 && sizeOk && e.page = a.toNat % 2 ^ 55 / pageSize e.level

/-- Drops every matching entry of every TLB of the package and returns how many (14 R344). -/
def shootDown (a b : Word) : M Nat := do
  let s ← getS
  let n := (s.cores.map (fun c => (c.2.tlb.filter (shootMatches a b)).length)).sum +
    (s.clusters.map (fun k => (k.2.tlb.filter (shootMatches a b)).length)).sum
  set { s with
    cores := mapVals (fun (c : Core) => { c with tlb := c.tlb.filter (fun e => !shootMatches a b e) }) s.cores
    clusters := mapVals (fun (k : Cluster) => { k with tlb := k.tlb.filter (fun e => !shootMatches a b e) }) s.clusters }
  return n

end Sys2Proof.Machine
end

