-- ==== Sys2Proof/Machine/Lines.lean ====
section
/-! DEFINITION. Loads of lines: a thread's accesses that are not yet done, the store buffer as a load sees it, and the performing of
a load (08 R181, R184; 09 R209 to R217; 10 R233). -/

namespace Sys2Proof.Machine

/-- The stores of a thread still in a core's store buffer. -/
def State.pendingStores (s : State) (core uid : Nat) : List StEntry := (s.core core).buffer.filter (fun e => e.uid = uid)

/-- Whether a thread's older accesses all have their timestamps (09 R213, R216). -/
def State.olderDone (s : State) (core : Nat) (x : Thread) : Bool :=
  (s.pendingStores core x.uid).isEmpty && x.ldq.all (fun e => e.attr != .coh || e.val.isSome)

/-- Parks until every older store of the thread has its timestamp (09 R216). -/
def waitOlder : M Unit := do
  let x ← me
  let s ← getS
  parkUntil (s.olderDone (coreOf s.cur) x) .stores

/-- Parks until every older store of the thread has its timestamp; its loads on their way do not count (13 R323, R324). -/
def waitStores : M Unit := do
  let x ← me
  let s ← getS
  let ids := (s.pendingStores (coreOf s.cur) x.uid).map (·.id)
  parkUntil ids.isEmpty (.sibling ids)

/-- Whether a thread's launch is migratory (02 R48; 12 R305). -/
def State.isMigratory (s : State) (launch : Nat) : Bool := ((find s.launches launch).map (·.record.migr)).getD false

/-- What a load finds. -/
inductive Found where
  | got (v : Served)
  /-- Own older stores that have no timestamp (09 R216). -/
  | own
  /-- Siblings' stores that cover the load in part (09 R217). -/
  | siblings (entries : List Nat)
  | miss
  deriving DecidableEq, Repr

/-- The stores in a core's buffer that a load of a thread may be answered from (09 R216, R217): those of its context to the
line under the load's attribute; of its own, the older ones; of others, those that their pair has let through (15 R381). -/
def State.buffered (s : State) (core : Nat) (x : Thread) (line : Nat) (attr : Attr) (mask : LineMask) (seq : Nat) : List StEntry :=
  (s.core core).buffer.filter (fun e => e.line = line && e.attr = attr && e.ctx = x.ctx && (e.mask &&& mask) != 0 &&
    (if e.uid = x.uid then decide (e.id < seq) else !e.waits))

/-- The bytes that stores cover. -/
def coverage (es : List StEntry) : LineMask := es.foldl (fun m e => m ||| e.mask) 0

/-- The bytes that stores give, the youngest last. -/
def merged (es : List StEntry) : LineData := es.foldl (fun d e => mergeLine d e.data e.mask) 0

/-- A line without poison and time. -/
def served (line : Nat) (attr : Attr) (d : LineData) (p : Bool) : Served :=
  { line := line, attr := attr, data := d, poison := p, wts := 0, rts := 0, once := true }

/-- Performs a load of a thread on its core, as far as the core can: from the store buffer (09 R216, R217) or the L1 (08 R181,
R184; 09 R210, R211). `older`: whether every older access of the thread has its timestamp (09 R213). -/
def performLoad (tid line : Nat) (attr : Attr) (mask : LineMask) (seq : Nat) (older : Bool) : M Found := do
  let s ← getS
  match s.thread tid with
  | none => return .miss
  | some x =>
    let core := coreOf tid
    let es := s.buffered core x line attr mask seq
    let own := es.filter (fun e => e.uid = x.uid)
    if !own.isEmpty then
      if coverage own &&& mask = mask then return .got (served line attr (merged own) false) else return .own
    else if !older then return .own
    else if !es.isEmpty then
      if coverage es &&& mask = mask then do
        modThread tid (fun x => { x with early := x.early ++ es.map (·.id) })
        return .got (served line attr (merged es) false)
      else return .siblings (es.map (·.id))
    else if attr = .priv && s.isMigratory x.launch then return .miss
    else match ← l1Read core line attr with
      | none => return .miss
      | some y =>
        if attr != .coh then return .got (served line attr y.data y.poison)
        else if y.excl then do
          raise (.core core) y.wts
          let t ← timeOf (.core core)
          l1Put core line attr { y with rts := tmax y.rts t }
          return .got (served line attr y.data y.poison)
        else if atMost (s.pts core) y.rts then do
          raise (.core core) y.wts
          return .got (served line attr y.data y.poison)
        else return .miss

/-- What a load has received, if anything. -/
def Thread.arrived (x : Thread) (line : Nat) (attr : Attr) : Option Served :=
  x.resume.served.find? (fun v => v.line = line && v.attr = attr)

/-- Whether a core has a usable copy of a COH line (09 R210, R211). -/
def State.usable (s : State) (core line : Nat) : Bool :=
  match find (s.core core).l1 (l1Key line .coh) with
  | some y => y.excl || atMost (s.pts core) y.rts
  | none => false

/-- The data of a line that a load of the thread has met: a poisoned one kills it (15 R364). -/
def consume (ea : Word) (v : Served) : M LineData := if v.poison then abort (.consumed ea v.line) else return v.data

/-- The line of a load of the issuing thread: what arrived for it, or what the core holds; else the thread parks for it, after
`next`, and after `away` where the core has no usable copy (10 R233). `now`: a line that has not arrived is performed at once where the
core holds it. `step`: the load is a replay's (07 R165). -/
def lineOf (away next : M Unit) (ea : Word) (p : Page) (mask : LineMask) (ch : Nat) (now : Bool) (step : Bool := false) : M LineData := do
  let x ← me
  let s ← getS
  let line := p.pa / 32
  let wait : Wait := .line ea line p.attr p.lease false ch mask none step
  match x.arrived line p.attr with
  | some v => consume ea v
  | none =>
    if !now then do
      if s.usable (coreOf s.cur) line then pure () else away
      next
      park wait
    else
      match ← performLoad s.cur line p.attr mask s.fresh (s.olderDone (coreOf s.cur) x) with
      | .got v => do
        modS (fun s => s.markSoon (coreOf s.cur) line p.attr ch)
        consume ea v
      | .own => park .stores
      | .siblings l => park (.sibling l)
      | .miss => do
        away
        next
        park wait

end Sys2Proof.Machine
end

