-- ==== Sys2Proof/Machine/Prefix.lean ====
section
/-! DEFINITION. The prefixes that each instruction accepts (02 R36, R38; 04 R88; 05 R107; 10 R231; 13 R317 and the
entries), the assembled immediate, and the fields of PFX.MOD. -/

namespace Sys2Proof.Machine

/-- The fields of PFX.MOD (02 R37). -/
def Latch.rm (l : Latch) : Nat := l.modf.toNat / 2 ^ 21
def Latch.ch (l : Latch) : Nat := l.modf.toNat / 2 ^ 19 % 4
def Latch.sc (l : Latch) : Nat := l.modf.toNat / 2 ^ 17 % 4
def Latch.fill (l : Latch) : Nat := l.modf.toNat / 2 ^ 13 % 16
def Latch.aux (l : Latch) : Nat := l.modf.toNat / 2 ^ 8 % 32
def Latch.xn (l : Latch) : Nat := l.modf.toNat % 256

/-- What an instruction accepts: PFX.IMM words, a PFX.MOD, and of its fields rm, the greatest ch, sc, fill and the
codes of aux. -/
structure Accept where
  imm : Nat := 0
  modf : Bool := false
  rm : Bool := false
  ch : Nat := 0
  sc : Bool := false
  fill : Bool := false
  aux : List Nat := [0]
  deriving DecidableEq, Repr

/-- The lane codes 0 to 5 (05 R118). -/
def lanes : List Nat := [0, 1, 2, 3, 4, 5]

/-- The lanes of a group in a lane format (05 R118). -/
def laneWidth : Nat → Nat
  | 0 => 32
  | 1 => 16
  | 2 => 16
  | 3 => 32
  | 4 => 8
  | 5 => 64
  | _ => 8

def laneCount (code : Nat) : Nat := 512 / laneWidth code

/-- The part numbers of a VCVT (05 R129). -/
def vcvtParts (i : BitVec 8) : List Nat :=
  let a := laneCount (i.toNat / 16)
  let b := laneCount (i.toNat % 16)
  numbers 0 (max a b / min a b)

/-- What each instruction accepts. -/
def acceptOf : Instr → Accept
  | .addi _ _ _ => { imm := 2 }
  | .andi _ _ _ => { imm := 2 }
  | .ori _ _ _ => { imm := 2 }
  | .xori _ _ _ => { imm := 2 }
  | .slti _ _ _ => { imm := 2 }
  | .ldi _ _ => { imm := 2 }
  | .addpc _ _ => { imm := 2 }
  | .bz _ _ => { imm := 2 }
  | .bnz _ _ => { imm := 2 }
  | .bltz _ _ => { imm := 2 }
  | .bgez _ _ => { imm := 2 }
  | .bgtz _ _ => { imm := 2 }
  | .blez _ _ => { imm := 2 }
  | .j _ => { imm := 1 }
  | .call _ => { imm := 1 }
  | .fadd _ _ _ => { modf := true, rm := true, aux := [0, 1] }
  | .fsub _ _ _ => { modf := true, rm := true, aux := [0, 1] }
  | .fmul _ _ _ => { modf := true, rm := true, aux := [0, 1] }
  | .ffma _ _ _ => { modf := true, rm := true, aux := [0, 1] }
  | .fdiv _ _ _ => { modf := true, rm := true, aux := [0, 1] }
  | .fsqrt _ _ => { modf := true, rm := true, aux := [0, 1] }
  | .fmin _ _ _ => { modf := true, aux := [0, 1] }
  | .fmax _ _ _ => { modf := true, aux := [0, 1] }
  | .flg2 _ _ => { modf := true, rm := true }
  | .fex2 _ _ => { modf := true, rm := true }
  | .feq _ _ _ => { modf := true, aux := [0, 1] }
  | .flt _ _ _ => { modf := true, aux := [0, 1] }
  | .fle _ _ _ => { modf := true, aux := [0, 1] }
  | .fcvt _ _ _ => { modf := true, rm := true }
  | .fclass _ _ => { modf := true, aux := [0, 1] }
  | .fsgnj _ _ _ => { modf := true, aux := [0, 1, 2, 3, 4, 5] }
  | .frint _ _ => { modf := true, rm := true, aux := [0, 1] }
  | .ffms _ _ _ => { modf := true, rm := true, aux := [0, 1] }
  | .vadd _ _ _ => { modf := true, rm := true, aux := [0, 1, 2] }
  | .vsub _ _ _ => { modf := true, rm := true, aux := [0, 1, 2] }
  | .vmul _ _ _ => { modf := true, rm := true, aux := [0, 1, 2] }
  | .vfma _ _ _ => { modf := true, rm := true, aux := [0, 1, 2] }
  | .vmin _ _ _ => { modf := true, aux := lanes }
  | .vmax _ _ _ => { modf := true, aux := lanes }
  | .vlg2 _ _ => { modf := true, rm := true, aux := [0, 1, 2] }
  | .vex2 _ _ => { modf := true, rm := true, aux := [0, 1, 2] }
  | .vcvt _ _ i => { modf := true, rm := true, aux := vcvtParts i }
  | .vcmp _ _ _ => { modf := true, aux := (lanes ++ lanes.map (8 + ·) ++ lanes.map (16 + ·) ++ lanes.map (24 + ·)) }
  | .vsel _ _ _ => { modf := true, aux := lanes }
  | .vbcast _ _ => { modf := true, aux := lanes }
  | .vsum _ _ => { modf := true, rm := true, aux := lanes }
  | .vmaxr _ _ => { modf := true, aux := lanes }
  | .vargmax _ _ _ => { modf := true, aux := [0] }
  | .vhash _ _ _ => { modf := true, aux := [0, 5] }
  | .viadd _ _ _ => { modf := true, aux := [0, 3, 4, 5] }
  | .vimul _ _ _ => { modf := true, aux := [0, 3, 4, 5] }
  | .vshf _ _ _ => { modf := true, fill := true, aux := lanes }
  | .vld _ _ _ => { imm := 2, modf := true, ch := 2 }
  | .vst _ _ _ => { imm := 2, modf := true, ch := 2 }
  | .vldn _ _ _ => { modf := true, ch := 2, fill := true, aux := lanes }
  | .ldb _ _ _ => { imm := 2, modf := true, ch := 2 }
  | .ldbu _ _ _ => { imm := 2, modf := true, ch := 2 }
  | .ldh _ _ _ => { imm := 2, modf := true, ch := 2 }
  | .ldhu _ _ _ => { imm := 2, modf := true, ch := 2 }
  | .lds _ _ _ => { imm := 2, modf := true, ch := 2 }
  | .ldsu _ _ _ => { imm := 2, modf := true, ch := 2 }
  | .ldw _ _ _ => { imm := 2, modf := true, ch := 2 }
  | .stb _ _ _ => { imm := 2, modf := true, ch := 2 }
  | .sth _ _ _ => { imm := 2, modf := true, ch := 2 }
  | .sts _ _ _ => { imm := 2, modf := true, ch := 2 }
  | .stw _ _ _ => { imm := 2, modf := true, ch := 2 }
  | .ldro _ _ _ => { imm := 2, modf := true, ch := 2 }
  | .lde _ _ _ => { imm := 2, modf := true, ch := 2, aux := [0, 1] }
  | .stf _ _ _ => { imm := 2, modf := true, ch := 2 }
  | .amin _ _ _ => { modf := true, aux := [0, 1] }
  | .amax _ _ _ => { modf := true, aux := [0, 1] }
  | .fence => { modf := true, sc := true }
  | .pref _ _ => { imm := 2, modf := true, ch := 1 }
  | .ldex _ _ _ => { imm := 2, modf := true, ch := 2 }
  | .lwait _ _ => { modf := true, aux := (numbers 0 10) }
  | .cancel _ _ => { modf := true, aux := [0, 1] }
  | _ => {}

/-- Whether a unit's prefixes are accepted by its instruction, with no reserved code (02 R34, R38; 05 R128). -/
def accepts (i : Instr) (l : Latch) : Bool :=
  let a := acceptOf i
  decide (l.nimm ≤ a.imm) && (l.nmod = 0 || (a.modf &&
    decide (l.rm ≤ if a.rm then 5 else 0) && decide (l.ch ≤ a.ch) && decide (l.sc ≤ if a.sc then 3 else 0) &&
    decide (l.fill ≤ if a.fill then 4 else 0) && a.aux.contains l.aux && l.xn = 0 &&
    !(a.fill && l.fill = 3 && decide (3 ≤ l.aux))))

/-- The assembled immediate of a field of `n` bits (02 R36). -/
def assembled (l : Latch) (n : Nat) (field : Nat) : Word :=
  signExtendFrom (n + 24 * l.nimm) (word (l.imm.toNat * 2 ^ n + field))

end Sys2Proof.Machine
end

