-- ==== Sys2Proof/Machine/Names.lean ====
section
/-! DEFINITION. Which scalar names an instruction reads and writes, from its entry (02 R27 to R31). -/

namespace Sys2Proof.Machine

/-- Whether user mode may read a system register (14 R345). -/
def sysUser (n : Nat) : Bool := n = 0 || n = 0x10 || n = 0x11

/-- Whether a number names a system register that SYSR and SYSW reach (14 R345; 15 R371). -/
def sysAssigned (n : Nat) : Bool :=
  decide (n ≤ 0xD) || n = 0x10 || n = 0x11 || (decide (0x100 ≤ n) && decide (n ≤ 0x106)) || n = 0x110 || n = 0x111 || n = 0x120

/-- Whether a system instruction is illegal whatever its operands: a register that is unassigned, or one that user mode may not reach, and
the other privileged instructions in user mode (02 R40, R41; 14 R344, R345; 15 R372). -/
def forbidden (user : Bool) : Instr → Bool
  | .sysr _ n => !sysAssigned n.toNat || (user && !sysUser n.toNat)
  | .sysw _ n => !sysAssigned n.toNat || user
  | .tret _ | .shoot _ _ _ => user
  | _ => false

/-- The scalar names that an instruction reads, in field order. The data operand of a store stands last (10 R232). -/
def sources : Instr → List (BitVec 8)
  | .add _ a b => [a, b]
  | .sub _ a b => [a, b]
  | .addi _ a _ => [a]
  | .mul _ a b => [a, b]
  | .mulh _ a b => [a, b]
  | .mulhu _ a b => [a, b]
  | .div _ a b => [a, b]
  | .divu _ a b => [a, b]
  | .rem _ a b => [a, b]
  | .remu _ a b => [a, b]
  | .and _ a b => [a, b]
  | .or _ a b => [a, b]
  | .xor _ a b => [a, b]
  | .andi _ a _ => [a]
  | .ori _ a _ => [a]
  | .xori _ a _ => [a]
  | .shl _ a b => [a, b]
  | .shr _ a b => [a, b]
  | .sar _ a b => [a, b]
  | .shli _ a _ => [a]
  | .shri _ a _ => [a]
  | .sari _ a _ => [a]
  | .slt _ a b => [a, b]
  | .sltu _ a b => [a, b]
  | .seq _ a b => [a, b]
  | .slti _ a _ => [a]
  | .sel _ a b => [a, b]
  | .min _ a b => [a, b]
  | .max _ a b => [a, b]
  | .minu _ a b => [a, b]
  | .maxu _ a b => [a, b]
  | .clz _ a => [a]
  | .popc _ a => [a]
  | .hash64 _ a b => [a, b]
  | .cvtu _ a => [a]
  | .bz a _ => [a]
  | .bnz a _ => [a]
  | .bltz a _ => [a]
  | .bgez a _ => [a]
  | .bgtz a _ => [a]
  | .blez a _ => [a]
  | .jmpr _ a => [a]
  | .sext _ a _ => [a]
  | .fadd _ a b => [a, b]
  | .fsub _ a b => [a, b]
  | .fmul _ a b => [a, b]
  | .ffma d a b => [a, b, d]
  | .fdiv _ a b => [a, b]
  | .fsqrt _ a => [a]
  | .fmin _ a b => [a, b]
  | .fmax _ a b => [a, b]
  | .flg2 _ a => [a]
  | .fex2 _ a => [a]
  | .feq _ a b => [a, b]
  | .flt _ a b => [a, b]
  | .fle _ a b => [a, b]
  | .fcvt _ a _ => [a]
  | .fclass _ a => [a]
  | .fsgnj _ a b => [a, b]
  | .frint _ a => [a]
  | .ffms d a b => [a, b, d]
  | .vsel _ _ b => [b]
  | .vbcast _ a => [a]
  | .vargmax _ _ b => [b]
  | .vhash _ a b => [a, b]
  | .vld _ a _ => [a]
  | .vst _ a _ => [a]
  | .vldn _ a b => [a, b]
  | .ldb _ a _ => [a]
  | .ldbu _ a _ => [a]
  | .ldh _ a _ => [a]
  | .ldhu _ a _ => [a]
  | .lds _ a _ => [a]
  | .ldsu _ a _ => [a]
  | .ldw _ a _ => [a]
  | .stb d a _ => [a, d]
  | .sth d a _ => [a, d]
  | .sts d a _ => [a, d]
  | .stw d a _ => [a, d]
  | .ldro _ a _ => [a]
  | .lde _ a _ => [a]
  | .stf d a _ => [a, d]
  | .aadd _ a b => [a, b]
  | .aswp _ a b => [a, b]
  | .acas _ a b => [a, b]
  | .amin _ a b => [a, b]
  | .amax _ a b => [a, b]
  | .hold _ a => [a]
  | .unhold _ a => [a]
  | .flushp _ a b => [a, b]
  | .invp _ a b => [a, b]
  | .discard _ a b => [a, b]
  | .pref a _ => [a]
  | .tsprobe _ a => [a]
  | .ldex _ a _ => [a]
  | .bset _ a b => [a, b]
  | .bcomp _ a b => [a, b]
  | .binfo _ a => [a]
  | .spawn _ a _ => [a]
  | .post _ a _ => [a]
  | .launch _ a => [a]
  | .lwait _ a => [a]
  | .cancel _ a => [a]
  | .epbind _ a => [a]
  | .migr _ a => [a]
  | .jwait _ a => [a]
  | .jpoll _ a => [a]
  | .sysw d _ => [d]
  | .tret a => [a]
  | .shoot _ a b => [a, b]
  | _ => []

/-- The scalar names that an instruction writes. -/
def dests : Instr → List (BitVec 8)
  | .add d _ _ => [d]
  | .sub d _ _ => [d]
  | .addi d _ _ => [d]
  | .mul d _ _ => [d]
  | .mulh d _ _ => [d]
  | .mulhu d _ _ => [d]
  | .div d _ _ => [d]
  | .divu d _ _ => [d]
  | .rem d _ _ => [d]
  | .remu d _ _ => [d]
  | .and d _ _ => [d]
  | .or d _ _ => [d]
  | .xor d _ _ => [d]
  | .andi d _ _ => [d]
  | .ori d _ _ => [d]
  | .xori d _ _ => [d]
  | .shl d _ _ => [d]
  | .shr d _ _ => [d]
  | .sar d _ _ => [d]
  | .shli d _ _ => [d]
  | .shri d _ _ => [d]
  | .sari d _ _ => [d]
  | .slt d _ _ => [d]
  | .sltu d _ _ => [d]
  | .seq d _ _ => [d]
  | .slti d _ _ => [d]
  | .sel d _ _ => [d]
  | .min d _ _ => [d]
  | .max d _ _ => [d]
  | .minu d _ _ => [d]
  | .maxu d _ _ => [d]
  | .clz d _ => [d]
  | .popc d _ => [d]
  | .hash64 d _ _ => [d]
  | .cvtu d _ => [d]
  | .ldi d _ => [d]
  | .addpc d _ => [d]
  | .jmpr d _ => [d]
  | .sext d _ _ => [d]
  | .fadd d _ _ => [d]
  | .fsub d _ _ => [d]
  | .fmul d _ _ => [d]
  | .ffma d _ _ => [d]
  | .fdiv d _ _ => [d]
  | .fsqrt d _ => [d]
  | .fmin d _ _ => [d]
  | .fmax d _ _ => [d]
  | .flg2 d _ => [d]
  | .fex2 d _ => [d]
  | .feq d _ _ => [d]
  | .flt d _ _ => [d]
  | .fle d _ _ => [d]
  | .fcvt d _ _ => [d]
  | .fclass d _ => [d]
  | .fsgnj d _ _ => [d]
  | .frint d _ => [d]
  | .ffms d _ _ => [d]
  | .vcmp d _ _ => [d]
  | .vsum d _ => [d]
  | .vmaxr d _ => [d]
  | .ldb d _ _ => [d]
  | .ldbu d _ _ => [d]
  | .ldh d _ _ => [d]
  | .ldhu d _ _ => [d]
  | .lds d _ _ => [d]
  | .ldsu d _ _ => [d]
  | .ldw d _ _ => [d]
  | .ldro d _ _ => [d]
  | .lde d _ _ => [d]
  | .aadd d _ _ => [d]
  | .aswp d _ _ => [d]
  | .acas d _ _ => [d]
  | .amin d _ _ => [d]
  | .amax d _ _ => [d]
  | .hold d _ => [d]
  | .unhold d _ => [d]
  | .flushp d _ _ => [d]
  | .invp d _ _ => [d]
  | .discard d _ _ => [d]
  | .tsprobe d _ => [d]
  | .ldex d _ _ => [d]
  | .bset d _ _ => [d]
  | .bcomp d _ _ => [d]
  | .binfo d _ => [d]
  | .rcpq d _ => [d]
  | .spawn d _ _ => [d]
  | .waitw d _ => [d]
  | .post d _ _ => [d]
  | .launch d _ => [d]
  | .lwait d _ => [d]
  | .cancel d _ => [d]
  | .barrier d => [d]
  | .epbind d _ => [d]
  | .migr d _ => [d]
  | .mm d _ => [d]
  | .mms d _ => [d]
  | .cpy d _ => [d]
  | .coll d _ => [d]
  | .jwait d _ => [d]
  | .jpoll d _ => [d]
  | .sysr d _ => [d]
  | .shoot d _ _ => [d]
  | _ => []

/-- The vector groups that an instruction names (02 R28). -/
def groups : Instr → List (BitVec 8)
  | .vadd d a b => [d, a, b]
  | .vsub d a b => [d, a, b]
  | .vmul d a b => [d, a, b]
  | .vfma d a b => [d, a, b]
  | .vmin d a b => [d, a, b]
  | .vmax d a b => [d, a, b]
  | .viadd d a b => [d, a, b]
  | .vimul d a b => [d, a, b]
  | .vand d a b => [d, a, b]
  | .vor d a b => [d, a, b]
  | .vxor d a b => [d, a, b]
  | .vshf d a b => [d, a, b]
  | .vlg2 d a => [d, a]
  | .vex2 d a => [d, a]
  | .vcvt d a _ => [d, a]
  | .vcmp _ a b => [a, b]
  | .vsel d a _ => [d, a]
  | .vbcast d _ => [d]
  | .vsum _ a => [a]
  | .vmaxr _ a => [a]
  | .vargmax _ a _ => [a]
  | .vhash d _ _ => [d]
  | .vld d _ _ => [d]
  | .vst d _ _ => [d]
  | .vldn d _ _ => [d]
  | .spawn _ _ n => [n]
  | .post _ _ n => [n]
  | .mm _ n => [n]
  | .mms _ n => [n]
  | .cpy _ n => [n]
  | .coll _ n => [n]
  | _ => []

end Sys2Proof.Machine
end

