-- ==== Sys2Proof/Machine/Operands.lean ====
section
/-! DEFINITION. Register names (02 R27 to R32, R52, R53): resident names, vector groups, formula names and their replay
(07 R165 to R168), special names; the pairs' comparator (15 R380, R381); and how an instruction's unit is judged, run
and completed (02 R33, R34, R55; 04 R87, R101). -/

namespace Sys2Proof.Machine

/-- A soft error of a register-class entry is met (15 R361): a failed parity is uncorrectable, and flips that the parity does not see
stay in the entry until it is written. Returns the value and whether the entry is poisoned. -/
def checkReg (loc : Loc) (r : Reg) : M Reg := do return (← getS).met loc r

/-- A write of a whole entry sets its parity (15 R361). -/
def clearErr (loc : Loc) : M Unit := modS (fun s => { s with errs := s.errs.filter (fun x => x.1 != loc) })

/-- The value of a register-class entry; a poisoned one kills the thread (15 R364, R368). -/
def useReg (name : Nat) (r : Reg) : M Word :=
  if r.poison then abort (.kill 26 (word (2 ^ 63 + name))) else pure r.val

/-- Reads a resident name (02 R52). -/
def readResident (n : Nat) : M Word := do
  let x ← me
  let c ← myCore
  let r := findD ((← getS).core c).rf {} (x.wbase + n)
  useReg n (← checkReg (.reg c (x.wbase + n)) r)

/-- The resident names among the sources of a recipe's body (07 R168). -/
def recipeOperands (win : Nat) (r : Recipe) : List Nat :=
  r.body.flatMap (fun st => match decodeWord st.iw with
    | .ok i => ((sources i).map (·.toNat)).filter (· < win)
    | .error _ => [])

/-- A thread after a write of a resident name: the recipes that name it are stale (07 R168). -/
def Thread.stales (x : Thread) (n : Nat) : Thread :=
  { x with recipes := x.recipes.map (fun p =>
      if (recipeOperands x.win p.2).contains n then (p.1, { p.2 with stale := true }) else p) }

/-- Writes a resident name and marks the recipes that name it stale (02 R53; 07 R168). -/
def writeResident (n : Nat) (v : Word) : M Unit := do
  let x ← me
  let c ← myCore
  clearErr (.reg c (x.wbase + n))
  modCore c (fun k => { k with rf := put k.rf (x.wbase + n) { val := v } })
  modMe (·.stales n)

/-- ORs flags into the thread's tstat (03 R70). -/
def raiseFlags (fl : Flags) : M Unit := if fl = 0 then pure () else modMySlot (fun sl => { sl with tstat := orFlags sl.tstat fl })

/-- A thread of a pair waits at an effect for the comparator; `names`: the words of its unit's names, if it is to go on with them
(02 R54). -/
def meetAt (e : Effect) (names : Option (List Word)) : M Unit := do
  match names with
  | some ws => parkBegun (.effect e) ws
  | none => abort (.match_ e (← me).resume.entered)

/-- The comparator of a pair lets an effect through once both threads have made it (15 R381). It answers whether this
thread is the one that performs it. The leading thread's earlier effects leave before it. -/
def agree (e : Effect) (names : Option (List Word) := none) : M Bool := do
  let x ← me
  match x.role with
  | .single => return true
  | .leading =>
    if x.released = some e then return true
    else if 16 ≤ x.effects.length then park .pairValue
    else do
      meetAt e names
      return true
  | .trailing =>
    if x.released = some e then return false
    else do
      meetAt e names
      return false

/-- Writes the forward cell of a slot (02 R29; 12 R287). -/
def fillCell (tid : Nat) (v : Word) : M Unit := do
  clearErr (.cell (coreOf tid) (slotOf tid))
  modCore (coreOf tid) (fun k => { k with
    full := k.full ++ [slotOf tid]
    cells := put k.cells (slotOf tid) { val := v } })

/-- The oldest effect of a leading thread's release buffer leaves (15 R381): its `n` stores go on in the store buffer, or its forward
cell is written. -/
def releaseEffect (tid n : Nat) (e : Effect) : M Unit := do
  match (← getS).thread tid with
  | none => pure ()
  | some x => do
    let ids := (((← getS).pendingStores (coreOf tid) x.uid).filter (·.waits)).take n |>.map (·.id)
    modThread tid (fun x => { x with effects := x.effects.drop 1 })
    modCore (coreOf tid) (fun c => { c with buffer := c.buffer.map (fun b => if ids.contains b.id then { b with waits := false } else b) })
    if e.kind = 11 then fillCell tid (e.data.headD 0) else pure ()

/-- An effect of a pair that the leading thread does not wait for (15 R381): it joins the release buffer, and the trailing thread's
same effect lets it out. `act` makes it, and answers how many stores it placed; a leading thread's are held in the store buffer. A
mismatch kills with the address that the leading thread's effect has (notes/assumptions/17.md). -/
def defer (e : Effect) (act : M Nat) (names : Option (List Word) := none) : M Unit := do
  let x ← me
  match x.role with
  | .single => do let _ ← act
  | .leading =>
    if 16 ≤ x.effects.length then park .pairValue
    else do
      let n ← act
      modMe (fun x => { x with effects := x.effects ++ [(e, n)] })
  | .trailing => do
    let s ← getS
    match (s.partner s.cur).bind (·.effects.head?) with
    | none => meetAt e names
    | some (e', n) => if e' = e then releaseEffect (partnerOf s.cur) n e else abort (.kill 27 e'.addr)

/-- A unit that could not go on at the end of the space makes no request (04 R101). -/
def checkNext : M Unit := do
  let x ← me
  if 2 ^ 55 ≤ x.pc.toNat + 4 then trap 1 (word (2 ^ 55)) else pure ()

/-- Both threads of a pair meet the end of the space before an access (04 R101; 15 R382). Kinds 0 and 2 to 4 are values that a read
name gives, and no access. -/
def checkAccess (kind : Nat) : M Unit := if kind = 1 || 5 ≤ kind then checkNext else pure ()

/-- The thread's unit has taken a value that enters the pair; a unit that goes on later has it recorded. -/
def record (p : PairValue) : M Unit :=
  modMe (fun x => { x with resume := { x.resume with
    entered := x.resume.entered ++ [p]
    used := x.resume.used + 1 } })

/-- A value that enters a pair from outside: the leading thread performs the access and records it, the trailing thread
takes it from the queue (15 R380). A unit that goes on after it waited for the comparator, or for what it asked for, uses what it
recorded before. -/
def enter (kind : Nat) (addr : Word) (act : M (Word × List Word)) : M (Word × List Word) := do
  let x ← me
  match x.role with
  | .single => act
  | _ => do
    checkAccess kind
    match x.resume.entered[x.resume.used]? with
    | some p => do
      modMe (fun x => { x with
        bst := p.bst
        resume := { x.resume with used := x.resume.used + 1 } })
      return (p.value, p.values)
    | none =>
      if x.role = .leading then
        if 16 ≤ x.values.length then park .pairValue
        else do
          let (v, vs) ← act
          let p : PairValue := { kind := kind, addr := addr, value := v, values := vs, bst := (← me).bst, poison := false }
          modMe (fun x => { x with values := x.values ++ [p] })
          record p
          return (v, vs)
      else do
        let s ← getS
        match (s.partner s.cur).bind (·.values.head?) with
        | none => park .pairValue
        | some p =>
          if p.kind = kind && p.addr = addr then do
            modThread (partnerOf s.cur) (fun y => { y with values := y.values.drop 1 })
            modMe (fun x => { x with bst := p.bst })
            record p
            return (p.value, p.values)
          else abort (.kill 27 0)

/-- A word that enters a pair. -/
def enterWord (kind : Nat) (addr : Word) (act : M Word) : M Word := do
  let (v, _) ← enter kind addr (do return (← act, []))
  return v

/-- An outward effect whose result comes back into the pair. `names`: the words of the unit's names, read once (02 R54). -/
def outward (e : Effect) (act : M (Word × List Word)) (names : Option (List Word) := none) : M (Word × List Word) := do
  let _ ← agree e names
  enter e.kind e.addr act

/-- A fault of a replay step (07 R167). -/
def replayFault {α : Type} (name step cause : Nat) (v : Word) : M α :=
  trapWith { cause := cause, value := v, replay := some (name, step) }

/-- The load step of a replay (07 R165): an ordinary load, from an RSHR page. The line stays with the unit until it ends. -/
def replayLoad (name step size : Nat) (signed : Bool) (ea : Word) : M Word := do
  if outside ea then replayFault name step 5 ea
  else if ea.toNat % size != 0 then replayFault name step 4 ea
  else if inAperture ea then replayFault name step 5 ea
  else do
    let p ← tryCatch (translate ea 0) (fun e => match e with
      | .trap t => abort (.trap { t with replay := some (name, step) })
      | .park (.walk va kind _) => abort (.park (.walk va kind (some (name, step))))
      | e => abort e)
    if p.attr = .rshr then
      enterWord 0 ea (do
        let off := p.pa % 32
        let d ← lineOf (pure ()) (pure ()) ea p (maskOf off size) 0 true true
        modMe (fun x => if (x.arrived (p.pa / 32) .rshr).isSome then x
          else { x with resume := { x.resume with served := x.resume.served ++ [served (p.pa / 32) .rshr d false] } })
        return extendBytes size signed (fromByte d off))
    else replayFault name step 5 ea

/-- A replay step has been made; the unit's next one waits for the thread's next turn (07 R165, R166; 12 R285). -/
def takeTurn : M Unit := do
  modMe (fun x => { x with resume := { x.resume with ran := x.resume.ran + 1 } })
  let x ← me
  if x.resume.turns < x.resume.ran then abort (.turn x.resume.served) else pure ()

/-- The result of a body instruction that is no load, from its operands (07 R163): the value and the flags. `C` is the
running value. -/
def bodyResult (i : Instr) (mode : Nat) (imm : Nat → Nat → Word) (rd : BitVec 8 → M Word) (run : Word) : M (Word × Flags) := do
  let two := fun (a b : BitVec 8) (f : Word → Word → Word) => do
    let x ← rd a
    let y ← rd b
    return (f x y, (0 : Flags))
  let one := fun (a : BitVec 8) (f : Word → Word) => do return (f (← rd a), (0 : Flags))
  let fl := fun (a b : BitVec 8) (f : Nat → Nat → Nat × Flags) => do
    let x ← rd a
    let y ← rd b
    let (v, g) := f (x.toNat % 2 ^ 32) (y.toNat % 2 ^ 32)
    return (word v, g)
  match i with
  | .add _ a b => two a b (· + ·)
  | .sub _ a b => two a b (· - ·)
  | .addi _ a m => one a (· + imm 8 m.toNat)
  | .mul _ a b => two a b (· * ·)
  | .mulh _ a b => two a b mulh
  | .mulhu _ a b => two a b mulhu
  | .and _ a b => two a b (· &&& ·)
  | .or _ a b => two a b (· ||| ·)
  | .xor _ a b => two a b (· ^^^ ·)
  | .andi _ a m => one a (· &&& imm 8 m.toNat)
  | .ori _ a m => one a (· ||| imm 8 m.toNat)
  | .xori _ a m => one a (· ^^^ imm 8 m.toNat)
  | .shl _ a b => two a b (fun x y => x <<< (y.toNat % 64))
  | .shr _ a b => two a b (fun x y => x >>> (y.toNat % 64))
  | .sar _ a b => two a b (fun x y => x.sshiftRight (y.toNat % 64))
  | .shli _ a m => one a (· <<< m.toNat)
  | .shri _ a m => one a (· >>> m.toNat)
  | .sari _ a m => one a (·.sshiftRight m.toNat)
  | .slt _ a b => two a b (fun x y => truth (ltS x y))
  | .sltu _ a b => two a b (fun x y => truth (ltU x y))
  | .seq _ a b => two a b (fun x y => truth (x = y))
  | .slti _ a m => one a (fun x => truth (ltS x (imm 8 m.toNat)))
  | .min _ a b => two a b minS
  | .max _ a b => two a b maxS
  | .minu _ a b => two a b minU
  | .maxu _ a b => two a b maxU
  | .clz _ a => one a clz
  | .popc _ a => one a popc
  | .hash64 _ a b => two a b hash64
  | .cvtu _ a => one a cvtu
  | .ldi _ m => return (imm 16 m.toNat, 0)
  | .sext _ a m => one a (fun x => sext x m.toNat)
  | .fadd _ a b => fl a b (Fmt.fp32.add mode)
  | .fsub _ a b => fl a b (Fmt.fp32.sub mode)
  | .fmul _ a b => fl a b (Fmt.fp32.mul mode)
  | .ffma _ a b => fl a b (fun x y => Fmt.fp32.fma mode x y (run.toNat % 2 ^ 32))
  | .ffms _ a b => fl a b (fun x y => Fmt.fp32.fma mode x y (run.toNat % 2 ^ 32) true)
  | .fcvt _ a m => do return fcvt mode (m.toNat / 16) (m.toNat % 16) (← rd a)
  | _ => return (run, 0)

/-- The size and extension of a scalar load, with its base and immediate field (10 R233). -/
def loadShape : Instr → Option (Nat × Bool × BitVec 8 × BitVec 8)
  | .ldb _ a m => some (1, true, a, m)
  | .ldbu _ a m => some (1, false, a, m)
  | .ldh _ a m => some (2, true, a, m)
  | .ldhu _ a m => some (2, false, a, m)
  | .lds _ a m => some (4, true, a, m)
  | .ldsu _ a m => some (4, false, a, m)
  | .ldw _ a m => some (8, false, a, m)
  | .ldro _ a m => some (8, false, a, m)
  | _ => none

/-- The steps of a replay from the k-th on (07 R165). A word of an altered record (07 R173; 15 R376) that is no instruction of 07 R163
leaves the running value as it is, and any other name among its sources reads as 0 (DESIGN CHOICE, notes/assumptions/62.md). -/
def replaySteps (name : Nat) (rm : BitVec 3) : Nat → List RecipeStep → Word → Flags → M (Word × Flags)
  | _, [], run, fl => return (run, fl)
  | k, st :: rest, run, fl => do
    if st.poison then abort (.kill 26 (word (2 ^ 62 + name)))
    else match decodeWord st.iw with
      | .error _ => do
        takeTurn
        replaySteps name rm (k + 1) rest run fl
      | .ok i => do
        let x ← me
        let l : Latch := if st.px then { imm := st.hi.setWidth 48, nimm := 1 } else {}
        let rd := fun (n : BitVec 8) =>
          if n.toNat = name then pure run
          else if n.toNat < x.win then readResident n.toNat
          else if n = 247#8 then pure (word x.home)
          else pure 0
        match loadShape i with
        | some (size, signed, a, m) => do
          let base ← rd a
          let v ← replayLoad name k size signed (base + word size * assembled l 8 m.toNat)
          takeTurn
          replaySteps name rm (k + 1) rest v fl
        | none => do
          let (v, g) ← bodyResult i (min rm.toNat 4) (assembled l) rd run
          takeTurn
          replaySteps name rm (k + 1) rest v (fl ||| g)

/-- Reads a formula name: its replay (02 R52; 07 R165, R168). -/
def readFormula (w : IWord) (n : Nat) : M Word := do
  let x ← me
  match find x.recipes n with
  | none => illegal w
  | some r =>
    if r.stale then trap 24 (word n)
    else do
      let body := (← getS).metSteps (← myTid) n r.body
      let (v, fl) ← replaySteps n r.rm 0 body 0 0
      raiseFlags fl
      return v

/-- The soft errors of a queue once its head is gone: those of the entries behind it move up. `index` reads an entry's
number out of a location, `move` gives the location of a number. -/
def dropHeadErr (index : Loc → Option Nat) (move : Nat → Loc) : M Unit :=
  modS (fun s => { s with errs := s.errs.filterMap (fun e => match index e.1 with
    | none => some e
    | some 0 => none
    | some (n + 1) => some (move n, e.2)) })

/-- The head of the load-data queue leaves. -/
def popLdqErr (tid : Nat) : M Unit :=
  dropHeadErr (fun l => match l with | .ldq t n => if t = tid then some n else none | _ => none) (.ldq tid)

/-- The head of the store-data queue leaves. -/
def popSdqErr (tid : Nat) : M Unit :=
  dropHeadErr (fun l => match l with | .sdq t n => if t = tid then some n else none | _ => none) (.sdq tid)

/-- Whether the thread's context owns the core-shared registers (02 R30). -/
def State.ownsShared (s : State) (core ctx : Nat) : Bool := s.assigned (64 * core) = some ctx

/-- Whether the cell between a slot and its successor is usable (12 R287). -/
def State.cellUsable (s : State) (core slot : Nat) : Bool :=
  let a := s.slot (64 * core + slot)
  let b := s.slot (64 * core + (slot + 1) % 64)
  a.state != .free && a.state != .away && b.state != .free && b.state != .away && a.owner = b.owner

/-- The earlier values of a core-shared register that an instruction of a slot may still read (02 R30): those that a write of another
slot replaced fewer than 8 cycles before its issue, as far back as all later writes are such. -/
def Core.oldShared (c : Core) (n slot : Nat) : List Word :=
  ((findD c.shOld [] n).takeWhile (fun p => p.2.1 != slot && decide (findD c.issuedAt 0 slot < p.2.2 + 8))).map (·.1)

/-- Whether the forward cell that a thread writes is empty, with no write of it waiting for the comparator; a trailing thread writes
none (02 R29; 15 R381). -/
def State.cellFree (s : State) (tid : Nat) (x : Thread) : Bool :=
  x.role = .trailing || (!(s.core (coreOf tid)).full.contains (slotOf tid) && !x.effects.any (fun e => e.1.kind = 11))

/-- Whether what a pair shares, of a kind that its leading thread answers for, is there: `own` of any other thread; a trailing thread
finds it as its leading thread did, which has trapped at the same unit where it is not (15 R380, R382). -/
def State.pairFinds (s : State) (x : Thread) (own : Bool) : Bool :=
  if x.role != .trailing then own
  else match s.partner s.cur with
    | some y => !(y.first = x.first && y.values.isEmpty && y.effects.isEmpty && match y.park with
      | some (.pairTrap 2 _) => true
      | _ => false)
    | none => true

/-- Reads a special name (02 R29 to R31). A value of the load-data queue enters a pair as it is popped, that of a bank operation with
the reply (15 R380; notes/assumptions/16.md). One datum of the issue picks the old or new value of every core-shared register that the
instruction reads (DESIGN CHOICE, notes/assumptions/64.md). -/
def readSpecial (w : IWord) (n : Nat) : M Word := do
  let x ← me
  let s ← getS
  let c := coreOf s.cur
  let slot := slotOf s.cur
  if n < 246 then
    if s.pairFinds x (s.ownsShared c x.ctx) then
      enterWord 2 (word n) (do
        let v ← useReg n (← checkReg (.sh c (n - 240)) (findD (s.core c).sh {} (n - 240)))
        let values := v :: (s.core c).oldShared (n - 240) slot
        return values.getD (s.pick % values.length) v)
    else illegal w
  else if n = 247 then return word x.home
  else if n = 248 then return x.bst.setWidth 64
  else if n = 249 then
    if s.pairFinds x (s.cellUsable c ((slot + 63) % 64)) then
      enterWord 3 249 (do
        let k := (slot + 63) % 64
        parkUntil ((s.core c).full.contains k) .fwi
        let v ← useReg n (← checkReg (.cell c k) (findD (s.core c).cells {} k))
        popCell s.cur
        return v)
    else illegal w
  else if n = 252 then
    enterWord 4 252 (do
      let sl := s.slot x.home
      match sl.inbox with
      | [] => park .rcv
      | m :: _ => do
        popWord x.home
        return m.words.headD 0)
  else if n = 253 then
    match x.ldq with
    | [] => illegal w
    | e :: es =>
      match e.val with
      | none => park .ldq
      | some v => do
        let r ← checkReg (.ldq s.cur 0) { val := v }
        if e.poison then abort (.kill 26 (if e.swept then word (2 ^ 63 + n) else e.ea))
        else do
          let v ← useReg n r
          popLdqErr s.cur
          modMe (fun x => { x with ldq := es })
          if inAperture e.ea then return v else enterWord 0 e.ea (return v)
  else if n = 254 then enterWord 2 254 (do return (s.pts c).setWidth 64)
  else if n = 255 then return 0
  else illegal w

/-- `read_name` (02 R52). -/
def readName (w : IWord) (n : BitVec 8) : M Word := do
  let x ← me
  if n.toNat < x.win then readResident n.toNat
  else if n.toNat < 240 then readFormula w n.toNat
  else readSpecial w n.toNat

/-- Reads the data operand of a store, which may be sdq (02 R29). -/
def readData (w : IWord) (n : BitVec 8) : M Word := do
  if n = 246#8 then do
    let x ← me
    match x.sdq with
    | [] => illegal w
    | (v, p) :: rest => do
      let v ← useReg 246 (← checkReg (.sdq (← myTid) 0) { val := v, poison := p })
      popSdqErr (← myTid)
      modMe (fun x => { x with sdq := rest })
      return v
  else readName w n

/-- The soft errors of the head of a queue, and the head, leave as a unit that has read it completes. Of a pair, a cell's word and a
message's word have gone as they entered it. -/
def dropHead (n : BitVec 8) : M Unit := do
  let x ← me
  let tid ← myTid
  if n = 246#8 then do
    popSdqErr tid
    modMe (fun x => { x with sdq := x.sdq.drop 1 })
  else if n = 249#8 then (if x.role = .single then popCell tid else pure ())
  else if n = 252#8 then (if x.role = .single then popWord x.home else pure ())
  else if n = 253#8 then do
    popLdqErr tid
    modMe (fun x => { x with ldq := x.ldq.drop 1 })
  else pure ()

/-- The word that the k-th name of a unit had when the unit made its request, or its effect met its pair's comparator, if it has
(02 R54, R55; 15 R381). -/
def Thread.begunWord (x : Thread) (k : Nat) : Option Word := x.resume.operands.bind (·[k]?)

/-- Reads the k-th name of a unit once (02 R54): the word that it had when the unit made its request, where it has; its pop takes effect
as the unit completes (04 R87). -/
def readOnce (k : Nat) (w : IWord) (n : BitVec 8) : M Word := do
  match (← me).begunWord k with
  | some v => do
    dropHead n
    return v
  | none => readName w n

/-- Reads a resident name once, as the k-th name of a unit. -/
def readResidentOnce (k n : Nat) : M Word := do
  match (← me).begunWord k with
  | some v => return v
  | none => readResident n

/-- Reads the data operand of a store once. -/
def readDataOnce (k : Nat) (w : IWord) (n : BitVec 8) : M Word := do
  match (← me).begunWord k with
  | some v => do
    dropHead n
    return v
  | none => readData w n

/-- The length that a compose buffer's header asks for (12 R308). -/
def messageLength (ws : List (Word × Bool)) : Nat := match ws with | [] => 0 | h :: _ => bits h.1 61 57

/-- Whether a word is no header of a message (13 R333). -/
def headerless (v : Word) : Bool := bits v 63 62 != 0 || bits v 47 24 != 0 || bits v 61 57 = 0

/-- A write of snd (13 R333): a header is checked; the last word waits for the older stores, and the message of a pair, with the words
as they are met, for the comparator (15 R381). -/
def writeSnd (w : IWord) (v : Word) : M Unit := do
  let s ← getS
  let sl ← mySlot
  if sl.compose.isEmpty && headerless v then illegal w
  else do
    let ws := sl.compose ++ [(v, false)]
    if messageLength ws = ws.length then do
      waitOlder
      let met := (sl.compose.mapIdx (fun k e => (s.met (.compose s.cur k) { val := e.1 }).val)) ++ [v]
      defer { kind := 10, addr := 0, size := ws.length, data := met } (pure 0)
    else pure ()
    clearErr (.compose s.cur sl.compose.length)
    modMySlot (fun sl => { sl with compose := ws })

/-- Whether a destination asks for the header of a message (13 R333). -/
def asksHeader (d : BitVec 8) : M Bool := do return d = 251#8 && (← mySlot).compose.isEmpty

/-- A destination that is there no more when a unit that has made its request completes takes nothing (DESIGN CHOICE,
notes/assumptions/65.md); else it is illegal. -/
def lostDest (w : IWord) : M Unit := do
  if (← me).resume.operands.isSome then pure () else illegal w

/-- Writes a special name (02 R29, R30). -/
def writeSpecial (w : IWord) (n : Nat) (v : Word) : M Unit := do
  let x ← me
  let s ← getS
  let c := coreOf s.cur
  let slot := slotOf s.cur
  if n < 246 then
    if s.ownsShared c x.ctx then
      if x.role = .trailing then pure ()
      else do
        let old := s.met (.sh c (n - 240)) (findD (s.core c).sh {} (n - 240))
        clearErr (.sh c (n - 240))
        modCore c (fun k =>
          let now := findD k.issuedAt 0 slot
          { k with
            shOld := put k.shOld (n - 240) ((old.val, slot, now) ::
              (findD k.shOld [] (n - 240)).filter (fun p => decide (now < p.2.2 + 8)))
            sh := put k.sh (n - 240) { val := v } })
    else lostDest w
  else if n = 246 then
    if x.sdq.length < 8 then modMe (fun x => { x with sdq := x.sdq ++ [(v, false)] }) else illegal w
  else if n = 247 || n = 254 || n = 255 then pure ()
  else if n = 248 then modMe (fun x => { x with bst := v.setWidth 3 })
  else if n = 250 then
    if s.pairFinds x (s.cellUsable c slot) then do
      parkUntil (s.cellFree s.cur x) .fwo
      defer { kind := 11, addr := 0, size := 8, data := [v] } (do
        if x.role = .single then fillCell s.cur v else pure ()
        return 0)
    else lostDest w
  else if n = 251 then writeSnd w v
  else illegal w

/-- `write_name` (02 R53). -/
def writeName (w : IWord) (n : BitVec 8) (v : Word) : M Unit := do
  let x ← me
  if n.toNat < x.win then writeResident n.toNat v
  else if n.toNat < 240 then illegal w
  else writeSpecial w n.toNat v

/-- Checks a vector group against the window (02 R28). -/
def checkGroup (w : IWord) (n : BitVec 8) : M Unit := do
  let x ← me
  if n.toNat + 7 < x.win then pure () else illegal w

/-- Reads `k` resident names from `n` on. -/
def readResidents (n : Nat) : Nat → M (List Word)
  | 0 => return []
  | k + 1 => do
    let v ← readResident n
    return v :: (← readResidents (n + 1) k)

/-- Writes resident names from `n` on. -/
def writeResidents (n : Nat) : List Word → M Unit
  | [] => pure ()
  | v :: vs => do writeResident n v; writeResidents (n + 1) vs

/-- Reads a vector group's words (02 R28). -/
def readGroup (w : IWord) (n : BitVec 8) : M (List Word) := do checkGroup w n; readResidents n.toNat 8

/-- Reads a vector group's words once, as the names from the k-th of the unit on (02 R28, R54). -/
def readGroupOnce (k : Nat) (w : IWord) (n : BitVec 8) : M (List Word) := do
  match (← me).begunWord k with
  | some _ => return ((← me).resume.operands.getD []).drop k
  | none => readGroup w n

/-- Writes a vector group's words (02 R28). -/
def writeGroup (w : IWord) (n : BitVec 8) (vs : List Word) : M Unit := do checkGroup w n; writeResidents n.toNat vs

/-- A name that a guest thread must be at home to use (12 R304). -/
def needsHome (n : BitVec 8) : Bool := (decide (240 ≤ n.toNat) && decide (n.toNat < 246)) || n = 249#8 || n = 250#8 || n = 251#8 || n = 252#8

/-- An instruction of opcodes 0xC0 to 0xC9 (12 R304; 13 R317). -/
def needsSideboard : Instr → Bool
  | .spawn _ _ _ | .exit | .waitw _ _ | .post _ _ _ | .yield | .launch _ _ | .lwait _ _ | .cancel _ _ | .barrier _ | .epbind _ _ => true
  | _ => false

/-- Whether an instruction writes its destination only after its target has been checked (04 R104). -/
def checksTarget : Instr → Bool
  | .jmpr _ _ => true
  | _ => false

/-- What an instruction's names ask before anything waits (02 R28 to R31, R40; 04 R87; 10 R234; 12 R287, R304): a system instruction
that is forbidden is illegal; a guest goes home for its names; the rest is illegal at once. An instruction whose destination is a full fwo
then waits before it reads anything (04 R87). That a destination in W-239 is judged before any source is read, but for JMPR, is
DESIGN CHOICE (notes/assumptions/62.md). A unit that has made its request is judged no more. -/
def judgeNames (w : IWord) (i : Instr) : M Unit := do
  let x ← me
  let s ← getS
  let src := sources i
  let dst := dests i
  let c := coreOf s.cur
  let slot := slotOf s.cur
  if x.resume.operands.isSome then raiseFlags x.resume.flags
  else if forbidden (!prv (s.slot s.cur).tstat) i then illegal w
  else if (s.slot s.cur).state = .guest && (needsSideboard i || (src ++ dst).any needsHome) then
    if s.olderDone c x then abort (.migrate 0 true) else park .stores
  else
    let pops := src.count 253#8
    let bad :=
      src.any (fun n => decide (240 ≤ n.toNat) && decide (n.toNat < 246) && !s.pairFinds x (s.ownsShared c x.ctx)) ||
      dst.any (fun n => decide (240 ≤ n.toNat) && decide (n.toNat < 246) && !s.ownsShared c x.ctx) ||
      decide (x.ldq.length < pops) || decide (2 ≤ src.count 249#8) || decide (2 ≤ src.count 252#8) ||
      (src.contains 249#8 && !s.pairFinds x (s.cellUsable c ((slot + 63) % 64))) ||
      (dst.contains 250#8 && !s.pairFinds x (s.cellUsable c slot)) ||
      (src.contains 246#8 && x.sdq.isEmpty) ||
      (dst.contains 246#8 && decide (8 ≤ x.sdq.length)) ||
      (dst.contains 253#8 && decide (8 < x.ldq.length - pops + 1)) ||
      (!checksTarget i && dst.any (fun n => decide (x.win ≤ n.toNat) && decide (n.toNat < 240))) ||
      (groups i).any (fun n => decide (x.win ≤ n.toNat + 7))
    if bad then illegal w
    else do
      parkUntil (!dst.contains 250#8 || s.cellFree s.cur x) .fwo
      parkUntil (x.role != .leading || !dst.any (fun n => n = 250#8 || n = 251#8) || decide (x.effects.length < 16)) .pairValue

/-- The thread's compose buffer holds a complete message. -/
def Slot.composed (sl : Slot) : Bool := !sl.compose.isEmpty && messageLength sl.compose = sl.compose.length

/-- The soft errors of a compose buffer that empties go with its words (15 R361). -/
def forgetCompose (tid : Nat) : M Unit :=
  modS (fun s => { s with errs := s.errs.filter (fun e => match e.1 with
    | .compose t _ => t != tid
    | _ => true) })

/-- Completes the unit at the next pc; a complete message leaves, parking the thread until it has (13 R333). The thread then keeps the
address of the unit that wrote its last word, which a kill by a poisoned word consumes (15 R373). -/
def completeAt (pc : BitVec 55) : M Unit := do
  let sl ← mySlot
  let x ← me
  if sl.composed then
    if x.role = .trailing then do
      modMySlot (fun sl => { sl with compose := [] })
      forgetCompose (← myTid)
      modMe (fun x => { x.endUnit with pc := pc, released := none })
    else modMe (fun x => { x.endUnit with pc := pc, unitPc := x.first, park := some .inject, released := none })
  else modMe (fun x => { x.endUnit with pc := pc, released := none })

/-- Completes the unit and goes on at the next word; the end of the space faults, with the words fetched after the instruction word
(04 R101; 07 R164). -/
def retire (words : Nat := 1) : M Unit := do
  let x ← me
  if x.pc.toNat + 4 * words < 2 ^ 55 then completeAt (x.pc + BitVec.ofNat 55 (4 * words))
  else trapWith { cause := 1, value := word (2 ^ 55), extra := words - 1 }

/-- An instruction whose result can be no header of a message, and whose destination asks for one, traps before its effect (13 R333;
04 R87). -/
def noHeader (w : IWord) (d : BitVec 8) : M Unit := do
  if ← asksHeader d then illegal w else pure ()

/-- The word that an instruction was decoded from. -/
def wordOf (i : Instr) : IWord := (encode i).getD 0

/-- Runs a word of the thread at `cur`: a body that does not complete leaves no effect but what becomes of the thread
(02 R55). A parked thread issues nothing (12 R284). -/
def runBody (go : M Unit) (s : State) : Host.Outcome State Fault Refusal :=
  match s.thread s.cur with
  | none => .fault .noThread
  | some x =>
    if x.park.isSome then .next s
    else match go s with
      | .ok (_, s') => .next s'
      | .error a =>
        match settle s.cur a s with
        | .ok (_, s') => .next s'
        | .error (.stop f) => .fault f
        | .error _ => .next s

/-- Runs an instruction (02 R33, R34, R41): its form and prefixes are judged, its names judged, its body run. -/
def runUnit (i : Instr) (body : IWord → M Unit) (s : State) : Host.Outcome State Fault Refusal :=
  runBody (do
    let x ← me
    if wellFormed i && accepts i x.latch then do
      judgeNames (wordOf i) i
      body (wordOf i)
    else illegal (wordOf i)) s

/-- The prefix latch of the unit. -/
def latch : M Latch := do return (← me).latch

/-- The rounding mode of the unit (02 R56). -/
def mode : M Nat := do return modeOf (← latch).rm (← mySlot).tstat

end Sys2Proof.Machine
end

