-- ==== Sys2Proof/Machine/Access.lean ====
section
/-! DEFINITION. What the memory instructions share: the checks of an address, migration, the load-data queue, the placing of a store,
the sending of a bank operation (02 R57; 08 R176 to R187; 09 R211; 10 R230 to R234; 12 R301, R305). Loads of lines are in Lines.lean. -/

namespace Sys2Proof.Machine

/-- The access fault of a class (10 R230). -/
def accessFault (store : Bool) : Nat := if store then 7 else 5

/-- Step 1 of 10 R230. -/
def checkRange (ea : Word) (store : Bool) : M Unit := if outside ea then trap (accessFault store) ea else pure ()

/-- Step 2 of 10 R230. -/
def checkAlign (ea : Word) (z : Nat) (store : Bool) : M Unit :=
  if ea.toNat % z != 0 then trap (if store then 6 else 4) ea else pure ()

/-- The address of an access: the one that its instruction had when it parked, if it did. -/
def effective (ea : Word) : M Word := do return (← me).resume.ea.getD ea

/-- The words of a thread's recipe records (07 R173). -/
def Thread.recordWords (x : Thread) : Nat := (x.recipes.map (fun p => 1 + p.2.body.length)).sum

/-- Whether a thread meets the conditions of migration but the last (12 R301; 07 R174). -/
def State.mayMigrate (s : State) (x : Thread) : Bool :=
  s.isMigratory x.launch && x.role = .single && x.ldq.isEmpty && x.sdq.isEmpty && (s.slot s.cur).compose.isEmpty &&
  s.olderDone (coreOf s.cur) x && decide (x.recipes.length ≤ 8) && decide ((x.recipes.map (fun p => p.2.body.length)).sum ≤ 20) &&
  decide (1 + x.win / 4 + (x.recordWords + 3) / 4 ≤ 10)

/-- Migrates to a core where a guest slot is free there (12 R301, R304). -/
def migrateTo (x : Thread) (core : Nat) : M Unit := do
  let s ← getS
  if s.mayMigrate x && (s.guestPlace x core).isSome then abort (.migrate core (coreOf x.home = core)) else pure ()

/-- The cluster that a line's home slice is beside (12 R301). -/
def besideOf (line : Nat) : Nat :=
  let h := sliceOf line
  let s := h % 24
  16 * (h / 24) + (2 * (s / 3) + if s % 3 = 1 then 1 else 0)

/-- The free guest slots of a core (12 R301, R307): its FREE slots, where the thread finds a place among them, or in its own home slot. -/
def State.guestRoom (s : State) (x : Thread) (core : Nat) : Nat :=
  if core = coreOf s.cur || (s.guestPlace x core).isSome then (s.freeSlots core).length else 0

/-- A COH access that finds no usable copy (12 R301): the thread migrates beside the home where it can. -/
def migrateForLine (x : Thread) (line : Nat) : M Unit := do
  let s ← getS
  let k := besideOf line
  if k = clusterOf (coreOf s.cur) then pure ()
  else match greatestBy (s.guestRoom x) (numbers (8 * k) 8) with
    | some c => migrateTo x c
    | none => pure ()

/-- A bank-class operation (12 R301). -/
def migrateForBank (x : Thread) (bank : Nat) : M Unit := do
  let s ← getS
  if clusterOf (bank / 4) = clusterOf (coreOf s.cur) then pure () else migrateTo x (bank / 4)

/-- The line of a load of the issuing thread (10 R233), which may migrate for a COH line (12 R301). -/
def loadLine (x0 : Thread) (ea : Word) (p : Page) (mask : LineMask) (ch : Nat) (now : Bool) : M LineData :=
  lineOf (if p.attr = .coh then migrateForLine x0 (p.pa / 32) else pure ()) checkNext ea p mask ch now

/-- Puts a value into a load's destination: a name, or the load-data queue (10 R233, R234), with the poison of its line (15 R364). -/
def deliver (w : IWord) (d : BitVec 8) (ea : Word) (v : Word) (bad : Bool := false) : M Unit := do
  if d = 253#8 then do
    let n ← draw
    let e : LdEntry := { iw := w, ea := ea, line := 0, attr := .priv, lease := 1, size := 8, signed := false, seq := n, val := some v,
                         poison := bad }
    modMe (fun x => { x with ldq := x.ldq ++ [e] })
  else writeName w d v

/-- The entry of a load into the load-data queue (10 R234): with its value where the core can perform it at once. The trailing thread of
a pair makes no access; the value enters it as it pops the entry (15 R380; notes/assumptions/16.md). -/
def appendLoad (x0 : Thread) (w : IWord) (ea : Word) (p : Page) (size : Nat) (signed : Bool) (ch : Nat) : M Unit := do
  let x ← me
  let s ← getS
  if x.role = .trailing then deliver w 253 ea 0
  else
  let line := p.pa / 32
  let off := p.pa % 32
  let mask := maskOf off size
  let older := s.olderDone (coreOf s.cur) x
  let f ← performLoad s.cur line p.attr mask s.fresh older
  if f matches .got _ then modS (fun s => s.markSoon (coreOf s.cur) line p.attr ch) else pure ()
  if f = .miss && p.attr = .coh && x0.ldq.isEmpty then migrateForLine x0 line else pure ()
  let n ← draw
  let e : LdEntry := { iw := w, ea := ea, line := line, attr := p.attr, lease := p.lease, size := size, signed := signed,
                       ch := ch, mask := mask, seq := n }
  let e := match f with
    | .got v => { e with val := some (extendBytes size signed (fromByte v.data off)), poison := v.poison }
    | _ => e
  modMe (fun x => { x with ldq := x.ldq ++ [e] })

/-- The bank that an aperture address names (08 R177). -/
def bankOf (ea : Word) : Nat := ea.toNat / 2 ^ 24 % 16384

/-- What a bank operation is made for: the words of its unit's names, and the destination that its value goes to, zr where none does. -/
structure Asked where
  operands : List Word
  d : BitVec 8 := 255
  deriving DecidableEq, Repr

/-- A bank-class operation of the issuing thread (02 R57): it waits for the thread's older stores, is sent as the thread
parks, and comes back with a time, a status and a value. -/
def bankAccess (x0 : Thread) (ea : Word) (kind : BankKind) (v : Word) (q : Asked) : M Reply := do
  let x ← me
  let s ← getS
  match x.resume.reply with
  | some r => do
    raisePts r.time
    if r.poison then abort (.kill 26 ea)
    else do
      modMe (fun x => { x with bst := BitVec.ofNat 3 r.status })
      return r
  | none => do
    waitOlder
    let b := bankOf ea
    migrateForBank x0 b
    checkNext
    let op : BankOp := { tid := s.cur, uid := x.uid, ctx := x.ctx, ea := ea, bank := b, cls := ea.toNat / 2 ^ 22 % 4,
                         key := ea.toNat / 8 % 2 ^ 19, byte := ea.toNat % 8, kind := kind, v := v, time := s.pts (coreOf s.cur),
                         ldq := q.d = 253#8, header := ← asksHeader q.d }
    parkBegun (.bankSend op) q.operands

/-- A bank operation that is a load: a value that enters a pair (15 R380). -/
def bankLoadOp (x0 : Thread) (ea : Word) (kind : BankKind) (q : Asked) : M (Word × List Word) :=
  enter 5 ea (do
    let r ← bankAccess x0 ea kind 0 q
    return (r.value, r.values))

/-- A bank operation other than a load: an effect of a pair (15 R380, R381). -/
def bankEffect (x0 : Thread) (ea : Word) (kind : BankKind) (code : Nat) (v : Word) (data : List Word) (q : Asked) :
    M (Word × List Word) :=
  outward { kind := code, addr := ea, size := 8, data := v :: data } (do
    let r ← bankAccess x0 ea kind v q
    return (r.value, r.values)) (some q.operands)

/-- Steps 4 and 5 of 10 R230 for a store: the page of the address. -/
def storePage (ea : Word) (n : Nat) : M Page := do
  let p ← translate ea 1
  let s ← getS
  if p.attr = .rshr || s.inRegion p.pa n then trap 7 ea else return p

/-- Whether a core holds a line exclusively (09 R208). -/
def State.holdsExcl (s : State) (core line : Nat) : Bool :=
  ((find (s.core core).l1 (l1Key line .coh)).map (·.excl)).getD false

/-- Parks while the core's store buffer is full (10 R233; 12 R286). The spec gives it no size: an issue's datum says whether one that
holds stores is full (DESIGN CHOICE, notes/assumptions/63.md). -/
def waitRoom : M Unit := do
  let s ← getS
  let ids := (s.core (coreOf s.cur)).buffer.map (·.id)
  parkUntil (ids.isEmpty || s.pick / 64 % 2 = 0) (.room ids)

/-- Places the masked bytes of a line into the core's store buffer (10 R233), with the cache hint; a leading thread's wait there for
the comparator (15 R381). -/
def placeStore (p : Page) (line : Nat) (mask : LineMask) (d : LineData) (ch : Nat) : M Unit := do
  let x ← me
  let s ← getS
  let n ← draw
  let e : StEntry := { id := n, uid := x.uid, ctx := x.ctx, line := line, attr := p.attr, mask := mask, data := d,
                       through := p.attr = .priv && s.isMigratory x.launch, ch := ch, waits := x.role = .leading }
  modCore (coreOf s.cur) (fun c => { c with buffer := c.buffer ++ [e] })
  if p.attr = .priv && !x.privLines.contains line then modMe (fun x => { x with privLines := x.privLines ++ [line] })
  else pure ()

/-- A store to memory is one effect of a pair (15 R381). A COH store without the line exclusively may migrate (12 R301). `act` places
its `n` parts into the store buffer. `names`: the words of the unit's names. -/
def storeEffect (x0 : Thread) (ea : Word) (p : Page) (size : Nat) (data : List Word) (n : Nat) (act : M Unit)
    (names : Option (List Word) := none) : M Unit := do
  let s ← getS
  if p.attr = .coh && !s.holdsExcl (coreOf s.cur) (p.pa / 32) then migrateForLine x0 (p.pa / 32) else pure ()
  defer { kind := 20, addr := ea, size := size, data := data } (do
    waitRoom
    act
    return n) names

end Sys2Proof.Machine
end

