-- ==== Sys2Proof/Machine/Banks.lean ====
section
/-! DEFINITION. Banks: their storage, their structures alone and composed, the classes of operation, changes of personality
and composition (11 R259 to R280; 15 R359 to R364), and the instructions BSET, BCOMP and BINFO (11 R278 to R280). -/

namespace Sys2Proof.Machine

/-- The greatest capacity of a personality (11 R259). -/
def maxCap (pers : Nat) : Nat := if pers = 4 then 4096 else 8192

/-- The banks of the structure that a bank's window serves: those of its composition in order, or itself (11 R274). -/
def State.membersOf (s : State) (b : Nat) : List Nat := if (s.bank b).members.isEmpty then [b] else (s.bank b).members

/-- The capacity of a structure (11 R274). -/
def State.capOf (s : State) (ms : List Nat) : Nat := (ms.map (fun m => (s.bank m).cap)).sum

/-- The core whose counters count a bank's errors. -/
def bankCore (b : Nat) : Nat := b / 4

/-- A word of a bank's storage; one that is not listed holds zero (15 R358). -/
def State.bankWord (s : State) (b w : Nat) : Reg := findD (s.bank b).words {} w

/-- Puts an error mask into a listed entry: corrected, or poisoned (15 R360). -/
def strikeEntry (b : Nat) (m : Word) (r : Reg) : M Reg :=
  if popCount m ≤ 2 then do
    modCore (bankCore b) (fun c => { c with corrected := c.corrected + 1 })
    return r
  else do
    if r.poison then pure () else modCore (bankCore b) (fun c => { c with poisoned := c.poisoned + 1 })
    return { r with poison := true }

/-- An error mask meets a word of a bank's storage that no live entry of a MAP or HEAP holds (15 R358 to R360): a word that has been
written is dirty; one that is still zero from its scrub is zeroed again. -/
def strikeStored (b w : Nat) (m : Word) (written : Bool) : M Unit := do
  match find ((← getS).bank b).words w with
  | some r => do
    let r' ← strikeEntry b m r
    modBank b (fun x => { x with words := put x.words w r' })
  | none =>
    if written then do
      let r ← strikeEntry b m {}
      if r.poison then modBank b (fun x => { x with words := put x.words w r }) else pure ()
    else if parityFails m then modCore (bankCore b) (fun c => { c with refetch := c.refetch + 1 })
    else modBank b (fun x => { x with words := put x.words w { val := m } })

/-- The k-th of the live entries of a MAP, by rising key, with its key word and its value word, or of a HEAP; the words behind them
hold none (notes/assumptions/7.md). -/
def strikeLive (b w : Nat) (m : Word) : M Unit := do
  let k ← getS
  let x := k.bank b
  if x.pers = 4 then
    match x.live[w / 2]? with
    | some (key, r) =>
      if w % 2 = 0 then do
        let r' ← strikeEntry b m { val := word key, poison := x.badKeys.contains key }
        if r'.poison then modBank b (fun x => { x with badKeys := x.badKeys.insert key }) else pure ()
      else do
        let r' ← strikeEntry b m r
        modBank b (fun x => { x with live := put x.live key r' })
    | none => strikeStored b w m (decide (w < 2 * x.high))
  else
    match x.heap[w]? with
    | some (n, r) => do
      let r' ← strikeEntry b m r
      modBank b (fun x => { x with heap := setAt x.heap w (n, r') })
    | none => strikeStored b w m (decide (w < x.high))

/-- Checks a word of a bank: its errors are gone and the word is as 15 R359, R360 say. -/
def checkBankWord (b w : Nat) : M Unit := do
  let s ← getS
  match s.errs.find? (fun e => e.1 = .bank b w) with
  | none => pure ()
  | some e => do
    set { s with errs := s.errs.filter (fun x => x != e) }
    let x := s.bank b
    if x.pers = 4 || x.pers = 5 then strikeLive b w e.2 else strikeStored b w e.2 false

/-- Checks every word of a bank that an error has struck. -/
def checkBank (b : Nat) : M Unit := do
  for e in (← getS).errs do
    match e.1 with
    | .bank c w => if c = b then checkBankWord b w else pure ()
    | _ => pure ()

/-- The member and local word of position p of a QUEUE or STACK (11 R275). -/
def State.positionIn (s : State) : List Nat → Nat → Nat × Nat
  | [], p => (0, p)
  | m :: ms, p => if p < (s.bank m).cap then (m, p) else s.positionIn ms (p - (s.bank m).cap)

/-- The member and local word of index i of an ARRAY, ARRAYFE or HIST (11 R275). -/
def State.indexIn (s : State) (ms : List Nat) (i : Nat) : Nat × Nat :=
  let n := ms.length
  let pers := (s.bank (ms.headD 0)).pers
  if pers = 1 then (ms.getD (i / 2 % n) 0, 2 * (i / 2 / n) + i % 2) else (ms.getD (i % n) 0, i / n)

/-- The bank, its time raised to `t`: a member that an operation touches (11 R274). -/
def touch (t : Stamp) (m : Nat) : M Unit := raise (.bank m) t

/-- The live entries of a QUEUE, oldest first, or of a STACK, bottom first (11 R264, R275). -/
def queueEntries (ms : List Nat) : M (List Reg) := do
  for m in ms do checkBank m
  let s ← getS
  let h := s.bank (ms.headD 0)
  return (numbers 0 h.count).map (fun j =>
    let (m, w) := s.positionIn ms ((h.head + j) % max 1 (s.capOf ms))
    s.bankWord m w)

/-- Places entries at positions 0 onward of a QUEUE or STACK. -/
def placeEntries (ms : List Nat) (es : List Reg) : M Unit := do
  let s ← getS
  for p in (numbers 0 es.length).zip es do
    let (m, w) := s.positionIn ms p.1
    modBank m (fun b => { b with words := put b.words w p.2 })
  modBank (ms.headD 0) (fun b => { b with head := 0, count := es.length })

/-- Whether the entry of a MAP's key has a poisoned word (15 R363). -/
def Bank.badEntry (b : Bank) (key : Nat) (r : Reg) : Bool := r.poison || b.badKeys.contains key

/-- The member of a composed MAP that holds a key (11 R275). -/
def mapMember (ms : List Nat) (k : Nat) : Nat := ms.getD ((hash64 (word k) 1).toNat % ms.length) 0

/-- The next place in the order of insertion of a HEAP (11 R266, R275). -/
def State.nextSeq (s : State) (ms : List Nat) : Nat :=
  (ms.flatMap (fun m => (s.bank m).heap.map (fun e => e.1 + 1))).foldl max 0

/-- The entry that a HEAP's pop takes: the least key, the first inserted among equals, with its member (11 R266, R275). -/
def State.heapLeast (s : State) (ms : List Nat) : Option (Nat × Nat × Reg) :=
  leastBy (fun e => bits e.2.2.val 63 32 * 2 ^ 64 + e.2.1) (ms.flatMap (fun m => (s.bank m).heap.map (fun e => (m, e.1, e.2))))

/-- The entries of a HEAP in pop order. -/
def heapOrder (l : List (Nat × Reg)) : List (Nat × Reg) := sortBy (fun e => bits e.2.val 63 32 * 2 ^ 64 + e.1) l

/-- The count that a structure reports (11 R264 to R266, R280). -/
def State.countOf (s : State) (ms : List Nat) : Nat :=
  let b := s.bank (ms.headD 0)
  if b.pers = 2 || b.pers = 3 then b.count
  else if b.pers = 4 then (ms.map (fun m => (s.bank m).live.length)).sum
  else if b.pers = 5 then (ms.map (fun m => (s.bank m).heap.length)).sum
  else if b.pers = 1 then (ms.map (fun m => (s.bank m).full.length)).sum
  else 0

/-- What an operation asks of its bank (11 R262 to R267, R278 to R280). -/
inductive BankForm where
  | load | store | fullBit | empty
  | pop | push | peek | count
  | lookup | insert | take | delete
  | heapInsert | heapPop
  | histRead | histAdd | histReadClear | histSet
  | vector | lde | stf
  | keep | drain | clear | compose | info
  deriving DecidableEq, Repr

/-- The mode of a BSET's configuration word (11 R278). -/
def bsetMode (v : Word) : Nat := bits v 19 18
/-- Its personality. -/
def bsetPers (v : Word) : Nat := bits v 17 15
/-- Its capacity. -/
def bsetCap (v : Word) : Nat := if bits v 13 0 = 0 then maxCap (bsetPers v) else bits v 13 0

/-- The form of an operation at its bank, and whether the bank accepts it (11 R261, R262). An operation that is denied takes
the form of its kind. -/
def State.formOf (s : State) (op : BankOp) : BankForm × Bool :=
  let b := s.bank op.bank
  let mine := b.owner = op.ctx
  let open_ := mine && (b.home = none || b.home = some op.bank)
  match op.kind with
  | .bset =>
    let ok := mine && bits op.v 63 20 = 0 && bsetMode op.v != 3 && bsetPers op.v != 7 && bits op.v 14 14 = 0
    (if bsetMode op.v = 0 then .keep else if bsetMode op.v = 1 then .drain else .clear, ok)
  | .bcomp => (.compose, true)
  | .binfo => (.info, mine)
  | .vload _ => (.vector, open_ && decide (b.pers ≤ 1) && op.cls = 0)
  | .vstore _ => (.vector, open_ && decide (b.pers ≤ 1) && op.cls = 0)
  | .lde _ => (.lde, open_ && b.pers = 1 && op.cls = 0)
  | .stf => (.stf, open_ && b.pers = 1 && op.cls = 0)
  | .load size _ =>
    if open_ then
      if b.pers ≤ 1 && op.cls = 0 then (.load, true)
      else if size != 8 then (.load, false)
      else if b.pers = 1 && op.cls = 1 then (.fullBit, true)
      else if b.pers = 2 || b.pers = 3 || b.pers = 5 then
        if op.cls = 0 then (if b.pers = 5 then .heapPop else .pop, true)
        else if op.cls = 1 then (if op.key = 1 then .count else .peek, true)
        else (.load, false)
      else if b.pers = 4 then
        if op.cls = 0 then (.lookup, true) else if op.cls = 1 then (.count, true) else if op.cls = 2 then (.take, true)
        else (.load, false)
      else if b.pers = 6 && op.cls = 0 then (.histRead, true)
      else if b.pers = 6 && op.cls = 1 then (.histReadClear, true)
      else (.load, false)
    else (.load, false)
  | .store size =>
    if open_ then
      if b.pers ≤ 1 && op.cls = 0 then (.store, true)
      else if size != 8 then (.store, false)
      else if b.pers = 1 && op.cls = 1 then (.empty, true)
      else if (b.pers = 2 || b.pers = 3) && op.cls = 0 then (.push, true)
      else if b.pers = 5 && op.cls = 0 then (.heapInsert, true)
      else if b.pers = 4 && op.cls = 0 then (.insert, true)
      else if b.pers = 4 && op.cls = 2 then (.delete, true)
      else if b.pers = 6 && op.cls = 0 then (.histAdd, true)
      else if b.pers = 6 && op.cls = 1 then (.histSet, true)
      else (.store, false)
    else (.store, false)

/-- How many words a reply to an operation carries besides its value. -/
def BankKind.words : BankKind → Nat
  | .vload n => n
  | _ => 0

/-- The reply of an operation that is refused, entered in its context's log (11 R261; 14 R347). -/
def denyBank (op : BankOp) : M Reply := do
  let s ← getS
  let home := match s.byUid op.uid with
    | some (_, x) => x.home
    | none => op.tid
  violation op.ctx 2 4 0 home op.ea op.time
  return { status := 4, values := List.replicate op.kind.words 0 }

/-- A present index of an ARRAY, ARRAYFE or HIST, checked for errors, with the member's time raised (11 R263, R267, R275). -/
def atIndex (ms : List Nat) (t : Stamp) (i : Nat) : M (Option (Nat × Nat × Reg)) := do
  let s ← getS
  let (m, w) := s.indexIn ms i
  if w < (s.bank m).cap then do
    touch t m
    checkBankWord m w
    return some (m, w, (← getS).bankWord m w)
  else return none

/-- Writes a word of a bank. -/
def putWord (m w : Nat) (r : Reg) : M Unit := modBank m (fun b => { b with words := put b.words w r })

/-- The entry with the addressed bytes replaced; a whole word clears poison (11 R262; 15 R363). -/
def storeBytes (r : Reg) (byte size : Nat) (v : Word) : Reg :=
  if size = 8 then { val := v }
  else
    let m : Word := word ((2 ^ (8 * size) - 1) * 2 ^ (8 * byte))
    { r with val := (r.val &&& ~~~m) ||| ((v <<< (8 * byte)) &&& m) }

/-- Answers an operation that waits at a bank. -/
def answerOp (n : Nat) (r : Reply) : M Unit :=
  modS (fun s => match find s.bankOps n with
    | some op => { s with bankOps := put s.bankOps n { op with reply := some r } }
    | none => s)

/-- Whether the unit of an operation traps on its answer, so that nothing that it asked for happens (02 R55; 13 R333). -/
def State.refused (s : State) (n : Nat) (r : Reply) : Bool :=
  ((find s.bankOps n).map (·.header)).getD false && !r.poison && headerless r.value

/-- The granule of an ARRAYFE that holds local entry w. -/
def granuleFull (b : Bank) (w : Nat) : Bool := b.full.contains (w / 2)

/-- The LDE that wait at a structure, in arrival order, are performed while their granule is full, at the fill's time
(10 R237). -/
def serveLde (home : Nat) (ms : List Nat) (t : Stamp) : List LdeWait → M Unit
  | [] => pure ()
  | q :: qs => do
    let s ← getS
    let (m, w) := s.indexIn ms q.key
    if granuleFull (s.bank m) w then do
      checkBankWord m w
      let r := (← getS).bankWord m w
      modBank home (fun b => { b with waiting := b.waiting.filter (fun x => x.op != q.op) })
      if r.poison then answerOp q.op { status := 0, time := t, poison := true }
      else do
        let a : Reply := { status := 0, value := r.val, time := t }
        if q.empty && !s.refused q.op a then modBank m (fun b => { b with full := b.full.filter (· != w / 2) }) else pure ()
        answerOp q.op a
    else pure ()
    serveLde home ms t qs

/-- A granule becomes full, and the LDE that wait for it are performed (10 R237; 08 R201). -/
def fillGranule (home : Nat) (ms : List Nat) (m w : Nat) (t : Stamp) : M Unit := do
  modBank m (fun b => { b with full := b.full.insert (w / 2) })
  serveLde home ms t ((← getS).bank home).waiting

/-- Every LDE that waits at a bank is answered 0 with DENIED, unlogged (11 R273). -/
def dropLde (b : Nat) (t : Stamp) : M Unit := do
  let s ← getS
  for q in (s.bank b).waiting do answerOp q.op { status := 4, time := t }
  modBank b (fun x => { x with waiting := [] })

/-- The operations of the classes (11 R263 to R267; 05 R132; 10 R237), on the structure `ms` of bank `home` at time `t`. An
uncorrectable error in the entry changes nothing (11 R269). Which members an operation touches (11 R274): those whose entries it
reads or writes; a count, and a HEAP insert's choice of its member, touch no others (DESIGN CHOICE, notes/assumptions/64.md). -/
def performForm (form : BankForm) (op : BankOp) (n home : Nat) (ms : List Nat) (t : Stamp) : M Reply := do
  let bad : Reply := { poison := true }
  let absent : Reply := { status := 3 }
  let s ← getS
  let c := s.capOf ms
  let h := s.bank home
  match form with
  | .load => do
    match ← atIndex ms t op.key with
    | none => return absent
    | some (_, _, r) =>
      if r.poison then return bad
      else match op.kind with
        | .load size signed => return { value := extendBytes size signed (r.val >>> (8 * op.byte)) }
        | _ => return absent
  | .store => do
    match ← atIndex ms t op.key with
    | none => return absent
    | some (m, w, r) =>
      match op.kind with
      | .store size =>
        if r.poison && size != 8 then return bad
        else do
          putWord m w (storeBytes r op.byte size op.v)
          return {}
      | _ => return absent
  | .fullBit => do
    match ← atIndex ms t op.key with
    | none => return absent
    | some (m, w, _) => return { value := truth (granuleFull ((← getS).bank m) w) }
  | .empty => do
    match ← atIndex ms t op.key with
    | none => return absent
    | some (m, w, _) => do
      modBank m (fun b => { b with full := b.full.filter (· != w / 2) })
      return {}
  | .pop =>
    if h.count = 0 then return { status := 2 }
    else do
      let j := if h.pers = 2 then 0 else h.count - 1
      let (m, w) := s.positionIn ms ((h.head + j) % max 1 c)
      touch t m
      checkBankWord m w
      let r := (← getS).bankWord m w
      if r.poison then return bad
      else do
        modBank home (fun b => { b with
          head := if b.pers = 2 then (b.head + 1) % max 1 c else b.head
          count := b.count - 1 })
        return { value := r.val }
  | .push =>
    if c ≤ h.count then return { status := 1 }
    else do
      let (m, w) := s.positionIn ms ((h.head + h.count) % max 1 c)
      touch t m
      clearErr (.bank m w)
      putWord m w { val := op.v }
      modBank home (fun b => { b with count := b.count + 1 })
      return {}
  | .peek =>
    if op.key != 0 then return absent
    else if h.pers = 5 then do
      for m in ms do
        touch t m
        checkBank m
      match (← getS).heapLeast ms with
      | none => return { status := 2 }
      | some (_, _, r) => return if r.poison then bad else { value := r.val }
    else if h.count = 0 then return { status := 2 }
    else do
      let j := if h.pers = 2 then 0 else h.count - 1
      let (m, w) := s.positionIn ms ((h.head + j) % max 1 c)
      touch t m
      checkBankWord m w
      let r := (← getS).bankWord m w
      return if r.poison then bad else { value := r.val }
  | .count => return { value := word (s.countOf ms) }
  | .lookup => do
    let m := mapMember ms op.key
    touch t m
    checkBank m
    let b := (← getS).bank m
    match find b.live op.key with
    | none => return absent
    | some r => return if b.badEntry op.key r then bad else { value := r.val }
  | .insert => do
    let m := mapMember ms op.key
    touch t m
    checkBank m
    let b := (← getS).bank m
    let new := (find b.live op.key).isNone
    if new && decide (b.cap ≤ b.live.length) then return { status := 1 }
    else if b.badKeys.contains op.key then return bad
    else do
      modBank m (fun b => { b with
        live := put b.live op.key { val := op.v }
        high := if new then b.high + 1 else b.high })
      return {}
  | .take => do
    let m := mapMember ms op.key
    touch t m
    checkBank m
    let b := (← getS).bank m
    match find b.live op.key with
    | none => return absent
    | some r =>
      if b.badEntry op.key r then return bad
      else do
        modBank m (fun b => { b with live := del b.live op.key })
        return { value := r.val }
  | .delete => do
    let m := mapMember ms op.key
    touch t m
    checkBank m
    let b := (← getS).bank m
    match find b.live op.key with
    | none => return absent
    | some r =>
      if b.badEntry op.key r then return bad
      else do
        modBank m (fun b => { b with live := del b.live op.key })
        return {}
  | .heapInsert => do
    let room := ms.filter (fun m => (s.bank m).heap.length < (s.bank m).cap)
    match leastBy (fun m => (s.bank m).heap.length) room with
    | none => return { status := 1 }
    | some m => do
      touch t m
      clearErr (.bank m (s.bank m).heap.length)
      let seq := s.nextSeq ms
      modBank m (fun b => { b with
        heap := b.heap ++ [(seq, { val := op.v })]
        high := max b.high (b.heap.length + 1) })
      return {}
  | .heapPop => do
    for m in ms do
      touch t m
      checkBank m
    match (← getS).heapLeast ms with
    | none => return { status := 2 }
    | some (m, seq, r) =>
      if r.poison then return bad
      else do
        modBank m (fun b => { b with heap := b.heap.filter (fun e => e.1 != seq) })
        return { value := r.val }
  | .histRead => do
    match ← atIndex ms t op.key with
    | none => return absent
    | some (_, _, r) => return if r.poison then bad else { value := r.val }
  | .histAdd => do
    match ← atIndex ms t op.key with
    | none => return absent
    | some (m, w, r) =>
      if r.poison then return bad
      else do
        putWord m w { val := word (min (r.val.toNat + op.v.toNat) (2 ^ 64 - 1)) }
        return {}
  | .histReadClear => do
    match ← atIndex ms t op.key with
    | none => return absent
    | some (m, w, r) =>
      if r.poison then return bad
      else do
        putWord m w { val := 0 }
        return { value := r.val }
  | .histSet => do
    match ← atIndex ms t op.key with
    | none => return absent
    | some (m, w, _) => do
      putWord m w { val := op.v }
      return {}
  | .vector => do
    let k := match op.kind with
      | .vload k => k
      | _ => 8
    let found ← (numbers op.key k).mapM (atIndex ms t)
    let status := if found.any (·.isNone) then 3 else 0
    match op.kind with
    | .vstore vs => do
      for p in found.zip vs do
        match p.1 with
        | some (m, w, _) => putWord m w { val := p.2 }
        | none => pure ()
      return { status := status }
    | _ =>
      if found.any (fun f => (f.map (·.2.2.poison)).getD false) then return bad
      else return { status := status, values := found.map (fun f => (f.map (·.2.2.val)).getD 0) }
  | .lde => do
    match ← atIndex ms t op.key with
    | none => return absent
    | some (m, w, r) =>
      if r.poison then return bad
      else do
        match op.kind with
        | .lde true => modBank m (fun b => { b with full := b.full.filter (· != w / 2) })
        | _ => pure ()
        return { value := r.val }
  | .stf => do
    match ← atIndex ms t op.key with
    | none => return absent
    | some (m, w, _) => do
      putWord m w { val := op.v }
      fillGranule home ms m w t
      return {}
  | _ => do
    let _ := n
    return absent

/-- A bank with empty metadata (11 R270). -/
def Bank.emptied (b : Bank) (pers cap : Nat) : Bank :=
  { b with pers := pers, cap := cap, full := [], head := 0, count := 0, live := [], badKeys := [], heap := [], high := 0 }

/-- A bank with every word zero and empty metadata (11 R273). -/
def Bank.zeroed (b : Bank) (pers cap : Nat) : Bank := { b.emptied pers cap with words := [] }

/-- Free values for the words of a bank that hold no live entry (11 R260); a poisoned one stays poisoned (15 R363). -/
def freeWords (old : FMap Reg) : List Nat → M (List (Nat × Reg))
  | [] => return []
  | w :: ws => do
    let n ← draw
    let rest ← freeWords old ws
    return (w, { val := Config.freeWord n, poison := (findD old {} w).poison }) :: rest

/-- Whether a list is an arrangement of `n` to `k` things in `c` places. -/
def isArrangement (l : List Nat) (n k c : Nat) : Bool := n ≤ l.length && l.length ≤ k && l.Nodup && l.all (· < c)

/-- The raw words of a bank's storage that its structure gives (11 R260). `slots`: the MAP slots of its keys by rising key, and then
those that entries gone by have been in; `order`: the arrangement of its HEAP entries. A list that is no arrangement stands for the
plain one. A word that holds no live entry is a free value once it has been written; others stay zero. -/
def rawWords (b : Nat) (slots order : List Nat) : M (FMap Reg) := do
  checkBank b
  let x := (← getS).bank b
  let set := fun (m : FMap Reg) (es : List (Nat × Reg)) => es.foldl (fun m e => put m e.1 e.2) m
  if x.pers = 2 || x.pers = 3 then do
    let live := (numbers 0 x.count).map (fun j => (x.head + j) % max 1 x.cap)
    let dead := (x.words.map (·.1)).filter (fun w => decide (w < x.cap) && !live.contains w)
    return set x.words (← freeWords x.words dead)
  else if x.pers = 4 then do
    let n := x.live.length
    let most := max n (min x.high x.cap)
    let places := if isArrangement slots n most x.cap then slots else numbers 0 most
    let live := (places.zip x.live).flatMap (fun p =>
      [(2 * p.1, ({ val := word p.2.1, poison := x.badKeys.contains p.2.1 } : Reg)), (2 * p.1 + 1, p.2.2)])
    let left := (places.drop n).flatMap (fun p => [2 * p, 2 * p + 1])
    let dead := left ++ (x.words.map (·.1)).filter (fun w => decide (w < 2 * x.cap) && !left.contains w && !live.any (fun e => e.1 = w))
    return set (set x.words (← freeWords x.words dead)) live
  else if x.pers = 5 then do
    let n := x.heap.length
    let live := (if isArrangement order n n n then order else numbers 0 n).zip (x.heap.map (·.2))
    let dead := (numbers n (x.high - n) ++ (x.words.map (·.1)).filter (fun w => decide (x.high ≤ w) && decide (w < x.cap)))
    return set (set x.words (← freeWords x.words dead)) live
  else return x.words

/-- An item that a DRAIN reads: its key if it has one, and its word (11 R271). -/
structure DrainItem where
  key : Option Nat
  val : Word
  poison : Bool
  deriving DecidableEq, Repr

/-- The items of a bank in structure order (11 R271). -/
def drainItems (b : Nat) : M (List DrainItem) := do
  checkBank b
  let s ← getS
  let x := s.bank b
  let keyed := fun (i : Nat) => let r := s.bankWord b i; ({ key := some i, val := r.val, poison := r.poison } : DrainItem)
  let plain := fun (r : Reg) => ({ key := none, val := r.val, poison := r.poison } : DrainItem)
  if x.pers = 0 || x.pers = 6 then return (numbers 0 x.cap).map keyed
  else if x.pers = 1 then return ((numbers 0 x.cap).filter (granuleFull x)).map keyed
  else if x.pers = 2 || x.pers = 3 then return (← queueEntries [b]).map plain
  else if x.pers = 4 then return x.live.map (fun p => { key := some p.1, val := p.2.val, poison := x.badEntry p.1 p.2 })
  else return (heapOrder x.heap).map (fun e => plain e.2)

/-- A bank with an item applied, at position j among the items; none where it refuses the item (11 R272). -/
def Bank.apply (b : Bank) (j : Nat) (i : DrainItem) : Option Bank :=
  let at_ := i.key.getD j
  if i.poison then none
  else if b.pers = 0 then if at_ < b.cap then some { b with words := put b.words at_ { val := i.val } } else none
  else if b.pers = 1 then
    if at_ < b.cap then some { b with
      words := put b.words at_ { val := i.val }
      full := b.full.insert (at_ / 2) }
    else none
  else if b.pers = 2 || b.pers = 3 then
    if b.count < b.cap then some { b with
      words := put b.words b.count { val := i.val }
      count := b.count + 1 }
    else none
  else if b.pers = 4 then
    if 2 ^ 19 ≤ at_ || ((find b.live at_).isNone && decide (b.cap ≤ b.live.length)) then none
    else some { b with
      live := put b.live at_ { val := i.val }
      high := if (find b.live at_).isNone then b.high + 1 else b.high }
  else if b.pers = 5 then
    if b.heap.length < b.cap then some { b with
      heap := b.heap ++ [(b.heap.length, { val := i.val })]
      high := b.heap.length + 1 }
    else none
  else
    let add := fun (bin n : Nat) => ({ b with
      words := put b.words bin { val := word (min ((findD b.words {} bin).val.toNat + n) (2 ^ 64 - 1)) } } : Bank)
    match i.key with
    | some k => if k < b.cap then some (add k i.val.toNat) else none
    | none => some (add (i.val.toNat % b.cap) 1)

/-- Applies items in order; the number refused is counted (11 R271). -/
def Bank.applyAll (b : Bank) : Nat → List DrainItem → Nat → Bank × Nat
  | _, [], dropped => (b, dropped)
  | j, i :: is, dropped => match b.apply j i with
    | some b' => b'.applyAll (j + 1) is dropped
    | none => b.applyAll (j + 1) is (dropped + 1)

/-- A member's own entries of a composed structure, with their kind: what it holds once it stands alone (11 R277). -/
def standAlone (ms : List Nat) (m : Nat) : M Bank := do
  let s ← getS
  let b := s.bank m
  let h := s.bank (ms.headD 0)
  if b.pers = 2 || b.pers = 3 then
    let mine := (numbers 0 h.count).filterMap (fun j =>
      let (k, w) := s.positionIn ms ((h.head + j) % max 1 (s.capOf ms))
      if k = m then some (s.bankWord k w) else none)
    return { b with
      words := ((numbers 0 mine.length).zip mine).foldl (fun ws e => put ws e.1 e.2) b.words
      head := 0
      count := mine.length
      home := none
      members := [] }
  else return { b with
    home := none
    members := [] }

/-- A BSET on a member ends its membership: the home dissolves the composition, another member is detached (11 R277). -/
def leaveComposition (b : Nat) (t : Stamp) : M Unit := do
  let s ← getS
  match (s.bank b).home with
  | none => pure ()
  | some home => do
    let ms := (s.bank home).members
    for m in ms do
      touch t m
      checkBank m
    let s ← getS
    if home = b then do
      let alone ← ms.mapM (fun m => do return (m, ← standAlone ms m))
      for p in alone do modBank p.1 (fun _ => p.2)
    else do
      let alone ← standAlone ms b
      let h := s.bank home
      let rest := ms.filter (· != b)
      let queued := h.pers = 2 || h.pers = 3
      let left := if queued then (numbers 0 h.count).filterMap (fun j =>
          let (k, w) := (s.positionIn ms ((h.head + j) % max 1 (s.capOf ms)))
          if k = b then none else some (s.bankWord k w)) else []
      modBank b (fun _ => alone)
      let one := rest.length ≤ 1
      for m in rest do modBank m (fun x => { x with home := if one then none else some home })
      modBank home (fun x => { x with members := if one then [] else rest })
      if queued then placeEntries rest left else pure ()

/-- Every LDE waiting at the bank, or at its composed structure, is answered (11 R273). -/
def answerLde (b : Nat) (t : Stamp) : M Unit := do
  let s ← getS
  dropLde b t
  match (s.bank b).home with
  | none => pure ()
  | some home => for m in (s.bank home).members do dropLde m t

/-- A change that ends a bank's membership is one event in its home's order too (11 R277): the bank learns the home's time. -/
def meetHome (b : Nat) : M Unit := do
  let s ← getS
  match (s.bank b).home with
  | some home => raise (.bank b) (s.clock (.bank home)).t
  | none => pure ()

/-- The start of a BSET (11 R278): it is refused, or finds its capacity too great, or the bank stands alone with no LDE
waiting, for the mode `act` to be applied with its personality and capacity. -/
def bsetWith (op : BankOp) (ok : Bool) (t : Stamp) (act : Nat → Nat → M Nat) : M Reply := do
  if !ok then denyBank op
  else
    let c := bsetCap op.v
    if maxCap (bsetPers op.v) < c then return { status := 1 }
    else do
      answerLde op.bank t
      leaveComposition op.bank t
      let dropped ← act (bsetPers op.v) c
      return { value := word dropped }

/-- The errors of a bank's words go with a scrub (11 R271, R273). -/
def clearBankErrs (b : Nat) : M Unit :=
  modS (fun s => { s with errs := s.errs.filter (fun e => match e.1 with
    | .bank c _ => c != b
    | _ => true) })

/-- KEEP (11 R270). It empties an ARRAYFE's granules where the bank keeps its personality and capacity too, as R270 says, though 11 R278's
last sentence names the metadata of four other personalities only (DESIGN CHOICE, notes/assumptions/64.md). -/
def keepBank (b : Nat) (slots order : List Nat) (pers cap : Nat) : M Nat := do
  let ws ← rawWords b slots order
  modBank b (fun x => { x.emptied pers cap with words := ws })
  return 0

/-- DRAIN (11 R271, R272). -/
def drainBank (b pers cap : Nat) : M Nat := do
  let items ← drainItems b
  clearBankErrs b
  let (x, dropped) := (((← getS).bank b).zeroed pers cap).applyAll 0 items 0
  modBank b (fun _ => x)
  return dropped

/-- CLEAR (11 R273). -/
def clearBank (b pers cap : Nat) : M Nat := do
  clearBankErrs b
  modBank b (fun x => x.zeroed pers cap)
  return 0

/-- The members that BCOMP's list names (11 R279). -/
def compMembers (home : Nat) (v : Word) : List Nat :=
  ((numbers 0 8).filter (fun m => bit v (8 * m + 7))).map (fun m => home / 32 * 32 + bits v (8 * m + 4) (8 * m))

/-- Whether BCOMP is refused (11 R279). -/
def State.compBad (s : State) (op : BankOp) : Bool :=
  let ms := compMembers op.bank op.v
  let n := ms.length
  n < 2 || !(numbers 0 n).all (fun m => bit op.v (8 * m + 7)) || (numbers 0 8).any (fun m => bits op.v (8 * m + 6) (8 * m + 5) != 0) ||
  ms.headD 0 != op.bank || !ms.Nodup || ms.any (fun m => (s.bank m).owner != op.ctx) || ms.any (fun m => (s.bank m).home.isSome) ||
  ms.any (fun m => (s.bank m).pers != (s.bank op.bank).pers)

/-- The entries of MAP banks placed in their hashed members, with their poison; those that find no room are counted (11 R276; 15
R363). -/
def placeMap (ms : List Nat) : List (Nat × Reg × Bool) → Nat → M Nat
  | [], dropped => return dropped
  | (k, r, bad) :: es, dropped => do
    let m := mapMember ms k
    let b := (← getS).bank m
    let new := (find b.live k).isNone
    if new && decide (b.cap ≤ b.live.length) then placeMap ms es (dropped + 1)
    else do
      modBank m (fun b => { b with
        live := put b.live k r
        badKeys := if bad then b.badKeys.insert k else b.badKeys
        high := if new then b.high + 1 else b.high })
      placeMap ms es dropped

/-- The forming of a composition (11 R274 to R276, R279). -/
def compose (op : BankOp) : M Reply := do
  let s ← getS
  if s.compBad op then do
    let r ← denyBank op
    return { r with time := (s.clock (.bank op.bank)).t }
  else do
    let ms := compMembers op.bank op.v
    let t := (ms.map (fun m => (s.clock (.bank m)).t)).foldl tmax op.time
    for m in ms do
      touch t m
      checkBank m
      dropLde m t
    let s ← getS
    let pers := (s.bank op.bank).pers
    let queued := pers = 2 || pers = 3
    let all ← if queued then (do
        let ls ← ms.mapM (fun m => queueEntries [m])
        return ls.flatten)
      else pure []
    for m in ms do modBank m (fun b => { b with home := some op.bank })
    modBank op.bank (fun b => { b with members := ms })
    let dropped ← if queued then (do
        for m in ms do modBank m (fun b => { b with head := 0, count := 0 })
        placeEntries ms all
        return 0)
      else if pers = 4 then (do
        let es := ms.flatMap (fun m => (s.bank m).live.map (fun e => (e.1, e.2, (s.bank m).badKeys.contains e.1)))
        for m in ms do modBank m (fun b => { b with
          live := []
          badKeys := [] })
        placeMap ms es 0)
      else if pers = 5 then (do
        let es := ms.flatMap (fun m => (s.bank m).heap.map (fun e => (m, e)))
        let nums := (numbers 0 es.length).zip es
        for m in ms do modBank m (fun b => { b with heap := (nums.filter (fun p => p.2.1 = m)).map (fun p => (p.1, p.2.2.2)) })
        return 0)
      else pure 0
    return { value := word dropped, time := t }

/-- The word of BINFO (11 R280). -/
def State.infoWord (s : State) (b : Nat) : Word :=
  let x := s.bank b
  let base := fun (comp home nm1 cap count head : Nat) =>
    setBits (setBits (setBits (setBits (setBits (setBits (setBits 0 63 63 comp) 62 62 home) 61 59 nm1) 58 56 x.pers) 55 39 cap) 38 22 count) 21 6 head
  match x.home with
  | none => base 0 0 0 x.cap (s.countOf [b]) (if x.pers = 2 then x.head else 0)
  | some home =>
    let ms := (s.bank home).members
    if home = b then base 1 1 (ms.length - 1) (s.capOf ms) (s.countOf ms) (if x.pers = 2 then x.head else 0)
    else
      let h := s.bank home
      let held := if x.pers = 2 || x.pers = 3 then
          ((numbers 0 h.count).filter (fun j => (s.positionIn ms ((h.head + j) % max 1 (s.capOf ms))).1 = b)).length
        else s.countOf [b]
      base 1 0 (ms.length - 1) x.cap held 0

/-- One operation in a bank's order (11 R268; 09 R214): the bank learns its time, performs it and answers at its own time; an LDE of
an empty granule waits; an answer that its unit traps on leaves the bank as it was (02 R55). -/
def bankEvent (form : BankForm) (n : Nat) (slots order : List Nat := []) : M Unit := do
  let s ← getS
  let op ← needSome (find s.bankOps n)
  let (f, ok) := s.formOf op
  need (op.reply.isNone && f = form && !((s.bank op.bank).waiting.any (fun q => q.op = n)))
  if f = .compose then do
    let r ← compose op
    answerOp n r
  else do
    let b := op.bank
    let ms := s.membersOf b
    let waits := f = .lde && ok && (match s.indexIn ms op.key with
      | (m, w) => decide (w < (s.bank m).cap) && !granuleFull (s.bank m) w)
    raise (.bank b) op.time
    if waits then modBank b (fun x => { x with waiting := x.waiting ++ [{ op := n, key := op.key, empty := op.kind = .lde true }] })
    else do
      if (f = .keep || f = .drain || f = .clear) && ok && bsetCap op.v ≤ maxCap (bsetPers op.v) then meetHome b else pure ()
      let t ← timeOf (.bank b)
      let r ← match f with
        | .keep => bsetWith op ok t (keepBank b slots order)
        | .drain => bsetWith op ok t (drainBank b)
        | .clear => bsetWith op ok t (clearBank b)
        | .info => if ok then pure { value := s.infoWord b } else denyBank op
        | _ => if ok then performForm f op n b ms t else denyBank op
      if s.refused n r then set s else pure ()
      answerOp n { r with time := t }

/-- The address operand of BSET, BCOMP and BINFO (11, "BSET, BCOMP and BINFO"). -/
def bankAddress (a : Word) : M Unit := if inAperture a then pure () else trap 5 a

/-- BSET (11 R278): the items that were refused. -/
def execBset (d a b : BitVec 8) (s : State) : Host.Outcome State Fault Refusal :=
  runUnit (.bset d a b) (fun w => do
    let x0 ← me
    let ea ← readOnce 0 w a
    let v ← readOnce 1 w b
    bankAddress ea
    noHeader w d
    let (r, _) ← bankEffect x0 ea .bset 40 v [] { operands := [ea, v] }
    writeName w d r
    retire) s

/-- BCOMP (11 R279): the entries that were dropped. -/
def execBcomp (d a b : BitVec 8) (s : State) : Host.Outcome State Fault Refusal :=
  runUnit (.bcomp d a b) (fun w => do
    let x0 ← me
    let ea ← readOnce 0 w a
    let v ← readOnce 1 w b
    bankAddress ea
    noHeader w d
    let (r, _) ← bankEffect x0 ea .bcomp 41 v [] { operands := [ea, v] }
    writeName w d r
    retire) s

/-- BINFO (11 R280). -/
def execBinfo (d a : BitVec 8) (s : State) : Host.Outcome State Fault Refusal :=
  runUnit (.binfo d a) (fun w => do
    let x0 ← me
    let ea ← readOnce 0 w a
    bankAddress ea
    let (r, _) ← bankEffect x0 ea .binfo 42 0 [] { operands := [ea], d := d }
    writeName w d r
    retire) s

end Sys2Proof.Machine
end

