-- ==== Sys2Proof/Machine/Engine.lean ====
section
/-! DEFINITION. What the trestle and the copy unit share (06 R139, R155 to R158; 08 R195 to R201; 09 R223; 10 R248): the
acceptance of commands, the translations and reads of a job, shadow lines, granule fills, the publish. -/

namespace Sys2Proof.Machine

/-- How a job ends before it is done: a status of 06 R156 and an address. -/
structure JobEnd where
  status : Nat
  addr : Nat
  deriving DecidableEq, Repr

/-- A computation of a job, which may end it. -/
abbrev J := ExceptT JobEnd M

/-- Ends the job. -/
def endWith {α : Type} (status addr : Nat) : J α := ExceptT.mk (pure (.error { status := status, addr := addr }))

/-- A job with the engine that it is in. -/
structure Seat where
  k : Nat
  copy : Bool
  job : Job
  deriving DecidableEq, Repr

/-- The agent of a job's engine. -/
def Seat.agent (q : Seat) : Agent := engineAgent q.k q.copy

/-- A refusal of the job: status DENIED, logged as kind 3 (06 R156; 14 R347). -/
def Seat.deny {α : Type} (q : Seat) (va : Nat) : J α := do
  let t ← timeOf q.agent
  violation q.job.ctx 3 3 1 q.job.jid (word va) t
  endWith 3 va

/-- Translates an operand's address (06 R156; 14 R341). -/
def Seat.operand (q : Seat) (va : Nat) : J Page := do
  if apertureBase ≤ va then q.deny va
  else
    match ← engineXlat q.job.core q.job.ctx va 0 (q.copy, q.job.jid) with
    | .ok p => return p
    | .page => endWith 2 va
    | .denied => q.deny va
    | .poison => endWith 5 (va / 32 * 32)

/-- Translates `n` bytes of a destination that lie in one page (06 R156; 08 R180). A translation that is lost (14 R344), as one that has
been there when the job started is, ends it DENIED. -/
def Seat.dest (q : Seat) (va n : Nat) (lost : Bool := q.job.started) : J Page := do
  if apertureBase ≤ va then q.deny va
  else
    match ← engineXlat q.job.core q.job.ctx va 1 (q.copy, q.job.jid) with
    | .ok p => do
      let s ← getS
      if p.attr = .rshr || s.inRegion p.pa n then q.deny va else return p
    | .page => if lost then q.deny va else endWith 2 va
    | .denied => q.deny va
    | .poison => endWith 5 (va / 32 * 32)

/-- The engine serves or meets a time (09 R206, R223). -/
def Seat.meet (q : Seat) (t : Stamp) : M Unit := raise q.agent t

/-- Reads a line of an operand whole from its home (06 R155; 08 R195): an exclusive copy is recalled first. -/
def Seat.line (q : Seat) (va : Nat) : J LineData := do
  let p ← q.operand va
  let n := p.pa / 32
  if p.attr = .coh then
    recallNow n true
    raise (.slice (sliceOf n)) (← timeOf q.agent)
    q.meet ((← getS).stamps n).1
  else pure ()
  let (d, bad) ← homeRead n
  if bad then endWith 5 (va / 32 * 32) else return d

/-- The lines that `n` bytes from an address touch. -/
def linesOf (va n : Nat) : List Nat := if n = 0 then [] else numbers (va / 32) ((va + n - 1) / 32 - va / 32 + 1)

/-- Reads `n` bytes of an operand as a number, lowest byte first. -/
def Seat.span (q : Seat) (va n : Nat) : J Nat := do
  let mut v := 0
  for l in linesOf va n do
    let d ← q.line (max va (32 * l))
    v := v + d.toNat * 2 ^ (256 * (l - va / 32))
  return v / 2 ^ (8 * (va % 32)) % 2 ^ (8 * n)

/-- The pieces of `n` bytes that each lie in one block of `size` bytes: address and length. -/
def piecesOf (size va n : Nat) : List (Nat × Nat) :=
  if n = 0 then []
  else (numbers (va / size) ((va + n - 1) / size - va / size + 1)).map (fun b =>
    let lo := max va (size * b)
    (lo, min (va + n) (size * b + size) - lo))

/-- Checks that every page of `n` destination bytes may be written (06 R156; 14 R344). DESIGN CHOICE (log 67): a piece that overlaps a
format region in part is denied with its first address in the page. -/
def Seat.checkDest (q : Seat) (va n : Nat) : J Unit := do
  for p in piecesOf 65536 va n do
    let _ ← q.dest p.1 p.2

/-- Checks that the job's shadow lines are still in the frames that their pages name: one whose translation has been dropped and its page
mapped anew is lost (14 R344, R349; 06 R156). -/
def Seat.checkFrames (q : Seat) : J Unit := do
  for x in q.job.shadow do
    let p ← q.dest x.2.va 32
    if p.pa / 32 = x.1 then pure () else q.deny x.2.va

/-- The shadow lines that a spill area holds (08 R197; 15 R378). -/
def spillRoom (w : Word) : Nat := bits w 15 0 * 2048

/-- The first line of an engine's spill area that no shadow line takes (08 R197; 15 R378). -/
def Engine.spillLine (e : Engine) : Option Nat :=
  let used := e.jobs.flatMap (fun j => j.shadow.filterMap (·.2.spilled))
  (numbers (bits e.spill 51 16 * 2048) (min (spillRoom e.spill) (used.length + 1))).find? (fun l => !used.contains l)

/-- A shadow line with its bytes, which the spill area holds of a spilled one. -/
def Shadow.now (x : Shadow) : M Shadow := do
  match x.spilled with
  | none => return x
  | some l => do
    let (d, bad) ← homeRead l
    return { x with
      data := d
      poison := x.poison || bad }

/-- A job's shadow line, once its soft errors have been met (15 R360). -/
def shadowAt (k : Nat) (copy : Bool) (jid line : Nat) : M (Option Shadow) := do
  checkShadow k copy jid line
  match (((← getS).engine k copy).jobs.find? (fun j => j.jid = jid)).bind (fun j => find j.shadow line) with
  | none => return none
  | some x => do return some (← x.now)

/-- Writes bytes of one destination line into the job's shadow (08 R197). `room`: the homes have room for a new line; else it
goes to the spill area, if that has room. A part of a poisoned line leaves it poisoned (15 R363). -/
def Seat.shadowLine (q : Seat) (room : Bool) (va n v : Nat) : J Unit := do
  let p ← q.dest va n
  let line := p.pa / 32
  let old ← shadowAt q.k q.copy q.job.jid line
  let spot := ((← getS).engine q.k q.copy).spillLine
  if old.isNone && !room && spot.isNone then endWith 4 (va / 32 * 32)
  else
    let x := old.getD { va := va / 32 * 32, spilled := if room then none else spot }
    let m := maskOf (p.pa % 32) n
    let d : LineData := BitVec.ofNat 256 (v * 2 ^ (8 * (p.pa % 32)))
    let x := { x with
      mask := x.mask ||| m
      data := mergeLine x.data d m
      attr := p.attr
      poison := x.poison && m != fullMask }
    match x.spilled with
    | some l => homeWrite l fullMask x.data x.poison
    | none => pure ()
    modJob q.k q.copy q.job.jid (fun j => { j with shadow := put j.shadow line x })

/-- Writes `n` bytes of the destination into the shadow. -/
def Seat.writeShadow (q : Seat) (room : Bool) (va n v : Nat) : J Unit := do
  for p in piecesOf 32 va n do
    q.shadowLine room p.1 p.2 (v / 2 ^ (8 * (p.1 - va)) % 2 ^ (8 * p.2))

/-- Whether `n` bytes of a bank window from an address break the conditions of granule-fill mode (06 R138). -/
def State.granuleBad (s : State) (cluster va n : Nat) : Bool :=
  let b := va / 2 ^ 24 % 16384
  decide (va < apertureBase) || decide (2 ^ 55 ≤ va) || b / 32 != cluster || (s.bank b).home.isSome ||
  decide ((s.bank b).cap ≤ (va % 2 ^ 24 + n - 1) / 8)

/-- Whether a bank takes the fills of a job: an ARRAYFE of its context (06 R156). -/
def State.fillable (s : State) (ctx b : Nat) : Bool :=
  (s.bank b).owner = ctx && (s.bank b).pers = 1 && (s.bank b).home.isNone

/-- Fills one granule: a bank operation at the bank's time (08 R201; 09 R214, R223). -/
def Seat.fillOne (q : Seat) (va v : Nat) : J Unit := do
  let b := va / 2 ^ 24 % 16384
  let w := va % 2 ^ 24 / 8
  let s ← getS
  if !s.fillable q.job.ctx b || (s.bank b).cap ≤ w + 1 then q.deny va
  else
    raise (.bank b) (← timeOf q.agent)
    let t ← timeOf (.bank b)
    q.meet t
    clearErr (.bank b w)
    clearErr (.bank b (w + 1))
    putWord b w { val := word v }
    putWord b (w + 1) { val := word (v / 2 ^ 64) }
    fillGranule b [b] b w t

/-- Fills the granules of `n` bytes, in ascending address. -/
def Seat.fill (q : Seat) (va n v : Nat) : J Unit := do
  for p in piecesOf 16 va n do
    q.fillOne p.1 (v / 2 ^ (8 * (p.1 - va)) % 2 ^ 128)

/-- The stamps of the next version of some COH lines: the latest of a time and rts + 1 of each (09 R221, R223). -/
def State.after (s : State) (t : Stamp) (lines : List Nat) : Stamp := lines.foldl (fun t l => tmax t ((s.stamps l).2 + 1)) t

/-- Whether a thread holds a line under HOLD (09 R222). -/
def State.isHeld (s : State) (line : Nat) : Bool :=
  match (find s.l2 line).bind (·.owner) with
  | none => false
  | some c => ((find (s.core c).l1 (l1Key line .coh)).map (·.held.isSome)).getD false

/-- Makes COH lines ready for an event at their home: any exclusive copy is recalled and the tag is there (09 R223). That the owner keeps
no shared copy is DESIGN CHOICE (notes/assumptions/62.md). -/
def gatherLines (lines : List Nat) : M Unit := do
  for l in lines do
    recallNow l false
    fillHome l true

/-- Writes bytes of a COH line that has been gathered at its home, with a time as both stamps (09 R223). -/
def writeAt (t : Stamp) (line : Nat) (m : LineMask) (d : LineData) : M Unit := do
  raise (.slice (sliceOf line)) t
  if (← getS).bypasses line then writeAsked line m d else homeWrite line m d
  setStamps line t t

/-- The bytes of a line, among those that a mask names, that no publish later in the global order has left (08 R198). -/
def lastPublished (t : Nat) (m : LineMask) (l : List (LineMask × Nat)) : LineMask :=
  l.foldl (fun m e => if t < e.2 then m &&& ~~~e.1 else m) m

/-- A publish writes bytes of a PRIV line at its home: of two publishes of a byte the later in the global order leaves its value
(08 R198). -/
def publishPriv (t : Stamp) (line : Nat) (x : Shadow) : M Unit := do
  let s ← getS
  let et := extendTime s.floor t
  let old := findD s.published [] line
  let m := lastPublished et x.mask old
  if m = 0 then pure () else homeWrite line m x.data
  let kept := (old.map (fun e => (e.1 &&& ~~~m, e.2))).filter (fun e => e.1 != 0)
  modS (fun s => { s with published := put s.published line (if m = 0 then kept else (m, et) :: kept) })

/-- One event that writes shadow lines at their homes, for the jobs of a core: the latest time of an agent and the lines
(09 R223; 08 R198, R199). -/
def publishLines (a : Agent) (core : Option Nat) (shadow : FMap Shadow) : M Unit := do
  let coh := (shadow.filter (fun p => p.2.attr = .coh)).map (·.1)
  let s ← getS
  need (!coh.any s.isHeld)
  gatherLines coh
  raise a ((← getS).after (← timeOf a) coh)
  let t ← timeOf a
  for p in shadow do
    if p.2.attr = .coh then writeAt t p.1 p.2.mask p.2.data
    else
      match core with
      | some c => do
        need (!(← getS).wbs.any (fun w => !w.2.toMemory && w.2.core = c && w.2.line = p.1))
        flushLine c p.1
        l1Drop c p.1 p.2.attr
      | none => pure ()
      publishPriv t p.1 p.2

/-- The shadow of a job as its publish takes it (08 R197; 15 R360). -/
def shadowOf (k : Nat) (copy : Bool) (j : Job) : M (FMap Shadow) :=
  j.shadow.mapM (fun p => do return (p.1, (← shadowAt k copy j.jid p.1).getD p.2))

/-- PUBLISH (09 R223; 06 R157): a job of a core whose work is done makes its destination visible in one event and ends; a poisoned
shadow line ends it POISON (15 R364). -/
def publish (k : Nat) (copy : Bool) (core : Nat) : M Unit := do
  let s ← getS
  let j ← needSome ((s.engine k copy).jobs.find? (fun j => j.ready && j.core % 8 = core &&
    !(j.shadow.any (fun p => p.2.attr = .coh && s.isHeld p.1))))
  let sh ← shadowOf k copy j
  match sh.find? (fun p => p.2.poison) with
  | some p => endJob k copy j 5 p.2.va
  | none => do
    publishLines (engineAgent k copy) (some j.core) sh
    endJob k copy j 0 0

/-- The next serial from `n` on that is not 0 and is not held (06 R158). -/
def nextJobSerial (held : List Nat) : Nat → Nat → Nat
  | 0, n => n
  | fuel + 1, n => if n = 0 || held.contains n then nextJobSerial held fuel ((n + 1) % 4096) else n

/-- The trestle weight of a context on a core (06 R142). -/
def State.weight (s : State) (core ctx : Nat) : Nat := bits (s.entry core ctx).sched 63 56

/-- Answers a thread whose command the engine has received. -/
def answer (tid : Nat) (r : Reply) : M Unit :=
  modThread tid (fun x => { x with
    park := none
    resume := { x.resume with reply := some r } })

/-- The dirty bytes of the PRIV lines that a thread has stored to reach their homes before its command leaves (08 R196). -/
def flushFor (tid : Nat) (x : Thread) : M Unit := do
  let core := coreOf tid
  need (!(← getS).wbs.any (fun w => !w.2.toMemory && w.2.core = core && x.privLines.contains w.2.line))
  for l in x.privLines do flushLine core l

/-- An engine receives a command of a thread (06 R139, R157 to R159; 10 R248): it is refused, or finds no room, or becomes a job with an
identity. It answers the identity. DESIGN CHOICE (log 67): the address word of the log entry of a refusal for weight 0 is 0. -/
def acceptJob (tid : Nat) (copy : Bool) : M (Option Job) := do
  let s ← getS
  let x ← needSome (s.thread tid)
  match x.park with
  | some (.engine kind param keep) => do
    need (decide (2 ≤ kind) = copy)
    let core := coreOf tid
    let k := clusterOf core
    flushFor tid x
    raise (engineAgent k copy) (s.pts core)
    let t ← timeOf (engineAgent k copy)
    let s ← getS
    let mine := (s.engine k copy).jobs.filter (fun j => j.core = core)
    let held := (s.core core).status.filter (fun e => decide (32768 ≤ e.jid) = copy)
    if !copy && s.weight core x.ctx = 0 then do
      violation x.ctx 3 4 0 x.home 0 t
      answer tid { status := 4, time := t }
      return none
    else if (if copy then 8 else 4) ≤ mine.length || 64 ≤ held.length then do
      answer tid { status := 1, time := t }
      return none
    else do
      let n := if copy then 1 else 0
      let serial := nextJobSerial (held.map (·.jid % 4096)) 4096 ((s.core core).serial.getD n 1 % 4096)
      let jid := 32768 * n + 4096 * (core % 8) + serial
      modCore core (fun c => { c with
        serial := setAt c.serial n ((serial + 1) % 4096)
        status := c.status ++ [{ jid := jid, ctx := x.ctx, launch := x.launch, keep := keep }] })
      let j : Job := { jid := jid, kind := kind, ctx := x.ctx, core := core, tid := x.home, launch := x.launch, param := param, time := t }
      modEngine k copy (fun e => { e with jobs := e.jobs ++ [j] })
      answer tid { status := 0, value := word jid, time := t }
      return some j
  | _ => abort (.park (.advance 0))

/-- The request that a job be pre-empted stops it once its step has ended (15 R378). -/
def Engine.stopped (e : Engine) (j : Job) : Bool :=
  match e.pre with
  | some p => p.jid = j.jid && p.stepped
  | none => false

/-- After a step of a job that has more to do: a request to pre-empt it takes effect at this boundary (15 R378). -/
def stepDone (k : Nat) (copy : Bool) (jid : Nat) (t : Stamp) : M Unit := do
  modJob k copy jid (fun j => { j with time := t })
  modEngine k copy (fun e => { e with pre := e.pre.map (fun p => if p.jid = jid then { p with stepped := true } else p) })

/-- After the last step of a job: a request to pre-empt it completes without a save (15 R378). -/
def lastStep (k : Nat) (copy : Bool) (jid : Nat) : M Unit :=
  modEngine k copy (fun e =>
    let hit := (e.pre.map (·.jid)) = some jid
    { e with
      pre := if hit then none else e.pre
      preJob := if hit then 0 else e.preJob })

/-- Runs a step of a job; where it ends the job, the job ends. -/
def runJob (k : Nat) (copy : Bool) (j : Job) (step : Seat → J Unit) : M Unit := do
  match ← (step { k := k, copy := copy, job := j }).run with
  | .ok _ => pure ()
  | .error e => do
    let j' := (((← getS).engine k copy).jobs.find? (fun x => x.jid = j.jid)).getD j
    endJob k copy j' e.status e.addr

/-- A write of trestle_pre or copy_pre (15 R378). `running`: the job that runs. -/
def writePre (k : Nat) (copy : Bool) (v : Word) (running : Option Job) : M Unit :=
  modEngine k copy (fun e =>
    if e.pre.isSome || !bit v 0 then e
    else match running with
      | none => { e with preJob := 0 }
      | some j => { e with pre := some { addr := bits v 51 7 * 128, jid := j.jid } })

end Sys2Proof.Machine
end

