-- ==== Sys2Proof/Machine/Trestle.lean ====
section
/-! DEFINITION. Trestle jobs (06 R135 to R159; 15 R378, R383): parameters, operands, tile-steps of every class, the
destination, saving and resuming, and the trestle's events. -/

namespace Sys2Proof.Machine

/-- The fields of a parameter group (06 R135). -/
structure MatJob where
  a : Nat
  b : Nat
  c : Nat
  d : Nat
  m : Nat
  n : Nat
  k : Nat
  lda : Nat
  ldb : Nat
  ldc : Nat
  ldd : Nat
  fa : Nat
  fb : Nat
  fc : Nat
  fd : Nat
  ta : Bool
  tb : Bool
  acc : Bool
  s : Nat
  dmode : Nat
  bcnt : Nat
  bstr : Nat
  deriving DecidableEq, Repr

/-- Reads a parameter group (06 R135, R136). -/
def readMat (ws : List Word) : MatJob :=
  let w := fun k => ws.getD k 0
  { a := bits (w 0) 54 0, b := bits (w 1) 54 0, c := bits (w 2) 54 0, d := bits (w 3) 54 0
    m := bits (w 4) 59 40, n := bits (w 4) 39 20, k := bits (w 4) 19 0
    lda := bits (w 5) 63 48, ldb := bits (w 5) 47 32, ldc := bits (w 5) 31 16, ldd := bits (w 5) 15 0
    fa := bits (w 6) 63 59, fb := bits (w 6) 58 54, fc := bits (w 6) 53 49, fd := bits (w 6) 48 44
    ta := bit (w 6) 43, tb := bit (w 6) 42, acc := bit (w 6) 41, s := bits (w 6) 40 37, dmode := bits (w 6) 36 35
    bcnt := bits (w 7) 63 48, bstr := bits (w 7) 47 32 }

/-- The problems of a group (06 R136). -/
def MatJob.problems (j : MatJob) : Nat := max j.bcnt 1

/-- The bits of an element's container (03 R59). -/
def elemBits : Nat → Nat
  | 0 | 1 | 12 => 4
  | 4 | 5 | 9 | 10 | 21 | 22 => 16
  | 6 => 1
  | 11 | 15 | 17 | 19 => 32
  | 16 | 18 | 20 => 64
  | _ => 8

/-- The classes of formats (06 R137). -/
inductive MatClass where
  | integer
  | float
  | logarithmic
  | sliced
  deriving DecidableEq, Repr

/-- The class of a job's formats, if they match a row (06 R137). -/
def MatJob.cls (j : MatJob) : Option MatClass :=
  let both := fun (l : List Nat) => l.contains j.fa && l.contains j.fb
  let out := fun (d c : List Nat) => d.contains j.fd && (!j.acc || c.contains j.fc)
  let wide := out [19, 20, 21, 22, 23] [19, 20, 21, 22]
  if both [0, 1, 2, 3, 4, 5, 6] && out [17, 18] [17, 18] then some .integer
  else if both [7, 8, 9, 10, 11] && wide then some .float
  else if both [12, 13, 14] && wide then some .logarithmic
  else if (both [15] || both [16]) && out [19, 20] [19, 20] then some .sliced
  else none

/-- The byte after the last that a matrix takes in any problem (06 R136). -/
def MatJob.top (j : MatJob) (base pitch rows cols width : Nat) : Nat :=
  base + (j.problems - 1) * j.bstr * 4096 + 32 * pitch * (rows - 1) + (cols * width + 7) / 8

/-- Whether a parameter group breaks 06 R137 or R138. A shape or pitch of 0 is outside its range. -/
def State.matBad (s : State) (cluster kind : Nat) (ws : List Word) : Bool :=
  let w := fun k => ws.getD k 0
  let j := readMat ws
  let wd := elemBits j.fd
  let wc := elemBits j.fc
  let reserved := bits (w 0) 63 55 != 0 || bits (w 1) 63 55 != 0 || (j.acc && bits (w 2) 63 55 != 0) || bits (w 3) 63 55 != 0 ||
    bits (w 4) 63 60 != 0 || bits (w 6) 34 0 != 0 || bits (w 7) 31 0 != 0
  let range := j.m = 0 || j.n = 0 || j.k = 0 || j.lda = 0 || j.ldb = 0 || j.ldd = 0 || (j.acc && j.ldc = 0)
  let formats := match j.cls with
    | none => true
    | some .sliced => kind != 1 || j.s = 0 || decide ((if j.fa = 15 then 4 else 8) < j.s)
    | some _ => kind != 0 || j.s != 0
  let align := j.a % 32 != 0 || j.b % 32 != 0 || (j.acc && j.c % 32 != 0) || j.d % 32 != 0
  let aTop := if j.ta then j.top j.a j.lda j.k j.m (elemBits j.fa) else j.top j.a j.lda j.m j.k (elemBits j.fa)
  let bTop := if j.tb then j.top j.b j.ldb j.n j.k (elemBits j.fb) else j.top j.b j.ldb j.k j.n (elemBits j.fb)
  let space := decide (apertureBase < aTop) || decide (apertureBase < bTop) ||
    (j.acc && decide (apertureBase < j.top j.c j.ldc j.m j.n wc)) ||
    (j.dmode = 0 && decide (apertureBase < j.top j.d j.ldd j.m j.n wd))
  let rows := decide (32 * j.ldd < j.n * wd / 8) || (j.acc && decide (32 * j.ldc < j.n * wc / 8))
  let granules := j.dmode = 1 && (j.n * wd / 8 % 16 != 0 || (numbers 0 j.problems).any (fun p =>
    s.granuleBad cluster (j.d + p * j.bstr * 4096) (32 * j.ldd * (j.m - 1) + j.n * wd / 8)))
  reserved || range || formats || align || space || rows || granules || decide (2 ≤ j.dmode) || (decide (1 < j.bcnt) && j.bstr = 0)

/-- The slice pairs of a job in their order, with t = p + q (06 R147); one pair for the other classes. -/
def slicePairs (s : Nat) : List (Nat × Nat) :=
  if s = 0 then [(1, 1)]
  else (numbers 0 s).flatMap (fun d =>
    let t := s + 1 - d
    let lo := max 1 (t - s)
    (numbers lo (min s (t - 1) + 1 - lo)).map (fun p => (p, t - p)))

/-- How many tiles or chunks a length takes (06 R140). -/
def blocks96 (n : Nat) : Nat := (n + 95) / 96

/-- A position of a job's walk (06 R140). -/
structure MatPos where
  prob : Nat
  ti : Nat
  tj : Nat
  pair : Nat
  chunk : Nat
  deriving DecidableEq, Repr

def readPos (l : List Nat) : MatPos :=
  { prob := l.getD 0 0, ti := l.getD 1 0, tj := l.getD 2 0, pair := l.getD 3 0, chunk := l.getD 4 0 }

def MatPos.list (p : MatPos) : List Nat := [p.prob, p.ti, p.tj, p.pair, p.chunk]

/-- The next tile-step of a walk, if there is one (06 R140, R149). -/
def MatJob.next (j : MatJob) (p : MatPos) : Option MatPos :=
  if p.chunk + 1 < blocks96 j.k then some { p with chunk := p.chunk + 1 }
  else if p.pair + 1 < (slicePairs j.s).length then some { p with pair := p.pair + 1, chunk := 0 }
  else if p.tj + 1 < blocks96 j.n then some { p with tj := p.tj + 1, pair := 0, chunk := 0 }
  else if p.ti + 1 < blocks96 j.m then some { p with ti := p.ti + 1, tj := 0, pair := 0, chunk := 0 }
  else if p.prob + 1 < j.problems then some { prob := p.prob + 1, ti := 0, tj := 0, pair := 0, chunk := 0 }
  else none

/-- Whether a position names a tile-step (15 R378). -/
def MatJob.names (j : MatJob) (p : MatPos) : Bool :=
  decide (p.prob < j.problems) && decide (p.ti < blocks96 j.m) && decide (p.tj < blocks96 j.n) &&
  decide (p.pair < (slicePairs j.s).length) && decide (p.chunk < blocks96 j.k)

/-- The rows and columns of an output tile. -/
def MatJob.rows (j : MatJob) (p : MatPos) : Nat := min 96 (j.m - 96 * p.ti)
def MatJob.cols (j : MatJob) (p : MatPos) : Nat := min 96 (j.n - 96 * p.tj)
/-- The length of a chunk. -/
def MatJob.depth (j : MatJob) (p : MatPos) : Nat := min 96 (j.k - 96 * p.chunk)

/-- Elements `i` to `i + n - 1`, of `w` bits, of the row at an address (03 R60; 06 R136). -/
def Seat.elements (q : Seat) (va i n w : Nat) : J (List Nat) := do
  let lo := i * w / 8
  let v ← q.span (va + lo) (((i + n) * w + 7) / 8 - lo)
  return (numbers 0 n).map (fun t => v / 2 ^ ((i + t) * w - 8 * lo) % 2 ^ w)

/-- The rows of a block: `rows` rows from `r`, `n` elements each from `i`. -/
def Seat.rowsOf (q : Seat) (base pitch w r rows i n : Nat) : J (List (List Nat)) :=
  (numbers r rows).mapM (fun x => q.elements (base + 32 * pitch * x) i n w)

/-- A block with rows and columns exchanged. -/
def transpose (n : Nat) (l : List (List Nat)) : List (List Nat) := (numbers 0 n).map (fun i => l.map (fun r => r.getD i 0))

/-- The A rows and the B columns of a tile-step (06 R136, R140). Where several lines of a step fault, the first in the order of A's rows
and then B's, by rising address, gives the job's status, and C's stand at the tile's end (DESIGN CHOICE, notes/assumptions/62.md). -/
def Seat.operands (q : Seat) (j : MatJob) (p : MatPos) : J (List (List Nat) × List (List Nat)) := do
  let off := p.prob * j.bstr * 4096
  let k0 := 96 * p.chunk
  let n := j.depth p
  let wa := elemBits j.fa
  let wb := elemBits j.fb
  let a ← if j.ta then do
      let l ← q.rowsOf (j.a + off) j.lda wa k0 n (96 * p.ti) (j.rows p)
      pure (transpose (j.rows p) l)
    else q.rowsOf (j.a + off) j.lda wa (96 * p.ti) (j.rows p) k0 n
  let b ← if j.tb then q.rowsOf (j.b + off) j.ldb wb (96 * p.tj) (j.cols p) k0 n
    else do
      let l ← q.rowsOf (j.b + off) j.ldb wb k0 n (96 * p.tj) (j.cols p)
      pure (transpose (j.cols p) l)
  return (a, b)

/-- The value of an integer element (03 R62, R71). -/
def intElem (code v : Nat) : Int :=
  match code with
  | 0 => (BitVec.ofNat 4 v).toInt
  | 2 => (BitVec.ofNat 8 v).toInt
  | 4 => (BitVec.ofNat 16 v).toInt
  | 6 => if v = 0 then 1 else -1
  | _ => v

/-- The float format of a code of 03 R59. -/
def matFmt : Nat → Fmt
  | 7 | 23 => .e4m3'
  | 8 => .e5m2
  | 9 | 22 => .fp16
  | 10 | 21 => .bf16
  | 11 => .fp19
  | 16 | 20 => .fp64
  | _ => .fp32

/-- A logarithmic element as an L8 sign and code (03 R72, R73). -/
def logElem (code v : Nat) : Bool × Nat :=
  match code with
  | 12 => (decide (8 ≤ v % 16), if v % 8 = 0 then 0 else 4 * (v % 8) + 48)
  | 13 => (decide (32 ≤ v % 64), if v % 32 = 0 then 0 else 2 * (v % 32) + 32)
  | _ => (decide (128 ≤ v % 256), v % 128)

/-- The table T of 03 R74. -/
def logTable : List Nat := [32768, 35734, 38968, 42495, 46341, 50535, 55109, 60097]

/-- The product of two logarithmic elements (03 R74). -/
def logProduct (a b : Bool × Nat) : Fp :=
  if a.2 = 0 || b.2 = 0 then .fin false 0 0
  else
    let c : Int := (a.2 : Int) + b.2 - 128
    .fin (a.1 != b.1) (logTable.getD (c % 8).toNat 0) (c / 8 - 15)

/-- The exact sum of a chunk's products; specials as 06 R145 says, and an exact zero is +0 (06 R144). -/
def sumProducts (l : List Fp) : Fp :=
  let nan := l.any Fp.isNan
  let pos := l.any (fun x => x = .inf false)
  let neg := l.any (fun x => x = .inf true)
  if nan || (pos && neg) then .nan false
  else if pos then .inf false
  else if neg then .inf true
  else
    let (s, e) := l.foldl (fun (t : Int × Int) x => match x with
      | .fin n m e =>
        if m = 0 then t
        else
          let lo := min t.2 e
          let v : Int := (m * 2 ^ (e - lo).toNat : Nat)
          (t.1 * 2 ^ (t.2 - lo).toNat + (if n then -v else v), lo)
      | _ => t) ((0 : Int), (0 : Int))
    if s = 0 then .fin false 0 0 else .fin (decide (s < 0)) s.natAbs e

/-- The accumulator's float format (06 R137). -/
def MatJob.accFmt (j : MatJob) : Fmt := if j.fd = 20 then .fp64 else .fp32

/-- The accumulator's bits in an integer job. -/
def MatJob.accBits (j : MatJob) : Nat := if j.fd = 18 then 64 else 32

/-- The group exponent (03 R79): the least e with every finite non-zero magnitude below 2^e. -/
def groupExponent (l : List Fp) : Option Int :=
  l.foldl (fun o x => match x with
    | .fin _ m e =>
      if m = 0 then o
      else
        let t := e + (Nat.log2 m : Int) + 1
        some (match o with
          | none => t
          | some u => max t u)
    | _ => o) none

/-- Slice p of an element (03 R79). -/
def sliceElem (e : Int) (p : Nat) : Fp → Int
  | .fin n m x =>
    let h := x + 7 * p - e
    let v : Int := ((if 0 ≤ h then m * 2 ^ h.toNat else m / 2 ^ (-h).toNat) % 128 : Nat)
    if n then -v else v
  | _ => 0

/-- An accumulator of the extended format (06 R148, R154): its value as a signed multiple of a power of two, and its tag. -/
def extRead (x : BitVec 128) : Int × Int × Nat :=
  let m : Int := (x.toNat / 2 ^ 16 % 2 ^ 96 : Nat)
  let e : Int := (x.toNat / 2 ^ 112 % 2 ^ 15 : Nat)
  (if x.getLsbD 127 then -m else m, e - 16383 - 95, x.toNat % 4)

/-- Rounds a value to the extended format (06 R148). -/
def extWrite (v e : Int) (tag : Nat) : BitVec 128 :=
  if v = 0 then BitVec.ofNat 128 tag
  else
    let q := e + (Nat.log2 v.natAbs : Int) - 95
    let (n, _) := roundAt 0 (decide (v < 0)) v.natAbs e false q
    let (n, q) := if n = 2 ^ 96 then (2 ^ 95, q + 1) else (n, q)
    BitVec.ofNat 128 ((if v < 0 then 2 ^ 127 else 0) + (q + 95 + 16383).toNat % 2 ^ 15 * 2 ^ 112 + n * 2 ^ 16 + tag)

/-- The tag of a special value (06 R154). -/
def tagOfValue : Fp → Nat
  | .nan _ => 3
  | .inf n => if n then 2 else 1
  | .fin _ _ _ => 0

/-- Two special values together (06 R150). -/
def joinTags (a b : Nat) : Nat := if a = 0 then b else if b = 0 || a = b then a else 3

/-- X + Z · 2^e in the extended format (06 R149), with the specials of a chunk (06 R150). -/
def extAdd (x : BitVec 128) (z e : Int) (tag : Nat) : BitVec 128 :=
  let (v, ex, t) := extRead x
  let t' := joinTags t tag
  if z = 0 then (if t = t' then x else extWrite v ex t')
  else
    let lo := min ex e
    if v = 0 then extWrite z e t'
    else extWrite (v * 2 ^ (ex - lo).toNat + z * 2 ^ (e - lo).toNat) lo t'

/-- What one tile-step does to the accumulators (06 R144, R145, R149, R150). -/
def MatJob.accumulate (j : MatJob) (p : MatPos) (acc : List (BitVec 128)) (a b : List (List Nat)) : List (BitVec 128) :=
  let x0 := if acc.isEmpty then List.replicate (a.length * b.length) 0 else acc
  match j.cls with
  | some .integer =>
    let a' := a.map (fun r => r.map (intElem j.fa))
    let b' := b.map (fun r => r.map (intElem j.fb))
    let z := a'.flatMap (fun r => b'.map (fun c => (List.zipWith (· * ·) r c).foldl (· + ·) (0 : Int)))
    List.zipWith (fun (x : BitVec 128) z => BitVec.ofNat 128 (((x.toNat : Int) + z) % 2 ^ j.accBits).toNat) x0 z
  | some .sliced =>
    let (sp, sq) := (slicePairs j.s).getD p.pair (1, 1)
    let f := matFmt j.fa
    let prep := fun (n : Nat) (r : List Nat) =>
      let l := r.map f.read
      let e := groupExponent l
      (l, e, l.map (sliceElem (e.getD 0) n))
    let a' := a.map (prep sp)
    let b' := b.map (prep sq)
    let step := fun (x : BitVec 128) (u v : List Fp × Option Int × List Int) =>
      let tag := tagOfValue (sumProducts ((List.zipWith (fun s t => (fpMul s t).1) u.1 v.1).filter (fun y => tagOfValue y != 0)))
      match u.2.1, v.2.1 with
      | some e, some g =>
        let z := (List.zipWith (· * ·) u.2.2 v.2.2).foldl (· + ·) (0 : Int)
        extAdd x z (e + g - 7 * ((sp + sq : Nat) : Int)) tag
      | _, _ => extAdd x 0 0 tag
    List.zipWith (fun (x : BitVec 128) (uv : _ × _) => step x uv.1 uv.2) x0 (a'.flatMap (fun u => b'.map (fun v => (u, v))))
  | cls =>
    let f := j.accFmt
    let z := if cls = some .logarithmic then
        let a' := a.map (fun r => r.map (logElem j.fa))
        let b' := b.map (fun r => r.map (logElem j.fb))
        a'.flatMap (fun r => b'.map (fun c => sumProducts (List.zipWith logProduct r c)))
      else
        let a' := a.map (fun r => r.map (matFmt j.fa).read)
        let b' := b.map (fun r => r.map (matFmt j.fb).read)
        a'.flatMap (fun r => b'.map (fun c => sumProducts (List.zipWith (fun s t => (fpMul s t).1) r c)))
    List.zipWith (fun (x : BitVec 128) z => BitVec.ofNat 128 (f.write 0 (fpAdd 0 (f.read x.toNat) z).1).1) x0 z

/-- A zero of a float format is +0 (06 R144, R149). -/
def plusZero (w v : Nat) : Nat := if v % 2 ^ (w - 1) = 0 then 0 else v

/-- The final value of an element, from its accumulator and the element of C, if there is one (06 R144, R149, R150). -/
def MatJob.result (j : MatJob) (x : BitVec 128) (c : Option Nat) : Nat :=
  match j.cls with
  | some .integer =>
    let w := elemBits j.fc
    let c' : Int := match c with
      | none => 0
      | some v => if 2 ^ (w - 1) ≤ v then (v : Int) - 2 ^ w else v
    (((x.toNat : Int) + c') % 2 ^ j.accBits).toNat
  | some .sliced =>
    let g := matFmt j.fd
    let (v, e, t) := extRead x
    let cv := (c.map (matFmt j.fc).read).getD (.fin false 0 0)
    let t' := joinTags t (tagOfValue cv)
    if t' = 3 then g.nanBits
    else if t' != 0 then g.signed (t' = 2) g.infBits
    else
      match cv with
      | .fin n m ce =>
        let (s, se) := exactSum (decide (v < 0)) v.natAbs e n m ce
        if s = 0 then 0 else plusZero (elemBits j.fd) (g.round 0 (decide (s < 0)) s.natAbs se).1
      | _ => 0
  | _ =>
    let f := j.accFmt
    let g := matFmt j.fd
    let y := match c with
      | none => x.toNat % 2 ^ 64
      | some v => (f.write 0 (fpAdd 0 (f.read x.toNat) (f.read (f.write 0 ((matFmt j.fc).read v)).1)).1).1
    plusZero (elemBits j.fd) (g.write 0 (f.read y)).1

/-- The destination of a finished output tile is written: into the shadow, or granule by granule, once every row has its final values
(06 R157). -/
def Seat.finishTile (q : Seat) (room : Bool) (j : MatJob) (p : MatPos) (acc : List (BitVec 128)) : J Unit := do
  let off := p.prob * j.bstr * 4096
  let cols := j.cols p
  let zd := elemBits j.fd / 8
  let rows ← (numbers 0 (j.rows p)).mapM (fun x => do
    let i := 96 * p.ti + x
    let row := (acc.drop (x * cols)).take cols
    let cs ← if j.acc then do
        let l ← q.elements (j.c + off + 32 * j.ldc * i) (96 * p.tj) cols (elemBits j.fc)
        pure (l.map some)
      else pure (List.replicate cols none)
    let vals := List.zipWith j.result row cs
    return (i, vals.foldr (fun v t => v % 2 ^ (8 * zd) + 2 ^ (8 * zd) * t) 0))
  for (i, v) in rows do
    let va := j.d + off + 32 * j.ldd * i + zd * 96 * p.tj
    if j.dmode = 1 then q.fill va (cols * zd) v else q.writeShadow room va (cols * zd) v

/-- The checks of a job's destination at a boundary (06 R156; 14 R344). -/
def Seat.checkTarget (q : Seat) (j : MatJob) : J Unit := do
  let n := j.n * elemBits j.fd / 8
  q.checkFrames
  for p in numbers 0 j.problems do
    if j.dmode = 1 then
      let va := j.d + p * j.bstr * 4096
      if (← getS).fillable q.job.ctx (va / 2 ^ 24 % 16384) then pure () else q.deny va
    else
      for i in numbers 0 j.m do q.checkDest (j.d + p * j.bstr * 4096 + 32 * j.ldd * i) n

/-- The lines of A and B that a tile-step reads, as far as they are translated. -/
def stepLines (core ctx jid : Nat) (j : MatJob) (p : MatPos) : M (List (Nat × Attr)) := do
  let off := p.prob * j.bstr * 4096
  let k0 := 96 * p.chunk
  let n := j.depth p
  let seg := fun (base pitch w r i len : Nat) =>
    linesOf (base + off + 32 * pitch * r + i * w / 8) (((i + len) * w + 7) / 8 - i * w / 8)
  let wa := elemBits j.fa
  let wb := elemBits j.fb
  let vas := (if j.ta then (numbers k0 n).flatMap (fun r => seg j.a j.lda wa r (96 * p.ti) (j.rows p))
      else (numbers (96 * p.ti) (j.rows p)).flatMap (fun r => seg j.a j.lda wa r k0 n)) ++
    (if j.tb then (numbers (96 * p.tj) (j.cols p)).flatMap (fun r => seg j.b j.ldb wb r k0 n)
      else (numbers k0 n).flatMap (fun r => seg j.b j.ldb wb r (96 * p.tj) (j.cols p)))
  let mut out := []
  for l in vas.dedup do
    match ← engineXlat core ctx (32 * l) 0 (false, jid) with
    | .ok pg => out := out ++ [(pg.pa / 32, pg.attr)]
    | _ => pure ()
  return out

/-- The fetch unit pins the A and B lines of a job's next tile-step, unless two steps' operands are pinned already (06 R143;
08 R191). -/
def pinNext (k : Nat) (j : Job) (m : MatJob) (p : MatPos) : M Unit := do
  let e := (← getS).engine k false
  if 2 ≤ (e.jobs.filter (fun x => !x.pinned.isEmpty)).length then pure ()
  else
    let mut got := []
    for l in ← stepLines j.core j.ctx j.jid m p do
      if (← getS).bypasses l.1 then pure () else fillHome l.1 (l.2 = .coh)
      let s ← getS
      match find s.l2 l.1 with
      | some x =>
        if x.data.isSome && !got.contains l.1 then
          set { s with l2 := put s.l2 l.1 { x with pins := x.pins + 1 } }
          got := got ++ [l.1]
        else pure ()
      | none => pure ()
    let lines := got
    modJob k false j.jid (fun j => { j with pinned := lines })

/-- The job at the head of a core's queue (06 R139). -/
def Engine.current (e : Engine) (core : Nat) : Option Job := e.jobs.find? (fun j => j.core % 8 = core)

/-- Whether a core's current trestle job is runnable (06 R142, R154, R157). -/
def Engine.canRun (e : Engine) (core : Nat) : Bool :=
  match e.current core with
  | some j => !j.ready && j.saved.isNone && !e.stopped j
  | none => false

/-- The core whose job takes the next tile-step (06 R142). -/
def Engine.nextCore (e : Engine) : Option Nat :=
  if decide (0 < e.turn) && e.canRun e.pointer then some e.pointer
  else ((numbers 1 8).map (fun d => (e.pointer + d) % 8)).find? e.canRun

/-- The job that runs in a trestle. -/
def Engine.running (e : Engine) : Option Job := e.nextCore.bind e.current

/-- One tile-step of a job (06 R138, R149, R153, R156, R157; 15 R383). -/
def tileOf (mism : Nat) (room fetch : Bool) (q : Seat) : J Unit := do
  let j := q.job
  let m := readMat j.param
  if !j.started && (← getS).matBad q.k j.kind j.param then endWith 6 0
  else
    q.checkTarget m
    modJob q.k false j.jid (fun j => { j with started := true })
    let p := readPos j.pos
    let (a, b) ← q.operands m p
    if 1 ≤ mism then modEngine q.k false (fun e => { e with retries := e.retries + 1 }) else pure ()
    if 2 ≤ mism then
      post j.core { words := [recordWord 3 0 29 j.ctx 0 j.jid, word j.jid, 0, 0], tid := none, uid := 0 }
      endWith 4 0
    else
      let acc := m.accumulate p j.acc a b
      unpin j.pinned
      let next := m.next p
      let closed := match next with
        | none => true
        | some n => n.pair = 0 && n.chunk = 0
      modJob q.k false j.jid (fun j => { j with
        acc := if closed then [] else acc
        pinned := [] })
      if closed then q.finishTile room m p acc else pure ()
      match next with
      | some n => do
        modJob q.k false j.jid (fun j => { j with pos := n.list })
        if fetch then pinNext q.k j m n else pure ()
        stepDone q.k false j.jid (← timeOf q.agent)
      | none =>
        lastStep q.k false j.jid
        if m.dmode = 1 then endWith 0 0
        else modJob q.k false j.jid (fun j => { j with ready := true })

/-- TILE_STEP (06 R142, R149): the next core's job takes a tile-step, or ends CANCELLED at this boundary (06 R156). `mism`: how
often its checksum fails (06 R153); `room`: the homes have room for new shadow lines; `fetch`: the fetch unit pins the next
operands. -/
def execTileStep (cluster mism : Nat) (room fetch : Bool) (s : State) : Host.Outcome State Fault Refusal :=
  unit (.tileStep cluster mism room fetch) (do
    let s ← getS
    let e := s.engine cluster false
    let core ← needSome e.nextCore
    let j ← needSome (e.current core)
    let again := decide (0 < e.turn) && e.pointer = core
    modEngine cluster false (fun e => { e with
      pointer := core
      turn := (if again then e.turn else max 1 (s.weight j.core j.ctx)) - 1 })
    if j.cancel then endJob cluster false j 7 0 else runJob cluster false j (tileOf mism room fetch)
    modEngine cluster false (fun e =>
      if e.jobs.any (fun x => x.jid = j.jid && !x.ready) then e else { e with turn := 0 })) s

/-- TRESTLE_ACCEPT (06 R158). -/
def execTrestleAccept (tid : Nat) (s : State) : Host.Outcome State Fault Refusal :=
  unit (.trestleAccept tid) (do
    let _ ← acceptJob tid false
    pure ()) s

/-- PUBLISH (09 R223). -/
def execPublish (cluster : Nat) (copy : Bool) (core : Nat) (s : State) : Host.Outcome State Fault Refusal :=
  unit (.publish cluster copy core) (publish cluster copy core) s

/-- The save area of a trestle job (06 R154). -/
def Job.area (j : Job) : List Word :=
  let m := readMat j.param
  let p := readPos j.pos
  let cols := m.cols p
  let cell := fun (x y : Nat) => if x < m.rows p && y < cols then j.acc.getD (x * cols + y) 0 else 0
  (numbers 0 8).map (fun k => j.param.getD k 0) ++
  [setBits (setBits (setBits (setBits (setBits 0 63 48 p.prob) 47 34 p.ti) 33 20 p.tj) 19 14 p.pair) 13 0 p.chunk,
   setBits (setBits 0 27 16 j.ctx) 15 0 j.jid] ++ List.replicate 6 (0 : Word) ++
  (numbers 0 96).flatMap (fun x => (numbers 0 96).flatMap (fun y =>
    [(cell x y).setWidth 64, (cell x y >>> 64).setWidth 64]))

/-- A job's state is saved, and its engine goes on with others (06 R154; 10 R253; 15 R378). -/
def saveJob (k : Nat) (copy : Bool) (area : Job → M (List Word)) : M Unit := do
  let e := (← getS).engine k copy
  let p ← needSome e.pre
  need p.stepped
  let j ← needSome (e.jobs.find? (fun j => j.jid = p.jid))
  physWrites p.addr (← area j)
  unpin j.pinned
  dropMisses k copy j.jid
  let floor := (← getS).floor
  modJob k copy j.jid (fun j => { j with
    saved := some p.addr
    savedTime := extendTime floor j.time
    pinned := [] })
  modEngine k copy (fun e => { e with
    pre := none
    preJob := j.jid
    turn := if e.pointer = j.core % 8 then 0 else e.turn })
  if j.cancel then endJob k copy { j with pinned := [] } 7 0 else pure ()

/-- TRESTLE_SAVE (06 R154; 15 R378). -/
def execTrestleSave (cluster : Nat) (s : State) : Host.Outcome State Fault Refusal :=
  unit (.trestleSave cluster) (saveJob cluster false (fun j => pure j.area)) s

/-- TRESTLE_PRE (15 R378). -/
def execTrestlePre (cluster : Nat) (v : Word) (s : State) : Host.Outcome State Fault Refusal :=
  unit (.trestlePre cluster v) (do
    writePre cluster false v ((← getS).engine cluster false).running) s

/-- A saved job is resumed from its area, or ended (15 R378). `read` answers the job as the area gives it, or none where the area
breaks a rule. -/
def resumeJob (k : Nat) (copy : Bool) (v : Word) (size : Job → Nat) (read : Job → List Word → M (Option Job)) : M Unit := do
  let e := (← getS).engine k copy
  let addr := bits v 51 7 * 128
  let result := fun (n : Nat) => modEngine k copy (fun e => { e with res := n })
  match e.jobs.find? (fun j => j.saved = some addr) with
  | none => result 1
  | some j => do
    let (ws, bad) ← physReads addr (size j)
    match bad with
    | some l => do
      result 2
      endJob k copy j 5 l
    | none =>
      if bits (ws.getD 9 0) 27 16 != j.ctx || bits (ws.getD 9 0) 15 0 != j.jid then do
        result 3
        endJob k copy j 6 0
      else match ← read j ws with
        | none => do
          result 3
          endJob k copy j 6 0
        | some j' => do
          result 0
          modJob k copy j.jid (fun _ => { j' with saved := none })

/-- A trestle job as its area gives it, or none where the area breaks a rule (15 R378); the engine learns the job's time (09 R225). -/
def trestleFrom (cluster : Nat) (j : Job) (ws : List Word) : M (Option Job) := do
  let s ← getS
  let param := ws.take 8
  let m := readMat param
  let w := ws.getD 8 0
  let p : MatPos := { prob := bits w 63 48, ti := bits w 47 34, tj := bits w 33 20, pair := bits w 19 14, chunk := bits w 13 0 }
  if s.matBad cluster j.kind param || !m.names p then return none
  else do
    let t := returnTime s.floor j.savedTime
    raise (.trestle cluster) t
    let cell := fun (x y : Nat) =>
      let n := 16 + 2 * (96 * x + y)
      BitVec.ofNat 128 ((ws.getD n 0).toNat + 2 ^ 64 * (ws.getD (n + 1) 0).toNat)
    return some { j with
      param := param
      pos := p.list
      time := t
      acc := (numbers 0 (m.rows p)).flatMap (fun x => (numbers 0 (m.cols p)).map (cell x)) }

/-- TRESTLE_RES (15 R378). -/
def execTrestleRes (cluster : Nat) (v : Word) (s : State) : Host.Outcome State Fault Refusal :=
  unit (.trestleRes cluster v) (resumeJob cluster false v (fun _ => 18448) (trestleFrom cluster)) s

end Sys2Proof.Machine
end

