-- ==== Sys2Proof/Machine/Copy.lean ====
section
/-! DEFINITION. Copy jobs (10 R248 to R254; 15 R378): parameters, transfer units, transfers with other packages, saving and
resuming, and the copy unit's events. -/

namespace Sys2Proof.Machine

/-- The fields of a copy job's parameter group (10 R249). -/
structure CopyJob where
  src : Nat
  dst : Nat
  idx : Nat
  nrow : Nat
  rowlen : Nat
  spitch : Nat
  dpitch : Nat
  op : Nat
  fmt : Nat
  dmode : Nat
  oobz : Bool
  arg : Word
  pkg : Nat
  rctx : Nat
  rkey : Nat
  deriving DecidableEq, Repr

/-- Reads a parameter group (10 R249). -/
def readCopy (ws : List Word) : CopyJob :=
  let w := fun k => ws.getD k 0
  { src := bits (w 0) 54 0, dst := bits (w 1) 54 0, idx := bits (w 2) 54 0
    nrow := bits (w 3) 63 32, rowlen := bits (w 3) 31 0, spitch := bits (w 4) 63 32, dpitch := bits (w 4) 31 0
    op := bits (w 5) 63 60, fmt := bits (w 5) 59 55, dmode := bits (w 5) 54 53, oobz := bit (w 5) 52
    arg := w 6, pkg := bits (w 7) 63 44, rctx := bits (w 7) 43 32, rkey := bits (w 7) 31 0 }

/-- Whether a job names rows by an index (10 R251). -/
def CopyJob.indexed (j : CopyJob) : Bool := j.op = 2 || j.op = 3
/-- Whether a job is a transfer with another package (10 R252). -/
def CopyJob.remote (j : CopyJob) : Bool := j.op = 4 || j.op = 5

/-- The byte after the last of some rows. -/
def CopyJob.top (j : CopyJob) (base pitch : Nat) : Nat := base + pitch * (j.nrow - 1) + j.rowlen

/-- Whether a parameter group breaks 10 R250. A shape of 0 is outside its range. DESIGN CHOICE (log 67): the word that holds idx is
ignored whole by COPY, FILL, PUT and GET. -/
def State.copyBad (s : State) (cluster : Nat) (ws : List Word) : Bool :=
  let w := fun k => ws.getD k 0
  let j := readCopy ws
  let reserved := bits (w 0) 63 55 != 0 || bits (w 1) 63 55 != 0 || (j.indexed && bits (w 2) 63 55 != 0) || decide (5 < j.op) ||
    decide (2 ≤ j.dmode) || bits (w 5) 51 0 != 0 || (j.op = 0 && j.arg != 0) || (j.remote && bits j.arg 63 55 != 0) ||
    (!j.remote && w 7 != 0)
  let align := j.src % 8 != 0 || j.dst % 8 != 0 || (j.indexed && j.idx % 4 != 0) || j.nrow = 0 || j.rowlen = 0 || j.rowlen % 8 != 0 ||
    j.spitch % 8 != 0 || j.dpitch % 8 != 0 || (j.remote && bits j.arg 2 0 != 0)
  let format := if j.op = 3 then decide (j.fmt < 17) || decide (22 < j.fmt) || j.rowlen % (elemBits j.fmt / 8) != 0 else j.fmt != 0
  let self := j.remote && j.pkg = s.boot.pkgid
  let add := j.op = 3 && (j.dmode != 0 || decide (256 < j.rowlen) || j.dpitch % 256 != 0 || decide (256 < j.dst % 256 + j.rowlen))
  let granules := j.dmode = 1 && (j.op = 3 || j.op = 4 || s.granuleBad cluster j.dst (j.dpitch * (j.nrow - 1) + j.rowlen) ||
    j.dst % 16 != 0 || j.rowlen % 16 != 0 || j.dpitch % 16 != 0)
  let space := ((j.op = 0 || j.op = 3 || j.op = 4) && decide (apertureBase < j.top j.src j.spitch)) ||
    (j.indexed && decide (apertureBase < j.idx + 4 * j.nrow)) ||
    (j.dmode = 0 && (j.op ≤ 2 || j.op = 5) && decide (apertureBase < j.top j.dst j.dpitch))
  reserved || align || format || self || add || granules || space

/-- The copy job of a core that has the turn among its CPY jobs: the oldest (10 R248). -/
def Engine.copyCurrent (e : Engine) (core : Nat) : Option Job := e.jobs.find? (fun j => j.core % 8 = core && j.kind = 2)

/-- The instance of a collective job. -/
def State.collOf (s : State) (j : Job) : Option Coll :=
  (find s.contexts j.ctx).bind (fun c => c.colls.find? (fun x => x.grp = j.grp && x.inst = j.inst))

/-- Whether an instance has every contribution that its result needs (10 R256, R257). -/
def Coll.complete (c : Coll) : Bool :=
  decide (c.joined.length = c.members.length) &&
  (if bits (c.shape.getD 1 0) 63 60 = 2 then (find c.parts (bits (c.shape.getD 1 0) 31 0)).isSome
   else decide (c.parts.length = c.members.length))

/-- Whether a job of the copy unit can take a transfer unit (10 R248, R253, R256). -/
def State.copyRuns (s : State) (e : Engine) (j : Job) : Bool :=
  !j.ready && j.saved.isNone && !e.stopped j &&
  (if j.kind = 2 then (e.copyCurrent (j.core % 8)).map (·.jid) = some j.jid && !j.sent
   else j.cancel || match s.collOf j with
     | some c => c.failed.isSome || !j.given || c.complete
     | none => false)

/-- The core whose turn the next transfer unit is (10 R248). -/
def State.copyTurn (s : State) (k : Nat) : Option Nat :=
  let e := s.engine k true
  ((numbers 1 8).map (fun d => (e.pointer + d) % 8)).find? (fun c => e.jobs.any (fun j => j.core % 8 = c && s.copyRuns e j))

/-- Whether a job is a GET whose bytes arrive (10 R252). -/
def Engine.arriving (e : Engine) (j : Job) : Bool :=
  j.kind = 2 && (e.copyCurrent (j.core % 8)).map (·.jid) = some j.jid && (readCopy j.param).op = 5 && j.sent && !j.ready &&
  j.saved.isNone && !e.stopped j

/-- The job that runs in a copy unit (15 R378): the first of the core whose turn it is; where no core has one, a GET whose bytes
arrive. -/
def State.copyRunning (s : State) (k : Nat) : Option Job :=
  let e := s.engine k true
  match s.copyTurn k with
  | some c => e.jobs.find? (fun j => j.core % 8 = c && s.copyRuns e j)
  | none => e.jobs.find? e.arriving

/-- The checks of a copy job's local destination at a boundary (06 R156; 14 R344). -/
def Seat.checkCopy (q : Seat) (j : CopyJob) : J Unit := do
  q.checkFrames
  if j.op = 3 || j.op = 4 then pure ()
  else if j.dmode = 1 then
    if (← getS).fillable q.job.ctx (j.dst / 2 ^ 24 % 16384) then pure () else q.deny j.dst
  else
    for r in numbers 0 j.nrow do q.checkDest (j.dst + r * j.dpitch) j.rowlen

/-- Writes bytes of the destination. -/
def Seat.write (q : Seat) (room : Bool) (j : CopyJob) (va n v : Nat) : J Unit :=
  if j.dmode = 1 then q.fill va n v else q.writeShadow room va n v

/-- The row of the indexed table that row r names (10 R251): none where an index is out of range and skipped. -/
def Seat.index (q : Seat) (j : CopyJob) (r : Nat) : J (Option Nat) := do
  let k ← q.span (j.idx + 4 * r) 4
  if k < j.arg.toNat then return some k
  else if j.oobz then return none
  else q.deny (j.idx + 4 * r)

/-- An indexed row lies below the aperture (10 R251). -/
def Seat.checkRow (q : Seat) (va n : Nat) : J Unit := if apertureBase < va + n then q.deny (max va apertureBase) else pure ()

/-- The job goes on after a transfer unit of `n` bytes, or is done (10 R253, R254). -/
def Seat.advance (q : Seat) (j : CopyJob) (row off n : Nat) : J Unit := do
  let next := if off + n < j.rowlen then some [row, off + n] else if row + 1 < j.nrow then some [row + 1, 0] else none
  match next with
  | some p => do
    modJob q.k true q.job.jid (fun x => { x with pos := p })
    stepDone q.k true q.job.jid (← timeOf q.agent)
  | none =>
    lastStep q.k true q.job.jid
    if j.op = 4 then modJob q.k true q.job.jid (fun x => { x with sent := true })
    else if j.op = 3 || j.dmode = 1 then endWith 0 0
    else modJob q.k true q.job.jid (fun x => { x with ready := true })

/-- One transfer unit of a copy job (10 R248 to R254): the checks at its start and at each boundary, then `act`
on the row, the offset and the length. -/
def unitOf (act : Seat → CopyJob → Nat → Nat → Nat → J Unit) (q : Seat) : J Unit := do
  let x := q.job
  let j := readCopy x.param
  if !x.started && (← getS).copyBad q.k x.param then endWith 6 0
  else
    q.checkCopy j
    modJob q.k true x.jid (fun x => { x with started := true })
    let row := x.pos.getD 0 0
    let off := x.pos.getD 1 0
    let n := min 256 (j.rowlen - off)
    act q j row off n
    q.advance j row off n

/-- The turn of a core's copy job (10 R248): a cancelled job ends at this boundary (10 R254). -/
def copyEvent (k core op : Nat) (act : Seat → CopyJob → Nat → Nat → Nat → J Unit) : M Unit := do
  let s ← getS
  need (s.copyTurn k = some core)
  let e := s.engine k true
  let j ← needSome (e.copyCurrent core)
  need (s.copyRuns e j && bits (j.param.getD 5 0) 63 60 = op)
  modEngine k true (fun e => { e with pointer := core })
  if j.cancel then endJob k true j 7 0 else runJob k true j (unitOf act)

/-- COPY (10 R251). -/
def execCopy (cluster coreIn : Nat) (room : Bool) (s : State) : Host.Outcome State Fault Refusal :=
  unit (.copy cluster coreIn room) (copyEvent cluster coreIn 0 (fun q j r off n => do
    let v ← q.span (j.src + r * j.spitch + off) n
    q.write room j (j.dst + r * j.dpitch + off) n v)) s

/-- FILL (10 R251). -/
def execFill (cluster coreIn : Nat) (room : Bool) (s : State) : Host.Outcome State Fault Refusal :=
  unit (.fill cluster coreIn room) (copyEvent cluster coreIn 1 (fun q j r off n =>
    q.write room j (j.dst + r * j.dpitch + off) n
      ((List.replicate (n / 8) j.arg).foldr (fun w t => w.toNat + 2 ^ 64 * t) 0))) s

/-- GATHER (10 R251). -/
def execGather (cluster coreIn : Nat) (room : Bool) (s : State) : Host.Outcome State Fault Refusal :=
  unit (.gather cluster coreIn room) (copyEvent cluster coreIn 2 (fun q j r off n => do
    match ← q.index j r with
    | none => q.write room j (j.dst + r * j.dpitch + off) n 0
    | some k => do
      q.checkRow (j.src + k * j.spitch) j.rowlen
      let v ← q.span (j.src + k * j.spitch + off) n
      q.write room j (j.dst + r * j.dpitch + off) n v)) s

/-- The sum of two elements of a format (10 R251, R257). -/
def addElem (fmt a b : Nat) : Nat :=
  if fmt = 17 || fmt = 18 then (a + b) % 2 ^ elemBits fmt else ((matFmt fmt).add 0 a b).1

/-- Elements of `w` bits combined position by position. -/
def zipElems (f : Nat → Nat → Nat) (w n a b : Nat) : Nat :=
  (numbers 0 (8 * n / w)).foldr (fun i t => f (a / 2 ^ (w * i) % 2 ^ w) (b / 2 ^ (w * i) % 2 ^ w) % 2 ^ w + 2 ^ w * t) 0

/-- The add of a row into its destination: one event at its home (10 R251). -/
def Seat.addRow (q : Seat) (fmt va n v : Nat) : J Unit := do
  let p ← q.dest va n false
  let lines := linesOf p.pa n
  let coh := p.attr = .coh
  if coh then
    need (!lines.any (← getS).isHeld)
    gatherLines lines
    q.meet ((← getS).after (← timeOf q.agent) lines)
  else pure ()
  let t ← timeOf q.agent
  let mut old := 0
  for l in lines do
    let (d, bad) ← if coh then (do return (← getS).homeLine l) else homeRead l
    if bad then endWith 5 ((va - p.pa % 32) / 32 * 32 + 32 * (l - p.pa / 32)) else pure ()
    old := old + d.toNat * 2 ^ (256 * (l - p.pa / 32))
  let new := zipElems (addElem fmt) (elemBits fmt) n (old / 2 ^ (8 * (p.pa % 32)) % 2 ^ (8 * n)) v
  for piece in piecesOf 32 p.pa n do
    let l := piece.1 / 32
    let d : LineData := BitVec.ofNat 256 (new / 2 ^ (8 * (piece.1 - p.pa)) % 2 ^ (8 * piece.2) * 2 ^ (8 * (piece.1 % 32)))
    let m := maskOf (piece.1 % 32) piece.2
    if coh then writeAt t l m d else homeWrite l m d false true

/-- SCATTERADD (10 R251): one row is one transfer unit and one event. -/
def execScatteradd (cluster coreIn : Nat) (s : State) : Host.Outcome State Fault Refusal :=
  unit (.scatteradd cluster coreIn) (copyEvent cluster coreIn 3 (fun q j r _ n => do
    match ← q.index j r with
    | none => pure ()
    | some k => do
      let v ← q.span (j.src + r * j.spitch) n
      q.checkRow (j.dst + k * j.dpitch) n
      q.addRow j.fmt (j.dst + k * j.dpitch) n v)) s

/-- The remote rows of a transfer (10 R252). -/
def CopyJob.rows (j : CopyJob) (pitch : Nat) (bytes : List Byte) : List RmaRow :=
  (numbers 0 j.nrow).map (fun r =>
    { va := bits j.arg 54 0 + r * pitch, len := j.rowlen, data := (bytes.drop (r * j.rowlen)).take j.rowlen })

/-- PUT (10 R252): the local rows are read, and leave once all have been. -/
def execPut (cluster coreIn : Nat) (s : State) : Host.Outcome State Fault Refusal :=
  unit (.put cluster coreIn) (copyEvent cluster coreIn 4 (fun q j r off n => do
    let v ← q.span (j.src + r * j.spitch + off) n
    let bytes := q.job.bytes ++ natBytes n v
    modJob q.k true q.job.jid (fun x => { x with bytes := bytes })
    if r + 1 = j.nrow && j.rowlen ≤ off + n then
      let out : RmaRequest := { pkg := j.pkg, ctx := j.rctx, rkey := j.rkey, put := true, rows := j.rows j.dpitch bytes }
      modS (fun s => { s with rmaSent := s.rmaSent ++ [out] })
    else pure ())) s

/-- GET (10 R252): the request leaves, then each transfer unit's bytes arrive. -/
def execGet (cluster coreIn : Nat) (room : Bool) (answer : RemoteAnswer) (s : State) : Host.Outcome State Fault Refusal :=
  unit (.get cluster coreIn room answer) (do
    let s ← getS
    let e := s.engine cluster true
    let j ← needSome (e.copyCurrent coreIn)
    let c := readCopy j.param
    need (c.op = 5 && !j.ready && j.saved.isNone && !e.stopped j)
    if j.cancel then endJob cluster true j 7 0
    else if !j.sent then do
      need (s.copyTurn cluster = some coreIn)
      modEngine cluster true (fun e => { e with pointer := coreIn })
      runJob cluster true j (fun q => do
        if (← getS).copyBad q.k j.param then endWith 6 0
        else
          q.checkCopy c
          let out : RmaRequest := { pkg := c.pkg, ctx := c.rctx, rkey := c.rkey, put := false, rows := c.rows c.spitch [] }
          modS (fun s => { s with rmaSent := s.rmaSent ++ [out] })
          modJob q.k true j.jid (fun x => { x with
            started := true
            sent := true }))
    else if answer.status = 2 || answer.status = 3 || answer.status = 5 then endJob cluster true j answer.status answer.addr
    else do
      let n := min 256 (c.rowlen - j.pos.getD 1 0)
      need (answer.status = 0 && answer.data.length = n)
      runJob cluster true j (unitOf (fun q c r off n =>
        q.write room c (c.dst + r * c.dpitch + off) n (bytesNat answer.data)))) s

/-- PUT_PUBLISH_ACKNOWLEDGED (10 R252): a put whose bytes have left ends as the remote package answers. -/
def execPutPublishAcknowledged (cluster coreIn : Nat) (answer : RemoteAnswer) (s : State) : Host.Outcome State Fault Refusal :=
  unit (.putPublishAcknowledged cluster coreIn answer) (do
    let s ← getS
    let j ← needSome ((s.engine cluster true).copyCurrent coreIn)
    need ((readCopy j.param).op = 4 && j.sent && (answer.status = 0 || answer.status = 2 || answer.status = 3 || answer.status = 5))
    endJob cluster true j answer.status (if answer.status = 0 then 0 else answer.addr)) s

/-- RETRY_BUDGET_EXHAUSTED (10 R252): a transfer that the transport cannot complete ends FAULT. -/
def execRetryBudgetExhausted (cluster coreIn : Nat) (s : State) : Host.Outcome State Fault Refusal :=
  unit (.retryBudgetExhausted cluster coreIn) (do
    let s ← getS
    let j ← needSome ((s.engine cluster true).copyCurrent coreIn)
    need ((readCopy j.param).remote && j.sent && j.saved.isNone && !j.ready)
    endJob cluster true j 4 0) s

/-- A page of a context that another package reaches (10 R252; 14 R340). -/
def State.contextPage (s : State) (ctx va kind : Nat) : M EngineXlat := do
  match find s.contexts ctx with
  | none => return .denied
  | some c =>
    match ← walk c.root va with
    | .poisoned => return .poison
    | .absent => return .page
    | .leaf level w => return if permits w kind true then .ok (pageOf level w va) else .denied

/-- The window that lets a package reach some bytes of a context (10 R252; 14 R354). -/
def State.windowFor (s : State) (r : RmaRequest) (row : RmaRow) : Bool :=
  match find s.contexts r.ctx with
  | none => false
  | some c => c.windows.any (fun w => w.rkey = r.rkey && w.peer = r.pkg && decide (w.va ≤ row.va) &&
      decide (row.va + row.len ≤ w.va + w.len) && (if r.put then w.put else w.get))

/-- Checks one row of a request: none, or the status and address of its refusal. -/
def checkRma (r : RmaRequest) (row : RmaRow) : M (Option (Nat × Nat)) := do
  let s ← getS
  if !s.windowFor r row then return some (3, row.va)
  else
    let mut out := none
    for p in piecesOf 65536 row.va row.len do
      if out.isNone then
        if apertureBase ≤ p.1 then out := some (3, p.1)
        else match ← s.contextPage r.ctx p.1 (if r.put then 1 else 0) with
          | .ok pg => if r.put && (pg.attr = .rshr || s.inRegion pg.pa p.2) then out := some (3, p.1) else pure ()
          | .page => out := some (2, p.1)
          | .denied => out := some (3, p.1)
          | .poison => out := some (5, p.1 / 32 * 32)
      else pure ()
    return out

/-- The bytes of a row that another package reads, from their homes; the second value is the address of a poisoned line. -/
def readRma (ctx va n : Nat) : M (List Byte × Option Nat) := do
  let mut out := []
  let mut bad := none
  for p in piecesOf 32 va n do
    match ← (← getS).contextPage ctx p.1 0 with
    | .ok pg => do
      let l := pg.pa / 32
      if pg.attr = .coh then recallNow l true else pure ()
      let (d, poison) ← homeRead l
      if poison && bad.isNone then bad := some (p.1 / 32 * 32) else pure ()
      out := out ++ natBytes p.2 (d.toNat / 2 ^ (8 * (pg.pa % 32)) % 2 ^ (8 * p.2))
    | _ => pure ()
  return (out, bad)

/-- RMA_REQUEST (10 R252; 14 R347): a remote package's request is checked; a get is answered with its bytes, a put waits for its publish.
DESIGN CHOICE (log 67): the entry of a refused request holds identity 0 and the floor as its time. -/
def execRmaRequest (request : RmaRequest) (s : State) : Host.Outcome State Fault Refusal :=
  unit (.rmaRequest request) (do
    let s ← getS
    need (s.boot.opened && request.rows.all (fun r => r.len != 0 && (!request.put || r.data.length = r.len)))
    let reply := fun (a : RemoteAnswer) => modS (fun s => { s with rmaAnswers := s.rmaAnswers ++ [a] })
    let mut bad := none
    for r in request.rows do
      if bad.isNone then bad := (← checkRma request r) else pure ()
    match bad with
    | some (st, va) => do
      if st = 3 then modS (fun s => s.logIn request.ctx 5 3 1 0 (word va) s.floor request.pkg) else pure ()
      reply { status := st, addr := va, data := [] }
    | none =>
      if request.put then do
        let n ← draw
        modS (fun s => { s with rma := put s.rma n request })
      else do
        let mut out := []
        let mut poison := none
        for r in request.rows do
          let (b, p) ← readRma request.ctx r.va r.len
          out := out ++ b
          if poison.isNone then poison := p else pure ()
        match poison with
        | some va => reply { status := 5, addr := va, data := [] }
        | none => reply { status := 0, addr := 0, data := out }) s

/-- The lines that a remote put writes, with the bytes. -/
def rmaShadow (r : RmaRequest) : M (Except (Nat × Nat) (FMap Shadow)) := do
  let mut sh : FMap Shadow := []
  let mut bad := none
  for row in r.rows do
    for p in piecesOf 32 row.va row.len do
      let s ← getS
      match ← s.contextPage r.ctx p.1 1 with
      | .ok pg =>
        if pg.attr = .rshr || s.inRegion pg.pa p.2 then bad := some (3, p.1)
        else
          let line := pg.pa / 32
          let m := maskOf (pg.pa % 32) p.2
          let v := bytesNat ((row.data.drop (p.1 - row.va)).take p.2)
          let x := (find sh line).getD {}
          let d : LineData := BitVec.ofNat 256 (v * 2 ^ (8 * (pg.pa % 32)))
          sh := put sh line { x with mask := x.mask ||| m, data := mergeLine x.data d m, attr := pg.attr }
      | .page => bad := some (2, p.1)
      | .denied => bad := some (3, p.1)
      | .poison => bad := some (5, p.1)
  return match bad with
    | some e => .error e
    | none => .ok sh

/-- REMOTE_PUT_PUBLISH (10 R252): the writes of a remote put take effect as one event, and the put is acknowledged. The event
takes the time of the copy unit of cluster 0 as the steward's. -/
def execRemotePutPublish (request : Nat) (s : State) : Host.Outcome State Fault Refusal :=
  unit (.remotePutPublish request) (do
    let s ← getS
    let r ← needSome (find s.rma request)
    modS (fun s => { s with rma := del s.rma request })
    let reply := fun (a : RemoteAnswer) => modS (fun s => { s with rmaAnswers := s.rmaAnswers ++ [a] })
    match ← rmaShadow r with
    | .error (st, va) => do
      if st = 3 then modS (fun s => s.logIn r.ctx 5 3 1 0 (word va) s.floor r.pkg) else pure ()
      reply { status := st, addr := va, data := [] }
    | .ok sh => do
      publishLines (.copyUnit 0) none sh
      reply { status := 0, addr := 0, data := [] }) s

/-- Bytes as words, the last filled with zeros. -/
def packBytes (bs : List Byte) : List Word := (numbers 0 ((bs.length + 7) / 8)).map (fun k => word (bytesNat ((bs.drop (8 * k)).take 8)))

/-- The contributions that a collective's job works on: those of its save area, else its instance's (10 R258). -/
def State.partsOf (s : State) (j : Job) : FMap (List Byte) := j.parts.foldl (fun m p => put m p.1 p.2) (((s.collOf j).map (·.parts)).getD [])

/-- The words of a collective's partials: what the job has read itself, then the contributions by rising rank (10 R258;
notes/assumptions/44.md). -/
def Job.partials (j : Job) (parts : FMap (List Byte)) : List Word := packBytes j.bytes ++ parts.flatMap (fun p => packBytes p.2)

/-- The save area of a copy job (10 R253, R258). -/
def Job.copyArea (s : State) (j : Job) : List Word :=
  (numbers 0 8).map (fun k => j.param.getD k 0) ++
  [setBits (setBits 0 63 32 (j.pos.getD 0 0)) 31 0 (j.pos.getD 1 0),
   setBits (setBits 0 27 16 j.ctx) 15 0 j.jid,
   word (extendTime s.floor j.time)] ++ List.replicate 5 (0 : Word) ++ (if j.kind = 3 then j.partials (s.partsOf j) else [])

/-- COPY_SAVE (10 R253; 15 R378). -/
def execCopySave (cluster : Nat) (s : State) : Host.Outcome State Fault Refusal :=
  unit (.copySave cluster) (saveJob cluster true (fun j => do
    let s ← getS
    modJob cluster true j.jid (fun j => { j with parts := if j.kind = 3 then s.partsOf j else [] })
    return j.copyArea s)) s

/-- COPY_PRE (15 R378). -/
def execCopyPre (cluster : Nat) (v : Word) (s : State) : Host.Outcome State Fault Refusal :=
  unit (.copyPre cluster v) (do
    let s ← getS
    writePre cluster true v (s.copyRunning cluster)) s

end Sys2Proof.Machine
end

