-- ==== Sys2Proof/Machine/Coll.lean ====
section
/-! DEFINITION. Collective jobs (10 R255 to R258; 14 R355), the acceptance of commands by the copy unit, and the resumption of
its jobs (15 R378). -/

namespace Sys2Proof.Machine

/-- The fields of a collective's parameter group (10 R255). -/
structure CollJob where
  src : Nat
  dst : Nat
  count : Nat
  grp : Nat
  rank : Nat
  kind : Nat
  rop : Nat
  fmt : Nat
  root : Nat
  deriving DecidableEq, Repr

/-- Reads a parameter group (10 R255). -/
def readColl (ws : List Word) : CollJob :=
  let w := fun k => ws.getD k 0
  { src := bits (w 0) 54 0, dst := bits (w 1) 54 0, count := bits (w 2) 31 0, grp := bits (w 3) 63 52, rank := bits (w 3) 31 0
    kind := bits (w 4) 63 60, rop := bits (w 4) 59 58, fmt := bits (w 4) 57 53, root := bits (w 4) 31 0 }

/-- The bytes that a rank contributes. -/
def CollJob.size (j : CollJob) : Nat := j.count * (elemBits j.fmt / 8)

/-- The group that a context has set up under an identity (14 R355). -/
def State.groupOf (s : State) (ctx grp : Nat) : Option (List (Nat × Nat)) := (find s.contexts ctx).bind (fun c => find c.groups grp)

/-- Whether a collective's parameter group is broken, for a group of P ranks (10 R256). -/
def collBad (ws : List Word) (p : Nat) : Bool :=
  let w := fun k => ws.getD k 0
  let j := readColl ws
  bits (w 0) 63 55 != 0 || bits (w 1) 63 55 != 0 || bits (w 2) 63 32 != 0 || bits (w 3) 51 32 != 0 || bits (w 4) 52 32 != 0 ||
  w 5 != 0 || w 6 != 0 || w 7 != 0 || decide (3 < j.kind) || j.rop = 3 || (decide (2 ≤ j.kind) && j.rop != 0) ||
  decide (j.fmt < 17) || decide (22 < j.fmt) || j.count = 0 || j.src % 8 != 0 || j.dst % 8 != 0 ||
  ((j.kind = 1 || j.kind = 2) && decide (p ≤ j.root))

/-- The instance that a rank's next COLL on a group takes part in (10 R255). -/
def Context.nextInst (c : Context) (grp rank : Nat) : Nat := findD c.issued 0 (2 ^ 32 * grp + rank) + 1

/-- A collective job starts at issue (10 R256): it ends, or joins its instance, which keeps the group that it started with (14 R355).
DESIGN CHOICE (log 67): a command that ends PARAM is none of the collectives that the rank counts. -/
def startColl (k : Nat) (x : Job) : M Unit := do
  let s ← getS
  let j := readColl x.param
  match find s.contexts x.ctx, s.groupOf x.ctx j.grp with
  | some c, some now => do
    let inst := c.nextInst j.grp j.rank
    let old := c.colls.find? (fun y => y.grp = j.grp && y.inst = inst)
    let members := (old.map (·.members)).getD now
    if collBad x.param members.length then endJob k true x 6 0
    else if members[j.rank]? != some (s.boot.pkgid, x.tid) then do
      violation x.ctx 3 3 1 x.jid 0 x.time
      endJob k true x 3 0
    else do
      let shape := [word j.count, x.param.getD 4 0]
      let y := old.getD { grp := j.grp, inst := inst, members := members, shape := shape, time := x.time }
      let y := { y with
        joined := y.joined ++ [j.rank]
        time := tmax y.time x.time
        failed := if y.shape = shape then y.failed else some 6 }
      let rest := c.colls.filter (fun y => !(y.grp = j.grp && y.inst = inst))
      modS (fun s => { s with contexts := put s.contexts x.ctx { c with
        issued := put c.issued (2 ^ 32 * j.grp + j.rank) inst
        colls := rest ++ [y] } })
      modJob k true x.jid (fun x => { x with
        inst := inst
        pos := [0, 0] })
  | _, _ => endJob k true x 6 0

/-- COPY_ACCEPT (10 R248, R255). -/
def execCopyAccept (tid : Nat) (s : State) : Host.Outcome State Fault Refusal :=
  unit (.copyAccept tid) (do
    match ← acceptJob tid true with
    | some j => if j.kind = 3 then startColl (clusterOf (coreOf tid)) j else pure ()
    | none => pure ()) s

/-- The combination of two elements (10 R257). -/
def combine (rop fmt a b : Nat) : Nat :=
  let w := elemBits fmt
  let int := fmt = 17 || fmt = 18
  let neg := fun v => decide (2 ^ (w - 1) ≤ v)
  let less := (neg a && !neg b) || (neg a = neg b && decide (a < b))
  if rop = 0 then addElem fmt a b
  else if int then (if less = (rop = 1) then a else b)
  else ((matFmt fmt).minmax (rop = 2) a b).1

/-- The identity of a combination (10 R257). -/
def identityOf (rop fmt : Nat) : Nat :=
  let w := elemBits fmt
  let f := matFmt fmt
  if fmt = 17 || fmt = 18 then (if rop = 0 then 0 else if rop = 1 then 2 ^ (w - 1) - 1 else 2 ^ (w - 1))
  else if rop = 0 then f.signed true 0 else f.signed (rop = 2) f.infBits

/-- One level of the tree: neighbours combined. -/
def pairRanks (g : Nat → Nat → Nat) : List Nat → List Nat
  | a :: b :: l => g a b :: pairRanks g l
  | l => l

/-- The tree over a padded list, by its levels (10 R257). -/
def treeReduce (g : Nat → Nat → Nat) : Nat → List Nat → List Nat
  | 0, l => l
  | n + 1, l => treeReduce g n (pairRanks g l)

/-- The least L with 2^L at least n. -/
def levels (n : Nat) : Nat := if n ≤ 1 then 0 else Nat.log2 (n - 1) + 1

/-- Element i of some bytes. -/
def elemAt (fmt : Nat) (bs : List Byte) (i : Nat) : Nat := bytesNat ((bs.drop (i * (elemBits fmt / 8))).take (elemBits fmt / 8))

/-- Element i of a reduction over the ranks' bytes in rank order (10 R257). Of one rank the tree applies no combination, and its element
stands as it is, a NaN with its bits (DESIGN CHOICE, notes/assumptions/64.md). -/
def reduceElem (rop fmt : Nat) (parts : List (List Byte)) (i : Nat) : Nat :=
  let n := levels parts.length
  let l := parts.map (fun b => elemAt fmt b i) ++ List.replicate (2 ^ n - parts.length) (identityOf rop fmt)
  (treeReduce (combine rop fmt) n l).headD 0

/-- The contributions of an instance, in rank order. -/
def Coll.ranked (c : Coll) : List (List Byte) := (numbers 0 c.members.length).map (fun r => findD c.parts [] r)

/-- `n` bytes of a rank's result from an offset (10 R257). -/
def collBlock (j : CollJob) (c : Coll) (off n : Nat) : Nat :=
  if j.kind = 2 then bytesNat (((findD c.parts [] j.root).drop off).take n)
  else if j.kind = 3 then bytesNat ((c.ranked.flatten.drop off).take n)
  else
    let w := elemBits j.fmt
    (numbers 0 (8 * n / w)).foldr (fun i t => reduceElem j.rop j.fmt c.ranked (8 * off / w + i) % 2 ^ w + 2 ^ w * t) 0

/-- The bytes that a rank's destination receives. -/
def CollJob.result (j : CollJob) (c : Coll) : Nat := if j.kind = 3 then c.members.length * j.size else j.size

/-- A transfer unit of a collective job (10 R256 to R258): its own bytes are read, then its result is written. The destination is checked
before the first and at each (06 R156; 14 R344). -/
def collUnit (room : Bool) (c : Coll) (q : Seat) : J Unit := do
  let x := q.job
  let j := readColl x.param
  let off := x.pos.getD 1 0
  let c := { c with parts := (← getS).partsOf x }
  let done := if x.given then off else 0
  q.checkFrames
  if j.kind = 1 && j.rank != j.root then pure () else q.checkDest (j.dst + done) (j.result c - done)
  modJob q.k true x.jid (fun x => { x with started := true })
  let t ← timeOf q.agent
  if !x.given then
    if j.kind = 2 && j.rank != j.root then
      modJob q.k true x.jid (fun x => { x with
        given := true
        pos := [1, 0] })
    else
      let n := min 256 (j.size - off)
      let v ← q.span (j.src + off) n
      let bytes := x.bytes ++ natBytes n v
      if off + n < j.size then
        modJob q.k true x.jid (fun x => { x with
          bytes := bytes
          pos := [0, off + n] })
      else
        modColl x.ctx x.grp x.inst (fun c => { c with parts := put c.parts j.rank bytes })
        modJob q.k true x.jid (fun x => { x with
          bytes := []
          given := true
          pos := [1, 0] })
    stepDone q.k true x.jid t
  else if j.kind = 1 && j.rank != j.root then
    lastStep q.k true x.jid
    endWith 0 0
  else
    let total := j.result c
    let n := min 256 (total - off)
    q.writeShadow room (j.dst + off) n (collBlock j c off n)
    if off + n < total then
      modJob q.k true x.jid (fun x => { x with pos := [1, off + n] })
      stepDone q.k true x.jid t
    else
      q.meet c.time
      lastStep q.k true x.jid
      modJob q.k true x.jid (fun x => { x with ready := true })

/-- A rank of another package joins an instance: its bytes arrive, or its failure (10 R256). -/
def remoteRank (ctx grp inst rank : Nat) (c : Coll) (a : RemoteAnswer) : M Unit := do
  let size := bits (c.shape.getD 0 0) 31 0 * (elemBits (bits (c.shape.getD 1 0) 57 53) / 8)
  let silent := bits (c.shape.getD 1 0) 63 60 = 2 && rank != bits (c.shape.getD 1 0) 31 0
  need (!c.joined.contains rank)
  if a.status = 0 then do
    need (a.data.length = if silent then 0 else size)
    modColl ctx grp inst (fun c => { c with
      joined := c.joined ++ [rank]
      parts := if silent then c.parts else put c.parts rank a.data })
  else
    modColl ctx grp inst (fun c => { c with
      joined := c.joined ++ [rank]
      failed := some (c.failed.getD (if a.status = 6 then 6 else 7)) })

/-- The turn of a rank's collective job of a kind (10 R248, R256, R257). -/
def collEvent (kind ctx grp inst rank : Nat) (room : Bool) (a : RemoteAnswer) : M Unit := do
  let s ← getS
  let cx ← needSome (find s.contexts ctx)
  let c ← needSome (cx.colls.find? (fun y => y.grp = grp && y.inst = inst))
  need (bits (c.shape.getD 1 0) 63 60 = kind)
  let m ← needSome c.members[rank]?
  if m.1 != s.boot.pkgid then remoteRank ctx grp inst rank c a
  else
    let (k, _, j) ← needSome (s.jobs.find? (fun p => p.2.2.kind = 3 && p.2.2.ctx = ctx && p.2.2.grp = grp && p.2.2.inst = inst &&
      (readColl p.2.2.param).rank = rank))
    need (s.copyTurn k = some (j.core % 8) && s.copyRuns (s.engine k true) j)
    modEngine k true (fun e => { e with pointer := j.core % 8 })
    if j.cancel then endJob k true j 7 0
    else match c.failed with
      | some st => endJob k true j st 0
      | none => runJob k true j (collUnit room c)

/-- ALLREDUCE (10 R257). -/
def execAllreduce (ctx group instance_ rank : Nat) (room : Bool) (answer : RemoteAnswer) (s : State) : Host.Outcome State Fault Refusal :=
  unit (.allreduce ctx group instance_ rank room answer) (collEvent 0 ctx group instance_ rank room answer) s

/-- REDUCE (10 R257). -/
def execReduce (ctx group instance_ rank : Nat) (room : Bool) (answer : RemoteAnswer) (s : State) : Host.Outcome State Fault Refusal :=
  unit (.reduce ctx group instance_ rank room answer) (collEvent 1 ctx group instance_ rank room answer) s

/-- BCAST (10 R257). -/
def execBcast (ctx group instance_ rank : Nat) (room : Bool) (answer : RemoteAnswer) (s : State) : Host.Outcome State Fault Refusal :=
  unit (.bcast ctx group instance_ rank room answer) (collEvent 2 ctx group instance_ rank room answer) s

/-- ALLGATHER (10 R257). -/
def execAllgather (ctx group instance_ rank : Nat) (room : Bool) (answer : RemoteAnswer) (s : State) : Host.Outcome State Fault Refusal :=
  unit (.allgather ctx group instance_ rank room answer) (collEvent 3 ctx group instance_ rank room answer) s

/-- Whether a saved position names a transfer unit of a copy unit's job (10 R253, R258). -/
def State.unitNamed (s : State) (j : Job) (param : List Word) (row off : Nat) : Bool :=
  if j.kind = 2 then
    let c := readCopy param
    decide (row < c.nrow) && decide (off < c.rowlen) && off % 256 = 0
  else
    let c := readColl param
    off % 256 = 0 && (if row = 0 then !j.given && decide (off < c.size)
      else row = 1 && j.given && decide (off < ((s.collOf j).map c.result).getD c.size))

/-- The bytes of some words, the first `n`. -/
def unpackBytes (n : Nat) (ws : List Word) : List Byte := (ws.flatMap (fun w => natBytes 8 w.toNat)).take n

/-- The contributions of a job as its area's words give them (10 R258). -/
def readParts : FMap (List Byte) → List Word → FMap (List Byte)
  | [], _ => []
  | (r, bs) :: ps, ws => (r, unpackBytes bs.length ws) :: readParts ps (ws.drop ((bs.length + 7) / 8))

/-- The words of a copy engine job's save area (10 R253, R258). -/
def Job.areaSize (j : Job) : Nat := 16 + (if j.kind = 3 then (j.partials j.parts).length else 0)

/-- A copy engine's job as its area gives it, or none where the area breaks a rule (15 R378); the engine learns the area's time. -/
def copyFrom (cluster : Nat) (j : Job) (ws : List Word) : M (Option Job) := do
  let s ← getS
  let param := ws.take 8
  let row := bits (ws.getD 8 0) 63 32
  let off := bits (ws.getD 8 0) 31 0
  let bad := if j.kind = 2 then s.copyBad cluster param
    else collBad param (((s.collOf j).map (·.members.length)).getD 0)
  if bad || !s.unitNamed j param row off then return none
  else do
    let t := returnTime s.floor (bits (ws.getD 10 0) 39 0)
    raise (.copyUnit cluster) t
    return some { j with
      param := param
      pos := [row, off]
      time := t
      bytes := if j.kind = 3 then unpackBytes j.bytes.length (ws.drop 16) else j.bytes
      parts := readParts j.parts (ws.drop (16 + (j.bytes.length + 7) / 8)) }

/-- COPY_RES (15 R378; 10 R253). -/
def execCopyRes (cluster : Nat) (v : Word) (s : State) : Host.Outcome State Fault Refusal :=
  unit (.copyRes cluster v) (resumeJob cluster true v Job.areaSize (copyFrom cluster)) s

end Sys2Proof.Machine
end

