-- ==== Sys2Proof/Machine/Atomic.lean ====
section
/-! DEFINITION. The atomics, HOLD and UNHOLD (10 R239 to R241). -/

namespace Sys2Proof.Machine

/-- The word that an atomic writes (10 R239). -/
def atomicWord (k : AtomicKind) (old b : Word) : Word :=
  match k with
  | .add => old + b
  | .swap => b
  | .cas c => if old = c then b else old
  | .min u => if u then minU old b else minS old b
  | .max u => if u then maxU old b else maxS old b

/-- The word that an atomic compares with, if it does (10 R239). -/
def AtomicKind.compared : AtomicKind → List Word
  | .cas c => [c]
  | _ => []

/-- The code of an atomic's kind in a pair's comparison. -/
def atomicCode : AtomicKind → List Word
  | .add => [0]
  | .swap => [1]
  | .cas c => [2, c]
  | .min u => [3, if u then 1 else 0]
  | .max u => [4, if u then 1 else 0]

/-- The near path (09 R221): the atomic is performed on the exclusive copy by the writer's jump; a poisoned line kills. -/
def nearAtomic (core line off : Nat) (k : AtomicKind) (b ea : Word) (y : L1Line) : M Word := do
  if y.poison then abort (.consumed ea line) else pure ()
  raise (.core core) (y.rts + 1)
  let t ← timeOf (.core core)
  let old := fromByte y.data off
  l1Put core line .coh { y with
    data := mergeLine y.data (atByte (atomicWord k old b) off) (maskOf off 8)
    dirty := y.dirty ||| maskOf off 8
    wts := t
    rts := t }
  return old

/-- The atomic on a page, on the core that issues it (10 R239; 09 R221). `q`: the words of the unit's names and its destination. -/
def performHere (x0 : Thread) (ea : Word) (p : Page) (k : AtomicKind) (b : Word) (q : Asked) : M Word := do
  let x ← me
  let s ← getS
  let core := coreOf s.cur
  let line := p.pa / 32
  let off := p.pa % 32
  if p.attr = .priv then do
    let through := s.isMigratory x.launch
    let (d, bad) ← privRead core line through
    if bad then abort (.consumed ea line) else pure ()
    let old := fromByte d off
    privPut core line (maskOf off 8) (atByte (atomicWord k old b) off) through
    if !x.privLines.contains line then modMe (fun x => { x with privLines := x.privLines ++ [line] }) else pure ()
    return old
  else
    let ask : M Word := do
      migrateForLine x0 line
      checkNext
      parkBegun (.atomic k b line off (← asksHeader q.d)) q.operands
    match ← l1Read core line .coh with
    | some y => if y.excl then nearAtomic core line off k b ea y else ask
    | none => ask

/-- The atomic (10 R239): what the home answered, if it was performed there, or the atomic on its page. -/
def performAtomic (x0 : Thread) (ea : Word) (k : AtomicKind) (b : Word) (q : Asked) : M Word := do
  match (← me).resume.reply with
  | some r => do
    raisePts r.time
    if r.poison then abort (.consumed ea ((← storePage ea 8).pa / 32)) else return r.value
  | none => performHere x0 ea (← storePage ea 8) k b q

/-- An atomic (10 R239): its address is A, with no offset, and is checked before C is read; the old word goes to d. -/
def atomic (w : IWord) (d a b : BitVec 8) (kind : M AtomicKind) : M Unit := do
  let x0 ← me
  let ea ← readOnce 0 w a
  let v ← readOnce 1 w b
  checkRange ea true
  checkAlign ea 8 true
  if inAperture ea then trap 5 ea
  else do
    let answered := (← me).resume.reply.isSome
    if answered then pure ()
    else do
      let _ ← storePage ea 8
    let k ← kind
    if answered then pure () else waitOlder
    let (old, _) ← outward { kind := 24, addr := ea, size := 8, data := v :: atomicCode k } (do
      return (← performAtomic x0 ea k v { operands := ea :: v :: k.compared, d := d }, [])) (some (ea :: v :: k.compared))
    writeName w d old
    retire

/-- AADD (10 R239). -/
def execAadd (d a b : BitVec 8) (s : State) : Host.Outcome State Fault Refusal :=
  runUnit (.aadd d a b) (fun w => atomic w d a b (pure .add)) s

/-- ASWP (10 R239). -/
def execAswp (d a b : BitVec 8) (s : State) : Host.Outcome State Fault Refusal :=
  runUnit (.aswp d a b) (fun w => atomic w d a b (pure .swap)) s

/-- ACAS (10 R239): the old value of d, a resident name, is compared. -/
def execAcas (d a b : BitVec 8) (s : State) : Host.Outcome State Fault Refusal :=
  runUnit (.acas d a b) (fun w => atomic w d a b (do return .cas (← readResidentOnce 2 d.toNat))) s

/-- AMIN (10 R239, R240). -/
def execAmin (d a b : BitVec 8) (s : State) : Host.Outcome State Fault Refusal :=
  runUnit (.amin d a b) (fun w => atomic w d a b (do return .min ((← latch).aux = 1))) s

/-- AMAX (10 R239, R240). -/
def execAmax (d a b : BitVec 8) (s : State) : Host.Outcome State Fault Refusal :=
  runUnit (.amax d a b) (fun w => atomic w d a b (do return .max ((← latch).aux = 1))) s

/-- The page of HOLD and UNHOLD (10 R241): a COH page, outside the format regions. -/
def holdPage (ea : Word) : M Page := do
  checkRange ea true
  if inAperture ea then trap 5 ea
  else do
    let p ← translate ea 1
    let s ← getS
    if p.attr != .coh || s.inRegion (p.pa / 32 * 32) 32 then trap 7 ea else return p

/-- The lines that the threads of a core hold (10 R241). -/
def Core.heldLines (c : Core) : Nat := (c.l1.filter (fun p => p.2.held.isSome)).length

/-- Whether it is a thread's turn to hold a line on its core (10 R241): it has it exclusively, nobody holds it, nobody
waits before it, and the core then holds no more than 16 lines (notes/assumptions/62.md). -/
def Core.holdTurn (c : Core) (line uid : Nat) : Bool :=
  decide (c.heldLines < 16) &&
  (match find c.l1 (l1Key line .coh) with
    | some y => y.excl && y.held.isNone
    | none => false) &&
  (match c.holdQueue.find? (fun q => q.1 = line) with
    | some q => q.2 = uid
    | none => true)

/-- HOLD of a line (10 R241): the counts are tested once, before any wait; then, once it waits in the line's queue, its turn comes. A line
that its home serves by bypass has no place in the L1 to be held in: its grant is the hold, which ends with it (08 R191; DESIGN CHOICE,
notes/assumptions/65.md). `operands`: the words with which the unit goes on once its counts have been tested. -/
def acquire (line : Nat) (operands : List Word) : M Word := do
  let x ← me
  let s ← getS
  let core := coreOf s.cur
  let c := s.core core
  if x.resume.reply.isSome || x.holds.contains line then return 1
  else if x.resume.operands != some operands && (decide (2 ≤ x.holds.length) || decide (16 ≤ c.heldLines)) then return 0
  else do
    begunUntil (s.olderDone core x) .stores operands
    checkNext
    begunUntil (c.holdTurn line x.uid) (.hold line) operands
    modCore core (fun c => { c with
      l1 := c.l1.map (fun p => if p.1 = l1Key line .coh then (p.1, { p.2 with held := some x.uid }) else p),
      holdQueue := c.holdQueue.filter (fun q => !(q.1 = line && q.2 = x.uid)) })
    modMe (fun x => { x with holds := x.holds ++ [line] })
    return 1

/-- The end of a thread's hold on a line (09 R222). -/
def endHold (tid line : Nat) : M Unit := do
  let s ← getS
  match s.thread tid with
  | none => pure ()
  | some x => do
    modCore (coreOf tid) (fun c => { c with
      l1 := c.l1.map (fun p => if p.1 = l1Key line .coh && p.2.held = some x.uid then (p.1, { p.2 with held := none }) else p) })
    modThread tid (fun x => { x with holds := x.holds.erase line })

/-- UNHOLD of a line (10 R241): a hold that ends during the wait is none any more. -/
def release (line : Nat) : M Word := do
  let x ← me
  let s ← getS
  if x.holds.contains line then do
    let ids := ((s.pendingStores (coreOf s.cur) x.uid).filter (fun e => e.line = line)).map (·.id)
    parkUntil ids.isEmpty (.sibling ids)
    endHold s.cur line
    return 1
  else return 0

/-- HOLD (10 R241). -/
def execHold (d a : BitVec 8) (s : State) : Host.Outcome State Fault Refusal :=
  runUnit (.hold d a) (fun w => do
    let ea ← readOnce 0 w a
    let p ← holdPage ea
    noHeader w d
    let (v, _) ← outward { kind := 25, addr := ea, size := 32, data := [] } (do return (← acquire (p.pa / 32) [ea, 1], []))
      (some [ea])
    writeName w d v
    retire) s

/-- UNHOLD (10 R241). -/
def execUnhold (d a : BitVec 8) (s : State) : Host.Outcome State Fault Refusal :=
  runUnit (.unhold d a) (fun w => do
    let ea ← readOnce 0 w a
    let p ← holdPage ea
    let (v, _) ← outward { kind := 26, addr := ea, size := 32, data := [] } (do return (← release (p.pa / 32), [])) (some [ea])
    writeName w d v
    retire) s

end Sys2Proof.Machine
end

