-- ==== Sys2Proof/Machine/BankEvents.lean ====
section
/-! DEFINITION. The events at the banks (11 R263 to R280; 05 R132; 10 R237; 14 R339) and the arrival of a bank's reply
(02 R57). -/

namespace Sys2Proof.Machine

/-- BANK_LOAD (11 R263): a load of an ARRAY's entry, or a load that the bank denies (11 R262). -/
def execBankLoad (op : Nat) (s : State) : Host.Outcome State Fault Refusal := unit (.bankLoad op) (bankEvent .load op) s

/-- BANK_STORE (11 R263): a store to an ARRAY's entry, or a store that the bank denies (11 R262). -/
def execBankStore (op : Nat) (s : State) : Host.Outcome State Fault Refusal := unit (.bankStore op) (bankEvent .store op) s

/-- FULL_BIT_READ (11 R263). -/
def execFullBitRead (op : Nat) (s : State) : Host.Outcome State Fault Refusal := unit (.fullBitRead op) (bankEvent .fullBit op) s

/-- GRANULE_EMPTY (11 R263). -/
def execGranuleEmpty (op : Nat) (s : State) : Host.Outcome State Fault Refusal := unit (.granuleEmpty op) (bankEvent .empty op) s

/-- POP (11 R264). -/
def execPop (op : Nat) (s : State) : Host.Outcome State Fault Refusal := unit (.pop op) (bankEvent .pop op) s

/-- PUSH (11 R264). -/
def execPush (op : Nat) (s : State) : Host.Outcome State Fault Refusal := unit (.push op) (bankEvent .push op) s

/-- PEEK (11 R264, R266). -/
def execPeek (op : Nat) (s : State) : Host.Outcome State Fault Refusal := unit (.peek op) (bankEvent .peek op) s

/-- COUNT (11 R264 to R266). -/
def execCount (op : Nat) (s : State) : Host.Outcome State Fault Refusal := unit (.count op) (bankEvent .count op) s

/-- MAP_LOOKUP (11 R265). -/
def execMapLookup (op : Nat) (s : State) : Host.Outcome State Fault Refusal := unit (.mapLookup op) (bankEvent .lookup op) s

/-- MAP_INSERT (11 R265). -/
def execMapInsert (op : Nat) (s : State) : Host.Outcome State Fault Refusal := unit (.mapInsert op) (bankEvent .insert op) s

/-- MAP_TAKE (11 R265). -/
def execMapTake (op : Nat) (s : State) : Host.Outcome State Fault Refusal := unit (.mapTake op) (bankEvent .take op) s

/-- MAP_DELETE (11 R265). -/
def execMapDelete (op : Nat) (s : State) : Host.Outcome State Fault Refusal := unit (.mapDelete op) (bankEvent .delete op) s

/-- HEAP_INSERT (11 R266). -/
def execHeapInsert (op : Nat) (s : State) : Host.Outcome State Fault Refusal := unit (.heapInsert op) (bankEvent .heapInsert op) s

/-- HEAP_POP (11 R266). -/
def execHeapPop (op : Nat) (s : State) : Host.Outcome State Fault Refusal := unit (.heapPop op) (bankEvent .heapPop op) s

/-- HIST_READ (11 R267). -/
def execHistRead (op : Nat) (s : State) : Host.Outcome State Fault Refusal := unit (.histRead op) (bankEvent .histRead op) s

/-- HIST_ADD (11 R267). -/
def execHistAdd (op : Nat) (s : State) : Host.Outcome State Fault Refusal := unit (.histAdd op) (bankEvent .histAdd op) s

/-- HIST_READ_CLEAR (11 R267). -/
def execHistReadClear (op : Nat) (s : State) : Host.Outcome State Fault Refusal := unit (.histReadClear op) (bankEvent .histReadClear op) s

/-- HIST_SET (11 R267). -/
def execHistSet (op : Nat) (s : State) : Host.Outcome State Fault Refusal := unit (.histSet op) (bankEvent .histSet op) s

/-- BANK_VECTOR_ACCESS (05 R132). -/
def execBankVectorAccess (op : Nat) (s : State) : Host.Outcome State Fault Refusal := unit (.bankVectorAccess op) (bankEvent .vector op) s

/-- BANK_LDE (10 R237): it waits at the bank while its granule is empty. -/
def execBankLde (op : Nat) (s : State) : Host.Outcome State Fault Refusal := unit (.bankLde op) (bankEvent .lde op) s

/-- BANK_STF (10 R237). -/
def execBankStf (op : Nat) (s : State) : Host.Outcome State Fault Refusal := unit (.bankStf op) (bankEvent .stf op) s

/-- DRAIN (11 R271). -/
def execDrain (op : Nat) (s : State) : Host.Outcome State Fault Refusal := unit (.drain op) (bankEvent .drain op) s

/-- CLEAR (11 R273). -/
def execClear (op : Nat) (s : State) : Host.Outcome State Fault Refusal := unit (.clear op) (bankEvent .clear op) s

/-- COMPOSITION_FORM (11 R274 to R276, R279). -/
def execCompositionForm (op : Nat) (s : State) : Host.Outcome State Fault Refusal := unit (.compositionForm op) (bankEvent .compose op) s

/-- BINFO_REPORT (11 R280). -/
def execBinfoReport (op : Nat) (s : State) : Host.Outcome State Fault Refusal := unit (.binfoReport op) (bankEvent .info op) s

/-- KEEP (11 R270), with the arrangement of the raw words of a MAP or HEAP (11 R260). -/
def execKeep (op : Nat) (slots order : List Nat) (s : State) : Host.Outcome State Fault Refusal :=
  unit (.keep op slots order) (bankEvent .keep op slots order) s

/-- BANK_REPLY (02 R57; 11 R269): the thread that waits receives it; a thread that is gone loses it. -/
def execBankReply (n : Nat) (s : State) : Host.Outcome State Fault Refusal :=
  unit (.bankReply n) (do
    let s ← getS
    let op ← needSome (find s.bankOps n)
    let r ← needSome op.reply
    set { s with bankOps := del s.bankOps n }
    match s.byUid op.uid with
    | some (tid, x) =>
      if x.park = some (.bank n) then modThread tid (fun x => { x with
        park := none
        resume := { x.resume with
          ea := some op.ea
          reply := some r } })
      else pure ()
    | none => pure ()) s

/-- A bank goes to a new owner (14 R339): it leaves its composition, its waiting LDE are answered, it takes its owner and is
scrubbed. It waits while a thread of the old owner runs on its core. -/
def handOver (bank owner : Nat) : M Unit := do
  let s ← getS
  let old := (s.bank bank).owner
  need (old = owner || !(s.threads.any (fun p => coreOf p.1 = bank / 4 && p.2.ctx = old)))
  meetHome bank
  let t ← timeOf (.bank bank)
  answerLde bank t
  leaveComposition bank t
  clearBankErrs bank
  modBank bank (fun x => { x.zeroed 0 8192 with owner := owner })

/-- BANK_HANDOVER (14 R339). -/
def execBankHandover (bank owner : Nat) (s : State) : Host.Outcome State Fault Refusal :=
  unit (.bankHandover bank owner) (handOver bank owner) s

end Sys2Proof.Machine
end

