-- ==== Sys2Proof/Machine/Branch.lean ====
section
/-! DEFINITION. Transfers of control (04 R101 to R104). -/

namespace Sys2Proof.Machine

/-- A transfer to T, after its checks (04 R101). -/
def transfer (t : Word) : M Unit :=
  if bits t 1 0 != 0 then trap 0 t
  else if 2 ^ 55 ≤ t.toNat then trap 1 t
  else completeAt (t.setWidth 55)

/-- The target of a branch or jump: the address of the unit's first word plus four times the offset (02 R25, R36). -/
def target (bits : Nat) (off : Nat) : M Word := do
  let x ← me
  return x.first.setWidth 64 + 4 * assembled x.latch bits off

/-- The link: the address of the unit after this one (04 R103). -/
def link : M Word := do
  let x ← me
  return word (x.pc.toNat + 4)

/-- A compare-with-zero branch (04 R102). -/
def branch (w : IWord) (a : BitVec 8) (o : BitVec 16) (c : Word → Bool) : M Unit := do
  let t ← target 16 o.toNat
  let x ← readName w a
  if c x then transfer t else retire

/-- BZ (04 R102). -/
def execBz (a : BitVec 8) (o : BitVec 16) (s : State) : Host.Outcome State Fault Refusal :=
  runUnit (.bz a o) (fun w => branch w a o (fun x => x = 0)) s

/-- BNZ (04 R102). -/
def execBnz (a : BitVec 8) (o : BitVec 16) (s : State) : Host.Outcome State Fault Refusal :=
  runUnit (.bnz a o) (fun w => branch w a o (fun x => x != 0)) s

/-- BLTZ (04 R102). -/
def execBltz (a : BitVec 8) (o : BitVec 16) (s : State) : Host.Outcome State Fault Refusal :=
  runUnit (.bltz a o) (fun w => branch w a o (fun x => ltS x 0)) s

/-- BGEZ (04 R102). -/
def execBgez (a : BitVec 8) (o : BitVec 16) (s : State) : Host.Outcome State Fault Refusal :=
  runUnit (.bgez a o) (fun w => branch w a o (fun x => !ltS x 0)) s

/-- BGTZ (04 R102). -/
def execBgtz (a : BitVec 8) (o : BitVec 16) (s : State) : Host.Outcome State Fault Refusal :=
  runUnit (.bgtz a o) (fun w => branch w a o (fun x => ltS 0 x)) s

/-- BLEZ (04 R102). -/
def execBlez (a : BitVec 8) (o : BitVec 16) (s : State) : Host.Outcome State Fault Refusal :=
  runUnit (.blez a o) (fun w => branch w a o (fun x => !ltS 0 x)) s

/-- J (04 R103). -/
def execJ (o : BitVec 24) (s : State) : Host.Outcome State Fault Refusal :=
  runUnit (.j o) (fun _ => do transfer (← target 24 o.toNat)) s

/-- CALL (04 R103): the link goes to g7. -/
def execCall (o : BitVec 24) (s : State) : Host.Outcome State Fault Refusal :=
  runUnit (.call o) (fun _ => do
    let t ← target 24 o.toNat
    let k ← link
    writeResident 7 k
    transfer t) s

/-- JMPR (04 R104): the target is checked before the link is written. -/
def execJmpr (d a : BitVec 8) (s : State) : Host.Outcome State Fault Refusal :=
  runUnit (.jmpr d a) (fun w => do
    let t ← readName w a
    let k ← link
    if bits t 1 0 != 0 || 2 ^ 55 ≤ t.toNat then transfer t
    else do
      writeName w d k
      transfer t) s

end Sys2Proof.Machine
end

