-- ==== Sys2Proof/Machine/BringUp.lean ====
section
/-! DEFINITION. Package reset and bring-up (11 R259; 14 R357). -/

namespace Sys2Proof.Machine

/-- Runs an event of a unit that the package has; another stops. -/
def inPackage (c : Bool) (body : M Unit) (s : State) : Host.Outcome State Fault Refusal :=
  if c then runEvent body s else .fault .noSuchUnit

/-- PACKAGE_RESET (14 R357): the package is as State.reset says; pooled memory, which lies outside it, stays. -/
def execPackageReset (s : State) : Host.Outcome State Fault Refusal :=
  runEvent (modS (fun s => { State.reset with
    mem := s.mem
    memPoison := s.memPoison
    agenda := s.agenda
    fresh := s.fresh })) s

/-- POWER_GOOD (14 R357, step 1). -/
def execPowerGood (s : State) : Host.Outcome State Fault Refusal :=
  runEvent (modS (fun s => { s with boot := { s.boot with power := true } })) s

/-- LINK_TRAINED (14 R357, step 2): a CXL port, 0 to 63, or an Ultra Ethernet port, from 64 on (01 R17). -/
def execLinkTrained (port : Nat) (s : State) : Host.Outcome State Fault Refusal :=
  inPackage (port < 80) (do
    need (← getS).boot.power
    modS (fun s => { s with boot := { s.boot with links := s.boot.links.insert port } })) s

/-- The bureaus write zero into every register file, cupboard, L1 line and bank (14 R357, step 5). -/
def State.zeroed (s : State) : State :=
  { s with
    cores := mapVals (fun (c : Core) => { c with
      rf := []
      l1 := []
      icache := []
      slots := mapVals (fun sl => { sl with thread := sl.thread.map (fun x => { x with recipes := [] }) }) c.slots }) s.cores
    banks := mapVals (fun b => { b with words := [] }) s.banks
    errs := s.errs.filter (fun e => match e.1 with
      | .reg _ _ => false
      | .l1 _ _ _ => false
      | .l1i _ _ _ => false
      | .bank _ _ => false
      | .step _ _ _ => false
      | _ => true) }

/-- BOOT_IMAGE_READ (14 R357, steps 3 to 5): a failed check holds the package in reset. -/
def execBootImageRead (image : BootImage) (s : State) : Host.Outcome State Fault Refusal :=
  runEvent (do
    let s ← getS
    need (s.boot.power && s.boot.links.contains 0 && !s.boot.imaged && image.signed)
    set { s.zeroed with boot := { s.boot with
      imaged := true
      pkgid := image.pkgid % 2 ^ 20
      hosts := image.hosts
      fabric := image.fabric
      retries := image.retries } }) s

/-- SLICE_START (14 R357, step 5). -/
def execSliceStart (slice : Nat) (s : State) : Host.Outcome State Fault Refusal :=
  inPackage (slice < Config.slices) (do
    let s ← getS
    need (s.boot.imaged && !s.boot.started.contains slice)
    set { s with boot := { s.boot with started := slice :: s.boot.started } }) s

/-- SLICE_FINISHED (14 R357, steps 5 and 6): the slice's data entries are zero, its tags clear, its times zero; with the last one
the job-control endpoint opens. -/
def execSliceFinished (slice : Nat) (s : State) : Host.Outcome State Fault Refusal :=
  inPackage (slice < Config.slices) (do
    let s ← getS
    need (s.boot.started.contains slice && !s.boot.finished.contains slice)
    let finished := slice :: s.boot.finished
    let cleared := s.setSlice slice { s.slice slice with ets := 0 }
    set { cleared.setClock (.slice slice) {} with
      l2 := s.l2.filter (fun p => sliceOf p.1 != slice)
      boot := { s.boot with
        finished := finished
        opened := decide (Config.slices ≤ finished.length) } }) s

end Sys2Proof.Machine
end

