-- ==== Sys2Proof/Machine/CacheOps.lean ====
section
/-! DEFINITION. Fences, cache maintenance, prefetch, and the instructions on logical time (10 R242 to R247). -/

namespace Sys2Proof.Machine

/-- Whether stores still lie in a store buffer of the package. -/
def State.anyBuffered (s : State) (ids : List Nat) : Bool := s.cores.any (fun c => c.2.buffer.any (fun e => ids.contains e.id))

/-- The wait of FENCE.SIB (09 R218): the stores of the thread's early reads have left the store buffer that they lay in, which is
another core's once the thread has migrated. -/
def State.earlyDone (s : State) (x : Thread) : Bool := !s.anyBuffered x.early

/-- The wait of FENCE (09 R219). -/
def State.fenceDone (s : State) (core : Nat) (x : Thread) : Bool :=
  (s.pendingStores core x.uid).isEmpty && x.ldq.all (fun e => e.val.isSome) && s.earlyDone x

/-- Whether write-backs of some lines from a core's L1 are still on their way (08 R183). -/
def State.flushing (s : State) (core : Nat) (lines : List Nat) : Bool :=
  s.wbs.any (fun w => !w.2.toMemory && w.2.core = core && lines.contains w.2.line)

/-- The dirty bytes of the PRIV lines that the issuing thread has stored to reach their homes, those that a sibling has written since
among them (08 R196; 10 R242). -/
def flushThread : M Unit := do
  let x ← me
  let core ← myCore
  parkUntil (!(← getS).flushing core x.privLines) .writeBacks
  for l in x.privLines do flushLine core l

/-- The stores of the thread's early reads have their timestamps, and the core learns those of the stores on a core that the thread has
left (09 R218). -/
def endEarly : M Unit := do
  match (← me).earlyTime with
  | some t => raisePts (returnTime (← getS).floor t)
  | none => pure ()
  modMe (fun x => { x with
    early := []
    earlyTime := none })

/-- FENCE (10 R242): scope cluster or package adds the write-back. -/
def execFence (s : State) : Host.Outcome State Fault Refusal :=
  runUnit .fence (fun _ => do
    let x ← me
    let l ← latch
    parkUntil ((← getS).fenceDone (← myCore) x) .fence
    endEarly
    if 2 ≤ l.sc then flushThread else pure ()
    retire) s

/-- FENCE.SIB (10 R243). -/
def execFenceSib (s : State) : Host.Outcome State Fault Refusal :=
  runUnit .fenceSib (fun _ => do
    let x ← me
    parkUntil ((← getS).earlyDone x) (.sibling x.early)
    endEarly
    retire) s

/-- A part of a range that lies in one page: its first address, its bytes, and the page (none in the aperture). -/
structure Part where
  va : Nat
  len : Nat
  page : Option Page
  deriving DecidableEq, Repr

/-- The parts of a range, each page checked in turn (10 R244). `kindOf`: the kind of access by the page. DESIGN CHOICE (log 67): a part
that overlaps a format region in part gives its first address. -/
def rangeParts (miss : Nat) (kindOf : Page → Nat) : Nat → Nat → Nat → M (List Part)
  | 0, _, _ => return []
  | n + 1, va, len =>
    if len = 0 then return []
    else do
      let here := min len (65536 - va % 65536)
      let ea := word va
      if 2 ^ 55 ≤ va then trap (accessFault (miss = 1)) ea
      else do
        let page ← if inAperture ea then pure none else do
          let p ← translateBy ea miss kindOf
          if kindOf p = 1 && (← getS).inRegion p.pa here then trap 7 ea else pure (some p)
        let rest ← rangeParts miss kindOf n (va + here) (len - here)
        return { va := va, len := here, page := page } :: rest

/-- The physical lines of a part. -/
def Part.lines (t : Part) : List (Nat × Attr) :=
  match t.page with
  | none => []
  | some p => (numbers (p.pa / 32) ((p.pa + t.len - 1) / 32 - p.pa / 32 + 1)).map (fun l => (l, p.attr))

/-- FLUSHP, INVP and DISCARD (10 R244): `act` is what each does to the lines of its range, given the words of the unit's names. A DISCARD
that has waited has no line left. -/
def maintain (w : IWord) (d a b : BitVec 8) (miss : Nat) (kindOf : Page → Nat)
    (act : Nat → List (Nat × Attr) → List Word → M Unit) : M Unit := do
  let base ← readOnce 0 w a
  let len ← readOnce 1 w b
  let n := min len.toNat (2 ^ 20)
  if n = 0 || (← me).resume.operands.isSome then do
    writeName w d (word n)
    retire
  else do
    let parts ← rangeParts miss kindOf 18 base.toNat n
    noHeader w d
    let x ← me
    let core ← myCore
    let lines := parts.flatMap Part.lines
    let s ← getS
    parkUntil (s.pendingStores core x.uid).isEmpty .stores
    parkUntil (!s.flushing core (lines.map (·.1))) .writeBacks
    act core lines [base, len]
    writeName w d (word n)
    retire

/-- FLUSHP (08 R183; 10 R244). -/
def execFlushp (d a b : BitVec 8) (s : State) : Host.Outcome State Fault Refusal :=
  runUnit (.flushp d a b) (fun w => maintain w d a b 0 (fun _ => 0) (fun core lines _ => do
    for l in lines do
      if l.2 = .priv then flushLine core l.1 else pure ())) s

/-- INVP (08 R183, R184; 10 R244). -/
def execInvp (d a b : BitVec 8) (s : State) : Host.Outcome State Fault Refusal :=
  runUnit (.invp d a b) (fun w => maintain w d a b 0 (fun _ => 0) (fun core lines _ => do
    for l in lines do
      match l.2 with
      | .priv => do
        flushLine core l.1
        l1Drop core l.1 .priv
      | .rshr => do
        l1Drop core l.1 .rshr
        modCore core (fun c => { c with icache := del c.icache l.1 })
      | .coh => pure ())) s

/-- A core's own copies of a discarded line go (08 R184, R202). -/
def dropCopies (core line : Nat) (a : Attr) : M Unit := do
  l1Drop core line a
  match a with
  | .rshr => modCore core (fun c => { c with icache := del c.icache line })
  | _ => pure ()

/-- DISCARD of a line that nothing keeps (08 R202). -/
def discardLine (core line : Nat) (a : Attr) : M Unit := do
  discardHome line [core]
  dropCopies core line a

/-- DISCARD (08 R202 to R204; 10 R244): where a line is pinned or held the lines are dropped as they can be, and the thread waits for
all of them. -/
def execDiscard (d a b : BitVec 8) (s : State) : Host.Outcome State Fault Refusal :=
  runUnit (.discard d a b) (fun w => maintain w d a b 1 (fun p => if p.attr = .rshr then 0 else 1) (fun core lines operands => do
    let s ← getS
    if lines.any (fun l => s.discardWaits l.1) then do
      checkNext
      parkBegun (.discard lines) operands
    else
      for l in lines do discardLine core l.1 l.2)) s

/-- What a prefetch does with its page (10 R245). It is no demand access: a line that its home would serve by bypass is left where it is
(08 R191, R194), as is one for which a set has no room. -/
def prefetchLine (p : Page) (alloc : Bool) : M Unit := do
  let x ← me
  let s ← getS
  let core := coreOf s.cur
  let line := p.pa / 32
  if s.bypasses line then pure ()
  else tryCatch (do
    fillHome line (p.attr = .coh)
    if p.attr != .coh && alloc && !(p.attr = .priv && (s.isMigratory x.launch || s.flushing core [line])) then
      match ← l1Read core line p.attr with
      | some _ => pure ()
      | none => do
        let (d, bad) := (← getS).homeLine line
        l1Place core line p.attr { data := d, poison := bad }
    else pure ()) (fun e => match e with
      | .park _ => pure ()
      | e => abort e)

/-- PREF (10 R245): an address that would fault, or in the aperture, does nothing. A TLB miss walks without a trap, where the
walker has room. -/
def execPref (a i : BitVec 8) (s : State) : Host.Outcome State Fault Refusal :=
  runUnit (.pref a i) (fun w => do
    let l ← latch
    let base ← readName w a
    let ea := base + 32 * assembled l 8 i.toNat
    if outside ea || inAperture ea then retire
    else do
      let x ← me
      let s ← getS
      let user := !prv (s.slot s.cur).tstat
      let core := coreOf s.cur
      let page ← match tlbFind (s.core core).tlb x.ctx ea.toNat with
        | some e => pure (some (pageOf e.level e.leaf ea.toNat))
        | none => do
          tryCatch (engineXlatPage core x.ctx ea.toNat) (fun e => match e with
            | .park _ => pure none
            | e => abort e)
      match page with
      | some p => if permits p.leaf 0 user then prefetchLine p (l.ch = 0) else pure ()
      | none => pure ()
      retire) s

/-- TICK (10 R246): it waits until the advance fits the limit. -/
def execTick (i : BitVec 16) (s : State) : Host.Outcome State Fault Refusal :=
  runUnit (.tick i) (fun _ => do
    let core ← myCore
    let c := (← getS).clock (.core core)
    parkUntil (decide (i.toNat ≤ c.room)) (.advance i.toNat)
    raisePts (c.t + i.setWidth 24)
    retire) s

/-- The report of TSPROBE (09 R229; 10 R247). -/
def State.probe (s : State) (line : Nat) : Word :=
  let report := fun (notag owned : Bool) (w r : Stamp) =>
    setBits (setBits (setBits (setBits 0 63 63 (if notag then 1 else 0)) 62 62 (if owned then 1 else 0)) 47 24 w.toNat) 23 0 r.toNat
  match find s.l2 line with
  | some { tag := some _, owner := some c, .. } =>
    match find (s.core c).l1 (l1Key line .coh) with
    | some y => report false true y.wts y.rts
    | none => report false true (s.stamps line).1 (s.stamps line).2
  | some { tag := none, owner := some c, .. } =>
    match find (s.core c).l1 (l1Key line .coh) with
    | some y => report false true y.wts y.rts
    | none => report true false (s.stamps line).1 (s.stamps line).2
  | some { tag := some _, .. } => report false false (s.stamps line).1 (s.stamps line).2
  | _ => report true false (s.stamps line).1 (s.stamps line).2

/-- TSPROBE (10 R247). -/
def execTsprobe (d a : BitVec 8) (s : State) : Host.Outcome State Fault Refusal :=
  runUnit (.tsprobe d a) (fun w => do
    let ea ← readName w a
    checkRange ea false
    if inAperture ea then trap 5 ea
    else do
      let p ← translate ea 0
      if p.attr != .coh || (← getS).inRegion (p.pa / 32 * 32) 32 then trap 5 ea
      else do
        let v ← enterWord 6 ea (do return (← getS).probe (p.pa / 32))
        writeName w d v
        retire) s

end Sys2Proof.Machine
end

