-- ==== Sys2Proof/Machine/System.lean ====
section
/-! DEFINITION. The system registers, traps by instruction, the return from a trap, and SHOOT (14 R344, R345; 15 R369 to
R372). -/

namespace Sys2Proof.Machine

/-- A slot-scope register (15 R369, R371; 14 R345). -/
def State.slotReg (s : State) (tid n : Nat) : Word :=
  let sl := s.slot tid
  if n = 0 then sl.tstat else if n = 1 then sl.tcause else if n = 2 then sl.tvalue else if n = 3 then sl.tpc
  else if n < 8 then sl.tkeep.getD (n - 4) 0 else if n < 12 then sl.trecw.getD (n - 8) 0
  else if n = 0xD then sl.tsave else if n = 0xE then word sl.rst else if n = 0x10 then word ((s.ownerOf tid).getD 0) else 0

/-- The context entry that cx_sel selects (14 R345). -/
def Core.selected (c : Core) : CtxEntry := findD c.table {} c.cxSel

/-- A core-scope register (14 R345). -/
def State.coreReg (s : State) (core n : Nat) : Word :=
  let c := s.core core
  let e := c.selected
  if n = 0x100 then word c.cxSel else if n = 0x101 then e.id else if n = 0x102 then e.sched else if n = 0x103 then e.time
  else if n = 0x104 then e.root else if n = 0x105 then e.trap else if n = 0x106 then e.jobs
  else if n = 0x110 then word c.slotSel else if n = 0x111 then (s.slot (64 * core + c.slotSel)).own
  else if n = 0x120 then word c.guest else 0

/-- A system register as the thread of a slot reads it (14 R345). -/
def State.sysReg (s : State) (tid n : Nat) : Word :=
  if n = 0x11 then word s.boot.pkgid else if n < 0x100 then s.slotReg tid n else s.coreReg (coreOf tid) n

/-- Writes a slot-scope register: its RW fields, clamped (15 R369, R371; 00 R16). -/
def writeSlotReg (tid n : Nat) (v : Word) : M Unit :=
  modSlot tid (fun sl =>
    if n = 0 then { sl with tstat := writeStat sl.tstat v }
    else if n = 1 then { sl with tcause := word (bits v 7 0) }
    else if n = 2 then { sl with tvalue := v }
    else if n = 3 then { sl with tpc := word (bits v 54 2 * 4) }
    else if n < 4 then sl
    else if n < 8 then { sl with tkeep := setAt sl.tkeep (n - 4) v }
    else if n < 12 then { sl with trecw := setAt sl.trecw (n - 8) v }
    else if n = 0xD then { sl with tsave := word (bits v 51 6 * 64) }
    else sl)

/-- The pre-emption of a thread, with the code of its save record, and of its pair (15 R374, R382). -/
def requestSave (tid code : Nat) : M Unit := do
  let s ← getS
  let ask := fun (t : Nat) => modThread t (fun x => { x with preempt := some (x.preempt.getD code) })
  ask tid
  match s.partner tid with
  | some _ => ask (partnerOf tid)
  | none => pure ()

/-- A change of a core's registers that may change its slots' owners (14 R345; 12 R281, R287, R298; 02 R30): a FREE slot
takes its new owner, its cells and those of a GUEST slot are emptied, the threads of HOME and AWAY slots are pre-empted, an AWAY slot whose guest has been saved
becomes FREE (12 R306; notes/assumptions/62.md), and sh0 to sh5 are zeroed with slot 0's owner. It answers the threads that are to be saved. -/
def reassign (core : Nat) (f : M Unit) : M (List Nat) := do
  let s ← getS
  f
  let s' ← getS
  let moved := (numbers (64 * core) 64).filter (fun t => s.assigned t != s'.assigned t)
  for t in moved do
    let sl := s'.slot t
    if sl.state = .free then modSlot t (fun sl => { sl with owner := s'.assigned t }) else pure ()
    if sl.state = .free || sl.state = .guest then emptyCells t else pure ()
  if moved.contains (64 * core) then do
    modCore core (fun c => { c with
      sh := []
      shOld := [] })
    modS (fun s => { s with errs := s.errs.filter (fun e => match e.1 with
      | .sh c _ => c != core
      | _ => true) })
  else pure ()
  for t in moved do
    let sl := s'.slot t
    if sl.state = .away && (sl.awayOf.bind s'.byUid).isNone && s'.assigned t != sl.owner then freeSlot t else pure ()
  let hit := s'.threads.filter (fun p => !p.2.dead && moved.any (fun t =>
    ((s'.slot t).state = .home || (s'.slot t).state = .away) && s'.assigned t != (s'.slot t).owner &&
    (p.2.home = t || p.1 = t)))
  for p in hit do requestSave p.1 1
  return hit.map (·.2.uid)

/-- Writes a core-scope register: its RW fields, clamped; it answers the threads that the write pre-empts (14 R345). -/
def writeCoreReg (core n : Nat) (v : Word) : M (List Nat) := do
  let entry := fun (g : CtxEntry → CtxEntry) => modCore core (fun c => { c with table := put c.table c.cxSel (g c.selected) })
  if n = 0x100 then do
    modCore core (fun c => { c with cxSel := bits v 5 0 })
    return []
  else if n = 0x101 then reassign core (entry (fun e => { e with id := setBits (setBits 0 63 63 (bits v 63 63)) 11 0 (bits v 11 0) }))
  else if n = 0x102 then do
    entry (fun e => { e with sched := setBits (setBits 0 63 32 (bits v 63 32)) 24 0 (min (max (bits v 24 0) 4096) 16777216) })
    return []
  else if n = 0x103 then do
    entry (fun e => { e with time := word (bits v 15 0) })
    return []
  else if n = 0x104 then do
    entry (fun e => { e with root := setBits 0 51 16 (bits v 51 16) })
    return []
  else if n = 0x105 then do
    entry (fun e => { e with trap := setBits 0 54 2 (bits v 54 2) })
    return []
  else if n = 0x106 then do
    entry (fun e => { e with jobs := setBits 0 51 16 (bits v 51 16) })
    return []
  else if n = 0x110 then do
    modCore core (fun c => { c with slotSel := bits v 5 0 })
    return []
  else if n = 0x111 then do
    let t := 64 * core + ((← getS).core core).slotSel
    reassign core (modSlot t (fun sl => { sl with own := setBits (setBits 0 63 63 (bits v 63 63)) 11 0 (bits v 11 0) }))
  else if n = 0x120 then do
    modCore core (fun c => { c with guest := min (bits v 4 0) 16 })
    return []
  else return []

/-- Whether the issuing thread runs in user mode (15 R369). -/
def userMode : M Bool := do return !prv (← mySlot).tstat

/-- SYSR (14 R345; 15 R371): a read of tmbox parks for the bureau's reply (15 R373). -/
def execSysr (d : BitVec 8) (i : BitVec 16) (s : State) : Host.Outcome State Fault Refusal :=
  runUnit (.sysr d i) (fun w => do
    let n := i.toNat
    if !sysAssigned n || ((← userMode) && !sysUser n) then illegal w
    else do
      let v ← enterWord 7 (word n) (do
        if n = 0xC then
          match (← me).resume.reply with
          | some r => return r.value
          | none => do
            checkNext
            parkBegun (.mailbox false) []
        else return (← getS).sysReg (← myTid) n)
      writeName w d v
      retire) s

/-- SYSW (14 R345): it parks until the threads that it pre-empts are saved. DESIGN CHOICE (log 67): a write of tstat replaces the flags
that its own operands have raised. -/
def execSysw (d : BitVec 8) (i : BitVec 16) (s : State) : Host.Outcome State Fault Refusal :=
  runUnit (.sysw d i) (fun w => do
    let n := i.toNat
    if !sysAssigned n || (← userMode) then illegal w
    else do
      let v ← readName w d
      let uids ← if n < 0x100 then do
          writeSlotReg (← myTid) n v
          pure []
        else writeCoreReg (← myCore) n v
      retire
      if uids.isEmpty then pure () else modMe (fun x => { x with park := some (.saves uids) })) s

/-- TRAP (15 R372). -/
def execTrap (i : BitVec 16) (s : State) : Host.Outcome State Fault Refusal :=
  runUnit (.trap i) (fun _ => trap 25 (i.setWidth 64)) s

/-- TRET (15 R372): the unit goes on, is skipped, the thread is saved, or it is killed. A unit that ends at the end of the
space cannot be skipped (04 R101): tpc is the skipped unit's first word, and ulen, of which no rule speaks, is 0 (DESIGN CHOICE,
notes/assumptions/64.md). -/
def execTret (a : BitVec 8) (s : State) : Host.Outcome State Fault Refusal :=
  runUnit (.tret a) (fun w => do
    if ← userMode then illegal w
    else do
      let act := (← readName w a).toNat % 4
      let x ← me
      let tid ← myTid
      let sl ← mySlot
      if act = 0 then modS (fun s => s.returnTrap tid x false)
      else if act = 1 then
        if bits sl.tpc 54 2 * 4 + 4 * (bits sl.tstat 25 22 + 1) < 2 ^ 55 then modS (fun s => s.returnTrap tid x true)
        else do
          modS (fun s => s.returnTrap tid x false)
          trapThread tid { cause := 1, value := word (2 ^ 55) }
      else if act = 2 then do
        modS (fun s => s.returnTrap tid x false)
        requestSave tid 1
      else killThread tid (bits sl.tcause 7 0) sl.tvalue (sl.tpc.setWidth 55)) s

/-- Whether a thread's access, translated already, is one that is performed while the thread waits: a load, a load-exclusive, a HOLD, an
atomic or a DISCARD. -/
def Thread.accessing (x : Thread) : Bool :=
  match x.park with
  | some (.line _ _ _ _ _ _ _ _ _) => true
  | some (.hold _) => true
  | some (.atomic _ _ _ _ _) => true
  | some (.discard _) => true
  | _ => false

/-- What is on its way under a translation that a shootdown drops, by context (14 R344): stores in the buffers and loads of
the load-data queues, the threads whose access may still be performed, and the engine jobs that have only their publish to make. -/
def State.inFlight (s : State) (b : Word) : List Nat × List Nat × List (Nat × Bool × Nat) :=
  let hits := fun (ctx : Nat) => bits b 51 50 = 2 || ctx = bits b 63 52
  let stores := s.cores.flatMap (fun c => (c.2.buffer.filter (fun e => hits e.ctx)).map (·.id))
  let loads := s.threads.flatMap (fun p => if hits p.2.ctx then (p.2.ldq.filter (fun e => e.val.isNone)).map (·.seq) else [])
  let uids := s.threads.filterMap (fun p =>
    if hits p.2.ctx && p.2.accessing then some p.2.uid else none)
  let jobs := (s.jobs.filter (fun j => j.2.2.ready && hits j.2.2.ctx)).map (fun j => (j.1, j.2.1, j.2.2.jid))
  (stores ++ loads, uids, jobs)

/-- Whether things on their way are done (14 R344). -/
def State.landed (s : State) (ids uids : List Nat) (jobs : List (Nat × Bool × Nat)) : Bool :=
  !s.anyBuffered ids && !s.jobs.any (fun j => j.2.2.ready && jobs.contains (j.1, j.2.1, j.2.2.jid)) &&
  !(s.threads.any (fun p => p.2.ldq.any (fun e => e.val.isNone && ids.contains e.seq) ||
    (uids.contains p.2.uid && p.2.accessing)))

/-- Whether nothing is on its way under a translation that a shootdown would drop (14 R344). -/
def State.quietUnder (s : State) (b : Word) : Bool :=
  let f := s.inFlight b
  f.1.isEmpty && f.2.1.isEmpty && f.2.2.isEmpty

/-- The end of a SHOOT: the number of entries dropped goes to d. The number is no header of a message (13 R333). -/
def finishShoot (w : IWord) (va v : Word) : M Unit := do
  let v ← enterWord 9 va (return v)
  writeName w (w.extractLsb' 16 8) v
  retire

/-- SHOOT (14 R344): it waits as FENCE.PKG, drops the translations, and waits for what is on its way under them; its event ends it. -/
def execShoot (d a b : BitVec 8) (s : State) : Host.Outcome State Fault Refusal :=
  runUnit (.shoot d a b) (fun w => do
    if ← userMode then illegal w
    else do
      let va ← readName w a
      let desc ← readName w b
      if bits desc 51 50 = 3 || bits desc 47 0 != 0 then illegal w
      else do
        let x ← me
        noHeader w d
        if x.role = .trailing then finishShoot w va 0
        else do
          parkUntil ((← getS).pendingStores (← myCore) x.uid).isEmpty .stores
          flushThread
          checkNext
          let (ids, uids, jobs) := (← getS).inFlight desc
          let n ← shootDown va desc
          let v := word (min n 0xFFFFFFFF)
          if ids.isEmpty && uids.isEmpty && jobs.isEmpty then finishShoot w va v
          else modMe (fun x => { x with
            park := some (.shoot w va ids uids jobs)
            resume := { x.resume with
              reply := some { value := v }
              operands := some [] } })) s

end Sys2Proof.Machine
end

