-- ==== Sys2Proof/Machine/Sideboard.lean ====
section
/-! DEFINITION. What the sideboards do: launch records, thread creation, reports and barriers, dispatch of work items,
quiescence, restarts (02 R48 to R50; 12 R289 to R297; 13 R318, R326; 15 R366). -/

namespace Sys2Proof.Machine

/-- The stage entry k of a launch record (02 R48). -/
def stageEntry (ws : List Word) (k : Nat) : Nat := bits (ws.getD (4 + k / 4) 0) (16 * (k % 4) + 15) (16 * (k % 4))

/-- The fields of a launch record (02 R48). -/
def readRecord (ws : List Word) : LaunchRecord :=
  let w := fun k => ws.getD k 0
  { win := bits (w 0) 55 48, paired := bit (w 0) 42, restart := bit (w 0) 41, migr := bit (w 0) 40, nthr := bits (w 0) 31 0
    entry := bits (w 1) 54 0, args := word (bits (w 2) 54 0), smask := (w 3).extractLsb' 32 16, cmask := bits (w 3) 26 19
    ccnt := bits (w 3) 18 9, cbase := bits (w 3) 8 0
    stages := (numbers 0 16).map (fun k =>
      let e := stageEntry ws k
      (e % 128, if e / 2048 % 2 = 1 then some (e / 4096) else none)) }

/-- Whether a record breaks 02 R48 in a way of R49. -/
def recordBad (ws : List Word) : Bool :=
  let w := fun k => ws.getD k 0
  let r := readRecord ws
  let stageBad := (numbers 0 16).any (fun k =>
    let e := stageEntry ws k
    if r.smask.getLsbD k then
      e / 128 % 16 != 0 || e % 128 = 0 || decide (64 < e % 128) ||
      (e / 2048 % 2 = 1 && !r.smask.getLsbD (e / 4096))
    else e != 0)
  bits (w 0) 63 56 != 1 || r.win < 8 || 128 < r.win || r.win % 8 != 0 || bits (w 0) 47 43 != 0 || bits (w 0) 39 32 != 0 ||
  r.nthr = 0 || (r.migr && 16 < r.win) || bits (w 1) 63 55 != 0 || r.entry % 4 != 0 || bits (w 2) 63 55 != 0 ||
  r.args.toNat % 8 != 0 || bits (w 3) 31 27 != 0 || r.cmask = 0 || r.ccnt = 0 || 512 < r.cbase + r.ccnt || stageBad

/-- The cores that a record's placement names (12 R299). -/
def LaunchRecord.cores (r : LaunchRecord) : List Nat :=
  (numbers r.cbase r.ccnt).flatMap (fun k => ((numbers 0 8).filter (fun c => r.cmask.testBit c)).map (fun c => 8 * k + c))

/-- The stages that a record declares. -/
def LaunchRecord.declared (r : LaunchRecord) : List Nat := (numbers 0 16).filter (fun k => r.smask.getLsbD k)

/-- A launch in state PENDING is refused (13 R326). -/
def refuse (l : Launch) (why : Nat) : M Unit := do
  endLaunch { l with state := .refused, why := why }
  freeHandles

/-- LAUNCH_RECORD_READ (13 R326; 12 R294; 15 R364): the bureau reads the record's eight words, and the launch becomes REFUSED, or takes its stages and becomes RUNNING. -/
def launchRecordRead (h : Nat) : M Unit := do
  let s ← getS
  let l ← needSome (find s.launches h)
  need (l.state = .pending)
  if l.cancelling then
    endLaunch { l with state := .cancelled }
    freeHandles
  else match ← bureauReads (h / 2 ^ 23) l.ctx l.recordVa.toNat 8 with
    | none => refuse l 3
    | some ws =>
      let r := readRecord ws
      if recordBad ws then refuse l 1
      else if (numbers r.cbase r.ccnt).any (fun k => r.declared.any (fun n => (s.stage k n).launch != 0)) then refuse l 2
      else if r.cores.any (fun c => (s.entryOf c l.ctx).isNone) then refuse l 4
      else do
        for k in numbers r.cbase r.ccnt do
          for n in r.declared do
            let (hwm, out) := r.stages.getD n (0, none)
            modS (fun s => s.setStage k n { launch := h, hwm := hwm, out := out })
        modS (fun s => { s with launches := put s.launches h { l with state := .running, record := r, nthr := r.nthr } })

/-- Whether a core has runs of blocks for the windows of a thread, or of both threads of a pair (12 R282, R289). -/
def Core.hasRuns (c : Core) (n : Nat) (paired : Bool) : Bool :=
  match c.freeRun n c.top with
  | none => false
  | some b => !paired || (numbers 0 256).any (fun b2 => decide (b2 + n ≤ c.top) && (decide (b2 + n ≤ b) || decide (b + n ≤ b2)) &&
      (numbers b2 n).all (fun k => !c.usedBlocks.contains k))

/-- The slots, or slot pairs by leading slot, of a core that a thread of a launch may take; none where the core cannot take it
(12 R289), both of a pair under 12 R307. -/
def State.placesOn (s : State) (l : Launch) (core : Nat) : List Nat :=
  if s.mayTake core l.ctx && (!l.record.paired || s.mayTake core l.ctx 1) && (s.entryOf core l.ctx).isSome && (s.core core).hasRuns (l.record.win / 8) l.record.paired then
    (if l.record.paired then s.ownPairs core l.ctx else s.ownFree core l.ctx)
  else []

/-- The cores of a cluster that can take a thread of a launch, with how many slots (or pairs) they offer and the slot it
would take (12 R289). -/
def State.candidates (s : State) (l : Launch) (cluster : Nat) : List (Nat × Nat) :=
  ((numbers 0 8).filter (fun c => l.record.cmask.testBit c)).filterMap (fun c =>
    let places := s.placesOn l (8 * cluster + c)
    places.head?.map (fun t => (places.length, t)))

/-- THREAD_CREATION (12 R289; 02 R50): the cluster's next thread of a launch is created where there is room; the record carries the
time of the LAUNCH (09 R214). -/
def threadCreation (h cluster : Nat) : M Unit := do
  let s ← getS
  let l ← needSome (find s.launches h)
  need (l.state = .running && !l.cancelling && l.record.cbase ≤ cluster && cluster < l.record.cbase + l.record.ccnt)
  let i ← needSome (l.nextIndex cluster)
  let (_, tid) ← needSome (greatestBy (·.1) (s.candidates l cluster))
  let done ← createThread tid l (some i) (BitVec.ofNat 55 l.record.entry) [l.record.args, word i] none l.since
  need done
  let l' := if l.again.contains i then { l with again := l.again.erase i, made := l.made + 1 }
    else { l with next := put l.next cluster (i + l.record.ccnt), made := l.made + 1 }
  modS (fun s => { s with launches := put s.launches h l' })

/-- Sets bst (13 R319). -/
def setBst (n : Nat) : M Unit := modMe (fun x => { x with bst := BitVec.ofNat 3 n })

/-- A parked instruction of a thread completes in an event (13 R322, R330): `act` is the event's own part, `body` the rest of the
instruction, which ends the unit. Where the instruction traps or dies in place of completing, `act` does not happen; where it would
wait, the event does not come about yet. -/
def completeParked (tid : Nat) (act body : M Unit) : M Unit := do
  let s ← getS
  let unpark : M Unit := modThread tid (fun x => { x with park := none })
  match (do act; unpark; modS (fun s => { s with cur := tid }); body : M Unit) s with
  | .ok (_, s') => set { s' with cur := s.cur }
  | .error (.park w) => abort (.park w)
  | .error (.late a t) => abort (.late a t)
  | .error e => do
    unpark
    settle tid e

/-- The end of a WAITW (13 R322): the words of an item and its length and stage, or EMPTY. -/
def receiveItem (d : BitVec 8) (m : BitVec 16) (r : Reply) : M Unit := do
  let (v, ws) ← enter 32 (m.setWidth 64) (do
    raisePts r.time
    setBst r.status
    if r.status = 0 then return (word (16 * r.values.length) + r.value, (r.values ++ List.replicate 8 0).take 8)
    else return (0, []))
  writeResidents 0 ws
  writeName (wordOf (.waitw d m)) d v
  retire

/-- The end of a BARRIER (13 R330): its thread learns the wave's time and count. -/
def leaveBarrier (d : BitVec 8) (r : Reply) : M Unit := do
  let (v, _) ← enter 38 0 (do
    raisePts r.time
    return (r.value, []))
  writeName (wordOf (.barrier d)) d v
  retire

/-- The release of a BARRIER reaches a thread that waits in it. -/
def finishBarrier (tid : Nat) : M Unit := do
  let x ← needSome ((← getS).thread tid)
  match x.park, x.resume.reply with
  | some (.barrier d), some r => completeParked tid (pure ()) (leaveBarrier d r)
  | _, _ => need false

/-- A barrier wave is released when the arrivals equal the live count: the wave's time and count go to each waiting thread
(12 R292, R293; 13 R330). -/
def releaseBarrier (h : Nat) : M Unit := do
  let s ← getS
  match find s.launches h with
  | none => pure ()
  | some l =>
    let live := l.created - l.exited - l.killed
    if l.arrivals.length = live && !l.arrivals.isEmpty then do
      let t := l.arrivals.foldl (fun t a => tmax t a.2) ((l.arrivals.head?.map (·.2)).getD 0)
      set { s with launches := put s.launches h { l with arrivals := [] } }
      for a in l.arrivals do
        match s.byUid a.1 with
        | some (tid, _) => modThread tid (fun x => { x with
            resume := { x.resume with reply := some { value := word l.arrivals.length, time := t } } })
        | none => modS (fun s => { s with saved := s.saved.map (fun (x : SavedThread) => if x.uid = a.1 then { x with
            reply := some { value := word l.arrivals.length, time := t }
            due := extendTime s.floor t } else x) })
    else pure ()

/-- SIDEBOARD_REPORT (12 R293): the oldest report of a cluster reaches its launch's home. -/
def sideboardReport (cluster : Nat) : M Unit := do
  let s ← getS
  let r ← needSome (s.cluster cluster).reports.head?
  modCluster cluster (fun k => { k with reports := k.reports.drop 1 })
  match find s.launches r.launch with
  | none => pure ()
  | some l =>
    let l' := match r.kind with
      | 0 => { l with created := l.created + 1 }
      | 1 => { l with exited := l.exited + 1, time := tmax l.time r.time }
      | 2 => { l with killed := l.killed + 1, time := tmax l.time r.time }
      | 3 => { l with arrivals := l.arrivals ++ [(r.uid, r.time)] }
      | _ => { l with arrivals := l.arrivals.filter (fun a => a.1 != r.uid) }
    modS (fun s => { s with launches := put s.launches r.launch l' })
    releaseBarrier r.launch
    freeStatus r.launch
    completeLaunch r.launch
    freeHandles

/-- Whether a stage is eligible for dispatch (12 R296). -/
def State.eligible (s : State) (cluster k : Nat) : Bool :=
  let st := s.stage cluster k
  !st.items.isEmpty && match st.out with
    | none => true
    | some o => (s.stage cluster o).items.length < (s.stage cluster o).hwm

/-- The stage that serves a waiting thread: the fullest eligible one of its mask, the lowest on a tie (12 R296). -/
def State.serving (s : State) (cluster : Nat) (x : Thread) : Option Nat :=
  match x.park with
  | some (.work _ mask _) =>
    greatestBy (fun k => (s.stage cluster k).items.length)
      ((numbers 0 16).filter (fun k => mask.getLsbD k && (s.stage cluster k).launch = x.launch && s.eligible cluster k))
  | _ => none

/-- The first dispatch to a thread writes the item's words to g0 to g7, as writes of names do (07 R168; 13 R322). -/
def startWith (tid : Nat) (words : List Word) : M Unit := do
  let x ← needSome ((← getS).thread tid)
  writeWindow (coreOf tid) x.wbase 8 ((words.take 8).map (fun w => { val := w }))
  modThread tid (fun x => (numbers 0 8).foldl Thread.stales { x with park := none, bst := 0 })

/-- WAITW_DISPATCH (12 R296; 13 R320, R322): the first waiting thread that a stage serves receives its head item. -/
def waitwDispatch (cluster : Nat) : M Unit := do
  let s ← getS
  let (uid, tid, x, k) ← needSome ((s.cluster cluster).waiters.findSome? (fun u => match s.byUid u with
    | some (tid, x) => (s.serving cluster x).map (fun k => (u, tid, x, k))
    | none => none))
  let st := s.stage cluster k
  let it ← needSome st.items.head?
  let take : M Unit := do
    modS (fun s => s.setStage cluster k { st with items := st.items.drop 1 })
    modCluster cluster (fun c => { c with waiters := c.waiters.filter (· != uid) })
  match x.park with
  | some (.work _ _ true) => do
    raise (.core (coreOf tid)) it.time
    take
    startWith tid it.words
    if x.role = .leading && (s.thread (partnerOf tid)).isSome then startWith (partnerOf tid) it.words else pure ()
  | some (.work d m false) => completeParked tid take (receiveItem d m { status := 0, value := word k, values := it.words, time := it.time })
  | _ => need false

/-- Whether a thread waits in WAITW. -/
def Thread.waiting (x : Thread) : Bool := match x.park with
  | some (.work _ _ _) => true
  | _ => false

/-- The stages that a waiting thread's mask names. -/
def Thread.mask (x : Thread) : BitVec 16 := match x.park with
  | some (.work _ m _) => m
  | _ => 0

/-- A launch is quiescent (12 R297). A slot that only waits for the answer to a kill record holds no thread of it. -/
def State.quiescent (s : State) (h : Nat) : Bool :=
  match find s.launches h with
  | none => false
  | some l =>
    let ts := s.threads.filter (fun p => p.2.launch = h && p.2.role != .trailing && !p.2.dead)
    let masks := ts.foldl (fun m p => m ||| p.2.mask) (0 : BitVec 16)
    l.state = .running && !ts.isEmpty && ts.all (fun p => p.2.waiting) && ts.length = l.made - l.gone &&
    (numbers l.record.cbase l.record.ccnt).all (fun c => (numbers 0 16).all (fun k =>
      !(masks.getLsbD k) || (s.stage c k).launch != h || (s.stage c k).items.isEmpty))

/-- QUIESCENCE (12 R297): every WAITW wait of the launch ends EMPTY. -/
def quiescence (h : Nat) : M Unit := do
  let s ← getS
  need (s.quiescent h)
  for p in s.threads do
    let gone : M Unit := modCluster (clusterOf (coreOf p.1)) (fun c => { c with waiters := c.waiters.filter (· != p.2.uid) })
    if p.2.launch = h then
      match p.2.park with
      | some (.work _ _ true) => do
        gone
        modThread p.1 (fun x => { x with park := none, bst := 2 })
      | some (.work d m false) => completeParked p.1 gone (receiveItem d m { status := 2, time := s.pts (coreOf p.1) })
      | _ => pure ()
    else pure ()

/-- RESTART (15 R366): firmware asks for a replacement of a killed thread of a restartable launch; refused once the
launch has completed or a cancellation has begun. -/
def restart (h i : Nat) : M Unit := do
  let s ← getS
  let l ← needSome (find s.launches h)
  need (l.state = .running && l.record.restart && !l.cancelling && l.lost.contains i)
  set { s with launches := put s.launches h { l with lost := l.lost.erase i, again := l.again ++ [i] } }

end Sys2Proof.Machine
end

