-- ==== Sys2Proof/Machine/ThreadOps.lean ====
section
/-! DEFINITION. The thread, scheduling and message instructions, opcodes 0xC0 to 0xCA (13 R317 to R332). -/

namespace Sys2Proof.Machine

/-- A refusal of the sideboard or of the network interface, in the context's log as kind 8 (13 R319; 14 R347). -/
def denied (addr : Word) : M Unit := do
  let x ← me
  violation x.ctx 8 4 0 x.home addr (← pts)

/-- An operation at the sideboard of the issuing cluster: both learn the later time (13 R318; 09 R214). `act` gives the status
and the value. -/
def atSideboard (act : M (Nat × Word)) : M Word := do
  let k := clusterOf (← myCore)
  raise (.sideboard k) (← pts)
  let (st, v) ← act
  raisePts (← timeOf (.sideboard k))
  setBst st
  return v

/-- The launch of the issuing thread; the reset one where it has none. -/
def myLaunch : M Launch := do
  let x ← me
  let s ← getS
  return (find s.launches x.launch).getD { handle := x.launch, ctx := x.ctx, job := 0, issuer := none, recordVa := 0 }

/-- An item joins the tail of a stage (12 R294, R295). -/
def appendItem (k n : Nat) (ws : List Word) : M Unit := do
  let t ← timeOf (.sideboard k)
  modS (fun s => s.setStage k n { s.stage k n with items := (s.stage k n).items ++ [{ words := ws, time := t }] })

/-- SPAWN at the sideboard (13 R320; 12 R295). -/
def spawnAt (a : Word) (ws : List Word) : M (Nat × Word) := do
  let x ← me
  let s ← getS
  let core := coreOf s.cur
  let k := clusterOf core
  let n := bits a 58 55
  let l ← myLaunch
  if bits a 63 62 != 0 || bits a 1 0 != 0 || (s.stage k n).launch != x.launch then do
    denied a
    return (4, 0)
  else match (s.placesOn l core).head? with
    | none => return (1, 0)
    | some t =>
      if 64 ≤ (s.stage k n).items.length then return (1, 0)
      else do
        appendItem k n (ws.take (bits a 61 59 + 1))
        let mask : BitVec 16 := BitVec.ofNat 16 (2 ^ n)
        if ← createThread t l none (a.setWidth 55) [] (some (.work 0 mask true)) (← timeOf (.sideboard k)) then do
          let uid := (((← getS).thread t).map (·.uid)).getD 0
          modCluster k (fun c => { c with waiters := c.waiters ++ [uid] })
          modS (fun s => match find s.launches x.launch with
            | none => s
            | some l => { s with launches := put s.launches x.launch { l with
                nthr := l.nthr + 1
                made := l.made + 1 } })
          return (0, word t)
        else return (1, 0)

/-- SPAWN (13 R320). -/
def execSpawn (d a n : BitVec 8) (s : State) : Host.Outcome State Fault Refusal :=
  runUnit (.spawn d a n) (fun w => do
    let v ← readOnce 0 w a
    let ws ← readGroupOnce 1 w n
    waitOlder
    let (r, _) ← outward { kind := 30, addr := 0, size := 8, data := v :: ws } (do return (← atSideboard (spawnAt v ws), []))
      (some (v :: ws))
    writeName w d r
    retire) s

/-- POST at the sideboard (13 R321; 12 R295). -/
def postAt (a : Word) (ws : List Word) : M (Nat × Word) := do
  let x ← me
  let s ← getS
  let k := clusterOf (coreOf s.cur)
  let n := bits a 3 0
  if bits a 63 7 != 0 || (s.stage k n).launch != x.launch then do
    denied a
    return (4, 0)
  else if 64 ≤ (s.stage k n).items.length then return (1, 0)
  else do
    appendItem k n (ws.take (bits a 6 4 + 1))
    return (0, word ((s.stage k n).items.length + 1))

/-- POST (13 R321). -/
def execPost (d a n : BitVec 8) (s : State) : Host.Outcome State Fault Refusal :=
  runUnit (.post d a n) (fun w => do
    let v ← readOnce 0 w a
    let ws ← readGroupOnce 1 w n
    waitOlder
    let (r, _) ← outward { kind := 31, addr := 0, size := 8, data := v :: ws } (do return (← atSideboard (postAt v ws), []))
      (some (v :: ws))
    writeName w d r
    retire) s

/-- WAITW (13 R322): the thread waits for the dispatch, which ends it (`receiveItem`), or is refused. A trailing thread takes what its
leading thread was given (15 R380). -/
def execWaitw (d : BitVec 8) (m : BitVec 16) (s : State) : Host.Outcome State Fault Refusal :=
  runUnit (.waitw d m) (fun w => do
    let x ← me
    let k := clusterOf (← myCore)
    let s ← getS
    noHeader w d
    checkNext
    let (v, ws) ← enter 32 (m.setWidth 64) (do
      if m = 0 || (numbers 0 16).any (fun n => m.getLsbD n && (s.stage k n).launch != x.launch) then do
        denied (m.setWidth 64)
        setBst 4
        return (0, [])
      else park (.work d m false))
    writeResidents 0 ws
    writeName w d v
    retire) s

/-- EXIT (13 R323): the thread, with the other of its pair, leaves in one event, and its slots are FREE. -/
def execExit (s : State) : Host.Outcome State Fault Refusal :=
  runUnit .exit (fun _ => do
    waitStores
    let _ ← agree { kind := 33, addr := 0, size := 0, data := [] }
    let tid ← myTid
    match (← getS).partner tid with
    | some y => do
      leave (partnerOf tid) .exit
      freeSlots (partnerOf tid) y
    | none => pure ()
    let x ← me
    leave tid .exit
    freeSlots tid x) s

/-- YIELD (13 R324): it completes, and the thread is then saved; the wait for its stores is the save's own (15 R375), so that a
pre-emption in it makes no second save (13 R335). -/
def execYield (s : State) : Host.Outcome State Fault Refusal :=
  runUnit .yield (fun _ => do
    let _ ← agree { kind := 34, addr := 0, size := 0, data := [] }
    retire
    requestSave (← myTid) 2) s

/-- The launch entries that a sideboard's table holds (13 R325). -/
def State.entriesOf (s : State) (k : Nat) : List (Nat × Launch) := s.launches.filter (fun p => p.1 / 2 ^ 23 = k)

/-- The next serial from `n` on that is not 0 and is not held (13 R325). -/
def nextSerial (held : List Nat) : Nat → Nat → Nat
  | 0, n => n
  | fuel + 1, n => if n = 0 || held.contains n then nextSerial held fuel ((n + 1) % 32768) else n

/-- Holds a launch entry of a sideboard in state PENDING, if one is free, and answers its handle (13 R325, R326). -/
def holdEntry (k ctx job : Nat) (issuer : Option Nat) (va : Word) (t : Stamp) : M (Option Nat) := do
  let s ← getS
  let held := s.entriesOf k
  match (numbers 0 256).find? (fun n => !(held.any (fun p => p.1 % 256 = n))) with
  | none => return none
  | some n => do
    let serial := nextSerial (held.map (fun p => p.1 / 256 % 32768)) 512 ((s.cluster k).serial % 32768)
    let h := 2 ^ 23 * k + 256 * serial + n
    modCluster k (fun c => { c with serial := (serial + 1) % 32768 })
    modS (fun s => { s with
      launches := put s.launches h { handle := h, ctx := ctx, job := job, issuer := issuer, recordVa := va, since := t, time := t } })
    modS (fun s => match find s.contexts ctx with
      | none => s
      | some c => { s with contexts := put s.contexts ctx { c with jobs := c.jobs.map (fun j =>
          if j.number = job then { j with incomplete := j.incomplete + 1, begun := true } else j) } })
    return some h

/-- LAUNCH at the sideboard (13 R326). -/
def launchAt (a : Word) : M (Nat × Word) := do
  let x ← me
  let k := clusterOf (← myCore)
  let l ← myLaunch
  if bits a 5 0 != 0 then do
    denied a
    return (4, 0)
  else match ← holdEntry k x.ctx l.job (some x.launch) a (← timeOf (.sideboard k)) with
    | none => return (1, 0)
    | some h => return (0, word h)

/-- LAUNCH (13 R326). -/
def execLaunch (d a : BitVec 8) (s : State) : Host.Outcome State Fault Refusal :=
  runUnit (.launch d a) (fun w => do
    let v ← readOnce 0 w a
    waitOlder
    let (r, _) ← outward { kind := 35, addr := v, size := 8, data := [] } (do return (← atSideboard (launchAt v), [])) (some [v])
    writeName w d r
    retire) s

/-- The launch that a handle operand names for a context: 0 is the issuing thread's (13 R325, R327). -/
def State.named (s : State) (x : Thread) (a : Word) : Option Launch :=
  find s.launches (if a = 0 then x.launch else a.toNat)

/-- LWAIT's answer (13 R327, R328). -/
def lwaitAt (x : Thread) (a : Word) (aux : Nat) : M Word := do
  let s ← getS
  let sel := aux / 2
  match s.named x a, x.resume.reply with
  | l, some r => do
    raisePts r.time
    match l with
    | some l => if l.state.ended then modS (fun s => { s with launches := del s.launches l.handle }) else pure ()
    | none => pure ()
    return r.values.getD sel 0
  | none, none => return if sel = 0 then word (15 * 2 ^ 60) else 0
  | some l, none =>
    if l.ctx != x.ctx then return if sel = 0 then word (15 * 2 ^ 60) else 0
    else do
      let own ← myLaunch
      let mine := l.handle = x.launch || l.job = own.job
      if aux % 2 = 1 || mine then pure ()
      else do
        if l.state.ended then pure () else checkNext
        begunUntil l.state.ended (.launch l.handle) [a]
        raisePts l.time
      if aux % 2 = 0 && l.state.ended then modS (fun s => { s with launches := del s.launches l.handle }) else pure ()
      return l.report sel

/-- LWAIT (13 R327). -/
def execLwait (d a : BitVec 8) (s : State) : Host.Outcome State Fault Refusal :=
  runUnit (.lwait d a) (fun w => do
    let x ← me
    let aux := (← latch).aux
    let v ← readOnce 0 w a
    let r ← enterWord 36 v (lwaitAt x v aux)
    writeName w d r
    retire) s

/-- A launch whose cancellation would change nothing (13 R329). -/
def Launch.settled (l : Launch) : Bool := l.state.ended || l.cancelling

/-- The launches that a CANCEL names (13 R329; 12 R291). -/
def State.cancelTargets (s : State) (l : Launch) (whole : Bool) : List Launch :=
  (s.launches.map (·.2)).filter (fun m => !m.settled && (m.handle = l.handle || (whole && m.ctx = l.ctx && m.job = l.job)))

/-- CANCEL at the sideboard (13 R329): 1 where a cancellation starts. -/
def cancelAt (x : Thread) (a : Word) (whole : Bool) : M (Nat × Word) := do
  let s ← getS
  match s.named x a with
  | none => return (3, 0)
  | some l =>
    if l.ctx != x.ctx then do
      denied a
      return (4, 0)
    else return (0, if (s.cancelTargets l whole).isEmpty then 0 else 1)

/-- CANCEL (13 R329): an issuer that is itself cancelled writes d first. -/
def execCancel (d a : BitVec 8) (s : State) : Host.Outcome State Fault Refusal :=
  runUnit (.cancel d a) (fun w => do
    let whole := (← latch).aux = 1
    let v ← readOnce 0 w a
    waitOlder
    let x ← me
    let (r, _) ← outward { kind := 37, addr := 0, size := 8, data := [v, truth whole] } (do
      return (← atSideboard (cancelAt x v whole), [])) (some [v])
    writeName w d r
    retire
    if r = 1 && x.role != .trailing then
      let s ← getS
      match s.named x v with
      | none => pure ()
      | some l => for m in s.cancelTargets l whole do cancelLaunch m.handle
    else pure ()) s

/-- BARRIER (13 R330): the thread arrives and waits; the release ends it (`leaveBarrier`). -/
def execBarrier (d : BitVec 8) (s : State) : Host.Outcome State Fault Refusal :=
  runUnit (.barrier d) (fun w => do
    waitOlder
    noHeader w d
    checkNext
    let (v, _) ← outward { kind := 38, addr := 0, size := 0, data := [] } (parkBegun (.barrier d) []) (some [])
    writeName w d v
    retire) s

/-- EPBIND at the network interface (13 R331): the messages of an endpoint that leaves the slot go back to its queue (12 R312;
notes/assumptions/60.md). -/
def epbindAt (x : Thread) (a : Word) : M Word := do
  let s ← getS
  let job := (← myLaunch).job
  let core := coreOf x.home
  let j ← readJob core x.ctx job
  let old := (s.slot x.home).endpoint.map (·.2)
  let p := word (old.getD 0xFFFFFF)
  let free : M Unit := match old with
    | some ep => do
      writeEndpoint j ep 0 0
      let inbox := ((← getS).slot x.home).inbox
      let left ← spill core x.ctx job ep (inbox.filter (fun h => !h.error))
      modSlot x.home (fun sl => { sl with inbox := left ++ inbox.filter (·.error) })
    | none => pure ()
  let ep := bits a 23 0
  if bits a 63 24 != 0 then do
    denied a
    setBst 4
  else if ep = 0xFFFFFF then do
    free
    modSlot x.home (fun sl => { sl with endpoint := none })
    setBst 0
  else if j.count ≤ ep then do
    denied a
    setBst 4
  else do
    let (st, slot) ← readEndpoint j ep
    if st = 3 then do
      denied a
      setBst 4
    else if st = 0 then do
      free
      writeEndpoint j ep 1 x.home
      modSlot x.home (fun sl => { sl with endpoint := some (job, ep) })
      setBst 0
    else if st = 1 && slot = x.home then setBst 0
    else setBst 1
  return p

/-- EPBIND (13 R331). -/
def execEpbind (d a : BitVec 8) (s : State) : Host.Outcome State Fault Refusal :=
  runUnit (.epbind d a) (fun w => do
    let v ← readOnce 0 w a
    waitOlder
    let x ← me
    let (r, _) ← outward { kind := 39, addr := 0, size := 8, data := [v] } (do return (← epbindAt x v, [])) (some [v])
    writeName w d r
    retire) s

/-- The core that a MIGR goes to: the home's, the bank's, or one beside the home slice of the line; the address of a page is
checked as a load's (13 R332). -/
def migrTarget (x : Thread) (a : Word) : M Nat := do
  if a = 0 then return coreOf x.home
  else do
    checkRange a false
    if inAperture a then return bankOf a / 4
    else do
      let p ← translate a 0
      let s ← getS
      let k := besideOf (p.pa / 32)
      return (greatestBy (s.guestRoom x) (numbers (8 * k) 8)).getD (8 * k)

/-- The departure of a MIGR (13 R332): A has been read, and a destination that is a name of the home slot is written, before the thread
leaves (DESIGN CHOICE, notes/assumptions/62.md); the unit completes at the target. -/
def depart (w : IWord) (d : BitVec 8) (core : Nat) (home : Bool) : M Unit := do
  if needsHome d && !home then writeName w d 1 else pure ()
  let uid := (← me).uid
  sendAway (← myTid) core home
  match (← getS).threads.find? (fun p => p.2.uid = uid) with
  | some (t, _) => modThread t (fun x => { x with resume := { x.resume with
      reply := some { value := if needsHome d && !home then 0 else 1 }
      operands := some [] } })
  | none => pure ()

/-- MIGR (13 R332): a thread that moves completes at its target. -/
def execMigr (d a : BitVec 8) (s : State) : Host.Outcome State Fault Refusal :=
  runUnit (.migr d a) (fun w => do
    let x0 ← me
    match x0.resume.reply with
    | some r => do
      if r.value = 1 then writeName w d 1 else pure ()
      retire
    | none => do
      let v ← readName w a
      let target ← migrTarget x0 v
      let s ← getS
      let here := if v = 0 then (s.slot s.cur).state != .guest else target = coreOf s.cur
      noHeader w d
      if here then pure () else checkNext
      if here then writeName w d 1
      else if v = 0 then
        if s.olderDone (coreOf s.cur) x0 then return ← depart w d 0 true else park .stores
      else if s.mayMigrate x0 && (s.guestPlace x0 target).isSome then return ← depart w d target (coreOf x0.home = target)
      else writeName w d 0
      retire) s

end Sys2Proof.Machine
end

