-- ==== Sys2Proof/Machine/CacheEvents.lean ====
section
/-! DEFINITION. The events of translation, the memory system and logical time (02 R54; 08 R182, R193, R202; 09 R207 to R227;
14 R343; 15 R360, R361). -/

namespace Sys2Proof.Machine

/-- PAGE_WALK (14 R343). -/
def execPageWalk (tid : Nat) (s : State) : Host.Outcome State Fault Refusal := unit (.pageWalk tid) (pageWalk tid) s

/-- A load of a thread that waits for its line: the parked one, or an entry of the load-data queue. -/
structure Waiting where
  ea : Word
  line : Nat
  attr : Attr
  lease : Nat
  ch : Nat
  mask : LineMask
  seq : Nat
  older : Bool
  reply : Option Served
  step : Bool := false
  deriving DecidableEq, Repr

/-- The load that part 0 (the parked one) or k + 1 (entry k of the load-data queue) of a thread names, if it waits. -/
def State.waitingLoad (s : State) (tid part : Nat) : Option Waiting :=
  match s.thread tid with
  | none => none
  | some x =>
    if part = 0 then
      match x.park with
      | some (.line ea line attr lease false ch mask reply step) =>
        some { ea := ea, line := line, attr := attr, lease := lease, ch := ch, mask := mask, seq := s.fresh,
               older := s.olderDone (coreOf tid) x, reply := reply, step := step }
      | _ => none
    else match x.ldq[part - 1]? with
      | some e =>
        if e.val.isSome then none
        else some { ea := e.ea, line := e.line, attr := e.attr, lease := e.lease, ch := e.ch, mask := e.mask, seq := e.seq,
                    older := (s.pendingStores (coreOf tid) x.uid).all (fun b => decide (e.seq < b.id)) &&
                      (x.ldq.take (part - 1)).all (fun f => f.attr != .coh || f.val.isSome),
                    reply := e.served }
      | none => none

/-- Puts the home's answer to a load. -/
def setReply (tid part : Nat) (r : Option Served) : M Unit :=
  modThread tid (fun x =>
    if part = 0 then match x.park with
      | some (.line ea line attr lease excl ch mask _ step) => { x with park := some (.line ea line attr lease excl ch mask r step) }
      | _ => x
    else match x.ldq[part - 1]? with
      | some e => { x with ldq := setAt x.ldq (part - 1) { e with served := r } }
      | none => x)

/-- A load's line arrives at its instruction, or at its entry of the load-data queue (09 R213; 10 R234). -/
def finishLoad (tid part : Nat) (q : Waiting) (v : Served) : M Unit := do
  if part = 0 then pure () else clearErr (.ldq tid (part - 1))
  modThread tid (fun x =>
    if part = 0 then { x with
      park := none
      resume := { x.resume with
        ea := if q.step then x.resume.ea else some q.ea
        served := x.resume.served ++ [{ v with line := q.line, attr := q.attr }] } }
    else match x.ldq[part - 1]? with
      | some e => { x with ldq := setAt x.ldq (part - 1) { e with
          served := none
          val := some (extendBytes e.size e.signed (fromByte v.data (e.ea.toNat % 32)))
          poison := v.poison } }
      | none => x)

/-- The name of a load of a thread among requests. -/
def Thread.entryOf (x : Thread) (part : Nat) : Nat := if part = 0 then 0 else ((x.ldq[part - 1]?).map (·.seq + 1)).getD 0

/-- Whether a load of a thread waits for its home's answer on a COH line: the one with a name, or any (09 R209). -/
def Thread.reads (x : Thread) (line : Nat) (entry : Option Nat) : Bool :=
  (entry.getD 0 = 0 && match x.park with
    | some (.line _ l .coh _ false _ _ none _) => l = line
    | _ => false) ||
  x.ldq.any (fun e => entry.getD (e.seq + 1) = e.seq + 1 && e.val.isNone && e.served.isNone && e.attr = .coh && e.line = line)

/-- Whether some access of a core waits for a line exclusively (09 R211). `placed`: one that puts the line into the core's L1, which
one with a cache hint of 1 does not (02 R37; 08 R187). -/
def State.wantsExcl (s : State) (core line : Nat) (placed : Bool := false) : Bool :=
  (s.core core).buffer.any (fun e => e.attr = .coh && e.line = line && !e.waits && !(placed && e.ch = 1)) ||
  s.threads.any (fun p => coreOf p.1 = core && match p.2.park with
    | some (.line _ l _ _ true ch _ _ _) => l = line && !(placed && ch = 1)
    | some (.hold l) => l = line
    | some (.atomic _ _ l _ _) => l = line
    | _ => false)

/-- Whether a request still waits for its line; what made it may have ended. -/
def State.stillWaits (s : State) (line : Nat) : Request → Bool
  | .read uid entry => match s.byUid uid with
    | some (tid, x) => x.reads line (some entry) && !s.usable (coreOf tid) line
    | none => false
  | .exclusive core => s.wantsExcl core line
  | .far uid => match s.byUid uid with
    | some (_, x) => (match x.park with
      | some (.atomic _ _ l _ _) => l = line
      | _ => false)
    | none => false

/-- The requests for a line that wait since a hold, in arrival order (09 R222). -/
def State.queueAt (s : State) (line : Nat) : List Request := (findD s.requests [] line).filter (s.stillWaits line)

/-- A request for a line reaches its home (09 R209, R211, R221, R222). While the owner's copy is held it joins the requests that wait at
the owner, and is not performed. Else it is performed once no core owns the line, and those that have waited are in their order. It
answers whether it is. -/
def enqueue (line : Nat) (r : Request) : M Bool := do
  let s ← getS
  let q := s.queueAt line
  if s.heldAway line then do
    need (!q.contains r)
    set { s with requests := put s.requests line (q ++ [r]) }
    return false
  else do
    need ((s.ownerAt line).isNone && (q.isEmpty || q.head? = some r))
    set { s with requests := if q.length ≤ 1 then del s.requests line else put s.requests line (q.drop 1) }
    return true

/-- COH_READ (09 R209): the home serves a read of a core with no usable copy, once no core owns the line, and answers with the lease it grants; a core whose expired
copy is still the line's state, and has not been discarded (08 R204), is sent no data. -/
def execCohRead (tid part : Nat) (s : State) : Host.Outcome State Fault Refusal :=
  unit (.cohRead tid part) (do
    let s ← getS
    let q ← needSome (s.waitingLoad tid part)
    let x ← needSome (s.thread tid)
    let core := coreOf tid
    need (q.attr = .coh && q.reply.isNone && !s.usable core q.line)
    if ← enqueue q.line (.read x.uid (x.entryOf part)) then do
      let held := ((← l1Read core q.line .coh).filter (!·.discarded)).map (·.wts)
      let t := s.pts core
      raise (.slice (sliceOf q.line)) t
      fillHome q.line true
      modS (fun s => s.markSoon core q.line .coh q.ch)
      let (w0, rts) := (← getS).stamps q.line
      let r := tmax rts (t + BitVec.ofNat 24 q.lease)
      setStamps q.line w0 r
      let (d, bad) := (← getS).homeLine q.line
      let renew := if held = some w0 then held else none
      setReply tid part (some {
        line := q.line
        attr := .coh
        data := if renew.isSome then 0 else d
        poison := renew.isNone && bad
        wts := (tagOf w0 r).1
        rts := r
        once := !(← getS).atHome q.line
        renew := renew })
    else pure ()) s

/-- What a reply to a read brings to a core: a renewal the data of the core's copy, if that is still the one renewed (09 R209). -/
def Served.renewed (v : Served) (copy : Option L1Line) : Option Served :=
  match v.renew, copy with
  | none, _ => some v
  | some w, some y => if y.wts = w && !y.excl then some { v with
      data := y.data
      poison := y.poison } else none
  | some _, none => none

/-- LOAD_REPLY (09 R209, R213; 08 R181, R184): the line of a load arrives and is used, or the load is performed again where its
lease has passed. A cache hint of 1 places no new line (08 R187). -/
def execLoadReply (tid part : Nat) (s : State) : Host.Outcome State Fault Refusal :=
  unit (.loadReply tid part) (do
    let s ← getS
    let q ← needSome (s.waitingLoad tid part)
    let core := coreOf tid
    match ← performLoad tid q.line q.attr q.mask q.seq q.older with
    | .got v => do
      modS (fun s => s.markSoon core q.line q.attr q.ch)
      finishLoad tid part q v
    | .own => need false
    | .siblings _ => need false
    | .miss =>
      match q.attr with
      | .coh => do
        let r ← needSome q.reply
        let copy ← l1Read core q.line .coh
        match r.renewed copy with
        | none => setReply tid part none
        | some v =>
          if atMost (s.pts core) v.rts then do
            raise (.core core) v.wts
            if !v.once && (q.ch != 1 || copy.isSome) then
              l1Place core q.line .coh { data := v.data, wts := v.wts, rts := v.rts, poison := v.poison, soon := q.ch = 2 }
            else pure ()
            finishLoad tid part q v
          else setReply tid part none
      | a => do
        let x ← needSome (s.thread tid)
        let through := a = .priv && s.isMigratory x.launch
        let (d, bad) ← if a = .priv then privRead core q.line through else (do
          fillHome q.line false
          return (← getS).homeLine q.line)
        modS (fun s => s.markSoon core q.line a q.ch)
        if q.ch != 1 && (← getS).atHome q.line && !through then
          l1Place core q.line a { data := d, poison := bad, soon := q.ch = 2 }
        else pure ()
        finishLoad tid part q (served q.line a d bad)) s

/-- The accesses of a core that waited for a line exclusively go on. -/
def wakeExcl (core line : Nat) : M Unit := do
  for p in (← getS).threads do
    if coreOf p.1 = core then
      match p.2.park with
      | some (.line _ l _ _ true _ _ _ _) => if l = line then modThread p.1 (fun x => { x with park := none }) else pure ()
      | some (.atomic _ _ l _ _) => if l = line then modThread p.1 (fun x => { x with park := none }) else pure ()
      | _ => pure ()
    else pure ()

/-- The addresses at which threads of a core wait in LDEX for a line, with their slots and cache hints. -/
def State.exclusiveLoads (s : State) (core line : Nat) : List (Nat × Word × Nat) :=
  s.threads.filterMap (fun p => match p.2.park with
    | some (.line ea l _ _ true ch _ _ _) => if coreOf p.1 = core && l = line then some (p.1, ea, ch) else none
    | _ => none)

/-- The threads of a core that wait to hold a line, in order (10 R241). -/
def State.holders (s : State) (core line : Nat) : List (Nat × Thread) :=
  ((s.core core).holdQueue.filter (fun q => q.1 = line)).filterMap (fun q => s.byUid q.2)

/-- A line that takes no place in the L1 is delivered to the LDEX that wait for it (08 R191; 02 R37): each reads it at its core's time,
which its lease takes in (09 R211). A HOLD that waits for it is granted it, and its hold ends with the grant (DESIGN CHOICE,
notes/assumptions/65.md): no access waits for a pin. -/
def grantOnce (core line : Nat) (d : LineData) (bad : Bool) : M Unit := do
  let takers := (← getS).exclusiveLoads core line
  let holders := (← getS).holders core line
  need (!takers.isEmpty || !holders.isEmpty)
  for h in holders do
    modCore core (fun c => { c with holdQueue := c.holdQueue.filter (fun q => q.2 != h.2.uid) })
    modThread h.1 (fun x => { x with
      park := none
      resume := { x.resume with reply := some { value := 1 } } })
  for p in takers do
    let (w, r) := (← getS).stamps line
    raise (.core core) w
    let t ← timeOf (.core core)
    setStamps line w (tmax r t)
    let v : Served := { line := line, attr := .coh, data := d, poison := bad, wts := w, rts := tmax r t, once := true }
    modThread p.1 (fun x => { x with
      park := none
      resume := { x.resume with
        ea := some p.2.1
        served := x.resume.served ++ [v] } })

/-- EXCLUSIVE_REQUEST (09 R211): the home grants a line that no core owns; a core whose copy is the line's state is sent no data. -/
def execExclusiveRequest (core line : Nat) (s : State) : Host.Outcome State Fault Refusal :=
  unit (.exclusiveRequest core line) (do
    let s ← getS
    need (s.wantsExcl core line && s.ownerAt line != some core)
    if ← enqueue line (.exclusive core) then do
      raise (.slice (sliceOf line)) (s.pts core)
      fillHome line true
      let (d, bad) := (← getS).homeLine line
      let (w, r) := (← getS).stamps line
      if s.wantsExcl core line true && (← getS).atHome line then do
        let (d, bad) := match ← l1Read core line .coh with
          | some y => if y.wts = w && !y.discarded then (y.data, y.poison) else (d, bad)
          | none => (d, bad)
        let soon := (s.core core).buffer.any (fun e => e.attr = .coh && e.line = line && e.ch = 2) ||
          (s.exclusiveLoads core line).any (fun p => p.2.2 = 2)
        modS (fun s => s.markSoon core line .coh (if soon then 2 else 0))
        modS (fun s => match find s.l2 line with
          | some x => { s with l2 := put s.l2 line { x with owner := some core } }
          | none => s)
        l1Place core line .coh { data := d, excl := true, wts := w, rts := r, poison := bad, soon := soon }
        wakeExcl core line
      else grantOnce core line d bad
    else pure ()) s

/-- Whether a recall serves a request (09 R212, R222): the first of those that have waited for a hold, or one of a core that does not
own the line; `keep`: a read that finds no usable copy in its core (09 R209). -/
def State.recallServes (s : State) (core line : Nat) (keep : Bool) : Bool :=
  match (s.queueAt line).head? with
  | some (.read _ _) => keep
  | some _ => !keep
  | none =>
    if keep then s.threads.any (fun p => coreOf p.1 != core && p.2.reads line none && !s.usable (coreOf p.1) line)
    else s.cores.any (fun c => c.1 != core && s.wantsExcl c.1 line)

/-- RECALL (09 R212): a request of another core waits; one that serves a read leaves the owner a shared copy, any other none
(notes/assumptions/34.md). -/
def execRecall (line : Nat) (keep : Bool) (s : State) : Host.Outcome State Fault Refusal :=
  unit (.recall line keep) (do
    let s ← getS
    let core ← needSome (s.ownerAt line)
    need (s.recallServes core line keep)
    recallNow line keep) s

/-- The entry of a store buffer with a number, once it is the first of its thread and its pair has let it through (09 R216; 15
R381). -/
def firstStore (core entry : Nat) (a : Attr) : M StEntry := do
  let s ← getS
  let e ← needSome ((s.core core).buffer.find? (fun e => e.id = entry))
  need (e.attr = a && !e.waits)
  let head ← needSome ((s.core core).buffer.find? (fun x => x.uid = e.uid))
  need (head.id = e.id)
  return e

/-- A store leaves the store buffer. -/
def storeDone (core entry : Nat) : M Unit := modCore core (fun c => { c with buffer := c.buffer.filter (fun x => x.id != entry) })

/-- A store has taken its timestamp, its core's time: a thread that read it early and has left the core keeps the time for its FENCE.SIB
(09 R218). -/
def noteEarly (core entry : Nat) : M Unit :=
  modS (fun s =>
    let t := extendTime s.floor (s.pts core)
    { s with cores := s.cores.map (fun c => if c.1 = core then c else (c.1, { c.2 with
      slots := mapVals (fun (sl : Slot) => { sl with thread := sl.thread.map (fun x =>
        if x.early.contains entry then { x with earlyTime := some (max (x.earlyTime.getD 0) t) } else x) }) c.2.slots })) })

/-- A COH store whose line takes no place in the L1 is performed at the home: one that the home serves by bypass (08 R191), or one with
a cache hint of 1 (02 R37; 08 R187). Its timestamp is that of the writer's jump (09 R211). -/
def storeAtHome (core : Nat) (e : StEntry) : M Unit := do
  let s ← getS
  need (s.ownerAt e.line != some core)
  if ← enqueue e.line (.exclusive core) then do
    raise (.slice (sliceOf e.line)) (s.pts core)
    fillHome e.line true
    need (e.ch = 1 || !(← getS).atHome e.line)
    let (_, r) := (← getS).stamps e.line
    raise (.core core) (r + 1)
    let t ← timeOf (.core core)
    writeAsked e.line e.mask e.data
    setStamps e.line t t
    modS (fun s => s.markSoon core e.line .coh e.ch)
    noteEarly core e.id
    storeDone core e.id
  else pure ()

/-- STORE_TIMESTAMP (09 R211, R213): a COH store is performed on the exclusive copy by the writer's jump. -/
def execStoreTimestamp (core entry : Nat) (s : State) : Host.Outcome State Fault Refusal :=
  unit (.storeTimestamp core entry) (do
    let e ← firstStore core entry .coh
    let s ← getS
    need (!(s.threads.any (fun p => p.2.uid = e.uid && p.2.ldq.any (fun l => l.attr = .coh && l.val.isNone && decide (l.seq < e.id)))))
    let copy ← l1Read core e.line .coh
    match copy.filter (·.excl) with
    | none => storeAtHome core e
    | some y => do
      raise (.core core) (y.rts + 1)
      let t ← timeOf (.core core)
      l1Put core e.line .coh { y with
        data := mergeLine y.data e.data e.mask
        dirty := y.dirty ||| e.mask
        wts := t
        rts := t
        poison := y.poison && e.mask != fullMask }
      modS (fun s => s.markSoon core e.line .coh e.ch)
      noteEarly core entry
      storeDone core entry) s

/-- PRIV_STORE_ENTERS_L1 (08 R182; 12 R305). -/
def execPrivStoreEntersL1 (core entry : Nat) (s : State) : Host.Outcome State Fault Refusal :=
  unit (.privStoreEntersL1 core entry) (do
    let e ← firstStore core entry .priv
    privWrite core e.line e.mask e.data e.through e.ch
    storeDone core entry) s

/-- FAR_ATOMIC (09 R221): the home performs the atomic of a thread once no core owns the line; a poisoned line is not written
(15 R364), nor one whose old word is to be the header of a message and is none: its unit traps with no effect (02 R55; 13 R333). -/
def execFarAtomic (tid : Nat) (s : State) : Host.Outcome State Fault Refusal :=
  unit (.farAtomic tid) (do
    let s ← getS
    let x ← needSome (s.thread tid)
    match x.park with
    | some (.atomic k b line off header) => do
      need (s.ownerAt line != some (coreOf tid))
      if ← enqueue line (.far x.uid) then do
        let t := s.pts (coreOf tid)
        raise (.slice (sliceOf line)) t
        fillHome line true
        let (d, bad) := (← getS).homeLine line
        let (_, rts) := (← getS).stamps line
        let tau := tmax t (rts + 1)
        let old := fromByte d off
        let traps := header && headerless old
        let r : Reply := if bad then { time := t, poison := true } else { value := old, time := if traps then t else tau }
        if bad || traps then pure ()
        else do
          writeAsked line (maskOf off 8) (atByte (atomicWord k old b) off)
          setStamps line tau tau
        modThread tid (fun x => { x with
          park := none
          resume := { x.resume with reply := some r } })
      else pure ()
    | _ => need false) s

/-- WRITE_BACK (08 R182): the home merges the dirty bytes of a PRIV line. -/
def execWriteBack (entry : Nat) (s : State) : Host.Outcome State Fault Refusal :=
  unit (.writeBack entry) (do
    let s ← getS
    let w ← needSome (find s.wbs entry)
    need (!w.toMemory)
    set { s with wbs := del s.wbs entry }
    homeWrite w.line w.mask w.data w.poison) s

/-- L2_FILL (08 R189, R193): the data of a missed line fills its slice; `shared`: a compressible line shares a data entry with another
compressible line of its set. A line that its home serves by bypass is filled by none (08 R191). -/
def execL2Fill (line : Nat) (shared : Bool) (s : State) : Host.Outcome State Fault Refusal :=
  unit (.l2Fill line shared) (do
    let s ← getS
    need (!s.atHome line && !s.allPinned line && (s.missLines line).any (fun l => (findD (s.port (portOf l)).windows [] (l / 8)).contains l))
    fillLine line false shared) s

/-- MERGE_WINDOW_CLOSE (08 R193, R194): one line is a single read, two or more a burst. -/
def execMergeWindowClose (block : Nat) (s : State) : Host.Outcome State Fault Refusal :=
  unit (.mergeWindowClose block) (do
    let s ← getS
    let n := portOf (8 * block)
    let ls ← needSome (find (s.port n).windows block)
    modPort n (fun p => p.closeWindow block ls)) s

/-- The cores whose threads wait in a DISCARD of a line. -/
def State.discarding (s : State) (line : Nat) : List Nat :=
  s.threads.filterMap (fun p => match p.2.park with
    | some (.discard lines) => if lines.any (fun l => l.1 = line) then some (coreOf p.1) else none
    | _ => none)

/-- DEFERRED_DISCARD (08 R202, R204): a discard that waited for a pin or a hold is performed at the home, and in the cores that wait
for it. -/
def execDeferredDiscard (line : Nat) (s : State) : Host.Outcome State Fault Refusal :=
  unit (.deferredDiscard line) (do
    let s ← getS
    need (s.discards.contains line && !s.discardWaits line)
    discardHome line (s.discarding line)
    for p in s.threads do
      match p.2.park with
      | some (.discard lines) => for l in lines do
          if l.1 = line then dropCopies (coreOf p.1) line l.2 else pure ()
      | _ => pure ()
    modS (fun s => { s with discards := s.discards.filter (· != line) })) s

/-- HOLD_CAP (09 R222): the cap of a hold expires. -/
def execHoldCap (tid line : Nat) (s : State) : Host.Outcome State Fault Refusal :=
  unit (.holdCap tid line) (do
    let x ← needSome ((← getS).thread tid)
    need (x.holds.contains line)
    endHold tid line) s

/-- The contexts that own slots of a core and have a valid entry there (09 R207). -/
def State.owners (s : State) (core : Nat) : List Nat :=
  (((numbers (64 * core) 64).filterMap s.ownerOf).filter (fun c => (s.entryOf core c).isSome)).dedup

/-- The tick period of a core, 0 where ticks are off (09 R207). -/
def State.period (s : State) (core : Nat) : Nat :=
  (leastBy id (((s.owners core).map (fun c => bits (s.entry core c).time 15 0)).filter (· != 0))).getD 0

/-- Whether ticks are on at a core (09 R207). -/
def State.ticking (s : State) (core : Nat) : Bool := s.period core != 0

/-- PTS_TICK (09 R207). -/
def execPtsTick (core : Nat) (s : State) : Host.Outcome State Fault Refusal :=
  unit (.ptsTick core) (do
    let s ← getS
    need (s.ticking core)
    modCore core (fun c => { c with ticked := c.cycle })
    raise (.core core) (s.pts core + 1)) s

/-- FLOOR_RAISE (09 R225): G becomes the latest own time less 2^21, where that is later. -/
def execFloorRaise (s : State) : Host.Outcome State Fault Refusal :=
  unit .floorRaise (do
    let s ← getS
    let g := BitVec.ofNat 24 s.floor
    let latest := s.clocks.foldl (fun t c => tmax t c.2.t) g
    let new := latest - BitVec.ofNat 24 (2 ^ 21)
    if later g new then set { s with floor := (s.floor + (new - g).toNat) % 2 ^ 40 } else pure ()) s

/-- OWN_TIME_RAISE (09 R225): an agent whose own time is earlier than G raises it to G. -/
def execOwnTimeRaise (agent : Agent) (s : State) : Host.Outcome State Fault Refusal :=
  unit (.ownTimeRaise agent) (do raise agent (BitVec.ofNat 24 (← getS).floor)) s

/-- Whether a stamp is more than 2^21 earlier than a time (09 R226). -/
def stale (stamp t : Stamp) : Bool := later stamp t && decide (2 ^ 21 < (t - stamp).toNat)

/-- L2_STAMP_SWEEP (09 R226): a line's stamps, and the slice's eviction time, are brought to within 2^21 of lt. -/
def execL2StampSweep (slice line : Nat) (s : State) : Host.Outcome State Fault Refusal :=
  unit (.l2StampSweep slice line) (do
    let s ← getS
    let lt := (s.clock (.slice slice)).t
    let low := lt - BitVec.ofNat 24 (2 ^ 21)
    modSlice slice (fun sl => if stale sl.ets lt then { sl with ets := low } else sl)
    match find s.l2 line with
    | some x =>
      if sliceOf line = slice && x.tag.isSome && x.owner.isNone && stale (s.stamps line).2 lt then setStamps line low low
      else pure ()
    | none => pure ()) s

/-- CORE_STAMP_SWEEP (09 R226): a shared copy with an old lease is dropped; an exclusive copy with an old write returns to its
home, unless held. -/
def execCoreStampSweep (core line : Nat) (s : State) : Host.Outcome State Fault Refusal :=
  unit (.coreStampSweep core line) (do
    let s ← getS
    let y ← needSome (find (s.core core).l1 (l1Key line .coh))
    let t := s.pts core
    if y.excl then
      if y.held.isNone && stale y.wts t then recallNow line false else pure ()
    else if stale y.rts t then l1Drop core line .coh else pure ()) s

/-- STEPPED_ADVANCE (09 R227): a delayed advance goes on by 2^20, or by what is left, when that fits. -/
def execSteppedAdvance (agent : Agent) (s : State) : Host.Outcome State Fault Refusal :=
  unit (.steppedAdvance agent) (do
    let s ← getS
    let c := s.clock agent
    let t ← needSome c.late
    if later c.t t then do
      let n := min (t - c.t).toNat (2 ^ 20)
      need (n ≤ c.room)
      let now := c.t + BitVec.ofNat 24 n
      set (s.setClock agent { t := now, room := c.room - n, late := if now = t then none else some t })
    else set (s.setClock agent { c with late := none })) s

/-- STORAGE_SWEEP (15 R360): a sweep meets a stored word of a cache or a bank. -/
def execStorageSweep (loc : Loc) (s : State) : Host.Outcome State Fault Refusal :=
  unit (.storageSweep loc) (match loc with
    | .l1 c k _ => modS (fun s => s.checkL1 c k)
    | .l1i c l _ => modS (fun s => s.checkI c l)
    | .l2 l _ => modS (fun s => s.checkL2 l)
    | .bank b w => checkBankWord b w
    | .shadow k copy jid l _ => checkShadow k copy jid l
    | _ => need false) s

/-- The core of a register-class entry. -/
def locCore : Loc → Nat
  | .reg c _ => c
  | .sh c _ => c
  | .cell c _ => c
  | .ldq t _ => coreOf t
  | .sdq t _ => coreOf t
  | .compose t _ => coreOf t
  | .step t _ _ => coreOf t
  | _ => 0

/-- Marks a register-class entry poisoned (15 R361). -/
def poisonEntry (loc : Loc) : M Unit :=
  match loc with
  | .reg c n => modCore c (fun k => { k with rf := put k.rf n { findD k.rf {} n with poison := true } })
  | .sh c n => modCore c (fun k => { k with sh := put k.sh n { findD k.sh {} n with poison := true } })
  | .cell c n => modCore c (fun k => { k with cells := put k.cells n { findD k.cells {} n with poison := true } })
  | .ldq t n => modThread t (fun x => { x with ldq := x.ldq.mapIdx (fun i e => if i = n then { e with
      poison := true
      swept := true } else e) })
  | .sdq t n => modThread t (fun x => { x with sdq := x.sdq.mapIdx (fun i e => if i = n then (e.1, true) else e) })
  | .compose t n => modSlot t (fun sl => { sl with compose := sl.compose.mapIdx (fun i e => if i = n then (e.1, true) else e) })
  | .step t name n => modThread t (fun x => { x with recipes := x.recipes.map (fun p =>
      if p.1 = name then (p.1, { p.2 with body := p.2.body.mapIdx (fun i st => if i = n then { st with poison := true } else st) }) else p) })
  | _ => need false

/-- REGISTER_SWEEP (15 R361): an entry whose parity fails is marked poisoned and counted. -/
def execRegisterSweep (loc : Loc) (s : State) : Host.Outcome State Fault Refusal :=
  unit (.registerSweep loc) (do
    let s ← getS
    let e ← needSome (s.errs.find? (fun e => e.1 = loc))
    need (popCount e.2 % 2 = 1)
    poisonEntry loc
    modS (fun s => { s with errs := s.errs.filter (fun x => x.1 != loc) })
    modCore (locCore loc) (fun c => { c with regPoison := c.regPoison + 1 })) s

/-- Whether what a parked thread waits for has come about (02 R54; 12 R286). Waits that another event ends answer false. -/
def State.conditionHolds (s : State) (tid : Nat) (x : Thread) (w : Wait) : Bool :=
  let core := coreOf tid
  let slot := slotOf tid
  let c := s.core core
  let calm := fun (a : Agent) => (s.clock a).late.isNone
  match w with
  | .walk va _ _ => (tlbFind c.tlb x.ctx va.toNat).isSome || (tlbFind (s.cluster (clusterOf core)).tlb x.ctx va.toNat).isSome
  | .line _ line _ _ excl _ _ _ _ => excl && s.holdsExcl core line
  | .atomic _ _ line _ _ => s.holdsExcl core line
  | .ldq => match x.ldq with
    | [] => true
    | e :: _ => e.val.isSome
  | .fwi => c.full.contains ((slot + 63) % 64) || !s.cellUsable core ((slot + 63) % 64)
  | .fwo => s.cellFree tid x || !s.cellUsable core slot
  | .rcv => !(s.slot x.home).inbox.isEmpty
  | .stores => s.olderDone core x
  | .sibling ids => !s.anyBuffered ids
  | .room ids => ids.any (fun i => !c.buffer.any (fun e => e.id = i))
  | .fence => s.fenceDone core x
  | .writeBacks => !s.wbs.any (fun b => !b.2.toMemory && b.2.core = core)
  | .hold line => c.holdTurn line x.uid
  | .discard lines => !lines.any (fun l => s.discards.contains l.1)
  | .advance n => calm (.core core) && calm (.sideboard (clusterOf core)) && decide (n ≤ (s.clock (.core core)).room)
  | .job jid => match c.status.find? (fun e => e.jid = jid) with
    | some e => e.ended.isSome
    | none => true
  | .launch h => match find s.launches h with
    | some l => l.state.ended
    | none => true
  | .barrier _ => x.resume.reply.isSome
  | .shoot _ _ ids uids jobs => s.landed ids uids jobs
  | .saves uids => !s.threads.any (fun p => uids.contains p.2.uid && !p.2.dead)
  | .pairValue => match s.partner tid, x.role with
    | some y, .trailing => !y.values.isEmpty
    | _, .trailing => false
    | _, _ => decide (x.values.length < 16) && decide (x.effects.length < 16)
  | .effect _ => match s.partner tid, x.role with
    | some y, .trailing => !y.effects.isEmpty
    | _, _ => false
  | _ => false

/-- THREAD_READY (02 R54): a parked thread becomes ready once its condition holds; a SHOOT and a BARRIER complete (14 R344; 13 R330). -/
def execThreadReady (tid : Nat) (s : State) : Host.Outcome State Fault Refusal :=
  unit (.threadReady tid) (do
    let s ← getS
    let x ← needSome (s.thread tid)
    let w ← needSome x.park
    need (s.conditionHolds tid x w)
    match w with
    | .shoot i va _ _ _ => completeParked tid (pure ()) (finishShoot i va ((x.resume.reply.map (·.value)).getD 0))
    | .barrier _ => finishBarrier tid
    | _ => modThread tid (fun x => { x with park := none })) s

end Sys2Proof.Machine
end

