-- ==== Sys2Proof/Machine/EngineOps.lean ====
section
/-! DEFINITION. The instructions on engine jobs: MM, MMS, CPY, COLL, JWAIT, JPOLL (06 R158 to R161; 10 R248, R255). -/

namespace Sys2Proof.Machine

/-- An engine command (06 R158; 10 R248, R255): the parameter group is read, the thread parks until the engine answers, and the
identity is written and then bst. A name that discards the identity leaves no status entry behind (06 R161). -/
def engineCommand (kind : Nat) (d n : BitVec 8) (w : IWord) : M Unit := do
  let ws ← readGroupOnce 0 w n
  waitOlder
  noHeader w d
  let keep := !(d = 247#8 || d = 254#8 || d = 255#8)
  let (v, st) ← outward { kind := 40 + kind, addr := 0, size := 64, data := ws } (do
    match (← me).resume.reply with
    | some r => do
      raisePts r.time
      return (r.value, [word r.status])
    | none => do
      checkNext
      parkBegun (.engine kind ws keep) ws) (some ws)
  writeName w d v
  setBst (st.headD 0).toNat
  retire

/-- MM (06 R158). -/
def execMm (d a : BitVec 8) (s : State) : Host.Outcome State Fault Refusal := runUnit (.mm d a) (engineCommand 0 d a) s

/-- MMS (06 R158). -/
def execMms (d a : BitVec 8) (s : State) : Host.Outcome State Fault Refusal := runUnit (.mms d a) (engineCommand 1 d a) s

/-- CPY (10 R248). -/
def execCpy (d a : BitVec 8) (s : State) : Host.Outcome State Fault Refusal := runUnit (.cpy d a) (engineCommand 2 d a) s

/-- COLL (10 R255). -/
def execColl (d a : BitVec 8) (s : State) : Host.Outcome State Fault Refusal := runUnit (.coll d a) (engineCommand 3 d a) s

/-- The status entry of an identity, as a thread of a core asks for it (06 R160). -/
def State.statusOf (s : State) (core : Nat) (x : Thread) (id : Nat) : Option StatusEntry :=
  if id = 0 || id / 4096 % 8 != core % 8 then none
  else ((s.core core).status.find? (fun e => e.jid = id)).bind (fun e => if e.ctx = x.ctx then some e else none)

/-- A JWAIT has returned its word: the entry is freed unless another JWAIT still waits on it (06 R160, R161). -/
def freeEntry (core id uid : Nat) : M Unit := do
  let s ← getS
  modCore core (fun c => { c with status := c.status.filterMap (fun e =>
    if e.jid = id then
      let left := e.waiting.filter (fun u => u != uid && (s.byUid u).any (fun p => p.2.resume.reply.isSome))
      if left.isEmpty then none else some { e with waiting := left }
    else some e) })

/-- What JWAIT and JPOLL answer (06 R160) for the identity that a word names. -/
def jobWord (wait : Bool) (v : Word) : M Word := do
  let id := bits v 15 0
  let x ← me
  let core ← myCore
  match x.resume.reply with
  | some r => do
    raisePts r.time
    freeEntry core id x.uid
    return r.value
  | none =>
    match (← getS).statusOf core x id with
    | none => return 8
    | some e =>
      match e.ended with
      | none => if wait then parkBegun (.job id) [v] else return 1
      | some (w, t) => do
        raisePts t
        if wait then freeEntry core id x.uid else pure ()
        return w

/-- JWAIT (06 R160). -/
def execJwait (d a : BitVec 8) (s : State) : Host.Outcome State Fault Refusal :=
  runUnit (.jwait d a) (fun w => do
    let v ← readOnce 0 w a
    let r ← enterWord 44 v (jobWord true v)
    writeName w d r
    retire) s

/-- JPOLL (06 R160). -/
def execJpoll (d a : BitVec 8) (s : State) : Host.Outcome State Fault Refusal :=
  runUnit (.jpoll d a) (fun w => do
    let v ← readName w a
    let r ← enterWord 45 v (jobWord false v)
    writeName w d r
    retire) s

end Sys2Proof.Machine
end

