-- ==== Sys2Proof/Machine/Saves.lean ====
section
/-! DEFINITION. Pre-emption, saving and restoring of threads (07 R173; 12 R283, R288, R306; 15 R374 to R377, R382). -/

namespace Sys2Proof.Machine

/-- Whether a thread has stopped for its save. -/
def Thread.saving (x : Thread) : Bool := match x.park with
  | some (.save _ _) => true
  | _ => false

/-- Whether a thread is in an instruction that a pre-emption lets complete (15 R374): it has data of its own access or a reply, or a pair's
comparator has met it, or it is an RCP whose words take their turns (07 R164). A trailing thread whose leading one has been withdrawn is not. -/
def Thread.midway (x : Thread) : Bool :=
  x.resume.reply.isSome || (!x.resume.served.isEmpty && x.resume.ea.isSome) || !x.resume.entered.isEmpty || x.resume.body.isSome ||
  (x.released.isSome && match x.park with
    | some (.barrier _) => false
    | some (.hold _) => false
    | some .pairValue => false
    | some (.bank _) => false
    | _ => true)

/-- Whether both threads of a pair are far enough for this one to stop: the trailing thread stops after the leading one, once
it has taken every value and matched every effect (15 R382). -/
def State.pairStops (s : State) (tid : Nat) (x : Thread) : Bool :=
  match x.role, s.partner tid with
  | .trailing, some y => y.saving && y.values.isEmpty && y.effects.isEmpty
  | _, _ => true

/-- The thread as a pre-emption stops it (15 R374): between two words with its latch, or at an instruction that is withdrawn or
abandoned; none while the instruction in progress must first complete, or the thread runs in privileged mode (15 R370). A trailing
thread that waits for its leading one in a BARRIER has arrived with it (13 R330). -/
def State.stopped (s : State) (tid : Nat) (x : Thread) : Option Thread :=
  let back := fun (arrived : Option (BitVec 8)) (start : Option (BitVec 16)) => some { x with
    pc := x.first
    unitLen := 0
    latch := {}
    resume := {}
    released := none
    park := some (.save arrived start) }
  let trailing := x.role = .trailing
  if x.preempt.isNone || prv (s.slot tid).tstat || x.midway || !s.pairStops tid x then none
  else match x.park with
    | none => if 0 < x.resume.turns || !x.resume.served.isEmpty then back none none else some { x with
        resume := {}
        park := some (.save none none) }
    | some w => match w with
      | .bank n => match find s.bankOps n with
        | some op => match op.kind, op.reply with
          | .lde _, none => back none none
          | _, _ => none
        | none => none
      | .line _ _ _ _ _ _ _ _ step => if step then back none none else none
      | .work _ m start => back none (if start then some m else none)
      | .barrier d => back (some d) none
      | .pairValue =>
        let arrived := trailing && (x.released.map (·.kind)) = some 38 && match (s.partner tid).bind (·.park) with
          | some (.save (some _) _) => true
          | _ => false
        if !trailing && x.released.isSome then none else back (if arrived then some 0 else none) none
      | .effect _ | .pairTrap _ _ => if trailing then back none none else none
      | .walk _ _ _ | .ldq | .fwi | .fwo | .rcv | .stores | .sibling _ | .fence | .room _ | .writeBacks | .hold _ | .advance _
      | .job _ | .launch _ => back none none
      | _ => none

/-- PRE_EMPTION (15 R374): a request takes effect; the instruction in progress is withdrawn, at a bank, at the sideboard or in a
line's queue. -/
def execPreEmption (tid : Nat) (s : State) : Host.Outcome State Fault Refusal :=
  unit (.preEmption tid) (do
    let s ← getS
    let x ← needSome (s.thread tid)
    let y ← needSome (s.stopped tid x)
    modThread tid (fun _ => y)
    match x.park with
    | some (.bank n) => do
      modS (fun s => { s with
        bankOps := del s.bankOps n
        banks := mapVals (fun b => { b with waiting := b.waiting.filter (fun w => w.op != n) }) s.banks })
    | some (.work _ _ _) =>
      modCluster (clusterOf (coreOf tid)) (fun k => { k with waiters := k.waiters.filter (· != x.uid) })
    | some (.hold _) =>
      modCore (coreOf tid) (fun c => { c with holdQueue := c.holdQueue.filter (fun q => q.2 != x.uid) })
    | _ => pure ()) s

/-- A register-class entry as a save reads it: its value, and whether it is poisoned or its parity fails (15 R361). -/
def entryOf (loc : Loc) (v : Word) (poison : Bool) : M RecordWord := do
  let r := (← getS).met loc { val := v, poison := poison }
  return (r.val, r.poison)

/-- The entries of a list, each as a save reads it. -/
def entriesOf (loc : Nat → Loc) : Nat → List RecordWord → M (List RecordWord)
  | _, [] => return []
  | n, e :: es => do
    let e' ← entryOf (loc n) e.1 e.2
    return e' :: (← entriesOf loc (n + 1) es)

/-- The two words of a load-data queue entry (15 R376). -/
def loadRecord (e : LdEntry) (v : RecordWord) : List RecordWord :=
  let a := setBits (setBits (setBits 0 63 63 (if e.val.isSome then 1 else 0)) 62 62 (if v.2 then 1 else 0)) 31 0 e.iw.toNat
  [(a, false), (match e.val with | some _ => v.1 | none => e.ea, false)]

/-- The load-data queue's entries as the record holds them. -/
def loadRecords (tid : Nat) : Nat → List LdEntry → M (List RecordWord)
  | _, [] => return []
  | n, e :: es => do
    let v ← entryOf (.ldq tid n) (e.val.getD 0) e.poison
    return loadRecord e v ++ (← loadRecords tid (n + 1) es)

/-- The load-data queue of the leading thread of a pair, of a trailing thread's view: in its slot, or as its save left it (15 R376,
R379). -/
def State.leadingLoads (s : State) (tid : Nat) (x : Thread) : List LdEntry :=
  match s.partner tid with
  | some y => y.ldq
  | none => ((s.saved.find? (fun q => q.mate = some x.uid)).map (·.ldq)).getD []

/-- The load-data queue that a save records (15 R376): a trailing thread, which makes no access, has the data of the leading thread's
entries, whose oldest are its own. -/
def State.loadsToSave (s : State) (tid : Nat) (x : Thread) : List LdEntry :=
  if x.role != .trailing then x.ldq
  else (x.ldq.zip ((s.leadingLoads tid x).map some ++ x.ldq.map (fun _ => none))).map (fun p => match p.2 with
    | some l => { p.1 with
        val := l.val
        poison := l.poison
        swept := l.swept }
    | none => p.1)

/-- The entries with the poison that their record gives them (15 R361, R363). -/
def sweptLoads (tid : Nat) : Nat → List LdEntry → M (List LdEntry)
  | _, [] => return []
  | n, e :: es => do
    let v ← entryOf (.ldq tid n) (e.val.getD 0) e.poison
    return { e with
      served := none
      poison := v.2
      swept := e.swept || (v.2 && !e.poison) } :: (← sweptLoads tid (n + 1) es)

/-- The slot whose forward cell, compose buffer and endpoint a thread has: its home slot, and of a trailing thread its own. -/
def Thread.place (x : Thread) (tid : Nat) : Nat := if x.role = .trailing then tid else x.home

/-- The thread record (15 R376). -/
def threadRecord (tid : Nat) (x : Thread) : M (List RecordWord) := do
  let s ← getS
  let core := coreOf tid
  let c := s.core core
  let own := x.place tid
  let oc := s.core (coreOf own)
  let full := oc.full.contains (slotOf own)
  let flag := fun (b : Bool) => if b then 1 else 0
  let h : Word := setBits (setBits (setBits (setBits 0 63 56 1) 55 48 x.win) 47 47 (flag (x.role != .single))) 46 46 (flag (x.role = .trailing))
  let h := setBits (setBits (setBits (setBits (setBits h 45 38 x.recipes.length) 37 34 x.ldq.length) 33 30 x.sdq.length)
    29 25 (s.slot own).compose.length) 24 24 (flag full)
  let w4 := setBits (setBits (setBits 0 63 62 x.latch.nimm) 61 61 x.latch.nmod) 47 24 x.latch.modf.toNat
  let w6 := setBits (setBits (setBits 0 57 40 x.home) 39 28 x.ctx) 2 0 x.bst.toNat
  let cell := findD oc.cells {} (slotOf own)
  let cellWord ← if full then entryOf (.cell (coreOf own) (slotOf own)) cell.val cell.poison else pure (0, false)
  let window ← entriesOf (fun n => .reg core (x.wbase + n)) 0 ((numbers x.wbase x.win).map (fun n =>
    let r := findD c.rf {} n
    (r.val, r.poison)))
  let loads ← loadRecords tid 0 (s.loadsToSave tid x)
  let stores ← entriesOf (.sdq tid) 0 x.sdq
  let words ← entriesOf (.compose own) 0 (s.slot own).compose
  let recipes := x.recipes.flatMap (fun p => recipeRecord p.1 { p.2 with body := s.metSteps tid p.1 p.2.body })
  return [(h, false), (x.pc.setWidth 64, false), ((s.slot tid).tstat, false), (word (extendTime s.floor (s.pts core)), false),
    (w4, false), (x.latch.imm.setWidth 64, false), (w6, false), cellWord] ++ window ++ loads ++ stores ++ words ++ recipes

/-- Writes a record from a line on; a line that holds a poisoned word stays poisoned (notes/assumptions/41.md). -/
def writeRecordLines (line : Nat) : Nat → List RecordWord → M Unit
  | 0, _ => pure ()
  | n + 1, ws => do
    let part : List (Word × Bool) := ws.take 4
    let values : List Word := part.map (·.1)
    homeWrite line (maskOf 0 (8 * part.length)) (lineOfWords ((values ++ List.replicate 4 (0 : Word)).take 4)) (part.any (·.2))
    writeRecordLines (line + 1) n (ws.drop 4)

/-- The save's mailbox entry (15 R373): it is taken, or waited for in order. Answers whether it is held. -/
def holdMail (core tid uid : Nat) : M Bool := do
  let k := clusterOf core
  let mine := fun (m : Mail) => m.uid = uid && m.words.isEmpty
  let c := (← getS).cluster k
  if c.mailbox.any (fun m => mine m.2) then return true
  else if c.posts.any (fun m => mine m.2) then return false
  else do
    post core { words := [], tid := some tid, uid := uid }
    return ((← getS).cluster k).mailbox.any (fun m => mine m.2)

/-- Whether the drain of a save is done (15 R375, R382). -/
def State.drained (s : State) (tid : Nat) (x : Thread) : Bool :=
  let core := coreOf tid
  (s.pendingStores core x.uid).isEmpty && x.ldq.all (fun e => e.served.isNone || e.val.isSome) &&
  !s.anyBuffered x.early && x.effects.isEmpty &&
  !s.wbs.any (fun w => !w.2.toMemory && w.2.core = core && x.privLines.contains w.2.line) &&
  x.values.isEmpty && (match s.partner tid with
    | some y => y.saving && y.values.isEmpty && y.effects.isEmpty
    | none => true)

/-- Puts a thread's save record into its mailbox entry. -/
def fillMail (core uid : Nat) (words : List Word) : M Unit :=
  modCluster (clusterOf core) (fun c => { c with
    mailbox := mapVals (fun m => if m.uid = uid && m.words.isEmpty then { m with
      words := words
      tid := none } else m) c.mailbox })

/-- THREAD_SAVE (15 R375): once the drain is done, the record is written, the cell, the endpoint, the recipes and the blocks are
released, the slot is FREE, and a save record is posted. -/
def execThreadSave (tid : Nat) (s : State) : Host.Outcome State Fault Refusal :=
  unit (.threadSave tid) (do
    let s0 ← getS
    let x ← needSome (s0.thread tid)
    let (arrived, start) ← needSome (match x.park with | some (.save a m) => some (a, m) | _ => none)
    need (s0.drained tid x)
    let core := coreOf tid
    if ← holdMail core tid x.uid then do
      for l in x.privLines do flushLine core l
      match x.earlyTime with
      | some t => raise (.core core) (returnTime s0.floor t)
      | none => pure ()
      let own := x.place tid
      let sl := s0.slot own
      let pa := (s0.slot tid).tsave.toNat
      let record ← threadRecord tid x
      let loads ← sweptLoads tid 0 (s0.loadsToSave tid x)
      writeRecordLines (pa / 32) ((record.length + 3) / 4) record
      modCore (coreOf own) (fun c => { c with
        full := c.full.filter (· != slotOf own)
        cells := del c.cells (slotOf own) })
      endHolds core x
      let inbox ← match sl.endpoint with
        | some (job, ep) => do
          let j ← readJob (coreOf own) x.ctx job
          writeEndpoint j ep 2 own
          spill (coreOf own) x.ctx job ep sl.inbox
        | none => pure sl.inbox
      let s ← getS
      let mate := match s.partner tid with
        | some y => some y.uid
        | none => (s.saved.find? (fun q => q.mate = some x.uid)).map (·.uid)
      let p : SavedThread := {
        pa := pa, uid := x.uid, ctx := x.ctx, launch := x.launch, index := x.index, home := x.home, role := x.role,
        endpoint := sl.endpoint, arrived := arrived, start := start, inbox := inbox,
        mate := mate, ldq := loads, reply := x.resume.reply, due := (x.resume.reply.map (fun r => extendTime s.floor r.time)).getD 0 }
      let free ← draw
      freeSlot tid
      if own = tid then pure ()
      else do
        modSlot own (fun sl => { sl with
          compose := []
          inbox := []
          endpoint := none })
        if (← getS).assigned own = some x.ctx then pure () else freeSlot own
      modS (fun s => { s with saved := s.saved ++ [p] })
      fillMail core x.uid [recordWord 2 1 (x.preempt.getD 1) x.ctx x.home 0, Config.freeWord free, x.pc.setWidth 64, word pa]
    else pure ()) s

/-- A thread record as a restore reads it (15 R376). -/
structure Restored where
  win : Nat
  role : Role
  pc : BitVec 55
  tstat : Word
  etime : Nat
  latch : Latch
  home : Nat
  ctx : Nat
  bst : BitVec 3
  cell : Option Word
  window : List Word
  loads : List (Word × Word)
  sdq : List Word
  compose : List Word
  recipes : FMap Recipe
  deriving DecidableEq, Repr

/-- What a restore finds in memory (15 R377). -/
inductive Reading where
  | ok (r : Restored)
  | poisoned
  | bad
  deriving DecidableEq, Repr

/-- Words paired. -/
def pairWords : List Word → List (Word × Word)
  | a :: b :: rest => (a, b) :: pairWords rest
  | _ => []

/-- Reads `n` recipe records from an address on (07 R173): the recipes as they are written, a later one in the place of an earlier of
its name, or none where a reserved field is not zero; and the first poisoned line. -/
def readRecipes (pa : Nat) (got : FMap Recipe) : Nat → M (Option (FMap Recipe) × Option Nat)
  | 0 => return (some got, none)
  | n + 1 => do
    let (h, p) ← physRead pa
    if p then return (none, some pa)
    else
      let k := bits h 1 0 + 1
      let name := bits h 15 8
      let (ws, q) ← physReads (pa + 8) k
      if q.isSome then return (none, q)
      else do
        let steps := ws.filterMap stepOf
        let (rest, q') ← readRecipes (pa + 8 * (k + 1)) (put got name (recipeOf h steps)) n
        return (if bits h 63 16 != 0 || bits h 3 2 != 0 || steps.length != k then none else rest, q')

/-- Whether the first eight words of a record are as 15 R376 lays them down. DESIGN CHOICE (log 67): a pc with bits 1:0 that are not 0
breaks the record. -/
def headerOk (w : Nat → Word) : Bool :=
  let h := w 0
  let win := bits h 55 48
  bits h 63 56 = 1 && 8 ≤ win && win ≤ 128 && win % 8 = 0 && (bit h 47 || !bit h 46) && bits h 45 38 ≤ 232 && bits h 37 34 ≤ 8 &&
  bits h 33 30 ≤ 8 && bits h 23 0 = 0 && bits (w 1) 63 55 = 0 && bits (w 1) 1 0 = 0 && bits (w 2) 63 29 = 0 && bits (w 2) 21 20 = 0 &&
  bits (w 3) 63 40 = 0 && bits (w 4) 63 62 ≤ 2 && bits (w 4) 60 48 = 0 && bits (w 4) 23 0 = 0 && bits (w 5) 63 48 = 0 &&
  bits (w 6) 63 58 = 0 && bits (w 6) 27 3 = 0 && (bit h 24 || w 7 = 0)

/-- The size and extension of a load that may have a load-data queue entry (10 R233 to R237). -/
def queueShape (i : Instr) : Option (Nat × Bool) :=
  match i with
  | .ldex _ _ _ => some (8, false)
  | .lde _ _ _ => some (8, false)
  | _ => (loadShape i).map (fun l => (l.1, l.2.1))

/-- The shape of the load whose word an entry of a record holds. -/
def recordShape (a : Word) : Option (Nat × Bool) := match decodeWord (a.setWidth 32) with
  | .ok i => queueShape i
  | .error _ => none

/-- Whether a load's words are as 15 R376 lays them down: the instruction word is that of a scalar load. -/
def loadOk (a : Word) : Bool := bits a 61 32 = 0 && (recordShape a).isSome

/-- Reads the thread record at an address. -/
def readThread (pa : Nat) : M Reading := do
  let (hs, p) ← physReads pa 8
  let w := fun k => hs.getD k 0
  let h := w 0
  if p.isSome then return .poisoned
  else if !headerOk w then return .bad
  else do
    let win := bits h 55 48
    let nl := 2 * bits h 37 34
    let ns := bits h 33 30
    let nc := bits h 29 25
    let (ws, q) ← physReads (pa + 64) (win + nl + ns + nc)
    let (rs, q') ← readRecipes (pa + 64 + 8 * (win + nl + ns + nc)) [] (bits h 45 38)
    let loads := pairWords ((ws.drop win).take nl)
    if q.isSome || q'.isSome then return .poisoned
    else match rs with
      | none => return .bad
      | some recipes =>
        if !loads.all (fun l => loadOk l.1) then return .bad
        else return .ok {
          win := win
          role := if bit h 46 then .trailing else if bit h 47 then .leading else .single
          pc := (w 1).setWidth 55
          tstat := w 2
          etime := bits (w 3) 39 0
          latch := { imm := (w 5).setWidth 48, nimm := bits (w 4) 63 62, modf := (w 4).extractLsb' 24 24, nmod := bits (w 4) 61 61 }
          home := bits (w 6) 57 40
          ctx := bits (w 6) 39 28
          bst := (w 6).setWidth 3
          cell := if bit h 24 then some (w 7) else none
          window := ws.take win
          loads := loads
          sdq := (ws.drop (win + nl)).take ns
          compose := ws.drop (win + nl + ns)
          recipes := recipes }

/-- A load-data queue entry restored (10 R234; 15 R377): its data, with the address that its save kept, or the load again; one whose page is
gone is poisoned (notes/assumptions/42.md). A poisoned entry of a record that no save accounts for counts as a register-class entry. The
trailing thread of a pair makes no load again (15 R380). -/
def restoreLoad (core ctx : Nat) (trailing : Bool) (kept : Option LdEntry) (a b : Word) : M LdEntry := do
  let n ← draw
  let iw : IWord := a.setWidth 32
  let (size, signed) := (recordShape a).getD (8, false)
  let e : LdEntry := { iw := iw, ea := b, line := 0, attr := .priv, lease := 1, size := size, signed := signed, seq := n }
  if bit a 63 then return { e with
    ea := (kept.map (·.ea)).getD 0
    val := some b
    poison := bit a 62
    swept := bit a 62 && (kept.map (·.swept)).getD true }
  else if trailing then return { e with val := some 0 }
  else
    let page ← if outside b || inAperture b || b.toNat % size != 0 then pure none else engineXlatPage core ctx b.toNat
    match page with
    | some p => return { e with
        line := p.pa / 32
        attr := p.attr
        lease := p.lease
        mask := maskOf (p.pa % 32) size
        poison := false }
    | none => return { e with
        val := some 0
        poison := true }

/-- The load-data queue restored; `kept`: the entries as the save had them, in the same places. -/
def restoreLoads (core ctx : Nat) (trailing : Bool) : List LdEntry → List (Word × Word) → M (List LdEntry)
  | _, [] => return []
  | kept, (a, b) :: rest => do
    let e ← restoreLoad core ctx trailing (kept.head?.filter (fun e => e.iw = a.setWidth 32)) a b
    return e :: (← restoreLoads core ctx trailing (kept.drop 1) rest)

/-- The saved thread that a record stands for: the one saved at its address, else one of its context, home and role. -/
def State.savedFor (s : State) (pa : Nat) (r : Restored) : Option SavedThread :=
  let same := fun (p : SavedThread) => p.ctx = r.ctx && p.home = r.home && p.role = r.role
  match s.saved.find? (fun p => p.pa = pa && same p) with
  | some p => some p
  | none => s.saved.find? same

/-- Whether the other slot of a pair is there for the pair (15 R379): where the other thread runs, it is the slot that holds it; else it
is FREE and owned by the context, or holds a thread of a pair that no save accounts for. -/
def State.pairPlace (s : State) (tid ctx : Nat) (p : Option SavedThread) : Bool :=
  let t := partnerOf tid
  match (p.bind (·.mate)).bind s.living with
  | some (u, _) => u = t
  | none => ((s.slot t).state = .free && s.assigned t = some ctx) ||
    (match s.thread t with
      | some y => y.ctx = ctx && y.role != .single && !y.dead && (p.bind (·.mate)).isNone
      | none => false)

/-- Whether a slot can take a restored thread: owned by its context, and FREE or the AWAY home slot that it left (12 R283, R306; 14
R345); for a pair, in its half of the slots, beside its other thread (15 R379). -/
def State.restorable (s : State) (tid pa : Nat) (r : Restored) : Bool :=
  let sl := s.slot tid
  let p := s.savedFor pa r
  s.assigned tid = some r.ctx &&
  (sl.state = .free || (sl.state = .away && r.home = tid && sl.awayOf.isSome && sl.awayOf = p.map (·.uid))) &&
  match r.role with
  | .single => true
  | .leading => decide (slotOf tid < 32) && s.pairPlace tid r.ctx p
  | .trailing => decide (32 ≤ slotOf tid) && s.pairPlace tid r.ctx p

/-- The outcome of a restore that changes nothing, or none (15 R377). -/
def State.restoreFails (s : State) (tid pa : Nat) (r : Restored) : Option Nat :=
  let core := coreOf tid
  let c := s.core core
  let away := (s.slot tid).state = .away
  let steps := (r.recipes.map (fun p => p.2.body.length)).sum
  if !s.restorable tid pa r then some 5
  else if !away && ((c.freeRun (r.win / 8) c.top).isNone || !s.mayTake core r.ctx) then some 1
  else if steps > 8 + (512 - s.poolUsed core) then some 2
  else if c.full.contains (slotOf tid) then some 3
  else none

/-- The effect by which both threads of a pair arrive in a BARRIER (13 R330; 15 R381). -/
def arrivalEffect : Effect := { kind := 38, addr := 0, size := 0, data := [] }

/-- The messages that a saved thread was left with (12 R312): the rest of one that it has partly read, and what came for one without an
endpoint, of which the core's receive store takes what it has room for, the overflow queue the others (notes/assumptions/48.md, 60.md). -/
def restoreInbox (tid ctx : Nat) : List HeldMessage → M Unit
  | [] => pure ()
  | h :: hs => do
    let s ← getS
    if h.partly || ((s.heldFor ctx h.job 0xFFFFFF).isEmpty && s.hasRoom (coreOf tid) h.words.length) then
      modSlot tid (fun sl => { sl with inbox := sl.inbox ++ [h] })
    else do
      let _ ← joinQueue (coreOf tid) ctx h.job false [{ h with
        ctx := ctx
        dst := 0xFFFFFF }]
    restoreInbox tid ctx hs

/-- What a restored thread waits in, and the effect of its pair that has been let through (13 R330; 15 R374). -/
def SavedThread.parked (p : SavedThread) : Option Wait × Option Effect :=
  match p.start, p.arrived with
  | some m, _ => (some (.work 0 m true), none)
  | none, none => (none, none)
  | none, some d => match p.role with
    | .single => (some (.barrier d), none)
    | .leading => (some (.barrier d), some arrivalEffect)
    | .trailing => (none, some arrivalEffect)

/-- The restore itself (12 R283; 15 R377; 09 R228). tstat is the record's, whole: an frm of 5 to 7 in it is no write of the field (03
R69), reads back as it stands and rounds as 4 (DESIGN CHOICE, notes/assumptions/64.md). -/
def restoreThread (tid pa : Nat) (r : Restored) : M Unit := do
  let s ← getS
  let core := coreOf tid
  let p := s.savedFor pa r
  let base ← needSome (match (s.slot tid).kept with
    | some (b, _) => some b
    | none => ((s.core core).freeRun (r.win / 8) (s.core core).top).map (8 * ·))
  raise (.core core) (returnTime s.floor r.etime)
  let fresh ← draw
  let ldq ← restoreLoads core r.ctx (r.role = .trailing) ((p.map (·.ldq)).getD []) r.loads
  let home := if r.role = .trailing then tid - 32 else tid
  let uid := (p.map (·.uid)).getD fresh
  let units := r.latch.nimm + r.latch.nmod
  let start := p.bind (·.start)
  let x := newThread uid r.ctx ((p.map (·.launch)).getD 0) (p.bind (·.index)) home r.win base r.pc
  let x : Thread := { x with
    unitPc := r.pc - BitVec.ofNat 55 (4 * units)
    unitLen := units
    latch := r.latch
    bst := r.bst
    ldq := ldq
    sdq := r.sdq.map (fun v => (v, false))
    recipes := r.recipes
    role := r.role
    resume := {
      reply := p.bind (fun p => p.reply.map (fun r => { r with time := returnTime s.floor p.due }))
      operands := (p.bind (·.reply)).map (fun _ => []) }
    park := (p.bind (·.parked.1))
    released := (p.bind (·.parked.2)) }
  modCore core (fun c => { c with issuedAt := del c.issuedAt (slotOf tid) })
  writeWindow core base r.win (r.window.map (fun v => { val := v }))
  let endpoint := p.bind (·.endpoint)
  modSlot tid (fun sl => { sl with
    state := .home
    owner := some r.ctx
    tstat := r.tstat
    rst := 0
    kept := none
    awayOf := none
    tcause := 0
    tvalue := 0
    tpc := 0
    tkeep := [0, 0, 0, 0]
    trecw := [0, 0, 0, 0]
    compose := r.compose.map (fun v => (v, false))
    endpoint := endpoint
    inbox := []
    thread := some x })
  match r.cell with
  | some v => do
    clearErr (.cell core (slotOf tid))
    modCore core (fun c => { c with
      full := c.full ++ [slotOf tid]
      cells := put c.cells (slotOf tid) { val := v } })
  | none => pure ()
  match endpoint with
  | some (job, ep) => do
    let j ← readJob core r.ctx job
    writeEndpoint j ep 1 tid
  | none => pure ()
  restoreInbox tid r.ctx ((p.map (·.inbox)).getD [])
  if start.isSome && r.role != .trailing then modCluster (clusterOf core) (fun k => { k with waiters := k.waiters ++ [uid] }) else pure ()
  match p with
  | some p => do
    modS (fun s => { s with saved := s.saved.filter (fun q => q.uid != p.uid) })
    if p.home != tid && (s.slot p.home).awayOf = some p.uid then freeSlot p.home else pure ()
    -- A wave that was released meanwhile ends the BARRIER at the restore (13 R330), at once where its destination takes the count.
    if p.reply.isSome then tryCatch (finishBarrier tid) (fun _ => pure ()) else pure ()
  | none => pure ()

/-- A record with a poisoned line: the thread that was saved there counts as killed, with its pair (15 R382), and a kill record with
code 30 is posted (15 R377). -/
def restoreKilled (tid pa : Nat) : M Unit := do
  let s ← getS
  let free ← draw
  let p := s.saved.find? (fun p => p.pa = pa)
  let ctx := (p.map (·.ctx)).getD ((s.ownerOf tid).getD 0)
  let home := (p.map (·.home)).getD tid
  match (p.bind (·.mate)).bind s.living with
  | some (t, y) => killThread t 30 (word pa) y.first
  | none => do
    match p with
    | some p => do
      for q in s.saved do
        if q.mate = some p.uid then leaveSaved q else pure ()
      leaveSaved p
      match p.index with
      | some i => modS (fun s => match find s.launches p.launch with
          | none => s
          | some l => { s with launches := put s.launches p.launch { l with lost := l.lost ++ [i] } })
      | none => pure ()
    | none => pure ()
    post (coreOf tid) { words := [recordWord 1 0 30 ctx home 0, word pa, Config.freeWord free, word ((p.map (·.launch)).getD 0)],
                        tid := none, uid := (p.map (·.uid)).getD 0 }

/-- SLOT_RST (15 R377): a write of slot_rst, and the outcome that a read of it gives. -/
def restore (tid : Nat) (v : Word) : M Unit := do
  let pa := bits v 51 6 * 64
  let result := fun (n : Nat) => modSlot tid (fun sl => { sl with rst := n })
  match ← readThread pa with
  | .poisoned => do
    restoreKilled tid pa
    result 4
  | .bad => result 5
  | .ok r =>
    match (← getS).restoreFails tid pa r with
    | some n => result n
    | none => restoreThread tid pa r

/-- SLOT_RST. -/
def execSlotRst (tid : Nat) (pa : Word) (s : State) : Host.Outcome State Fault Refusal :=
  unit (.slotRst tid pa) (restore tid pa) s

end Sys2Proof.Machine
end

