-- ==== Sys2Proof/Machine/Firmware.lean ====
section
/-! DEFINITION. What the bureaus and the quanta do: register writes through a bureau's register space, the mailbox, shootdowns,
slot moves (08 R194; 12 R298, R299; 14 R344 to R346; 15 R362, R373, R378). -/

namespace Sys2Proof.Machine

/-- The slots of a core that a context has: those assigned to it, and those its guests stay in (12 R299). -/
def State.heldSlots (s : State) (core ctx : Nat) : Nat :=
  ((numbers (64 * core) 64).filter (fun t =>
    s.assigned t = some ctx || ((s.slot t).state = .guest && (s.slot t).owner = some ctx))).length

/-- Whether a context has a thread that waits for a slot on a core: one to be created, or a runnable saved one (12 R299). -/
def State.waitsFor (s : State) (core ctx : Nat) : Bool :=
  s.launches.any (fun l => l.2.ctx = ctx && l.2.state = .running && l.2.covers core && !l.2.cancelling &&
    (l.2.nextIndex (clusterOf core)).isSome) ||
  s.saved.any (fun p => p.ctx = ctx && (p.arrived.isNone || p.reply.isSome) &&
    ((find s.launches p.launch).map (fun l => l.covers core)).getD false)

/-- The next slot that a boundary moves, and the context that it goes to (12 R299): from the context furthest above its guarantee,
its highest-numbered slot; from no context where none is above. -/
def State.slotMove (s : State) (core : Nat) : Option (Nat × Nat) :=
  let slots := (numbers (64 * core) 64).reverse
  let above := fun (c : Nat) => s.heldSlots core c - s.guarantee core c
  match (s.placedContexts core).find? (fun c => s.waitsFor core c && decide (s.heldSlots core c < s.guarantee core c)) with
  | none => none
  | some needy =>
    let donors := (slots.filterMap s.assigned).dedup.filter (fun c => c != needy && decide (0 < above c))
    match greatestBy above donors with
    | some d => (slots.find? (fun t => s.assigned t = some d)).map (fun t => (t, needy))
    | none => (slots.find? (fun t => s.assigned t = none)).map (fun t => (t, needy))

/-- Up to `n` slot moves. -/
def moveSlots (core : Nat) : Nat → M Unit
  | 0 => pure ()
  | n + 1 => do
    match (← getS).slotMove core with
    | none => pure ()
    | some (t, ctx) => do
      modSlot t (fun sl => { sl with own := setBits (setBits 0 63 63 1) 11 0 ctx })
      moveSlots core n

/-- QUANTUM_BOUNDARY (12 R298, R299). -/
def execQuantumBoundary (core : Nat) (s : State) : Host.Outcome State Fault Refusal :=
  unit (.quantumBoundary core) (do
    let _ ← reassign core (moveSlots core 64)
    pure ()) s

/-- SLOT_OWN (14 R345): a bureau's write of the owner of a slot. -/
def execSlotOwn (tid : Nat) (v : Word) (s : State) : Host.Outcome State Fault Refusal :=
  unit (.slotOwn tid v) (do
    modCore (coreOf tid) (fun c => { c with slotSel := slotOf tid })
    let _ ← writeCoreReg (coreOf tid) 0x111 v
    pure ()) s

/-- CX_ID (14 R345): a bureau's write of a context-table entry's identity. -/
def execCxId (core tableEntry : Nat) (v : Word) (s : State) : Host.Outcome State Fault Refusal :=
  unit (.cxId core tableEntry v) (do
    modCore core (fun c => { c with cxSel := tableEntry })
    let _ ← writeCoreReg core 0x101 v
    pure ()) s

/-- TMBOX (15 R373): a handler's record is made and posted, and the handler waits for the bureau. -/
def execTmbox (tid : Nat) (s : State) : Host.Outcome State Fault Refusal :=
  unit (.tmbox tid) (do
    let s ← getS
    let x ← needSome (s.thread tid)
    need (x.park = some (.mailbox false))
    let w := fun k => (s.slot tid).trecw.getD k 0
    modThread tid (fun x => { x with park := some (.mailbox true) })
    post (coreOf tid) { words := [recordWord 0 0 (bits (w 0) 7 0) x.ctx x.home 0, w 1, w 2, w 3], tid := some tid, uid := x.uid }) s

/-- The bureau's reply to a mailbox record (15 R373, R365): it frees the entry; a handler goes on with the word, the slot of a killed
thread becomes FREE, with that of the other thread of its pair (15 R365, R381). -/
def mailboxReply (cluster n : Nat) (v : Word) : M Unit := do
  let s ← getS
  let m ← needSome (find (s.cluster cluster).mailbox n)
  need (!m.words.isEmpty)
  modCluster cluster (fun c => { c with mailbox := del c.mailbox n })
  promote (8 * cluster + n / 4)
  match m.tid with
  | none => pure ()
  | some tid =>
    match s.thread tid with
    | none => pure ()
    | some x =>
      if x.uid != m.uid then pure ()
      else match x.park with
        | some (.mailbox true) => modThread tid (fun x => { x with
            park := none
            resume := { x.resume with reply := some { value := v } } })
        | some (.killed words _) => do
          freeSlot tid
          match s.thread (partnerOf tid) with
          | some y => if y.park = some (.killed words false) then freeSlot (partnerOf tid) else pure ()
          | none => pure ()
        | _ => pure ()

/-- MAILBOX_REPLY (15 R373). -/
def execMailboxReply (cluster coreIn entryIn : Nat) (v : Word) (s : State) : Host.Outcome State Fault Refusal :=
  unit (.mailboxReply cluster coreIn entryIn v) (mailboxReply cluster (4 * coreIn + entryIn) v) s

/-- The bureau's shootdown, of the address in sys_shoot_a (14 R344, R346): the write completes once nothing is on its way under what it
drops. A reserved scope drops nothing. -/
def shootWrite (cluster : Nat) (v : Word) : M Unit := do
  let s ← getS
  if bits v 51 50 = 3 then pure ()
  else do
    need (s.quietUnder v)
    let _ ← shootDown (s.cluster cluster).shootA v
    pure ()

/-- SYS_SHOOT_D (14 R344, R346). -/
def execSysShootD (cluster : Nat) (v : Word) (s : State) : Host.Outcome State Fault Refusal :=
  unit (.sysShootD cluster v) (shootWrite cluster v) s

/-- The RW fields of a format-region register's word of a controller (03 R81); the base of the decoded view is clamped into the
controller's own addresses (00 R16; 14 R350). -/
def regionField (port k : Nat) (v : Word) : Word :=
  if k = 0 then setBits (setBits 0 51 8 (bits v 51 8)) 0 0 (bits v 0 0)
  else if k = 1 then word (bits v 31 0)
  else if k = 2 then
    let least := port * 2 ^ 38
    word (256 * min (max (bits v 51 8) least) (least + 2 ^ 38 - 1))
  else setBits (setBits 0 63 57 (bits v 63 57)) 51 0 (bits v 51 0)

/-- Writes a controller's register block (03 R81; 08 R194): a write of a counter gives it its value. -/
def writePort (port offset : Nat) (v : Word) : M Unit :=
  if 0x100 ≤ offset ∧ offset < 0x300 ∧ offset % 8 = 0 then
    let k := (offset - 0x100) / 32
    let j := (offset - 0x100) % 32 / 8
    modPort port (fun p => { p with
      regions := put p.regions k (setAt (findD p.regions [0, 0, 0, 0] k) j (regionField port j v)) })
  else modPort port (fun p =>
    if offset = 0x810 then { p with single := v.toNat }
    else if offset = 0x818 then { p with burst := v.toNat }
    else if offset = 0x820 then { p with merged := v.toNat }
    else if offset = 0x828 then { p with dropped := v.toNat }
    else if offset = 0x830 then { p with wb := v.toNat }
    else p)

/-- Writes a slice's counters (08 R194; 15 R362). -/
def writeSlice (slice offset : Nat) (v : Word) : M Unit :=
  modSlice slice (fun c =>
    if offset = 0x800 then { c with bypass := v.toNat }
    else if offset = 0x808 then { c with sharedEntry := v.toNat }
    else if offset = 0x838 then { c with cancelled := v.toNat }
    else if offset = 0x840 then { c with refetch := v.toNat }
    else if offset = 0x848 then { c with corrected := v.toNat }
    else if offset = 0x850 then { c with poisoned := v.toNat }
    else c)

/-- Writes a core's error counters, by the byte offset in the core's window (15 R362). -/
def writeCounter (core offset : Nat) (v : Word) : M Unit :=
  modCore core (fun c =>
    if offset = 0xF0840 then { c with refetch := v.toNat }
    else if offset = 0xF0848 then { c with corrected := v.toNat }
    else if offset = 0xF0850 then { c with poisoned := v.toNat }
    else if offset = 0xF0858 then { c with regPoison := v.toNat }
    else c)

/-- What an address of a bureau names (14 R346; 15 R362, R373, R377, R378): a register, the shootdown, a job pre-emption or resumption of
the trestle or the copy unit, a word of a mailbox entry, pooled memory below 2^52. -/
inductive BureauPlace where
  | reg (r : RegName)
  | shootD
  | pre (copy : Bool)
  | res (copy : Bool)
  | mail (n word : Nat)
  | memory (pa : Nat)
  | nothing
  deriving DecidableEq, Repr

/-- The place that an offset of the register space names within a core's window of 1 MiB (14 R346; 15 R362). -/
def corePlace (core o : Nat) : BureauPlace :=
  if o < 0x80000 then .reg (.coreReg core (o / 8))
  else if o < 0x80000 + 0x40000 then .reg (.slotReg (64 * core + (o - 0x80000) / 0x1000) (o % 0x1000 / 8))
  else .reg (.coreCounter core o)

/-- The place that an offset of the register space names beyond the cores' windows. -/
def unitPlace (cluster o : Nat) : BureauPlace :=
  if o = 0xE000800000 then .reg (.shootA cluster)
  else if o = 0xE000800008 then .shootD
  else if o = 0xE000900000 then .pre false
  else if o = 0xE000900008 then .res false
  else if o = 0xE000900010 then .reg (.trestleSpill cluster)
  else if o = 0xE000900100 then .pre true
  else if o = 0xE000900108 then .res true
  else if o = 0xE000900110 then .reg (.copySpill cluster)
  else if o = 0xE000900200 then .reg (.chkRetry cluster)
  else if 0xE000A00000 ≤ o ∧ o < 0xE000A00800 then .mail ((o - 0xE000A00000) / 0x40) (o % 0x40 / 8)
  else .nothing

/-- What an address of a cluster's bureau names: the register space lies from 2^55 on, and only the steward's bureau, of cluster 0,
reaches the controllers and the slices (14 R346). An address that is no whole word's, or that no table gives, names nothing. -/
def bureauPlace (cluster addr : Nat) : BureauPlace :=
  if addr % 8 != 0 then .nothing
  else if addr < 2 ^ 52 then .memory addr
  else if addr < 2 ^ 55 then .nothing
  else
    let o := addr - 2 ^ 55
    if 0xE000000000 ≤ o ∧ o < 0xE000800000 then corePlace (8 * cluster + (o - 0xE000000000) / 0x100000) (o % 0x100000)
    else if cluster = 0 ∧ 0xF000000000 ≤ o ∧ o < 0xF000400000 then .reg (.portReg ((o - 0xF000000000) / 0x10000) (o % 0x10000))
    else if cluster = 0 ∧ 0xF100000000 ≤ o ∧ o < 0xF103000000 then .reg (.sliceReg ((o - 0xF100000000) / 0x10000) (o % 0x10000))
    else unitPlace cluster o

/-- A bureau writes a register of its register space, by the register's name (14 R346; 15 R362, R377, R378). -/
def writeNamed (reg : RegName) (v : Word) : M Unit :=
  match reg with
  | .coreReg core n => do
    let _ ← writeCoreReg core n v
    pure ()
  | .slotReg tid n => if n = 0xE then restore tid v else writeSlotReg tid n v
  | .shootA k => modCluster k (fun c => { c with shootA := v })
  | .portReg p offset => writePort p offset v
  | .sliceReg n offset => writeSlice n offset v
  | .coreCounter c offset => writeCounter c offset v
  | .chkRetry k => modEngine k false (fun e => { e with retries := v.toNat })
  | .trestleSpill k => modEngine k false (fun e => { e with spill := word (bits v 51 0) })
  | .copySpill k => modEngine k true (fun e => { e with spill := word (bits v 51 0) })
  | .bureau _ _ => pure ()

/-- A bureau writes a word at an address of its own (14 R346): of a mailbox entry only word 5 is there to be written (15 R373), and
pooled memory changes through its home. -/
def writeBureau (cluster addr : Nat) (v : Word) : M Unit :=
  match bureauPlace cluster addr with
  | .reg r => writeNamed r v
  | .shootD => shootWrite cluster v
  | .pre copy => do
    let s ← getS
    writePre cluster copy v (if copy then s.copyRunning cluster else (s.engine cluster false).running)
  | .res copy => if copy then resumeJob cluster true v Job.areaSize (copyFrom cluster)
    else resumeJob cluster false v (fun _ => 18448) (trestleFrom cluster)
  | .mail n w => if w = 5 then mailboxReply cluster n v else pure ()
  | .memory pa => physWrite pa v
  | .nothing => pure ()

/-- REGISTER_WRITE (14 R346; 15 R362, R377, R378): a bureau writes a register, by its name or at its address. -/
def writeRegister (reg : RegName) (v : Word) : M Unit :=
  match reg with
  | .bureau k addr => writeBureau k addr v
  | reg => writeNamed reg v

/-- A word of a controller's register block (03 R81; 08 R194). -/
def Port.read (p : Port) (offset : Nat) : Word :=
  if 0x100 ≤ offset ∧ offset < 0x300 then
    (findD p.regions [0, 0, 0, 0] ((offset - 0x100) / 32)).getD ((offset - 0x100) % 32 / 8) 0
  else if offset = 0x810 then word p.single
  else if offset = 0x818 then word p.burst
  else if offset = 0x820 then word p.merged
  else if offset = 0x828 then word p.dropped
  else if offset = 0x830 then word p.wb
  else 0

/-- A counter of a slice (08 R194; 15 R362). -/
def Slice.read (c : Slice) (offset : Nat) : Word :=
  if offset = 0x800 then word c.bypass
  else if offset = 0x808 then word c.sharedEntry
  else if offset = 0x838 then word c.cancelled
  else if offset = 0x840 then word c.refetch
  else if offset = 0x848 then word c.corrected
  else if offset = 0x850 then word c.poisoned
  else 0

/-- A counter of a core (15 R362). -/
def Core.readCounter (c : Core) (offset : Nat) : Word :=
  if offset = 0xF0840 then word c.refetch
  else if offset = 0xF0848 then word c.corrected
  else if offset = 0xF0850 then word c.poisoned
  else if offset = 0xF0858 then word c.regPoison
  else 0

/-- What a read of a register by its name gives a bureau (14 R346; 15 R362, R377, R378). -/
def State.readNamed (s : State) (reg : RegName) : Word :=
  match reg with
  | .coreReg core n => s.coreReg core n
  | .slotReg tid n => s.slotReg tid n
  | .shootA k => (s.cluster k).shootA
  | .portReg p offset => (s.port p).read offset
  | .sliceReg n offset => (s.slice n).read offset
  | .coreCounter c offset => (s.core c).readCounter offset
  | .chkRetry k => word (s.engine k false).retries
  | .trestleSpill k => (s.engine k false).spill
  | .copySpill k => (s.engine k true).spill
  | .bureau _ _ => 0

/-- What a read at an address gives a cluster's bureau (14 R346; 15 R373, R378): of trestle_pre and copy_pre the busy bit and the last job
saved, of trestle_res and copy_res the outcome, of a mailbox entry its record and its full bit. -/
def readBureau (cluster addr : Nat) : M Word := do
  let s ← getS
  match bureauPlace cluster addr with
  | .reg r => return s.readNamed r
  | .shootD => return 0
  | .pre copy =>
    let e := s.engine cluster copy
    return setBits (setBits 0 63 63 (if e.pre.isSome then 1 else 0)) 15 0 e.preJob
  | .res copy => return word (s.engine cluster copy).res
  | .mail n w =>
    match find (s.cluster cluster).mailbox n with
    | none => return 0
    | some m => return if w < 4 then m.words.getD w 0 else if w = 4 then 1 else 0
  | .memory pa => do
    let (v, _) ← physRead pa
    return v
  | .nothing => return 0

/-- REGISTER_WRITE. -/
def execRegisterWrite (reg : RegName) (v : Word) (s : State) : Host.Outcome State Fault Refusal :=
  unit (.registerWrite reg v) (writeRegister reg v) s

end Sys2Proof.Machine
end

