-- ==== Sys2Proof/Machine/Float.lean ====
section
/-! DEFINITION. The scalar floating-point instructions (05 R106 to R117). -/

namespace Sys2Proof.Machine

/-- The precision that PFX.MOD's aux bit 0 selects (05 R110). -/
def precision (aux : Nat) : Fmt := if aux % 2 = 1 then .fp64 else .fp32

/-- A scalar operand in a format: the low bits of its register (03 R61). -/
def operand (f : Fmt) (w : Word) : Nat := w.toNat % 2 ^ f.width

/-- d ← f(A, B), with the flags that it raises (05 R109, R111). -/
def floatBinary (w : IWord) (d a b : BitVec 8) (f : Fmt → Nat → Nat → Nat → Nat × Flags) : M Unit := do
  let fmt := precision (← latch).aux
  let x ← readName w a
  let y ← readName w b
  let (v, fl) := f fmt (← mode) (operand fmt x) (operand fmt y)
  raiseFlags fl
  writeName w d (word v)
  retire

/-- d ← f(A), with the flags that it raises (05 R109, R111). -/
def floatUnary (w : IWord) (d a : BitVec 8) (f : Fmt → Nat → Nat → Nat × Flags) : M Unit := do
  let fmt := precision (← latch).aux
  let x ← readName w a
  let (v, fl) := f fmt (← mode) (operand fmt x)
  raiseFlags fl
  writeName w d (word v)
  retire

/-- d ← f(A, B, C) with C the old value of d (05 R111), which is read last (DESIGN CHOICE, notes/assumptions/62.md). -/
def floatTernary (w : IWord) (d a b : BitVec 8) (neg : Bool) : M Unit := do
  let fmt := precision (← latch).aux
  let x ← readName w a
  let y ← readName w b
  let z ← readName w d
  let (v, fl) := fmt.fma (← mode) (operand fmt x) (operand fmt y) (operand fmt z) neg
  raiseFlags fl
  writeName w d (word v)
  retire

/-- FSGNJ's result (05 R116): the magnitude of A with a sign by the variant. -/
def signInject (f : Fmt) (variant a b : Nat) : Nat :=
  let sa := decide (f.signBit ≤ a)
  let sb := decide (f.signBit ≤ b)
  let s := match variant with | 0 => sb | 1 => !sb | _ => sa != sb
  a % f.signBit + if s then f.signBit else 0

/-- FADD (05 R111). -/
def execFadd (d a b : BitVec 8) (s : State) : Host.Outcome State Fault Refusal :=
  runUnit (.fadd d a b) (fun w => floatBinary w d a b (fun f m x y => f.add m x y)) s

/-- FSUB (05 R111). -/
def execFsub (d a b : BitVec 8) (s : State) : Host.Outcome State Fault Refusal :=
  runUnit (.fsub d a b) (fun w => floatBinary w d a b (fun f m x y => f.sub m x y)) s

/-- FMUL (05 R111). -/
def execFmul (d a b : BitVec 8) (s : State) : Host.Outcome State Fault Refusal :=
  runUnit (.fmul d a b) (fun w => floatBinary w d a b (fun f m x y => f.mul m x y)) s

/-- FFMA (05 R111). -/
def execFfma (d a b : BitVec 8) (s : State) : Host.Outcome State Fault Refusal :=
  runUnit (.ffma d a b) (fun w => floatTernary w d a b false) s

/-- FFMS (05 R111). -/
def execFfms (d a b : BitVec 8) (s : State) : Host.Outcome State Fault Refusal :=
  runUnit (.ffms d a b) (fun w => floatTernary w d a b true) s

/-- FDIV (05 R111). -/
def execFdiv (d a b : BitVec 8) (s : State) : Host.Outcome State Fault Refusal :=
  runUnit (.fdiv d a b) (fun w => floatBinary w d a b (fun f m x y => f.div m x y)) s

/-- FSQRT (05 R111). -/
def execFsqrt (d a : BitVec 8) (s : State) : Host.Outcome State Fault Refusal :=
  runUnit (.fsqrt d a) (fun w => floatUnary w d a (fun f m x => f.sqrt m x)) s

/-- FMIN (05 R112). -/
def execFmin (d a b : BitVec 8) (s : State) : Host.Outcome State Fault Refusal :=
  runUnit (.fmin d a b) (fun w => floatBinary w d a b (fun f _ x y => f.minmax false x y)) s

/-- FMAX (05 R112). -/
def execFmax (d a b : BitVec 8) (s : State) : Host.Outcome State Fault Refusal :=
  runUnit (.fmax d a b) (fun w => floatBinary w d a b (fun f _ x y => f.minmax true x y)) s

/-- FLG2 (05 R114). -/
def execFlg2 (d a : BitVec 8) (s : State) : Host.Outcome State Fault Refusal :=
  runUnit (.flg2 d a) (fun w => floatUnary w d a (fun f m x => f.lg2 m x)) s

/-- FEX2 (05 R114). -/
def execFex2 (d a : BitVec 8) (s : State) : Host.Outcome State Fault Refusal :=
  runUnit (.fex2 d a) (fun w => floatUnary w d a (fun f m x => f.ex2 m x)) s

/-- FEQ (05 R113). -/
def execFeq (d a b : BitVec 8) (s : State) : Host.Outcome State Fault Refusal :=
  runUnit (.feq d a b) (fun w => floatBinary w d a b (fun f _ x y => ((if (f.compare 0 x y).1 then 1 else 0), (f.compare 0 x y).2))) s

/-- FLT (05 R113). -/
def execFlt (d a b : BitVec 8) (s : State) : Host.Outcome State Fault Refusal :=
  runUnit (.flt d a b) (fun w => floatBinary w d a b (fun f _ x y => ((if (f.compare 1 x y).1 then 1 else 0), (f.compare 1 x y).2))) s

/-- FLE (05 R113). -/
def execFle (d a b : BitVec 8) (s : State) : Host.Outcome State Fault Refusal :=
  runUnit (.fle d a b) (fun w => floatBinary w d a b (fun f _ x y => ((if (f.compare 2 x y).1 then 1 else 0), (f.compare 2 x y).2))) s

/-- FCVT (05 R117): imm8 names the two formats. -/
def execFcvt (d a i : BitVec 8) (s : State) : Host.Outcome State Fault Refusal :=
  runUnit (.fcvt d a i) (fun w => do
    let x ← readName w a
    let (v, fl) := fcvt (← mode) (i.toNat / 16) (i.toNat % 16) x
    raiseFlags fl
    writeName w d v
    retire) s

/-- FCLASS (05 R115). -/
def execFclass (d a : BitVec 8) (s : State) : Host.Outcome State Fault Refusal :=
  runUnit (.fclass d a) (fun w => floatUnary w d a (fun f _ x => (f.classOf x, 0))) s

/-- FSGNJ (05 R116). -/
def execFsgnj (d a b : BitVec 8) (s : State) : Host.Outcome State Fault Refusal :=
  runUnit (.fsgnj d a b) (fun w => do
    let aux := (← latch).aux
    floatBinary w d a b (fun f _ x y => (signInject f (aux / 2) x y, 0))) s

/-- FRINT (05 R111). -/
def execFrint (d a : BitVec 8) (s : State) : Host.Outcome State Fault Refusal :=
  runUnit (.frint d a) (fun w => floatUnary w d a (fun f m x => f.rint m x)) s

end Sys2Proof.Machine
end

