-- ==== Sys2Proof/Machine/Integer.lean ====
section
/-! DEFINITION. The integer instructions and the prefix words (02 R33 to R38; 04 R87 to R100). -/

namespace Sys2Proof.Machine

/-- A prefix word (02 R33 to R37): `f` is what it puts into the latch. A third prefix or a second PFX.MOD breaks the
unit at this word (02 R34); a unit that would go on past the space faults on its next word's fetch. -/
def runPrefix (i : Instr) (isMod : Bool) (f : Latch → Latch) (s : State) : Host.Outcome State Fault Refusal :=
  runBody (do
    let x ← me
    let l := x.latch
    if 2 ≤ l.nimm + l.nmod || (isMod && 1 ≤ l.nmod) then illegal (wordOf i)
    else if 2 ^ 55 ≤ x.pc.toNat + 4 then abort (.trap { cause := 1, value := word (2 ^ 55), extra := 1 })
    else modMe (fun x => { x with
      latch := f l, unitPc := x.first, unitLen := x.unitLen + 1, pc := x.pc + 4 })) s

/-- PFX.IMM (02 R35). -/
def execPfxImm (h : BitVec 24) (s : State) : Host.Outcome State Fault Refusal :=
  runPrefix (.pfxImm h) false (fun l => { l with
    imm := if l.nimm = 0 then h.setWidth 48 else (l.imm <<< 24) ||| h.setWidth 48, nimm := l.nimm + 1 }) s

/-- PFX.MOD (02 R37). -/
def execPfxMod (r : BitVec 3) (c : BitVec 2) (sc : BitVec 2) (f : BitVec 4) (x : BitVec 5) (n : BitVec 8) (s : State) :
    Host.Outcome State Fault Refusal :=
  runPrefix (.pfxMod r c sc f x n) true (fun l => { l with modf := r ++ c ++ sc ++ f ++ x ++ n, nmod := l.nmod + 1 }) s

/-- d ← f(A, B) (04 R87). The names are read one by one in field order, each with its wait or trap (DESIGN CHOICE, of which comes first
where a later source waits: notes/assumptions/62.md). -/
def binary (w : IWord) (d a b : BitVec 8) (f : Word → Word → Word) : M Unit := do
  let x ← readName w a
  let y ← readName w b
  writeName w d (f x y)
  retire

/-- d ← f(A) (04 R87). -/
def unary (w : IWord) (d a : BitVec 8) (f : Word → Word) : M Unit := do
  let x ← readName w a
  writeName w d (f x)
  retire

/-- d ← f(A, imm) with the assembled immediate of an imm8 (02 R36). -/
def immediate (w : IWord) (d a i : BitVec 8) (f : Word → Word → Word) : M Unit := do
  let l ← latch
  let x ← readName w a
  writeName w d (f x (assembled l 8 i.toNat))
  retire

/-- ADD (04 R90). -/
def execAdd (d a b : BitVec 8) (s : State) : Host.Outcome State Fault Refusal :=
  runUnit (.add d a b) (fun w => binary w d a b (· + ·)) s

/-- SUB (04 R90). -/
def execSub (d a b : BitVec 8) (s : State) : Host.Outcome State Fault Refusal :=
  runUnit (.sub d a b) (fun w => binary w d a b (· - ·)) s

/-- ADDI (04 R90). -/
def execAddi (d a i : BitVec 8) (s : State) : Host.Outcome State Fault Refusal :=
  runUnit (.addi d a i) (fun w => immediate w d a i (· + ·)) s

/-- MUL (04 R91). -/
def execMul (d a b : BitVec 8) (s : State) : Host.Outcome State Fault Refusal :=
  runUnit (.mul d a b) (fun w => binary w d a b (· * ·)) s

/-- MULH (04 R91). -/
def execMulh (d a b : BitVec 8) (s : State) : Host.Outcome State Fault Refusal :=
  runUnit (.mulh d a b) (fun w => binary w d a b mulh) s

/-- MULHU (04 R91). -/
def execMulhu (d a b : BitVec 8) (s : State) : Host.Outcome State Fault Refusal :=
  runUnit (.mulhu d a b) (fun w => binary w d a b mulhu) s

/-- DIV (04 R92). -/
def execDiv (d a b : BitVec 8) (s : State) : Host.Outcome State Fault Refusal :=
  runUnit (.div d a b) (fun w => binary w d a b divS) s

/-- DIVU (04 R92). -/
def execDivu (d a b : BitVec 8) (s : State) : Host.Outcome State Fault Refusal :=
  runUnit (.divu d a b) (fun w => binary w d a b divU) s

/-- REM (04 R92). -/
def execRem (d a b : BitVec 8) (s : State) : Host.Outcome State Fault Refusal :=
  runUnit (.rem d a b) (fun w => binary w d a b remS) s

/-- REMU (04 R92). -/
def execRemu (d a b : BitVec 8) (s : State) : Host.Outcome State Fault Refusal :=
  runUnit (.remu d a b) (fun w => binary w d a b remU) s

/-- AND (04 R90). -/
def execAnd (d a b : BitVec 8) (s : State) : Host.Outcome State Fault Refusal :=
  runUnit (.and d a b) (fun w => binary w d a b (· &&& ·)) s

/-- OR (04 R90). -/
def execOr (d a b : BitVec 8) (s : State) : Host.Outcome State Fault Refusal :=
  runUnit (.or d a b) (fun w => binary w d a b (· ||| ·)) s

/-- XOR (04 R90). -/
def execXor (d a b : BitVec 8) (s : State) : Host.Outcome State Fault Refusal :=
  runUnit (.xor d a b) (fun w => binary w d a b (· ^^^ ·)) s

/-- ANDI (04 R90). -/
def execAndi (d a i : BitVec 8) (s : State) : Host.Outcome State Fault Refusal :=
  runUnit (.andi d a i) (fun w => immediate w d a i (· &&& ·)) s

/-- ORI (04 R90). -/
def execOri (d a i : BitVec 8) (s : State) : Host.Outcome State Fault Refusal :=
  runUnit (.ori d a i) (fun w => immediate w d a i (· ||| ·)) s

/-- XORI (04 R90). -/
def execXori (d a i : BitVec 8) (s : State) : Host.Outcome State Fault Refusal :=
  runUnit (.xori d a i) (fun w => immediate w d a i (· ^^^ ·)) s

/-- SHL (04 R93). -/
def execShl (d a b : BitVec 8) (s : State) : Host.Outcome State Fault Refusal :=
  runUnit (.shl d a b) (fun w => binary w d a b (fun x y => x <<< (y.toNat % 64))) s

/-- SHR (04 R93). -/
def execShr (d a b : BitVec 8) (s : State) : Host.Outcome State Fault Refusal :=
  runUnit (.shr d a b) (fun w => binary w d a b (fun x y => x >>> (y.toNat % 64))) s

/-- SAR (04 R93). -/
def execSar (d a b : BitVec 8) (s : State) : Host.Outcome State Fault Refusal :=
  runUnit (.sar d a b) (fun w => binary w d a b (fun x y => x.sshiftRight (y.toNat % 64))) s

/-- SHLI (04 R93): imm8 is an unsigned code. -/
def execShli (d a i : BitVec 8) (s : State) : Host.Outcome State Fault Refusal :=
  runUnit (.shli d a i) (fun w => unary w d a (· <<< i.toNat)) s

/-- SHRI (04 R93): imm8 is an unsigned code. -/
def execShri (d a i : BitVec 8) (s : State) : Host.Outcome State Fault Refusal :=
  runUnit (.shri d a i) (fun w => unary w d a (· >>> i.toNat)) s

/-- SARI (04 R93): imm8 is an unsigned code. -/
def execSari (d a i : BitVec 8) (s : State) : Host.Outcome State Fault Refusal :=
  runUnit (.sari d a i) (fun w => unary w d a (·.sshiftRight i.toNat)) s

/-- SLT (04 R94). -/
def execSlt (d a b : BitVec 8) (s : State) : Host.Outcome State Fault Refusal :=
  runUnit (.slt d a b) (fun w => binary w d a b (fun x y => truth (ltS x y))) s

/-- SLTU (04 R94). -/
def execSltu (d a b : BitVec 8) (s : State) : Host.Outcome State Fault Refusal :=
  runUnit (.sltu d a b) (fun w => binary w d a b (fun x y => truth (ltU x y))) s

/-- SEQ (04 R94). -/
def execSeq (d a b : BitVec 8) (s : State) : Host.Outcome State Fault Refusal :=
  runUnit (.seq d a b) (fun w => binary w d a b (fun x y => truth (x = y))) s

/-- SLTI (04 R94). -/
def execSlti (d a i : BitVec 8) (s : State) : Host.Outcome State Fault Refusal :=
  runUnit (.slti d a i) (fun w => immediate w d a i (fun x y => truth (ltS x y))) s

/-- SEL (04 R95): the old value of d, a resident name, chooses; it is read after a and b (DESIGN CHOICE, notes/assumptions/62.md). -/
def execSel (d a b : BitVec 8) (s : State) : Host.Outcome State Fault Refusal :=
  runUnit (.sel d a b) (fun w => do
    let x ← readName w a
    let y ← readName w b
    let c ← readResident d.toNat
    writeName w d (if c != 0 then x else y)
    retire) s

/-- MIN (04 R94). -/
def execMin (d a b : BitVec 8) (s : State) : Host.Outcome State Fault Refusal :=
  runUnit (.min d a b) (fun w => binary w d a b minS) s

/-- MAX (04 R94). -/
def execMax (d a b : BitVec 8) (s : State) : Host.Outcome State Fault Refusal :=
  runUnit (.max d a b) (fun w => binary w d a b maxS) s

/-- MINU (04 R94). -/
def execMinu (d a b : BitVec 8) (s : State) : Host.Outcome State Fault Refusal :=
  runUnit (.minu d a b) (fun w => binary w d a b minU) s

/-- MAXU (04 R94). -/
def execMaxu (d a b : BitVec 8) (s : State) : Host.Outcome State Fault Refusal :=
  runUnit (.maxu d a b) (fun w => binary w d a b maxU) s

/-- CLZ (04 R96). -/
def execClz (d a : BitVec 8) (s : State) : Host.Outcome State Fault Refusal :=
  runUnit (.clz d a) (fun w => unary w d a clz) s

/-- POPC (04 R96). -/
def execPopc (d a : BitVec 8) (s : State) : Host.Outcome State Fault Refusal :=
  runUnit (.popc d a) (fun w => unary w d a popc) s

/-- HASH64 (04 R98). -/
def execHash64 (d a b : BitVec 8) (s : State) : Host.Outcome State Fault Refusal :=
  runUnit (.hash64 d a b) (fun w => binary w d a b hash64) s

/-- CVTU (04 R99). -/
def execCvtu (d a : BitVec 8) (s : State) : Host.Outcome State Fault Refusal :=
  runUnit (.cvtu d a) (fun w => unary w d a cvtu) s

/-- LDI (04 R100). -/
def execLdi (d : BitVec 8) (i : BitVec 16) (s : State) : Host.Outcome State Fault Refusal :=
  runUnit (.ldi d i) (fun w => do
    let l ← latch
    writeName w d (assembled l 16 i.toNat)
    retire) s

/-- ADDPC (04 R100): the address of the unit's first word plus the immediate in bytes. -/
def execAddpc (d : BitVec 8) (i : BitVec 16) (s : State) : Host.Outcome State Fault Refusal :=
  runUnit (.addpc d i) (fun w => do
    let l ← latch
    let x ← me
    writeName w d (x.first.setWidth 64 + assembled l 16 i.toNat)
    retire) s

/-- SEXT (04 R97): imm8 is an unsigned code. -/
def execSext (d a i : BitVec 8) (s : State) : Host.Outcome State Fault Refusal :=
  runUnit (.sext d a i) (fun w => unary w d a (sext · i.toNat)) s

end Sys2Proof.Machine
end

