-- ==== Sys2Proof/Machine/Memory.lean ====
section
/-! DEFINITION. The scalar loads and stores, LDRO, LDEX, LDE and STF (10 R233 to R238). -/

namespace Sys2Proof.Machine

/-- A scalar load (10 R233, R234). `ro`: LDRO (10 R235). -/
def loadScalar (w : IWord) (d a m : BitVec 8) (size : Nat) (signed ro : Bool) : M Unit := do
  let x0 ← me
  let l ← latch
  let base ← readOnce 0 w a
  let ea ← effective (base + word size * assembled l 8 m.toNat)
  checkRange ea false
  checkAlign ea size false
  if inAperture ea then
    if ro then trap 5 ea
    else do
      let (v, _) ← bankLoadOp x0 ea (.load size signed) { operands := [base], d := d }
      deliver w d ea v
      retire
  else do
    let p ← translate ea 0
    if ro && p.attr = .priv then trap 5 ea
    else if d = 253#8 then do
      appendLoad x0 w ea p size signed l.ch
      retire
    else do
      let off := p.pa % 32
      let v ← enterWord 1 ea (do
        let data ← loadLine x0 ea p (maskOf off size) l.ch true
        return extendBytes size signed (fromByte data off))
      deliver w d ea v
      retire

/-- A scalar store (10 R233). -/
def storeScalar (w : IWord) (d a m : BitVec 8) (size : Nat) : M Unit := do
  let x0 ← me
  let l ← latch
  let base ← readOnce 0 w a
  let v ← readDataOnce 1 w d
  let ea ← effective (base + word size * assembled l 8 m.toNat)
  checkRange ea true
  checkAlign ea size true
  let asked : Asked := { operands := [base, v] }
  let v := extendBytes size false v
  if inAperture ea then do
    let _ ← bankEffect x0 ea (.store size) 21 v [word size] asked
    retire
  else do
    let p ← storePage ea size
    let off := p.pa % 32
    storeEffect x0 ea p size [v] 1 (placeStore p (p.pa / 32) (maskOf off size) (atByte v off) l.ch)
      (some asked.operands)
    retire

/-- LDB (10 R233). -/
def execLdb (d a i : BitVec 8) (s : State) : Host.Outcome State Fault Refusal :=
  runUnit (.ldb d a i) (fun w => loadScalar w d a i 1 true false) s

/-- LDBU (10 R233). -/
def execLdbu (d a i : BitVec 8) (s : State) : Host.Outcome State Fault Refusal :=
  runUnit (.ldbu d a i) (fun w => loadScalar w d a i 1 false false) s

/-- LDH (10 R233). -/
def execLdh (d a i : BitVec 8) (s : State) : Host.Outcome State Fault Refusal :=
  runUnit (.ldh d a i) (fun w => loadScalar w d a i 2 true false) s

/-- LDHU (10 R233). -/
def execLdhu (d a i : BitVec 8) (s : State) : Host.Outcome State Fault Refusal :=
  runUnit (.ldhu d a i) (fun w => loadScalar w d a i 2 false false) s

/-- LDS (10 R233). -/
def execLds (d a i : BitVec 8) (s : State) : Host.Outcome State Fault Refusal :=
  runUnit (.lds d a i) (fun w => loadScalar w d a i 4 true false) s

/-- LDSU (10 R233). -/
def execLdsu (d a i : BitVec 8) (s : State) : Host.Outcome State Fault Refusal :=
  runUnit (.ldsu d a i) (fun w => loadScalar w d a i 4 false false) s

/-- LDW (10 R233). -/
def execLdw (d a i : BitVec 8) (s : State) : Host.Outcome State Fault Refusal :=
  runUnit (.ldw d a i) (fun w => loadScalar w d a i 8 false false) s

/-- STB (10 R233). -/
def execStb (d a i : BitVec 8) (s : State) : Host.Outcome State Fault Refusal :=
  runUnit (.stb d a i) (fun w => storeScalar w d a i 1) s

/-- STH (10 R233). -/
def execSth (d a i : BitVec 8) (s : State) : Host.Outcome State Fault Refusal :=
  runUnit (.sth d a i) (fun w => storeScalar w d a i 2) s

/-- STS (10 R233). -/
def execSts (d a i : BitVec 8) (s : State) : Host.Outcome State Fault Refusal :=
  runUnit (.sts d a i) (fun w => storeScalar w d a i 4) s

/-- STW (10 R233). -/
def execStw (d a i : BitVec 8) (s : State) : Host.Outcome State Fault Refusal :=
  runUnit (.stw d a i) (fun w => storeScalar w d a i 8) s

/-- LDRO (10 R235). -/
def execLdro (d a i : BitVec 8) (s : State) : Host.Outcome State Fault Refusal :=
  runUnit (.ldro d a i) (fun w => loadScalar w d a i 8 false true) s

/-- The word that LDEX reads from a COH line, and whether the line is poisoned (10 R236): from the exclusive copy, or what the home
delivered of a line that it serves by bypass (08 R191). -/
def loadExclusive (x0 : Thread) (ea : Word) (p : Page) (ch : Nat) : M (Word × Bool) := do
  let s ← getS
  let off := p.pa % 32
  let line := p.pa / 32
  waitOlder
  let core := coreOf s.cur
  let request : M (Word × Bool) := do
    migrateForLine x0 line
    checkNext
    park (.line ea line .coh p.lease true ch fullMask none false)
  match (← me).arrived line .coh with
  | some v => return (fromByte v.data off, v.poison)
  | none =>
    match ← l1Read core line .coh with
    | some y =>
      if y.excl then do
        raisePts y.wts
        l1Put core line .coh { y with rts := tmax y.rts (← pts) }
        modS (fun s => s.markSoon core line .coh ch)
        return (fromByte y.data off, y.poison)
      else request
    | none => request

/-- LDEX (10 R236). -/
def execLdex (d a i : BitVec 8) (s : State) : Host.Outcome State Fault Refusal :=
  runUnit (.ldex d a i) (fun w => do
    let x0 ← me
    let l ← latch
    let base ← readName w a
    let ea ← effective (base + 8 * assembled l 8 i.toNat)
    checkRange ea true
    checkAlign ea 8 true
    if inAperture ea then trap 5 ea
    else do
      let p ← storePage ea 8
      if p.attr = .priv then
        if d = 253#8 then appendLoad x0 w ea p 8 false l.ch
        else do
          let v ← enterWord 1 ea (do
            return fromByte (← loadLine x0 ea p (maskOf (p.pa % 32) 8) l.ch true) (p.pa % 32))
          writeName w d v
      else if d = 253#8 then do
        let (v, bad) ← if x0.role = .trailing then pure (0, false) else loadExclusive x0 ea p l.ch
        deliver w d ea v bad
      else do
        let v ← enterWord 1 ea (do
          let (v, bad) ← loadExclusive x0 ea p l.ch
          if bad then abort (.consumed ea (p.pa / 32)) else return v)
        writeName w d v
      retire) s

/-- LDE (10 R237, R238): aux 1 is LDE.EMP. -/
def execLde (d a i : BitVec 8) (s : State) : Host.Outcome State Fault Refusal :=
  runUnit (.lde d a i) (fun w => do
    let x0 ← me
    let l ← latch
    let base ← readOnce 0 w a
    let ea ← effective (base + 8 * assembled l 8 i.toNat)
    checkRange ea false
    checkAlign ea 8 false
    if inAperture ea then do
      let asked : Asked := { operands := [base], d := d }
      let (v, _) ← if l.aux = 1 then bankEffect x0 ea (.lde true) 22 0 [] asked else bankLoadOp x0 ea (.lde false) asked
      deliver w d ea v
      retire
    else trap 5 ea) s

/-- STF (10 R237). -/
def execStf (d a i : BitVec 8) (s : State) : Host.Outcome State Fault Refusal :=
  runUnit (.stf d a i) (fun w => do
    let x0 ← me
    let l ← latch
    let base ← readOnce 0 w a
    let v ← readDataOnce 1 w d
    let ea ← effective (base + 8 * assembled l 8 i.toNat)
    checkRange ea true
    checkAlign ea 8 true
    if inAperture ea then do
      let _ ← bankEffect x0 ea .stf 23 v [] { operands := [base, v] }
      retire
    else trap 7 ea) s

end Sys2Proof.Machine
end

