-- ==== Sys2Proof/Machine/Fetch.lean ====
section
/-! DEFINITION. Instruction fetch and the choice of the slot that issues (08 R180; 12 R284; 14 R341; 15 R364). -/

namespace Sys2Proof.Machine

/-- The word at a byte of a line. -/
def lineIWord (d : LineData) (off : Nat) : IWord := d.extractLsb' (8 * off) 32

/-- Fetches the word at an address for the issuing thread: only RSHR pages hold code (08 R180); a poisoned line kills, and a line that
its home serves by bypass takes no place in the cache (08 R191). -/
def fetchAt (va : Word) : M IWord := do
  if outside va || inAperture va then trap 1 va
  else do
    let p ← translate va 2
    if p.attr != .rshr then trap 1 va
    else do
      let core ← myCore
      let line := p.pa / 32
      modS (fun s => s.checkI core line)
      match find ((← getS).core core).icache line with
      | some d => return lineIWord d (p.pa % 32)
      | none => do
        fillHome line false
        let (d, bad) := (← getS).homeLine line
        if bad then abort (.consumed va line)
        else do
          if (← getS).atHome line then iPlace core line d else pure ()
          return lineIWord d (p.pa % 32)

/-- Fetches the issuing thread's next word. -/
def fetchWord : M IWord := do fetchAt ((← me).pc.setWidth 64)

/-- Whether a slot is ready to issue (12 R284). -/
def Slot.ready (sl : Slot) : Bool :=
  (sl.state = .home || sl.state = .guest) && match sl.thread with
    | some x => x.park.isNone
    | none => false

/-- The first cycle, from the core's present one on, in which a slot has issued nothing in the previous 7 (12 R284). -/
def Core.mayIssueAt (c : Core) (slot : Nat) : Nat :=
  match find c.issuedAt slot with
  | some k => max c.cycle (k + 8)
  | none => c.cycle

/-- The slot that issues next on a core (12 R284): in the first cycle in which a slot is ready, the first ready one after the slot that
issued last. -/
def State.nextReady (s : State) (core : Nat) : Option Nat :=
  let c := s.core core
  leastBy c.mayIssueAt (((numbers (c.last + 1) 64).map (· % 64)).filter (fun n => (findD c.slots {} n).ready))

/-- A state with a core's next issue made by a slot. -/
def State.issuing (s : State) (core slot pick : Nat) : State :=
  let c := s.core core
  let now := c.mayIssueAt slot
  let c' := { c with
    last := slot
    issues := c.issues + 1
    cycle := now + 1
    issuedAt := put c.issuedAt slot now }
  { s.setCore core c' with
    cur := 64 * core + slot
    pick := pick }

/-- The leaf of an RSHR page that user code may fetch from and read (14 R340). -/
def codeLeaf (ppn : Nat) : Word := setBits (setBits (setBits 0 54 53 1) 51 16 ppn) 3 0 11

/-- A state in which the thread of slot 0 of core 0 issues next and its next word is `w`: a thread is placed there if none
stands there, its page is in the TLB, the word lies in pooled memory, and no cache holds its line. -/
def State.placeWord (s : State) (w : IWord) : State :=
  let x := (s.thread 0).getD (newThread 0 1 0 none 0 128 0 0x100000)
  let pc := x.pc.toNat
  let ppn := pc / 65536 % 2 ^ 36
  let pa := ppn * 65536 + pc % 65536
  let c := s.core 0
  let sl := s.slot 0
  let e : TlbEntry := { ctx := x.ctx, level := 3, page := pc / 65536, leaf := codeLeaf ppn }
  let sl' := { sl with
    state := .home
    owner := some x.ctx
    thread := some { x with park := none, preempt := none } }
  let c' := { c with
    slots := put c.slots 0 sl'
    last := 63
    issuedAt := del c.issuedAt 0
    tlb := e :: c.tlb
    icache := del c.icache (pa / 32) }
  { s.setCore 0 c' with
    mem := (numbers 0 4).foldl (fun m k => Memory.write m (pa + k) (w.extractLsb' (8 * k) 8)) s.mem
    memPoison := s.memPoison.filter (· != pa / 32)
    l2 := del s.l2 (pa / 32)
    wbs := s.wbs.filter (fun b => b.2.line != pa / 32) }

end Sys2Proof.Machine
end

