-- ==== Sys2Proof/Machine/Recipe.lean ====
section
/-! DEFINITION. Recipes: RCP, RCPFREE and RCPQ (07 R162 to R171). -/

namespace Sys2Proof.Machine

/-- A unit of a body as it was fetched: its prefix words and its last word. -/
structure BodyUnit where
  pre : List IWord
  last : IWord
  deriving DecidableEq, Repr

/-- The first word of a body's unit. -/
def BodyUnit.first (u : BodyUnit) : IWord := u.pre.headD u.last

/-- Fetches a word of a body; a fault counts the words of RCP up to it (15 R372). -/
def fetchBody (pc k : Nat) : M IWord :=
  tryCatch (fetchAt (word (pc + 4 * k))) (fun e => match e with
    | .trap t => abort (.trap { t with extra := k })
    | e => abort e)

/-- Whether a word is PFX.IMM or PFX.MOD. -/
def isPrefix (w : IWord) : Bool := opcodeOf w = 0xFE#8 || opcodeOf w = 0xFF#8

/-- Whether a unit goes on after two words: both are prefixes, and not both PFX.MOD, where the second breaks it (02 R33, R34). -/
def secondPrefix (w w2 : IWord) : Bool := isPrefix w2 && !(opcodeOf w = 0xFF#8 && opcodeOf w2 = 0xFF#8)

/-- The first `n` units that words make (07 R164); none where more words must follow. -/
def unitsOf : Nat → List IWord → Option (List BodyUnit)
  | 0, _ => some []
  | n + 1, w :: ws =>
    if !isPrefix w then (unitsOf n ws).map ({ pre := [], last := w } :: ·)
    else match ws with
      | [] => none
      | w2 :: ws2 =>
        if !secondPrefix w w2 then (unitsOf n ws2).map ({ pre := [w], last := w2 } :: ·)
        else match ws2 with
          | [] => none
          | w3 :: ws3 => (unitsOf n ws3).map ({ pre := [w, w2], last := w3 } :: ·)
  | _ + 1, [] => none

/-- The instructions that a body may hold, its loads apart (07 R163). -/
def isBodyOp : Instr → Bool
  | .add _ _ _ | .sub _ _ _ | .addi _ _ _ | .mul _ _ _ | .mulh _ _ _ | .mulhu _ _ _ => true
  | .and _ _ _ | .or _ _ _ | .xor _ _ _ | .andi _ _ _ | .ori _ _ _ | .xori _ _ _ => true
  | .shl _ _ _ | .shr _ _ _ | .sar _ _ _ | .shli _ _ _ | .shri _ _ _ | .sari _ _ _ => true
  | .slt _ _ _ | .sltu _ _ _ | .seq _ _ _ | .slti _ _ _ => true
  | .min _ _ _ | .max _ _ _ | .minu _ _ _ | .maxu _ _ _ => true
  | .clz _ _ | .popc _ _ | .hash64 _ _ _ | .cvtu _ _ | .ldi _ _ | .sext _ _ _ => true
  | .fadd _ _ _ | .fsub _ _ _ | .fmul _ _ _ | .ffma _ _ _ | .ffms _ _ _ | .fcvt _ _ _ => true
  | _ => false

/-- Whether an instruction is a load unit of a body (07 R163). -/
def isBodyLoad (i : Instr) : Bool := (loadShape i).isSome

/-- The instruction of a unit as far as 07 R163 judges it apart from its destination: `none` where the word is none, or
has a reserved value. Its d field is read as the formula name and judged apart. -/
def bodyInstr (w : IWord) : Option Instr :=
  match decodeWord w, decodeWord (w &&& 0xFF00FFFF#32) with
  | .ok i, .ok j => if wellFormed j then some i else none
  | _, _ => none

/-- The d field of a word (02 R25). -/
def fieldD (w : IWord) : BitVec 8 := w.extractLsb' 16 8

/-- Whether a unit meets 07 R163 in a body of `d`, in a window of `win` names. -/
def unitOk (win : Nat) (d : BitVec 8) (u : BodyUnit) : Bool :=
  match bodyInstr u.last with
  | none => false
  | some i =>
    (isBodyOp i || isBodyLoad i) && fieldD u.last = d &&
    ((sources i).all (fun n => decide (n.toNat < win) || n = 247#8 || n = 255#8 || n = d)) &&
    (u.pre.isEmpty || (decide (1 ≤ (acceptOf i).imm) && u.pre.length = 1 && u.pre.all (fun p => opcodeOf p = 0xFE#8)))

/-- Whether a unit is a load. -/
def BodyUnit.loads (u : BodyUnit) : Bool := ((bodyInstr u.last).map isBodyLoad).getD false

/-- The first unit that breaks 07 R163: one by itself, or a second load. -/
def firstBreach (win : Nat) (d : BitVec 8) : Bool → List BodyUnit → Option IWord
  | _, [] => none
  | seen, u :: us =>
    if !unitOk win d u || (seen && u.loads) then some u.first
    else firstBreach win d (seen || u.loads) us

/-- The step that a unit becomes (07 R162, R173). -/
def BodyUnit.step (u : BodyUnit) : RecipeStep :=
  { px := !u.pre.isEmpty, hi := ((u.pre.headD 0).extractLsb' 0 24), iw := u.last }

/-- The end of an RCP whose body has been fetched whole (07 R164): the units are judged, and bound to d where there is room. -/
def bindBody (d : BitVec 8) (units : List BodyUnit) (total : Nat) : M Unit := do
  let x ← me
  match firstBreach x.win d false units with
  | some bad => illegal bad total
  | none => do
    modMe (fun x => { x with recipes := del x.recipes d.toNat })
    let s ← getS
    let core := coreOf s.cur
    let room := s.freeSteps core (← me)
    if room < units.length then modMe (fun x => { x with bst := 1 })
    else
      let r : Recipe := { rm := BitVec.ofNat 3 (bits (s.slot s.cur).tstat 2 0), stale := false, body := units.map (·.step) }
      modMe (fun x => { x with
        recipes := put x.recipes d.toNat r
        bst := 0 })
    modS (fun s => { s with errs := s.errs.filter (fun e => match e.1 with
      | .step t name _ => !(t = s.cur && name = d.toNat)
      | _ => true) })
    retire (1 + total)

/-- RCP (07 R164; 12 R285): its own word takes a turn, and each word of the body one, in which it is fetched; RCP ends in that of the last
word. -/
def execRcp (d : BitVec 8) (i : BitVec 16) (s : State) : Host.Outcome State Fault Refusal :=
  runUnit (.rcp d i) (fun w => do
    let x ← me
    let n := i.toNat
    if d.toNat < x.win || 240 ≤ d.toNat || n = 0 || 4 < n then illegal w
    else
      let go := fun (ws : List IWord) => modMe (fun x => { x with resume := { x.resume with body := some ws } })
      match x.resume.body with
      | none => go []
      | some ws => do
        let ws := ws ++ [← fetchBody x.pc.toNat (ws.length + 1)]
        match unitsOf n ws with
        | none => go ws
        | some units => bindBody d units ws.length) s

/-- RCPFREE (07 R170): bst is OK or ABSENT. -/
def execRcpfree (d : BitVec 8) (s : State) : Host.Outcome State Fault Refusal :=
  runUnit (.rcpfree d) (fun w => do
    let x ← me
    if d.toNat < x.win || 240 ≤ d.toNat then illegal w
    else do
      match find x.recipes d.toNat with
      | some _ => modMe (fun x => { x with
          recipes := del x.recipes d.toNat
          bst := 0 })
      | none => modMe (fun x => { x with bst := 3 })
      retire) s

/-- The word that RCPQ gives (07 R171). -/
def recipeWord (r : Option Recipe) (room held : Nat) : Word :=
  let base : Word := setBits (setBits 0 21 11 room) 10 0 held
  match r with
  | none => base
  | some r => setBits (setBits (setBits (setBits base 29 29 1) 28 28 (if r.stale then 1 else 0)) 27 25 r.rm.toNat) 24 22 r.body.length

/-- RCPQ (07 R171). -/
def execRcpq (d a : BitVec 8) (s : State) : Host.Outcome State Fault Refusal :=
  runUnit (.rcpq d a) (fun w => do
    let x ← me
    let s ← getS
    let r := if a.toNat < x.win || 240 ≤ a.toNat then none else find x.recipes a.toNat
    writeName w d (recipeWord r (s.freeSteps (coreOf s.cur) x) x.steps)
    retire) s

end Sys2Proof.Machine
end

