-- ==== Sys2Proof/Machine/SideEvents.lean ====
section
/-! DEFINITION. The events of the sideboards, the network and the migration class (12 R289 to R312; 13 R322, R326, R333; 15
R366). -/

namespace Sys2Proof.Machine

/-- WAITW_DISPATCH (12 R296). -/
def execWaitwDispatch (cluster : Nat) (s : State) : Host.Outcome State Fault Refusal :=
  unit (.waitwDispatch cluster) (waitwDispatch cluster) s

/-- QUIESCENCE (12 R297). -/
def execQuiescence (launch : Nat) (s : State) : Host.Outcome State Fault Refusal :=
  unit (.quiescence launch) (quiescence launch) s

/-- THREAD_CREATION (12 R289; 02 R50). -/
def execThreadCreation (launch cluster : Nat) (s : State) : Host.Outcome State Fault Refusal :=
  unit (.threadCreation launch cluster) (threadCreation launch cluster) s

/-- LAUNCH_RECORD_READ (13 R326). -/
def execLaunchRecordRead (launch : Nat) (s : State) : Host.Outcome State Fault Refusal :=
  unit (.launchRecordRead launch) (launchRecordRead launch) s

/-- SIDEBOARD_REPORT (12 R293). -/
def execSideboardReport (cluster : Nat) (s : State) : Host.Outcome State Fault Refusal :=
  unit (.sideboardReport cluster) (sideboardReport cluster) s

/-- RESTART (15 R366). -/
def execRestart (launch index : Nat) (s : State) : Host.Outcome State Fault Refusal :=
  unit (.restart launch index) (restart launch index) s

/-- The words of a slot's compose buffer; a poisoned one, or one whose parity fails, is an uncorrectable error (15 R361). -/
def composedWords (tid : Nat) : M (Option (List Word)) := do
  let s ← getS
  let ws := (s.slot tid).compose
  let bad := ws.any (·.2) || s.errs.any (fun e => match e.1 with
    | .compose t n => t = tid && decide (n < ws.length) && popCount e.2 % 2 = 1
    | _ => false)
  if bad then return none
  else return some ((numbers 0 ws.length).zip ws |>.map (fun p =>
    match s.errs.find? (fun e => e.1 = .compose tid p.1) with
    | some e => p.2.1 ^^^ e.2
    | none => p.2.1))

/-- MESSAGE_INJECTION (13 R333): a complete message leaves its slot, and its thread goes on; a pair's once the comparator has let it
through (15 R381). A poisoned word kills the thread with the unit that completed the message as its pc (15 R373). -/
def execMessageInjection (tid : Nat) (s : State) : Host.Outcome State Fault Refusal :=
  unit (.messageInjection tid) (do
    let s ← getS
    let x ← needSome (s.thread tid)
    need (x.park = some .inject && s.olderDone (coreOf tid) x && x.effects.isEmpty)
    match ← composedWords tid with
    | none => killThread tid 26 (word (2 ^ 63 + 251)) x.unitPc
    | some ws => do
      let job := ((find s.launches x.launch).map (·.job)).getD 0
      modS (fun s => { s with errs := s.errs.filter (fun e => match e.1 with
        | .compose t _ => t != tid
        | _ => true) })
      modSlot tid (fun sl => { sl with compose := [] })
      modThread tid (fun x => { x with park := none })
      inject tid x job ws (← timeOf (.core (coreOf tid)))) s

/-- MESSAGE_DELIVERY (12 R312, R313). -/
def execMessageDelivery (message : Nat) (s : State) : Host.Outcome State Fault Refusal :=
  unit (.messageDelivery message) (deliverMessage message) s

/-- OVERFLOW_DRAIN (12 R312). -/
def execOverflowDrain (ctx job message : Nat) (s : State) : Host.Outcome State Fault Refusal :=
  unit (.overflowDrain ctx job message) (drainOverflow ctx job message) s

/-- MIGRATION_ARRIVAL (12 R302, R303; 09 R228): the core learns the packet's time, the window is written, and the thread goes on
at the first word of its unit; its recipes are those of the packet's recipe records (07 R173). -/
def execMigrationArrival (packet : Nat) (s : State) : Host.Outcome State Fault Refusal :=
  unit (.migrationArrival packet) (do
    let s ← getS
    let p ← needSome (find s.packets packet)
    let x ← needSome (s.thread p.target)
    need (x.uid = p.uid && x.park = some .migration)
    raise (.core (coreOf p.target)) (returnTime s.floor (bits (p.header.getD 2 0) 39 0))
    writeWindow (coreOf p.target) x.wbase x.win p.window
    modS (fun s => { s with packets := del s.packets packet })
    modThread p.target (fun x => { x with
      park := none
      recipes := recipesOf p.records.length p.records })) s

end Sys2Proof.Machine
end

