-- ==== Sys2Proof/Machine/Steward.lean ====
section
/-! DEFINITION. The steward: host commands and their responses (12 R311; 14 R344, R352 to R356), and what it keeps of contexts and
jobs. -/

namespace Sys2Proof.Machine

/-- A response (14 R353): the word that names the command, its status, the context and the sequence number; `why` is that of a
refused SUBMIT (14 R354). -/
def respond (cmd : Nat) (c : HostCmd) (ctx status why : Nat) (results : List Word) : M Unit :=
  let h := setBits (setBits (setBits (setBits (setBits 0 63 56 cmd) 55 48 status) 47 44 why) 43 32 ctx) 31 0 c.seq
  modS (fun s => { s with responses := s.responses ++ [(c.host, h :: results)] })

/-- A refused command is answered DENIED and entered in the package log (14 R347, R352). What the log's address holds is open. -/
def denyHost (cmd : Nat) (c : HostCmd) : M Unit := do
  let n ← draw
  violation 0 6 4 2 0 (Config.freeWord n) (← timeOf (.sideboard 0))
  respond cmd c c.ctx 4 0 []

/-- Whether a context is in being and not ending (14 R356). -/
def State.lives (s : State) (ctx : Nat) : Bool :=
  match find s.contexts ctx with
  | some c => c.ending.isNone
  | none => false

/-- Whether a command is the next of its host (14 R356): its sequence number comes after the last one's, as numbers of 32 bits go round
(notes/assumptions/54.md), and no CTXEND of the host is still to be answered. -/
def State.nextOf (s : State) (c : HostCmd) : Bool :=
  (match find s.sequence c.host with
    | none => true
    | some n => decide (0 < (c.seq + 2 ^ 32 - n) % 2 ^ 32) && decide ((c.seq + 2 ^ 32 - n) % 2 ^ 32 < 2 ^ 31)) &&
  !s.contexts.any (fun x => x.2.host = c.host && x.2.ending.isSome)

/-- The steward takes up a command (14 R353, R356): one of its number, once the endpoint is open, in its host's order. -/
def takeUp (cmd : Nat) (c : HostCmd) : M Unit := do
  let s ← getS
  need (s.boot.opened && c.isCommand cmd && s.nextOf c)
  set { s with sequence := put s.sequence c.host c.seq }

/-- A command on a context (14 R352, R356): accepted from a host of the list that created the context, while the context is in
being. -/
def command (cmd : Nat) (c : HostCmd) (body : Context → M Unit) : M Unit := do
  takeUp cmd c
  let s ← getS
  if !s.boot.hosts.contains c.host then denyHost cmd c
  else match find s.contexts c.ctx with
    | none => respond cmd c c.ctx 3 0 []
    | some x =>
      if x.host != c.host then denyHost cmd c
      else if x.ending.isSome then respond cmd c c.ctx 3 0 []
      else body x

/-- An argument of a command. -/
def argOf (c : HostCmd) (k : Nat) : Nat := (c.args.getD k 0).toNat

/-- Whether two ranges of bytes meet. -/
def meets (a n b m : Nat) : Bool := decide (a < b + m) && decide (b < a + n)

/-- Whether bytes of pooled memory are free: in the physical space and held by no context (14 R354). -/
def State.isFree (s : State) (base n : Nat) : Bool :=
  base % 65536 = 0 && decide (base + n ≤ 2 ^ 52) && !s.contexts.any (fun c => c.2.frames.any (fun f => meets base n f.1 f.2))

/-- Fills pooled memory with zero before it reaches a context (14 R349, R354): the homes and every copy in the package give zero. -/
def zeroMemory (base n : Nat) : M Unit :=
  let hit := fun (line : Nat) => meets base n (32 * line) 32
  modS (fun s => { s with
    mem := s.mem.filter (fun c => !(decide (base ≤ c.1) && decide (c.1 < base + n)))
    memPoison := s.memPoison.filter (fun l => !hit l)
    l2 := s.l2.map (fun p => if hit p.1 then (p.1, { p.2 with
      data := p.2.data.map (fun _ => 0)
      poison := false }) else p)
    wbs := s.wbs.filter (fun w => !hit w.2.line)
    published := s.published.filter (fun p => !hit p.1)
    cores := mapVals (fun (c : Core) => { c with
      l1 := c.l1.filter (fun p => !hit (p.1 / 4))
      icache := c.icache.filter (fun p => !hit p.1) }) s.cores
    errs := s.errs.filter (fun e => match e.1 with
      | .l2 l _ => !hit l
      | .l1 _ k _ => !hit (k / 4)
      | _ => true) })

/-- Takes bytes of pooled memory for a context and zeroes them. -/
def takeMemory (ctx base n : Nat) : M Unit := do
  need ((← getS).isFree base n)
  zeroMemory base n
  modContext ctx (fun c => { c with frames := c.frames ++ [(base, n)] })

/-- The first number from `a` on, of `n`, that a list does not hold. -/
def firstFree (a n : Nat) (held : List Nat) : Option Nat := (numbers a n).find? (fun k => !held.contains k)

/-- CTXNEW (14 R354): a context with an empty page table and an empty job table; `frames`: the 64 KiB frames of its first-level
table and the first of its job table's two. -/
def execCtxnew (cmd : HostCmd) (frames : List Nat) (s : State) : Host.Outcome State Fault Refusal :=
  runEvent (do
    takeUp 1 cmd
    let s ← getS
    if !s.boot.hosts.contains cmd.host then denyHost 1 cmd
    else match firstFree 1 4095 (s.contexts.map (·.1)) with
      | none => respond 1 cmd 0 1 0 []
      | some ctx =>
        match frames with
        | [root, jobs] => do
          set { s with
            contexts := put s.contexts ctx { host := cmd.host, root := 65536 * root, jobTable := 65536 * jobs }
            logs := del s.logs ctx }
          takeMemory ctx (65536 * root) 65536
          takeMemory ctx (65536 * jobs) 131072
          respond 1 cmd ctx 0 0 [word ctx]
        | _ => need false) s

/-- Whether nothing of a context is left in the package: no launch, thread, engine job, bank operation or store, and no remote
put, that still goes on. -/
def State.idleContext (s : State) (ctx : Nat) : Bool :=
  !s.launches.any (fun l => l.2.ctx = ctx && !l.2.state.ended) && !s.threads.any (fun p => p.2.ctx = ctx) &&
  !s.saved.any (fun p => p.ctx = ctx) && !s.jobs.any (fun j => j.2.2.ctx = ctx) && !s.bankOps.any (fun b => b.2.ctx = ctx) &&
  !s.cores.any (fun c => c.2.buffer.any (fun e => e.ctx = ctx)) && !s.rma.any (fun r => r.2.ctx = ctx)

/-- The slots of a context are left with no owner (14 R354). -/
def dropSlots (ctx : Nat) : M Unit := do
  for c in (← getS).cores do
    let _ ← reassign c.1 (do
      for t in numbers (64 * c.1) 64 do
        if (← getS).assigned t = some ctx then modSlot t (fun sl => { sl with own := 0 }) else pure ())

/-- CTXEND (14 R354): every job is cancelled; once nothing of the context goes on, its banks, slots, translations and memory are
freed and the command is answered. -/
def execCtxend (cmd : HostCmd) (s : State) : Host.Outcome State Fault Refusal :=
  runEvent (do
    let finish : M Unit := do
      if (← getS).idleContext cmd.ctx then do
        for b in (← getS).banks do
          if b.2.owner = cmd.ctx then handOver b.1 0 else pure ()
        dropSlots cmd.ctx
        let _ ← shootDown 0 (setBits (setBits 0 63 52 cmd.ctx) 51 50 1)
        let jobTable := ((find (← getS).contexts cmd.ctx).map (·.jobTable)).getD 0
        modS (fun s => { s with
          rings := s.rings.filter (fun r => !(decide (jobTable ≤ r.1) && decide (r.1 < jobTable + 131072)))
          launches := s.launches.filter (fun l => l.2.ctx != cmd.ctx)
          messages := s.messages.filter (fun m => m.2.ctx != cmd.ctx)
          overflow := s.overflow.filter (fun m => m.ctx != cmd.ctx)
          contexts := del s.contexts cmd.ctx })
        respond 2 cmd cmd.ctx 0 0 []
      else pure ()
    match find (← getS).contexts cmd.ctx with
    | some x =>
      if x.host = cmd.host && x.ending = some cmd.seq then do
        need ((← getS).idleContext cmd.ctx)
        finish
      else command 2 cmd (fun _ => do
        modContext cmd.ctx (fun c => { c with ending := some cmd.seq })
        for l in (← getS).launches do
          if l.2.ctx = cmd.ctx && !l.2.settled then cancelLaunch l.1 else pure ()
        finish)
    | none => command 2 cmd (fun _ => pure ())) s

/-- The table entry that a virtual address leads to at the third level, with the frames that its missing tables take: the entry's
address and the frames left (14 R340). -/
def mapEntry (ctx root va : Nat) : List Nat → M (Option (Nat × List Nat)) := fun frames => do
  let step := fun (table level : Nat) (frames : List Nat) => do
    let e := table + 8 * (va / pageSize level % 8192)
    let (w, _) ← physRead e
    if bit w 0 then return some (bits w 51 16 * 65536, frames)
    else match frames with
      | [] => return (none : Option (Nat × List Nat))
      | f :: rest => do
        takeMemory ctx (65536 * f) 65536
        physWrite e (setBits (setBits 0 51 16 f) 0 0 1)
        return some (65536 * f, rest)
  match ← step root 1 frames with
  | none => return none
  | some (t2, frames) =>
    match ← step t2 2 frames with
    | none => return none
    | some (t3, frames) => return some (t3 + 8 * (va / 65536 % 8192), frames)

/-- Maps `n` pages from an address on: false where the frames do not suffice. -/
def mapPages (ctx root : Nat) (leaf : Word) : Nat → Nat → List Nat → M Bool
  | 0, _, _ => return true
  | n + 1, va, frames => do
    match ← mapEntry ctx root va frames with
    | some (e, f :: rest) => do
      takeMemory ctx (65536 * f) 65536
      physWrite e (setBits leaf 51 16 f)
      mapPages ctx root leaf n (va + 65536) rest
    | _ => return false

/-- Whether a range is one that MAP and UNMAP may name (14 R354; 08 R176). -/
def rangeOk (va n : Nat) : Bool :=
  va % 65536 = 0 && n % 65536 = 0 && decide (0 < n) && decide (va + n ≤ apertureBase)

/-- Whether some page of a range is mapped. -/
def anyMapped (root : Nat) : Nat → Nat → M Bool
  | 0, _ => return false
  | n + 1, va => do
    match ← walk root va with
    | .absent => anyMapped root n (va + 65536)
    | _ => return true

/-- Runs a body whose effects stand only if it answers true; it answers what the body does. -/
def attempt (body : M Bool) : M Bool := do
  let s ← getS
  let ok ← body
  if ok then return true
  else do
    set s
    return false

/-- MAP (14 R354): arguments VA, length, attribute, lease, and r, w, x in bits 0 to 2; `frames`: the 64 KiB frames that firmware
allocates, for tables and pages as they are met. -/
def execMap (cmd : HostCmd) (frames : List Nat) (s : State) : Host.Outcome State Fault Refusal :=
  runEvent (command 3 cmd (fun c => do
    let va := argOf cmd 0
    let n := argOf cmd 1
    let rwx := argOf cmd 4
    let bad := !rangeOk va n || decide (2 < argOf cmd 2) || decide (255 < argOf cmd 3) || rwx = 0 || decide (7 < rwx) ||
      (rwx / 2 % 2 = 1 && rwx % 2 = 0)
    if bad then respond 3 cmd cmd.ctx 6 0 []
    else if ← anyMapped c.root (n / 65536) va then respond 3 cmd cmd.ctx 6 0 []
    else do
      let leaf := setBits (setBits (setBits (setBits 0 62 55 (argOf cmd 3)) 54 53 (argOf cmd 2)) 3 1 rwx) 0 0 1
      let ok ← attempt (mapPages cmd.ctx c.root leaf (n / 65536) va frames)
      respond 3 cmd cmd.ctx (if ok then 0 else 1) 0 [])) s

/-- The table entry at a level that a virtual address leads to under a root (14 R340, R341). -/
def entryAt (root va : Nat) : Nat → M Nat
  | 0 => return root + 8 * (va / pageSize 1 % 8192)
  | n + 1 => do
    let e ← entryAt root va n
    let (w, _) ← physRead e
    return bits w 51 16 * 65536 + 8 * (va / pageSize (n + 2) % 8192)

/-- Takes `n` pages of 64 KiB from an address on out of a context's tables; a larger page that holds one of them goes whole
(notes/assumptions/54.md). -/
def unmapPages (ctx root : Nat) : Nat → Nat → M Unit
  | 0, _ => pure ()
  | n + 1, va => do
    match ← walk root va with
    | .leaf level w => do
      physWrite (← entryAt root va (level - 1)) 0
      let _ ← shootDown (word va) (setBits (setBits 0 63 52 ctx) 49 48 3)
      let base := bits w 51 16 * 65536
      modContext ctx (fun c => { c with frames := c.frames.filter (fun f =>
        !(decide (base ≤ f.1) && decide (f.1 < base + pageSize level))) })
    | _ => pure ()
    unmapPages ctx root n (va + 65536)

/-- UNMAP (14 R354): it waits, as its SHOOT does, for what is on its way under the context's translations (14 R344). -/
def execUnmap (cmd : HostCmd) (s : State) : Host.Outcome State Fault Refusal :=
  runEvent (command 4 cmd (fun c => do
    let va := argOf cmd 0
    let n := argOf cmd 1
    if !rangeOk va n then respond 4 cmd cmd.ctx 6 0 []
    else do
      need ((← getS).quietUnder (setBits (setBits 0 63 52 cmd.ctx) 51 50 1))
      unmapPages cmd.ctx c.root (n / 65536) va
      respond 4 cmd cmd.ctx 0 0 [])) s

/-- WINOPEN (14 R354; 10 R252): arguments VA, length, put in bit 0 and get in bit 1, and the peer. -/
def execWinopen (cmd : HostCmd) (s : State) : Host.Outcome State Fault Refusal :=
  runEvent (command 5 cmd (fun c => do
    let va := argOf cmd 0
    let n := argOf cmd 1
    if n = 0 || decide (apertureBase < va + n) || argOf cmd 2 = 0 || decide (3 < argOf cmd 2) then respond 5 cmd cmd.ctx 6 0 []
    else do
      let rkey := (firstFree 1 (c.windows.length + 1) (c.windows.map (·.rkey))).getD 0
      modContext cmd.ctx (fun c => { c with windows := c.windows ++
        [{ rkey := rkey, va := va, len := n, put := argOf cmd 2 % 2 = 1, get := argOf cmd 2 / 2 = 1, peer := argOf cmd 3 }] })
      respond 5 cmd cmd.ctx 0 0 [word rkey])) s

/-- WINCLOSE (14 R354). -/
def execWinclose (cmd : HostCmd) (s : State) : Host.Outcome State Fault Refusal :=
  runEvent (command 6 cmd (fun c => do
    if c.windows.any (fun w => w.rkey = argOf cmd 0) then do
      modContext cmd.ctx (fun c => { c with windows := c.windows.filter (fun w => w.rkey != argOf cmd 0) })
      respond 6 cmd cmd.ctx 0 0 []
    else respond 6 cmd cmd.ctx 3 0 [])) s

/-- Bytes rounded up to 64 KiB. -/
def roundUp (n : Nat) : Nat := (n + 65535) / 65536 * 65536

/-- A new job (12 R311; 14 R354): its tables are allocated and zeroed, and its entry is filled. `frames`: the first frames of the
endpoint table and of the overflow queue. It answers the job's number, or none where no number or no memory is left. -/
def newJob (ctx nep ovlen : Nat) (frames : List Nat) : M (Option Nat) := do
  match find (← getS).contexts ctx, frames with
  | some c, [ep, ov] =>
    match firstFree 1 4095 (c.jobs.map (·.number)) with
    | none => return none
    | some j => do
      takeMemory ctx (65536 * ep) (roundUp (8 * nep))
      takeMemory ctx (65536 * ov) (roundUp (8 * ovlen))
      physWrites (c.jobTable + 32 * j) [setBits (setBits 0 63 63 1) 51 16 ep, word nep, setBits 0 51 16 ov, setBits 0 63 32 ovlen]
      modContext ctx (fun c => { c with jobs := c.jobs ++ [{ number := j }] })
      return some j
  | _, _ => return none

/-- SUBMIT (14 R354; 13 R326): arguments record VA, job, and for a new job its endpoints and overflow capacity. -/
def execSubmit (cmd : HostCmd) (frames : List Nat) (s : State) : Host.Outcome State Fault Refusal :=
  runEvent (command 7 cmd (fun _ => do
    let va := argOf cmd 0
    let nep := argOf cmd 2
    let ovlen := argOf cmd 3
    sweepJobs cmd.ctx
    let c ← needSome (find (← getS).contexts cmd.ctx)
    let fresh := argOf cmd 1 = 0
    if fresh && (nep = 0 || decide (0xFFFFFF < nep) || decide (ovlen < 32) || decide (0xFFFFFFFF < ovlen)) then
      respond 7 cmd cmd.ctx 6 0 []
    else if !fresh && !c.jobs.any (fun j => j.number = argOf cmd 1) then respond 7 cmd cmd.ctx 3 0 []
    else if va % 64 != 0 then denyHost 7 cmd
    else if 256 ≤ ((← getS).entriesOf 0).length then respond 7 cmd cmd.ctx 1 0 []
    else
      let before ← getS
      match ← (if fresh then newJob cmd.ctx nep ovlen frames else pure (some (argOf cmd 1))) with
      | none => respond 7 cmd cmd.ctx 1 0 []
      | some job =>
        match ← holdEntry 0 cmd.ctx job none (word va) (← timeOf (.sideboard 0)) with
        | none => do
          set before
          respond 7 cmd cmd.ctx 1 0 []
        | some h => do
          launchRecordRead h
          let (st, why) : Nat × Nat := match find (← getS).launches h with
            | some l => if l.state = .refused then (7, l.why) else (0, 0)
            | none => (0, 0)
          respond 7 cmd cmd.ctx st why [word job, word h])) s

/-- The launches that a command names: of a job where argument 1 is 1, else the launch with a handle. -/
def State.commanded (s : State) (cmd : HostCmd) : List Launch :=
  (s.launches.map (·.2)).filter (fun l => l.ctx = cmd.ctx &&
    (if argOf cmd 1 = 1 then l.job = argOf cmd 0 else l.handle = argOf cmd 0))

/-- CANCEL by a host (14 R354; 13 R329): argument 1 is 1 for a job; the result is 1 where a cancellation starts. -/
def execHostCancel (cmd : HostCmd) (s : State) : Host.Outcome State Fault Refusal :=
  runEvent (command 8 cmd (fun _ => do
    let ls := (← getS).commanded cmd
    if ls.isEmpty then respond 8 cmd cmd.ctx 3 0 []
    else do
      let hit := ls.filter (fun l => !l.settled)
      for l in hit do cancelLaunch l.handle
      respond 8 cmd cmd.ctx 0 0 [truth (!hit.isEmpty)])) s

/-- STATUS (14 R354; 13 R327, R328): the status word and the counters of each launch that is named. -/
def execStatus (cmd : HostCmd) (s : State) : Host.Outcome State Fault Refusal :=
  runEvent (command 9 cmd (fun _ => do
    let ls := (← getS).commanded cmd
    if ls.isEmpty then respond 9 cmd cmd.ctx 3 0 []
    else do
      modS (fun s => { s with launches := s.launches.filter (fun p =>
        !(ls.any (fun l => l.handle = p.1) && p.2.issuer.isNone && p.2.state.ended)) })
      respond 9 cmd cmd.ctx 0 0 (ls.flatMap (fun l => (numbers 0 5).map l.report)))) s

/-- LOGREAD (14 R354, R348): up to 16 entries from the first one named, and the overflow count. -/
def execLogread (cmd : HostCmd) (s : State) : Host.Outcome State Fault Refusal :=
  runEvent (command 10 cmd (fun _ => do
    let l := findD (← getS).logs {} cmd.ctx
    respond 10 cmd cmd.ctx 0 0 (((l.entries.drop (argOf cmd 0)).take 16).flatMap id ++ [word l.overflow]))) s

/-- GROUP (14 R354, R355): arguments the group and the record's address. -/
def execGroup (cmd : HostCmd) (s : State) : Host.Outcome State Fault Refusal :=
  runEvent (command 11 cmd (fun _ => do
    let va := argOf cmd 1
    match ← bureauRead 0 cmd.ctx va with
    | none => respond 11 cmd cmd.ctx 6 0 []
    | some h =>
      let p := bits h 31 0
      if va % 8 != 0 || p = 0 || bits h 43 32 != argOf cmd 0 then respond 11 cmd cmd.ctx 6 0 []
      else match ← bureauReads 0 cmd.ctx (va + 8) p with
        | none => respond 11 cmd cmd.ctx 6 0 []
        | some ws => do
          modContext cmd.ctx (fun c => { c with
            groups := put c.groups (argOf cmd 0) (ws.map (fun w => (bits w 37 18, bits w 17 0))) })
          respond 11 cmd cmd.ctx 0 0 [])) s

/-- A context's scheduling words under a policy, clamped (14 R354; 00 R16). -/
def CtxEntry.policy (e : CtxEntry) (cmd : HostCmd) : CtxEntry :=
  let clamp := fun (lo hi n : Nat) => min (max n lo) hi
  { e with
    sched := setBits (setBits (setBits (setBits 0 63 56 (clamp 0 255 (argOf cmd 0))) 55 48 (clamp 0 255 (argOf cmd 1)))
      47 32 (clamp 1 65536 (argOf cmd 2) - 1)) 24 0 (clamp 4096 16777216 (argOf cmd 3))
    time := word (clamp 0 65535 (argOf cmd 4)) }

/-- POLICY (14 R354): it is written into the context's entry on every core that has one. -/
def execPolicy (cmd : HostCmd) (s : State) : Host.Outcome State Fault Refusal :=
  runEvent (command 12 cmd (fun _ => do
    modS (fun s => { s with cores := s.cores.map (fun c => (c.1, { c.2 with
      table := mapVals (fun e => if bit e.id 63 && bits e.id 11 0 = cmd.ctx then e.policy cmd else e) c.2.table })) })
    respond 12 cmd cmd.ctx 0 0 [])) s

end Sys2Proof.Machine
end

