-- ==== Sys2Proof/Machine/Vector.lean ====
section
/-! DEFINITION. The vector instructions (05 R118 to R134). -/

namespace Sys2Proof.Machine

/-- The lanes of a group in a lane format (03 R61; 05 R118). -/
def lanesOf (code : Nat) (ws : List Word) : List Nat :=
  let b := laneWidth code
  ws.flatMap (fun w => (List.range (64 / b)).map (fun k => w.toNat / 2 ^ (b * k) % 2 ^ b))

/-- The words of a group from `k` of its words on, from its lanes. -/
def ofLanesFrom (b : Nat) : Nat → List Nat → List Word
  | 0, _ => []
  | k + 1, ls =>
    let n := 64 / b
    let v := ((ls.take n).zip (List.range n)).foldl (fun acc p => acc + p.1 % 2 ^ b * 2 ^ (b * p.2)) 0
    word v :: ofLanesFrom b k (ls.drop n)

/-- The words of a group from its lanes. -/
def ofLanes (code : Nat) (ls : List Nat) : List Word := ofLanesFrom (laneWidth code) 8 ls

/-- The float format of a lane code, if it is one (05 R118). -/
def laneFloat : Nat → Option Fmt
  | 0 => some .fp32
  | 1 => some .bf16
  | 2 => some .fp16
  | _ => none

/-- A lane's bits as a signed integer. -/
def laneInt (code v : Nat) : Int :=
  let b := laneWidth code
  if v < 2 ^ (b - 1) then v else (v : Int) - 2 ^ b

/-- A signed integer as a lane's bits. -/
def intLane (code : Nat) (n : Int) : Nat := (n % 2 ^ laneWidth code).toNat

/-- The lane code of the unit (05 R118). -/
def laneCode : M Nat := do return (← latch).aux % 8

/-- Results lane by lane with the union of their flags. -/
def gather (l : List (Nat × Flags)) : List Nat × Flags := (l.map (·.1), l.foldl (fun f p => f ||| p.2) 0)

/-- G(d) ← f(G(a), G(b), G(d)) lane by lane (05 R119). -/
def laneWise (w : IWord) (d a b : BitVec 8) (f : Nat → Nat → Nat → Nat → Nat → Nat × Flags) : M Unit := do
  let code ← laneCode
  let x ← readGroup w a
  let y ← readGroup w b
  let c ← readGroup w d
  let m ← mode
  let (ls, fl) := gather (((lanesOf code x).zip ((lanesOf code y).zip (lanesOf code c))).map (fun p => f code m p.1 p.2.1 p.2.2))
  raiseFlags fl
  writeGroup w d (ofLanes code ls)
  retire

/-- An operation of float lanes. -/
def floatLane (f : Fmt → Nat → Nat → Nat → Nat → Nat × Flags) (code m x y c : Nat) : Nat × Flags :=
  match laneFloat code with
  | some fmt => f fmt m x y c
  | none => (0, 0)

/-- The smaller or larger of two lanes (05 R112, R119). -/
def pickLane (big : Bool) (code x y : Nat) : Nat × Flags :=
  match laneFloat code with
  | some fmt => fmt.minmax big x y
  | none =>
    let less := decide (laneInt code x < laneInt code y)
    (if less != big then x else y, 0)

/-- VADD (05 R119). -/
def execVadd (d a b : BitVec 8) (s : State) : Host.Outcome State Fault Refusal :=
  runUnit (.vadd d a b) (fun w => laneWise w d a b (floatLane (fun f m x y _ => f.add m x y))) s

/-- VSUB (05 R119). -/
def execVsub (d a b : BitVec 8) (s : State) : Host.Outcome State Fault Refusal :=
  runUnit (.vsub d a b) (fun w => laneWise w d a b (floatLane (fun f m x y _ => f.sub m x y))) s

/-- VMUL (05 R119). -/
def execVmul (d a b : BitVec 8) (s : State) : Host.Outcome State Fault Refusal :=
  runUnit (.vmul d a b) (fun w => laneWise w d a b (floatLane (fun f m x y _ => f.mul m x y))) s

/-- VFMA (05 R119). -/
def execVfma (d a b : BitVec 8) (s : State) : Host.Outcome State Fault Refusal :=
  runUnit (.vfma d a b) (fun w => laneWise w d a b (floatLane (fun f m x y c => f.fma m x y c))) s

/-- VMIN (05 R119). -/
def execVmin (d a b : BitVec 8) (s : State) : Host.Outcome State Fault Refusal :=
  runUnit (.vmin d a b) (fun w => laneWise w d a b (fun code _ x y _ => pickLane false code x y)) s

/-- VMAX (05 R119). -/
def execVmax (d a b : BitVec 8) (s : State) : Host.Outcome State Fault Refusal :=
  runUnit (.vmax d a b) (fun w => laneWise w d a b (fun code _ x y _ => pickLane true code x y)) s

/-- VIADD (05 R119). -/
def execViadd (d a b : BitVec 8) (s : State) : Host.Outcome State Fault Refusal :=
  runUnit (.viadd d a b) (fun w => laneWise w d a b (fun code _ x y _ => ((x + y) % 2 ^ laneWidth code, 0))) s

/-- VIMUL (05 R119). -/
def execVimul (d a b : BitVec 8) (s : State) : Host.Outcome State Fault Refusal :=
  runUnit (.vimul d a b) (fun w => laneWise w d a b (fun code _ x y _ => (x * y % 2 ^ laneWidth code, 0))) s

/-- G(d) ← f(G(a)) lane by lane. -/
def laneUnary (w : IWord) (d a : BitVec 8) (f : Fmt → Nat → Nat → Nat × Flags) : M Unit := do
  let code ← laneCode
  let x ← readGroup w a
  let m ← mode
  let (ls, fl) := gather ((lanesOf code x).map (fun v => floatLane (fun fmt m x _ _ => f fmt m x) code m v 0 0))
  raiseFlags fl
  writeGroup w d (ofLanes code ls)
  retire

/-- VLG2 (05 R121). -/
def execVlg2 (d a : BitVec 8) (s : State) : Host.Outcome State Fault Refusal :=
  runUnit (.vlg2 d a) (fun w => laneUnary w d a (fun f m x => f.lg2 m x)) s

/-- VEX2 (05 R121). -/
def execVex2 (d a : BitVec 8) (s : State) : Host.Outcome State Fault Refusal :=
  runUnit (.vex2 d a) (fun w => laneUnary w d a (fun f m x => f.ex2 m x)) s

/-- G(d) ← f(G(a), G(b)) bit by bit (05 R120). -/
def bitWise (w : IWord) (d a b : BitVec 8) (f : Word → Word → Word) : M Unit := do
  let x ← readGroup w a
  let y ← readGroup w b
  writeGroup w d ((x.zip y).map (fun p => f p.1 p.2))
  retire

/-- VAND (05 R120). -/
def execVand (d a b : BitVec 8) (s : State) : Host.Outcome State Fault Refusal :=
  runUnit (.vand d a b) (fun w => bitWise w d a b (· &&& ·)) s

/-- VOR (05 R120). -/
def execVor (d a b : BitVec 8) (s : State) : Host.Outcome State Fault Refusal :=
  runUnit (.vor d a b) (fun w => bitWise w d a b (· ||| ·)) s

/-- VXOR (05 R120). -/
def execVxor (d a b : BitVec 8) (s : State) : Host.Outcome State Fault Refusal :=
  runUnit (.vxor d a b) (fun w => bitWise w d a b (· ^^^ ·)) s

/-- A relation of two lanes (05 R122). -/
def laneRelation (code rel x y : Nat) : Bool × Flags :=
  match laneFloat code with
  | some fmt => fmt.compare rel x y
  | none =>
    let i := laneInt code x
    let j := laneInt code y
    (match rel with
      | 0 => decide (i = j)
      | 1 => decide (i < j)
      | 2 => decide (i ≤ j)
      | _ => decide (i ≠ j), 0)

/-- A mask with bit i set where element i holds. -/
def maskBits (l : List Bool) : Nat := (l.zip (List.range l.length)).foldl (fun acc p => acc + if p.1 then 2 ^ p.2 else 0) 0

/-- VCMP (05 R122): a mask of the lanes where the relation holds. -/
def execVcmp (d a b : BitVec 8) (s : State) : Host.Outcome State Fault Refusal :=
  runUnit (.vcmp d a b) (fun w => do
    let code ← laneCode
    let rel := (← latch).aux / 8
    let x ← readGroup w a
    let y ← readGroup w b
    let rs := ((lanesOf code x).zip (lanesOf code y)).map (fun p => laneRelation code rel p.1 p.2)
    raiseFlags (rs.foldl (fun f p => f ||| p.2) 0)
    writeName w d (word (maskBits (rs.map (·.1))))
    retire) s

/-- Lanes of a group merged into another under a scalar mask (05 R123). -/
def selectLanes (code : Nat) (mask : Word) (x c : List Word) : List Word :=
  let ls := (lanesOf code x).zip (lanesOf code c)
  ofLanes code ((ls.zip (List.range ls.length)).map (fun p => if mask.getLsbD p.2 then p.1.1 else p.1.2))

/-- VSEL (05 R123). The old value of G(d) is read after G(a) and B (DESIGN CHOICE, notes/assumptions/62.md). -/
def execVsel (d a b : BitVec 8) (s : State) : Host.Outcome State Fault Refusal :=
  runUnit (.vsel d a b) (fun w => do
    let code ← laneCode
    let x ← readGroup w a
    let mask ← readName w b
    let c ← readGroup w d
    writeGroup w d (selectLanes code mask x c)
    retire) s

/-- VBCAST (05 R124). -/
def execVbcast (d a : BitVec 8) (s : State) : Host.Outcome State Fault Refusal :=
  runUnit (.vbcast d a) (fun w => do
    let code ← laneCode
    let x ← readName w a
    writeGroup w d (ofLanes code (List.replicate (laneCount code) (x.toNat % 2 ^ laneWidth code)))
    retire) s

/-- One level of the pairwise tree. -/
def pairUp {α : Type} (g : α → α → α) : List α → List α
  | x :: y :: l => g x y :: pairUp g l
  | l => l

/-- The pairwise tree over 2^n values or fewer (05 R125). -/
def tree {α : Type} (g : α → α → α) : Nat → List α → List α
  | 0, l => l
  | n + 1, l => tree g n (pairUp g l)

/-- A tree of float lanes in FP32, with its flags (05 R125): lanes of narrower formats are widened first. -/
def floatTree (code : Nat) (g : Nat → Nat → Nat × Flags) (ls : List Nat) : Nat × Flags :=
  let fmt := (laneFloat code).getD .fp32
  let wide := ls.map (fun v => if code = 0 then (v, (0 : Flags)) else Fmt.fp32.convert 0 (fmt.read v))
  let r := tree (fun (x y : Nat × Flags) => ((g x.1 y.1).1, x.2 ||| y.2 ||| (g x.1 y.1).2)) 6 wide
  (r.head?.map (·.1) |>.getD 0, r.foldl (fun f p => f ||| p.2) 0)

/-- VSUM (05 R125). -/
def execVsum (d a : BitVec 8) (s : State) : Host.Outcome State Fault Refusal :=
  runUnit (.vsum d a) (fun w => do
    let code ← laneCode
    let x ← readGroup w a
    let ls := lanesOf code x
    let m ← mode
    if code < 3 then do
      let (v, fl) := floatTree code (Fmt.fp32.add m) ls
      raiseFlags fl
      writeName w d (word v)
    else writeName w d (BitVec.ofInt 64 ((ls.map (laneInt code)).sum))
    retire) s

/-- VMAXR (05 R125). -/
def execVmaxr (d a : BitVec 8) (s : State) : Host.Outcome State Fault Refusal :=
  runUnit (.vmaxr d a) (fun w => do
    let code ← laneCode
    let x ← readGroup w a
    let ls := lanesOf code x
    if code < 3 then do
      let (v, fl) := floatTree code (Fmt.fp32.minmax true) ls
      raiseFlags fl
      writeName w d (word v)
    else writeName w d (BitVec.ofInt 64 ((ls.map (laneInt code)).foldl Max.max (laneInt code (ls.headD 0))))
    retire) s

/-- The running state of VARGMAX (05 R126): value, index, NaN count. -/
structure ArgMax where
  val : Nat
  idx : Nat
  cnt : Nat
  deriving DecidableEq, Repr

/-- One lane of VARGMAX (05 R126): the value `v` of the element with index `n`. -/
def argStep (r : ArgMax) (n v : Nat) : ArgMax :=
  let x := Fmt.fp32.read v
  let y := Fmt.fp32.read r.val
  if x.isNan then { r with cnt := min (r.cnt + 1) 0xFFFFFFFF }
  else if y.isNan || fpLess y x true || (fpSame x y true && decide (n < r.idx)) then { r with val := v, idx := n }
  else r

/-- The lanes of VARGMAX under a mask, from an index. -/
def argLanes (mask : Word) (base : Nat) : Nat → List Nat → ArgMax → ArgMax
  | _, [], r => r
  | i, v :: vs, r =>
    let r' := if !mask.getLsbD i || decide (0xFFFFFFFF ≤ base + i) then r else argStep r (base + i) v
    argLanes mask base (i + 1) vs r'

/-- VARGMAX (05 R126). It reads G(a), then b, then d, d+1 and d+2 (DESIGN CHOICE, notes/assumptions/62.md). -/
def execVargmax (d a b : BitVec 8) (s : State) : Host.Outcome State Fault Refusal :=
  runUnit (.vargmax d a b) (fun w => do
    let x ← me
    if x.win ≤ d.toNat + 2 then illegal w
    else do
      let g ← readGroup w a
      let mask ← readName w b
      let v ← readResident d.toNat
      let i ← readResident (d.toNat + 1)
      let c ← readResident (d.toNat + 2)
      let base := bits c 31 0
      let r := argLanes mask base 0 (lanesOf 0 g) { val := bits v 31 0, idx := bits i 31 0, cnt := bits c 63 32 }
      writeResidents d.toNat [word r.val, word r.idx, word (r.cnt * 2 ^ 32 + (base + 16) % 2 ^ 32)]
      modMySlot (fun sl => { sl with tstat := setEr sl.tstat (r.idx = 0xFFFFFFFF) })
      retire) s

/-- VHASH (05 R127). -/
def execVhash (d a b : BitVec 8) (s : State) : Host.Outcome State Fault Refusal :=
  runUnit (.vhash d a b) (fun w => do
    let code ← laneCode
    let x ← readName w a
    let y ← readName w b
    let ls := (List.range (laneCount code)).map (fun i =>
      let h := hash64 x (y + word i)
      if code = 0 then (cvtu h).toNat else h.toNat)
    writeGroup w d (ofLanes code ls)
    retire) s

/-- The fill value of a lane format (05 R128). -/
def fillValue (code fill : Nat) : Nat :=
  let b := laneWidth code
  match laneFloat code, fill with
  | some f, 1 => f.infBits + f.signBit
  | some f, 2 => f.infBits
  | some f, 3 => f.nanBits
  | none, 1 => 2 ^ (b - 1)
  | none, 2 => 2 ^ (b - 1) - 1
  | _, 4 => 2 ^ b - 1
  | _, _ => 0

/-- VSHF (05 R128). -/
def execVshf (d a b : BitVec 8) (s : State) : Host.Outcome State Fault Refusal :=
  runUnit (.vshf d a b) (fun w => do
    let code ← laneCode
    let fill := (← latch).fill
    let x ← readGroup w a
    let y ← readGroup w b
    let ls := lanesOf code x
    writeGroup w d (ofLanes code ((lanesOf code y).map (fun j => ls.getD j (fillValue code fill))))
    retire) s

/-- FCVT's code of a lane format, but for SI8 (05 R117, R118). -/
def scalarCode : Nat → Nat
  | 0 => 0
  | 1 => 2
  | 2 => 3
  | 3 => 8
  | 5 => 9
  | 6 => 7
  | _ => 5

/-- A lane's conversion as a scalar one (05 R129). SI8 lanes go through SI64, whose range holds theirs, and are clamped to
their own range. -/
def convertLane (m dst src v : Nat) : Nat × Flags :=
  let inCode := if src = 4 then 9 else scalarCode src
  let a : Word := if src = 4 then BitVec.ofInt 64 (laneInt 4 v) else word v
  if dst = src && src = 4 then (v, 0)
  else if dst != 4 then
    let (r, fl) := fcvt m (scalarCode dst) inCode a
    (r.toNat % 2 ^ laneWidth dst, fl)
  else if inCode < 7 then
    let (n, fl) := toInt m (-128) 127 ((fcvtFmt inCode).read v)
    (intLane 4 n, fl)
  else if inCode = 7 then
    let (n, fl) := l8ToInt m (-128) 127 v
    (intLane 4 n, fl)
  else (intLane 4 (clampInt (-128) 127 (intValue inCode a) false).1, 0)

/-- How many registers of a group hold the lanes of one part, where the group has `whole` lanes and the other group `other` (05 R129). -/
def partRegs (whole other : Nat) : Nat := 8 / max 1 (whole / other)

/-- The first register of part `p` in a group, of which a part takes `n` registers. -/
def partStart (n p : Nat) : Nat := if n = 8 then 0 else n * p

/-- VCVT (05 R129): only the registers that hold the lanes of the part are read of the source of a widening conversion, and written of
the destination of a narrowing one. -/
def execVcvt (d a i : BitVec 8) (s : State) : Host.Outcome State Fault Refusal :=
  runUnit (.vcvt d a i) (fun w => do
    let p := (← latch).aux
    let m ← mode
    let dst := i.toNat / 16
    let src := i.toNat % 16
    let ns := partRegs (laneCount src) (laneCount dst)
    let nd := partRegs (laneCount dst) (laneCount src)
    checkGroup w a
    checkGroup w d
    let x ← readResidents (a.toNat + partStart ns p) ns
    let (ls, fl) := gather ((lanesOf src x).map (convertLane m dst src))
    raiseFlags fl
    writeResidents (d.toNat + partStart nd p) (ofLanesFrom (laneWidth dst) nd ls)
    retire) s

/-- The words of the bytes below `n` of the two lines at an address (05 R132). A line with no byte below is not read. The record of a kill
by either line names the block's address (DESIGN CHOICE, notes/assumptions/62.md). -/
def loadBlock (x0 : Thread) (ea : Word) (n ch : Nat) : M (List Word) := do
  let p ← translate ea 0
  let (_, vs) ← enter 7 ea (do
    let low ← loadLine x0 ea p (maskOf 0 (min n 32)) ch false
    let high ← if 32 < n then
        loadLine x0 ea { p with pa := p.pa + 32 } (maskOf 0 (n - 32)) ch false
      else pure 0
    return (0, [lineWord low 0, lineWord low 1, lineWord low 2, lineWord low 3,
                lineWord high 0, lineWord high 1, lineWord high 2, lineWord high 3]))
  return vs

/-- VLD (05 R130, R132). DESIGN CHOICE (log 67), here and in VST and VLDN: an address at or above 2^55 that is also no multiple of 64 is out of
range (08 R176); of a VLDN that names no lane only the alignment is checked. -/
def execVld (d a i : BitVec 8) (s : State) : Host.Outcome State Fault Refusal :=
  runUnit (.vld d a i) (fun w => do
    let x0 ← me
    let l ← latch
    checkGroup w d
    let base ← readOnce 0 w a
    let ea ← effective (base + 64 * assembled l 8 i.toNat)
    checkRange ea false
    checkAlign ea 64 false
    let vs ← if inAperture ea then do
        let (_, vs) ← bankLoadOp x0 ea (.vload 8) { operands := [base] }
        pure vs
      else loadBlock x0 ea 64 l.ch
    writeGroup w d vs
    retire) s

/-- VST (05 R130, R132): two line stores, the low line first. -/
def execVst (d a i : BitVec 8) (s : State) : Host.Outcome State Fault Refusal :=
  runUnit (.vst d a i) (fun w => do
    let x0 ← me
    let l ← latch
    checkGroup w d
    let base ← readOnce 0 w a
    let vs ← readGroupOnce 1 w d
    let ea ← effective (base + 64 * assembled l 8 i.toNat)
    checkRange ea true
    checkAlign ea 64 true
    if inAperture ea then do
      let _ ← bankEffect x0 ea (.vstore vs) 27 0 vs { operands := base :: vs }
      retire
    else do
      let p ← storePage ea 64
      storeEffect x0 ea p 64 vs 2 (do
        placeStore p (p.pa / 32) fullMask (lineOfWords vs) l.ch
        placeStore p (p.pa / 32 + 1) fullMask (lineOfWords (vs.drop 4)) l.ch) (some (base :: vs))
      retire) s

/-- VLDN (05 R131, R132): the first c lanes, the rest filled. -/
def execVldn (d a b : BitVec 8) (s : State) : Host.Outcome State Fault Refusal :=
  runUnit (.vldn d a b) (fun w => do
    let x0 ← me
    let l ← latch
    let code ← laneCode
    checkGroup w d
    let base ← readOnce 0 w a
    let count ← readOnce 1 w b
    let ea ← effective base
    let c := min count.toNat (laneCount code)
    let n := (c * laneWidth code + 7) / 8
    if c = 0 then checkAlign ea 64 false
    else do
      checkRange ea false
      checkAlign ea 64 false
    let vs ← if c = 0 then pure []
      else if inAperture ea then do
        let (_, vs) ← bankLoadOp x0 ea (.vload ((n + 7) / 8)) { operands := [base, count] }
        pure vs
      else loadBlock x0 ea n l.ch
    let ls := (lanesOf code vs).take c
    writeGroup w d (ofLanes code (ls ++ List.replicate (laneCount code - ls.length) (fillValue code l.fill)))
    retire) s

end Sys2Proof.Machine
end

