-- ==== Sys2Proof/Machine/Dispatch.lean ====
section
/-! DEFINITION. The arm of every instruction and event (spec/opcode_table.json). -/

namespace Sys2Proof.Machine

def exec (i : Instr) (s : State) : Host.Outcome State Fault Refusal :=
  match i with
  | .pfxImm h => Sys2Proof.Machine.execPfxImm h s
  | .pfxMod r c sc f x n => Sys2Proof.Machine.execPfxMod r c sc f x n s
  | .add d a b => Sys2Proof.Machine.execAdd d a b s
  | .sub d a b => Sys2Proof.Machine.execSub d a b s
  | .addi d a m => Sys2Proof.Machine.execAddi d a m s
  | .mul d a b => Sys2Proof.Machine.execMul d a b s
  | .mulh d a b => Sys2Proof.Machine.execMulh d a b s
  | .mulhu d a b => Sys2Proof.Machine.execMulhu d a b s
  | .div d a b => Sys2Proof.Machine.execDiv d a b s
  | .divu d a b => Sys2Proof.Machine.execDivu d a b s
  | .rem d a b => Sys2Proof.Machine.execRem d a b s
  | .remu d a b => Sys2Proof.Machine.execRemu d a b s
  | .and d a b => Sys2Proof.Machine.execAnd d a b s
  | .or d a b => Sys2Proof.Machine.execOr d a b s
  | .xor d a b => Sys2Proof.Machine.execXor d a b s
  | .andi d a m => Sys2Proof.Machine.execAndi d a m s
  | .ori d a m => Sys2Proof.Machine.execOri d a m s
  | .xori d a m => Sys2Proof.Machine.execXori d a m s
  | .shl d a b => Sys2Proof.Machine.execShl d a b s
  | .shr d a b => Sys2Proof.Machine.execShr d a b s
  | .sar d a b => Sys2Proof.Machine.execSar d a b s
  | .shli d a m => Sys2Proof.Machine.execShli d a m s
  | .shri d a m => Sys2Proof.Machine.execShri d a m s
  | .sari d a m => Sys2Proof.Machine.execSari d a m s
  | .slt d a b => Sys2Proof.Machine.execSlt d a b s
  | .sltu d a b => Sys2Proof.Machine.execSltu d a b s
  | .seq d a b => Sys2Proof.Machine.execSeq d a b s
  | .slti d a m => Sys2Proof.Machine.execSlti d a m s
  | .sel d a b => Sys2Proof.Machine.execSel d a b s
  | .min d a b => Sys2Proof.Machine.execMin d a b s
  | .max d a b => Sys2Proof.Machine.execMax d a b s
  | .minu d a b => Sys2Proof.Machine.execMinu d a b s
  | .maxu d a b => Sys2Proof.Machine.execMaxu d a b s
  | .clz d a => Sys2Proof.Machine.execClz d a s
  | .popc d a => Sys2Proof.Machine.execPopc d a s
  | .hash64 d a b => Sys2Proof.Machine.execHash64 d a b s
  | .cvtu d a => Sys2Proof.Machine.execCvtu d a s
  | .ldi d m => Sys2Proof.Machine.execLdi d m s
  | .addpc d m => Sys2Proof.Machine.execAddpc d m s
  | .bz a o => Sys2Proof.Machine.execBz a o s
  | .bnz a o => Sys2Proof.Machine.execBnz a o s
  | .bltz a o => Sys2Proof.Machine.execBltz a o s
  | .bgez a o => Sys2Proof.Machine.execBgez a o s
  | .bgtz a o => Sys2Proof.Machine.execBgtz a o s
  | .blez a o => Sys2Proof.Machine.execBlez a o s
  | .j o => Sys2Proof.Machine.execJ o s
  | .call o => Sys2Proof.Machine.execCall o s
  | .jmpr d a => Sys2Proof.Machine.execJmpr d a s
  | .sext d a m => Sys2Proof.Machine.execSext d a m s
  | .fadd d a b => Sys2Proof.Machine.execFadd d a b s
  | .fsub d a b => Sys2Proof.Machine.execFsub d a b s
  | .fmul d a b => Sys2Proof.Machine.execFmul d a b s
  | .ffma d a b => Sys2Proof.Machine.execFfma d a b s
  | .fdiv d a b => Sys2Proof.Machine.execFdiv d a b s
  | .fsqrt d a => Sys2Proof.Machine.execFsqrt d a s
  | .fmin d a b => Sys2Proof.Machine.execFmin d a b s
  | .fmax d a b => Sys2Proof.Machine.execFmax d a b s
  | .flg2 d a => Sys2Proof.Machine.execFlg2 d a s
  | .fex2 d a => Sys2Proof.Machine.execFex2 d a s
  | .feq d a b => Sys2Proof.Machine.execFeq d a b s
  | .flt d a b => Sys2Proof.Machine.execFlt d a b s
  | .fle d a b => Sys2Proof.Machine.execFle d a b s
  | .fcvt d a m => Sys2Proof.Machine.execFcvt d a m s
  | .fclass d a => Sys2Proof.Machine.execFclass d a s
  | .fsgnj d a b => Sys2Proof.Machine.execFsgnj d a b s
  | .frint d a => Sys2Proof.Machine.execFrint d a s
  | .ffms d a b => Sys2Proof.Machine.execFfms d a b s
  | .vadd d a b => Sys2Proof.Machine.execVadd d a b s
  | .vsub d a b => Sys2Proof.Machine.execVsub d a b s
  | .vmul d a b => Sys2Proof.Machine.execVmul d a b s
  | .vfma d a b => Sys2Proof.Machine.execVfma d a b s
  | .vmin d a b => Sys2Proof.Machine.execVmin d a b s
  | .vmax d a b => Sys2Proof.Machine.execVmax d a b s
  | .vlg2 d a => Sys2Proof.Machine.execVlg2 d a s
  | .vex2 d a => Sys2Proof.Machine.execVex2 d a s
  | .vcvt d a m => Sys2Proof.Machine.execVcvt d a m s
  | .vcmp d a b => Sys2Proof.Machine.execVcmp d a b s
  | .vsel d a b => Sys2Proof.Machine.execVsel d a b s
  | .vbcast d a => Sys2Proof.Machine.execVbcast d a s
  | .vsum d a => Sys2Proof.Machine.execVsum d a s
  | .vmaxr d a => Sys2Proof.Machine.execVmaxr d a s
  | .vargmax d a b => Sys2Proof.Machine.execVargmax d a b s
  | .vhash d a b => Sys2Proof.Machine.execVhash d a b s
  | .viadd d a b => Sys2Proof.Machine.execViadd d a b s
  | .vimul d a b => Sys2Proof.Machine.execVimul d a b s
  | .vand d a b => Sys2Proof.Machine.execVand d a b s
  | .vor d a b => Sys2Proof.Machine.execVor d a b s
  | .vxor d a b => Sys2Proof.Machine.execVxor d a b s
  | .vshf d a b => Sys2Proof.Machine.execVshf d a b s
  | .vld d a m => Sys2Proof.Machine.execVld d a m s
  | .vst d a m => Sys2Proof.Machine.execVst d a m s
  | .vldn d a b => Sys2Proof.Machine.execVldn d a b s
  | .ldb d a m => Sys2Proof.Machine.execLdb d a m s
  | .ldbu d a m => Sys2Proof.Machine.execLdbu d a m s
  | .ldh d a m => Sys2Proof.Machine.execLdh d a m s
  | .ldhu d a m => Sys2Proof.Machine.execLdhu d a m s
  | .lds d a m => Sys2Proof.Machine.execLds d a m s
  | .ldsu d a m => Sys2Proof.Machine.execLdsu d a m s
  | .ldw d a m => Sys2Proof.Machine.execLdw d a m s
  | .stb d a m => Sys2Proof.Machine.execStb d a m s
  | .sth d a m => Sys2Proof.Machine.execSth d a m s
  | .sts d a m => Sys2Proof.Machine.execSts d a m s
  | .stw d a m => Sys2Proof.Machine.execStw d a m s
  | .ldro d a m => Sys2Proof.Machine.execLdro d a m s
  | .lde d a m => Sys2Proof.Machine.execLde d a m s
  | .stf d a m => Sys2Proof.Machine.execStf d a m s
  | .aadd d a b => Sys2Proof.Machine.execAadd d a b s
  | .aswp d a b => Sys2Proof.Machine.execAswp d a b s
  | .acas d a b => Sys2Proof.Machine.execAcas d a b s
  | .amin d a b => Sys2Proof.Machine.execAmin d a b s
  | .amax d a b => Sys2Proof.Machine.execAmax d a b s
  | .hold d a => Sys2Proof.Machine.execHold d a s
  | .unhold d a => Sys2Proof.Machine.execUnhold d a s
  | .fence => Sys2Proof.Machine.execFence s
  | .fenceSib => Sys2Proof.Machine.execFenceSib s
  | .flushp d a b => Sys2Proof.Machine.execFlushp d a b s
  | .invp d a b => Sys2Proof.Machine.execInvp d a b s
  | .discard d a b => Sys2Proof.Machine.execDiscard d a b s
  | .pref a m => Sys2Proof.Machine.execPref a m s
  | .tick m => Sys2Proof.Machine.execTick m s
  | .tsprobe d a => Sys2Proof.Machine.execTsprobe d a s
  | .ldex d a m => Sys2Proof.Machine.execLdex d a m s
  | .bset d a b => Sys2Proof.Machine.execBset d a b s
  | .bcomp d a b => Sys2Proof.Machine.execBcomp d a b s
  | .binfo d a => Sys2Proof.Machine.execBinfo d a s
  | .rcp d m => Sys2Proof.Machine.execRcp d m s
  | .rcpfree d => Sys2Proof.Machine.execRcpfree d s
  | .rcpq d a => Sys2Proof.Machine.execRcpq d a s
  | .spawn d a b => Sys2Proof.Machine.execSpawn d a b s
  | .exit => Sys2Proof.Machine.execExit s
  | .waitw d m => Sys2Proof.Machine.execWaitw d m s
  | .post d a b => Sys2Proof.Machine.execPost d a b s
  | .yield => Sys2Proof.Machine.execYield s
  | .launch d a => Sys2Proof.Machine.execLaunch d a s
  | .lwait d a => Sys2Proof.Machine.execLwait d a s
  | .cancel d a => Sys2Proof.Machine.execCancel d a s
  | .barrier d => Sys2Proof.Machine.execBarrier d s
  | .epbind d a => Sys2Proof.Machine.execEpbind d a s
  | .migr d a => Sys2Proof.Machine.execMigr d a s
  | .mm d a => Sys2Proof.Machine.execMm d a s
  | .mms d a => Sys2Proof.Machine.execMms d a s
  | .cpy d a => Sys2Proof.Machine.execCpy d a s
  | .coll d a => Sys2Proof.Machine.execColl d a s
  | .jwait d a => Sys2Proof.Machine.execJwait d a s
  | .jpoll d a => Sys2Proof.Machine.execJpoll d a s
  | .sysr d m => Sys2Proof.Machine.execSysr d m s
  | .sysw d m => Sys2Proof.Machine.execSysw d m s
  | .trap m => Sys2Proof.Machine.execTrap m s
  | .tret a => Sys2Proof.Machine.execTret a s
  | .shoot d a b => Sys2Proof.Machine.execShoot d a b s
  | .pageWalk tid => Sys2Proof.Machine.execPageWalk tid s
  | .loadReply tid part => Sys2Proof.Machine.execLoadReply tid part s
  | .bankReply op => Sys2Proof.Machine.execBankReply op s
  | .threadReady tid => Sys2Proof.Machine.execThreadReady tid s
  | .cohRead tid part => Sys2Proof.Machine.execCohRead tid part s
  | .exclusiveRequest core line => Sys2Proof.Machine.execExclusiveRequest core line s
  | .recall line keep => Sys2Proof.Machine.execRecall line keep s
  | .storeTimestamp core entry => Sys2Proof.Machine.execStoreTimestamp core entry s
  | .farAtomic tid => Sys2Proof.Machine.execFarAtomic tid s
  | .writeBack entry => Sys2Proof.Machine.execWriteBack entry s
  | .l2Fill line shared => Sys2Proof.Machine.execL2Fill line shared s
  | .mergeWindowClose block => Sys2Proof.Machine.execMergeWindowClose block s
  | .deferredDiscard line => Sys2Proof.Machine.execDeferredDiscard line s
  | .holdCap tid line => Sys2Proof.Machine.execHoldCap tid line s
  | .ptsTick core => Sys2Proof.Machine.execPtsTick core s
  | .floorRaise => Sys2Proof.Machine.execFloorRaise s
  | .ownTimeRaise agent => Sys2Proof.Machine.execOwnTimeRaise agent s
  | .l2StampSweep slice line => Sys2Proof.Machine.execL2StampSweep slice line s
  | .coreStampSweep core line => Sys2Proof.Machine.execCoreStampSweep core line s
  | .steppedAdvance agent => Sys2Proof.Machine.execSteppedAdvance agent s
  | .storageSweep loc => Sys2Proof.Machine.execStorageSweep loc s
  | .registerSweep loc => Sys2Proof.Machine.execRegisterSweep loc s
  | .bankLoad op => Sys2Proof.Machine.execBankLoad op s
  | .bankStore op => Sys2Proof.Machine.execBankStore op s
  | .fullBitRead op => Sys2Proof.Machine.execFullBitRead op s
  | .granuleEmpty op => Sys2Proof.Machine.execGranuleEmpty op s
  | .pop op => Sys2Proof.Machine.execPop op s
  | .push op => Sys2Proof.Machine.execPush op s
  | .peek op => Sys2Proof.Machine.execPeek op s
  | .count op => Sys2Proof.Machine.execCount op s
  | .mapLookup op => Sys2Proof.Machine.execMapLookup op s
  | .mapInsert op => Sys2Proof.Machine.execMapInsert op s
  | .mapTake op => Sys2Proof.Machine.execMapTake op s
  | .mapDelete op => Sys2Proof.Machine.execMapDelete op s
  | .heapInsert op => Sys2Proof.Machine.execHeapInsert op s
  | .heapPop op => Sys2Proof.Machine.execHeapPop op s
  | .histRead op => Sys2Proof.Machine.execHistRead op s
  | .histAdd op => Sys2Proof.Machine.execHistAdd op s
  | .histReadClear op => Sys2Proof.Machine.execHistReadClear op s
  | .histSet op => Sys2Proof.Machine.execHistSet op s
  | .bankVectorAccess op => Sys2Proof.Machine.execBankVectorAccess op s
  | .bankLde op => Sys2Proof.Machine.execBankLde op s
  | .bankStf op => Sys2Proof.Machine.execBankStf op s
  | .keep op slots order => Sys2Proof.Machine.execKeep op slots order s
  | .drain op => Sys2Proof.Machine.execDrain op s
  | .clear op => Sys2Proof.Machine.execClear op s
  | .compositionForm op => Sys2Proof.Machine.execCompositionForm op s
  | .bankHandover bank owner => Sys2Proof.Machine.execBankHandover bank owner s
  | .trestleAccept tid => Sys2Proof.Machine.execTrestleAccept tid s
  | .tileStep cluster mismatches room fetch => Sys2Proof.Machine.execTileStep cluster mismatches room fetch s
  | .publish cluster copy coreIn => Sys2Proof.Machine.execPublish cluster copy coreIn s
  | .trestleSave cluster => Sys2Proof.Machine.execTrestleSave cluster s
  | .copyAccept tid => Sys2Proof.Machine.execCopyAccept tid s
  | .copy cluster coreIn room => Sys2Proof.Machine.execCopy cluster coreIn room s
  | .fill cluster coreIn room => Sys2Proof.Machine.execFill cluster coreIn room s
  | .gather cluster coreIn room => Sys2Proof.Machine.execGather cluster coreIn room s
  | .scatteradd cluster coreIn => Sys2Proof.Machine.execScatteradd cluster coreIn s
  | .put cluster coreIn => Sys2Proof.Machine.execPut cluster coreIn s
  | .get cluster coreIn room answer => Sys2Proof.Machine.execGet cluster coreIn room answer s
  | .rmaRequest request => Sys2Proof.Machine.execRmaRequest request s
  | .remotePutPublish request => Sys2Proof.Machine.execRemotePutPublish request s
  | .retryBudgetExhausted cluster coreIn => Sys2Proof.Machine.execRetryBudgetExhausted cluster coreIn s
  | .copySave cluster => Sys2Proof.Machine.execCopySave cluster s
  | .allreduce ctx group instance_ rank room answer => Sys2Proof.Machine.execAllreduce ctx group instance_ rank room answer s
  | .reduce ctx group instance_ rank room answer => Sys2Proof.Machine.execReduce ctx group instance_ rank room answer s
  | .bcast ctx group instance_ rank room answer => Sys2Proof.Machine.execBcast ctx group instance_ rank room answer s
  | .allgather ctx group instance_ rank room answer => Sys2Proof.Machine.execAllgather ctx group instance_ rank room answer s
  | .waitwDispatch cluster => Sys2Proof.Machine.execWaitwDispatch cluster s
  | .quiescence launch => Sys2Proof.Machine.execQuiescence launch s
  | .threadCreation launch cluster => Sys2Proof.Machine.execThreadCreation launch cluster s
  | .launchRecordRead launch => Sys2Proof.Machine.execLaunchRecordRead launch s
  | .sideboardReport cluster => Sys2Proof.Machine.execSideboardReport cluster s
  | .restart launch index => Sys2Proof.Machine.execRestart launch index s
  | .messageInjection tid => Sys2Proof.Machine.execMessageInjection tid s
  | .messageDelivery message => Sys2Proof.Machine.execMessageDelivery message s
  | .overflowDrain ctx job message => Sys2Proof.Machine.execOverflowDrain ctx job message s
  | .migrationArrival packet => Sys2Proof.Machine.execMigrationArrival packet s
  | .quantumBoundary core => Sys2Proof.Machine.execQuantumBoundary core s
  | .preEmption tid => Sys2Proof.Machine.execPreEmption tid s
  | .threadSave tid => Sys2Proof.Machine.execThreadSave tid s
  | .slotRst tid pa => Sys2Proof.Machine.execSlotRst tid pa s
  | .slotOwn tid v => Sys2Proof.Machine.execSlotOwn tid v s
  | .cxId core tableEntry v => Sys2Proof.Machine.execCxId core tableEntry v s
  | .tmbox tid => Sys2Proof.Machine.execTmbox tid s
  | .mailboxReply cluster coreIn entryIn v => Sys2Proof.Machine.execMailboxReply cluster coreIn entryIn v s
  | .sysShootD cluster v => Sys2Proof.Machine.execSysShootD cluster v s
  | .trestlePre cluster v => Sys2Proof.Machine.execTrestlePre cluster v s
  | .trestleRes cluster v => Sys2Proof.Machine.execTrestleRes cluster v s
  | .copyPre cluster v => Sys2Proof.Machine.execCopyPre cluster v s
  | .copyRes cluster v => Sys2Proof.Machine.execCopyRes cluster v s
  | .registerWrite reg v => Sys2Proof.Machine.execRegisterWrite reg v s
  | .putPublishAcknowledged cluster coreIn answer => Sys2Proof.Machine.execPutPublishAcknowledged cluster coreIn answer s
  | .privStoreEntersL1 core entry => Sys2Proof.Machine.execPrivStoreEntersL1 core entry s
  | .binfoReport op => Sys2Proof.Machine.execBinfoReport op s
  | .ctxnew cmd frames => Sys2Proof.Machine.execCtxnew cmd frames s
  | .ctxend cmd => Sys2Proof.Machine.execCtxend cmd s
  | .map cmd frames => Sys2Proof.Machine.execMap cmd frames s
  | .unmap cmd => Sys2Proof.Machine.execUnmap cmd s
  | .winopen cmd => Sys2Proof.Machine.execWinopen cmd s
  | .winclose cmd => Sys2Proof.Machine.execWinclose cmd s
  | .submit cmd frames => Sys2Proof.Machine.execSubmit cmd frames s
  | .hostCancel cmd => Sys2Proof.Machine.execHostCancel cmd s
  | .status cmd => Sys2Proof.Machine.execStatus cmd s
  | .logread cmd => Sys2Proof.Machine.execLogread cmd s
  | .group cmd => Sys2Proof.Machine.execGroup cmd s
  | .policy cmd => Sys2Proof.Machine.execPolicy cmd s
  | .packageReset => Sys2Proof.Machine.execPackageReset s
  | .powerGood => Sys2Proof.Machine.execPowerGood s
  | .linkTrained port => Sys2Proof.Machine.execLinkTrained port s
  | .bootImageRead image => Sys2Proof.Machine.execBootImageRead image s
  | .sliceStart slice => Sys2Proof.Machine.execSliceStart slice s
  | .sliceFinished slice => Sys2Proof.Machine.execSliceFinished slice s

end Sys2Proof.Machine
end

