-- ==== Sys2Proof/Machine/Turns.lean ====
section
/-! DEFINITION. What acts next: a turn of the agenda, or, with nothing on it, a turn that the package can make
(notes/assumptions/1.md). -/

namespace Sys2Proof.Machine

/-- The issue turn of the thread at `cur` (12 R284; 15 R374): a thread that is to be pre-empted and can stop here is stopped in
place of its issue; otherwise its next word is fetched, decoded and run. A word that is no instruction is illegal (02 R41). -/
def runIssue (s : State) : Host.Outcome State Fault Refusal :=
  if ((s.thread s.cur).bind (s.stopped s.cur)).isSome then exec (.preEmption s.cur) s
  else
    match fetchWord s with
    | .error _ => runBody (do let _ ← fetchWord; pure ()) s
    | .ok (w, s') =>
      match decodeWord w with
      | .ok i => exec i s'
      | .error _ => runBody (illegal w) s'

/-- A core's issue (12 R284). -/
def issueTurn (core pick : Nat) (s : State) : Host.Outcome State Fault Refusal :=
  match s.nextReady core with
  | none => .next s
  | some slot => runIssue (s.issuing core slot pick)

/-- Whether an entry of a queue, of a compose buffer or of a recipe, or a line of an instruction cache or of a shadow, is there to be
struck. -/
def State.strikable (s : State) (loc : Loc) : Bool :=
  match loc with
  | .ldq t n => (s.thread t).any (fun x => decide (n < x.ldq.length))
  | .sdq t n => (s.thread t).any (fun x => decide (n < x.sdq.length))
  | .compose t n => decide (n < (s.slot t).compose.length)
  | .step t name n => (s.thread t).any (fun x => decide (n < ((find x.recipes name).map (·.body.length)).getD 0))
  | .l1i c l _ => (find (s.core c).icache l).isSome
  | .shadow k copy jid l _ => (s.engine k copy).jobs.any (fun j => j.jid = jid && (find j.shadow l).isSome)
  | _ => true

/-- A soft error flips bits of a stored word (15 R358). -/
def State.strike (s : State) (loc : Loc) (mask : Word) : State :=
  if !loc.valid || !s.strikable loc then s
  else match s.errs.find? (fun e => e.1 = loc) with
  | some e => { s with errs := (loc, e.2 ^^^ mask) :: s.errs.filter (fun x => x.1 != loc) }
  | none => { s with errs := (loc, mask) :: s.errs }

/-- 2^14 cycles pass for an agent: an advance of its own time may be as long again (09 R227). -/
def State.elapsed (s : State) (a : Agent) : State :=
  let s' := s.setClock a { s.clock a with room := Config.maxAdvance }
  match a with
  | .core c => s'.setCore c { s'.core c with cycle := (s'.core c).cycle + 2 ^ 14 }
  | _ => s'

/-- A TLB of a core, or from 256 on of its cluster, drops an entry (14 R342). -/
def State.dropTlb (s : State) (core n : Nat) : State :=
  if n < 256 then s.setCore core { s.core core with tlb := (s.core core).tlb.eraseIdx n }
  else s.setCluster (clusterOf core) { s.cluster (clusterOf core) with tlb := (s.cluster (clusterOf core)).tlb.eraseIdx (n - 256) }

/-- One turn. A turn of a unit that the package lacks does nothing (01 R17). -/
def turn (t : Turn) (s : State) : Host.Outcome State Fault Refusal :=
  match t with
  | .issue core pick => issueTurn core pick s
  | .event i => if (encode i).isSome then .next s else exec i s
  | .evictL1 core key => runEvent (evictL1 core key) s
  | .evictI core line =>
    .next (if core < Config.cores then s.setCore core { s.core core with icache := del (s.core core).icache line } else s)
  | .evictL2 line => runEvent (evictL2 line) s
  | .evictTlb core n => .next (if core < Config.cores then s.dropTlb core n else s)
  | .acceptWb n => runEvent (acceptWb n) s
  | .elapse a => .next (if a.valid then s.elapsed a else s)
  | .softError loc mask => .next (s.strike loc mask)
  | .firmwareLog ctx code src id addr => runEvent (violation ctx 7 code src id addr (s.clock (.sideboard 0)).t) s
  | .outside addr v => if addr < 2 ^ 52 then .next { s with mem := Memory.write s.mem addr v } else .next s
  | .memPoison line => if line < 2 ^ 47 then .next { s with memPoison := s.memPoison.insert line } else .next s
  | .idle => .next s

/-- The first turn of a list that changes a state. -/
def firstChanging (s : State) : List Turn → Option Turn
  | [] => none
  | t :: ts => match turn t s with
    | .next s' => if s' = s then firstChanging s ts else some t
    | _ => firstChanging s ts

/-- The cores with a ready slot, the one with the fewest issues first. -/
def State.issuers (s : State) : List Turn :=
  match leastBy (fun c => (s.core c).issues) ((s.cores.map (·.1)).filter (fun c => (s.nextReady c).isSome)) with
  | some c => [.issue c 0]
  | none => []

/-- Whether a line is exclusive in a core other than one. -/
def State.ownedBeyond (s : State) (core line : Nat) : Bool :=
  match (find s.l2 line).bind (·.owner) with
  | some c => c != core
  | none => false

/-- The turns by which a core gets a line that it waits for: from its owner, or from its home. -/
def State.fetching (s : State) (core line : Nat) (keep : Bool) : List Turn :=
  (if s.ownedBeyond core line then [.event (.recall line keep)] else []) ++ (if keep then [] else [.event (.exclusiveRequest core line)])

/-- The turns that move lines between cores, for waits of threads and stores on their way. -/
def State.moving (s : State) : List Turn :=
  s.threads.flatMap (fun p =>
    let core := coreOf p.1
    (match p.2.park with
      | some (.line _ line _ _ excl _ _ _ _) => s.fetching core line (!excl)
      | some (.hold line) => s.fetching core line false
      | some (.atomic _ _ line _ _) => s.fetching core line false
      | _ => []) ++
    (p.2.ldq.filter (fun e => e.val.isNone && e.attr = .coh)).flatMap (fun e => s.fetching core e.line true)) ++
  s.cores.flatMap (fun c => (c.2.buffer.filter (fun e => e.attr = .coh)).flatMap (fun e => s.fetching c.1 e.line false))

/-- The ticks that are due by the cycles of the cores' issues (notes/assumptions/1.md). -/
def State.ticks (s : State) : List Turn :=
  (s.cores.filter (fun c => s.ticking c.1 && decide (c.2.ticked + s.period c.1 ≤ c.2.cycle))).map (fun c => .event (.ptsTick c.1))

/-- The ends of holds by their caps. -/
def State.caps (s : State) : List Turn := s.threads.flatMap (fun p => p.2.holds.map (fun l => .event (.holdCap p.1 l)))

/-- The turns by which waits of the threads, stores on their way, operations at banks, messages and jobs go on. -/
def State.pending (s : State) : List Turn :=
  let clocks := s.clocks.flatMap (fun p => if p.2.late.isSome then [Turn.event (.steppedAdvance p.1), .elapse p.1] else [])
  let waits := s.threads.flatMap (fun p =>
    let tid := p.1
    (match p.2.park with
      | some (.advance _) => [Turn.event (.threadReady tid), .elapse (.core (coreOf tid))]
      | some _ =>
        [.event (.threadReady tid), .event (.pageWalk tid), .event (.cohRead tid 0), .event (.loadReply tid 0), .event (.farAtomic tid),
         .event (.messageInjection tid), .event (.trestleAccept tid), .event (.copyAccept tid), .event (.tmbox tid),
         .event (.threadSave tid)]
      | none => []) ++
    (if p.2.preempt.isSome then [.event (.preEmption tid)] else []) ++
    (numbers 1 p.2.ldq.length).flatMap (fun k => [Turn.event (.cohRead tid k), .event (.loadReply tid k)]))
  let stores := s.cores.flatMap (fun c => c.2.buffer.flatMap (fun e =>
    [Turn.event (.privStoreEntersL1 c.1 e.id), .event (.storeTimestamp c.1 e.id)]))
  let banks := s.bankOps.flatMap (fun p =>
    let n := p.1
    [Turn.event (.bankLoad n), .event (.bankStore n), .event (.fullBitRead n), .event (.granuleEmpty n), .event (.pop n), .event (.push n),
     .event (.peek n), .event (.count n), .event (.mapLookup n), .event (.mapInsert n), .event (.mapTake n), .event (.mapDelete n),
     .event (.heapInsert n), .event (.heapPop n), .event (.histRead n), .event (.histAdd n), .event (.histReadClear n), .event (.histSet n),
     .event (.bankVectorAccess n), .event (.bankLde n), .event (.bankStf n), .event (.keep n [] []), .event (.drain n), .event (.clear n),
     .event (.compositionForm n), .event (.binfoReport n), .event (.bankReply n)])
  let net := s.messages.map (fun p => Turn.event (.messageDelivery p.1)) ++
    s.overflow.map (fun h => Turn.event (.overflowDrain h.ctx h.job h.dst)) ++ s.packets.map (fun p => Turn.event (.migrationArrival p.1))
  let boards := s.clusters.flatMap (fun k => [Turn.event (.sideboardReport k.1), .event (.waitwDispatch k.1)])
  let launches := s.launches.flatMap (fun l => [Turn.event (.launchRecordRead l.1), .event (.quiescence l.1)] ++
    (numbers l.2.record.cbase l.2.record.ccnt).map (fun k => Turn.event (.threadCreation l.1 k)))
  let engines := s.jobs.flatMap (fun j =>
    let k := j.1
    let c := j.2.2.core % 8
    [Turn.event (.publish k j.2.1 c), .event (.tileStep k 0 true false), .event (.copy k c true), .event (.fill k c true),
     .event (.gather k c true), .event (.scatteradd k c), .event (.put k c), .event (.trestleSave k), .event (.copySave k)])
  let colls := s.contexts.flatMap (fun c => c.2.colls.flatMap (fun i => (numbers 0 i.members.length).flatMap (fun r =>
    let none : RemoteAnswer := { status := 0, addr := 0, data := [] }
    [Turn.event (.allreduce c.1 i.grp i.inst r true none), .event (.reduce c.1 i.grp i.inst r true none),
     .event (.bcast c.1 i.grp i.inst r true none), .event (.allgather c.1 i.grp i.inst r true none)])))
  let puts := s.rma.map (fun r => Turn.event (.remotePutPublish r.1))
  let back := s.wbs.map (fun p => Turn.event (.writeBack p.1)) ++ s.discards.map (fun l => Turn.event (.deferredDiscard l))
  clocks ++ waits ++ stores ++ banks ++ net ++ boards ++ launches ++ engines ++ colls ++ puts ++ back

/-- The state after a turn that no agenda names: the first of the package's own that changes anything. Lines move between cores
when nothing else can happen, and one does at every eighth issue; a hold's cap ends it where nothing else can happen. -/
def ownTurn (s : State) : Host.Outcome State Fault Refusal :=
  let n := (s.cores.map (fun c => c.2.issues)).sum
  match firstChanging s (s.ticks ++ s.pending) with
  | some t => turn t s
  | none =>
    match firstChanging s (if n % 8 = 0 && s.moved != n then s.moving else []) with
    | some t => turn t { s with moved := n }
    | none =>
      match firstChanging s (s.issuers ++ s.moving ++ s.caps) with
      | some t => turn t s
      | none => .next s

end Sys2Proof.Machine
end

