-- ==== Sys2Proof/Machine/Step.lean ====
section
/-! DEFINITION. The step of the package, and the placing of a word where it fetches next. -/

namespace Sys2Proof.Machine

/-- One step: the first turn of the agenda, or one of the package's own (notes/assumptions/1.md). -/
def step (s : State) : Host.Outcome State Fault Refusal :=
  match s.agenda with
  | [] => ownTurn s
  | t :: rest => turn t { s with agenda := rest }

/-- A state whose next step fetches and runs the instruction with bits `w` (notes/assumptions/8.md). Every instruction has one
word of 32 bits. -/
def State.withFetchWord (s : State) (nbits w : Nat) : State :=
  let s' := s.placeWord (BitVec.ofNat 32 (w % 2 ^ nbits))
  { s' with agenda := .issue 0 0 :: s'.agenda }

end Sys2Proof.Machine
end

