-- ==== Sys2Proof/Safety.lean ====
section
/-! DEFINITION. What the statements call a safe state and a run: a state whose pooled memory has its one canonical form, and the
states that the package comes to from package reset when anything stands on the agenda. -/

namespace Sys2Proof.Machine

/-- A state is safe when its pooled memory is in canonical form, so that equal memories are equal data. -/
def State.Safe (s : State) : Prop := Memory.wf s = true

/-- A step goes on. -/
def State.StepsTo (s t : State) : Prop := step s = .next t

/-- The states of a run: reset, whatever a step gives, and a state with other choices on its agenda (notes/assumptions/1.md). -/
inductive State.Reached : State → Prop where
  | reset : State.Reached State.reset
  | step {s t : State} : State.Reached s → s.StepsTo t → State.Reached t
  | choose {s : State} (agenda : List Turn) : State.Reached s → State.Reached { s with agenda := agenda }

/-- A computation of the model goes through from `s`: it answers `v` and leaves `t`. -/
def Gives {α : Type} (m : M α) (s : State) (v : α) (t : State) : Prop := m s = .ok (v, t)

/-- The thread at `cur` may issue an instruction: it is there and not parked, the word is well formed and accepts the prefixes of the
unit, and nothing about its names sends the thread home or is illegal (02 R29 to R31, R34; 12 R284, R304). -/
def Issues (i : Instr) (s : State) : Prop :=
  ∃ x, s.thread s.cur = some x ∧ x.park = none ∧ wellFormed i = true ∧ accepts i x.latch = true ∧
    Gives (judgeNames (wordOf i) i) s () s

/-- The unit of an instruction ends and its thread goes on at the next word (02 R55; 04 R101). -/
def Retires (s t : State) : Prop := Gives (retire 1) s () t

/-- Nothing but registers stands in the way of the thread at `cur`: it issues alone, no soft error is outstanding, its window holds
no poison, no message is complete in its compose buffer, and a next word exists. -/
structure Plain (i : Instr) (s : State) (x : Thread) : Prop where
  thread : s.thread s.cur = some x
  issues : Issues i s
  single : x.role = .single
  sound : s.errs = []
  clean : ∀ k < x.win, (findD (s.core (coreOf s.cur)).rf {} (x.wbase + k)).poison = false
  open_ : (s.slot s.cur).composed = false
  room : x.pc.toNat + 4 < 2 ^ 55

/-- The value of a resident name of the thread at `cur` (02 R27). -/
def State.resident (s : State) (x : Thread) (n : Nat) : Word := (findD (s.core (coreOf s.cur)).rf {} (x.wbase + n)).val

/-- Between `s` and `t` the thread at `cur` ran one unit that wrote no more than the resident names `names` and the flags of its tstat:
memory, caches, banks, engines, messages and the rest of the package are as they were, and so are the other cores, the other registers
of this core, its other slots, the slot's registers but tstat, and the thread but its pc, the unit in progress and the staleness of its
recipes. -/
def RegistersOnly (s t : State) (names : List Nat) : Prop :=
  ∃ x y, s.thread s.cur = some x ∧ t.thread s.cur = some y ∧
    t = { s with cores := t.cores } ∧
    (∀ c, c ≠ coreOf s.cur → t.core c = s.core c) ∧
    t.core (coreOf s.cur) = { s.core (coreOf s.cur) with
      rf := (t.core (coreOf s.cur)).rf
      slots := (t.core (coreOf s.cur)).slots } ∧
    (∀ k, (∀ n ∈ names, k ≠ x.wbase + n) →
      findD (t.core (coreOf s.cur)).rf {} k = findD (s.core (coreOf s.cur)).rf {} k) ∧
    (∀ n, n ≠ s.cur → t.slot n = s.slot n) ∧
    t.slot s.cur = { s.slot s.cur with
      thread := some y
      tstat := (t.slot s.cur).tstat } ∧
    y = { x.endUnit with
      pc := y.pc
      recipes := y.recipes
      released := none } ∧
    y.recipes.map (fun p => (p.1, { p.2 with stale := false })) = x.recipes.map (fun p => (p.1, { p.2 with stale := false }))

end Sys2Proof.Machine
end

