-- ==== Sys2Proof/Certificates/Slice0/Obligations.lean ====
section
/-! DEFINITION. The statements for the provers, and the tables that they are made over. Where a statement speaks of a name's value
or of a write of a name it uses `readName` and `writeName` (02 R52, R53), so that it holds for every name that an operand may be;
what those two do is stated by statements of their own. -/

namespace Sys2Proof.Statements

open Sys2Proof.Machine

/-- The integer instructions d ← f(A, B) with the values that 04 R90 to R98 give them. -/
def integerPair : Instr → Option (BitVec 8 × BitVec 8 × BitVec 8 × (Word → Word → Word))
  | .add d a b => some (d, a, b, fun A B => A + B)
  | .sub d a b => some (d, a, b, fun A B => A - B)
  | .mul d a b => some (d, a, b, fun A B => A * B)
  | .mulh d a b => some (d, a, b, fun A B => BitVec.ofInt 64 (A.toInt * B.toInt / 2 ^ 64))
  | .mulhu d a b => some (d, a, b, fun A B => BitVec.ofNat 64 (A.toNat * B.toNat / 2 ^ 64))
  | .div d a b => some (d, a, b, fun A B => if B = 0 then BitVec.allOnes 64 else BitVec.ofInt 64 (A.toInt.tdiv B.toInt))
  | .divu d a b => some (d, a, b, fun A B => if B = 0 then BitVec.allOnes 64 else BitVec.ofNat 64 (A.toNat / B.toNat))
  | .rem d a b => some (d, a, b, fun A B => if B = 0 then A else BitVec.ofInt 64 (A.toInt - B.toInt * A.toInt.tdiv B.toInt))
  | .remu d a b => some (d, a, b, fun A B => if B = 0 then A else BitVec.ofNat 64 (A.toNat % B.toNat))
  | .and d a b => some (d, a, b, fun A B => A &&& B)
  | .or d a b => some (d, a, b, fun A B => A ||| B)
  | .xor d a b => some (d, a, b, fun A B => A ^^^ B)
  | .shl d a b => some (d, a, b, fun A B => A <<< (B.toNat % 64))
  | .shr d a b => some (d, a, b, fun A B => A >>> (B.toNat % 64))
  | .sar d a b => some (d, a, b, fun A B => A.sshiftRight (B.toNat % 64))
  | .slt d a b => some (d, a, b, fun A B => if A.toInt < B.toInt then 1 else 0)
  | .sltu d a b => some (d, a, b, fun A B => if A.toNat < B.toNat then 1 else 0)
  | .seq d a b => some (d, a, b, fun A B => if A = B then 1 else 0)
  | .min d a b => some (d, a, b, fun A B => if A.toInt ≤ B.toInt then A else B)
  | .max d a b => some (d, a, b, fun A B => if B.toInt ≤ A.toInt then A else B)
  | .minu d a b => some (d, a, b, fun A B => if A.toNat ≤ B.toNat then A else B)
  | .maxu d a b => some (d, a, b, fun A B => if B.toNat ≤ A.toNat then A else B)
  | .hash64 d a b => some (d, a, b, hash64)
  | _ => none

/-- The integer instructions d ← f(A), where the unit's latch may hold the higher bits of an immediate (02 R36; 04 R90 to R99). -/
def integerOne : Instr → Option (BitVec 8 × BitVec 8 × (Latch → Word → Word))
  | .addi d a i => some (d, a, fun l A => A + assembled l 8 i.toNat)
  | .andi d a i => some (d, a, fun l A => A &&& assembled l 8 i.toNat)
  | .ori d a i => some (d, a, fun l A => A ||| assembled l 8 i.toNat)
  | .xori d a i => some (d, a, fun l A => A ^^^ assembled l 8 i.toNat)
  | .slti d a i => some (d, a, fun l A => if A.toInt < (assembled l 8 i.toNat).toInt then 1 else 0)
  | .shli d a i => some (d, a, fun _ A => A <<< i.toNat)
  | .shri d a i => some (d, a, fun _ A => A >>> i.toNat)
  | .sari d a i => some (d, a, fun _ A => A.sshiftRight i.toNat)
  | .clz d a => some (d, a, fun _ A => clz A)
  | .popc d a => some (d, a, fun _ A => popc A)
  | .cvtu d a => some (d, a, fun _ A => cvtu A)
  | .sext d a i => some (d, a, fun _ A => signExtendFrom i.toNat A)
  | _ => none

/-- The compare-with-zero branches with their conditions (04 R102). -/
def branchOf : Instr → Option (BitVec 8 × BitVec 16 × (Word → Bool))
  | .bz a o => some (a, o, fun A => A = 0)
  | .bnz a o => some (a, o, fun A => A != 0)
  | .bltz a o => some (a, o, fun A => decide (A.toInt < 0))
  | .bgez a o => some (a, o, fun A => !decide (A.toInt < 0))
  | .bgtz a o => some (a, o, fun A => decide (0 < A.toInt))
  | .blez a o => some (a, o, fun A => !decide (0 < A.toInt))
  | _ => none


/-- The scalar float instructions d ← f(A, B) in a format and a rounding mode, with their flags (05 R111 to R113, R116). -/
def floatPair : Instr → Option (BitVec 8 × BitVec 8 × BitVec 8 × (Latch → Fmt → Nat → Nat → Nat → Nat × Flags))
  | .fadd d a b => some (d, a, b, fun _ f m x y => f.add m x y)
  | .fsub d a b => some (d, a, b, fun _ f m x y => f.sub m x y)
  | .fmul d a b => some (d, a, b, fun _ f m x y => f.mul m x y)
  | .fdiv d a b => some (d, a, b, fun _ f m x y => f.div m x y)
  | .fmin d a b => some (d, a, b, fun _ f _ x y => f.minmax false x y)
  | .fmax d a b => some (d, a, b, fun _ f _ x y => f.minmax true x y)
  | .feq d a b => some (d, a, b, fun _ f _ x y => (if (f.compare 0 x y).1 then 1 else 0, (f.compare 0 x y).2))
  | .flt d a b => some (d, a, b, fun _ f _ x y => (if (f.compare 1 x y).1 then 1 else 0, (f.compare 1 x y).2))
  | .fle d a b => some (d, a, b, fun _ f _ x y => (if (f.compare 2 x y).1 then 1 else 0, (f.compare 2 x y).2))
  | .fsgnj d a b => some (d, a, b, fun l f _ x y => (signInject f (l.aux / 2) x y, 0))
  | _ => none

/-- The scalar float instructions d ← f(A) (05 R111, R114, R115). -/
def floatOne : Instr → Option (BitVec 8 × BitVec 8 × (Fmt → Nat → Nat → Nat × Flags))
  | .fsqrt d a => some (d, a, fun f m x => f.sqrt m x)
  | .flg2 d a => some (d, a, fun f m x => f.lg2 m x)
  | .fex2 d a => some (d, a, fun f m x => f.ex2 m x)
  | .fclass d a => some (d, a, fun f _ x => (f.classOf x, 0))
  | .frint d a => some (d, a, fun f m x => f.rint m x)
  | _ => none

/-- The fused instructions with whether the product is negated (05 R111). -/
def fused : Instr → Option (BitVec 8 × BitVec 8 × BitVec 8 × Bool)
  | .ffma d a b => some (d, a, b, false)
  | .ffms d a b => some (d, a, b, true)
  | _ => none

/-- The lane operations on three groups: the lane code, the rounding mode and the lanes of a, b and d give a lane and its flags
(05 R119). -/
def laneThree : Instr → Option (BitVec 8 × BitVec 8 × BitVec 8 × (Nat → Nat → Nat → Nat → Nat → Nat × Flags))
  | .vadd d a b => some (d, a, b, floatLane (fun f m x y _ => f.add m x y))
  | .vsub d a b => some (d, a, b, floatLane (fun f m x y _ => f.sub m x y))
  | .vmul d a b => some (d, a, b, floatLane (fun f m x y _ => f.mul m x y))
  | .vfma d a b => some (d, a, b, floatLane (fun f m x y c => f.fma m x y c))
  | .vmin d a b => some (d, a, b, fun code _ x y _ => pickLane false code x y)
  | .vmax d a b => some (d, a, b, fun code _ x y _ => pickLane true code x y)
  | .viadd d a b => some (d, a, b, fun code _ x y _ => ((x + y) % 2 ^ laneWidth code, 0))
  | .vimul d a b => some (d, a, b, fun code _ x y _ => (x * y % 2 ^ laneWidth code, 0))
  | _ => none

/-- The lane operations on one group (05 R121). -/
def laneSingle : Instr → Option (BitVec 8 × BitVec 8 × (Nat → Nat → Nat → Nat × Flags))
  | .vlg2 d a => some (d, a, fun code m x => floatLane (fun f m x _ _ => f.lg2 m x) code m x 0 0)
  | .vex2 d a => some (d, a, fun code m x => floatLane (fun f m x _ _ => f.ex2 m x) code m x 0 0)
  | _ => none

/-- The bitwise operations on groups (05 R120). -/
def groupBits : Instr → Option (BitVec 8 × BitVec 8 × BitVec 8 × (Word → Word → Word))
  | .vand d a b => some (d, a, b, fun x y => x &&& y)
  | .vor d a b => some (d, a, b, fun x y => x ||| y)
  | .vxor d a b => some (d, a, b, fun x y => x ^^^ y)
  | _ => none

/-- The rounding mode of the unit that a thread with a latch issues in a state (02 R56; 03 R68). -/
def roundingOf (s : State) (l : Latch) : Nat := modeOf l.rm (s.slot s.cur).tstat

/-- The resident names of a vector group (02 R28). -/
def groupNames (n : BitVec 8) : List Nat := (List.range 8).map (n.toNat + ·)

/-- The words of a vector group of resident names. -/
def groupOf (s : State) (x : Thread) (n : BitVec 8) : List Word := (groupNames n).map (s.resident x)

/-- The scalar loads: destination, base, offset, bytes, whether the value is sign-extended, whether the load is LDRO (10 R233, R235). -/
def loadOf : Instr → Option (BitVec 8 × BitVec 8 × BitVec 8 × Nat × Bool × Bool)
  | .ldb d a m => some (d, a, m, 1, true, false)
  | .ldbu d a m => some (d, a, m, 1, false, false)
  | .ldh d a m => some (d, a, m, 2, true, false)
  | .ldhu d a m => some (d, a, m, 2, false, false)
  | .lds d a m => some (d, a, m, 4, true, false)
  | .ldsu d a m => some (d, a, m, 4, false, false)
  | .ldw d a m => some (d, a, m, 8, false, false)
  | .ldro d a m => some (d, a, m, 8, false, true)
  | _ => none

/-- The scalar stores: data, base, offset, bytes (10 R233). -/
def storeOf : Instr → Option (BitVec 8 × BitVec 8 × BitVec 8 × Nat)
  | .stb d a m => some (d, a, m, 1)
  | .sth d a m => some (d, a, m, 2)
  | .sts d a m => some (d, a, m, 4)
  | .stw d a m => some (d, a, m, 8)
  | _ => none

/-- The atomics with what each does to the word, from the unit's latch and the old value of d (10 R239, R240). -/
def atomicOf : Instr → Option (BitVec 8 × BitVec 8 × BitVec 8 × (Latch → Word → AtomicKind))
  | .aadd d a b => some (d, a, b, fun _ _ => .add)
  | .aswp d a b => some (d, a, b, fun _ _ => .swap)
  | .acas d a b => some (d, a, b, fun _ c => .cas c)
  | .amin d a b => some (d, a, b, fun l _ => .min (l.aux = 1))
  | .amax d a b => some (d, a, b, fun l _ => .max (l.aux = 1))
  | _ => none

/-- The address of an access of the thread at `cur`: a base and an offset, or what the access had when it parked (02 R54). -/
def addressOf (y : Thread) (base : Word) (size : Nat) (m : BitVec 8) (l : Latch) : Word :=
  y.resume.ea.getD (base + word size * assembled l 8 m.toNat)

/-- An address that a data access of `size` bytes may have (10 R230): in the space and aligned. -/
def Addressed (ea : Word) (size : Nat) : Prop := outside ea = false ∧ ea.toNat % size = 0

/-- The core's TLB gives the thread at `cur` the page of an address, with the permission that a kind of access needs (14 R341, R342). -/
def Mapped (s : State) (x : Thread) (ea : Word) (kind : Nat) (p : Page) : Prop :=
  ∃ e, tlbFind (s.core (coreOf s.cur)).tlb x.ctx ea.toNat = some e ∧ p = pageOf e.level e.leaf ea.toNat ∧
    permits p.leaf kind (!prv (s.slot s.cur).tstat) = true

/-- The events at a bank's own order with the form of operation that each serves (11 R268). -/
def bankFormOf : Instr → Option (BankForm × Nat)
  | .bankLoad n => some (.load, n)
  | .bankStore n => some (.store, n)
  | .fullBitRead n => some (.fullBit, n)
  | .granuleEmpty n => some (.empty, n)
  | .pop n => some (.pop, n)
  | .push n => some (.push, n)
  | .peek n => some (.peek, n)
  | .count n => some (.count, n)
  | .mapLookup n => some (.lookup, n)
  | .mapInsert n => some (.insert, n)
  | .mapTake n => some (.take, n)
  | .mapDelete n => some (.delete, n)
  | .heapInsert n => some (.heapInsert, n)
  | .heapPop n => some (.heapPop, n)
  | .histRead n => some (.histRead, n)
  | .histAdd n => some (.histAdd, n)
  | .histReadClear n => some (.histReadClear, n)
  | .histSet n => some (.histSet, n)
  | .bankVectorAccess n => some (.vector, n)
  | .bankStf n => some (.stf, n)
  | _ => none

/-- An operation that waits at a bank, unanswered, with the form that the bank gives it (11 R261, R262). -/
structure Waits (s : State) (n : Nat) (op : BankOp) (form : BankForm) (ok : Bool) : Prop where
  there : find s.bankOps n = some op
  unanswered : op.reply = none
  form : s.formOf op = (form, ok)
  free : (s.bank op.bank).waiting.any (fun q => q.op = n) = false

/-- An accepted operation at a bank that stands alone, is not struck, and whose time is not behind the operation's; its value is not to be
the header of a message (of one that is BankOperationsComplete says what an answer that is none does). -/
structure AtBank (s : State) (n : Nat) (op : BankOp) (form : BankForm) : Prop where
  waits : Waits s n op form true
  plain : op.header = false
  alone : (s.bank op.bank).members = []
  sound : s.errs = []
  time : later (s.clock (.bank op.bank)).t op.time = false

/-- Whether an answer is to be the header of a message and is none, so that its unit traps (13 R333): its kind, a reserved field or its
length. -/
def Refuses (op : BankOp) (r : Reply) : Bool :=
  op.header && !r.poison && (bits r.value 63 62 != 0 || bits r.value 47 24 != 0 || bits r.value 61 57 = 0)

/-- The operation was answered at the bank's own time, the bank became `b`, and nothing else changed (11 R268, R269). -/
def Answered (s t : State) (n : Nat) (op : BankOp) (r : Reply) (b : Bank) : Prop :=
  find t.bankOps n = some { op with reply := some { r with time := (s.clock (.bank op.bank)).t } } ∧ t.bank op.bank = b ∧
    (∀ k, k ≠ op.bank → t.bank k = s.bank k) ∧ (∀ k, k ≠ n → find t.bankOps k = find s.bankOps k) ∧
    t = { s with
      banks := t.banks
      bankOps := t.bankOps }

/-- The core of the thread at `cur` learns the timestamps of the stores that the thread's early reads were forwarded from on a core that
it has left (09 R218). -/
def LearnsEarly (s : State) (x : Thread) (t : State) : Prop :=
  (x.earlyTime = none ∧ t = s) ∨ ∃ e, x.earlyTime = some e ∧ Gives (raisePts (returnTime s.floor e)) s () t

/-- The state in which the thread at `cur` has no early read any more. -/
def withoutEarly (s : State) (x : Thread) : State :=
  s.setSlot s.cur { s.slot s.cur with thread := some { x with
    early := []
    earlyTime := none } }

/-- A job of a copy engine whose turn it is, with its operation (10 R249 to R254). -/
structure CopyTurn (s : State) (k core op : Nat) (j : Job) : Prop where
  cluster : k < 512
  inCluster : core < 8
  turn : s.copyTurn k = some core
  current : (s.engine k true).copyCurrent core = some j
  runs : s.copyRuns (s.engine k true) j = true
  op : bits (j.param.getD 5 0) 63 60 = op
  live : j.cancel = false

/-- The state in which a copy engine has turned to a core. -/
def turned (s : State) (k core : Nat) : State :=
  s.setCluster k { s.cluster k with copy := { s.engine k true with pointer := core } }

/-- A host's command of a number on a context in being that the steward accepts, next in its host's order (14 R352, R353, R356). -/
structure Accepted (number : Nat) (s : State) (c : HostCmd) (x : Context) : Prop where
  opened : s.boot.opened = true
  numbered : c.isCommand number = true
  next : s.nextOf c = true
  listed : s.boot.hosts.contains c.host = true
  there : find s.contexts c.ctx = some x
  creator : x.host = c.host
  going : x.ending = none

/-- The state in which the steward has taken a command up. -/
def taken (s : State) (c : HostCmd) : State := { s with sequence := put s.sequence c.host c.seq }

end Sys2Proof.Statements


open Sys2Proof Sys2Proof.Machine Sys2Proof.Statements

/-- 04 R90 to R94, R98: an integer instruction of two scalar operands reads A, then B, writes its value to d and goes on at the next
word, whatever names its operands are; the multiplies have their encodings and the products of R91. -/
def Obligations.IntegerPairCompletes : Prop :=
  (∀ (i : Instr) (d a b : BitVec 8) (f : Word → Word → Word), integerPair i = some (d, a, b, f) →
  ∀ (s s1 s2 s3 t : State) (A B : Word), Issues i s → Gives (readName (wordOf i) a) s A s1 →
    Gives (readName (wordOf i) b) s1 B s2 → Gives (writeName (wordOf i) d (f A B)) s2 () s3 → Retires s3 t →
    exec i s = .next t) ∧
  (∀ d a b : BitVec 8, encode (.mul d a b) = some (0x04#8 ++ d ++ a ++ b) ∧ encode (.mulh d a b) = some (0x05#8 ++ d ++ a ++ b) ∧
    encode (.mulhu d a b) = some (0x06#8 ++ d ++ a ++ b) ∧
    ∀ f, (integerPair (.mulh d a b) = some (d, a, b, f) → f (1 <<< 63) (1 <<< 63) = 1 <<< 62) ∧
      (integerPair (.mul d a b) = some (d, a, b, f) → f (1 <<< 63) (1 <<< 63) = 0 ∧
        ∀ A B, f A B = BitVec.ofInt 64 (A.toInt * B.toInt) ∧ f A B = BitVec.ofNat 64 (A.toNat * B.toNat)))

/-- 04 R90 to R99, 02 R36: an integer instruction of one scalar operand, and an immediate that the unit's prefixes may lengthen. -/
def Sys2Proof.Statements.integerOneCompletes : Prop :=
  ∀ (i : Instr) (d a : BitVec 8) (f : Latch → Word → Word), integerOne i = some (d, a, f) →
  ∀ (s s1 s2 t : State) (x : Thread) (A : Word), Issues i s → s.thread s.cur = some x →
    Gives (readName (wordOf i) a) s A s1 → Gives (writeName (wordOf i) d (f x.latch A)) s1 () s2 → Retires s2 t →
    exec i s = .next t

/-- 04 R95, R100: SEL chooses by the old value of its resident destination; LDI and ADDPC write an assembled immediate, and the address
of the unit plus one. -/
def Sys2Proof.Statements.selectAndLoadImmediateComplete : Prop :=
  (∀ (d a b : BitVec 8) (s s1 s2 s3 s4 t : State) (A B D : Word), Issues (.sel d a b) s →
    Gives (readName (wordOf (.sel d a b)) a) s A s1 → Gives (readName (wordOf (.sel d a b)) b) s1 B s2 →
    Gives (readResident d.toNat) s2 D s3 → Gives (writeName (wordOf (.sel d a b)) d (if D ≠ 0 then A else B)) s3 () s4 →
    Retires s4 t → exec (.sel d a b) s = .next t) ∧
  (∀ (d : BitVec 8) (k : BitVec 16) (s s1 t : State) (x : Thread), Issues (.ldi d k) s → s.thread s.cur = some x →
    Gives (writeName (wordOf (.ldi d k)) d (assembled x.latch 16 k.toNat)) s () s1 → Retires s1 t →
    exec (.ldi d k) s = .next t) ∧
  (∀ (d : BitVec 8) (k : BitVec 16) (s s1 t : State) (x : Thread), Issues (.addpc d k) s → s.thread s.cur = some x →
    Gives (writeName (wordOf (.addpc d k)) d (x.first.setWidth 64 + assembled x.latch 16 k.toNat)) s () s1 → Retires s1 t →
    exec (.addpc d k) s = .next t)

/-- 02 R36; 04 R90 to R100: the integer instructions of one operand, SEL, LDI and ADDPC complete with their values. -/
def Obligations.IntegerOthersComplete : Prop :=
  integerOneCompletes ∧ selectAndLoadImmediateComplete

/-- 04 R102: a branch whose condition fails goes on at the next word; one whose condition holds goes to the unit's address plus four
times the offset, which the transfer checks. -/
def Sys2Proof.Statements.branchesComplete : Prop :=
  ∀ (i : Instr) (a : BitVec 8) (o : BitVec 16) (c : Word → Bool), branchOf i = some (a, o, c) →
  ∀ (s s1 t : State) (x : Thread) (A : Word), Issues i s → s.thread s.cur = some x → Gives (readName (wordOf i) a) s A s1 →
    (c A = false → Retires s1 t → exec i s = .next t) ∧
    (c A = true → Gives (transfer (x.first.setWidth 64 + 4 * assembled x.latch 16 o.toNat)) s1 () t → exec i s = .next t)

/-- 04 R101: a transfer to an aligned address below 2^55 of a thread with no complete message to send makes that address the pc and
ends the unit; nothing else changes. -/
def Sys2Proof.Statements.transferGoesOn : Prop :=
  ∀ (T : Word) (s : State) (x : Thread), s.thread s.cur = some x → (s.slot s.cur).composed = false → bits T 1 0 = 0 →
    T.toNat < 2 ^ 55 →
    Gives (transfer T) s () (s.setSlot s.cur { s.slot s.cur with thread := some { x.endUnit with
      pc := T.setWidth 55
      released := none } })

/-- 04 R103, R104: J, CALL and JMPR. CALL links g7; JMPR checks its target before it writes the link. The link is the address of the
next word. -/
def Sys2Proof.Statements.jumpsComplete : Prop :=
  (∀ (o : BitVec 24) (s t : State) (x : Thread), Issues (.j o) s → s.thread s.cur = some x →
    Gives (transfer (x.first.setWidth 64 + 4 * assembled x.latch 24 o.toNat)) s () t → exec (.j o) s = .next t) ∧
  (∀ (o : BitVec 24) (s s1 t : State) (x : Thread), Issues (.call o) s → s.thread s.cur = some x →
    Gives (writeResident 7 (word (x.pc.toNat + 4))) s () s1 →
    Gives (transfer (x.first.setWidth 64 + 4 * assembled x.latch 24 o.toNat)) s1 () t → exec (.call o) s = .next t) ∧
  (∀ (d a : BitVec 8) (s s1 s2 t : State) (x : Thread) (T : Word), Issues (.jmpr d a) s →
    Gives (readName (wordOf (.jmpr d a)) a) s T s1 → s1.thread s1.cur = some x → bits T 1 0 = 0 → T.toNat < 2 ^ 55 →
    Gives (writeName (wordOf (.jmpr d a)) d (word (x.pc.toNat + 4))) s1 () s2 → Gives (transfer T) s2 () t →
    exec (.jmpr d a) s = .next t)

/-- 04 R101 to R104: the branches, J, CALL and JMPR go to their targets or on, and a transfer to a good address makes it the pc. -/
def Obligations.TransfersComplete : Prop :=
  branchesComplete ∧ transferGoesOn ∧ jumpsComplete

/-- 04 R90 to R100: an integer instruction on resident names runs and changes nothing but its destination, the staleness of the
recipes that name it, and the thread's pc. -/
def Obligations.IntegerFrame : Prop :=
  (∀ (i : Instr) (d a b : BitVec 8) (f : Word → Word → Word), integerPair i = some (d, a, b, f) →
    ∀ (s : State) (x : Thread), Plain i s x → d.toNat < x.win → a.toNat < x.win → b.toNat < x.win →
    ∃ t, exec i s = .next t ∧ RegistersOnly s t [d.toNat] ∧ t.resident x d.toNat = f (s.resident x a.toNat) (s.resident x b.toNat) ∧
      (t.slot s.cur).tstat = (s.slot s.cur).tstat ∧ (t.thread s.cur).map (·.pc) = some (x.pc + 4)) ∧
  (∀ (i : Instr) (d a : BitVec 8) (f : Latch → Word → Word), integerOne i = some (d, a, f) →
    ∀ (s : State) (x : Thread), Plain i s x → d.toNat < x.win → a.toNat < x.win →
    ∃ t, exec i s = .next t ∧ RegistersOnly s t [d.toNat] ∧ t.resident x d.toNat = f x.latch (s.resident x a.toNat) ∧
      (t.slot s.cur).tstat = (s.slot s.cur).tstat ∧ (t.thread s.cur).map (·.pc) = some (x.pc + 4))

/-- 05 R109 to R116: a scalar float instruction of two operands reads A, then B, raises its flags, writes its value to d and goes on at
the next word. The format is the unit's precision, the rounding mode that of the unit. -/
def Sys2Proof.Statements.floatPairCompletes : Prop :=
  ∀ (i : Instr) (d a b : BitVec 8) (f : Latch → Fmt → Nat → Nat → Nat → Nat × Flags), floatPair i = some (d, a, b, f) →
  ∀ (s s1 s2 s3 s4 t : State) (x y : Thread) (A B : Word) (r : Nat × Flags), Issues i s → s.thread s.cur = some x →
    Gives (readName (wordOf i) a) s A s1 → Gives (readName (wordOf i) b) s1 B s2 → s2.thread s2.cur = some y →
    r = f x.latch (precision x.latch.aux) (roundingOf s2 y.latch) (operand (precision x.latch.aux) A)
      (operand (precision x.latch.aux) B) →
    Gives (raiseFlags r.2) s2 () s3 → Gives (writeName (wordOf i) d (word r.1)) s3 () s4 → Retires s4 t → exec i s = .next t

/-- 05 R109 to R117: the scalar float instructions of one operand, the fused ones, whose third operand is the old value of d, and
FCVT, whose immediate names its two formats. -/
def Sys2Proof.Statements.floatOthersComplete : Prop :=
  (∀ (i : Instr) (d a : BitVec 8) (f : Fmt → Nat → Nat → Nat × Flags), floatOne i = some (d, a, f) →
  ∀ (s s1 s2 s3 t : State) (x y : Thread) (A : Word) (r : Nat × Flags), Issues i s → s.thread s.cur = some x →
    Gives (readName (wordOf i) a) s A s1 → s1.thread s1.cur = some y →
    r = f (precision x.latch.aux) (roundingOf s1 y.latch) (operand (precision x.latch.aux) A) →
    Gives (raiseFlags r.2) s1 () s2 → Gives (writeName (wordOf i) d (word r.1)) s2 () s3 → Retires s3 t → exec i s = .next t) ∧
  (∀ (i : Instr) (d a b : BitVec 8) (neg : Bool), fused i = some (d, a, b, neg) →
  ∀ (s s1 s2 s3 s4 s5 t : State) (x y : Thread) (A B C : Word) (r : Nat × Flags), Issues i s → s.thread s.cur = some x →
    Gives (readName (wordOf i) a) s A s1 → Gives (readName (wordOf i) b) s1 B s2 → Gives (readName (wordOf i) d) s2 C s3 →
    s3.thread s3.cur = some y →
    r = (precision x.latch.aux).fma (roundingOf s3 y.latch) (operand (precision x.latch.aux) A)
      (operand (precision x.latch.aux) B) (operand (precision x.latch.aux) C) neg →
    Gives (raiseFlags r.2) s3 () s4 → Gives (writeName (wordOf i) d (word r.1)) s4 () s5 → Retires s5 t → exec i s = .next t) ∧
  (∀ (d a k : BitVec 8) (s s1 s2 s3 t : State) (y : Thread) (A : Word) (r : Word × Flags), Issues (.fcvt d a k) s →
    Gives (readName (wordOf (.fcvt d a k)) a) s A s1 → s1.thread s1.cur = some y →
    r = fcvt (roundingOf s1 y.latch) (k.toNat / 16) (k.toNat % 16) A →
    Gives (raiseFlags r.2) s1 () s2 → Gives (writeName (wordOf (.fcvt d a k)) d r.1) s2 () s3 → Retires s3 t →
    exec (.fcvt d a k) s = .next t)

/-- 05 R109 to R117: every scalar float instruction completes with the value and the flags of its operation in the unit's format and
rounding mode. -/
def Obligations.FloatsComplete : Prop :=
  floatPairCompletes ∧ floatOthersComplete

/-- The value of a finite float operand. -/
def Sys2Proof.Statements.valueOf : Fp → ℚ
  | .fin neg m e => (if neg then -1 else 1) * m * 2 ^ e
  | _ => 0

/-- Whether a value of magnitude |v| between `b - u` and `b`, the next values of a format, rounds to `b` or beyond in a mode; `b` is the one
whose last significand bit is 0 (03 R68). -/
def Sys2Proof.Statements.Reaches (mode : Nat) (v b u : ℝ) : Prop :=
  b ≤ |v| ∨ ((mode = 0 ∨ mode = 4) ∧ b - u / 2 ≤ |v|) ∨ (((mode = 2 ∧ 0 < v) ∨ (mode = 3 ∧ v < 0)) ∧ b - u < |v|)

/-- Whether a finite pattern's value z is the one that a mode rounds v to, seen against another finite value y of the format; `even`: the last
bit of z's significand is 0 (03 R68). -/
def Sys2Proof.Statements.Chosen (mode : Nat) (v z y : ℝ) (even : Prop) : Prop :=
  (mode = 0 ∨ mode = 4 → |z - v| ≤ |y - v| ∧ (|z - v| = |y - v| → y ≠ z → (mode = 0 → even) ∧ (mode = 4 → |y| ≤ |z|))) ∧
  (mode = 1 → |z| ≤ |v| ∧ 0 ≤ z * v ∧ (|y| ≤ |v| → 0 ≤ y * v → |y| ≤ |z|)) ∧
  (mode = 2 → v ≤ z ∧ (v ≤ y → z ≤ y)) ∧
  (mode = 3 → z ≤ v ∧ (y ≤ v → y ≤ z))

/-- 02 R56; 03 R67, R68: a pattern and its flags are the rounding of a real v that is not 0 to a format with infinities: the nearest of the
format's finite values, or the next one in the mode's direction, with the sign of v; an infinity, with of, beyond the largest; nx when the
result is not v; uf when it is inexact and tiny after rounding. -/
structure Sys2Proof.Statements.Rounded (f : Fmt) (mode : Nat) (v : ℝ) (r : Nat × Flags) : Prop where
  number : (f.read r.1).isNan = false
  sign : ∀ n m e, f.read r.1 = .fin n m e ∨ f.read r.1 = .inf n → (n = true ↔ v < 0)
  chosen : ∀ n m e, f.read r.1 = .fin n m e → ∀ b i j k, f.read b = .fin i j k →
    Chosen mode v (valueOf (.fin n m e)) (valueOf (.fin i j k)) (m % 2 = 0)
  infinite : (∃ n, f.read r.1 = .inf n) ↔ Reaches mode v (2 ^ ((f.bias : Int) + 1)) (2 ^ ((f.bias : Int) - f.fbits)) ∧
    (mode = 0 ∨ mode = 4 ∨ (mode = 2 ∧ 0 < v) ∨ (mode = 3 ∧ v < 0))
  inexact : r.2 % 2 = 1 ↔ ∀ n m e, f.read r.1 = .fin n m e → (valueOf (.fin n m e) : ℝ) ≠ v
  underflow : r.2 / 2 % 2 = 1 ↔ r.2 % 2 = 1 ∧ ¬Reaches mode v (2 ^ f.emin) (2 ^ (f.emin - 1 - f.fbits))
  overflow : r.2 / 4 % 2 = 1 ↔ Reaches mode v (2 ^ ((f.bias : Int) + 1)) (2 ^ ((f.bias : Int) - f.fbits))
  others : r.2 < 8

/-- 02 R56; 03 R67, R68; 05 R111: sums, products, fused sums, quotients and square roots of finite values are their exact values, rounded once,
and so is a value that a conversion writes; exact zeros, division by zero and invalid operations give what R111 says. -/
def Sys2Proof.Statements.resultsAreRounded : Prop :=
  ∀ f ∈ [Fmt.fp64, Fmt.fp32, Fmt.fp19, Fmt.bf16, Fmt.fp16, Fmt.e5m2], ∀ mode < 5,
    (∀ n m e, m ≠ 0 → Rounded f mode (valueOf (.fin n m e)) (f.round mode n m e)) ∧
    ∀ (a b c : Nat) (n i k : Bool) (m j l : Nat) (e g h : Int) (x y z : ℝ), f.read a = .fin n m e → f.read b = .fin i j g →
      f.read c = .fin k l h → x = valueOf (.fin n m e) → y = valueOf (.fin i j g) → z = valueOf (.fin k l h) →
      (x + y ≠ 0 → Rounded f mode (x + y) (f.add mode a b)) ∧
      (x + y = 0 → f.add mode a b = (f.signed (if m = 0 ∧ n = i then n else mode = 3) 0, 0)) ∧
      (x - y ≠ 0 → Rounded f mode (x - y) (f.sub mode a b)) ∧
      (x - y = 0 → f.sub mode a b = (f.signed (if m = 0 ∧ n ≠ i then n else mode = 3) 0, 0)) ∧
      (x * y ≠ 0 → Rounded f mode (x * y) (f.mul mode a b)) ∧
      (x * y = 0 → f.mul mode a b = (f.signed (n != i) 0, 0)) ∧
      (x * y + z ≠ 0 → Rounded f mode (x * y + z) (f.fma mode a b c false)) ∧
      (x * y - z ≠ 0 → Rounded f mode (x * y - z) (f.fma mode a b c true)) ∧
      (x ≠ 0 → y ≠ 0 → Rounded f mode (x / y) (f.div mode a b)) ∧
      (x = 0 → y ≠ 0 → f.div mode a b = (f.signed (n != i) 0, 0)) ∧
      (x ≠ 0 → y = 0 → f.div mode a b = (f.signed (n != i) f.infBits, 8)) ∧
      (x = 0 → y = 0 → f.div mode a b = (f.nanBits, 16)) ∧
      (0 < x → Rounded f mode (Real.sqrt x) (f.sqrt mode a)) ∧
      (x = 0 → f.sqrt mode a = (f.signed n 0, 0)) ∧
      (x < 0 → f.sqrt mode a = (f.nanBits, 16))

/-- 02 R56; 03 R67 to R70; 05 R109, R111: a scalar float instruction on resident names runs and changes nothing but its destination, the
sticky flags that it raises in tstat, the staleness of recipes and the pc; the destination holds its value, which for the arithmetic
instructions is the exact one rounded. -/
def Obligations.FloatFrame : Prop :=
  resultsAreRounded ∧
  (∀ (i : Instr) (d a b : BitVec 8) (f : Latch → Fmt → Nat → Nat → Nat → Nat × Flags), floatPair i = some (d, a, b, f) →
    ∀ (s : State) (x : Thread) (r : Nat × Flags), Plain i s x → d.toNat < x.win → a.toNat < x.win → b.toNat < x.win →
    r = f x.latch (precision x.latch.aux) (roundingOf s x.latch) (operand (precision x.latch.aux) (s.resident x a.toNat))
      (operand (precision x.latch.aux) (s.resident x b.toNat)) →
    ∃ t, exec i s = .next t ∧ RegistersOnly s t [d.toNat] ∧ t.resident x d.toNat = word r.1 ∧
      (t.slot s.cur).tstat = (if r.2 = 0 then (s.slot s.cur).tstat else orFlags (s.slot s.cur).tstat r.2) ∧
      (t.thread s.cur).map (·.pc) = some (x.pc + 4)) ∧
  (∀ (i : Instr) (d a : BitVec 8) (f : Fmt → Nat → Nat → Nat × Flags), floatOne i = some (d, a, f) →
    ∀ (s : State) (x : Thread) (r : Nat × Flags), Plain i s x → d.toNat < x.win → a.toNat < x.win →
    r = f (precision x.latch.aux) (roundingOf s x.latch) (operand (precision x.latch.aux) (s.resident x a.toNat)) →
    ∃ t, exec i s = .next t ∧ RegistersOnly s t [d.toNat] ∧ t.resident x d.toNat = word r.1 ∧
      (t.slot s.cur).tstat = (if r.2 = 0 then (s.slot s.cur).tstat else orFlags (s.slot s.cur).tstat r.2) ∧
      (t.thread s.cur).map (·.pc) = some (x.pc + 4)) ∧
  (∀ (i : Instr) (d a b : BitVec 8) (neg : Bool), fused i = some (d, a, b, neg) →
    ∀ (s : State) (x : Thread) (r : Nat × Flags), Plain i s x → d.toNat < x.win → a.toNat < x.win → b.toNat < x.win →
    r = (precision x.latch.aux).fma (roundingOf s x.latch) (operand (precision x.latch.aux) (s.resident x a.toNat))
      (operand (precision x.latch.aux) (s.resident x b.toNat)) (operand (precision x.latch.aux) (s.resident x d.toNat)) neg →
    ∃ t, exec i s = .next t ∧ RegistersOnly s t [d.toNat] ∧ t.resident x d.toNat = word r.1 ∧
      (t.slot s.cur).tstat = (if r.2 = 0 then (s.slot s.cur).tstat else orFlags (s.slot s.cur).tstat r.2) ∧
      (t.thread s.cur).map (·.pc) = some (x.pc + 4)) ∧
  (∀ (d a k : BitVec 8) (s : State) (x : Thread) (r : Word × Flags), Plain (.fcvt d a k) s x → d.toNat < x.win → a.toNat < x.win →
    r = fcvt (roundingOf s x.latch) (k.toNat / 16) (k.toNat % 16) (s.resident x a.toNat) →
    ∃ t, exec (.fcvt d a k) s = .next t ∧ RegistersOnly s t [d.toNat] ∧ t.resident x d.toNat = r.1 ∧
      (t.slot s.cur).tstat = (if r.2 = 0 then (s.slot s.cur).tstat else orFlags (s.slot s.cur).tstat r.2) ∧
      (t.thread s.cur).map (·.pc) = some (x.pc + 4))

/-- 05 R118 to R121: a lane operation reads its groups, raises the union of its lanes' flags, and writes its lanes to d. -/
def Sys2Proof.Statements.vectorLanesComplete : Prop :=
  (∀ (i : Instr) (d a b : BitVec 8) (f : Nat → Nat → Nat → Nat → Nat → Nat × Flags), laneThree i = some (d, a, b, f) →
  ∀ (s s1 s2 s3 s4 s5 t : State) (x y : Thread) (A B C : List Word) (r : List (Nat × Flags)), Issues i s →
    s.thread s.cur = some x → Gives (readGroup (wordOf i) a) s A s1 → Gives (readGroup (wordOf i) b) s1 B s2 →
    Gives (readGroup (wordOf i) d) s2 C s3 → s3.thread s3.cur = some y →
    r = ((lanesOf (x.latch.aux % 8) A).zip ((lanesOf (x.latch.aux % 8) B).zip (lanesOf (x.latch.aux % 8) C))).map
      (fun p => f (x.latch.aux % 8) (roundingOf s3 y.latch) p.1 p.2.1 p.2.2) →
    Gives (raiseFlags (r.foldl (fun g p => g ||| p.2) 0)) s3 () s4 →
    Gives (writeGroup (wordOf i) d (ofLanes (x.latch.aux % 8) (r.map (·.1)))) s4 () s5 → Retires s5 t → exec i s = .next t) ∧
  (∀ (i : Instr) (d a : BitVec 8) (f : Nat → Nat → Nat → Nat × Flags), laneSingle i = some (d, a, f) →
  ∀ (s s1 s2 s3 t : State) (x y : Thread) (A : List Word) (r : List (Nat × Flags)), Issues i s → s.thread s.cur = some x →
    Gives (readGroup (wordOf i) a) s A s1 → s1.thread s1.cur = some y →
    r = (lanesOf (x.latch.aux % 8) A).map (f (x.latch.aux % 8) (roundingOf s1 y.latch)) →
    Gives (raiseFlags (r.foldl (fun g p => g ||| p.2) 0)) s1 () s2 →
    Gives (writeGroup (wordOf i) d (ofLanes (x.latch.aux % 8) (r.map (·.1)))) s2 () s3 → Retires s3 t → exec i s = .next t) ∧
  (∀ (i : Instr) (d a b : BitVec 8) (f : Word → Word → Word), groupBits i = some (d, a, b, f) →
  ∀ (s s1 s2 s3 t : State) (A B : List Word), Issues i s → Gives (readGroup (wordOf i) a) s A s1 →
    Gives (readGroup (wordOf i) b) s1 B s2 → Gives (writeGroup (wordOf i) d (List.zipWith f A B)) s2 () s3 → Retires s3 t →
    exec i s = .next t)

/-- 05 R122 to R125, R127 to R129: the vector instructions with a scalar operand or result, VSHF and VCVT. -/
def Sys2Proof.Statements.vectorOthersComplete : Prop :=
  (∀ (d a b : BitVec 8) (s s1 s2 s3 s4 t : State) (x : Thread) (A B : List Word) (r : List (Bool × Flags)), Issues (.vcmp d a b) s →
    s.thread s.cur = some x → Gives (readGroup (wordOf (.vcmp d a b)) a) s A s1 → Gives (readGroup (wordOf (.vcmp d a b)) b) s1 B s2 →
    r = ((lanesOf (x.latch.aux % 8) A).zip (lanesOf (x.latch.aux % 8) B)).map
      (fun p => laneRelation (x.latch.aux % 8) (x.latch.aux / 8) p.1 p.2) →
    Gives (raiseFlags (r.foldl (fun g p => g ||| p.2) 0)) s2 () s3 →
    Gives (writeName (wordOf (.vcmp d a b)) d (word (maskBits (r.map (·.1))))) s3 () s4 → Retires s4 t →
    exec (.vcmp d a b) s = .next t) ∧
  (∀ (d a b : BitVec 8) (s s1 s2 s3 s4 t : State) (x : Thread) (A C : List Word) (B : Word), Issues (.vsel d a b) s →
    s.thread s.cur = some x → Gives (readGroup (wordOf (.vsel d a b)) a) s A s1 → Gives (readName (wordOf (.vsel d a b)) b) s1 B s2 →
    Gives (readGroup (wordOf (.vsel d a b)) d) s2 C s3 →
    Gives (writeGroup (wordOf (.vsel d a b)) d (selectLanes (x.latch.aux % 8) B A C)) s3 () s4 → Retires s4 t →
    exec (.vsel d a b) s = .next t) ∧
  (∀ (d a : BitVec 8) (s s1 s2 t : State) (x : Thread) (A : Word), Issues (.vbcast d a) s → s.thread s.cur = some x →
    Gives (readName (wordOf (.vbcast d a)) a) s A s1 →
    Gives (writeGroup (wordOf (.vbcast d a)) d (ofLanes (x.latch.aux % 8) (List.replicate (laneCount (x.latch.aux % 8))
      (A.toNat % 2 ^ laneWidth (x.latch.aux % 8))))) s1 () s2 → Retires s2 t → exec (.vbcast d a) s = .next t) ∧
  (∀ (d a b : BitVec 8) (s s1 s2 s3 t : State) (x : Thread) (A B : Word), Issues (.vhash d a b) s → s.thread s.cur = some x →
    Gives (readName (wordOf (.vhash d a b)) a) s A s1 → Gives (readName (wordOf (.vhash d a b)) b) s1 B s2 →
    Gives (writeGroup (wordOf (.vhash d a b)) d (ofLanes (x.latch.aux % 8) ((List.range (laneCount (x.latch.aux % 8))).map
      (fun k => if x.latch.aux % 8 = 0 then (cvtu (hash64 A (B + word k))).toNat else (hash64 A (B + word k)).toNat)))) s2 () s3 →
    Retires s3 t → exec (.vhash d a b) s = .next t) ∧
  (∀ (d a b : BitVec 8) (s s1 s2 s3 t : State) (x : Thread) (A B : List Word), Issues (.vshf d a b) s → s.thread s.cur = some x →
    Gives (readGroup (wordOf (.vshf d a b)) a) s A s1 → Gives (readGroup (wordOf (.vshf d a b)) b) s1 B s2 →
    Gives (writeGroup (wordOf (.vshf d a b)) d (ofLanes (x.latch.aux % 8) ((lanesOf (x.latch.aux % 8) B).map
      (fun j => (lanesOf (x.latch.aux % 8) A).getD j (fillValue (x.latch.aux % 8) x.latch.fill))))) s2 () s3 →
    Retires s3 t → exec (.vshf d a b) s = .next t) ∧
  (∀ (d a k : BitVec 8) (s s1 s2 s3 t : State) (x : Thread) (A : List Word) (ns nd : Nat) (r : List (Nat × Flags)),
    Issues (.vcvt d a k) s → s.thread s.cur = some x → a.toNat + 7 < x.win → d.toNat + 7 < x.win →
    ns = 8 / max 1 (laneCount (k.toNat % 16) / laneCount (k.toNat / 16)) →
    nd = 8 / max 1 (laneCount (k.toNat / 16) / laneCount (k.toNat % 16)) →
    Gives (readResidents (a.toNat + if ns = 8 then 0 else ns * x.latch.aux) ns) s A s1 →
    r = (lanesOf (k.toNat % 16) A).map (convertLane (roundingOf s x.latch) (k.toNat / 16) (k.toNat % 16)) →
    Gives (raiseFlags (r.foldl (fun g p => g ||| p.2) 0)) s1 () s2 →
    Gives (writeResidents (d.toNat + if nd = 8 then 0 else nd * x.latch.aux)
      (ofLanesFrom (laneWidth (k.toNat / 16)) nd (r.map (·.1)))) s2 () s3 → Retires s3 t → exec (.vcvt d a k) s = .next t)

/-- 05 R125, R126: VSUM and VMAXR reduce their lanes, float ones by a tree in FP32 and integer ones exactly; VARGMAX steps its three
names through the lanes and sets er where no element was taken. -/
def Sys2Proof.Statements.vectorReductionsComplete : Prop :=
  (∀ (d a : BitVec 8) (s s1 s2 s3 t : State) (x : Thread) (A : List Word) (r : Nat × Flags), Issues (.vsum d a) s →
    s.thread s.cur = some x → x.latch.aux % 8 < 3 → Gives (readGroup (wordOf (.vsum d a)) a) s A s1 →
    r = floatTree (x.latch.aux % 8) (Fmt.fp32.add (roundingOf s x.latch)) (lanesOf (x.latch.aux % 8) A) →
    Gives (raiseFlags r.2) s1 () s2 → Gives (writeName (wordOf (.vsum d a)) d (word r.1)) s2 () s3 → Retires s3 t →
    exec (.vsum d a) s = .next t) ∧
  (∀ (d a : BitVec 8) (s s1 s2 t : State) (x : Thread) (A : List Word), Issues (.vsum d a) s → s.thread s.cur = some x →
    3 ≤ x.latch.aux % 8 → Gives (readGroup (wordOf (.vsum d a)) a) s A s1 →
    Gives (writeName (wordOf (.vsum d a)) d (BitVec.ofInt 64 (((lanesOf (x.latch.aux % 8) A).map (laneInt (x.latch.aux % 8))).sum)))
      s1 () s2 → Retires s2 t → exec (.vsum d a) s = .next t) ∧
  (∀ (d a : BitVec 8) (s s1 s2 s3 t : State) (x : Thread) (A : List Word) (r : Nat × Flags), Issues (.vmaxr d a) s →
    s.thread s.cur = some x → x.latch.aux % 8 < 3 → Gives (readGroup (wordOf (.vmaxr d a)) a) s A s1 →
    r = floatTree (x.latch.aux % 8) (Fmt.fp32.minmax true) (lanesOf (x.latch.aux % 8) A) →
    Gives (raiseFlags r.2) s1 () s2 → Gives (writeName (wordOf (.vmaxr d a)) d (word r.1)) s2 () s3 → Retires s3 t →
    exec (.vmaxr d a) s = .next t) ∧
  (∀ (d a : BitVec 8) (s s1 s2 t : State) (x : Thread) (A : List Word) (n : Int), Issues (.vmaxr d a) s → s.thread s.cur = some x →
    3 ≤ x.latch.aux % 8 → Gives (readGroup (wordOf (.vmaxr d a)) a) s A s1 →
    n ∈ (lanesOf (x.latch.aux % 8) A).map (laneInt (x.latch.aux % 8)) →
    (∀ k ∈ (lanesOf (x.latch.aux % 8) A).map (laneInt (x.latch.aux % 8)), k ≤ n) →
    Gives (writeName (wordOf (.vmaxr d a)) d (BitVec.ofInt 64 n)) s1 () s2 → Retires s2 t → exec (.vmaxr d a) s = .next t) ∧
  (∀ (d a b : BitVec 8) (s s1 s2 s3 s4 s5 s6 t : State) (x : Thread) (A : List Word) (B V I C : Word) (r : ArgMax),
    Issues (.vargmax d a b) s → s.thread s.cur = some x → d.toNat + 2 < x.win →
    Gives (readGroup (wordOf (.vargmax d a b)) a) s A s1 → Gives (readName (wordOf (.vargmax d a b)) b) s1 B s2 →
    Gives (readResident d.toNat) s2 V s3 → Gives (readResident (d.toNat + 1)) s3 I s4 → Gives (readResident (d.toNat + 2)) s4 C s5 →
    r = argLanes B (bits C 31 0) 0 (lanesOf 0 A) { val := bits V 31 0, idx := bits I 31 0, cnt := bits C 63 32 } →
    Gives (writeResidents d.toNat [word r.val, word r.idx, word (r.cnt * 2 ^ 32 + (bits C 31 0 + 16) % 2 ^ 32)]) s5 () s6 →
    Retires (s6.setSlot s6.cur { s6.slot s6.cur with tstat := setEr (s6.slot s6.cur).tstat (r.idx = 0xFFFFFFFF) }) t →
    exec (.vargmax d a b) s = .next t)

/-- 05 R118 to R129: every vector instruction on registers completes with its lanes, mask, group or reduction. -/
def Obligations.VectorsComplete : Prop :=
  vectorLanesComplete ∧ vectorOthersComplete ∧ vectorReductionsComplete

/-- What a vector instruction of 05 R121 to R125, R127 to R129 writes on resident names: the names that it needs, those that it writes, their
words, and the flags that it raises. -/
structure Sys2Proof.Statements.Written where
  needs : List Nat
  names : List Nat
  words : List Word
  flags : Flags

/-- The flags of some lanes. -/
def Sys2Proof.Statements.flagsOf {α : Type} (r : List (α × Flags)) : Flags := r.foldl (fun g p => g ||| p.2) 0

/-- What the vector instructions but the lane operations on three groups, the bitwise ones and VARGMAX write, from the unit's lane code,
its rounding mode and the words of its groups (05 R121 to R125, R127 to R129). -/
def Sys2Proof.Statements.vectorWrites (s : State) (x : Thread) : Instr → Option Written
  | .vcmp d a b =>
    let r := ((lanesOf (x.latch.aux % 8) (groupOf s x a)).zip (lanesOf (x.latch.aux % 8) (groupOf s x b))).map
      (fun p => laneRelation (x.latch.aux % 8) (x.latch.aux / 8) p.1 p.2)
    some ⟨d.toNat :: groupNames a ++ groupNames b, [d.toNat], [word (maskBits (r.map (·.1)))], flagsOf r⟩
  | .vsel d a b => some ⟨b.toNat :: groupNames a ++ groupNames d, groupNames d,
      selectLanes (x.latch.aux % 8) (s.resident x b.toNat) (groupOf s x a) (groupOf s x d), 0⟩
  | .vbcast d a => some ⟨a.toNat :: groupNames d, groupNames d, ofLanes (x.latch.aux % 8) (List.replicate (laneCount (x.latch.aux % 8))
      ((s.resident x a.toNat).toNat % 2 ^ laneWidth (x.latch.aux % 8))), 0⟩
  | .vhash d a b => some ⟨a.toNat :: b.toNat :: groupNames d, groupNames d, ofLanes (x.latch.aux % 8)
      ((List.range (laneCount (x.latch.aux % 8))).map (fun k => if x.latch.aux % 8 = 0
        then (cvtu (hash64 (s.resident x a.toNat) (s.resident x b.toNat + word k))).toNat
        else (hash64 (s.resident x a.toNat) (s.resident x b.toNat + word k)).toNat)), 0⟩
  | .vshf d a b => some ⟨groupNames a ++ groupNames b ++ groupNames d, groupNames d, ofLanes (x.latch.aux % 8)
      ((lanesOf (x.latch.aux % 8) (groupOf s x b)).map
        (fun j => (lanesOf (x.latch.aux % 8) (groupOf s x a)).getD j (fillValue (x.latch.aux % 8) x.latch.fill))), 0⟩
  | .vcvt d a k =>
    let ns := 8 / max 1 (laneCount (k.toNat % 16) / laneCount (k.toNat / 16))
    let nd := 8 / max 1 (laneCount (k.toNat / 16) / laneCount (k.toNat % 16))
    let words := (List.range ns).map (fun j => s.resident x (a.toNat + (if ns = 8 then 0 else ns * x.latch.aux) + j))
    let r := (lanesOf (k.toNat % 16) words).map (convertLane (roundingOf s x.latch) (k.toNat / 16) (k.toNat % 16))
    some ⟨groupNames a ++ groupNames d, (List.range nd).map (fun j => d.toNat + (if nd = 8 then 0 else nd * x.latch.aux) + j),
      ofLanesFrom (laneWidth (k.toNat / 16)) nd (r.map (·.1)), flagsOf r⟩
  | .vsum d a =>
    let ls := lanesOf (x.latch.aux % 8) (groupOf s x a)
    let r := floatTree (x.latch.aux % 8) (Fmt.fp32.add (roundingOf s x.latch)) ls
    some (if x.latch.aux % 8 < 3 then ⟨d.toNat :: groupNames a, [d.toNat], [word r.1], r.2⟩
      else ⟨d.toNat :: groupNames a, [d.toNat], [BitVec.ofInt 64 ((ls.map (laneInt (x.latch.aux % 8))).sum)], 0⟩)
  | .vmaxr d a =>
    let ls := lanesOf (x.latch.aux % 8) (groupOf s x a)
    let r := floatTree (x.latch.aux % 8) (Fmt.fp32.minmax true) ls
    some (if x.latch.aux % 8 < 3 then ⟨d.toNat :: groupNames a, [d.toNat], [word r.1], r.2⟩
      else ⟨d.toNat :: groupNames a, [d.toNat], [BitVec.ofInt 64 (((ls.map (laneInt (x.latch.aux % 8))).max?).getD 0)], 0⟩)
  | i => (laneSingle i).map (fun (d, a, f) =>
    let r := (lanesOf (x.latch.aux % 8) (groupOf s x a)).map (f (x.latch.aux % 8) (roundingOf s x.latch))
    ⟨groupNames a ++ groupNames d, groupNames d, ofLanes (x.latch.aux % 8) (r.map (·.1)), flagsOf r⟩)

/-- 02 R28; 05 R119 to R129: a vector instruction on groups and names inside the window runs and changes nothing but the names that it
writes, the flags that it raises (of VARGMAX, er), the staleness of recipes and the pc; the names hold its words. -/
def Obligations.VectorFrame : Prop :=
  (∀ (i : Instr) (s : State) (x : Thread) (o : Written), Plain i s x → vectorWrites s x i = some o → (∀ n ∈ o.needs, n < x.win) →
    ∃ t, exec i s = .next t ∧ RegistersOnly s t o.names ∧ o.names.map (t.resident x) = o.words ∧
      (t.slot s.cur).tstat = (if o.flags = 0 then (s.slot s.cur).tstat else orFlags (s.slot s.cur).tstat o.flags) ∧
      (t.thread s.cur).map (·.pc) = some (x.pc + 4)) ∧
  (∀ (d a b : BitVec 8) (s : State) (x : Thread) (C : Word) (r : ArgMax), Plain (.vargmax d a b) s x → d.toNat + 2 < x.win →
    a.toNat + 7 < x.win → b.toNat < x.win → C = s.resident x (d.toNat + 2) →
    r = argLanes (s.resident x b.toNat) (bits C 31 0) 0 (lanesOf 0 (groupOf s x a)) {
      val := bits (s.resident x d.toNat) 31 0
      idx := bits (s.resident x (d.toNat + 1)) 31 0
      cnt := bits C 63 32 } →
    ∃ t, exec (.vargmax d a b) s = .next t ∧ RegistersOnly s t [d.toNat, d.toNat + 1, d.toNat + 2] ∧
      t.resident x d.toNat = word r.val ∧ t.resident x (d.toNat + 1) = word r.idx ∧
      t.resident x (d.toNat + 2) = word (r.cnt * 2 ^ 32 + (bits C 31 0 + 16) % 2 ^ 32) ∧
      (t.slot s.cur).tstat = setEr (s.slot s.cur).tstat (r.idx = 0xFFFFFFFF) ∧ (t.thread s.cur).map (·.pc) = some (x.pc + 4)) ∧
  (∀ (i : Instr) (d a b : BitVec 8) (f : Nat → Nat → Nat → Nat → Nat → Nat × Flags), laneThree i = some (d, a, b, f) →
    ∀ (s : State) (x : Thread) (r : List (Nat × Flags)), Plain i s x → d.toNat + 7 < x.win → a.toNat + 7 < x.win →
    b.toNat + 7 < x.win →
    r = ((lanesOf (x.latch.aux % 8) (groupOf s x a)).zip ((lanesOf (x.latch.aux % 8) (groupOf s x b)).zip
      (lanesOf (x.latch.aux % 8) (groupOf s x d)))).map (fun p => f (x.latch.aux % 8) (roundingOf s x.latch) p.1 p.2.1 p.2.2) →
    ∃ t, exec i s = .next t ∧ RegistersOnly s t (groupNames d) ∧ groupOf t x d = ofLanes (x.latch.aux % 8) (r.map (·.1)) ∧
      (t.slot s.cur).tstat = (if r.foldl (fun g p => g ||| p.2) 0 = 0 then (s.slot s.cur).tstat
        else orFlags (s.slot s.cur).tstat (r.foldl (fun g p => g ||| p.2) 0)) ∧
      (t.thread s.cur).map (·.pc) = some (x.pc + 4)) ∧
  (∀ (i : Instr) (d a b : BitVec 8) (f : Word → Word → Word), groupBits i = some (d, a, b, f) →
    ∀ (s : State) (x : Thread), Plain i s x → d.toNat + 7 < x.win → a.toNat + 7 < x.win → b.toNat + 7 < x.win →
    ∃ t, exec i s = .next t ∧ RegistersOnly s t (groupNames d) ∧
      groupOf t x d = List.zipWith f (groupOf s x a) (groupOf s x b) ∧ (t.slot s.cur).tstat = (s.slot s.cur).tstat ∧
      (t.thread s.cur).map (·.pc) = some (x.pc + 4))

/-- 10 R230, R233 to R235: a scalar load of an address in the space, aligned, goes on with its value: from a page, where it goes to a
name; into the load-data queue; from a bank. -/
def Sys2Proof.Statements.loadsComplete : Prop :=
  ∀ (i : Instr) (d a m : BitVec 8) (size : Nat) (signed ro : Bool), loadOf i = some (d, a, m, size, signed, ro) →
  ∀ (s s1 : State) (x y : Thread) (A ea : Word), Issues i s → s.thread s.cur = some x → Gives (readOnce 0 (wordOf i) a) s A s1 →
    s1.thread s1.cur = some y → ea = addressOf y A size m x.latch → Addressed ea size →
    (∀ (s2 s3 s4 t : State) (p : Page) (v : Word), inAperture ea = false → Gives (translate ea 0) s1 p s2 →
      (ro = true → p.attr ≠ .priv) → d ≠ 253#8 →
      Gives (enterWord 1 ea (do
        let data ← loadLine x ea p (maskOf (p.pa % 32) size) x.latch.ch true
        return extendBytes size signed (fromByte data (p.pa % 32)))) s2 v s3 →
      Gives (deliver (wordOf i) d ea v) s3 () s4 → Retires s4 t → exec i s = .next t) ∧
    (∀ (s2 s3 t : State) (p : Page), inAperture ea = false → Gives (translate ea 0) s1 p s2 → (ro = true → p.attr ≠ .priv) →
      d = 253#8 → Gives (appendLoad x (wordOf i) ea p size signed x.latch.ch) s2 () s3 → Retires s3 t →
      exec i s = .next t) ∧
    (∀ (s2 s3 t : State) (v : Word) (vs : List Word), inAperture ea = true → ro = false →
      Gives (bankLoadOp x ea (.load size signed) { operands := [A], d := d }) s1 (v, vs) s2 → Gives (deliver (wordOf i) d ea v) s2 () s3 →
      Retires s3 t → exec i s = .next t)

/-- 10 R230, R233: a scalar store of an address in the space, aligned, goes on: the low bytes of its data go to the store buffer, or to
a bank. -/
def Sys2Proof.Statements.storesComplete : Prop :=
  ∀ (i : Instr) (d a m : BitVec 8) (size : Nat), storeOf i = some (d, a, m, size) →
  ∀ (s s1 s2 : State) (x y : Thread) (A D ea : Word), Issues i s → s.thread s.cur = some x → Gives (readOnce 0 (wordOf i) a) s A s1 →
    Gives (readDataOnce 1 (wordOf i) d) s1 D s2 → s2.thread s2.cur = some y → ea = addressOf y A size m x.latch → Addressed ea size →
    (∀ (s3 s4 t : State) (p : Page), inAperture ea = false → Gives (storePage ea size) s2 p s3 →
      Gives (storeEffect x ea p size [extendBytes size false D] 1 (placeStore p (p.pa / 32) (maskOf (p.pa % 32) size)
        (atByte (extendBytes size false D) (p.pa % 32)) x.latch.ch) (some [A, D])) s3 () s4 → Retires s4 t → exec i s = .next t) ∧
    (∀ (s3 t : State) (r : Word × List Word), inAperture ea = true →
      Gives (bankEffect x ea (.store size) 21 (extendBytes size false D) [word size] { operands := [A, D] }) s2 r s3 → Retires s3 t → exec i s = .next t)

/-- 10 R230, R233 to R235: the scalar loads, LDRO and the scalar stores complete from and to pages, banks and the load-data queue. -/
def Obligations.LoadsAndStoresComplete : Prop :=
  loadsComplete ∧ storesComplete

/-- 10 R235 to R238: LDEX, LDE and STF go on with what they read and write. -/
def Sys2Proof.Statements.exclusiveAndFullBitAccessesComplete : Prop :=
  (∀ (d a m : BitVec 8) (s s1 s2 s3 s4 t : State) (x y : Thread) (A ea v : Word) (bad : Bool) (p : Page), Issues (.ldex d a m) s →
    s.thread s.cur = some x → Gives (readName (wordOf (.ldex d a m)) a) s A s1 → s1.thread s1.cur = some y →
    ea = addressOf y A 8 m x.latch → Addressed ea 8 → inAperture ea = false → Gives (storePage ea 8) s1 p s2 →
    ((p.attr = .priv ∧ d = 253#8 ∧ Gives (appendLoad x (wordOf (.ldex d a m)) ea p 8 false x.latch.ch) s2 () s4) ∨
     (p.attr = .priv ∧ d ≠ 253#8 ∧ Gives (enterWord 1 ea (do
        return fromByte (← loadLine x ea p (maskOf (p.pa % 32) 8) x.latch.ch true) (p.pa % 32))) s2 v s3 ∧
        Gives (writeName (wordOf (.ldex d a m)) d v) s3 () s4) ∨
     (p.attr ≠ .priv ∧ d = 253#8 ∧ ((x.role = .trailing ∧ v = 0 ∧ bad = false ∧ s3 = s2) ∨
        (x.role ≠ .trailing ∧ Gives (loadExclusive x ea p x.latch.ch) s2 (v, bad) s3)) ∧
        Gives (deliver (wordOf (.ldex d a m)) d ea v bad) s3 () s4) ∨
     (p.attr ≠ .priv ∧ d ≠ 253#8 ∧ Gives (enterWord 1 ea (do
        let (v, bad) ← loadExclusive x ea p x.latch.ch
        if bad then abort (.consumed ea (p.pa / 32)) else return v)) s2 v s3 ∧
        Gives (writeName (wordOf (.ldex d a m)) d v) s3 () s4)) →
    Retires s4 t → exec (.ldex d a m) s = .next t) ∧
  (∀ (d a m : BitVec 8) (s s1 s2 s3 t : State) (x y : Thread) (A ea v : Word) (vs : List Word), Issues (.lde d a m) s →
    s.thread s.cur = some x → Gives (readOnce 0 (wordOf (.lde d a m)) a) s A s1 → s1.thread s1.cur = some y →
    ea = addressOf y A 8 m x.latch → Addressed ea 8 → inAperture ea = true →
    Gives (if x.latch.aux = 1 then bankEffect x ea (.lde true) 22 0 [] { operands := [A], d := d }
      else bankLoadOp x ea (.lde false) { operands := [A], d := d }) s1 (v, vs) s2 →
    Gives (deliver (wordOf (.lde d a m)) d ea v) s2 () s3 → Retires s3 t → exec (.lde d a m) s = .next t) ∧
  (∀ (d a m : BitVec 8) (s s1 s2 s3 t : State) (x y : Thread) (A D ea : Word) (r : Word × List Word), Issues (.stf d a m) s →
    s.thread s.cur = some x → Gives (readOnce 0 (wordOf (.stf d a m)) a) s A s1 →
    Gives (readDataOnce 1 (wordOf (.stf d a m)) d) s1 D s2 →
    s2.thread s2.cur = some y → ea = addressOf y A 8 m x.latch → Addressed ea 8 → inAperture ea = true →
    Gives (bankEffect x ea .stf 23 D [] { operands := [A, D] }) s2 r s3 → Retires s3 t → exec (.stf d a m) s = .next t)

/-- 05 R130 to R132: VLD, VST and VLDN of an aligned block go on with the whole block, or with the first lanes and a fill. -/
def Sys2Proof.Statements.vectorMemoryCompletes : Prop :=
  (∀ (d a m : BitVec 8) (s s0 s1 s2 s3 t : State) (x y : Thread) (A ea : Word) (vs : List Word), Issues (.vld d a m) s →
    s.thread s.cur = some x → Gives (checkGroup (wordOf (.vld d a m)) d) s () s0 →
    Gives (readOnce 0 (wordOf (.vld d a m)) a) s0 A s1 → s1.thread s1.cur = some y → ea = addressOf y A 64 m x.latch → Addressed ea 64 →
    ((inAperture ea = false ∧ Gives (loadBlock x ea 64 x.latch.ch) s1 vs s2) ∨
     (inAperture ea = true ∧ ∃ v, Gives (bankLoadOp x ea (.vload 8) { operands := [A] }) s1 (v, vs) s2)) →
    Gives (writeGroup (wordOf (.vld d a m)) d vs) s2 () s3 → Retires s3 t → exec (.vld d a m) s = .next t) ∧
  (∀ (d a m : BitVec 8) (s s0 s1 s2 s3 t : State) (x y : Thread) (A ea : Word) (vs : List Word), Issues (.vst d a m) s →
    s.thread s.cur = some x → Gives (checkGroup (wordOf (.vst d a m)) d) s () s0 →
    Gives (readOnce 0 (wordOf (.vst d a m)) a) s0 A s1 → Gives (readGroupOnce 1 (wordOf (.vst d a m)) d) s1 vs s2 →
    s2.thread s2.cur = some y → ea = addressOf y A 64 m x.latch → Addressed ea 64 →
    ((inAperture ea = false ∧ ∃ p s', Gives (storePage ea 64) s2 p s' ∧ Gives (storeEffect x ea p 64 vs 2 (do
        placeStore p (p.pa / 32) fullMask (lineOfWords vs) x.latch.ch
        placeStore p (p.pa / 32 + 1) fullMask (lineOfWords (vs.drop 4)) x.latch.ch) (some (A :: vs))) s' () s3) ∨
     (inAperture ea = true ∧ ∃ r, Gives (bankEffect x ea (.vstore vs) 27 0 vs { operands := A :: vs }) s2 r s3)) →
    Retires s3 t → exec (.vst d a m) s = .next t) ∧
  (∀ (d a b : BitVec 8) (s s0 s1 s2 s3 s4 t : State) (x y : Thread) (A B ea : Word) (vs : List Word) (c n code : Nat),
    Issues (.vldn d a b) s → s.thread s.cur = some x → Gives (checkGroup (wordOf (.vldn d a b)) d) s () s0 →
    Gives (readOnce 0 (wordOf (.vldn d a b)) a) s0 A s1 → Gives (readOnce 1 (wordOf (.vldn d a b)) b) s1 B s2 →
    s2.thread s2.cur = some y → ea = y.resume.ea.getD A → code = x.latch.aux % 8 → c = min B.toNat (laneCount code) →
    n = (c * laneWidth code + 7) / 8 → ea.toNat % 64 = 0 →
    ((c = 0 ∧ vs = [] ∧ s3 = s2) ∨
     (c ≠ 0 ∧ outside ea = false ∧ inAperture ea = false ∧ Gives (loadBlock x ea n x.latch.ch) s2 vs s3) ∨
     (c ≠ 0 ∧ outside ea = false ∧ inAperture ea = true ∧
        ∃ v, Gives (bankLoadOp x ea (.vload ((n + 7) / 8)) { operands := [A, B] }) s2 (v, vs) s3)) →
    Gives (writeGroup (wordOf (.vldn d a b)) d (ofLanes code ((lanesOf code vs).take c ++
      List.replicate (laneCount code - ((lanesOf code vs).take c).length) (fillValue code x.latch.fill)))) s3 () s4 →
    Retires s4 t → exec (.vldn d a b) s = .next t)

/-- 05 R130 to R132; 10 R236 to R238: LDEX, LDE, STF, VLD, VST and VLDN complete with what they read and write. -/
def Obligations.WideAndMarkedAccessesComplete : Prop :=
  exclusiveAndFullBitAccessesComplete ∧ vectorMemoryCompletes

/-- 10 R239, R240: an atomic of an aligned address of a page, whose thread's older stores are done, goes on: the word before goes to
d. What is done to the word is said by AtomicsPerformed, and where by it and FarAtomicCompletes. -/
def Obligations.AtomicsComplete : Prop :=
  ∀ (i : Instr) (d a b : BitVec 8) (k : Latch → Word → AtomicKind), atomicOf i = some (d, a, b, k) →
  ∀ (s s1 s2 s3 s4 s5 s6 s7 t : State) (x y z : Thread) (A B C v : Word) (vs : List Word), Issues i s → s.thread s.cur = some x →
    Gives (readOnce 0 (wordOf i) a) s A s1 → Gives (readOnce 1 (wordOf i) b) s1 B s2 → s2.thread s2.cur = some y →
    Addressed A 8 → inAperture A = false →
    ((y.resume.reply.isSome = true ∧ s3 = s2) ∨ (y.resume.reply = none ∧ ∃ p, Gives (storePage A 8) s2 p s3)) →
    s3.thread s3.cur = some z →
    ((∃ u w, i = .acas d u w ∧ Gives (readResidentOnce 2 d.toNat) s3 C s4) ∨ ((∀ u w, i ≠ .acas d u w) ∧ s4 = s3)) →
    ((y.resume.reply.isSome = true ∧ s5 = s4) ∨ (y.resume.reply = none ∧ Gives waitOlder s4 () s5)) →
    Gives (outward { kind := 24, addr := A, size := 8, data := B :: atomicCode (k z.latch C) } (do
      return (← performAtomic x A (k z.latch C) B { operands := A :: B :: (k z.latch C).compared, d := d }, []))
      (some (A :: B :: (k z.latch C).compared))) s5 (v, vs) s6 →
    Gives (writeName (wordOf i) d v) s6 () s7 → Retires s7 t → exec i s = .next t

/-- 10 R239, R240: what an atomic writes to its word. -/
def Sys2Proof.Statements.atomicWords : Prop :=
  ∀ (old b c : Word), atomicWord .add old b = old + b ∧ atomicWord .swap old b = b ∧
    (old = c → atomicWord (.cas c) old b = b) ∧ (old ≠ c → atomicWord (.cas c) old b = old) ∧
    (atomicWord (.min false) old b).toInt = min old.toInt b.toInt ∧ (atomicWord (.max false) old b).toInt = max old.toInt b.toInt ∧
    (atomicWord (.min true) old b).toNat = min old.toNat b.toNat ∧ (atomicWord (.max true) old b).toNat = max old.toNat b.toNat

/-- 09 R221: an atomic on a line that the core holds exclusively is performed on the copy: the core's pts moves past the copy's rts,
the copy's wts and rts become it, the word is replaced and its old value answered; no other byte of the line changes. -/
def Sys2Proof.Statements.atomicsOnHeldLines : Prop :=
  ∀ (core line off : Nat) (k : AtomicKind) (b ea old : Word) (y : L1Line) (s t : State), off % 8 = 0 → off < 32 →
    Gives (nearAtomic core line off k b ea y) s old t →
    ∃ z, find (t.core core).l1 (l1Key line .coh) = some z ∧ old = fromByte y.data off ∧
      fromByte z.data off = atomicWord k old b ∧ z.wts = t.pts core ∧ z.rts = t.pts core ∧
      (later (s.pts core) (y.rts + 1) = true → t.pts core = y.rts + 1) ∧
      (later (s.pts core) (y.rts + 1) = false → t.pts core = s.pts core) ∧ t.mem = s.mem ∧
      (∀ o, o % 8 = 0 → o < 32 → o ≠ off → fromByte z.data o = fromByte y.data o)

/-- 09 R221; 10 R239, R240: what an atomic writes to its word, and what performing it on a held line does to the line and the core's
time. -/
def Obligations.AtomicsPerformed : Prop :=
  atomicWords ∧ atomicsOnHeldLines

/-- 10 R241: HOLD and UNHOLD of a COH page outside the format regions. -/
def Sys2Proof.Statements.holdsComplete : Prop :=
  (∀ (d a : BitVec 8) (s s1 s2 s3 s4 t : State) (A v : Word) (vs : List Word) (p : Page), Issues (.hold d a) s →
    Gives (readOnce 0 (wordOf (.hold d a)) a) s A s1 → Gives (holdPage A) s1 p s2 →
    ¬(d = 251#8 ∧ (s2.slot s2.cur).compose = []) →
    Gives (outward { kind := 25, addr := A, size := 32, data := [] } (do return (← acquire (p.pa / 32) [A, 1], [])) (some [A])) s2 (v, vs) s3 →
    Gives (writeName (wordOf (.hold d a)) d v) s3 () s4 → Retires s4 t → exec (.hold d a) s = .next t) ∧
  (∀ (d a : BitVec 8) (s s1 s2 s3 s4 t : State) (A v : Word) (vs : List Word) (p : Page), Issues (.unhold d a) s →
    Gives (readOnce 0 (wordOf (.unhold d a)) a) s A s1 → Gives (holdPage A) s1 p s2 →
    Gives (outward { kind := 26, addr := A, size := 32, data := [] } (do return (← release (p.pa / 32), [])) (some [A])) s2 (v, vs) s3 →
    Gives (writeName (wordOf (.unhold d a)) d v) s3 () s4 → Retires s4 t → exec (.unhold d a) s = .next t) ∧
  (∀ (line : Nat) (s : State) (x : Thread) (ops : List Word), s.thread s.cur = some x →
    (line ∈ x.holds → Gives (acquire line ops) s 1 s) ∧
    (line ∉ x.holds → x.resume.reply = none → x.resume.operands ≠ some ops →
      2 ≤ x.holds.length ∨ 16 ≤ (s.core (coreOf s.cur)).heldLines → Gives (acquire line ops) s 0 s) ∧
    (line ∉ x.holds → x.resume.reply = none → x.resume.operands ≠ some ops → x.holds.length < 2 →
      (s.core (coreOf s.cur)).heldLines < 16 → s.olderDone (coreOf s.cur) x = false →
      acquire line ops s = .error (.begun .stores ops (bits (s.slot s.cur).tstat 7 3) s.entered)) ∧
    (line ∉ x.holds → x.resume.reply = none → s.olderDone (coreOf s.cur) x = true →
      (x.resume.operands = some ops ∨ x.holds.length < 2 ∧ (s.core (coreOf s.cur)).heldLines < 16) →
      (s.core (coreOf s.cur)).holdTurn line x.uid = true → x.pc.toNat + 4 < 2 ^ 55 →
      ∃ t y, Gives (acquire line ops) s 1 t ∧ t.thread t.cur = some y ∧ line ∈ y.holds ∧ t.mem = s.mem ∧
        (∀ z, find (s.core (coreOf s.cur)).l1 (l1Key line .coh) = some z →
          find (t.core (coreOf s.cur)).l1 (l1Key line .coh) = some { z with held := some x.uid })) ∧
    (line ∉ x.holds → Gives (release line) s 0 s) ∧
    (line ∈ x.holds → (∀ e ∈ s.pendingStores (coreOf s.cur) x.uid, e.line ≠ line) →
      ∃ t, Gives (release line) s 1 t ∧ t.mem = s.mem ∧
        (∀ y, find (s.core (coreOf s.cur)).l1 (l1Key line .coh) = some y → y.held = some x.uid →
          find (t.core (coreOf s.cur)).l1 (l1Key line .coh) = some { y with held := none })))

/-- 10 R242, R243, R246: FENCE, FENCE.SIB and TICK go on once what they wait for is done. FENCE with a scope of cluster or package
writes the thread's dirty lines back first; TICK moves the core's logical time on. -/
def Sys2Proof.Statements.fencesComplete : Prop :=
  (∀ (s s1 s2 t : State) (x : Thread), Issues .fence s → s.thread s.cur = some x → s.fenceDone (coreOf s.cur) x = true →
    LearnsEarly s x s1 → Gives (if 2 ≤ x.latch.sc then flushThread else pure ()) (withoutEarly s1 x) () s2 → Retires s2 t →
    exec .fence s = .next t) ∧
  (∀ (s s1 t : State) (x : Thread), Issues .fenceSib s → s.thread s.cur = some x → s.earlyDone x = true → LearnsEarly s x s1 →
    Retires (withoutEarly s1 x) t → exec .fenceSib s = .next t) ∧
  (∀ (n : BitVec 16) (s t : State) (c : Clock), Issues (.tick n) s → c = s.clock (.core (coreOf s.cur)) → n ≠ 0 → n.toNat ≤ c.room →
    Retires (s.setClock (.core (coreOf s.cur)) { t := c.t + n.setWidth 24, room := c.room - n.toNat, late := none }) t →
    exec (.tick n) s = .next t)

/-- 10 R241 to R243, R246: HOLD, UNHOLD, FENCE, FENCE.SIB and TICK complete. -/
def Obligations.HoldsAndFencesComplete : Prop :=
  holdsComplete ∧ fencesComplete

/-- 10 R244: FLUSHP, INVP and DISCARD of an empty range answer 0, and a DISCARD whose wait is over the number of bytes; of a range whose pages are there, once the thread's stores and the
write-backs of its lines are done, each does its own to every line of the range and answers the number of bytes. -/
def Sys2Proof.Statements.maintenanceCompletes : Prop :=
  (∀ (i : Instr) (d a b : BitVec 8), (i = .flushp d a b ∨ i = .invp d a b ∨ i = .discard d a b) →
  ∀ (s s1 s2 s3 t : State) (y : Thread) (A B : Word), Issues i s → Gives (readOnce 0 (wordOf i) a) s A s1 →
    Gives (readOnce 1 (wordOf i) b) s1 B s2 → s2.thread s2.cur = some y → B = 0 ∨ y.resume.operands.isSome = true →
    Gives (writeName (wordOf i) d (word (min B.toNat (2 ^ 20)))) s2 () s3 → Retires s3 t → exec i s = .next t) ∧
  (∀ (i : Instr) (d a b : BitVec 8) (kind : Nat) (k : Page → Nat),
    ((i = .flushp d a b ∨ i = .invp d a b) ∧ kind = 0 ∧ k = fun _ => 0) ∨
      (i = .discard d a b ∧ kind = 1 ∧ k = fun p => if p.attr = .rshr then 0 else 1) →
  ∀ (s s1 s2 s3 s4 s5 t : State) (x : Thread) (A B : Word) (parts : List Part) (lines : List (Nat × Attr)), Issues i s →
    Gives (readOnce 0 (wordOf i) a) s A s1 → Gives (readOnce 1 (wordOf i) b) s1 B s2 → B ≠ 0 →
    (s2.thread s2.cur).bind (·.resume.operands) = none →
    Gives (rangeParts kind k 18 A.toNat (min B.toNat (2 ^ 20))) s2 parts s3 → s3.thread s3.cur = some x →
    ¬(d = 251#8 ∧ (s3.slot s3.cur).compose = []) →
    lines = parts.flatMap Part.lines → s3.pendingStores (coreOf s3.cur) x.uid = [] →
    s3.flushing (coreOf s3.cur) (lines.map (·.1)) = false →
    (i = .flushp d a b → Gives (lines.forM (fun l => if l.2 = .priv then flushLine (coreOf s3.cur) l.1 else pure ())) s3 () s4) →
    (i = .invp d a b → Gives (lines.forM (fun l => match l.2 with
      | .priv => do
        flushLine (coreOf s3.cur) l.1
        l1Drop (coreOf s3.cur) l.1 .priv
      | .rshr => do
        l1Drop (coreOf s3.cur) l.1 .rshr
        modCore (coreOf s3.cur) (fun c => { c with icache := del c.icache l.1 })
      | .coh => pure ())) s3 () s4) →
    (i = .discard d a b → lines.any (fun l => s3.discardWaits l.1) = false ∧
      Gives (lines.forM (fun l => discardLine (coreOf s3.cur) l.1 l.2)) s3 () s4) →
    Gives (writeName (wordOf i) d (word (min B.toNat (2 ^ 20)))) s4 () s5 → Retires s5 t → exec i s = .next t)

/-- 10 R245, R247: PREF of an address outside the space or in the aperture only goes on; of a page in the core's TLB that permits a
load, it brings the line in; TSPROBE answers the timestamps of a COH line. -/
def Sys2Proof.Statements.prefetchAndProbeComplete : Prop :=
  (∀ (a m : BitVec 8) (s s1 t : State) (x : Thread) (A ea : Word), Issues (.pref a m) s → s.thread s.cur = some x →
    Gives (readName (wordOf (.pref a m)) a) s A s1 → ea = A + 32 * assembled x.latch 8 m.toNat →
    (outside ea = true ∨ inAperture ea = true) → Retires s1 t → exec (.pref a m) s = .next t) ∧
  (∀ (a m : BitVec 8) (s s1 s2 t : State) (x y : Thread) (A ea : Word) (e : TlbEntry) (p : Page), Issues (.pref a m) s →
    s.thread s.cur = some x → Gives (readName (wordOf (.pref a m)) a) s A s1 → ea = A + 32 * assembled x.latch 8 m.toNat →
    outside ea = false → inAperture ea = false → s1.thread s1.cur = some y →
    tlbFind (s1.core (coreOf s1.cur)).tlb y.ctx ea.toNat = some e → p = pageOf e.level e.leaf ea.toNat →
    Gives (if permits p.leaf 0 (!prv (s1.slot s1.cur).tstat) then prefetchLine p (x.latch.ch = 0) else pure ()) s1 () s2 →
    Retires s2 t → exec (.pref a m) s = .next t) ∧
  (∀ (d a : BitVec 8) (s s1 s2 s3 s4 t : State) (A v : Word) (p : Page), Issues (.tsprobe d a) s →
    Gives (readName (wordOf (.tsprobe d a)) a) s A s1 → outside A = false → inAperture A = false →
    Gives (translate A 0) s1 p s2 → p.attr = .coh → s2.inRegion (p.pa / 32 * 32) 32 = false →
    Gives (enterWord 6 A (do return (← getS).probe (p.pa / 32))) s2 v s3 →
    Gives (writeName (wordOf (.tsprobe d a)) d v) s3 () s4 → Retires s4 t → exec (.tsprobe d a) s = .next t)

/-- 10 R244, R245, R247: FLUSHP, INVP, DISCARD, PREF and TSPROBE complete. -/
def Obligations.CacheInstructionsComplete : Prop :=
  maintenanceCompletes ∧ prefetchAndProbeComplete

/-- 10 R233; 08 R181, R184; 09 R210: a scalar load on resident names from a line that stands usable in the core's L1 runs and gives the
bytes at its address, extended; nothing but its destination, the staleness of recipes and the pc changes, in tstat, memory and caches too, but
that a COH line's load moves the core's time to the line's wts, and an exclusive line's rts to that time, and that a cache hint of 2 marks
the line as the first to be replaced (02 R37; 08 R187). -/
def Obligations.LoadFromL1Frame : Prop :=
  (∀ (i : Instr) (d a m : BitVec 8) (size : Nat) (signed ro : Bool), loadOf i = some (d, a, m, size, signed, ro) →
  ∀ (s : State) (x : Thread) (ea : Word) (p : Page) (y : L1Line), Plain i s x → x.resume = {} → d.toNat < x.win → a.toNat < x.win →
    ea = s.resident x a.toNat + word size * assembled x.latch 8 m.toNat → Addressed ea size → inAperture ea = false →
    Mapped s x ea 0 p → p.attr ≠ .coh → (ro = true → p.attr = .rshr) → (p.attr = .priv → s.isMigratory x.launch = false) →
    s.olderDone (coreOf s.cur) x = true →
    s.buffered (coreOf s.cur) x (p.pa / 32) p.attr (maskOf (p.pa % 32) size) s.fresh = [] →
    find (s.core (coreOf s.cur)).l1 (l1Key (p.pa / 32) p.attr) = some y → y.poison = false →
    ∃ t, exec i s = .next t ∧ RegistersOnly (s.markSoon (coreOf s.cur) (p.pa / 32) p.attr x.latch.ch) t [d.toNat] ∧
      t.resident x d.toNat = extendBytes size signed (fromByte y.data (p.pa % 32)) ∧
      (t.slot s.cur).tstat = (s.slot s.cur).tstat ∧ (t.thread s.cur).map (·.pc) = some (x.pc + 4)) ∧
  (∀ (i : Instr) (d a m : BitVec 8) (size : Nat) (signed ro : Bool), loadOf i = some (d, a, m, size, signed, ro) →
  ∀ (s u v : State) (x : Thread) (ea : Word) (p : Page) (y : L1Line), Plain i s x → x.resume = {} → d.toNat < x.win → a.toNat < x.win →
    ea = s.resident x a.toNat + word size * assembled x.latch 8 m.toNat → Addressed ea size → inAperture ea = false →
    Mapped s x ea 0 p → p.attr = .coh → s.olderDone (coreOf s.cur) x = true →
    s.buffered (coreOf s.cur) x (p.pa / 32) .coh (maskOf (p.pa % 32) size) s.fresh = [] →
    find (s.core (coreOf s.cur)).l1 (l1Key (p.pa / 32) .coh) = some y → y.poison = false →
    (y.excl = true ∨ atMost (s.pts (coreOf s.cur)) y.rts = true) → Gives (raise (.core (coreOf s.cur)) y.wts) s () u →
    v = (if y.excl then u.setCore (coreOf s.cur) { u.core (coreOf s.cur) with
      l1 := put (u.core (coreOf s.cur)).l1 (l1Key (p.pa / 32) .coh) { y with rts := tmax y.rts (u.pts (coreOf s.cur)) } } else u) →
    ∃ t, exec i s = .next t ∧ RegistersOnly (v.markSoon (coreOf s.cur) (p.pa / 32) .coh x.latch.ch) t [d.toNat] ∧
      t.resident x d.toNat = extendBytes size signed (fromByte y.data (p.pa % 32)) ∧
      (t.slot s.cur).tstat = (s.slot s.cur).tstat ∧ (t.thread s.cur).map (·.pc) = some (x.pc + 4))

/-- 10 R233; 09 R208; 12 R286: a scalar store on resident names to a PRIV line, or to a COH line that the core holds, runs where the store
buffer is not full (the spec gives it no size: whether one that holds stores is full is the step's datum, the model's choice of
notes/assumptions/63.md) and puts one entry at the tail of the core's store buffer: the line of its address, a mask of exactly the bytes stored, and the data's low bytes there. No
register, no byte of memory and no line of a cache changes, nothing of the slot but its thread, and nothing of the thread but that its unit
has ended, its pc, and the PRIV lines that it has written. -/
def Obligations.StoreFrame : Prop :=
  ∀ (i : Instr) (d a m : BitVec 8) (size : Nat), storeOf i = some (d, a, m, size) →
  ∀ (s : State) (x : Thread) (ea : Word) (p : Page), Plain i s x → x.resume.ea = none → x.resume.operands = none →
    d.toNat < x.win → a.toNat < x.win → ((s.core (coreOf s.cur)).buffer = [] ∨ s.pick / 64 % 2 = 0) →
    ea = s.resident x a.toNat + word size * assembled x.latch 8 m.toNat → Addressed ea size → inAperture ea = false →
    Mapped s x ea 1 p → p.attr ≠ .rshr → s.inRegion p.pa size = false →
    (p.attr = .coh → s.holdsExcl (coreOf s.cur) (p.pa / 32) = true) →
    ∃ t e, exec i s = .next t ∧
      t = { s with
        cores := t.cores
        fresh := s.fresh + 1 } ∧
      (∀ c, c ≠ coreOf s.cur → t.core c = s.core c) ∧
      t.core (coreOf s.cur) = { s.core (coreOf s.cur) with
        buffer := (s.core (coreOf s.cur)).buffer ++ [e]
        slots := (t.core (coreOf s.cur)).slots } ∧
      (∀ k, k ≠ s.cur → t.slot k = s.slot k) ∧
      e.line = p.pa / 32 ∧ e.attr = p.attr ∧ e.uid = x.uid ∧ e.ctx = x.ctx ∧
      (∀ o, e.mask.getLsbD o = decide (p.pa % 32 ≤ o ∧ o < p.pa % 32 + size)) ∧
      extendBytes size false (fromByte e.data (p.pa % 32)) = extendBytes size false (s.resident x d.toNat) ∧
      t.slot s.cur = { s.slot s.cur with thread := some { x.endUnit with
        pc := x.pc + 4
        released := none
        privLines := if p.attr = .priv ∧ p.pa / 32 ∉ x.privLines then x.privLines ++ [p.pa / 32] else x.privLines } }

/-- How an instruction of 05 R130 to R132 or 10 R233 to R241, R247 makes its address and what it asks of it (10 R230): the name of the base
and the offset, which the unit's latch may lengthen; the multiple that the address must be of, 1 where none is asked; whether it is of the
store class; the resident names that it reads before the address is checked; whether it accepts pages and the aperture; and what it forbids of
the page that it finds (08 R180). -/
structure Sys2Proof.Statements.AccessForm where
  base : BitVec 8
  offset : Latch → Word
  multiple : Nat
  store : Bool
  names : List Nat
  paged : Bool
  banked : Bool
  forbids : State → Page → Bool

/-- The instructions that access an address, with their forms; VLDN, whose mask of lanes matters to its checks, apart. -/
def Sys2Proof.Statements.accessOf : Instr → Option AccessForm
  | .lde _ a m => some ⟨a, fun l => 8 * assembled l 8 m.toNat, 8, false, [], false, true, fun _ _ => false⟩
  | .ldex _ a m => some ⟨a, fun l => 8 * assembled l 8 m.toNat, 8, true, [], true, false, fun s p => p.attr = .rshr || s.inRegion p.pa 8⟩
  | .stf d a m => some ⟨a, fun l => 8 * assembled l 8 m.toNat, 8, true, [d.toNat], false, true, fun _ _ => false⟩
  | .vld _ a m => some ⟨a, fun l => 64 * assembled l 8 m.toNat, 64, false, [], true, true, fun _ _ => false⟩
  | .vst d a m => some ⟨a, fun l => 64 * assembled l 8 m.toNat, 64, true, groupNames d, true, true,
      fun s p => p.attr = .rshr || s.inRegion p.pa 64⟩
  | .hold _ a => some ⟨a, fun _ => 0, 1, true, [], true, false, fun s p => p.attr != .coh || s.inRegion (p.pa / 32 * 32) 32⟩
  | .unhold _ a => some ⟨a, fun _ => 0, 1, true, [], true, false, fun s p => p.attr != .coh || s.inRegion (p.pa / 32 * 32) 32⟩
  | .tsprobe _ a => some ⟨a, fun _ => 0, 1, false, [], true, false, fun s p => p.attr != .coh || s.inRegion (p.pa / 32 * 32) 32⟩
  | i => match loadOf i, storeOf i, atomicOf i with
    | some (_, a, m, size, _, ro), _, _ => some ⟨a, fun l => word size * assembled l 8 m.toNat, size, false, [], true, !ro,
        fun _ p => ro && p.attr = .priv⟩
    | _, some (d, a, m, size), _ => some ⟨a, fun l => word size * assembled l 8 m.toNat, size, true, [d.toNat], true, true,
        fun s p => p.attr = .rshr || s.inRegion p.pa size⟩
    | _, _, some (_, a, b, _) => some ⟨a, fun _ => 0, 8, true, [b.toNat], true, false,
        fun s p => p.attr = .rshr || s.inRegion p.pa 8⟩
    | _, _, _ => none

/-- The cause of a class: of the load class the first, of the store class the second (10 R230). -/
def Sys2Proof.Statements.causeOf (store : Bool) (load other : Nat) : Nat := if store then other else load

/-- The thread at `cur` takes the trap with a cause and an address as its value. -/
def Sys2Proof.Statements.Faults (i : Instr) (s : State) (x : Thread) (cause : Nat) (ea : Word) : Prop :=
  exec i s = .next (s.takeTrap s.cur x { cause := cause, value := ea })

/-- The checks of an address that is outside the space or misaligned, in the aperture, or of a page (10 R230; 08 R178, R180; 14 R341):
the first that fails gives its fault; an address whose page no TLB of the core or the cluster holds parks for its walk. -/
def Sys2Proof.Statements.addressChecks (i : Instr) (f : AccessForm) (s : State) (x : Thread) (ea : Word) : Prop :=
  (outside ea = true → Faults i s x (causeOf f.store 5 7) ea) ∧
  (outside ea = false → ea.toNat % f.multiple ≠ 0 → Faults i s x (causeOf f.store 4 6) ea) ∧
  (Addressed ea f.multiple → inAperture ea = true → f.banked = false → Faults i s x 5 ea) ∧
  (Addressed ea f.multiple → inAperture ea = false → f.paged = false → Faults i s x (causeOf f.store 5 7) ea) ∧
  (Addressed ea f.multiple → inAperture ea = false → f.paged = true →
    (tlbFind (s.core (coreOf s.cur)).tlb x.ctx ea.toNat = none →
      tlbFind (s.cluster (clusterOf (coreOf s.cur))).tlb x.ctx ea.toNat = none →
      ∃ t, exec i s = .next t ∧ (t.thread s.cur).map (·.park) = some (some (.walk ea (causeOf f.store 0 1) none)) ∧ t.mem = s.mem ∧
        (t.core (coreOf s.cur)).rf = (s.core (coreOf s.cur)).rf ∧ (t.core (coreOf s.cur)).buffer = (s.core (coreOf s.cur)).buffer) ∧
    (∀ e, tlbFind (s.core (coreOf s.cur)).tlb x.ctx ea.toNat = some e →
      permits e.leaf (causeOf f.store 0 1) (!prv (s.slot s.cur).tstat) = false → Faults i s x (causeOf f.store 13 15) ea) ∧
    (∀ p, Mapped s x ea (causeOf f.store 0 1) p → f.forbids s p = true → Faults i s x (causeOf f.store 5 7) ea))

/-- 05 R130 to R132; 08 R178, R180; 10 R230, R233 to R241, R247; 14 R341: an access on resident names that fails a check of its address takes
the fault of the first that fails, and does nothing else. Of a VLDN that names no lane only the alignment is checked, which is the model's
choice, as is that of an address of VLD, VST or VLDN both outside the space and misaligned: notes/assumptions/67.md. -/
def Obligations.AddressFaults : Prop :=
  (∀ (i : Instr) (f : AccessForm), accessOf i = some f →
  ∀ (s : State) (x : Thread), Plain i s x → x.resume = {} → prv (s.slot s.cur).tstat = false → f.base.toNat < x.win →
    (∀ n ∈ f.names, n < x.win) → addressChecks i f s x (s.resident x f.base.toNat + f.offset x.latch)) ∧
  (∀ (d a b : BitVec 8) (s : State) (x : Thread), Plain (.vldn d a b) s x → x.resume = {} → prv (s.slot s.cur).tstat = false →
    a.toNat < x.win → b.toNat < x.win →
    (s.resident x b.toNat ≠ 0 → addressChecks (.vldn d a b) ⟨a, fun _ => 0, 64, false, [b.toNat], true, true, fun _ _ => false⟩ s x
      (s.resident x a.toNat)) ∧
    (s.resident x b.toNat = 0 → (s.resident x a.toNat).toNat % 64 ≠ 0 → Faults (.vldn d a b) s x 4 (s.resident x a.toNat))) ∧
  (∀ (i : Instr) (d a m : BitVec 8) (size : Nat) (signed ro : Bool), loadOf i = some (d, a, m, size, signed, ro) →
  ∀ (s : State) (x : Thread) (ea : Word), Plain i s x → x.resume.ea = none → x.resume.operands = none → a.toNat < x.win →
    prv (s.slot s.cur).tstat = false → ea = s.resident x a.toNat + word size * assembled x.latch 8 m.toNat →
    (outside ea = true → exec i s = .next (s.takeTrap s.cur x { cause := 5, value := ea })) ∧
    (outside ea = false → ea.toNat % size ≠ 0 → exec i s = .next (s.takeTrap s.cur x { cause := 4, value := ea }))) ∧
  (∀ (i : Instr) (d a m : BitVec 8) (size : Nat), storeOf i = some (d, a, m, size) →
  ∀ (s : State) (x : Thread) (ea : Word), Plain i s x → x.resume.ea = none → x.resume.operands = none → a.toNat < x.win →
    d.toNat < x.win → prv (s.slot s.cur).tstat = false →
    ea = s.resident x a.toNat + word size * assembled x.latch 8 m.toNat →
    (outside ea = true → exec i s = .next (s.takeTrap s.cur x { cause := 7, value := ea })) ∧
    (outside ea = false → ea.toNat % size ≠ 0 → exec i s = .next (s.takeTrap s.cur x { cause := 6, value := ea })))

/-- 11 R278 to R280: BSET, BCOMP and BINFO of an address in the bank aperture go on with what the bank answers. -/
def Sys2Proof.Statements.bankInstructionsAnswered : Prop :=
  (∀ (d a b : BitVec 8) (s s1 s2 s3 s4 t : State) (x : Thread) (A B v : Word) (vs : List Word), Issues (.bset d a b) s →
    s.thread s.cur = some x → Gives (readOnce 0 (wordOf (.bset d a b)) a) s A s1 →
    Gives (readOnce 1 (wordOf (.bset d a b)) b) s1 B s2 → inAperture A = true → ¬(d = 251#8 ∧ (s2.slot s2.cur).compose = []) →
    Gives (bankEffect x A .bset 40 B [] { operands := [A, B] }) s2 (v, vs) s3 → Gives (writeName (wordOf (.bset d a b)) d v) s3 () s4 → Retires s4 t →
    exec (.bset d a b) s = .next t) ∧
  (∀ (d a b : BitVec 8) (s s1 s2 s3 s4 t : State) (x : Thread) (A B v : Word) (vs : List Word), Issues (.bcomp d a b) s →
    s.thread s.cur = some x → Gives (readOnce 0 (wordOf (.bcomp d a b)) a) s A s1 →
    Gives (readOnce 1 (wordOf (.bcomp d a b)) b) s1 B s2 → inAperture A = true → ¬(d = 251#8 ∧ (s2.slot s2.cur).compose = []) →
    Gives (bankEffect x A .bcomp 41 B [] { operands := [A, B] }) s2 (v, vs) s3 → Gives (writeName (wordOf (.bcomp d a b)) d v) s3 () s4 → Retires s4 t →
    exec (.bcomp d a b) s = .next t) ∧
  (∀ (d a : BitVec 8) (s s1 s2 s3 t : State) (x : Thread) (A v : Word) (vs : List Word), Issues (.binfo d a) s →
    s.thread s.cur = some x → Gives (readOnce 0 (wordOf (.binfo d a)) a) s A s1 → inAperture A = true →
    Gives (bankEffect x A .binfo 42 0 [] { operands := [A], d := d }) s1 (v, vs) s2 →
    Gives (writeName (wordOf (.binfo d a)) d v) s2 () s3 → Retires s3 t → exec (.binfo d a) s = .next t)

/-- 02 R57: a bank's reply to an unpaired thread is received by the bank access that waits for it: the thread's core learns the reply's
time, bst takes the status, and the value comes back. An access with no reply, whose thread has no older store under way and stays where
it is, parks with the operation that is sent, which carries the core's pts; its unit's words stand for when it goes on (02 R54). -/
def Sys2Proof.Statements.bankAccessReceives : Prop :=
  ∀ (x0 x : Thread) (ea v : Word) (kind : BankKind) (q : Asked) (s : State), s.thread s.cur = some x →
    (∀ (r : Reply) (s1 : State), x.resume.reply = some r → r.poison = false → Gives (raisePts r.time) s () s1 →
      ∃ t, Gives (bankAccess x0 ea kind v q) s r t ∧
        t = s1.setSlot s1.cur { s1.slot s1.cur with thread := (s1.slot s1.cur).thread.map (fun z => { z with bst := BitVec.ofNat 3 r.status }) }) ∧
    (x.resume.reply = none → s.olderDone (coreOf s.cur) x = true → clusterOf (bankOf ea / 4) = clusterOf (coreOf s.cur) →
      x.pc.toNat + 4 < 2 ^ 55 →
      bankAccess x0 ea kind v q s = .error (.begun (.bankSend {
        tid := s.cur
        uid := x.uid
        ctx := x.ctx
        ea := ea
        bank := bankOf ea
        cls := ea.toNat / 2 ^ 22 % 4
        key := ea.toNat / 8 % 2 ^ 19
        byte := ea.toNat % 8
        kind := kind
        v := v
        time := s.pts (coreOf s.cur)
        ldq := q.d = 253#8
        header := q.d = 251#8 && (s.slot s.cur).compose.isEmpty }) q.operands (bits (s.slot s.cur).tstat 7 3) s.entered))

/-- 02 R57; 11 R278 to R280: BSET, BCOMP and BINFO complete with what their bank answers, and how an access reaches a bank and comes
back. -/
def Obligations.BankInstructionsComplete : Prop :=
  bankInstructionsAnswered ∧ bankAccessReceives

/-- 11 R261 to R269: an accepted operation whose form an event serves is performed on the structure of its bank, once the bank has
learned its time, and is answered at the bank's own time; a LDE is, while its granule is full or its index lies beyond the structure, and
waits at the bank otherwise (10 R237; 09 R214). An answer that is to be the header of a message and is none, on which its unit traps, leaves
everything as it was (02 R55; 13 R333). -/
def Obligations.BankOperationsComplete : Prop :=
  (∀ (i : Instr) (form : BankForm) (n : Nat), bankFormOf i = some (form, n) →
  ∀ (s s1 s2 t : State) (op : BankOp) (r : Reply), Waits s n op form true → Gives (raise (.bank op.bank) op.time) s () s1 →
    Gives (performForm form op n op.bank (s.membersOf op.bank) (s1.clock (.bank op.bank)).t) s1 r s2 →
    (Refuses op r = false → Gives (answerOp n { r with time := (s1.clock (.bank op.bank)).t }) s2 () t) →
    (Refuses op r = true → Gives (answerOp n { r with time := (s1.clock (.bank op.bank)).t }) s () t) → exec i s = .next t) ∧
  (∀ (n m w : Nat) (s s1 s2 t : State) (op : BankOp) (r : Reply), Waits s n op .lde true →
    s.indexIn (s.membersOf op.bank) op.key = (m, w) → ((s.bank m).cap ≤ w ∨ granuleFull (s.bank m) w = true) →
    Gives (raise (.bank op.bank) op.time) s () s1 →
    Gives (performForm .lde op n op.bank (s.membersOf op.bank) (s1.clock (.bank op.bank)).t) s1 r s2 →
    (Refuses op r = false → Gives (answerOp n { r with time := (s1.clock (.bank op.bank)).t }) s2 () t) →
    (Refuses op r = true → Gives (answerOp n { r with time := (s1.clock (.bank op.bank)).t }) s () t) →
    exec (.bankLde n) s = .next t) ∧
  (∀ (n m w : Nat) (s s1 : State) (op : BankOp), Waits s n op .lde true →
    s.indexIn (s.membersOf op.bank) op.key = (m, w) → w < (s.bank m).cap → granuleFull (s.bank m) w = false →
    Gives (raise (.bank op.bank) op.time) s () s1 →
    exec (.bankLde n) s = .next (s1.setBank op.bank { s1.bank op.bank with
      waiting := (s1.bank op.bank).waiting ++ [{ op := n, key := op.key, empty := op.kind = .lde true }] }))

/-- 11 R262, R263: the classes of an ARRAY or ARRAYFE bank that stands alone. A load gives the bytes of its entry, extended; a store
replaces them; the full bit of a granule is read, and emptied; an index beyond the capacity answers ABSENT and changes nothing. -/
def Sys2Proof.Statements.arrayBanks : Prop :=
  ∀ (n size : Nat) (signed : Bool) (s : State) (op : BankOp) (b : Bank) (r : Reg), b = s.bank op.bank →
    r = findD b.words {} op.key →
    (AtBank s n op .load → op.kind = .load size signed → op.key < b.cap → r.poison = false →
      ∃ t, exec (.bankLoad n) s = .next t ∧ Answered s t n op { value := extendBytes size signed (r.val >>> (8 * op.byte)) } b) ∧
    (AtBank s n op .store → op.kind = .store size → op.key < b.cap → (r.poison = false ∨ size = 8) →
      ∃ t, exec (.bankStore n) s = .next t ∧
        Answered s t n op {} { b with words := put b.words op.key (storeBytes r op.byte size op.v) }) ∧
    (AtBank s n op .fullBit → op.key < b.cap →
      ∃ t, exec (.fullBitRead n) s = .next t ∧ Answered s t n op { value := if op.key / 2 ∈ b.full then 1 else 0 } b) ∧
    (AtBank s n op .empty → op.key < b.cap →
      ∃ t, exec (.granuleEmpty n) s = .next t ∧ Answered s t n op {} { b with full := b.full.filter (· != op.key / 2) }) ∧
    (AtBank s n op .load → b.cap ≤ op.key → ∃ t, exec (.bankLoad n) s = .next t ∧ Answered s t n op { status := 3 } b) ∧
    (AtBank s n op .store → b.cap ≤ op.key → ∃ t, exec (.bankStore n) s = .next t ∧ Answered s t n op { status := 3 } b) ∧
    (AtBank s n op .fullBit → b.cap ≤ op.key → ∃ t, exec (.fullBitRead n) s = .next t ∧ Answered s t n op { status := 3 } b) ∧
    (AtBank s n op .empty → b.cap ≤ op.key → ∃ t, exec (.granuleEmpty n) s = .next t ∧ Answered s t n op { status := 3 } b)

/-- 10 R237; 11 R263: LDE of a full granule gives the entry's word, and LDE.EMP empties the granule; STF writes the word and fills the
granule, in a bank with no LDE waiting; both answer ABSENT beyond the capacity and change nothing. -/
def Sys2Proof.Statements.fullBitBanks : Prop :=
  ∀ (n : Nat) (e : Bool) (s : State) (op : BankOp) (b : Bank) (r : Reg), b = s.bank op.bank → r = findD b.words {} op.key →
    (b.cap ≤ op.key → AtBank s n op .lde → ∃ t, exec (.bankLde n) s = .next t ∧ Answered s t n op { status := 3 } b) ∧
    (b.cap ≤ op.key → AtBank s n op .stf → ∃ t, exec (.bankStf n) s = .next t ∧ Answered s t n op { status := 3 } b) ∧
    (op.key < b.cap → AtBank s n op .lde → op.kind = .lde e → op.key / 2 ∈ b.full → r.poison = false →
      ∃ t, exec (.bankLde n) s = .next t ∧ Answered s t n op { value := r.val }
        { b with full := if e then b.full.filter (· != op.key / 2) else b.full }) ∧
    (op.key < b.cap → AtBank s n op .stf → b.waiting = [] →
      ∃ t, exec (.bankStf n) s = .next t ∧ Answered s t n op {}
        { b with
          words := put b.words op.key { val := op.v }
          full := b.full.insert (op.key / 2) })

/-- 10 R237; 11 R262, R263: the operations of ARRAY and ARRAYFE banks that stand alone. -/
def Obligations.ArrayBanksAnswer : Prop :=
  arrayBanks ∧ fullBitBanks

/-- 11 R264: a QUEUE that stands alone gives back its entries oldest first, a STACK the youngest first; a push to a full one answers
FULL, a pop or peek of an empty one EMPTY; a peek gives the entry that a pop would take; the count is the number of entries; class 1
answers any other key ABSENT. -/
def Sys2Proof.Statements.queueAndStackBanks : Prop :=
  ∀ (n : Nat) (s : State) (op : BankOp) (b : Bank), b = s.bank op.bank → 0 < b.cap →
    (AtBank s n op .push → b.count < b.cap →
      ∃ t, exec (.push n) s = .next t ∧ Answered s t n op {} { b with
        words := put b.words ((b.head + b.count) % b.cap) { val := op.v }
        count := b.count + 1 }) ∧
    (AtBank s n op .push → b.cap ≤ b.count → ∃ t, exec (.push n) s = .next t ∧ Answered s t n op { status := 1 } b) ∧
    (AtBank s n op .pop → b.count = 0 → ∃ t, exec (.pop n) s = .next t ∧ Answered s t n op { status := 2 } b) ∧
    (∀ (r : Reg), AtBank s n op .pop → b.pers = 2 → 0 < b.count → r = findD b.words {} (b.head % b.cap) → r.poison = false →
      ∃ t, exec (.pop n) s = .next t ∧ Answered s t n op { value := r.val } { b with
        head := (b.head + 1) % b.cap
        count := b.count - 1 }) ∧
    (∀ (r : Reg), AtBank s n op .pop → b.pers = 3 → 0 < b.count → r = findD b.words {} ((b.head + (b.count - 1)) % b.cap) →
      r.poison = false →
      ∃ t, exec (.pop n) s = .next t ∧ Answered s t n op { value := r.val } { b with count := b.count - 1 }) ∧
    (∀ (r : Reg), AtBank s n op .peek → op.key = 0 → b.pers = 2 → 0 < b.count → r = findD b.words {} (b.head % b.cap) →
      r.poison = false → ∃ t, exec (.peek n) s = .next t ∧ Answered s t n op { value := r.val } b) ∧
    (∀ (r : Reg), AtBank s n op .peek → op.key = 0 → b.pers = 3 → 0 < b.count →
      r = findD b.words {} ((b.head + (b.count - 1)) % b.cap) → r.poison = false →
      ∃ t, exec (.peek n) s = .next t ∧ Answered s t n op { value := r.val } b) ∧
    (AtBank s n op .peek → op.key = 0 → (b.pers = 2 ∨ b.pers = 3) → b.count = 0 →
      ∃ t, exec (.peek n) s = .next t ∧ Answered s t n op { status := 2 } b) ∧
    (AtBank s n op .peek → op.key ≠ 0 → ∃ t, exec (.peek n) s = .next t ∧ Answered s t n op { status := 3 } b) ∧
    (AtBank s n op .count → (b.pers = 2 ∨ b.pers = 3) →
      ∃ t, exec (.count n) s = .next t ∧ Answered s t n op { value := word b.count } b)

/-- 11 R265: a MAP that stands alone holds one word a key: a lookup gives it or ABSENT, an insert replaces or adds it, or answers FULL,
a take gives and removes it, a delete removes it, both answering ABSENT of a key that it does not hold; the count is the number of keys. -/
def Sys2Proof.Statements.mapBanks : Prop :=
  ∀ (n : Nat) (s : State) (op : BankOp) (b : Bank) (r : Reg), b = s.bank op.bank →
    (AtBank s n op .lookup → find b.live op.key = some r → r.poison = false → op.key ∉ b.badKeys →
      ∃ t, exec (.mapLookup n) s = .next t ∧ Answered s t n op { value := r.val } b) ∧
    (AtBank s n op .lookup → find b.live op.key = none → ∃ t, exec (.mapLookup n) s = .next t ∧ Answered s t n op { status := 3 } b) ∧
    (AtBank s n op .insert → ((find b.live op.key).isSome ∨ b.live.length < b.cap) → op.key ∉ b.badKeys →
      ∃ t, exec (.mapInsert n) s = .next t ∧ Answered s t n op {} { b with
        live := put b.live op.key { val := op.v }
        high := if (find b.live op.key).isSome then b.high else b.high + 1 }) ∧
    (AtBank s n op .insert → find b.live op.key = none → b.cap ≤ b.live.length →
      ∃ t, exec (.mapInsert n) s = .next t ∧ Answered s t n op { status := 1 } b) ∧
    (AtBank s n op .take → find b.live op.key = some r → r.poison = false → op.key ∉ b.badKeys →
      ∃ t, exec (.mapTake n) s = .next t ∧ Answered s t n op { value := r.val } { b with live := del b.live op.key }) ∧
    (AtBank s n op .take → find b.live op.key = none → ∃ t, exec (.mapTake n) s = .next t ∧ Answered s t n op { status := 3 } b) ∧
    (AtBank s n op .count → b.pers = 4 → ∃ t, exec (.count n) s = .next t ∧ Answered s t n op { value := word b.live.length } b) ∧
    (AtBank s n op .delete → find b.live op.key = some r → r.poison = false → op.key ∉ b.badKeys →
      ∃ t, exec (.mapDelete n) s = .next t ∧ Answered s t n op {} { b with live := del b.live op.key }) ∧
    (AtBank s n op .delete → find b.live op.key = none →
      ∃ t, exec (.mapDelete n) s = .next t ∧ Answered s t n op { status := 3 } b)

/-- 11 R266: a HEAP that stands alone takes an entry while it has room, and its pop gives and removes the entry with the least key, the
first inserted among equals; its peek gives that entry, of an empty HEAP EMPTY; the count is the number of entries; class 1 answers any other
key ABSENT. -/
def Sys2Proof.Statements.heapBanks : Prop :=
  ∀ (n : Nat) (s : State) (op : BankOp) (b : Bank), b = s.bank op.bank →
    (AtBank s n op .heapInsert → b.heap.length < b.cap →
      ∃ t, exec (.heapInsert n) s = .next t ∧ Answered s t n op {} { b with
        heap := b.heap ++ [(s.nextSeq [op.bank], { val := op.v })]
        high := max b.high (b.heap.length + 1) }) ∧
    (AtBank s n op .heapInsert → b.cap ≤ b.heap.length →
      ∃ t, exec (.heapInsert n) s = .next t ∧ Answered s t n op { status := 1 } b) ∧
    (AtBank s n op .heapPop → b.heap = [] → ∃ t, exec (.heapPop n) s = .next t ∧ Answered s t n op { status := 2 } b) ∧
    (∀ (k : Nat) (r : Reg), AtBank s n op .heapPop → (k, r) ∈ b.heap → r.poison = false →
      (∀ e ∈ b.heap, e ≠ (k, r) → (bits r.val 63 32 < bits e.2.val 63 32 ∨ (bits r.val 63 32 = bits e.2.val 63 32 ∧ k < e.1))) →
      (∀ e ∈ b.heap, e.1 < 2 ^ 64) →
      ∃ t, exec (.heapPop n) s = .next t ∧
        Answered s t n op { value := r.val } { b with heap := b.heap.filter (fun e => e.1 != k) }) ∧
    (∀ (k : Nat) (r : Reg), AtBank s n op .peek → op.key = 0 → b.pers = 5 → (k, r) ∈ b.heap → r.poison = false →
      (∀ e ∈ b.heap, e ≠ (k, r) → (bits r.val 63 32 < bits e.2.val 63 32 ∨ (bits r.val 63 32 = bits e.2.val 63 32 ∧ k < e.1))) →
      (∀ e ∈ b.heap, e.1 < 2 ^ 64) → ∃ t, exec (.peek n) s = .next t ∧ Answered s t n op { value := r.val } b) ∧
    (AtBank s n op .peek → op.key = 0 → b.pers = 5 → b.heap = [] →
      ∃ t, exec (.peek n) s = .next t ∧ Answered s t n op { status := 2 } b) ∧
    (AtBank s n op .peek → op.key ≠ 0 → b.pers = 5 → ∃ t, exec (.peek n) s = .next t ∧ Answered s t n op { status := 3 } b) ∧
    (AtBank s n op .count → b.pers = 5 → ∃ t, exec (.count n) s = .next t ∧ Answered s t n op { value := word b.heap.length } b)

/-- 11 R265, R266: the operations of MAP and HEAP banks that stand alone. -/
def Obligations.MapAndHeapBanksAnswer : Prop :=
  mapBanks ∧ heapBanks

/-- 11 R267: a HIST that stands alone: a bin is read, added to with saturation, read and cleared, and set. -/
def Sys2Proof.Statements.histBanks : Prop :=
  ∀ (n : Nat) (s : State) (op : BankOp) (b : Bank) (r : Reg), b = s.bank op.bank → r = findD b.words {} op.key → op.key < b.cap →
    (AtBank s n op .histRead → r.poison = false → ∃ t, exec (.histRead n) s = .next t ∧ Answered s t n op { value := r.val } b) ∧
    (AtBank s n op .histAdd → r.poison = false →
      ∃ t, exec (.histAdd n) s = .next t ∧ Answered s t n op {}
        { b with words := put b.words op.key { val := word (min (r.val.toNat + op.v.toNat) (2 ^ 64 - 1)) } }) ∧
    (AtBank s n op .histReadClear → r.poison = false →
      ∃ t, exec (.histReadClear n) s = .next t ∧ Answered s t n op { value := r.val } { b with words := put b.words op.key { val := 0 } }) ∧
    (AtBank s n op .histSet →
      ∃ t, exec (.histSet n) s = .next t ∧ Answered s t n op {} { b with words := put b.words op.key { val := op.v } })

/-- 11 R264, R267: the operations of QUEUE, STACK and HIST banks that stand alone. -/
def Obligations.QueueStackAndHistBanksAnswer : Prop :=
  queueAndStackBanks ∧ histBanks

/-- A BSET of one mode at a bank that stands alone with no LDE waiting, with a personality and a capacity that it may have (11 R278). -/
structure Sys2Proof.Statements.Sets (s : State) (n : Nat) (op : BankOp) (form : BankForm) (b : Bank) (pers cap : Nat) : Prop where
  atBank : AtBank s n op form
  bank : b = s.bank op.bank
  single : b.home = none
  still : b.waiting = []
  personality : pers = bsetPers op.v
  capacity : cap = bsetCap op.v
  fits : cap ≤ maxCap pers

/-- A bank with a personality, a capacity, words, and the metadata of an empty structure (11 R270). -/
def Sys2Proof.Statements.bare (b : Bank) (pers cap : Nat) (words : FMap Reg) : Bank :=
  { b with pers := pers, cap := cap, words := words, full := [], head := 0, count := 0, live := [], badKeys := [], heap := [], high := 0 }

/-- 11 R260, R270; 15 R363: KEEP keeps the raw words and discards the metadata: the words of an ARRAY, ARRAYFE or HIST; the entries of a
QUEUE or STACK from its head on, round its capacity; of a MAP each entry's key and value, each with its poison, in some slot; the entries of
a HEAP in the first words, in some arrangement; and of each structure the words beyond its capacity. -/
def Sys2Proof.Statements.keepKeepsWords : Prop :=
  ∀ (n pers cap : Nat) (slots order : List Nat) (s : State) (op : BankOp) (b : Bank), Sets s n op .keep b pers cap →
    ∃ t w, exec (.keep n slots order) s = .next t ∧ t.bank op.bank = bare b pers cap w ∧
      find t.bankOps n = some { op with reply := some { value := 0, time := (s.clock (.bank op.bank)).t } } ∧
      (∀ k, k ≠ op.bank → t.bank k = s.bank k) ∧ (t.mem, t.cores, t.clocks, t.logs) = (s.mem, s.cores, s.clocks, s.logs) ∧
      (b.pers = 0 ∨ b.pers = 1 ∨ b.pers = 6 → w = b.words) ∧
      (b.pers = 2 ∨ b.pers = 3 → 0 < b.cap → b.count ≤ b.cap → (∀ j < b.count,
          findD w {} ((b.head + j) % b.cap) = findD b.words {} ((b.head + j) % b.cap)) ∧
        ∀ i, b.cap ≤ i → findD w {} i = findD b.words {} i) ∧
      (b.pers = 4 → b.live.length ≤ b.cap → (b.live.map (·.1)).Nodup → (∀ k r, (k, r) ∈ b.live → ∃ i < b.cap,
          findD w {} (2 * i) = { val := word k, poison := b.badKeys.contains k } ∧ findD w {} (2 * i + 1) = r) ∧
        ∀ i, 2 * b.cap ≤ i → findD w {} i = findD b.words {} i) ∧
      (b.pers = 5 → b.heap.length ≤ b.high → b.high ≤ b.cap →
        (∃ l : List Reg, l.Perm (b.heap.map (·.2)) ∧ ∀ i r, l[i]? = some r → findD w {} i = r) ∧
        ∀ i, b.cap ≤ i → findD w {} i = findD b.words {} i)

/-- The items that a bank's live entries make in structure order (11 R271). -/
def Sys2Proof.Statements.drainedItems (b : Bank) (items : List DrainItem) : Prop :=
  (b.pers = 0 ∨ b.pers = 6 → items = (List.range b.cap).map (fun i =>
    { key := some i, val := (findD b.words {} i).val, poison := (findD b.words {} i).poison })) ∧
  (b.pers = 1 → items = ((List.range b.cap).filter (fun i => b.full.contains (i / 2))).map (fun i =>
    { key := some i, val := (findD b.words {} i).val, poison := (findD b.words {} i).poison })) ∧
  (b.pers = 2 ∨ b.pers = 3 → items = (List.range b.count).map (fun j =>
    { key := none, val := (findD b.words {} ((b.head + j) % b.cap)).val,
      poison := (findD b.words {} ((b.head + j) % b.cap)).poison })) ∧
  (b.pers = 4 → items = b.live.map (fun p => { key := some p.1, val := p.2.val, poison := p.2.poison || b.badKeys.contains p.1 })) ∧
  (b.pers = 5 → ∃ l : List (Nat × Reg), l.Perm b.heap ∧
    l.Pairwise (fun e f => bits e.2.val 63 32 < bits f.2.val 63 32 ∨ (bits e.2.val 63 32 = bits f.2.val 63 32 ∧ e.1 < f.1)) ∧
    items = l.map (fun e => { key := none, val := e.2.val, poison := e.2.poison }))

/-- 11 R272: how each new personality applies an item, at its key or else at its position, and what it refuses. -/
def Sys2Proof.Statements.itemsAreApplied : Prop :=
  ∀ (b : Bank) (j : Nat) (i : DrainItem),
    (i.poison = true → b.apply j i = none) ∧
    (i.poison = false →
      (b.pers ≤ 1 → b.cap ≤ i.key.getD j → b.apply j i = none) ∧
      (b.pers = 0 → i.key.getD j < b.cap → b.apply j i = some { b with words := put b.words (i.key.getD j) { val := i.val } }) ∧
      (b.pers = 1 → i.key.getD j < b.cap → b.apply j i = some { b with
        words := put b.words (i.key.getD j) { val := i.val }
        full := b.full.insert (i.key.getD j / 2) }) ∧
      (b.pers = 2 ∨ b.pers = 3 → (b.count < b.cap → b.apply j i = some { b with
          words := put b.words b.count { val := i.val }
          count := b.count + 1 }) ∧
        (b.cap ≤ b.count → b.apply j i = none)) ∧
      (b.pers = 4 →
        (i.key.getD j < 2 ^ 19 → ((find b.live (i.key.getD j)).isSome ∨ b.live.length < b.cap) → ∃ h, b.apply j i = some { b with
          live := put b.live (i.key.getD j) { val := i.val }
          high := h }) ∧
        ((2 ^ 19 ≤ i.key.getD j ∨ (find b.live (i.key.getD j) = none ∧ b.cap ≤ b.live.length)) → b.apply j i = none)) ∧
      (b.pers = 5 → (b.heap.length < b.cap → b.apply j i = some { b with
          heap := b.heap ++ [(b.heap.length, { val := i.val })]
          high := b.heap.length + 1 }) ∧
        (b.cap ≤ b.heap.length → b.apply j i = none)) ∧
      (b.pers = 6 → (∀ k, i.key = some k → k < b.cap → b.apply j i = some { b with
          words := put b.words k { val := word (min ((findD b.words {} k).val.toNat + i.val.toNat) (2 ^ 64 - 1)) } }) ∧
        (∀ k, i.key = some k → b.cap ≤ k → b.apply j i = none) ∧
        (i.key = none → b.apply j i = some { b with
          words := put b.words (i.val.toNat % b.cap)
            { val := word (min ((findD b.words {} (i.val.toNat % b.cap)).val.toNat + 1) (2 ^ 64 - 1)) } }))) ∧
    (∀ is d, b.applyAll j [] d = (b, d) ∧ (b.apply j i = none → b.applyAll j (i :: is) d = b.applyAll (j + 1) is (d + 1)) ∧
      (∀ c, b.apply j i = some c → b.applyAll j (i :: is) d = c.applyAll (j + 1) is d))

/-- 11 R271 to R273; 15 R363: DRAIN reads every live entry in structure order, writes every word zero, and applies the items in order under
the new personality; those that are refused, and those that are poisoned, are counted. CLEAR writes every word zero. -/
def Sys2Proof.Statements.drainAndClearWriteZero : Prop :=
  (∀ (n pers cap : Nat) (s : State) (op : BankOp) (b : Bank) (items : List DrainItem), Sets s n op .drain b pers cap → drainedItems b items →
    b.pers ≤ 6 → (b.pers = 2 ∨ b.pers = 3 → 0 < b.cap ∧ b.count ≤ b.cap) →
    (b.pers = 5 → (b.heap.map (·.1)).Nodup ∧ ∀ e ∈ b.heap, e.1 < 2 ^ 64) →
    ∃ t, exec (.drain n) s = .next t ∧ Answered s t n op { value := word ((bare b pers cap []).applyAll 0 items 0).2 }
      ((bare b pers cap []).applyAll 0 items 0).1) ∧
  (∀ (n pers cap : Nat) (s : State) (op : BankOp) (b : Bank), Sets s n op .clear b pers cap →
    ∃ t, exec (.clear n) s = .next t ∧ Answered s t n op { value := 0 } (bare b pers cap [])) ∧
  (∀ (n : Nat) (s : State) (op : BankOp) (i : Instr) (form : BankForm),
    (i = .keep n [] [] ∧ form = .keep) ∨ (i = .drain n ∧ form = .drain) ∨ (i = .clear n ∧ form = .clear) → AtBank s n op form →
    maxCap (bsetPers op.v) < bsetCap op.v → ∃ t, exec i s = .next t ∧ Answered s t n op { status := 1 } (s.bank op.bank))

/-- 11 R274 to R276; 15 R363: BCOMP joins its members to one structure at the latest of their times: ARRAY, ARRAYFE and HIST members keep
their words; a QUEUE's or STACK's entries stand at positions 0 onward, member after member; a MAP's are in their hashed members, the last
placed of a key in its place, and one whose member is full is dropped and counted; a HEAP's stay, in the order of the members. -/
def Sys2Proof.Statements.compositionJoins : Prop :=
  (∀ (n : Nat) (s s1 : State) (op : BankOp) (ms : List Nat) (time : Stamp), Waits s n op .compose true → ms = compMembers op.bank op.v →
    s.compBad op = false → s.errs = [] → (∀ m ∈ ms, (s.bank m).waiting = []) →
    time = (ms.map (fun m => (s.clock (.bank m)).t)).foldl tmax op.time → Gives (ms.forM (touch time)) s () s1 →
    ∃ t dropped, exec (.compositionForm n) s = .next t ∧ t.clocks = s1.clocks ∧ t.mem = s.mem ∧ (∀ m, m ∉ ms → t.bank m = s.bank m) ∧
      find t.bankOps n = some { op with reply := some { value := word dropped, time := time } } ∧ (t.bank op.bank).members = ms ∧
      (∀ m ∈ ms, (t.bank m).home = some op.bank ∧ (t.bank m).pers = (s.bank m).pers ∧ (t.bank m).cap = (s.bank m).cap ∧
        (t.bank m).owner = (s.bank m).owner) ∧
      ((s.bank op.bank).pers = 0 ∨ (s.bank op.bank).pers = 1 ∨ (s.bank op.bank).pers = 6 → dropped = 0 ∧
        ∀ m ∈ ms, (t.bank m).words = (s.bank m).words ∧ (t.bank m).full = (s.bank m).full) ∧
      (∀ es : List Reg, (s.bank op.bank).pers = 2 ∨ (s.bank op.bank).pers = 3 → (∀ m ∈ ms, (s.bank m).count ≤ (s.bank m).cap) →
        es = ms.flatMap (fun m => (List.range (s.bank m).count).map (fun j =>
          findD (s.bank m).words {} (((s.bank m).head + j) % (s.bank m).cap))) →
        dropped = 0 ∧ (t.bank op.bank).head = 0 ∧ (t.bank op.bank).count = es.length ∧
        ∀ j r, es[j]? = some r → findD (t.bank (s.positionIn ms j).1).words {} (s.positionIn ms j).2 = r) ∧
      ((s.bank op.bank).pers = 4 →
        (∀ m ∈ ms, (((ms.flatMap (fun m => (s.bank m).live.map (·.1))).filter (fun k => mapMember ms k = m)).dedup).length ≤ (s.bank m).cap) →
        dropped = 0 ∧
        (∀ k r, (ms.flatMap (fun m => (s.bank m).live)).reverse.find? (fun e => e.1 = k) = some (k, r) →
          find (t.bank (mapMember ms k)).live k = some r) ∧
        (∀ m ∈ ms, ∀ e ∈ (t.bank m).live, mapMember ms e.1 = m ∧ ∃ m' ∈ ms, (find (s.bank m').live e.1).isSome)) ∧
      ((s.bank op.bank).pers = 5 → dropped = 0 ∧ (∀ m ∈ ms, (t.bank m).heap.map (·.2) = (s.bank m).heap.map (·.2)) ∧
        ms.flatMap (fun m => (t.bank m).heap.map (·.1)) = List.range (ms.map (fun m => (s.bank m).heap.length)).sum)) ∧
  (∀ (ms : List Nat) (k d d' : Nat) (r : Reg) (bad : Bool) (es : List (Nat × Reg × Bool)) (s t : State),
    find (s.bank (mapMember ms k)).live k = none → (s.bank (mapMember ms k)).cap ≤ (s.bank (mapMember ms k)).live.length →
    Gives (placeMap ms es (d + 1)) s d' t → Gives (placeMap ms ((k, r, bad) :: es) d) s d' t)

/-- 11 R262, R274; 05 R132; 10 R237: which operations a bank accepts. One of a bank that the context does not own, and one of a member of a
composition that is not its home, is not accepted, but for the operations on its configuration; else a scalar load or store is by the
bank's personality, the class and the width, a vector access by an ARRAY or ARRAYFE in class 0, LDE and STF by an ARRAYFE in class 0. -/
def Sys2Proof.Statements.banksAccept : Prop :=
  ∀ (s : State) (op : BankOp) (b : Bank), b = s.bank op.bank →
    (b.owner ≠ op.ctx → op.kind ≠ .bcomp → (s.formOf op).2 = false) ∧
    (∀ h, b.home = some h → h ≠ op.bank → op.kind ≠ .bset → op.kind ≠ .bcomp → op.kind ≠ .binfo → (s.formOf op).2 = false) ∧
    (b.owner = op.ctx → b.home = none ∨ b.home = some op.bank →
      (∀ size signed, op.kind = .load size signed → ((s.formOf op).2 = true ↔ (b.pers ≤ 1 ∧ op.cls = 0) ∨ (size = 8 ∧
        ((b.pers = 1 ∧ op.cls = 1) ∨ ((b.pers = 2 ∨ b.pers = 3 ∨ b.pers = 5 ∨ b.pers = 6) ∧ op.cls ≤ 1) ∨ (b.pers = 4 ∧ op.cls ≤ 2))))) ∧
      (∀ size, op.kind = .store size → ((s.formOf op).2 = true ↔ (b.pers ≤ 1 ∧ op.cls = 0) ∨ (size = 8 ∧
        ((b.pers = 1 ∧ op.cls = 1) ∨ ((b.pers = 2 ∨ b.pers = 3 ∨ b.pers = 5) ∧ op.cls = 0) ∨ (b.pers = 6 ∧ op.cls ≤ 1) ∨
          (b.pers = 4 ∧ (op.cls = 0 ∨ op.cls = 2)))))) ∧
      (∀ n vs, op.kind = .vload n ∨ op.kind = .vstore vs → ((s.formOf op).2 = true ↔ b.pers ≤ 1 ∧ op.cls = 0)) ∧
      (∀ e, op.kind = .lde e ∨ op.kind = .stf → ((s.formOf op).2 = true ↔ b.pers = 1 ∧ op.cls = 0)))

/-- 11 R261, R262; 14 R347: an operation that its bank does not accept, a scalar load or store, a vector access, LDE or STF, is answered
DENIED, with 0 for every word that a load takes, at the bank's time; the bank keeps its state, and the context's log gets the aperture
address. One whose unit traps on the 0 that it gets leaves no entry (02 R55). -/
def Sys2Proof.Statements.deniedOperations : Prop :=
  ∀ (i : Instr) (form : BankForm) (n : Nat), (bankFormOf i = some (form, n) ∨ (i = .bankLde n ∧ form = .lde)) →
  ∀ (s s1 : State) (op : BankOp) (home : Nat), Waits s n op form false → Gives (raise (.bank op.bank) op.time) s () s1 →
    home = ((s.byUid op.uid).map (·.2.home)).getD op.tid →
    ∃ t, exec i s = .next t ∧ t.banks = s.banks ∧ t.mem = s.mem ∧ t.cores = s.cores ∧
      find t.bankOps n = some { op with reply := some {
        status := 4
        value := 0
        values := List.replicate op.kind.words 0
        time := (s1.clock (.bank op.bank)).t } } ∧
      (op.header = false → t.logs = (s1.logIn op.ctx 2 4 0 home op.ea (extendTime s1.floor op.time) s1.boot.pkgid).logs) ∧
      (op.header = true → t.logs = s.logs)

/-- 11 R259, R261, R270 to R280; 14 R339; 15 R363: the changes of a bank's configuration are performed as BSET, BCOMP and BINFO ask: what KEEP,
DRAIN and CLEAR leave, and what a composition's members hold; BINFO reports the bank and changes nothing; an operation on a bank of
another context, and one that the bank's personality does not take, is answered DENIED and logged, and the bank keeps its state (one whose
unit traps on the 0 that it gets is not logged: 02 R55). BSET and BCOMP, whose numbers are no header, make no operation that asks for one. A handed-over bank has its new owner and the state of R259. -/
def Obligations.BankConfigurationCompletes : Prop :=
  keepKeepsWords ∧ itemsAreApplied ∧ drainAndClearWriteZero ∧ compositionJoins ∧ banksAccept ∧ deniedOperations ∧
  (∀ (n : Nat) (slots order : List Nat) (s s1 s2 t : State) (op : BankOp) (ok : Bool) (r : Reply), Waits s n op .keep ok →
    (s.bank op.bank).home = none → Gives (raise (.bank op.bank) op.time) s () s1 →
    Gives (bsetWith op ok (s1.clock (.bank op.bank)).t (keepBank op.bank slots order)) s1 r s2 → op.header = false →
    Gives (answerOp n { r with time := (s1.clock (.bank op.bank)).t }) s2 () t → exec (.keep n slots order) s = .next t) ∧
  (∀ (n : Nat) (s s1 s2 t : State) (op : BankOp) (ok : Bool) (r : Reply), Waits s n op .drain ok →
    (s.bank op.bank).home = none → Gives (raise (.bank op.bank) op.time) s () s1 →
    Gives (bsetWith op ok (s1.clock (.bank op.bank)).t (drainBank op.bank)) s1 r s2 → op.header = false →
    Gives (answerOp n { r with time := (s1.clock (.bank op.bank)).t }) s2 () t → exec (.drain n) s = .next t) ∧
  (∀ (n : Nat) (s s1 s2 t : State) (op : BankOp) (ok : Bool) (r : Reply), Waits s n op .clear ok →
    (s.bank op.bank).home = none → Gives (raise (.bank op.bank) op.time) s () s1 →
    Gives (bsetWith op ok (s1.clock (.bank op.bank)).t (clearBank op.bank)) s1 r s2 → op.header = false →
    Gives (answerOp n { r with time := (s1.clock (.bank op.bank)).t }) s2 () t → exec (.clear n) s = .next t) ∧
  (∀ (n : Nat) (s s1 t : State) (op : BankOp) (r : Reply), Waits s n op .compose true → Gives (compose op) s r s1 →
    Gives (answerOp n r) s1 () t → exec (.compositionForm n) s = .next t) ∧
  (∀ (n : Nat) (s : State) (op : BankOp), AtBank s n op .info → ∃ t, exec (.binfoReport n) s = .next t ∧
    Answered s t n op { value := s.infoWord op.bank } (s.bank op.bank)) ∧
  (∀ (n : Nat) (s s1 : State) (op : BankOp), Waits s n op .info false → op.header = true →
    Gives (raise (.bank op.bank) op.time) s () s1 →
    ∃ t o, exec (.binfoReport n) s = .next t ∧ find t.bankOps n = some { op with reply := some o } ∧ o.status = 4 ∧ o.value = 0 ∧
      t.banks = s.banks ∧ t.logs = s.logs) ∧
  (∀ (n : Nat) (s s1 : State) (op : BankOp), Waits s n op .info false → op.header = false →
    Gives (raise (.bank op.bank) op.time) s () s1 →
    ∃ t o h, exec (.binfoReport n) s = .next t ∧ find t.bankOps n = some { op with reply := some o } ∧ o.status = 4 ∧
      t.banks = s1.banks ∧
      t.logs = (s1.logIn op.ctx 2 4 0 h op.ea (extendTime s1.floor op.time) s1.boot.pkgid).logs) ∧
  (∀ (b owner : Nat) (s : State), b < 16384 → owner < 4096 →
    ((s.bank b).owner = owner ∨ ∀ p ∈ s.threads, coreOf p.1 = b / 4 → p.2.ctx ≠ (s.bank b).owner) →
    (∀ s0 s1 s2, Gives (meetHome b) s () s0 → Gives (answerLde b (s0.clock (.bank b)).t) s0 () s1 →
      Gives (leaveComposition b (s0.clock (.bank b)).t) s1 () s2 →
      ∃ t, exec (.bankHandover b owner) s = .next t ∧ t.bank b = { s2.bank b with
        owner := owner
        pers := 0
        cap := 8192
        words := []
        full := []
        head := 0
        count := 0
        live := []
        badKeys := []
        heap := []
        high := 0 } ∧ (∀ c, c ≠ b → t.bank c = s2.bank c)) ∧
    ((s.bank b).home = none → (s.bank b).waiting = [] → (s.bank b).members = [] →
      ∃ t, exec (.bankHandover b owner) s = .next t ∧ t.bank b = { owner := owner } ∧ (∀ c, c ≠ b → t.bank c = s.bank c)))

/-- 02 R33 to R35, R37; 04 R101: a prefix word of a unit with room for it puts its field into the latch and goes on at the next word of the
unit; nothing else changes. A third prefix word, and a second PFX.MOD, are illegal. That one that ends at the end of the space traps in its own
turn, as the fetch of the next word would (04 R101), is the model's reading: notes/assumptions/20.md. -/
def Obligations.PrefixWordsComplete : Prop :=
  (∀ h : BitVec 24, encode (.pfxImm h) = some (0xFE#8 ++ h)) ∧
  (∀ (h : BitVec 24) (s : State) (x : Thread), s.thread s.cur = some x → x.park = none → x.latch.nimm + x.latch.nmod < 2 →
    x.pc.toNat + 4 < 2 ^ 55 →
    exec (.pfxImm h) s = .next (s.setSlot s.cur { s.slot s.cur with thread := some { x with
      latch := { x.latch with
        imm := if x.latch.nimm = 0 then h.setWidth 48 else (x.latch.imm <<< 24) ||| h.setWidth 48
        nimm := x.latch.nimm + 1 }
      unitPc := x.first
      unitLen := x.unitLen + 1
      pc := x.pc + 4 } })) ∧
  (∀ (h : BitVec 24) (s : State) (x : Thread), s.thread s.cur = some x → x.park = none →
    (2 ≤ x.latch.nimm + x.latch.nmod → exec (.pfxImm h) s = runBody (illegal (wordOf (.pfxImm h))) s) ∧
    (x.latch.nimm + x.latch.nmod < 2 → 2 ^ 55 ≤ x.pc.toNat + 4 →
      exec (.pfxImm h) s = runBody (abort (.trap { cause := 1, value := word (2 ^ 55), extra := 1 })) s)) ∧
  (∀ (r : BitVec 3) (c sc : BitVec 2) (f : BitVec 4) (e : BitVec 5) (n : BitVec 8) (s : State) (x : Thread),
    s.thread s.cur = some x → x.park = none →
    (2 ≤ x.latch.nimm + x.latch.nmod ∨ 1 ≤ x.latch.nmod →
      exec (.pfxMod r c sc f e n) s = runBody (illegal (wordOf (.pfxMod r c sc f e n))) s) ∧
    (x.latch.nimm + x.latch.nmod < 2 → x.latch.nmod = 0 → 2 ^ 55 ≤ x.pc.toNat + 4 →
      exec (.pfxMod r c sc f e n) s = runBody (abort (.trap { cause := 1, value := word (2 ^ 55), extra := 1 })) s)) ∧
  (∀ (r : BitVec 3) (c sc : BitVec 2) (f : BitVec 4) (e : BitVec 5) (n : BitVec 8) (s : State) (x : Thread),
    s.thread s.cur = some x → x.park = none → x.latch.nimm + x.latch.nmod < 2 → x.latch.nmod = 0 → x.pc.toNat + 4 < 2 ^ 55 →
    exec (.pfxMod r c sc f e n) s = .next (s.setSlot s.cur { s.slot s.cur with thread := some { x with
      latch := { x.latch with
        modf := r ++ c ++ sc ++ f ++ e ++ n
        nmod := x.latch.nmod + 1 }
      unitPc := x.first
      unitLen := x.unitLen + 1
      pc := x.pc + 4 } }))

/-- 02 R36: a unit's immediate of `n` bits with no PFX.IMM is sign-extended from `n`; with one, its field is the bits above; with two,
the first one's field stands above the second one's. -/
def Obligations.AssembledImmediates : Prop :=
  ∀ (l : Latch) (n field : Nat), 0 < n → n ≤ 24 → field < 2 ^ n →
    (l.nimm = 0 → l.imm = 0 → (assembled l n field).toInt = if field < 2 ^ (n - 1) then (field : Int) else (field : Int) - 2 ^ n) ∧
    (∀ h : BitVec 24, l.nimm = 1 → l.imm = h.setWidth 48 →
      (assembled l n field).toInt = h.toInt * 2 ^ n + field) ∧
    (∀ h k : BitVec 24, n ≤ 16 → l.nimm = 2 → l.imm = (h.setWidth 48 <<< 24) ||| k.setWidth 48 →
      (assembled l n field).toInt = (h.toInt * 2 ^ 24 + k.toNat) * 2 ^ n + field)

/-- 02 R34, R38, R41: a prefix word that its unit has no room for is illegal, and so is an instruction that does not accept its unit's
prefixes or has an ill-formed field: the trap has cause 2 and the word, and the unit has no effect. -/
def Sys2Proof.Statements.refusedUnitsTrap : Prop :=
  (∀ (h : BitVec 24) (s : State) (x : Thread), s.thread s.cur = some x → x.park = none → x.role = .single →
    prv (s.slot s.cur).tstat = false → 2 ≤ x.latch.nimm + x.latch.nmod →
    exec (.pfxImm h) s = .next (s.takeTrap s.cur x { cause := 2, value := (wordOf (.pfxImm h)).setWidth 64 })) ∧
  (∀ (r : BitVec 3) (c sc : BitVec 2) (f : BitVec 4) (e : BitVec 5) (n : BitVec 8) (s : State) (x : Thread),
    s.thread s.cur = some x → x.park = none → x.role = .single → prv (s.slot s.cur).tstat = false →
    (2 ≤ x.latch.nimm + x.latch.nmod ∨ 1 ≤ x.latch.nmod) →
    exec (.pfxMod r c sc f e n) s =
      .next (s.takeTrap s.cur x { cause := 2, value := (wordOf (.pfxMod r c sc f e n)).setWidth 64 })) ∧
  (∀ (i : Instr) (w : IWord), encode i = some w → (∀ h, i ≠ .pfxImm h) → (∀ r c sc f e n, i ≠ .pfxMod r c sc f e n) →
    ∀ (s : State) (x : Thread), s.thread s.cur = some x → x.park = none → x.role = .single → prv (s.slot s.cur).tstat = false →
    (wellFormed i = false ∨ accepts i x.latch = false) →
    exec i s = .next (s.takeTrap s.cur x { cause := 2, value := w.setWidth 64 }))

/-- 02 R29; 12 R287: the forward cell between a slot and its successor is usable when both slots hold threads and have one owner. Reading
fwi of a cell that is not is illegal, of an empty one parks, of a full one gives its word and empties it. -/
def Sys2Proof.Statements.forwardCellsRead : Prop :=
  (∀ (core slot : Nat) (s : State), s.cellUsable core slot = true ↔
    ((s.slot (64 * core + slot)).state = .home ∨ (s.slot (64 * core + slot)).state = .guest) ∧
    ((s.slot (64 * core + (slot + 1) % 64)).state = .home ∨ (s.slot (64 * core + (slot + 1) % 64)).state = .guest) ∧
    (s.slot (64 * core + slot)).owner = (s.slot (64 * core + (slot + 1) % 64)).owner) ∧
  ∀ (w : IWord) (s : State) (x : Thread) (core k : Nat), s.thread s.cur = some x → s.errs = [] → x.win ≤ 240 → x.role = .single →
    core = coreOf s.cur → k = (slotOf s.cur + 63) % 64 →
    (s.cellUsable core k = false →
      readName w 249#8 s = .error (.trap { cause := 2, value := w.setWidth 64, entered := x.resume.entered })) ∧
    (s.cellUsable core k = true → (s.core core).full.contains k = false → readName w 249#8 s = .error (.park .fwi)) ∧
    (s.cellUsable core k = true → (s.core core).full.contains k = true → (findD (s.core core).cells {} k).poison = false →
      Gives (readName w 249#8) s (findD (s.core core).cells {} k).val (s.setCore core { s.core core with
        full := (s.core core).full.filter (· != k)
        cells := del (s.core core).cells k }))

/-- 02 R29, R31; 13 R334: reading rcv gives the next word of the oldest message of the thread's home slot, which leaves with its last word,
and parks where there is none; ldq its head, illegal when empty, parking until it has arrived; a store's sdq its head, illegal when empty;
sdq, fwo and snd are no sources. -/
def Sys2Proof.Statements.queuesRead : Prop :=
  ∀ (w : IWord) (s : State) (x : Thread), s.thread s.cur = some x → s.errs = [] → x.win ≤ 240 →
    (x.role = .single → (s.slot x.home).inbox = [] → readName w 252#8 s = .error (.park .rcv)) ∧
    (∀ (m : HeldMessage) (ms : List HeldMessage) (v : Word) (vs : List Word), x.role = .single → (s.slot x.home).inbox = m :: ms →
      m.words = v :: vs → Gives (readName w 252#8) s v (s.setSlot x.home { s.slot x.home with
        inbox := if vs = [] then ms else { m with
          words := vs
          partly := true } :: ms })) ∧
    (x.ldq = [] → readName w 253#8 s = .error (.trap { cause := 2, value := w.setWidth 64, entered := x.resume.entered })) ∧
    (∀ (e : LdEntry) (es : List LdEntry), x.ldq = e :: es → e.val = none → readName w 253#8 s = .error (.park .ldq)) ∧
    (∀ (e : LdEntry) (es : List LdEntry) (v : Word), x.ldq = e :: es → e.val = some v → e.poison = false →
      (x.role = .single ∨ inAperture e.ea = true) →
      Gives (readName w 253#8) s v (s.setSlot s.cur { s.slot s.cur with thread := some { x with ldq := es } })) ∧
    (x.sdq = [] → readData w 246#8 s = .error (.trap { cause := 2, value := w.setWidth 64, entered := x.resume.entered })) ∧
    (∀ (v : Word) (rest : List (Word × Bool)), x.sdq = (v, false) :: rest →
      Gives (readData w 246#8) s v (s.setSlot s.cur { s.slot s.cur with thread := some { x with sdq := rest } })) ∧
    (∀ n : BitVec 8, n = 246#8 ∨ n = 250#8 ∨ n = 251#8 →
      readName w n s = .error (.trap { cause := 2, value := w.setWidth 64, entered := x.resume.entered }))

/-- 02 R54, R55; 15 R380: a unit that has made no request reads its names; one that has goes on with the words that they had then, of a pair
too, and takes the heads of the queues among them as it completes, but those of a pair that entered it before. -/
def Sys2Proof.Statements.namesReadOnce : Prop :=
  ∀ (w : IWord) (n : BitVec 8) (k : Nat) (s : State) (x : Thread), s.thread s.cur = some x → s.errs = [] →
    (x.resume.operands = none → ∀ v t, Gives (readName w n) s v t → Gives (readOnce k w n) s v t) ∧
    (∀ (ws : List Word) (v : Word), x.resume.operands = some ws → ws[k]? = some v →
      (n ≠ 246#8 → n ≠ 249#8 → n ≠ 252#8 → n ≠ 253#8 → Gives (readOnce k w n) s v s) ∧
      (n = 253#8 → Gives (readOnce k w n) s v (s.setSlot s.cur { s.slot s.cur with thread := some { x with ldq := x.ldq.drop 1 } })) ∧
      (x.role ≠ .single → n = 249#8 ∨ n = 252#8 → Gives (readOnce k w n) s v s) ∧
      (x.role = .single → n = 249#8 → Gives (readOnce k w n) s v (s.setCore (coreOf s.cur) { s.core (coreOf s.cur) with
        full := (s.core (coreOf s.cur)).full.filter (· != (slotOf s.cur + 63) % 64)
        cells := del (s.core (coreOf s.cur)).cells ((slotOf s.cur + 63) % 64) })))

/-- 02 R27, R29 to R31, R52, R54: what reading a name gives: a resident name its register, tid the home slot, bst the status, pts the core's
logical time, zero 0; a read of sh by a thread whose context owns it (not a pair, no older value still seen) its register, by another is
illegal; the forward cells and the queues give up their heads. -/
def Obligations.NamesRead : Prop :=
  forwardCellsRead ∧ queuesRead ∧ namesReadOnce ∧
  ∀ (w : IWord) (s : State) (x : Thread), s.thread s.cur = some x → s.errs = [] →
    (∀ n : BitVec 8, n.toNat < x.win → (findD (s.core (coreOf s.cur)).rf {} (x.wbase + n.toNat)).poison = false →
      Gives (readName w n) s (s.resident x n.toNat) s) ∧
    (x.win ≤ 240 → Gives (readName w 247#8) s (word x.home) s ∧ Gives (readName w 248#8) s (x.bst.setWidth 64) s ∧
      Gives (readName w 255#8) s 0 s ∧
      (x.role = .single → Gives (readName w 254#8) s ((s.pts (coreOf s.cur)).setWidth 64) s) ∧
      (∀ k : Nat, k < 6 → x.role = .single → s.ownsShared (coreOf s.cur) x.ctx = true →
        find (s.core (coreOf s.cur)).shOld k = none → (findD (s.core (coreOf s.cur)).sh {} k).poison = false →
        Gives (readName w (BitVec.ofNat 8 (240 + k))) s (findD (s.core (coreOf s.cur)).sh {} k).val s) ∧
      (∀ k : Nat, k < 6 → s.ownsShared (coreOf s.cur) x.ctx = false → readName w (BitVec.ofNat 8 (240 + k)) s =
        .error (.trap { cause := 2, value := w.setWidth 64, entered := x.resume.entered })))

/-- 02 R30: a write of sh by a thread whose context owns it sets the register, and the value that it replaces stays to be seen for a
while; one by another is illegal. -/
def Sys2Proof.Statements.sharedRegistersWritten : Prop :=
  ∀ (w : IWord) (v : Word) (k : Nat) (s : State) (x : Thread), s.thread s.cur = some x → s.errs = [] → x.win ≤ 240 → k < 6 →
    (x.role = .single → s.ownsShared (coreOf s.cur) x.ctx = true → ∃ t, Gives (writeName w (BitVec.ofNat 8 (240 + k)) v) s () t ∧
      findD (t.core (coreOf s.cur)).sh {} k = { val := v } ∧
      (findD (t.core (coreOf s.cur)).shOld [] k).head? = some ((findD (s.core (coreOf s.cur)).sh {} k).val, slotOf s.cur,
        findD (s.core (coreOf s.cur)).issuedAt 0 (slotOf s.cur)) ∧
      (∀ j, j ≠ k → findD (t.core (coreOf s.cur)).sh {} j = findD (s.core (coreOf s.cur)).sh {} j) ∧
      t = s.setCore (coreOf s.cur) { s.core (coreOf s.cur) with
        sh := (t.core (coreOf s.cur)).sh
        shOld := (t.core (coreOf s.cur)).shOld }) ∧
    (s.ownsShared (coreOf s.cur) x.ctx = false → x.resume.operands = none → writeName w (BitVec.ofNat 8 (240 + k)) v s =
      .error (.trap { cause := 2, value := w.setWidth 64, entered := x.resume.entered }))

/-- 02 R29; 12 R287: a write of fwo fills the cell to the next slot when it is usable and empty, parks when it is full, and is illegal when
it is not usable. -/
def Sys2Proof.Statements.forwardCellsWritten : Prop :=
  ∀ (w : IWord) (v : Word) (s : State) (x : Thread) (core : Nat), s.thread s.cur = some x → s.errs = [] → x.win ≤ 240 →
    x.role = .single → x.effects = [] → core = coreOf s.cur →
    (s.cellUsable core (slotOf s.cur) = false → x.resume.operands = none →
      writeName w 250#8 v s = .error (.trap { cause := 2, value := w.setWidth 64, entered := x.resume.entered })) ∧
    (s.cellUsable core (slotOf s.cur) = true → (s.core core).full.contains (slotOf s.cur) = true →
      writeName w 250#8 v s = .error (.park .fwo)) ∧
    (s.cellUsable core (slotOf s.cur) = true → (s.core core).full.contains (slotOf s.cur) = false →
      Gives (writeName w 250#8 v) s () (s.setCore core { s.core core with
        full := (s.core core).full ++ [slotOf s.cur]
        cells := put (s.core core).cells (slotOf s.cur) { val := v } }))

/-- 12 R308; 13 R333: a write of snd appends to the compose buffer. The first word must be a header: no kind, no reserved field, a length
that is not 0; the last one, which the header's length tells, waits for the thread's older stores. -/
def Sys2Proof.Statements.messagesComposed : Prop :=
  ∀ (w : IWord) (v : Word) (s : State) (x : Thread), s.thread s.cur = some x → s.errs = [] → x.win ≤ 240 → x.role = .single →
    ((s.slot s.cur).compose = [] → (bits v 63 62 ≠ 0 ∨ bits v 47 24 ≠ 0 ∨ bits v 61 57 = 0) →
      writeName w 251#8 v s = .error (.trap { cause := 2, value := w.setWidth 64, entered := x.resume.entered })) ∧
    (∀ (h : Word) (p : Bool), ((s.slot s.cur).compose ++ [(v, false)]).head? = some (h, p) →
      ((s.slot s.cur).compose = [] → bits v 63 62 = 0 ∧ bits v 47 24 = 0 ∧ bits v 61 57 ≠ 0) →
      (bits h 61 57 ≠ (s.slot s.cur).compose.length + 1 ∨ s.olderDone (coreOf s.cur) x = true →
        Gives (writeName w 251#8 v) s () (s.setSlot s.cur { s.slot s.cur with compose := (s.slot s.cur).compose ++ [(v, false)] })) ∧
      (bits h 61 57 = (s.slot s.cur).compose.length + 1 → s.olderDone (coreOf s.cur) x = false →
        writeName w 251#8 v s = .error (.park .stores)))

/-- 02 R29 to R31, R53: what writing a name does: a resident name takes the value; tid, pts and zero discard it and nothing changes; bst
takes the low three bits; sdq appends it; a formula name, and a source, are illegal; sh, fwo and snd as their own statements say. -/
def Obligations.NamesWritten : Prop :=
  sharedRegistersWritten ∧ forwardCellsWritten ∧ messagesComposed ∧
  ∀ (w : IWord) (v : Word) (s : State) (x : Thread), s.thread s.cur = some x → s.errs = [] → x.win ≤ 240 →
    (∀ n : BitVec 8, n.toNat < x.win → ∃ t, Gives (writeName w n v) s () t ∧ t.resident x n.toNat = v ∧
      (∀ k, k ≠ n.toNat → t.resident x k = s.resident x k) ∧ t.mem = s.mem ∧ t.clocks = s.clocks) ∧
    Gives (writeName w 247#8 v) s () s ∧ Gives (writeName w 254#8 v) s () s ∧ Gives (writeName w 255#8 v) s () s ∧
    Gives (writeName w 248#8 v) s () (s.setSlot s.cur { s.slot s.cur with thread := some { x with bst := v.setWidth 3 } }) ∧
    (x.sdq.length < 8 →
      Gives (writeName w 246#8 v) s () (s.setSlot s.cur { s.slot s.cur with thread := some { x with sdq := x.sdq ++ [(v, false)] } })) ∧
    (∀ n : BitVec 8, (x.win ≤ n.toNat ∧ n.toNat < 240) ∨ n = 249#8 ∨ n = 252#8 ∨ n = 253#8 →
      writeName w n v s = .error (.trap { cause := 2, value := w.setWidth 64, entered := x.resume.entered }))

/-- A thread has entered its context's handler by a trap (07 R167; 15 R367 to R370): the cause, value, address of the unit, its length and
the replay step that faulted are saved, prv is set, the unit has ended, and the pc is the handler's; nothing else of tstat, of the slot's
registers (tkeep and trecw among them) and of the thread (bst, the queues and the recipes among them) has changed. -/
def Sys2Proof.Statements.EnteredHandler (s t : State) (tid : Nat) (x : Thread) (f : TrapInfo) : Prop :=
  t.slot tid = { s.slot tid with
    tcause := word f.cause
    tvalue := f.value
    tpc := x.first.setWidth 64
    tstat := (t.slot tid).tstat
    thread := some { x.endUnit with
      values := []
      released := none
      pc := (s.entry (coreOf tid) x.ctx).trap.setWidth 55 &&& ~~~3#55 } } ∧
  bits (t.slot tid).tstat 25 22 = (x.unitLen + f.extra) % 16 ∧ prv (t.slot tid).tstat = true ∧
  (f.replay = none → bits (t.slot tid).tstat 19 9 = 0) ∧
  (∀ name k, f.replay = some (name, k) → name < 256 → k < 4 →
    bits (t.slot tid).tstat 19 18 = k ∧ bits (t.slot tid).tstat 17 10 = name ∧ bits (t.slot tid).tstat 9 9 = 1) ∧
  bits (t.slot tid).tstat 63 29 = bits (s.slot tid).tstat 63 29 ∧ bits (t.slot tid).tstat 27 26 = bits (s.slot tid).tstat 27 26 ∧
  bits (t.slot tid).tstat 21 20 = bits (s.slot tid).tstat 21 20 ∧ bits (t.slot tid).tstat 8 0 = bits (s.slot tid).tstat 8 0

/-- Nothing outside the slots of a core has changed but the context's violation log, to which an access fault adds its entry (14 R347). -/
def Sys2Proof.Statements.OnlySlots (s t : State) (core : Nat) (x : Thread) (f : TrapInfo) : Prop :=
  t = { s with
    cores := t.cores
    logs := if f.cause = 1 ∨ f.cause = 5 ∨ f.cause = 7 then
      (s.logIn x.ctx 1 f.cause 0 x.home f.value (extendTime s.floor (s.pts core)) s.boot.pkgid).logs else s.logs } ∧
  (∀ c, c ≠ core → t.core c = s.core c) ∧
  t.core core = { s.core core with slots := (t.core core).slots }

/-- 15 R370, R382: a trap in a thread of a pair: one whose partner is not there yet, and has nothing in the release buffer, waits for it, and
changes nothing else; one whose partner has come to the same unit with the same cause and value is taken, by both; where the cause or the value differ
both are killed by the silent-data fault. -/
def Sys2Proof.Statements.pairedTraps : Prop :=
  ∀ (s : State) (x y : Thread) (tid : Nat) (f : TrapInfo), s.thread tid = some x → x.role ≠ .single → s.partner tid = some y →
    f.entered = [] →
    (y.park = none → y.effects = [] →
      Gives (settle tid (.trap f)) s () (s.setSlot tid { s.slot tid with thread := some { x with
        park := some (.pairTrap f.cause f.value) } })) ∧
    (y.park = some (.pairTrap f.cause f.value) → y.first = x.first → x.effects = [] → y.effects = [] →
      coreOf (partnerOf tid) = coreOf tid → partnerOf tid ≠ tid → prv (s.slot tid).tstat = false →
      ∃ t, Gives (settle tid (.trap f)) s () t ∧ EnteredHandler s t tid x f ∧ EnteredHandler s t (partnerOf tid) y f ∧
        OnlySlots s t (coreOf tid) x f ∧ ∀ n, n ≠ tid → n ≠ partnerOf tid → t.slot n = s.slot n) ∧
    (∀ c v t, y.park = some (.pairTrap c v) → (c ≠ f.cause ∨ v ≠ f.value) →
      Gives (silentFault tid (if x.role = .leading then x.firstRelease else y.firstRelease)) s () t →
      Gives (settle tid (.trap f)) s () t)

/-- 02 R55; 07 R167; 15 R367 to R370, R382: a trap taken from user mode enters the handler, and no register and nothing else changes but the
log; one in trap mode, a double trap, kills the thread as an error does, with code 28, the second cause and the second unit, and writes no trap
register; a pair takes a trap that both its threads have come to. A kill of a thread, or of both threads of a pair, posts one record. -/
def Obligations.TrapsTaken : Prop :=
  pairedTraps ∧
  (∀ (s : State) (x : Thread) (tid : Nat) (f : TrapInfo), s.thread tid = some x → x.role = .single → prv (s.slot tid).tstat = false →
    ∃ t, Gives (settle tid (.trap f)) s () t ∧ EnteredHandler s t tid x f ∧ OnlySlots s t (coreOf tid) x f ∧
      ∀ n, n ≠ tid → t.slot n = s.slot n) ∧
  (∀ (s t : State) (x : Thread) (tid : Nat) (f : TrapInfo), s.thread tid = some x → x.role = .single → prv (s.slot tid).tstat = true →
    Gives (killThread tid 28 (word f.cause) x.first) (s.logFault tid x f) () t → Gives (settle tid (.trap f)) s () t) ∧
  (∀ (s t : State) (x : Thread) (tid code : Nat) (v : Word) (pc : BitVec 55), s.thread tid = some x → s.partner tid = none →
    (∀ q ∈ s.saved, q.mate ≠ some x.uid) →
    Gives (killOne tid [recordWord 1 0 code x.ctx x.home 0, v, pc.setWidth 64, word x.launch] true) s () t →
    Gives (killThread tid code v pc) s () t) ∧
  (∀ (s s1 t : State) (x y : Thread) (tid code : Nat) (v : Word) (pc : BitVec 55) (words : List Word), s.thread tid = some x →
    s.partner tid = some y → words = [recordWord 1 0 code x.ctx x.home 0, v, pc.setWidth 64, word x.launch] →
    Gives (killOne (partnerOf tid) words false) s () s1 → Gives (killOne tid words true) s1 () t → Gives (killThread tid code v pc) s () t)

/-- 15 R372: TRAP takes the trap with cause 25 and its immediate. -/
def Sys2Proof.Statements.trapInstructionTraps : Prop :=
  ∀ (k : BitVec 16) (s : State) (x : Thread), Issues (.trap k) s → s.thread s.cur = some x → x.role = .single →
    prv (s.slot s.cur).tstat = false →
    exec (.trap k) s = .next (s.takeTrap s.cur x { cause := 25, value := k.setWidth 64 })

/-- 15 R369, R372: TRET in trap mode returns to the trap's unit or past it, or returns and asks for a save, or kills the thread, as the
low two bits of A say. A return past a trap's unit that ends the space takes the fault of 04 R101 in that unit's place. That the save and the
fault find prv already cleared is the model's reading (notes/assumptions/26.md), and that ulen is then 0 its choice (notes/assumptions/64.md). -/
def Sys2Proof.Statements.trapReturnCompletes : Prop :=
  ∀ (a : BitVec 8) (s s1 : State) (x : Thread) (A : Word), Issues (.tret a) s → prv (s.slot s.cur).tstat = true →
    Gives (readName (wordOf (.tret a)) a) s A s1 → s1.thread s1.cur = some x →
    (A.toNat % 4 = 0 → exec (.tret a) s = .next (s1.returnTrap s1.cur x false)) ∧
    (A.toNat % 4 = 1 → bits (s1.slot s1.cur).tpc 54 2 * 4 + 4 * (bits (s1.slot s1.cur).tstat 25 22 + 1) < 2 ^ 55 →
      exec (.tret a) s = .next (s1.returnTrap s1.cur x true)) ∧
    (A.toNat % 4 = 1 → 2 ^ 55 ≤ bits (s1.slot s1.cur).tpc 54 2 * 4 + 4 * (bits (s1.slot s1.cur).tstat 25 22 + 1) →
      ∀ t, Gives (trapThread s1.cur { cause := 1, value := word (2 ^ 55) }) (s1.returnTrap s1.cur x false) () t →
      exec (.tret a) s = .next t) ∧
    (A.toNat % 4 = 2 → ∀ t, Gives (requestSave s1.cur 1) (s1.returnTrap s1.cur x false) () t → exec (.tret a) s = .next t) ∧
    (A.toNat % 4 = 3 → ∀ t, Gives (killThread s1.cur (bits (s1.slot s1.cur).tcause 7 0) (s1.slot s1.cur).tvalue
      ((s1.slot s1.cur).tpc.setWidth 55)) s1 () t → exec (.tret a) s = .next t)

/-- 15 R372: a return clears prv and makes the trap's unit, or the word after it, the next to be issued. -/
def Sys2Proof.Statements.trapReturnRestores : Prop :=
  ∀ (s : State) (tid : Nat) (x : Thread) (skip : Bool), s.thread tid = some x →
    ∃ y, (s.returnTrap tid x skip).thread tid = some y ∧ prv ((s.returnTrap tid x skip).slot tid).tstat = false ∧
      y.pc = ((s.slot tid).tpc.setWidth 55 &&& ~~~3#55) + (if skip then BitVec.ofNat 55 (4 * (bits (s.slot tid).tstat 25 22 + 1)) else 0) ∧
      y.park = none ∧ y.unitLen = 0 ∧ bits ((s.returnTrap tid x skip).slot tid).tstat 27 0 = bits (s.slot tid).tstat 27 0 ∧
      (s.returnTrap tid x skip).mem = s.mem ∧
      ((s.returnTrap tid x skip).core (coreOf tid)).rf = (s.core (coreOf tid)).rf

/-- 15 R369, R372: TRET does what its operand says, and a return clears prv and goes on at the trap's unit or past it. -/
def Obligations.TrapReturns : Prop :=
  trapReturnCompletes ∧ trapReturnRestores

/-- 02 R40; 14 R344, R345; 15 R369, R372: in user mode TRET, SHOOT, SYSW, and SYSR of a register that user mode may not read are illegal,
whatever their names are and before any of them waits. -/
def Sys2Proof.Statements.privilegedInstructionsTrap : Prop :=
  ∀ (i : Instr), ((∃ a, i = .tret a) ∨ (∃ d a b, i = .shoot d a b) ∨ (∃ d k, i = .sysw d k) ∨
      (∃ d k, i = .sysr d k ∧ sysUser k.toNat = false)) →
  ∀ (s : State) (x : Thread), s.thread s.cur = some x → x.park = none → x.role = .single → prv (s.slot s.cur).tstat = false →
    exec i s = .next (s.takeTrap s.cur x { cause := 2, value := (wordOf i).setWidth 64 })

/-- 02 R34, R38, R41; 14 R344, R345; 15 R369, R372: refused units and privileged instructions in user mode take the trap with cause 2,
TRAP that with cause 25. -/
def Obligations.IllegalUnitsTrap : Prop :=
  refusedUnitsTrap ∧ trapInstructionTraps ∧ privilegedInstructionsTrap

/-- 14 R345; 15 R371: SYSR of a register that the mode may read gives its value (tmbox as the bureau's reply gives it); SYSW in trap mode
writes a register, and parks where the write pre-empts threads. -/
def Sys2Proof.Statements.systemRegistersComplete : Prop :=
  (∀ (d : BitVec 8) (k : BitVec 16) (s s1 s2 t : State) (v : Word), Issues (.sysr d k) s → sysAssigned k.toNat = true →
    (prv (s.slot s.cur).tstat = true ∨ sysUser k.toNat = true) → k.toNat ≠ 0xC →
    Gives (enterWord 7 (word k.toNat) (do return (← getS).sysReg (← myTid) k.toNat)) s v s1 →
    Gives (writeName (wordOf (.sysr d k)) d v) s1 () s2 → Retires s2 t → exec (.sysr d k) s = .next t) ∧
  (∀ (d : BitVec 8) (s s1 t : State) (x : Thread) (r : Reply), Issues (.sysr d 0xC) s → prv (s.slot s.cur).tstat = true →
    s.thread s.cur = some x → x.role = .single → x.resume.reply = some r →
    Gives (writeName (wordOf (.sysr d 0xC)) d r.value) s () s1 → Retires s1 t → exec (.sysr d 0xC) s = .next t) ∧
  (∀ (d : BitVec 8) (k : BitVec 16) (s s1 s2 t : State) (v : Word), Issues (.sysw d k) s → sysAssigned k.toNat = true →
    prv (s.slot s.cur).tstat = true → k.toNat < 0x100 → Gives (readName (wordOf (.sysw d k)) d) s v s1 →
    Gives (writeSlotReg s1.cur k.toNat v) s1 () s2 → Retires s2 t → exec (.sysw d k) s = .next t) ∧
  (∀ (d : BitVec 8) (k : BitVec 16) (s s1 s2 s3 : State) (v : Word) (uids : List Nat), Issues (.sysw d k) s →
    sysAssigned k.toNat = true → prv (s.slot s.cur).tstat = true → 0x100 ≤ k.toNat →
    Gives (readName (wordOf (.sysw d k)) d) s v s1 → Gives (writeCoreReg (coreOf s1.cur) k.toNat v) s1 uids s2 → Retires s2 s3 →
    (uids = [] → exec (.sysw d k) s = .next s3) ∧
    (uids ≠ [] → exec (.sysw d k) s = .next (s3.setSlot s3.cur { s3.slot s3.cur with
      thread := (s3.slot s3.cur).thread.map (fun x => { x with park := some (.saves uids) }) })))

/-- 14 R345; 15 R369, R371: a slot register written and then read gives the written value in its RW fields. -/
def Sys2Proof.Statements.slotRegistersHold : Prop :=
  ∀ (s : State) (tid : Nat) (v : Word),
    (∀ n, n < 4 → ∃ t, Gives (writeSlotReg tid (4 + n) v) s () t ∧ ((s.slot tid).tkeep.length = 4 → t.slotReg tid (4 + n) = v)) ∧
    (∀ n, n < 4 → ∃ t, Gives (writeSlotReg tid (8 + n) v) s () t ∧ ((s.slot tid).trecw.length = 4 → t.slotReg tid (8 + n) = v)) ∧
    (∃ t, Gives (writeSlotReg tid 2 v) s () t ∧ t.slotReg tid 2 = v) ∧
    (∃ t, Gives (writeSlotReg tid 1 v) s () t ∧ t.slotReg tid 1 = word (bits v 7 0)) ∧
    (∃ t, Gives (writeSlotReg tid 3 v) s () t ∧ t.slotReg tid 3 = word (bits v 54 2 * 4)) ∧
    (∃ t, Gives (writeSlotReg tid 0xD v) s () t ∧ t.slotReg tid 0xD = word (bits v 51 6 * 64)) ∧
    (∃ t, Gives (writeSlotReg tid 0 v) s () t ∧ bits (t.slotReg tid 0) 19 3 = bits v 19 3 ∧
      bits (t.slotReg tid 0) 2 0 = min (bits v 2 0) 4 ∧ bits (t.slotReg tid 0) 63 20 = bits (s.slotReg tid 0) 63 20)

/-- 14 R345; 15 R369, R371: SYSR and SYSW complete, and a slot register holds what was written to its RW fields. -/
def Obligations.SystemRegistersReadAndWritten : Prop :=
  systemRegistersComplete ∧ slotRegistersHold

/-- 14 R344: SHOOT in trap mode, once the thread's stores are done and its lines written back, drops every translation that its
descriptor matches; with nothing on its way under them it gives the number dropped, else it waits for what is on its way. -/
def Sys2Proof.Statements.shootCompletes : Prop :=
  ∀ (d a b : BitVec 8) (s s1 s2 s3 s4 s5 t : State) (x : Thread) (A B : Word) (n : Nat), Issues (.shoot d a b) s →
    prv (s.slot s.cur).tstat = true → Gives (readName (wordOf (.shoot d a b)) a) s A s1 →
    Gives (readName (wordOf (.shoot d a b)) b) s1 B s2 → bits B 51 50 ≠ 3 → bits B 47 0 = 0 → s2.thread s2.cur = some x →
    x.role = .single → ¬(d = 251#8 ∧ (s2.slot s2.cur).compose = []) → s2.pendingStores (coreOf s2.cur) x.uid = [] →
    Gives flushThread s2 () s3 → Gives checkNext s3 () s3 → Gives (shootDown A B) s3 n s4 →
    (s3.quietUnder B = true → Gives (writeName (wordOf (.shoot d a b)) d (word (min n 0xFFFFFFFF))) s4 () s5 → Retires s5 t →
      exec (.shoot d a b) s = .next t) ∧
    (∀ ids uids jobs, s3.inFlight B = (ids, uids, jobs) → s3.quietUnder B = false →
      exec (.shoot d a b) s = .next (s4.setSlot s4.cur { s4.slot s4.cur with thread := (s4.slot s4.cur).thread.map (fun x => { x with
        park := some (.shoot (wordOf (.shoot d a b)) A ids uids jobs)
        resume := { x.resume with
          reply := some { value := word (min n 0xFFFFFFFF) }
          operands := some [] } }) }))

/-- 14 R344: after a shootdown no TLB of the package holds a translation that the descriptor matches. -/
def Sys2Proof.Statements.shootDropsTranslations : Prop :=
  ∀ (a b : Word) (s t : State) (n : Nat), Gives (shootDown a b) s n t →
    (∀ c, ∀ e ∈ (t.core c).tlb, shootMatches a b e = false) ∧ (∀ k, ∀ e ∈ (t.cluster k).tlb, shootMatches a b e = false) ∧
    (∀ c, ∀ e ∈ (t.core c).tlb, e ∈ (s.core c).tlb) ∧ t.mem = s.mem ∧ t.l2 = s.l2

/-- 14 R344: SHOOT completes with the number of translations that it dropped, and none that its descriptor matches is left. -/
def Obligations.ShootdownDropsTranslations : Prop :=
  shootCompletes ∧ shootDropsTranslations

/-- The words of a body's unit in order (02 R33, R34): an instruction word, after no, one or two prefix words, where a second PFX.MOD ends
the unit that it breaks. -/
def Sys2Proof.Statements.IsUnit (u : BodyUnit) : Prop :=
  (u.pre = [] ∧ isPrefix u.last = false) ∨
  (∃ p, u.pre = [p] ∧ isPrefix p = true ∧ (isPrefix u.last = false ∨ (opcodeOf p = 0xFF#8 ∧ opcodeOf u.last = 0xFF#8))) ∨
  (∃ p q, u.pre = [p, q] ∧ isPrefix p = true ∧ isPrefix q = true ∧ ¬(opcodeOf p = 0xFF#8 ∧ opcodeOf q = 0xFF#8))

/-- 02 R33, R34; 07 R163, R164: the words of a body make its units, the last word the last unit and no word before it; the units break
07 R163 where one does by itself, or where two are loads. -/
def Sys2Proof.Statements.bodyWordsMakeUnits : Prop :=
  (∀ us : List BodyUnit, (∀ u ∈ us, IsUnit u) →
    unitsOf us.length (us.flatMap (fun u => u.pre ++ [u.last])) = some us ∧
    ∀ m < (us.flatMap (fun u => u.pre ++ [u.last])).length,
      unitsOf us.length ((us.flatMap (fun u => u.pre ++ [u.last])).take m) = none) ∧
  (∀ (win : Nat) (d : BitVec 8) (us : List BodyUnit), firstBreach win d false us = none ↔
    (∀ u ∈ us, unitOk win d u = true) ∧ (us.filter BodyUnit.loads).length ≤ 1) ∧
  (∀ (win : Nat) (d : BitVec 8) (us vs : List BodyUnit) (u : BodyUnit), firstBreach win d false us = none → unitOk win d u = false →
    firstBreach win d false (us ++ u :: vs) = some u.first)

/-- An RCP of a formula name whose thread has come to the fetching of its body, with the words fetched up to now (07 R164). -/
structure Sys2Proof.Statements.Forming (d : BitVec 8) (k : BitVec 16) (s : State) (x : Thread) (ws : List IWord) : Prop where
  issues : Issues (.rcp d k) s
  thread : s.thread s.cur = some x
  name : x.win ≤ d.toNat
  fetched : x.resume.body = some ws

/-- 07 R162 to R171; 12 R285: RCP takes a turn for its own word, one for each word of its body, and in the last forms a recipe of the units
where steps are free, or sets FULL, and goes on past them; RCPFREE frees one; RCPQ reports one. -/
def Sys2Proof.Statements.recipesComplete : Prop :=
  (∀ (d : BitVec 8) (k : BitVec 16) (s : State) (x : Thread), Issues (.rcp d k) s → s.thread s.cur = some x → x.win ≤ d.toNat →
    x.resume.body = none →
    exec (.rcp d k) s = .next (s.setSlot s.cur { s.slot s.cur with thread := some { x with resume := { x.resume with body := some [] } } })) ∧
  (∀ (d : BitVec 8) (k : BitVec 16) (s s1 : State) (x y : Thread) (ws : List IWord) (w : IWord), Forming d k s x ws →
    Gives (fetchBody x.pc.toNat (ws.length + 1)) s w s1 → unitsOf k.toNat (ws ++ [w]) = none → s1.thread s1.cur = some y →
    exec (.rcp d k) s = .next (s1.setSlot s1.cur { s1.slot s1.cur with
      thread := some { y with resume := { y.resume with body := some (ws ++ [w]) } } })) ∧
  (∀ (d : BitVec 8) (k : BitVec 16) (s s1 s2 t : State) (x y : Thread) (ws : List IWord) (w : IWord) (us : List BodyUnit),
    Forming d k s x ws → Gives (fetchBody x.pc.toNat (ws.length + 1)) s w s1 → unitsOf k.toNat (ws ++ [w]) = some us →
    firstBreach x.win d false us = none → s1.errs = [] → s1.thread s1.cur = some y → y.win = x.win →
    s2 = s1.setSlot s1.cur { s1.slot s1.cur with thread := some { y with recipes := del y.recipes d.toNat } } →
    (us.length ≤ s2.freeSteps (coreOf s1.cur) { y with recipes := del y.recipes d.toNat } →
      Gives (retire (2 + ws.length)) (s1.setSlot s1.cur { s1.slot s1.cur with thread := some { y with
        recipes := put (del y.recipes d.toNat) d.toNat
          { rm := BitVec.ofNat 3 (bits (s1.slot s1.cur).tstat 2 0), stale := false, body := us.map (·.step) }
        bst := 0 } }) () t → exec (.rcp d k) s = .next t) ∧
    (s2.freeSteps (coreOf s1.cur) { y with recipes := del y.recipes d.toNat } < us.length →
      Gives (retire (2 + ws.length)) (s1.setSlot s1.cur { s1.slot s1.cur with thread := some { y with
        recipes := del y.recipes d.toNat
        bst := 1 } }) () t → exec (.rcp d k) s = .next t)) ∧
  (∀ (d : BitVec 8) (s t : State) (x : Thread) (r : Recipe), Issues (.rcpfree d) s → s.thread s.cur = some x → x.win ≤ d.toNat →
    d.toNat < 240 → find x.recipes d.toNat = some r →
    Retires (s.setSlot s.cur { s.slot s.cur with thread := some { x with
      recipes := del x.recipes d.toNat
      bst := 0 } }) t → exec (.rcpfree d) s = .next t) ∧
  (∀ (d : BitVec 8) (s t : State) (x : Thread), Issues (.rcpfree d) s → s.thread s.cur = some x → x.win ≤ d.toNat →
    d.toNat < 240 → find x.recipes d.toNat = none →
    Retires (s.setSlot s.cur { s.slot s.cur with thread := some { x with bst := 3 } }) t → exec (.rcpfree d) s = .next t) ∧
  (∀ (d a : BitVec 8) (s s1 t : State) (x : Thread), Issues (.rcpq d a) s → s.thread s.cur = some x →
    Gives (writeName (wordOf (.rcpq d a)) d (recipeWord (if a.toNat < x.win ∨ 240 ≤ a.toNat then none else find x.recipes a.toNat)
      (s.freeSteps (coreOf s.cur) x) x.steps)) s () s1 → Retires s1 t → exec (.rcpq d a) s = .next t)

/-- 07 R164; 15 R372: the traps of RCP outside trap mode. A name that is no formula name and a count that is not 1 to 4 are illegal with
RCP's word; a unit that breaks R163 is illegal with its first word; a word that cannot be fetched faults with its own cause and address. In
each the length counts the words fetched after RCP's, and no binding changes, as the state of a taken trap says. -/
def Sys2Proof.Statements.recipesTrap : Prop :=
  (∀ (d : BitVec 8) (k : BitVec 16) (s : State) (x : Thread), s.thread s.cur = some x → x.park = none → x.role = .single →
    prv (s.slot s.cur).tstat = false → (240 ≤ d.toNat ∨ d.toNat < 8 ∨ k = 0 ∨ 4 < k.toNat ∨ (Issues (.rcp d k) s ∧ d.toNat < x.win)) →
    exec (.rcp d k) s = .next (s.takeTrap s.cur x { cause := 2, value := (0xB0#8 ++ d ++ k).setWidth 64 })) ∧
  (∀ (d : BitVec 8) (k : BitVec 16) (s s1 : State) (x y : Thread) (ws : List IWord) (w bad : IWord) (us : List BodyUnit),
    Forming d k s x ws → x.role = .single → prv (s.slot s.cur).tstat = false →
    Gives (fetchBody x.pc.toNat (ws.length + 1)) s w s1 → s1.thread s1.cur = some y → y.win = x.win →
    unitsOf k.toNat (ws ++ [w]) = some us → firstBreach x.win d false us = some bad →
    exec (.rcp d k) s = .next (s.takeTrap s.cur x { cause := 2, value := bad.setWidth 64, extra := ws.length + 1 })) ∧
  (∀ (d : BitVec 8) (k : BitVec 16) (s : State) (x : Thread) (ws : List IWord) (f : TrapInfo),
    Forming d k s x ws → x.role = .single → prv (s.slot s.cur).tstat = false →
    fetchAt (word (x.pc.toNat + 4 * (ws.length + 1))) s = .error (.trap f) →
    exec (.rcp d k) s = .next (s.takeTrap s.cur x { f with extra := ws.length + 1 })) ∧
  (∀ (s : State) (tid : Nat) (x : Thread) (f : TrapInfo), s.thread tid = some x →
    ((s.takeTrap tid x f).thread tid).map (·.recipes) = some x.recipes)

/-- What a step of a body gives (07 R163, R165): of the instructions that a body may hold, loads apart, the value and the flags, from the
unit's latch, the recipe's rounding mode, the running value and what the sources read. Float steps are FP32; the fused ones take the running
value as C. -/
def Sys2Proof.Statements.stepResult (i : Instr) (l : Latch) (mode : Nat) (run : Word) (rd : BitVec 8 → Word) : Option (Word × Flags) :=
  if isBodyOp i = false then none
  else match integerPair i, integerOne i, floatPair i, fused i with
    | some (_, a, b, f), _, _, _ => some (f (rd a) (rd b), 0)
    | _, some (_, a, f), _, _ => some (f l (rd a), 0)
    | _, _, some (_, a, b, f), _ =>
      let r := f {} Fmt.fp32 mode (operand Fmt.fp32 (rd a)) (operand Fmt.fp32 (rd b))
      some (word r.1, r.2)
    | _, _, _, some (_, a, b, neg) =>
      let r := Fmt.fp32.fma mode (operand Fmt.fp32 (rd a)) (operand Fmt.fp32 (rd b)) (operand Fmt.fp32 run) neg
      some (word r.1, r.2)
    | _, _, _, _ => match i with
      | .ldi _ k => some (assembled l 16 k.toNat, 0)
      | .fcvt _ a k => some (fcvt mode (k.toNat / 16) (k.toNat % 16) (rd a))
      | _ => none

/-- What a source of a step reads (07 R163, R165): the recipe's own name the running value, a resident name its register, tid the home
slot, zr 0. -/
def Sys2Proof.Statements.stepSource (s : State) (x : Thread) (name : Nat) (run : Word) (n : BitVec 8) : Word :=
  if n.toNat = name then run
  else if n.toNat < x.win then s.resident x n.toNat
  else if n = 247#8 then word x.home
  else 0

/-- The prefix words of a step as its latch has them. -/
def Sys2Proof.Statements.stepLatch (st : RecipeStep) : Latch := if st.px then { imm := st.hi.setWidth 48, nimm := 1 } else {}

/-- A thread that issues alone reads a formula name, and its step is met where no soft error and no poison stands in the way. -/
structure Sys2Proof.Statements.Replays (s : State) (x : Thread) (name : Nat) (st : RecipeStep) (i : Instr) : Prop where
  thread : s.thread s.cur = some x
  single : x.role = .single
  window : x.win ≤ name ∧ name < 240 ∧ x.win ≤ 240
  sound : s.errs = []
  clean : ∀ k < x.win, (findD (s.core (coreOf s.cur)).rf {} (x.wbase + k)).poison = false
  whole : st.poison = false
  decodes : decodeWord st.iw = .ok i
  allowed : ∀ n ∈ sources i, n.toNat = name ∨ n.toNat < x.win ∨ n = 247#8 ∨ n = 255#8

/-- 07 R163, R165, R166: a step of a replay takes what it reads from the running value, the resident names, tid and zr, and its result is the
running value of the next one; its flags are gathered. Each step waits for a turn of the thread. -/
def Sys2Proof.Statements.replayStepsGoOn : Prop :=
  (∀ (name k : Nat) (rm : BitVec 3) (run : Word) (fl : Flags) (s : State), Gives (replaySteps name rm k [] run fl) s (run, fl) s) ∧
  (∀ (name k : Nat) (rm : BitVec 3) (st : RecipeStep) (rest : List RecipeStep) (run v : Word) (fl g : Flags) (i : Instr) (s : State)
    (x : Thread), Replays s x name st i → stepResult i (stepLatch st) (min rm.toNat 4) run (stepSource s x name run) = some (v, g) →
    (x.resume.ran < x.resume.turns → replaySteps name rm k (st :: rest) run fl s =
      replaySteps name rm (k + 1) rest v (fl ||| g) (s.setSlot s.cur { s.slot s.cur with
        thread := some { x with resume := { x.resume with ran := x.resume.ran + 1 } } })) ∧
    (x.resume.turns ≤ x.resume.ran → replaySteps name rm k (st :: rest) run fl s = .error (.turn x.resume.served)))

/-- 07 R165, R167; 10 R230: the load step of a replay: out of range, misaligned, in the aperture and from a page that is not RSHR it faults
with its cause, its address, the recipe's name and its number; a page that no TLB holds parks the thread for its walk with them, and one
that forbids the load faults; from a line that the core's L1 holds it gives the bytes at its address, extended. -/
def Sys2Proof.Statements.replayLoadsGoOn : Prop :=
  ∀ (name k : Nat) (rm : BitVec 3) (st : RecipeStep) (rest : List RecipeStep) (run ea : Word) (fl : Flags) (i : Instr) (s : State)
    (x : Thread) (d a m : BitVec 8) (size : Nat) (signed ro : Bool), Replays s x name st i → loadOf i = some (d, a, m, size, signed, ro) →
    ea = stepSource s x name run a + word size * assembled (stepLatch st) 8 m.toNat →
    (outside ea = true → replaySteps name rm k (st :: rest) run fl s =
      .error (.trap { cause := 5, value := ea, replay := some (name, k), entered := x.resume.entered })) ∧
    (outside ea = false → ea.toNat % size ≠ 0 → replaySteps name rm k (st :: rest) run fl s =
      .error (.trap { cause := 4, value := ea, replay := some (name, k), entered := x.resume.entered })) ∧
    (Addressed ea size → inAperture ea = true → replaySteps name rm k (st :: rest) run fl s =
      .error (.trap { cause := 5, value := ea, replay := some (name, k), entered := x.resume.entered })) ∧
    (Addressed ea size → inAperture ea = false → tlbFind (s.core (coreOf s.cur)).tlb x.ctx ea.toNat = none →
      tlbFind (s.cluster (clusterOf (coreOf s.cur))).tlb x.ctx ea.toNat = none →
      replaySteps name rm k (st :: rest) run fl s = .error (.park (.walk ea 0 (some (name, k))))) ∧
    (∀ e, Addressed ea size → inAperture ea = false → tlbFind (s.core (coreOf s.cur)).tlb x.ctx ea.toNat = some e →
      permits e.leaf 0 (!prv (s.slot s.cur).tstat) = false → replaySteps name rm k (st :: rest) run fl s =
      .error (.trap { cause := 13, value := ea, replay := some (name, k), entered := x.resume.entered })) ∧
    (∀ p, Addressed ea size → inAperture ea = false → Mapped s x ea 0 p → p.attr ≠ .rshr → replaySteps name rm k (st :: rest) run fl s =
      .error (.trap { cause := 5, value := ea, replay := some (name, k), entered := x.resume.entered })) ∧
    (∀ (p : Page) (y : L1Line), Addressed ea size → inAperture ea = false → Mapped s x ea 0 p → p.attr = .rshr → x.resume.served = [] →
      s.olderDone (coreOf s.cur) x = true →
      s.buffered (coreOf s.cur) x (p.pa / 32) .rshr (maskOf (p.pa % 32) size) s.fresh = [] →
      find (s.core (coreOf s.cur)).l1 (l1Key (p.pa / 32) .rshr) = some y → y.poison = false →
      (x.resume.ran < x.resume.turns → ∃ l, replaySteps name rm k (st :: rest) run fl s =
        replaySteps name rm (k + 1) rest (extendBytes size signed (fromByte y.data (p.pa % 32))) fl
          (s.setSlot s.cur { s.slot s.cur with thread := some { x with resume := { x.resume with
            served := [l]
            ran := x.resume.ran + 1 } } })) ∧
      (x.resume.turns ≤ x.resume.ran → ∃ l, replaySteps name rm k (st :: rest) run fl s = .error (.turn [l]) ∧ l.line = p.pa / 32 ∧
        l.data = y.data))

/-- 07 R165, R168; 12 R285: reading a formula name with no recipe is illegal, one whose recipe is stale takes the trap with cause 24 and
the name; else it replays the body from a running value of 0 and raises the flags that the steps gather. A recipe of one ADDI of a resident
name gives the sum each time it is read, and raises no flag, once the thread has had a turn for its step, and waits for one before. -/
def Sys2Proof.Statements.formulaNamesReplay : Prop :=
  ∀ (w : IWord) (n a k : BitVec 8) (s : State) (x : Thread), s.thread s.cur = some x → x.win ≤ n.toNat → n.toNat < 240 →
    (find x.recipes n.toNat = none →
      readName w n s = .error (.trap { cause := 2, value := w.setWidth 64, entered := x.resume.entered })) ∧
    (∀ r, find x.recipes n.toNat = some r → r.stale = true →
      readName w n s = .error (.trap { cause := 24, value := word n.toNat, entered := x.resume.entered })) ∧
    (∀ r, find x.recipes n.toNat = some r → r.stale = false → s.errs = [] →
      (∀ v fl s1 s2, Gives (replaySteps n.toNat r.rm 0 r.body 0 0) s (v, fl) s1 → Gives (raiseFlags fl) s1 () s2 →
        Gives (readName w n) s v s2) ∧
      (∀ e, replaySteps n.toNat r.rm 0 r.body 0 0 s = .error e → readName w n s = .error e)) ∧
    (s.errs = [] → a.toNat < x.win → (findD (s.core (coreOf s.cur)).rf {} (x.wbase + a.toNat)).poison = false →
      find x.recipes n.toNat = some { rm := 0, stale := false, body := [{ px := false, hi := 0, iw := wordOf (.addi n a k), poison := false }] } →
      (x.resume.ran < x.resume.turns → Gives (readName w n) s (s.resident x a.toNat + k.signExtend 64)
        (s.setSlot s.cur { s.slot s.cur with thread := some { x with resume := { x.resume with ran := x.resume.ran + 1 } } })) ∧
      (x.resume.turns ≤ x.resume.ran → readName w n s = .error (.turn x.resume.served)))

/-- 07 R162 to R171; 12 R285: RCP, RCPFREE and RCPQ complete, with the traps of RCP, and a formula name reads as its recipe's steps, one
after the other, say. -/
def Obligations.RecipesFormedAndReplayed : Prop :=
  bodyWordsMakeUnits ∧ recipesComplete ∧ recipesTrap ∧ replayStepsGoOn ∧ replayLoadsGoOn ∧ formulaNamesReplay

/-- 06 R158; 10 R248, R255: an engine command whose engine has answered goes on with the identity and the status; one that has none yet
parks for its engine, with the words of its parameter group, and goes on with them (02 R54). -/
def Sys2Proof.Statements.engineCommandsComplete : Prop :=
  ∀ (i : Instr) (kind : Nat) (d n : BitVec 8), ((i = .mm d n ∧ kind = 0) ∨ (i = .mms d n ∧ kind = 1) ∨ (i = .cpy d n ∧ kind = 2) ∨
      (i = .coll d n ∧ kind = 3)) →
  ∀ (s s1 s2 : State) (x y : Thread) (ws : List Word), Issues i s → s.thread s.cur = some x →
    Gives (readGroupOnce 0 (wordOf i) n) s ws s1 → Gives waitOlder s1 () s2 → ¬(d = 251#8 ∧ (s2.slot s2.cur).compose = []) →
    s2.thread s2.cur = some y → y.role = .single →
    (∀ r s3 s4 t, y.resume.reply = some r → Gives (raisePts r.time) s2 () s3 → Gives (writeName (wordOf i) d r.value) s3 () s4 →
      Retires (s4.setSlot s4.cur { s4.slot s4.cur with
        thread := (s4.slot s4.cur).thread.map (fun x => { x with bst := BitVec.ofNat 3 r.status }) }) t →
      exec i s = .next t) ∧
    (y.resume.reply = none → y.resume.entered = [] → y.pc.toNat + 4 < 2 ^ 55 → exec i s = .next (s.setSlot s.cur { s.slot s.cur with
      thread := some { x with
        park := some (.engine kind ws (d ≠ 247#8 ∧ d ≠ 254#8 ∧ d ≠ 255#8))
        resume := { x.resume with
          operands := some ws
          flags := bits (s2.slot s2.cur).tstat 7 3 } } }))

/-- A core's status table holds no entry of an identity any more, and nothing else has changed (06 R160, R161). -/
def Sys2Proof.Statements.EntryFreed (s t : State) (core id : Nat) : Prop :=
  t = s.setCore core { s.core core with status := (s.core core).status.filter (fun e => e.jid != id) }

/-- 06 R160, R161: JWAIT and JPOLL of a job that has ended give its status word, JWAIT freeing the entry for which no other JWAIT still
waits; JPOLL of one under way gives 1, and JWAIT parks for it with its operand; an identity that names no entry of the thread gives 8. -/
def Sys2Proof.Statements.jobStatusCompletes : Prop :=
  (∀ (d a : BitVec 8) (s s1 s2 s3 t : State) (A v : Word), Issues (.jwait d a) s → Gives (readOnce 0 (wordOf (.jwait d a)) a) s A s1 →
    Gives (enterWord 44 A (jobWord true A)) s1 v s2 → Gives (writeName (wordOf (.jwait d a)) d v) s2 () s3 → Retires s3 t →
    exec (.jwait d a) s = .next t) ∧
  (∀ (d a : BitVec 8) (s s1 s2 s3 t : State) (A v : Word), Issues (.jpoll d a) s → Gives (readName (wordOf (.jpoll d a)) a) s A s1 →
    Gives (enterWord 45 A (jobWord false A)) s1 v s2 → Gives (writeName (wordOf (.jpoll d a)) d v) s2 () s3 → Retires s3 t →
    exec (.jpoll d a) s = .next t) ∧
  (∀ (A : Word) (id core : Nat) (s : State) (x : Thread), s.thread s.cur = some x → x.resume.reply = none → id = bits A 15 0 →
    core = coreOf s.cur →
    (s.statusOf core x id = none → Gives (jobWord true A) s 8 s ∧ Gives (jobWord false A) s 8 s) ∧
    (∀ e, s.statusOf core x id = some e → e.ended = none → Gives (jobWord false A) s 1 s ∧
      jobWord true A s = .error (.begun (.job id) [A] (bits (s.slot s.cur).tstat 7 3) x.resume.entered)) ∧
    (∀ e w u s1, s.statusOf core x id = some e → e.ended = some (w, u) → Gives (raisePts u) s () s1 → Gives (jobWord false A) s w s1 ∧
      ((∀ f ∈ (s1.core core).status, f.jid = id → ∀ v ∈ f.waiting, v = x.uid ∨ ∀ p, s1.byUid v = some p → p.2.resume.reply = none) →
        ∃ t, Gives (jobWord true A) s w t ∧ EntryFreed s1 t core id))) ∧
  (∀ (A : Word) (id core : Nat) (s s1 : State) (x : Thread) (r : Reply), s.thread s.cur = some x → x.resume.reply = some r →
    id = bits A 15 0 → core = coreOf s.cur → Gives (raisePts r.time) s () s1 →
    (∀ f ∈ (s1.core core).status, f.jid = id → ∀ v ∈ f.waiting, v = x.uid ∨ ∀ p, s1.byUid v = some p → p.2.resume.reply = none) →
    ∃ t, Gives (jobWord true A) s r.value t ∧ EntryFreed s1 t core id)

/-- 06 R158, R160, R161; 10 R248, R255: MM, MMS, CPY, COLL, JWAIT and JPOLL complete. -/
def Obligations.EngineInstructionsComplete : Prop :=
  engineCommandsComplete ∧ jobStatusCompletes

/-- 13 R332; 12 R302, R303: MIGR. One that stays, or returns, writes 1; one whose target has no place for its thread writes 0; else the thread
departs and completes at its target with 1, where its destination has not been written before it left (notes/assumptions/62.md). A guest
goes home once its older accesses are done. -/
def Sys2Proof.Statements.migrationsComplete : Prop :=
  (∀ (d a : BitVec 8) (s s1 t : State) (x : Thread) (r : Reply), Issues (.migr d a) s → s.thread s.cur = some x →
    x.resume.reply = some r →
    (r.value = 1 → Gives (writeName (wordOf (.migr d a)) d 1) s () s1 → Retires s1 t → exec (.migr d a) s = .next t) ∧
    (r.value ≠ 1 → Retires s t → exec (.migr d a) s = .next t)) ∧
  (∀ (d a : BitVec 8) (s s1 s2 s3 t : State) (x : Thread) (A : Word) (core : Nat), Issues (.migr d a) s → s.thread s.cur = some x →
    Gives (readName (wordOf (.migr d a)) a) s A s1 → x.resume.reply = none → Gives (migrTarget x A) s1 core s2 →
    ((A ≠ 0 ∧ core = coreOf s2.cur) ∨ (A = 0 ∧ (s2.slot s2.cur).state ≠ .guest)) →
    Gives (writeName (wordOf (.migr d a)) d 1) s2 () s3 → Retires s3 t → exec (.migr d a) s = .next t) ∧
  (∀ (d a : BitVec 8) (s s1 s2 : State) (x : Thread) (A : Word) (core : Nat), Issues (.migr d a) s → s.thread s.cur = some x →
    Gives (readName (wordOf (.migr d a)) a) s A s1 → x.resume.reply = none → Gives (migrTarget x A) s1 core s2 →
    ¬(d = 251#8 ∧ (s2.slot s2.cur).compose = []) → x.pc.toNat + 4 < 2 ^ 55 →
    (∀ t, A ≠ 0 → core ≠ coreOf s2.cur → s2.mayMigrate x = true → (s2.guestPlace x core).isSome = true →
      Gives (depart (wordOf (.migr d a)) d core (coreOf x.home = core)) s2 () t → exec (.migr d a) s = .next t) ∧
    (∀ s3 t, A ≠ 0 → core ≠ coreOf s2.cur → (s2.mayMigrate x = false ∨ s2.guestPlace x core = none) →
      Gives (writeName (wordOf (.migr d a)) d 0) s2 () s3 → Retires s3 t → exec (.migr d a) s = .next t) ∧
    (∀ t, A = 0 → (s2.slot s2.cur).state = .guest → s2.olderDone (coreOf s2.cur) x = true →
      Gives (depart (wordOf (.migr d a)) d 0 true) s2 () t → exec (.migr d a) s = .next t)) ∧
  (∀ (w : IWord) (d : BitVec 8) (core tid : Nat) (home : Bool) (s s1 s2 : State) (x y : Thread), s.thread s.cur = some x →
    Gives (if needsHome d && !home then writeName w d 1 else pure ()) s () s1 → (s1.thread s1.cur).map (·.uid) = some x.uid →
    Gives (sendAway s1.cur core home) s1 () s2 → s2.threads.find? (fun p => p.2.uid = x.uid) = some (tid, y) → s2.thread tid = some y →
    Gives (depart w d core home) s () (s2.setSlot tid { s2.slot tid with thread := some { y with resume := { y.resume with
      reply := some { value := if needsHome d && !home then 0 else 1 }
      operands := some [] } } }))

/-- 13 R318 to R332: the thread and message instructions go on with what their sideboard, interface or target answers. WAITW of the
stages of its launch waits at the sideboard, and BARRIER arrives and waits; the events that end these waits are in
SideboardEventsComplete. LWAIT of a launch that has not ended parks with its operand. A pair's EXIT takes both threads away at once. That
YIELD completes with older stores pending, and that the wait for them is the save's own (15 R375), is the model's reading of R324:
notes/assumptions/35.md. -/
def Obligations.ThreadInstructionsComplete : Prop :=
  (∀ (d a n : BitVec 8) (s s1 s2 s3 s4 s5 t : State) (A v : Word) (vs ws : List Word), Issues (.spawn d a n) s →
    Gives (readOnce 0 (wordOf (.spawn d a n)) a) s A s1 → Gives (readGroupOnce 1 (wordOf (.spawn d a n)) n) s1 ws s2 →
    Gives waitOlder s2 () s3 → Gives (outward { kind := 30, addr := 0, size := 8, data := A :: ws }
      (do return (← atSideboard (spawnAt A ws), [])) (some (A :: ws))) s3 (v, vs) s4 →
    Gives (writeName (wordOf (.spawn d a n)) d v) s4 () s5 → Retires s5 t → exec (.spawn d a n) s = .next t) ∧
  (∀ (d a n : BitVec 8) (s s1 s2 s3 s4 s5 t : State) (A v : Word) (vs ws : List Word), Issues (.post d a n) s →
    Gives (readOnce 0 (wordOf (.post d a n)) a) s A s1 → Gives (readGroupOnce 1 (wordOf (.post d a n)) n) s1 ws s2 →
    Gives waitOlder s2 () s3 → Gives (outward { kind := 31, addr := 0, size := 8, data := A :: ws }
      (do return (← atSideboard (postAt A ws), [])) (some (A :: ws))) s3 (v, vs) s4 →
    Gives (writeName (wordOf (.post d a n)) d v) s4 () s5 → Retires s5 t → exec (.post d a n) s = .next t) ∧
  (∀ (d : BitVec 8) (m : BitVec 16) (s : State) (x : Thread), Issues (.waitw d m) s → s.thread s.cur = some x → x.role = .single →
    m ≠ 0 → x.pc.toNat + 4 < 2 ^ 55 → ¬(d = 251#8 ∧ (s.slot s.cur).compose = []) →
    (∀ n < 16, m.getLsbD n = true → (s.stage (clusterOf (coreOf s.cur)) n).launch = x.launch) →
    exec (.waitw d m) s = .next ((s.setSlot s.cur { s.slot s.cur with thread := some { x with park := some (.work d m false) } }).setCluster
      (clusterOf (coreOf s.cur)) { s.cluster (clusterOf (coreOf s.cur)) with
        waiters := (s.cluster (clusterOf (coreOf s.cur))).waiters ++ [x.uid] })) ∧
  (∀ (d : BitVec 8) (m : BitVec 16) (s s1 s2 t : State) (x : Thread), Issues (.waitw d m) s → s.thread s.cur = some x →
    x.role = .single → x.pc.toNat + 4 < 2 ^ 55 → ¬(d = 251#8 ∧ (s.slot s.cur).compose = []) →
    (m = 0 ∨ ∃ n < 16, m.getLsbD n = true ∧ (s.stage (clusterOf (coreOf s.cur)) n).launch ≠ x.launch) →
    Gives (denied (m.setWidth 64)) s () s1 →
    Gives (writeName (wordOf (.waitw d m)) d 0) (s1.setSlot s1.cur { s1.slot s1.cur with
      thread := (s1.slot s1.cur).thread.map (fun x => { x with bst := 4 }) }) () s2 → Retires s2 t → exec (.waitw d m) s = .next t) ∧
  (∀ (s s2 t : State) (x : Thread), Issues .exit s → s.thread s.cur = some x → x.role = .single → Gives waitStores s () s →
    Gives (leave s.cur .exit) s () s2 → Gives (freeSlots s.cur x) s2 () t → exec .exit s = .next t) ∧
  (∀ (s s1 s2 s3 t : State) (x y z : Thread), Issues .exit s → s.thread s.cur = some x → s.partner s.cur = some y →
    Gives waitStores s () s → x.released = some { kind := 33, addr := 0, size := 0, data := [] } →
    Gives (leave (partnerOf s.cur) .exit) s () s1 → Gives (freeSlots (partnerOf s.cur) y) s1 () s2 → s2.thread s2.cur = some z →
    s2.cur = s.cur → Gives (leave s.cur .exit) s2 () s3 → Gives (freeSlots s.cur z) s3 () t → exec .exit s = .next t) ∧
  (∀ (s s1 t : State) (x : Thread), Issues .yield s → s.thread s.cur = some x → x.role = .single → Retires s s1 → Gives (requestSave s1.cur 2) s1 () t → exec .yield s = .next t) ∧
  (∀ (d a : BitVec 8) (s s1 s2 s3 s4 t : State) (A v : Word) (vs : List Word), Issues (.launch d a) s →
    Gives (readOnce 0 (wordOf (.launch d a)) a) s A s1 → Gives waitOlder s1 () s2 →
    Gives (outward { kind := 35, addr := A, size := 8, data := [] } (do return (← atSideboard (launchAt A), [])) (some [A])) s2 (v, vs) s3 →
    Gives (writeName (wordOf (.launch d a)) d v) s3 () s4 → Retires s4 t → exec (.launch d a) s = .next t) ∧
  (∀ (d a : BitVec 8) (s s1 s2 s3 t : State) (x : Thread) (A v : Word), Issues (.lwait d a) s → s.thread s.cur = some x →
    Gives (readOnce 0 (wordOf (.lwait d a)) a) s A s1 → Gives (enterWord 36 A (lwaitAt x A x.latch.aux)) s1 v s2 →
    Gives (writeName (wordOf (.lwait d a)) d v) s2 () s3 → Retires s3 t → exec (.lwait d a) s = .next t) ∧
  (∀ (A : Word) (aux : Nat) (s : State) (x : Thread) (l own : Launch), s.thread s.cur = some x → x.resume.reply = none →
    x.pc.toNat + 4 < 2 ^ 55 → s.named x A = some l → l.ctx = x.ctx → aux % 2 = 0 → l.handle ≠ x.launch →
    find s.launches x.launch = some own → l.job ≠ own.job →
    (l.state.ended = false →
      lwaitAt x A aux s = .error (.begun (.launch l.handle) [A] (bits (s.slot s.cur).tstat 7 3) x.resume.entered)) ∧
    (∀ s1, l.state.ended = true → Gives (raisePts l.time) s () s1 →
      Gives (lwaitAt x A aux) s (l.report (aux / 2)) { s1 with launches := del s1.launches l.handle })) ∧
  (∀ (d a : BitVec 8) (s s1 s2 s3 s4 s5 t : State) (x y : Thread) (A v : Word) (vs : List Word), Issues (.cancel d a) s →
    s.thread s.cur = some x → Gives (readOnce 0 (wordOf (.cancel d a)) a) s A s1 → Gives waitOlder s1 () s2 →
    s2.thread s2.cur = some y → Gives (outward { kind := 37, addr := 0, size := 8, data := [A, truth (x.latch.aux = 1)] }
      (do return (← atSideboard (cancelAt y A (x.latch.aux = 1)), [])) (some [A])) s2 (v, vs) s3 →
    Gives (writeName (wordOf (.cancel d a)) d v) s3 () s4 → Retires s4 s5 →
    (v ≠ 1 → exec (.cancel d a) s = .next s5) ∧
    (∀ l, v = 1 → y.role = .single → s5.named y A = some l →
      Gives ((s5.cancelTargets l (x.latch.aux = 1)).forM (fun m => cancelLaunch m.handle)) s5 () t → exec (.cancel d a) s = .next t)) ∧
  (∀ (d : BitVec 8) (s t : State) (x : Thread), Issues (.barrier d) s → Gives waitOlder s () s → s.thread s.cur = some x →
    x.role = .single → x.resume.entered = [] → x.pc.toNat + 4 < 2 ^ 55 → ¬(d = 251#8 ∧ (s.slot s.cur).compose = []) →
    Gives (report (clusterOf (coreOf s.cur)) x.launch 3 x.uid (s.pts (coreOf s.cur)))
      (s.setSlot s.cur { s.slot s.cur with thread := some { x with
        park := some (.barrier d)
        resume := { x.resume with
          operands := some []
          flags := bits (s.slot s.cur).tstat 7 3 } } }) () t →
    exec (.barrier d) s = .next t) ∧
  (∀ (d a : BitVec 8) (s s1 s2 s3 s4 t : State) (y : Thread) (A v : Word) (vs : List Word), Issues (.epbind d a) s →
    Gives (readOnce 0 (wordOf (.epbind d a)) a) s A s1 → Gives waitOlder s1 () s2 → s2.thread s2.cur = some y →
    Gives (outward { kind := 39, addr := 0, size := 8, data := [A] } (do return (← epbindAt y A, [])) (some [A])) s2 (v, vs) s3 →
    Gives (writeName (wordOf (.epbind d a)) d v) s3 () s4 → Retires s4 t → exec (.epbind d a) s = .next t) ∧
  migrationsComplete

/-- 14 R341 to R343: PAGE_WALK of a thread that waits for one, whose walk is one of the 32 oldest of its cluster: a leaf fills both TLBs,
and the thread is ready with every other that waits for the page; an absent entry takes the page fault of the access; both leave the
walker's queue. A walk that 32 others come before does not run. -/
def Sys2Proof.Statements.pageWalkCompletes : Prop :=
  (∀ (tid : Nat) (s : State) (x : Thread) (va : Word) (kind : Nat), tid < 262144 → s.thread tid = some x →
    x.park = some (.walk va kind none) →
    32 ≤ ((s.liveWalks (clusterOf (coreOf tid))).takeWhile (fun w => w != (x.ctx, va.toNat % 2 ^ 55 / pageSize 3))).length →
    exec (.pageWalk tid) s = .next s) ∧
  ∀ (tid : Nat) (s s1 : State) (x : Thread) (va : Word) (kind : Nat), tid < 262144 → s.thread tid = some x →
    x.park = some (.walk va kind none) →
    s.walkTurn (clusterOf (coreOf tid)) x.ctx (va.toNat % 2 ^ 55 / pageSize 3) = true → s1.thread tid = some x →
    (∀ level w, Gives (walk (s.rootOf (coreOf tid) x.ctx) va.toNat) s (.leaf level w) s1 →
      ∃ t e, exec (.pageWalk tid) s = .next t ∧ e = { ctx := x.ctx, level := level, page := va.toNat % 2 ^ 55 / pageSize level, leaf := w } ∧
        t.thread tid = some { x with park := none } ∧ (t.core (coreOf tid)).tlb.head? = some e ∧
        (t.cluster (clusterOf (coreOf tid))).tlb.head? = some e ∧ t.mem = s1.mem ∧ t.l2 = s1.l2 ∧
        (∀ w ∈ (t.cluster (clusterOf (coreOf tid))).walks, w ∈ s1.liveWalks (clusterOf (coreOf tid))) ∧
        (∀ m ∈ (t.cluster (clusterOf (coreOf tid))).asked, m ∈ (s1.cluster (clusterOf (coreOf tid))).asked ∧
          m.waits x.ctx (va.toNat % 2 ^ 55 / pageSize 3) = false) ∧
        (∀ m ∈ s1.misses (clusterOf (coreOf tid)) x.ctx level (va.toNat % 2 ^ 55 / pageSize level), ∀ y, s1.thread m.1 = some y →
          t.thread m.1 = some { y with park := none })) ∧
    (∀ s2 s3 t, Gives (walk (s.rootOf (coreOf tid) x.ctx) va.toNat) s .absent s1 →
      s.misses (clusterOf (coreOf tid)) x.ctx 3 (va.toNat % 2 ^ 55 / pageSize 3) = [(tid, va, kind, none)] →
      Gives (settle tid (.trap { cause := pageFault kind, value := va, extra := if kind = 2 then (va.toNat - x.pc.toNat) / 4 else 0 })) s1 () s2 →
      s3 = s2.setCluster (clusterOf (coreOf tid)) { s2.cluster (clusterOf (coreOf tid)) with
        asked := (s2.cluster (clusterOf (coreOf tid))).asked.map (fun m =>
          if m.waits x.ctx (va.toNat % 2 ^ 55 / pageSize 3) then { m with ended := some false } else m) } →
      t = s3.setCluster (clusterOf (coreOf tid)) { s3.cluster (clusterOf (coreOf tid)) with
        walks := s3.liveWalks (clusterOf (coreOf tid)) } → exec (.pageWalk tid) s = .next t)

/-- 14 R343: a miss of an engine's job that 32 walks come before waits in the walker's queue, and the event does no more; an absent result of
the walk that it joined ends it, and its engine takes that up. -/
def Sys2Proof.Statements.engineMissesQueue : Prop :=
  (∀ (core ctx va kind jid : Nat) (copy : Bool) (s : State) (k page : Nat) (m : EngineMiss), k = clusterOf core → page = va % 2 ^ 55 / pageSize 3 →
    m = { ctx := ctx, page := page, copy := copy, jid := jid } → (s.cluster k).asked.all (fun n => n.ended.isNone) = true →
    tlbFind (s.cluster k).tlb ctx va = none → s.walkTurn k ctx page = false →
    engineXlat core ctx va kind (copy, jid) s = .error (.miss k m)) ∧
  (∀ (k : Nat) (m : EngineMiss) (s : State) (body : M Unit), body s = .error (.miss k m) → (s.cluster k).walks = [] → (s.cluster k).asked = [] →
    runEvent body s = .next (s.setCluster k { s.cluster k with
      walks := [(m.ctx, m.page)]
      asked := [m] })) ∧
  (∀ (core ctx va kind jid : Nat) (copy : Bool) (s : State) (k page : Nat) (m : EngineMiss), k = clusterOf core → page = va % 2 ^ 55 / pageSize 3 →
    m = { ctx := ctx, page := page, copy := copy, jid := jid, ended := some false } → (s.cluster k).asked = [m] →
    Gives (engineXlat core ctx va kind (copy, jid)) s .page (s.setCluster k { s.cluster k with asked := [] }))

/-- 09 R209; 08 R187, R204: COH_READ of a waiting load of a core with no usable copy whose line no core owns and for which no earlier
request waits: the home's slice learns the core's time, the lease is extended to the core's time plus the page's lease, and the line is
answered with it; a core whose expired copy has the line's write and has not been discarded is sent a renewal with no data. -/
def Sys2Proof.Statements.cohReadCompletes : Prop :=
  ∀ (tid part : Nat) (s s1 s2 s3 s4 s5 t : State) (x : Thread) (q : Waiting) (copy held : Option L1Line) (w rts r : Stamp),
    tid < 262144 → s.waitingLoad tid part = some q → s.thread tid = some x → q.attr = .coh → q.reply = none →
    s.usable (coreOf tid) q.line = false → s.ownerAt q.line = none → s.queueAt q.line = [] →
    Gives (l1Read (coreOf tid) q.line .coh) { s with requests := del s.requests q.line } copy s1 →
    held = copy.filter (fun y => !y.discarded) →
    Gives (raise (.slice (sliceOf q.line)) (s.pts (coreOf tid))) s1 () s2 → Gives (fillHome q.line true) s2 () s3 →
    s4 = s3.markSoon (coreOf tid) q.line .coh q.ch → (w, rts) = s4.stamps q.line →
    r = tmax rts (s.pts (coreOf tid) + BitVec.ofNat 24 q.lease) → Gives (setStamps q.line w r) s4 () s5 →
    (∀ v : Served, v.line = q.line → v.attr = .coh → v.wts = (tagOf w r).1 → v.rts = r → v.once = !s5.atHome q.line →
      (held.map (·.wts) = some w → v.renew = some w ∧ v.data = 0 ∧ v.poison = false) →
      (held.map (·.wts) ≠ some w → v.renew = none ∧ v.data = (s5.homeLine q.line).1 ∧ v.poison = (s5.homeLine q.line).2) →
      Gives (setReply tid part (some v)) s5 () t → exec (.cohRead tid part) s = .next t)

/-- 09 R209, R210, R213; 08 R181, R184, R187: LOAD_REPLY of a waiting load: what the core now holds is used, and with a cache hint of 2 is
the first to be replaced; else a COH line whose lease
the core's time has not passed is used, raising the core's time to its write and taking its place in the L1 unless a cache hint of 1 keeps
it out; one whose lease has passed, or a renewal of a copy that is gone, is asked for again; a PRIV or RSHR line is read. -/
def Sys2Proof.Statements.loadReplyCompletes : Prop :=
  ∀ (tid part : Nat) (s s1 : State) (q : Waiting), tid < 262144 → s.waitingLoad tid part = some q →
    (∀ v t, Gives (performLoad tid q.line q.attr q.mask q.seq q.older) s (.got v) s1 →
      Gives (finishLoad tid part q v) (s1.markSoon (coreOf tid) q.line q.attr q.ch) () t → exec (.loadReply tid part) s = .next t) ∧
    (∀ r v copy s2 s3 s4 t, Gives (performLoad tid q.line q.attr q.mask q.seq q.older) s .miss s1 → q.attr = .coh → q.reply = some r →
      Gives (l1Read (coreOf tid) q.line .coh) s1 copy s2 → r.renewed copy = some v →
      atMost (s.pts (coreOf tid)) v.rts = true → Gives (raise (.core (coreOf tid)) v.wts) s2 () s3 →
      Gives (if !v.once && (q.ch != 1 || copy.isSome) then l1Place (coreOf tid) q.line .coh
          { data := v.data, wts := v.wts, rts := v.rts, poison := v.poison, soon := q.ch = 2 }
        else pure ()) s3 () s4 → Gives (finishLoad tid part q v) s4 () t → exec (.loadReply tid part) s = .next t) ∧
    (∀ r copy s2 t, Gives (performLoad tid q.line q.attr q.mask q.seq q.older) s .miss s1 → q.attr = .coh → q.reply = some r →
      Gives (l1Read (coreOf tid) q.line .coh) s1 copy s2 →
      (r.renewed copy = none ∨ ∃ v, r.renewed copy = some v ∧ atMost (s.pts (coreOf tid)) v.rts = false) →
      Gives (setReply tid part none) s2 () t → exec (.loadReply tid part) s = .next t) ∧
    (∀ x d bad s2 s3 s4 t, Gives (performLoad tid q.line q.attr q.mask q.seq q.older) s .miss s1 → q.attr ≠ .coh →
      s.thread tid = some x →
      (q.attr = .priv → Gives (privRead (coreOf tid) q.line (s.isMigratory x.launch)) s1 (d, bad) s2) →
      (q.attr = .rshr → Gives (fillHome q.line false) s1 () s2 ∧ s2.homeLine q.line = (d, bad)) →
      s3 = s2.markSoon (coreOf tid) q.line q.attr q.ch →
      Gives (if q.ch != 1 && s3.atHome q.line && !(q.attr = .priv && s.isMigratory x.launch) then
        l1Place (coreOf tid) q.line q.attr { data := d, poison := bad, soon := q.ch = 2 } else pure ()) s3 () s4 →
      Gives (finishLoad tid part q (served q.line q.attr d bad)) s4 () t → exec (.loadReply tid part) s = .next t)

/-- 09 R209, R210, R213; 08 R181, R184: COH_READ and LOAD_REPLY serve a waiting load. -/
def Obligations.LoadsAreServed : Prop :=
  cohReadCompletes ∧ loadReplyCompletes

/-- 02 R54, R57; 13 R330; 14 R344: THREAD_READY makes a parked thread ready once its condition holds, and ends the BARRIER of a thread whose
wave is released and the SHOOT of one that waits for nothing more; BANK_REPLY gives a thread its bank's reply and makes it ready. -/
def Sys2Proof.Statements.waitsEnd : Prop :=
  (∀ (tid : Nat) (s : State) (x : Thread) (w : Wait), tid < 262144 → s.thread tid = some x → x.park = some w →
    s.conditionHolds tid x w = true → (∀ lines, w ≠ .discard lines) → (∀ d, w ≠ .barrier d) →
    (∀ i va ids uids jobs, w ≠ .shoot i va ids uids jobs) →
    exec (.threadReady tid) s = .next (s.setSlot tid { s.slot tid with thread := some { x with park := none } })) ∧
  (∀ (tid : Nat) (s s1 s2 t : State) (x : Thread) (d : BitVec 8) (r : Reply), tid < 262144 → s.thread tid = some x →
    x.park = some (.barrier d) → x.role = .single → x.resume.reply = some r →
    Gives (raisePts r.time) { s.setSlot tid { s.slot tid with thread := some { x with park := none } } with cur := tid } () s1 →
    Gives (writeName (wordOf (.barrier d)) d r.value) s1 () s2 → Retires s2 t →
    exec (.threadReady tid) s = .next { t with cur := s.cur }) ∧
  (∀ (tid : Nat) (s s1 t : State) (x : Thread) (d a b : BitVec 8) (va : Word) (ids uids : List Nat) (jobs : List (Nat × Bool × Nat))
    (r : Reply), tid < 262144 → s.thread tid = some x → x.park = some (.shoot (wordOf (.shoot d a b)) va ids uids jobs) →
    x.role = .single → x.resume.reply = some r → s.landed ids uids jobs = true →
    Gives (writeName (wordOf (.shoot d a b)) d r.value)
      { s.setSlot tid { s.slot tid with thread := some { x with park := none } } with cur := tid } () s1 → Retires s1 t →
    exec (.threadReady tid) s = .next { t with cur := s.cur }) ∧
  (∀ (n tid : Nat) (s : State) (op : BankOp) (r : Reply) (x : Thread), find s.bankOps n = some op → op.reply = some r →
    s.byUid op.uid = some (tid, x) → s.thread tid = some x → x.park = some (.bank n) →
    ∃ t, exec (.bankReply n) s = .next t ∧ find t.bankOps n = none ∧ t.thread tid = some { x with
      park := none
      resume := { x.resume with
        ea := some op.ea
        reply := some r } } ∧ t.mem = s.mem ∧ t.banks = s.banks)

/-- 02 R54, R57; 13 R330; 14 R341 to R344: PAGE_WALK, THREAD_READY and BANK_REPLY end a thread's wait; THREAD_READY ends a released BARRIER and
a SHOOT that waits for nothing more; the misses of engines wait in the same queue. -/
def Obligations.WalksAndWaitsEnd : Prop :=
  pageWalkCompletes ∧ engineMissesQueue ∧ waitsEnd

/-- 09 R211: EXCLUSIVE_REQUEST of a line that stands at its home with data and a tag, that no core owns and for which no earlier request
waits, by a core whose time the slice knows, with room in the set of its L1: the core becomes the owner and holds the line exclusively with
its stamps, and the accesses that waited for it go on. No byte of memory changes. -/
def Sys2Proof.Statements.exclusiveGranted : Prop :=
  ∀ (core line : Nat) (s : State) (x : L2Line) (d : LineData) (w : Stamp) (n : Nat), core < 4096 → line < 2 ^ 47 → s.errs = [] →
    s.wantsExcl core line true = true → find s.l2 line = some x → x.data = some d → x.tag = some (w, n) → x.owner = none →
    s.queueAt line = [] → later (s.clock (.slice (sliceOf line))).t (s.pts core) = false →
    ((s.core core).l1Set line (l1Key line .coh)).length < 20 →
    ∃ t z y, exec (.exclusiveRequest core line) s = .next t ∧ find t.l2 line = some z ∧ z.owner = some core ∧ z.data = some d ∧
      z.tag = some (w, n) ∧ find (t.core core).l1 (l1Key line .coh) = some y ∧ y.excl = true ∧ y.wts = w ∧ y.rts = w + BitVec.ofNat 24 n ∧
      (∀ o, find (s.core core).l1 (l1Key line .coh) = some o → o.wts = w → o.discarded = false →
        y.data = o.data ∧ y.poison = o.poison) ∧
      ((∀ o, find (s.core core).l1 (l1Key line .coh) = some o → o.wts = w → o.discarded = true) → y.data = d ∧ y.poison = x.poison) ∧
      (∀ k, k ≠ l1Key line .coh → find (t.core core).l1 k = find (s.core core).l1 k) ∧
      (∀ l, l ≠ line → find t.l2 l = find s.l2 l) ∧ t.mem = s.mem ∧
      (∀ tid u k b off header, coreOf tid = core → s.thread tid = some u → u.park = some (.atomic k b line off header) →
        (t.thread tid).map (·.park) = some none)

/-- 09 R212: RECALL of an owned line that is not held, for a request that waits: the home takes the owner's data, dirty mark and stamps
and names no owner; the owner keeps a shared copy where the recall serves a read, none else. Nothing else changes. -/
def Sys2Proof.Statements.recallReturns : Prop :=
  ∀ (core line : Nat) (keep : Bool) (s : State) (x : L2Line) (y : L1Line) (d : LineData), line < 2 ^ 47 → s.errs = [] →
    find s.l2 line = some x → x.owner = some core → x.data = some d → x.mate = none →
    find (s.core core).l1 (l1Key line .coh) = some y → y.held = none → s.recallServes core line keep = true →
    ∃ t z, exec (.recall line keep) s = .next t ∧ find t.l2 line = some z ∧ z.data = some y.data ∧ z.poison = y.poison ∧
      z.owner = none ∧ (z.dirty = true ↔ x.dirty = true ∨ y.dirty ≠ 0) ∧ (t.stamps line).2 = y.rts ∧
      ((y.rts - y.wts).toNat ≤ 255 → (t.stamps line).1 = y.wts) ∧ (255 < (y.rts - y.wts).toNat → (t.stamps line).1 = y.rts - 255) ∧
      (keep = false → find (t.core core).l1 (l1Key line .coh) = none) ∧
      (keep = true → find (t.core core).l1 (l1Key line .coh) = some { y with
        excl := false
        dirty := 0 }) ∧
      (∀ k, k ≠ l1Key line .coh → find (t.core core).l1 k = find (s.core core).l1 k) ∧
      (∀ l, l ≠ line → find t.l2 l = find s.l2 l) ∧ t.mem = s.mem ∧ t.clocks = s.clocks

/-- 09 R211, R212; 08 R187, R204: EXCLUSIVE_REQUEST grants a line that no core owns: the home's slice learns the core's time, the core
becomes the owner and gets the line with its stamps, with its own copy's data where that is the line's state and has not been discarded;
with a cache hint of 2 of what asks for it, it is the first to be replaced; RECALL returns an owned line's data and stamps to its home. -/
def Obligations.ExclusivePermissionMoves : Prop :=
  (∀ (core line : Nat) (s s1 s2 s3 s4 s5 t : State) (soon : Bool) (copy : Option L1Line) (z : L2Line),
    core < 4096 → line < 2 ^ 47 → s.wantsExcl core line true = true → s.ownerAt line = none → s.queueAt line = [] →
    Gives (raise (.slice (sliceOf line)) (s.pts core)) { s with requests := del s.requests line } () s1 →
    Gives (fillHome line true) s1 () s2 → s2.atHome line = true → Gives (l1Read core line .coh) s2 copy s3 →
    soon = ((s.core core).buffer.any (fun e => e.attr = .coh && e.line = line && e.ch = 2) ||
      (s.exclusiveLoads core line).any (fun p => p.2.2 = 2)) →
    s4 = s3.markSoon core line .coh (if soon then 2 else 0) → find s4.l2 line = some z →
    (∀ y : L1Line, y.excl = true → y.wts = (s2.stamps line).1 → y.rts = (s2.stamps line).2 → y.soon = soon → y.dirty = 0 → y.held = none →
      y.discarded = false →
      (∀ o, copy = some o → o.wts = (s2.stamps line).1 → o.discarded = false → y.data = o.data ∧ y.poison = o.poison) →
      ((∀ o, copy = some o → o.wts = (s2.stamps line).1 → o.discarded = true) →
        y.data = (s2.homeLine line).1 ∧ y.poison = (s2.homeLine line).2) →
      Gives (l1Place core line .coh y) { s4 with l2 := put s4.l2 line { z with owner := some core } } () s5 →
      Gives (wakeExcl core line) s5 () t → exec (.exclusiveRequest core line) s = .next t)) ∧
  exclusiveGranted ∧ recallReturns

/-- 09 R213, R221: STORE_TIMESTAMP of a thread's first COH store, with the line held exclusively and no older load of its queue under
way: the core's time moves past the copy's rts, the bytes of the store's mask are replaced, both stamps become the core's time, and the
entry leaves the buffer. No byte outside the mask, and nothing in pooled memory, changes; the home's line changes in its mark alone, where
the store's cache hint of 2 makes it the first to be replaced. -/
def Sys2Proof.Statements.storeTimestampCompletes : Prop :=
  ∀ (core : Nat) (e : StEntry) (y : L1Line) (s s1 : State), core < 4096 → s.errs = [] →
    (s.core core).buffer.find? (fun f => f.id = e.id) = some e → (s.core core).buffer.find? (fun f => f.uid = e.uid) = some e →
    e.attr = .coh → e.waits = false →
    s.threads.any (fun p => p.2.uid = e.uid && p.2.ldq.any (fun l => l.attr = .coh && l.val.isNone && decide (l.seq < e.id))) = false →
    find (s.core core).l1 (l1Key e.line .coh) = some y → y.excl = true → Gives (raise (.core core) (y.rts + 1)) s () s1 →
    ∃ t z, exec (.storeTimestamp core e.id) s = .next t ∧ find (t.core core).l1 (l1Key e.line .coh) = some z ∧
      z.data = mergeLine y.data e.data e.mask ∧ z.wts = s1.pts core ∧ z.rts = s1.pts core ∧ z.excl = true ∧
      (∀ o < 32, e.mask.getLsbD o = false → z.data.extractLsb' (8 * o) 8 = y.data.extractLsb' (8 * o) 8) ∧
      (∀ k, k ≠ l1Key e.line .coh → find (t.core core).l1 k = find (s.core core).l1 k) ∧
      (t.core core).buffer = (s.core core).buffer.filter (fun f => f.id != e.id) ∧ t.mem = s.mem ∧
      t.l2 = (if e.ch = 2 then s.l2.map (fun p => if p.1 = e.line then (p.1, { p.2 with soon := true }) else p) else s.l2)

/-- The bytes of a line after a write: those that the mask names are the data's, the others are as they were. -/
def Sys2Proof.Statements.Overwritten (new old data : LineData) (mask : LineMask) : Prop :=
  ∀ o < 32, new.extractLsb' (8 * o) 8 = if mask.getLsbD o then data.extractLsb' (8 * o) 8 else old.extractLsb' (8 * o) 8

/-- 08 R182: PRIV_STORE_ENTERS_L1 of a thread's first store writes its bytes into the L1, where the core holds the line into the copy, no
other byte of which changes; WRITE_BACK merges a core's dirty bytes into the line's home, no other byte of which changes. -/
def Sys2Proof.Statements.privateStoresReachHome : Prop :=
  (∀ (core : Nat) (e : StEntry) (s s1 : State), core < 4096 → (s.core core).buffer.find? (fun f => f.id = e.id) = some e →
    (s.core core).buffer.find? (fun f => f.uid = e.uid) = some e → e.attr = .priv → e.waits = false →
    Gives (privWrite core e.line e.mask e.data e.through e.ch) s () s1 →
    exec (.privStoreEntersL1 core e.id) s = .next (s1.setCore core { s1.core core with
      buffer := (s1.core core).buffer.filter (fun f => f.id != e.id) })) ∧
  (∀ (core : Nat) (e : StEntry) (y : L1Line) (s : State), core < 4096 → s.errs = [] →
    (s.core core).buffer.find? (fun f => f.id = e.id) = some e → (s.core core).buffer.find? (fun f => f.uid = e.uid) = some e →
    e.attr = .priv → e.waits = false → e.through = false → find (s.core core).l1 (l1Key e.line .priv) = some y →
    ∃ t z, exec (.privStoreEntersL1 core e.id) s = .next t ∧ find (t.core core).l1 (l1Key e.line .priv) = some z ∧
      Overwritten z.data y.data e.data e.mask ∧ z.dirty = y.dirty ||| e.mask ∧ (z.poison = true ↔ y.poison = true ∧ e.mask ≠ fullMask) ∧
      (∀ k, k ≠ l1Key e.line .priv → find (t.core core).l1 k = find (s.core core).l1 k) ∧ t.mem = s.mem ∧
      t.l2 = (if e.ch = 2 then s.l2.map (fun p => if p.1 = e.line then (p.1, { p.2 with soon := true }) else p) else s.l2)) ∧
  (∀ (n : Nat) (w : WriteBack) (s t : State), find s.wbs n = some w → w.toMemory = false →
    Gives (homeWrite w.line w.mask w.data w.poison) { s with wbs := del s.wbs n } () t → exec (.writeBack n) s = .next t) ∧
  (∀ (n : Nat) (w : WriteBack) (x : L2Line) (d : LineData) (s : State), s.errs = [] → find s.wbs n = some w → w.toMemory = false →
    find s.l2 w.line = some x → x.data = some d → x.mate = none →
    ∃ t z new, exec (.writeBack n) s = .next t ∧ find t.l2 w.line = some z ∧ z.data = some new ∧ Overwritten new d w.data w.mask ∧
      z.dirty = true ∧ (∀ l, l ≠ w.line → find t.l2 l = find s.l2 l) ∧ t.mem = s.mem ∧ t.cores = s.cores)

/-- 08 R182; 09 R213, R221: STORE_TIMESTAMP, PRIV_STORE_ENTERS_L1 and WRITE_BACK perform stores, and touch no byte outside the store's
mask. -/
def Obligations.StoresArePerformed : Prop :=
  storeTimestampCompletes ∧ privateStoresReachHome

/-- 09 R221; 10 R239: FAR_ATOMIC performs a waiting atomic at the home of a line that no core owns: at a time past the line's lease the
word is replaced and both stamps become that time; the thread gets the old word and the time. One whose old word is to be the header of a
message and is none writes nothing (02 R55; 13 R333). -/
def Obligations.FarAtomicCompletes : Prop :=
  ∀ (tid line off : Nat) (k : AtomicKind) (b old : Word) (header : Bool) (tau : Stamp) (s s1 s2 : State) (x : Thread) (d : LineData),
    tid < 262144 → s.thread tid = some x → x.park = some (.atomic k b line off header) → s.ownerAt line = none → s.queueAt line = [] →
    Gives (raise (.slice (sliceOf line)) (s.pts (coreOf tid))) { s with requests := del s.requests line } () s1 → Gives (fillHome line true) s1 () s2 →
    s2.homeLine line = (d, false) → tau = tmax (s.pts (coreOf tid)) ((s2.stamps line).2 + 1) → old = fromByte d off →
    ((header = false ∨ (bits old 63 62 = 0 ∧ bits old 47 24 = 0 ∧ bits old 61 57 ≠ 0)) → ∀ s3 s4,
      Gives (writeAsked line (maskOf off 8) (atByte (atomicWord k old b) off)) s2 () s3 → Gives (setStamps line tau tau) s3 () s4 →
      exec (.farAtomic tid) s = .next (s4.setSlot tid { s4.slot tid with thread := (s4.slot tid).thread.map (fun x => { x with
        park := none
        resume := { x.resume with reply := some { value := old, time := tau } } }) })) ∧
    (header = true → (bits old 63 62 ≠ 0 ∨ bits old 47 24 ≠ 0 ∨ bits old 61 57 = 0) →
      exec (.farAtomic tid) s = .next (s2.setSlot tid { s2.slot tid with thread := (s2.slot tid).thread.map (fun x => { x with
        park := none
        resume := { x.resume with reply := some { value := old, time := s.pts (coreOf tid) } } }) }))

/-- 08 R189, R193, R202, R204; 09 R222: L2_FILL, MERGE_WINDOW_CLOSE, DEFERRED_DISCARD and HOLD_CAP. -/
def Obligations.HomeEventsComplete : Prop :=
  (∀ (line : Nat) (shared : Bool) (s t : State), line < 2 ^ 47 → s.atHome line = false → s.allPinned line = false →
    (s.missLines line).any (fun l => (findD (s.port (portOf l)).windows [] (l / 8)).contains l) = true →
    Gives (fillLine line false shared) s () t → exec (.l2Fill line shared) s = .next t) ∧
  (∀ (block : Nat) (s : State) (ls : List Nat), block < 2 ^ 44 → find (s.port (portOf (8 * block))).windows block = some ls →
    ∃ t, exec (.mergeWindowClose block) s = .next t ∧
      t.port (portOf (8 * block)) = (if ls.length ≤ 1 then { s.port (portOf (8 * block)) with
          windows := del (s.port (portOf (8 * block))).windows block
          single := (s.port (portOf (8 * block))).single + 1 }
        else { s.port (portOf (8 * block)) with
          windows := del (s.port (portOf (8 * block))).windows block
          burst := (s.port (portOf (8 * block))).burst + 1
          dropped := (s.port (portOf (8 * block))).dropped + (8 - ls.length) })) ∧
  (∀ (line : Nat) (s s1 s2 : State), line < 2 ^ 47 → line ∈ s.discards → s.discardWaits line = false → Gives (discardHome line (s.discarding line)) s () s1 →
    Gives (s.threads.forM (fun p => match p.2.park with
      | some (.discard lines) => lines.forM (fun l => if l.1 = line then dropCopies (coreOf p.1) line l.2 else pure ())
      | _ => pure ())) s1 () s2 →
    exec (.deferredDiscard line) s = .next { s2 with discards := s2.discards.filter (· != line) }) ∧
  (∀ (tid line : Nat) (s : State) (x : Thread), tid < 262144 → line < 2 ^ 47 → s.thread tid = some x → line ∈ x.holds →
    ∃ t, exec (.holdCap tid line) s = .next t ∧ (t.thread tid).map (·.holds) = some (x.holds.erase line) ∧
      (∀ y, find (t.core (coreOf tid)).l1 (l1Key line .coh) = some y → y.held ≠ some x.uid) ∧ t.mem = s.mem)

/-- 09 R207, R225, R227: PTS_TICK, FLOOR_RAISE, OWN_TIME_RAISE and STEPPED_ADVANCE move times forward as their rules say. -/
def Obligations.TimesMove : Prop :=
  (∀ (core : Nat) (s : State), core < 4096 → s.ticking core = true → 1 ≤ (s.clock (.core core)).room →
    ∃ t, exec (.ptsTick core) s = .next t ∧ t.pts core = s.pts core + 1 ∧
      (∀ a, a ≠ .core core → t.clock a = s.clock a) ∧ t.mem = s.mem) ∧
  (∀ (s : State) (g new : Stamp), g = BitVec.ofNat 24 s.floor →
    new = s.clocks.foldl (fun t c => tmax t c.2.t) g - BitVec.ofNat 24 (2 ^ 21) →
    (later g new = true → exec .floorRaise s = .next { s with floor := (s.floor + (new - g).toNat) % 2 ^ 40 }) ∧
    (later g new = false → exec .floorRaise s = .next s)) ∧
  (∀ (a : Agent) (s : State), a.valid = true →
    (later (s.clock a).t (BitVec.ofNat 24 s.floor) = true → (BitVec.ofNat 24 s.floor - (s.clock a).t).toNat ≤ (s.clock a).room →
      exec (.ownTimeRaise a) s = .next (s.setClock a { t := BitVec.ofNat 24 s.floor
                                                       room := (s.clock a).room - (BitVec.ofNat 24 s.floor - (s.clock a).t).toNat
                                                       late := none })) ∧
    (later (s.clock a).t (BitVec.ofNat 24 s.floor) = false → exec (.ownTimeRaise a) s = .next s)) ∧
  (∀ (a : Agent) (s : State) (u : Stamp) (n : Nat), a.valid = true → (s.clock a).late = some u → later (s.clock a).t u = true →
    n = min (u - (s.clock a).t).toNat (2 ^ 20) → n ≤ (s.clock a).room →
    ∃ t, exec (.steppedAdvance a) s = .next t ∧ (t.clock a).t = (s.clock a).t + BitVec.ofNat 24 n ∧
      ((t.clock a).late = none ↔ n = (u - (s.clock a).t).toNat) ∧ (t.clock a).room = (s.clock a).room - n)

/-- 09 R226: L2_STAMP_SWEEP brings stamps more than 2^21 behind the slice's time to within it; CORE_STAMP_SWEEP drops a shared copy with
such a lease, and returns an exclusive one with such a write, unless held; fresher stamps stay. -/
def Sys2Proof.Statements.stampSweepsComplete : Prop :=
  (∀ (n line : Nat) (s : State), n < 768 → line < 2 ^ 47 → find s.l2 line = none →
    ∃ t, exec (.l2StampSweep n line) s = .next t ∧
      (t.slice n).ets = (if stale (s.slice n).ets (s.clock (.slice n)).t then (s.clock (.slice n)).t - BitVec.ofNat 24 (2 ^ 21)
        else (s.slice n).ets) ∧ t.l2 = s.l2 ∧ t.mem = s.mem) ∧
  (∀ (n line : Nat) (s s1 t : State) (x : L2Line), n < 768 → line < 2 ^ 47 → find s.l2 line = some x → sliceOf line = n →
    x.tag.isSome = true → x.owner = none → stale (s.stamps line).2 (s.clock (.slice n)).t = true →
    s1 = s.setSlice n (if stale (s.slice n).ets (s.clock (.slice n)).t then
      { s.slice n with ets := (s.clock (.slice n)).t - BitVec.ofNat 24 (2 ^ 21) } else s.slice n) →
    Gives (setStamps line ((s.clock (.slice n)).t - BitVec.ofNat 24 (2 ^ 21)) ((s.clock (.slice n)).t - BitVec.ofNat 24 (2 ^ 21))) s1 () t →
    exec (.l2StampSweep n line) s = .next t) ∧
  (∀ (core line : Nat) (s : State) (y : L1Line), core < 4096 → line < 2 ^ 47 → find (s.core core).l1 (l1Key line .coh) = some y →
    (y.excl = false → stale y.rts (s.pts core) = true → exec (.coreStampSweep core line) s =
      .next (s.setCore core { s.core core with l1 := del (s.core core).l1 (l1Key line .coh) })) ∧
    (y.excl = false → stale y.rts (s.pts core) = false → exec (.coreStampSweep core line) s = .next s) ∧
    (y.excl = true → y.held = none → stale y.wts (s.pts core) = true → ∀ t, Gives (recallNow line false) s () t →
      exec (.coreStampSweep core line) s = .next t))

/-- 15 R360, R361: a sweep meets a struck word: an L1 word that fails is handled as its copy allows, and a register whose parity fails is
marked poisoned and counted. -/
def Sys2Proof.Statements.errorSweepsComplete : Prop :=
  (∀ (c k w : Nat) (s : State), (Loc.l1 c k w).valid = true → exec (.storageSweep (.l1 c k w)) s = .next (s.checkL1 c k)) ∧
  (∀ (l w : Nat) (s : State), (Loc.l2 l w).valid = true → exec (.storageSweep (.l2 l w)) s = .next (s.checkL2 l)) ∧
  (∀ (b w : Nat) (s t : State), (Loc.bank b w).valid = true → Gives (checkBankWord b w) s () t →
    exec (.storageSweep (.bank b w)) s = .next t) ∧
  (∀ (c l w : Nat) (s : State), (Loc.l1i c l w).valid = true → exec (.storageSweep (.l1i c l w)) s = .next (s.checkI c l)) ∧
  (∀ (k : Nat) (copy : Bool) (jid l w : Nat) (s t : State), (Loc.shadow k copy jid l w).valid = true → Gives (checkShadow k copy jid l) s () t →
    exec (.storageSweep (.shadow k copy jid l w)) s = .next t) ∧
  (∀ (c n : Nat) (m : Word) (s : State), (Loc.reg c n).valid = true → s.errs.find? (fun e => e.1 = .reg c n) = some (.reg c n, m) →
    popCount m % 2 = 1 →
    ∃ t, exec (.registerSweep (.reg c n)) s = .next t ∧ findD (t.core c).rf {} n = { findD (s.core c).rf {} n with poison := true } ∧
      (∀ k, k ≠ n → findD (t.core c).rf {} k = findD (s.core c).rf {} k) ∧ (t.core c).regPoison = (s.core c).regPoison + 1 ∧
      t.errs = s.errs.filter (fun e => e.1 != .reg c n) ∧ t.mem = s.mem)

/-- 09 R226; 15 R360, R361: the sweeps over stamps, stored words and registers. -/
def Obligations.SweepsComplete : Prop :=
  stampSweepsComplete ∧ errorSweepsComplete

/-- 06 R139, R158, R159; 10 R248: TRESTLE_ACCEPT and COPY_ACCEPT of a command whose context has a share and whose core has room: the
engine learns the core's time, the job joins the engine with the command's parameters, a status entry opens, and the thread gets the
identity. -/
def Sys2Proof.Statements.engineAcceptanceCompletes : Prop :=
  ∀ (i : Instr) (tid kind : Nat) (copy keep : Bool) (ws : List Word) (s s1 s2 : State) (x : Thread) (n serial : Nat),
    ((i = .trestleAccept tid ∧ copy = false ∧ kind < 2 ∧ n = 0) ∨ (i = .copyAccept tid ∧ copy = true ∧ kind = 2 ∧ n = 1)) →
    tid < 262144 → s.thread tid = some x → x.park = some (.engine kind ws keep) → Gives (flushFor tid x) s () s1 →
    Gives (raise (engineAgent (clusterOf (coreOf tid)) copy) (s.pts (coreOf tid))) s1 () s2 → s2.thread tid = some x →
    (copy = false → s2.weight (coreOf tid) x.ctx ≠ 0) →
    ((s2.engine (clusterOf (coreOf tid)) copy).jobs.filter (fun j => j.core = coreOf tid)).length < (if copy then 8 else 4) →
    ((s2.core (coreOf tid)).status.filter (fun e => decide (32768 ≤ e.jid) = copy)).length < 64 →
    serial = nextJobSerial (((s2.core (coreOf tid)).status.filter (fun e => decide (32768 ≤ e.jid) = copy)).map (·.jid % 4096)) 4096
      ((s2.core (coreOf tid)).serial.getD n 1 % 4096) →
    ∃ t jid, exec i s = .next t ∧ jid = 32768 * n + 4096 * (coreOf tid % 8) + serial ∧
      (t.engine (clusterOf (coreOf tid)) copy).jobs = (s2.engine (clusterOf (coreOf tid)) copy).jobs ++
        [{ jid := jid, kind := kind, ctx := x.ctx, core := coreOf tid, tid := x.home, launch := x.launch, param := ws,
           time := (s2.clock (engineAgent (clusterOf (coreOf tid)) copy)).t }] ∧
      (t.core (coreOf tid)).status = (s2.core (coreOf tid)).status ++ [{ jid := jid, ctx := x.ctx, launch := x.launch, keep := keep }] ∧
      (t.thread tid).bind (·.resume.reply) =
        some { status := 0, value := word jid, time := (s2.clock (engineAgent (clusterOf (coreOf tid)) copy)).t } ∧
      (t.thread tid).map (·.park) = some none

/-- 06 R140 to R157: TILE_STEP runs the current job of the next core for one step of its tile; PUBLISH makes the shadow of a job that is
ready visible and ends the job with status OK; TRESTLE_SAVE and COPY_SAVE write the job's area, unpin its lines and mark it saved. -/
def Sys2Proof.Statements.engineStepsComplete : Prop :=
  (∀ (k mism core : Nat) (room fetch : Bool) (s s1 t : State) (j : Job), k < 512 → (s.engine k false).nextCore = some core →
    (s.engine k false).current core = some j → j.cancel = false →
    s1 = s.setCluster k { s.cluster k with trestle := { (s.engine k false) with
      pointer := core
      turn := (if 0 < (s.engine k false).turn ∧ (s.engine k false).pointer = core then (s.engine k false).turn
        else max 1 (s.weight j.core j.ctx)) - 1 } } →
    Gives (do
      runJob k false j (tileOf mism room fetch)
      modEngine k false (fun e => if e.jobs.any (fun x => x.jid = j.jid && !x.ready) then e else { e with turn := 0 })) s1 () t →
    exec (.tileStep k mism room fetch) s = .next t) ∧
  (∀ (k core : Nat) (copy : Bool) (s s1 t : State) (j : Job), k < 512 → core < 8 →
    (s.engine k copy).jobs.find? (fun j => j.ready && j.core % 8 = core && !(j.shadow.any (fun p => p.2.attr = .coh && s.isHeld p.1))) =
      some j → ∀ sh s2, Gives (shadowOf k copy j) s sh s2 →
    (sh.find? (fun p => p.2.poison) = none → Gives (publishLines (engineAgent k copy) (some j.core) sh) s2 () s1 →
      Gives (endJob k copy j 0 0) s1 () t → exec (.publish k copy core) s = .next t) ∧
    (∀ p, sh.find? (fun p => p.2.poison) = some p → Gives (endJob k copy j 5 p.2.va) s2 () t →
      exec (.publish k copy core) s = .next t)) ∧
  (∀ (k : Nat) (s s1 s2 t : State) (j : Job) (p : PreRequest), k < 512 → (s.engine k false).pre = some p → p.stepped = true →
    (s.engine k false).jobs.find? (fun j => j.jid = p.jid) = some j → j.cancel = false → Gives (physWrites p.addr j.area) s () s1 →
    Gives (unpin j.pinned) s1 () s2 →
    Gives (do
      modJob k false j.jid (fun j => { j with
        saved := some p.addr
        savedTime := extendTime s2.floor j.time
        pinned := [] })
      modEngine k false (fun e => { e with
        pre := none
        preJob := j.jid
        turn := if e.pointer = j.core % 8 then 0 else e.turn })) s2 () t → exec (.trestleSave k) s = .next t) ∧
  (∀ (k : Nat) (s s0 s1 s2 t : State) (j : Job) (p : PreRequest), k < 512 → (s.engine k true).pre = some p → p.stepped = true →
    (s.engine k true).jobs.find? (fun j => j.jid = p.jid) = some j → j.cancel = false →
    Gives (modJob k true j.jid (fun y => { y with parts := if y.kind = 3 then s.partsOf y else [] })) s () s0 →
    Gives (physWrites p.addr (j.copyArea s)) s0 () s1 →
    Gives (unpin j.pinned) s1 () s2 →
    Gives (do
      modJob k true j.jid (fun j => { j with
        saved := some p.addr
        savedTime := extendTime s2.floor j.time
        pinned := [] })
      modEngine k true (fun e => { e with
        pre := none
        preJob := j.jid
        turn := if e.pointer = j.core % 8 then 0 else e.turn })) s2 () t → exec (.copySave k) s = .next t)

/-- 06 R144, R145: products and the sum of a chunk are exact, an exact zero sum is +0; a NaN factor, 0 times an infinity and infinities of
both signs give the NaN, else the infinite products give the infinity that they share. -/
def Sys2Proof.Statements.chunksExact : Prop :=
  (∀ (a b : Bool) (m n : Nat) (e f : Int), valueOf (fpMul (.fin a m e) (.fin b n f)).1 = valueOf (.fin a m e) * valueOf (.fin b n f)) ∧
  (∀ (s : Bool) (y : Fp), (fpMul (.nan s) y).1.isNan = true ∧ (fpMul y (.nan s)).1.isNan = true) ∧
  (∀ (a b : Bool) (e : Int), (fpMul (.inf a) (.fin b 0 e)).1.isNan = true ∧ (fpMul (.fin b 0 e) (.inf a)).1.isNan = true) ∧
  (∀ (a b : Bool) (m : Nat) (e : Int), m ≠ 0 → (fpMul (.inf a) (.fin b m e)).1 = .inf (a != b)) ∧
  (∀ l : List Fp, (∀ x ∈ l, ∃ n m e, x = .fin n m e) →
    ∃ n m e, sumProducts l = .fin n m e ∧ valueOf (sumProducts l) = (l.map valueOf).sum ∧
      ((l.map valueOf).sum = 0 → sumProducts l = .fin false 0 0)) ∧
  (∀ l : List Fp, ((∃ x ∈ l, x.isNan = true) ∨ (.inf false ∈ l ∧ .inf true ∈ l) → sumProducts l = .nan false) ∧
    ((∀ x ∈ l, x.isNan = false) → .inf false ∈ l → .inf true ∉ l → sumProducts l = .inf false) ∧
    ((∀ x ∈ l, x.isNan = false) → .inf true ∈ l → .inf false ∉ l → sumProducts l = .inf true))

/-- 06 R144: what a tile-step does to the accumulator of row x and column y: an integer one adds the chunk's sum of products modulo
its width, a float or logarithmic one adds the chunk's exact sum and rounds to the accumulator's format by RNE. -/
def Sys2Proof.Statements.chunksAccumulate : Prop :=
  ∀ (m : MatJob) (p : MatPos) (acc : List (BitVec 128)) (a b : List (List Nat)) (x y : Nat) (X : BitVec 128), x < a.length →
    y < b.length → acc.length = a.length * b.length → acc[x * b.length + y]? = some X →
    (m.cls = some .integer → (m.accumulate p acc a b)[x * b.length + y]? = some (BitVec.ofNat 128
      (((X.toNat : Int) + (List.zipWith (fun u v => intElem m.fa u * intElem m.fb v) (a.getD x []) (b.getD y [])).sum) % 2 ^ m.accBits).toNat)) ∧
    (m.cls = some .float → (m.accumulate p acc a b)[x * b.length + y]? = some (BitVec.ofNat 128
      (m.accFmt.write 0 (fpAdd 0 (m.accFmt.read X.toNat) (sumProducts (List.zipWith
        (fun u v => (fpMul ((matFmt m.fa).read u) ((matFmt m.fb).read v)).1) (a.getD x []) (b.getD y [])))).1).1)) ∧
    (m.cls = some .logarithmic → (m.accumulate p acc a b)[x * b.length + y]? = some (BitVec.ofNat 128
      (m.accFmt.write 0 (fpAdd 0 (m.accFmt.read X.toNat) (sumProducts (List.zipWith
        (fun u v => logProduct (logElem m.fa u) (logElem m.fb v)) (a.getD x []) (b.getD y [])))).1).1)) ∧
    m.accumulate p [] a b = m.accumulate p (List.replicate (a.length * b.length) 0) a b

/-- The value of an accumulator of the extended format (06 R148). -/
def Sys2Proof.Statements.extValue (x : BitVec 128) : ℚ := (extRead x).1 * 2 ^ (extRead x).2.1

/-- 03 R79; 06 R146 to R150: the group exponent is the least that bounds its elements; a slice is the truncated digit of its weight;
the pairs of slices kept are those with p + q at most s + 1, in their order; the extended format holds 96 bits exactly and rounds to
nearest; a tile-step adds its chunk's slice products at their weight. -/
def Sys2Proof.Statements.slicesAccumulate : Prop :=
  (∀ (l : List Fp) (e : Int), (∀ x ∈ l, ∃ n m k, x = .fin n m k) → groupExponent l = some e →
    (∀ x ∈ l, |valueOf x| < 2 ^ e) ∧ ∃ x ∈ l, 2 ^ (e - 1) ≤ |valueOf x|) ∧
  (∀ (n : Bool) (m : Nat) (k e : Int) (p : Nat), ((sliceElem e p (.fin n m k)).natAbs : Int) = ⌊(m : ℚ) * 2 ^ (k + 7 * p - e)⌋ % 128 ∧
    (sliceElem e p (.fin n m k) < 0 → n = true) ∧ (0 < sliceElem e p (.fin n m k) → n = false)) ∧
  (slicePairs 3 = [(1, 3), (2, 2), (3, 1), (1, 2), (2, 1), (1, 1)] ∧
    ∀ s p q, 1 ≤ s → ((p, q) ∈ slicePairs s ↔ 1 ≤ p ∧ 1 ≤ q ∧ p + q ≤ s + 1) ∧
      (slicePairs s).Pairwise (fun a b => b.1 + b.2 < a.1 + a.2 ∨ (a.1 + a.2 = b.1 + b.2 ∧ a.1 < b.1))) ∧
  (∀ (v e : Int) (tag : Nat), v ≠ 0 → tag < 4 → -16383 ≤ e + Nat.log2 v.natAbs → e + Nat.log2 v.natAbs < 16383 →
    (extRead (extWrite v e tag)).2.2 = tag ∧ (v.natAbs < 2 ^ 96 → extValue (extWrite v e tag) = v * 2 ^ e) ∧
    |extValue (extWrite v e tag) - v * 2 ^ e| ≤ 2 ^ (e + Nat.log2 v.natAbs - 96)) ∧
  (∀ (m : MatJob) (pos : MatPos) (acc : List (BitVec 128)) (a b : List (List Nat)) (x y p q : Nat) (X : BitVec 128) (u v : List Fp)
    (e f : Int), x < a.length → y < b.length → acc.length = a.length * b.length → acc[x * b.length + y]? = some X →
    m.cls = some .sliced → (slicePairs m.s)[pos.pair]? = some (p, q) → u = (a.getD x []).map (matFmt m.fa).read →
    v = (b.getD y []).map (matFmt m.fa).read → (∀ z ∈ u ++ v, ∃ n k g, z = .fin n k g) → groupExponent u = some e →
    groupExponent v = some f →
    (m.accumulate pos acc a b)[x * b.length + y]? = some (extAdd X
      (List.zipWith (fun s t => sliceElem e p s * sliceElem f q t) u v).sum (e + f - 7 * ((p + q : Nat) : Int)) 0))

/-- 06 R144, R149, R150: the value of a finished element: an integer one adds C, sign-extended, modulo its width; a float or logarithmic
one adds C rounded to the accumulator's format, and rounds to D's; a sliced one adds C exactly and rounds once; a zero is +0. -/
def Sys2Proof.Statements.elementsFinished : Prop :=
  (∀ (m : MatJob) (x : BitVec 128), m.cls = some .integer → m.result x none = x.toNat % 2 ^ m.accBits ∧
    ∀ v < 2 ^ elemBits m.fc, m.result x (some v) =
      (((x.toNat : Int) + (if 2 ^ (elemBits m.fc - 1) ≤ v then (v : Int) - 2 ^ elemBits m.fc else v)) % 2 ^ m.accBits).toNat) ∧
  (∀ (m : MatJob) (x : BitVec 128), (m.cls = some .float ∨ m.cls = some .logarithmic) → x.toNat < 2 ^ 64 →
    m.result x none = plusZero (elemBits m.fd) ((matFmt m.fd).write 0 (m.accFmt.read x.toNat)).1 ∧
    ∀ v, m.result x (some v) = plusZero (elemBits m.fd) ((matFmt m.fd).write 0 (m.accFmt.read (m.accFmt.write 0 (fpAdd 0
      (m.accFmt.read x.toNat) (m.accFmt.read (m.accFmt.write 0 ((matFmt m.fc).read v)).1)).1).1)).1) ∧
  (∀ (m : MatJob) (x : BitVec 128) (v e s se : Int), m.cls = some .sliced → extRead x = (v, e, 0) → s ≠ 0 →
    (∀ c n k ce, (matFmt m.fc).read c = .fin n k ce → exactSum (decide (v < 0)) v.natAbs e n k ce = (s, se) →
      m.result x (some c) = plusZero (elemBits m.fd) ((matFmt m.fd).round 0 (decide (s < 0)) s.natAbs se).1)) ∧
  (∀ (m : MatJob) (x : BitVec 128) (v e : Int), m.cls = some .sliced → (extRead x = (v, e, 3) → m.result x none = (matFmt m.fd).nanBits) ∧
    (extRead x = (v, e, 1) → m.result x none = (matFmt m.fd).signed false (matFmt m.fd).infBits) ∧
    (extRead x = (v, e, 2) → m.result x none = (matFmt m.fd).signed true (matFmt m.fd).infBits)) ∧
  (∀ w v, 0 < w → plusZero w v ≠ 2 ^ (w - 1))

/-- 06 R139 to R159; 10 R248: engines accept commands, step, publish and save their jobs; the arithmetic of a tile-step is that of R144 to
R150. -/
def Obligations.EngineEventsComplete : Prop :=
  engineAcceptanceCompletes ∧ engineStepsComplete ∧ chunksExact ∧ chunksAccumulate ∧ slicesAccumulate ∧ elementsFinished

/-- 10 R249 to R253: the copy engine's operations do one unit of the job whose turn it is: COPY moves bytes from the source row to the
destination row, FILL repeats the argument, GATHER takes the source row that an index names and SCATTERADD adds to the destination row
that it names. -/
def Sys2Proof.Statements.copyUnitsComplete : Prop :=
  ∀ (k core : Nat) (room : Bool) (s t : State) (j : Job),
    (CopyTurn s k core 0 j → Gives (runJob k true j (unitOf (fun q c r off n => do
      let v ← q.span (c.src + r * c.spitch + off) n
      q.write room c (c.dst + r * c.dpitch + off) n v))) (turned s k core) () t → exec (.copy k core room) s = .next t) ∧
    (CopyTurn s k core 1 j → Gives (runJob k true j (unitOf (fun q c r off n =>
      q.write room c (c.dst + r * c.dpitch + off) n ((List.replicate (n / 8) c.arg).foldr (fun w u => w.toNat + 2 ^ 64 * u) 0))))
      (turned s k core) () t → exec (.fill k core room) s = .next t) ∧
    (CopyTurn s k core 2 j → Gives (runJob k true j (unitOf (fun q c r off n => do
      match ← q.index c r with
      | none => q.write room c (c.dst + r * c.dpitch + off) n 0
      | some m => do
        q.checkRow (c.src + m * c.spitch) c.rowlen
        let v ← q.span (c.src + m * c.spitch + off) n
        q.write room c (c.dst + r * c.dpitch + off) n v))) (turned s k core) () t → exec (.gather k core room) s = .next t) ∧
    (CopyTurn s k core 3 j → Gives (runJob k true j (unitOf (fun q c r _ n => do
      match ← q.index c r with
      | none => pure ()
      | some m => do
        let v ← q.span (c.src + r * c.spitch) n
        q.checkRow (c.dst + m * c.dpitch) n
        q.addRow c.fmt (c.dst + m * c.dpitch) n v))) (turned s k core) () t → exec (.scatteradd k core) s = .next t)

/-- 10 R250, R254, R259: PUT gathers its bytes and sends them with its last one; GET sends its request once and then writes what the
other package answers; a package serves a request whose rows pass its checks; a remote put publishes its lines and is acknowledged; a
job ends with the answer's status, or with status 4 when its retries are spent. -/
def Sys2Proof.Statements.remoteCopiesComplete : Prop :=
  (∀ (k core : Nat) (s t : State) (j : Job), CopyTurn s k core 4 j → Gives (runJob k true j (unitOf (fun q c r off n => do
      let v ← q.span (c.src + r * c.spitch + off) n
      let bytes := q.job.bytes ++ natBytes n v
      modJob q.k true q.job.jid (fun x => { x with bytes := bytes })
      if r + 1 = c.nrow && c.rowlen ≤ off + n then
        let out : RmaRequest := { pkg := c.pkg, ctx := c.rctx, rkey := c.rkey, put := true, rows := c.rows c.dpitch bytes }
        modS (fun s => { s with rmaSent := s.rmaSent ++ [out] })
      else pure ()))) (turned s k core) () t → exec (.put k core) s = .next t) ∧
  (∀ (k core n : Nat) (room : Bool) (a : RemoteAnswer) (s t : State) (j : Job) (c : CopyJob), k < 512 → core < 8 →
    (s.engine k true).copyCurrent core = some j → c = readCopy j.param → c.op = 5 → j.ready = false → j.saved = none →
    (s.engine k true).stopped j = false → j.cancel = false → j.sent = true → a.status = 0 → n = min 256 (c.rowlen - j.pos.getD 1 0) →
    a.data.length = n →
    Gives (runJob k true j (unitOf (fun q c r off n => q.write room c (c.dst + r * c.dpitch + off) n (bytesNat a.data)))) s () t →
    exec (.get k core room a) s = .next t) ∧
  (∀ (q : RmaRequest) (r : RmaRow) (s s1 : State), s.boot.opened = true → q.rows = [r] → r.len ≠ 0 → q.put = true → r.data.length = r.len →
    Gives (checkRma q r) s none s1 →
    exec (.rmaRequest q) s = .next { s1 with
      fresh := s1.fresh + 1
      rma := put s1.rma s1.fresh q }) ∧
  (∀ (n : Nat) (q : RmaRequest) (sh : FMap Shadow) (s s1 s2 : State), find s.rma n = some q →
    Gives (rmaShadow q) { s with rma := del s.rma n } (.ok sh) s1 → Gives (publishLines (.copyUnit 0) none sh) s1 () s2 →
    exec (.remotePutPublish n) s = .next { s2 with rmaAnswers := s2.rmaAnswers ++ [{ status := 0, addr := 0, data := [] }] }) ∧
  (∀ (k core : Nat) (s t : State) (j : Job), k < 512 → core < 8 → (s.engine k true).copyCurrent core = some j →
    (readCopy j.param).remote = true → j.sent = true → j.saved = none → j.ready = false → Gives (endJob k true j 4 0) s () t →
    exec (.retryBudgetExhausted k core) s = .next t) ∧
  (∀ (k core : Nat) (a : RemoteAnswer) (s t : State) (j : Job), k < 512 → core < 8 → (s.engine k true).copyCurrent core = some j →
    (readCopy j.param).op = 4 → j.sent = true → a.status = 0 → Gives (endJob k true j 0 0) s () t →
    exec (.putPublishAcknowledged k core a) s = .next t)

/-- 10 R249 to R254: the copy engines' units, local and remote. That a remote put that arrives is published at the time of the copy unit of
cluster 0, for which the spec names no agent, is the model's reading: notes/assumptions/45.md. -/
def Obligations.CopyEventsComplete : Prop :=
  copyUnitsComplete ∧ remoteCopiesComplete

/-- A collective's instance at a local rank whose job has the copy unit's turn (10 R248, R255, R256), in a package state. -/
structure Sys2Proof.Statements.CollTurn (s : State) (kind ctx grp inst rank : Nat) (c : Coll) (k : Nat) (j : Job) : Prop where
  context : ∃ x, find s.contexts ctx = some x ∧ x.colls.find? (fun y => y.grp = grp && y.inst = inst) = some c
  kind : bits (c.shape.getD 1 0) 63 60 = kind
  here : ∃ m, c.members[rank]? = some m ∧ m.1 = s.boot.pkgid
  job : ∃ e, s.jobs.find? (fun p => p.2.2.kind = 3 && p.2.2.ctx = ctx && p.2.2.grp = grp && p.2.2.inst = inst &&
    (readColl p.2.2.param).rank = rank) = some (k, e, j)
  turn : s.copyTurn k = some (j.core % 8)
  runs : s.copyRuns (s.engine k true) j = true
  live : j.cancel = false

/-- A COLL event of a kind (10 R257). -/
def Sys2Proof.Statements.collKind (i : Instr) (kind ctx grp inst rank : Nat) (room : Bool) (a : RemoteAnswer) : Prop :=
  (i = .allreduce ctx grp inst rank room a ∧ kind = 0) ∨ (i = .reduce ctx grp inst rank room a ∧ kind = 1) ∨
    (i = .bcast ctx grp inst rank room a ∧ kind = 2) ∨ (i = .allgather ctx grp inst rank room a ∧ kind = 3)

/-- part[k][j] of 10 R257: the tree over the ranks' leaves. -/
def Sys2Proof.Statements.partAt (g : Nat → Nat → Nat) (leaf : Nat → Nat) : Nat → Nat → Nat
  | 0, j => leaf j
  | k + 1, j => g (partAt g leaf k (2 * j)) (partAt g leaf k (2 * j + 1))

/-- 10 R257: what a rank's destination receives: `v` holds the `n` bytes from offset `off` of the result of the ranks' bytes `parts`. A
reduction's elements are those of the tree over the ranks padded with the identity; a broadcast's bytes are the root's; a gathering's
bytes are the ranks' blocks by rising rank. -/
def Sys2Proof.Statements.CollResult (p : CollJob) (kind ranks : Nat) (parts : Nat → List Byte) (off n v : Nat) : Prop :=
  v < 2 ^ (8 * n) ∧
  (kind < 2 → ∀ L, ranks ≤ 2 ^ L → (∀ m, ranks ≤ 2 ^ m → L ≤ m) → ∀ i < 8 * n / elemBits p.fmt,
    v / 2 ^ (elemBits p.fmt * i) % 2 ^ elemBits p.fmt = partAt (combine p.rop p.fmt)
      (fun r => if r < ranks then elemAt p.fmt (parts r) (8 * off / elemBits p.fmt + i) else identityOf p.rop p.fmt) L 0 %
        2 ^ elemBits p.fmt) ∧
  (kind = 2 → ∀ o < n, v / 2 ^ (8 * o) % 256 = ((parts p.root).getD (off + o) 0).toNat) ∧
  (kind = 3 → (∀ r < ranks, (parts r).length = p.size) → ∀ o < n,
    v / 2 ^ (8 * o) % 256 = ((parts ((off + o) / p.size)).getD ((off + o) % p.size) 0).toNat)

/-- 10 R257: the combination g and the identity of each operation and format. -/
def Sys2Proof.Statements.combinations : Prop :=
  (∀ (w fmt a b : Nat), (fmt = 17 ∧ w = 32 ∨ fmt = 18 ∧ w = 64) → a < 2 ^ w → b < 2 ^ w →
    combine 0 fmt a b = (a + b) % 2 ^ w ∧
    (BitVec.ofNat w (combine 1 fmt a b)).toInt = min (BitVec.ofNat w a).toInt (BitVec.ofNat w b).toInt ∧
    (BitVec.ofNat w (combine 2 fmt a b)).toInt = max (BitVec.ofNat w a).toInt (BitVec.ofNat w b).toInt ∧
    identityOf 0 fmt = 0 ∧ identityOf 1 fmt = 2 ^ (w - 1) - 1 ∧ identityOf 2 fmt = 2 ^ (w - 1)) ∧
  (∀ fmt, 19 ≤ fmt → fmt ≤ 22 → ∀ a b, combine 0 fmt a b = ((matFmt fmt).add 0 a b).1 ∧
    combine 1 fmt a b = ((matFmt fmt).minmax false a b).1 ∧ combine 2 fmt a b = ((matFmt fmt).minmax true a b).1 ∧
    identityOf 0 fmt = (matFmt fmt).signed true 0 ∧ identityOf 1 fmt = (matFmt fmt).signed false (matFmt fmt).infBits ∧
    identityOf 2 fmt = (matFmt fmt).signed true (matFmt fmt).infBits)

/-- 10 R256 to R258: a rank's first units read its source in blocks of 256 bytes; the last of them gives its bytes to the instance. A rank
whose source no one needs gives none. -/
def Sys2Proof.Statements.contributionsMade : Prop :=
  ∀ (i : Instr) (kind ctx grp inst rank : Nat) (room : Bool) (a : RemoteAnswer), collKind i kind ctx grp inst rank room a →
  ∀ (s s1 s2 s3 s4 s5 s6 t : State) (c : Coll) (k off n v : Nat) (j : Job) (p : CollJob), CollTurn s kind ctx grp inst rank c k j →
    c.failed = none → j.given = false → p = readColl j.param → p.kind = kind → off = j.pos.getD 1 0 → n = min 256 (p.size - off) →
    s1 = turned s k (j.core % 8) →
    Gives (ExceptT.run (if kind = 1 ∧ rank ≠ p.root then pure () else
      Seat.checkDest { k := k, copy := true, job := j } p.dst (p.result c))) s1 (.ok ()) s2 →
    Gives (modJob k true j.jid (fun y => { y with started := true })) s2 () s3 →
    (¬(kind = 2 ∧ rank ≠ p.root) → Gives (ExceptT.run (Seat.span { k := k, copy := true, job := j } (p.src + off) n)) s3 (.ok v) s4 →
      (p.size ≤ off + n →
        Gives (modColl j.ctx j.grp j.inst (fun y => { y with parts := put y.parts rank (j.bytes ++ natBytes n v) })) s4 () s5 →
        Gives (modJob k true j.jid (fun y => { y with
          bytes := []
          given := true
          pos := [1, 0] })) s5 () s6 →
        Gives (stepDone k true j.jid (s3.clock (.copyUnit k)).t) s6 () t → exec i s = .next t) ∧
      (off + n < p.size → Gives (modJob k true j.jid (fun y => { y with
          bytes := j.bytes ++ natBytes n v
          pos := [0, off + n] })) s4 () s5 →
        Gives (stepDone k true j.jid (s3.clock (.copyUnit k)).t) s5 () t → exec i s = .next t)) ∧
    (kind = 2 ∧ rank ≠ p.root → Gives (modJob k true j.jid (fun y => { y with
        given := true
        pos := [1, 0] })) s3 () s4 →
      Gives (stepDone k true j.jid (s3.clock (.copyUnit k)).t) s4 () t → exec i s = .next t)

/-- 10 R256 to R258: once every contribution that its result needs is there, a rank's units write the blocks of its result into its
shadow, the last of them no earlier than the instance's time; a rank of a REDUCE that is not the root ends DONE. -/
def Sys2Proof.Statements.resultsWritten : Prop :=
  ∀ (i : Instr) (kind ctx grp inst rank : Nat) (room : Bool) (a : RemoteAnswer), collKind i kind ctx grp inst rank room a →
  ∀ (s s1 s2 s3 s4 s5 s6 t : State) (c : Coll) (k off n v total : Nat) (j : Job) (p : CollJob),
    CollTurn s kind ctx grp inst rank c k j → c.failed = none → j.given = true → p = readColl j.param → p.kind = kind →
    off = j.pos.getD 1 0 → total = p.result c → n = min 256 (total - off) → s1 = turned s k (j.core % 8) →
    (¬(kind = 1 ∧ rank ≠ p.root) → 17 ≤ p.fmt → p.fmt ≤ 22 → off % 256 = 0 →
      Gives (ExceptT.run (Seat.checkDest { k := k, copy := true, job := j } (p.dst + off) (total - off))) s1 (.ok ()) s2 →
      Gives (modJob k true j.jid (fun y => { y with started := true })) s2 () s3 →
      CollResult p kind c.members.length (fun r => findD (s1.partsOf j) [] r) off n v →
      Gives (ExceptT.run (Seat.writeShadow { k := k, copy := true, job := j } room (p.dst + off) n v)) s3 (.ok ()) s4 →
      (off + n < total → Gives (modJob k true j.jid (fun y => { y with pos := [1, off + n] })) s4 () s5 →
        Gives (stepDone k true j.jid (s3.clock (.copyUnit k)).t) s5 () t → exec i s = .next t) ∧
      (total ≤ off + n → Gives (raise (.copyUnit k) c.time) s4 () s5 → Gives (lastStep k true j.jid) s5 () s6 →
        Gives (modJob k true j.jid (fun y => { y with ready := true })) s6 () t → exec i s = .next t)) ∧
    (kind = 1 ∧ rank ≠ p.root → ∀ y, Gives (modJob k true j.jid (fun y => { y with started := true })) s1 () s2 →
      Gives (lastStep k true j.jid) s2 () s3 → (s3.engine k true).jobs.find? (fun x => x.jid = j.jid) = some y →
      Gives (endJob k true y 0 0) s3 () t → exec i s = .next t)

/-- 10 R255 to R258: a collective of the kind that its instance has does one unit of a local rank's job, or ends the job with the status
of an instance that has failed; the ranks' sources are read, and each destination receives what its kind gives. -/
def Obligations.CollectivesComplete : Prop :=
  (∀ (i : Instr) (kind ctx grp inst rank : Nat) (room : Bool) (a : RemoteAnswer), collKind i kind ctx grp inst rank room a →
  ∀ (s : State) (c : Coll) (k : Nat) (j : Job), CollTurn s kind ctx grp inst rank c k j →
    (∀ t, c.failed = none → Gives (runJob k true j (collUnit room c)) (turned s k (j.core % 8)) () t → exec i s = .next t) ∧
    (∀ t st, c.failed = some st → Gives (endJob k true j st 0) (turned s k (j.core % 8)) () t → exec i s = .next t)) ∧
  contributionsMade ∧ resultsWritten ∧ combinations

/-- 12 R296; 13 R322: WAITW_DISPATCH. The first waiting thread that a stage serves takes its head item: a thread that was created to
wait goes on with the item's words in g0 to g7 and bst 0, and its recipes that name one of those are stale (07 R168); one that waits in a WAITW completes it with the item's words, and d holds 16
times its length plus the stage. -/
def Sys2Proof.Statements.workIsDispatched : Prop :=
  ∀ (k n uid tid : Nat) (d : BitVec 8) (m : BitVec 16) (s s1 s2 s3 : State) (x : Thread) (it : Item) (take : M Unit), k < 512 →
    (s.cluster k).waiters.findSome? (fun u => match s.byUid u with
      | some (tid, x) => (s.serving k x).map (fun n => (u, tid, x, n))
      | none => none) = some (uid, tid, x, n) →
    (s.stage k n).items.head? = some it → x.role = .single →
    take = (do
      modS (fun s' => s'.setStage k n { s.stage k n with items := (s.stage k n).items.drop 1 })
      modCluster k (fun c => { c with waiters := c.waiters.filter (· != uid) })) →
    (∀ t, x.park = some (.work d m true) → Gives (raise (.core (coreOf tid)) it.time) s () s1 → Gives take s1 () s2 →
      Gives (writeWindow (coreOf tid) x.wbase 8 ((it.words.take 8).map (fun w => { val := w }))) s2 () s3 →
      Gives (modThread tid (fun x => { x with
        park := none
        bst := 0
        recipes := x.recipes.map (fun p => if (recipeOperands x.win p.2).any (fun n => decide (n < 8)) then
          (p.1, { p.2 with stale := true }) else p) })) s3 () t → exec (.waitwDispatch k) s = .next t) ∧
    (∀ s4 s5 s6 t, x.park = some (.work d m false) → Gives take s () s1 → Gives (modThread tid (fun x => { x with park := none })) s1 () s2 →
      Gives (raise (.core (coreOf tid)) it.time) { s2 with cur := tid } () s3 → Gives (modThread tid (fun x => { x with bst := 0 })) s3 () s4 →
      Gives (writeResidents 0 ((it.words ++ List.replicate 8 0).take 8)) s4 () s5 →
      Gives (writeName (wordOf (.waitw d m)) d (word (16 * it.words.length) + word n)) s5 () s6 → Retires s6 t →
      exec (.waitwDispatch k) s = .next { t with cur := s.cur })

/-- 12 R297; 13 R322: QUIESCENCE ends the WAITW wait of a quiet launch's thread with EMPTY; a thread that was created to wait goes on
with bst 2, one that waits in a WAITW completes it with 0 in d. -/
def Sys2Proof.Statements.quietThreadsLearn : Prop :=
  ∀ (h tid : Nat) (d : BitVec 8) (m : BitVec 16) (s s1 : State) (x : Thread), s.quiescent h = true → s.threads = [(tid, x)] →
    s.thread tid = some x → x.launch = h →
    Gives (modCluster (clusterOf (coreOf tid)) (fun c => { c with waiters := c.waiters.filter (· != x.uid) })) s () s1 →
    (∀ t, x.park = some (.work d m true) → Gives (modThread tid (fun x => { x with
        park := none
        bst := 2 })) s1 () t → exec (.quiescence h) s = .next t) ∧
    (∀ s2 s3 t, x.park = some (.work d m false) → x.role = .single → Gives (modThread tid (fun x => { x with
        park := none
        bst := 2 })) s1 () s2 → Gives (writeName (wordOf (.waitw d m)) d 0) { s2 with cur := tid } () s3 → Retires s3 t →
      exec (.quiescence h) s = .next { t with cur := s.cur })

/-- 12 R293; 13 R330; 15 R366: a report of a cluster is counted by its launch: a creation, an exit or a kill with its time, an arrival at a
BARRIER with its thread and time, and an arrival withdrawn. -/
def Sys2Proof.Statements.reportsAreCounted : Prop :=
  ∀ (k : Nat) (s t : State) (r : Report) (rs : List Report) (l l' : Launch), k < 512 → (s.cluster k).reports = r :: rs →
    find s.launches r.launch = some l →
    (r.kind = 0 → l' = { l with created := l.created + 1 }) →
    (r.kind = 1 → l' = { l with
      exited := l.exited + 1
      time := tmax l.time r.time }) →
    (r.kind = 2 → l' = { l with
      killed := l.killed + 1
      time := tmax l.time r.time }) →
    (r.kind = 3 → l' = { l with arrivals := l.arrivals ++ [(r.uid, r.time)] }) →
    (3 < r.kind → l' = { l with arrivals := l.arrivals.filter (fun a => a.1 != r.uid) }) →
    Gives (do
      releaseBarrier r.launch
      freeStatus r.launch
      completeLaunch r.launch
      freeHandles) { s.setCluster k { s.cluster k with reports := rs } with launches := put s.launches r.launch l' } () t →
    exec (.sideboardReport k) s = .next t

/-- 12 R289, R293, R296, R297; 13 R322, R326, R330; 15 R366: the events of the sideboards: an item goes to the first waiter that it serves; a quiet
launch's waiting thread learns EMPTY; a thread is created in the best place, with the time of its LAUNCH; a launch record is read; a
report is counted; a lost thread is to be created again. -/
def Obligations.SideboardEventsComplete : Prop :=
  workIsDispatched ∧ quietThreadsLearn ∧ reportsAreCounted ∧
  (∀ (h k n f tid : Nat) (s s1 : State) (l : Launch), k < 512 → find s.launches h = some l → l.state = .running → l.cancelling = false →
    l.record.cbase ≤ k → k < l.record.cbase + l.record.ccnt → l.nextIndex k = some n →
    greatestBy (·.1) (s.candidates l k) = some (f, tid) →
    Gives (createThread tid l (some n) (BitVec.ofNat 55 l.record.entry) [l.record.args, word n] none l.since) s true s1 →
    exec (.threadCreation h k) s = .next { s1 with launches := put s1.launches h (if l.again.contains n then { l with
        again := l.again.erase n
        made := l.made + 1 }
      else { l with
        next := put l.next k (n + l.record.ccnt)
        made := l.made + 1 }) }) ∧
  (∀ (h : Nat) (s s1 t : State) (l : Launch) (ws : List Word), find s.launches h = some l → l.state = .pending → l.cancelling = false →
    Gives (bureauReads (h / 2 ^ 23) l.ctx l.recordVa.toNat 8) s (some ws) s1 → recordBad ws = false →
    (numbers (readRecord ws).cbase (readRecord ws).ccnt).any (fun k => (readRecord ws).declared.any (fun n =>
      (s.stage k n).launch != 0)) = false →
    (readRecord ws).cores.any (fun c => (s.entryOf c l.ctx).isNone) = false →
    Gives (do
      for k in numbers (readRecord ws).cbase (readRecord ws).ccnt do
        for n in (readRecord ws).declared do
          let (hwm, out) := (readRecord ws).stages.getD n (0, none)
          modS (fun s => s.setStage k n { launch := h, hwm := hwm, out := out })
      modS (fun s => { s with launches := put s.launches h { l with
        state := .running
        record := readRecord ws
        nthr := (readRecord ws).nthr } })) s1 () t →
    exec (.launchRecordRead h) s = .next t) ∧
  (∀ (h n : Nat) (s : State) (l : Launch), find s.launches h = some l → l.state = .running → l.record.restart = true →
    l.cancelling = false → l.lost.contains n = true →
    exec (.restart h n) s = .next { s with launches := put s.launches h { l with
      lost := l.lost.erase n
      again := l.again ++ [n] } })

/-- 12 R302, R303, R311 to R313; 13 R333; 09 R225, R228: a complete message leaves its slot; one that reaches its bound slot is received
where the store has room and nothing is held for the endpoint, and else joins the overflow queue; a held one goes on, with the words of
the ring, when its endpoint has a slot with room; a migrating thread arrives with its window and the recipes of its packet's records, and its
core learns the packet's time. Where
the ring's oldest word lies, and how messages are laid out in it, is the model's choice: notes/assumptions/60.md. -/
def Obligations.MessagesAndMigrationComplete : Prop :=
  (∀ (tid job : Nat) (s t : State) (x : Thread) (ws : List (Word × Bool)), tid < 262144 → s.thread tid = some x → x.park = some .inject →
    s.olderDone (coreOf tid) x = true → x.effects = [] → s.errs = [] → (s.slot tid).compose = ws → ws.any (·.2) = false →
    job = ((find s.launches x.launch).map (·.job)).getD 0 →
    Gives (inject tid x job (ws.map (·.1)) (s.pts (coreOf tid))) (s.setSlot tid { s.slot tid with
      compose := []
      thread := some { x with park := none } }) () t → exec (.messageInjection tid) s = .next t) ∧
  (∀ (n tid : Nat) (s s1 t : State) (m : Message), find s.messages n = some m →
    s.messages.any (fun p => decide (p.1 < n) && p.2.srcUid = m.srcUid && p.2.dst = m.dst && p.2.error = m.error) = false →
    m.toSlot = some tid → m.error = false → (s.slot tid).endpoint = some (m.job, m.dst) → (s.slot tid).owner = some m.ctx →
    (s.slot tid).state ≠ .free →
    (s.heldFor m.ctx m.job m.dst = [] → (s.core (coreOf tid)).received + m.words.length ≤ 512 →
      Gives (deliverTo tid (m.hold s) m.time) { s with messages := del s.messages n } () s1 → Gives (sweepJobs m.ctx) s1 () t →
      exec (.messageDelivery n) s = .next t) ∧
    (s.heldFor m.ctx m.job m.dst ≠ [] ∨ 512 < (s.core (coreOf tid)).received + m.words.length →
      Gives (toOverflow (coreOf tid) m) { s with messages := del s.messages n } () s1 → Gives (sweepJobs m.ctx) s1 () t →
      exec (.messageDelivery n) s = .next t)) ∧
  (∀ (ctx job dst slot : Nat) (s s1 s2 s3 s4 s5 s6 t : State) (h : HeldMessage) (hs : List HeldMessage) (j j' : JobEntry) (ws : List Word),
    dst ≠ 0xFFFFFF → s.heldFor ctx job dst = h :: hs →
    (s.cores.flatMap (fun c => c.2.slots.filterMap (fun p => if p.2.endpoint = some (job, dst) && p.2.state != .free &&
      p.2.owner = some ctx then some (64 * c.1 + p.1) else none))).head? = some slot →
    Gives (readJob (coreOf slot) ctx job) s j s1 → Gives (readEndpoint j dst) s1 (1, slot) s2 →
    (s2.core (coreOf slot)).received + h.words.length ≤ 512 → Gives (readJob (coreOf slot) ctx job) s2 j' s3 →
    Gives (ringWords j' (findD s2.rings 0 j'.pa)
      ((((s2.overflow.filter (fun x => x.ctx = ctx && x.job = job)).takeWhile (fun x => x != h)).map (·.words.length)).sum) h.words.length)
      s3 ws s4 →
    Gives (changeQueue (coreOf slot) ctx job (·.erase h)) s4 () s5 → Gives (raise (.core (coreOf slot)) (returnTime s2.floor h.time)) s5 () s6 →
    Gives (sweepJobs ctx) (s6.setSlot slot { s6.slot slot with inbox := (s6.slot slot).inbox ++ [{ h with words := ws }] }) () t →
    exec (.overflowDrain ctx job dst) s = .next t) ∧
  (∀ (n : Nat) (s s1 s2 : State) (p : Packet) (x : Thread), find s.packets n = some p → s.thread p.target = some x → x.uid = p.uid →
    x.park = some .migration → Gives (raise (.core (coreOf p.target)) (returnTime s.floor (bits (p.header.getD 2 0) 39 0))) s () s1 →
    Gives (writeWindow (coreOf p.target) x.wbase x.win p.window) s1 () s2 → s2.thread p.target = some x →
    ∃ t, exec (.migrationArrival n) s = .next t ∧ find t.packets n = none ∧ t.thread p.target = some { x with
        park := none
        recipes := recipesOf p.records.length p.records } ∧
      (t.core (coreOf p.target)).rf = (s2.core (coreOf p.target)).rf ∧ t.clocks = s1.clocks)

/-- 15 R374: a thread that is to be saved stops. Between two words it keeps its latch; an instruction that waits is withdrawn, and its
unit is to start again from its first word; one that has arrived in a BARRIER has arrived; a thread created to wait for work still waits
for it. -/
def Sys2Proof.Statements.preEmptionStops : Prop :=
  ∀ (tid : Nat) (s : State) (x : Thread), tid < 262144 → s.thread tid = some x → x.preempt.isSome = true →
    prv (s.slot tid).tstat = false → x.resume = {} → s.pairStops tid x = true →
    (x.park = none → x.released = none →
      exec (.preEmption tid) s = .next (s.setSlot tid { s.slot tid with thread := some { x with park := some (.save none none) } })) ∧
    (∀ (w : Wait), w ∈ [.ldq, .fwi, .fwo, .rcv, .stores, .fence, .writeBacks] → x.park = some w → x.released = none →
      exec (.preEmption tid) s = .next (s.setSlot tid { s.slot tid with thread := some { x with
        pc := x.first
        unitLen := 0
        latch := {}
        park := some (.save none none) } })) ∧
    (∀ d, x.park = some (.barrier d) → exec (.preEmption tid) s = .next (s.setSlot tid { s.slot tid with thread := some { x with
        pc := x.first
        unitLen := 0
        latch := {}
        released := none
        park := some (.save (some d) none) } })) ∧
    (∀ d m start t, x.park = some (.work d m start) → x.released = none → Gives (do
        modThread tid (fun _ => { x with
          pc := x.first
          unitLen := 0
          latch := {}
          park := some (.save none (if start then some m else none)) })
        modCluster (clusterOf (coreOf tid)) (fun k => { k with waiters := k.waiters.filter (· != x.uid) })) s () t →
      exec (.preEmption tid) s = .next t)

/-- 12 R298, R299: QUANTUM_BOUNDARY. Where the weights of the contexts with a placed launch sum to 0 it moves no slot. A move that falls
due is of the highest-numbered slot of a context furthest above its guarantee, to a placed context that waits below its own; the slot
gets its new owner at once where it is FREE, and the thread of a HOME slot is to be saved. -/
def Sys2Proof.Statements.quantumMovesSlots : Prop :=
  (∀ (core : Nat) (s : State), core < 4096 → ((s.placedContexts core).map (fun c => bits (s.entry core c).sched 55 48)).sum = 0 →
    exec (.quantumBoundary core) s = .next s) ∧
  (∀ (core t ctx : Nat) (s : State), core < 4096 → s.slotMove core = some (t, ctx) →
    t / 64 = core ∧ ctx ∈ s.placedContexts core ∧ s.waitsFor core ctx = true ∧ s.heldSlots core ctx < s.guarantee core ctx ∧
    (∀ d, s.assigned t = some d → d ≠ ctx ∧ s.guarantee core d < s.heldSlots core d ∧
      (∀ u, u / 64 = core → s.assigned u = some d → u ≤ t) ∧
      (∀ u e, u / 64 = core → s.assigned u = some e → e ≠ ctx →
        s.heldSlots core e - s.guarantee core e ≤ s.heldSlots core d - s.guarantee core d))) ∧
  (∀ (core t ctx : Nat) (s s1 : State), core < 4096 → s.slotMove core = some (t, ctx) → t % 64 ≠ 0 →
    s1 = s.setSlot t { s.slot t with own := setBits (setBits 0 63 63 1) 11 0 ctx } → s1.slotMove core = none →
    s.assigned t ≠ s1.assigned t →
    ((s.slot t).state = .free →
      ∀ u, Gives (emptyCells t) (s1.setSlot t { s1.slot t with owner := s1.assigned t }) () u → exec (.quantumBoundary core) s = .next u) ∧
    (∀ x, (s.slot t).state = .home → s.thread t = some x → x.role = .single → x.dead = false → s1.assigned t ≠ (s.slot t).owner →
      s1.threads.filter (fun p => p.2.home = t || p.1 = t) = [(t, x)] →
      exec (.quantumBoundary core) s = .next (s1.setSlot t { s1.slot t with thread := some { x with
        preempt := some (x.preempt.getD 1) } })))

/-- 12 R282, R298, R299; 15 R374 to R377: a thread that is to be saved stops; its record is written, its slot is freed and a save record
is posted; a slot is restored from a record, or its result says why not; slots move at a quantum's end. -/
def Obligations.SavesComplete : Prop :=
  preEmptionStops ∧ quantumMovesSlots ∧
  (∀ (tid free : Nat) (arrived : Option (BitVec 8)) (start : Option (BitVec 16)) (s s1 s2 s3 s4 s5 s6 s7 t : State) (x : Thread)
    (mate : Option Nat) (record : List RecordWord) (loads : List LdEntry),
    tid < 262144 → s.thread tid = some x → x.park = some (.save arrived start) → s.drained tid x = true →
    Gives (holdMail (coreOf tid) tid x.uid) s true s1 → x.privLines = [] → x.earlyTime = none → x.place tid = tid →
    (s.slot tid).endpoint = none → Gives (threadRecord tid x) s1 record s2 → Gives (sweptLoads tid 0 (s.loadsToSave tid x)) s2 loads s2 →
    Gives (writeRecordLines ((s.slot tid).tsave.toNat / 32) ((record.length + 3) / 4) record) s2 () s3 →
    Gives (modCore (coreOf tid) (fun c => { c with
      full := c.full.filter (· != slotOf tid)
      cells := del c.cells (slotOf tid) })) s3 () s4 →
    Gives (endHolds (coreOf tid) x) s4 () s5 → (∀ y, s5.partner tid = some y → mate = some y.uid) →
    (s5.partner tid = none → mate = (s5.saved.find? (fun q => q.mate = some x.uid)).map (·.uid)) →
    Gives draw s5 free s6 → Gives (freeSlot tid) s6 () s7 →
    Gives (do
      modS (fun s' => { s' with saved := s'.saved ++ [{
        pa := (s.slot tid).tsave.toNat, uid := x.uid, ctx := x.ctx, launch := x.launch, index := x.index, home := x.home, role := x.role,
        endpoint := none, arrived := arrived, start := start, reply := x.resume.reply, inbox := (s.slot tid).inbox, mate := mate,
        ldq := loads, due := (x.resume.reply.map (fun r => extendTime s5.floor r.time)).getD 0 }] })
      fillMail (coreOf tid) x.uid [recordWord 2 1 (x.preempt.getD 1) x.ctx x.home 0, Config.freeWord free, x.pc.setWidth 64,
        word (s.slot tid).tsave.toNat]) s7 () t →
    exec (.threadSave tid) s = .next t) ∧
  (∀ (tid pa : Nat) (v : Word) (s s1 : State), tid < 262144 → pa = bits v 51 6 * 64 →
    (∀ r, Gives (readThread pa) s (.ok r) s1 →
      (∀ t, s1.restoreFails tid pa r = none → Gives (restoreThread tid pa r) s1 () t → exec (.slotRst tid v) s = .next t) ∧
      (∀ n, s1.restoreFails tid pa r = some n → exec (.slotRst tid v) s = .next (s1.setSlot tid { s1.slot tid with rst := n }))) ∧
    (Gives (readThread pa) s .bad s1 → exec (.slotRst tid v) s = .next (s1.setSlot tid { s1.slot tid with rst := 5 })) ∧
    (∀ s2, Gives (readThread pa) s .poisoned s1 → Gives (restoreKilled tid pa) s1 () s2 →
      exec (.slotRst tid v) s = .next (s2.setSlot tid { s2.slot tid with rst := 4 })))

/-- 03 R81; 08 R194; 14 R344 to R346; 15 R362, R369, R371, R378: REGISTER_WRITE. A bureau's write of a register gives its RW fields the
word's, within their bounds: the shootdown's address, the engines' counter of retries and spill bases, the counters of cores, slices and
controllers, the format regions, the registers of a slot, and the registers of a core. -/
def Sys2Proof.Statements.registerWritesComplete : Prop :=
  (∀ (r : RegName) (v : Word) (s t : State), r.valid = true → Gives (writeRegister r v) s () t → exec (.registerWrite r v) s = .next t) ∧
  (∀ (k : Nat) (v : Word) (s : State), k < 512 →
    exec (.registerWrite (.shootA k) v) s = .next (s.setCluster k { s.cluster k with shootA := v }) ∧
    exec (.registerWrite (.chkRetry k) v) s = .next (s.setCluster k { s.cluster k with trestle := { (s.cluster k).trestle with
      retries := v.toNat } }) ∧
    exec (.registerWrite (.trestleSpill k) v) s = .next (s.setCluster k { s.cluster k with trestle := { (s.cluster k).trestle with
      spill := word (bits v 51 0) } }) ∧
    exec (.registerWrite (.copySpill k) v) s = .next (s.setCluster k { s.cluster k with copy := { (s.cluster k).copy with
      spill := word (bits v 51 0) } })) ∧
  (∀ (c : Nat) (v : Word) (s : State), c < 4096 →
    exec (.registerWrite (.coreCounter c 0xF0840) v) s = .next (s.setCore c { s.core c with refetch := v.toNat }) ∧
    exec (.registerWrite (.coreCounter c 0xF0848) v) s = .next (s.setCore c { s.core c with corrected := v.toNat }) ∧
    exec (.registerWrite (.coreCounter c 0xF0850) v) s = .next (s.setCore c { s.core c with poisoned := v.toNat }) ∧
    exec (.registerWrite (.coreCounter c 0xF0858) v) s = .next (s.setCore c { s.core c with regPoison := v.toNat })) ∧
  (∀ (n : Nat) (v : Word) (s : State), n < 768 →
    exec (.registerWrite (.sliceReg n 0x800) v) s = .next (s.setSlice n { s.slice n with bypass := v.toNat }) ∧
    exec (.registerWrite (.sliceReg n 0x808) v) s = .next (s.setSlice n { s.slice n with sharedEntry := v.toNat }) ∧
    exec (.registerWrite (.sliceReg n 0x838) v) s = .next (s.setSlice n { s.slice n with cancelled := v.toNat }) ∧
    exec (.registerWrite (.sliceReg n 0x840) v) s = .next (s.setSlice n { s.slice n with refetch := v.toNat }) ∧
    exec (.registerWrite (.sliceReg n 0x848) v) s = .next (s.setSlice n { s.slice n with corrected := v.toNat }) ∧
    exec (.registerWrite (.sliceReg n 0x850) v) s = .next (s.setSlice n { s.slice n with poisoned := v.toNat })) ∧
  (∀ (p : Nat) (v : Word) (s : State), p < 64 →
    exec (.registerWrite (.portReg p 0x810) v) s = .next (s.setPort p { s.port p with single := v.toNat }) ∧
    exec (.registerWrite (.portReg p 0x818) v) s = .next (s.setPort p { s.port p with burst := v.toNat }) ∧
    exec (.registerWrite (.portReg p 0x820) v) s = .next (s.setPort p { s.port p with merged := v.toNat }) ∧
    exec (.registerWrite (.portReg p 0x828) v) s = .next (s.setPort p { s.port p with dropped := v.toNat }) ∧
    exec (.registerWrite (.portReg p 0x830) v) s = .next (s.setPort p { s.port p with wb := v.toNat }) ∧
    (∀ k j w, k < 16 → j < 4 →
      (j = 0 → bits w 51 8 = bits v 51 8 ∧ bits w 0 0 = bits v 0 0 ∧ bits w 63 52 = 0 ∧ bits w 7 1 = 0) →
      (j = 1 → w = word (bits v 31 0)) →
      (j = 2 → (bits v 51 8 < p * 2 ^ 38 → w = word (256 * (p * 2 ^ 38))) ∧
        (p * 2 ^ 38 ≤ bits v 51 8 → bits v 51 8 < (p + 1) * 2 ^ 38 → w = word (256 * bits v 51 8)) ∧
        ((p + 1) * 2 ^ 38 ≤ bits v 51 8 → w = word (256 * ((p + 1) * 2 ^ 38 - 1)))) →
      (j = 3 → bits w 63 57 = bits v 63 57 ∧ bits w 56 52 = 0 ∧ bits w 51 0 = bits v 51 0) →
      exec (.registerWrite (.portReg p (0x100 + 32 * k + 8 * j)) v) s = .next (s.setPort p { s.port p with
        regions := put (s.port p).regions k (setAt (findD (s.port p).regions [0, 0, 0, 0] k) j w) }))) ∧
  (∀ (tid : Nat) (v : Word) (s : State), tid < 262144 →
    exec (.registerWrite (.slotReg tid 0) v) s = .next (s.setSlot tid { s.slot tid with tstat := writeStat (s.slot tid).tstat v }) ∧
    exec (.registerWrite (.slotReg tid 1) v) s = .next (s.setSlot tid { s.slot tid with tcause := word (bits v 7 0) }) ∧
    exec (.registerWrite (.slotReg tid 2) v) s = .next (s.setSlot tid { s.slot tid with tvalue := v }) ∧
    exec (.registerWrite (.slotReg tid 3) v) s = .next (s.setSlot tid { s.slot tid with tpc := word (bits v 54 2 * 4) }) ∧
    (∀ n, n < 4 → exec (.registerWrite (.slotReg tid (4 + n)) v) s = .next (s.setSlot tid { s.slot tid with
      tkeep := setAt (s.slot tid).tkeep n v }) ∧
      exec (.registerWrite (.slotReg tid (8 + n)) v) s = .next (s.setSlot tid { s.slot tid with
        trecw := setAt (s.slot tid).trecw n v })) ∧
    exec (.registerWrite (.slotReg tid 0xD) v) s = .next (s.setSlot tid { s.slot tid with tsave := word (bits v 51 6 * 64) }) ∧
    exec (.registerWrite (.slotReg tid 0xE) v) s = exec (.slotRst tid v) s) ∧
  (∀ (c : Nat) (v : Word) (s : State) (e : CtxEntry → State), c < 4096 →
    (∀ y, e y = s.setCore c { s.core c with table := put (s.core c).table (s.core c).cxSel y }) →
    exec (.registerWrite (.coreReg c 0x100) v) s = .next (s.setCore c { s.core c with cxSel := bits v 5 0 }) ∧
    exec (.registerWrite (.coreReg c 0x102) v) s = .next (e { (s.core c).selected with
      sched := setBits (setBits 0 63 32 (bits v 63 32)) 24 0 (min (max (bits v 24 0) 4096) 16777216) }) ∧
    exec (.registerWrite (.coreReg c 0x103) v) s = .next (e { (s.core c).selected with time := word (bits v 15 0) }) ∧
    exec (.registerWrite (.coreReg c 0x104) v) s = .next (e { (s.core c).selected with root := setBits 0 51 16 (bits v 51 16) }) ∧
    exec (.registerWrite (.coreReg c 0x105) v) s = .next (e { (s.core c).selected with trap := setBits 0 54 2 (bits v 54 2) }) ∧
    exec (.registerWrite (.coreReg c 0x106) v) s = .next (e { (s.core c).selected with jobs := setBits 0 51 16 (bits v 51 16) }) ∧
    exec (.registerWrite (.coreReg c 0x110) v) s = .next (s.setCore c { s.core c with slotSel := bits v 5 0 }) ∧
    exec (.registerWrite (.coreReg c 0x120) v) s = .next (s.setCore c { s.core c with guest := min (bits v 4 0) 16 }))

/-- 14 R346; 15 R362, R373, R378: what an address of a bureau names: the registers of its own cluster's cores and slots, the shootdown, the
engines' registers, the mailbox entries' word 5; the controllers' and the slices' registers from the steward's bureau, of cluster 0, alone;
and below 2^52 pooled memory, through its homes. -/
def Sys2Proof.Statements.bureauAddresses : Prop :=
  ∀ (k : Nat) (v : Word) (s : State), k < 512 →
    (∀ c n, c < 8 → n < 0x10000 →
      exec (.registerWrite (.bureau k (2 ^ 55 + 0xE000000000 + 0x100000 * c + 8 * n)) v) s =
        exec (.registerWrite (.coreReg (8 * k + c) n) v) s) ∧
    (∀ c slot n, c < 8 → slot < 64 → n < 512 →
      exec (.registerWrite (.bureau k (2 ^ 55 + 0xE000000000 + 0x100000 * c + 0x80000 + 0x1000 * slot + 8 * n)) v) s =
        exec (.registerWrite (.slotReg (64 * (8 * k + c) + slot) n) v) s) ∧
    (∀ c n, c < 8 → 4 ≤ n → n < 8 →
      exec (.registerWrite (.bureau k (2 ^ 55 + 0xE000000000 + 0x100000 * c + 0xF0820 + 8 * n)) v) s =
        exec (.registerWrite (.coreCounter (8 * k + c) (0xF0820 + 8 * n)) v) s) ∧
    exec (.registerWrite (.bureau k (2 ^ 55 + 0xE000800000)) v) s = exec (.registerWrite (.shootA k) v) s ∧
    exec (.registerWrite (.bureau k (2 ^ 55 + 0xE000800008)) v) s = exec (.sysShootD k v) s ∧
    exec (.registerWrite (.bureau k (2 ^ 55 + 0xE000900000)) v) s = exec (.trestlePre k v) s ∧
    exec (.registerWrite (.bureau k (2 ^ 55 + 0xE000900008)) v) s = exec (.trestleRes k v) s ∧
    exec (.registerWrite (.bureau k (2 ^ 55 + 0xE000900100)) v) s = exec (.copyPre k v) s ∧
    exec (.registerWrite (.bureau k (2 ^ 55 + 0xE000900108)) v) s = exec (.copyRes k v) s ∧
    exec (.registerWrite (.bureau k (2 ^ 55 + 0xE000900200)) v) s = exec (.registerWrite (.chkRetry k) v) s ∧
    (∀ c e, c < 8 → e < 4 → exec (.registerWrite (.bureau k (2 ^ 55 + 0xE000A00000 + 0x40 * (4 * c + e) + 40)) v) s =
      exec (.mailboxReply k c e v) s) ∧
    (∀ p o, p < 64 → o < 0x10000 → o % 8 = 0 →
      exec (.registerWrite (.bureau k (2 ^ 55 + 0xF000000000 + 0x10000 * p + o)) v) s =
        if k = 0 then exec (.registerWrite (.portReg p o) v) s else .next s) ∧
    (∀ n o, n < 768 → o < 0x10000 → o % 8 = 0 →
      exec (.registerWrite (.bureau k (2 ^ 55 + 0xF100000000 + 0x10000 * n + o)) v) s =
        if k = 0 then exec (.registerWrite (.sliceReg n o) v) s else .next s) ∧
    (∀ a t, a % 8 = 0 → a < 2 ^ 52 → Gives (physWrite a v) s () t → exec (.registerWrite (.bureau k a) v) s = .next t)

/-- 03 R81; 08 R194; 14 R344 to R346; 15 R362, R369, R371, R373, R378: a bureau's writes of its registers, a handler's record and its reply,
and the pre-emption and resumption of engine jobs. That a write of a counter gives it the written value (R194 and R362 say read and clear),
and that a write by a bureau that does not have the register, and a shootdown with scope 3, do nothing, is the model's reading:
notes/assumptions/52.md and 53.md. -/
def Obligations.BureauEventsComplete : Prop :=
  (∀ (tid : Nat) (v : Word) (s t : State) (l : List Nat), tid < 262144 →
    Gives (writeCoreReg (coreOf tid) 0x111 v) (s.setCore (coreOf tid) { s.core (coreOf tid) with slotSel := slotOf tid }) l t →
    exec (.slotOwn tid v) s = .next t) ∧
  (∀ (core e : Nat) (v : Word) (s t : State) (l : List Nat), core < 4096 → e < 64 →
    Gives (writeCoreReg core 0x101 v) (s.setCore core { s.core core with cxSel := e }) l t → exec (.cxId core e v) s = .next t) ∧
  (∀ (tid : Nat) (s t : State) (x : Thread), tid < 262144 → s.thread tid = some x → x.park = some (.mailbox false) →
    Gives (post (coreOf tid) { words := [recordWord 0 0 (bits ((s.slot tid).trecw.getD 0 0) 7 0) x.ctx x.home 0,
        (s.slot tid).trecw.getD 1 0, (s.slot tid).trecw.getD 2 0, (s.slot tid).trecw.getD 3 0], tid := some tid, uid := x.uid })
      (s.setSlot tid { s.slot tid with thread := some { x with park := some (.mailbox true) } }) () t →
    exec (.tmbox tid) s = .next t) ∧
  (∀ (k c e tid : Nat) (v : Word) (s s1 : State) (m : Mail) (x : Thread), k < 512 → c < 8 → e < 4 →
    find (s.cluster k).mailbox (4 * c + e) = some m → m.words ≠ [] → m.tid = some tid → s.thread tid = some x → x.uid = m.uid →
    x.park = some (.mailbox true) →
    Gives (promote (8 * k + c)) (s.setCluster k { s.cluster k with mailbox := del (s.cluster k).mailbox (4 * c + e) }) () s1 →
    s1.thread tid = some x →
    exec (.mailboxReply k c e v) s = .next (s1.setSlot tid { s1.slot tid with thread := some { x with
      park := none
      resume := { x.resume with reply := some { value := v } } } })) ∧
  (∀ (k c e tid : Nat) (v : Word) (s s1 t : State) (m : Mail) (x : Thread), k < 512 → c < 8 → e < 4 →
    find (s.cluster k).mailbox (4 * c + e) = some m → m.words ≠ [] → m.tid = some tid → x.uid = m.uid → ∀ (words : List Word)
      (posted : Bool), x.park = some (.killed words posted) →
    Gives (promote (8 * k + c)) (s.setCluster k { s.cluster k with mailbox := del (s.cluster k).mailbox (4 * c + e) }) () s1 →
    s.thread tid = some x → Gives (freeSlot tid) s1 () t →
    ((s.thread (partnerOf tid)).bind (·.park) ≠ some (.killed words false) → exec (.mailboxReply k c e v) s = .next t) ∧
    (∀ u, (s.thread (partnerOf tid)).bind (·.park) = some (.killed words false) → Gives (freeSlot (partnerOf tid)) t () u →
      exec (.mailboxReply k c e v) s = .next u)) ∧
  (∀ (k n : Nat) (v : Word) (s t : State), k < 512 →
    (bits v 51 50 ≠ 3 → s.quietUnder v = true → Gives (shootDown (s.cluster k).shootA v) s n t → exec (.sysShootD k v) s = .next t) ∧
    (bits v 51 50 = 3 → exec (.sysShootD k v) s = .next s)) ∧
  (∀ (k : Nat) (v : Word) (s : State) (j : Job), k < 512 → bit v 0 = true →
    ((s.engine k false).pre = none → (s.engine k false).running = some j → ∃ t, exec (.trestlePre k v) s = .next t ∧
      t.engine k false = { s.engine k false with pre := some { addr := bits v 51 7 * 128, jid := j.jid } }) ∧
    ((s.engine k true).pre = none → s.copyRunning k = some j → ∃ t, exec (.copyPre k v) s = .next t ∧
      t.engine k true = { s.engine k true with pre := some { addr := bits v 51 7 * 128, jid := j.jid } }) ∧
    ((s.engine k false).pre = none → (s.engine k false).running = none → ∃ t, exec (.trestlePre k v) s = .next t ∧
      t.engine k false = { s.engine k false with preJob := 0 })) ∧
  (∀ (k : Nat) (v : Word) (s : State), k < 512 →
    ((s.engine k false).jobs.find? (fun j => j.saved = some (bits v 51 7 * 128)) = none → ∃ t, exec (.trestleRes k v) s = .next t ∧
      t.engine k false = { s.engine k false with res := 1 }) ∧
    ((s.engine k true).jobs.find? (fun j => j.saved = some (bits v 51 7 * 128)) = none → ∃ t, exec (.copyRes k v) s = .next t ∧
      t.engine k true = { s.engine k true with res := 1 })) ∧
  (∀ (k size : Nat) (copy : Bool) (i : Instr) (v : Word) (s s1 s2 t : State) (j j' : Job) (ws : List Word),
    ((i = .trestleRes k v ∧ copy = false ∧ size = 18448 ∧ Gives (trestleFrom k j ws) s1 (some j') s2) ∨
      (i = .copyRes k v ∧ copy = true ∧ size = j.areaSize ∧ Gives (copyFrom k j ws) s1 (some j') s2)) → k < 512 →
    (s.engine k copy).jobs.find? (fun j => j.saved = some (bits v 51 7 * 128)) = some j →
    Gives (physReads (bits v 51 7 * 128) size) s (ws, none) s1 → bits (ws.getD 9 0) 27 16 = j.ctx → bits (ws.getD 9 0) 15 0 = j.jid →
    Gives (do
      modEngine k copy (fun e => { e with res := 0 })
      modJob k copy j.jid (fun _ => { j' with saved := none })) s2 () t → exec i s = .next t) ∧
  registerWritesComplete ∧ bureauAddresses

/-- 12 R291; 13 R327; 14 R347, R354 to R356: host commands on a context in being: the windows open and close, the log is read from an
entry on, the launches are reported, and each is answered with a response. -/
def Sys2Proof.Statements.windowLogAndLaunchCommandsComplete : Prop :=
  ∀ (c : HostCmd) (x : Context) (s : State),
    (∀ t, Accepted 5 s c x → argOf c 1 ≠ 0 → argOf c 0 + argOf c 1 ≤ apertureBase → 1 ≤ argOf c 2 → argOf c 2 ≤ 3 →
      Gives (do
        modContext c.ctx (fun y => { y with windows := y.windows ++
          [{ rkey := (firstFree 1 (x.windows.length + 1) (x.windows.map (·.rkey))).getD 0, va := argOf c 0, len := argOf c 1,
             put := argOf c 2 % 2 = 1, get := argOf c 2 / 2 = 1, peer := argOf c 3 }] })
        respond 5 c c.ctx 0 0 [word ((firstFree 1 (x.windows.length + 1) (x.windows.map (·.rkey))).getD 0)]) (taken s c) () t →
      exec (.winopen c) s = .next t) ∧
    (∀ t, Accepted 6 s c x → x.windows.any (fun w => w.rkey = argOf c 0) = true → Gives (do
        modContext c.ctx (fun y => { y with windows := y.windows.filter (fun w => w.rkey != argOf c 0) })
        respond 6 c c.ctx 0 0 []) (taken s c) () t → exec (.winclose c) s = .next t) ∧
    (∀ t, Accepted 10 s c x → Gives (respond 10 c c.ctx 0 0 ((((findD s.logs {} c.ctx).entries.drop (argOf c 0)).take 16).flatMap id ++
        [word (findD s.logs {} c.ctx).overflow])) (taken s c) () t → exec (.logread c) s = .next t) ∧
    (∀ t, Accepted 9 s c x → s.commanded c ≠ [] →
      Gives (respond 9 c c.ctx 0 0 ((s.commanded c).flatMap (fun l => (numbers 0 5).map l.report)))
        { taken s c with launches := s.launches.filter (fun p =>
            !((s.commanded c).any (fun l => l.handle = p.1) && p.2.issuer.isNone && p.2.state.ended)) } () t →
      exec (.status c) s = .next t) ∧
    (∀ s1 t, Accepted 8 s c x → s.commanded c ≠ [] →
      Gives (((s.commanded c).filter (fun l => !l.settled)).forM (fun l => cancelLaunch l.handle)) (taken s c) () s1 →
      Gives (respond 8 c c.ctx 0 0 [truth (!((s.commanded c).filter (fun l => !l.settled)).isEmpty)]) s1 () t →
      exec (.hostCancel c) s = .next t) ∧
    (∀ t, Accepted 12 s c x → Gives (respond 12 c c.ctx 0 0 []) { taken s c with cores := s.cores.map (fun k => (k.1, { k.2 with
        table := mapVals (fun e => if bit e.id 63 && bits e.id 11 0 = c.ctx then e.policy c else e) k.2.table })) } () t →
      exec (.policy c) s = .next t) ∧
    (∀ h ws s1 s2 t, Accepted 11 s c x → Gives (bureauRead 0 c.ctx (argOf c 1)) (taken s c) (some h) s1 → argOf c 1 % 8 = 0 →
      bits h 31 0 ≠ 0 → bits h 43 32 = argOf c 0 → Gives (bureauReads 0 c.ctx (argOf c 1 + 8) (bits h 31 0)) s1 (some ws) s2 →
      Gives (do
        modContext c.ctx (fun y => { y with groups := put y.groups (argOf c 0) (ws.map (fun w => (bits w 37 18, bits w 17 0))) })
        respond 11 c c.ctx 0 0 []) s2 () t → exec (.group c) s = .next t)

/-- 14 R352, R353, R356: a command on a context that is not in being is answered ABSENT; one from a host that is not
of the list, or did not create the context, is DENIED and entered in the package log; one that is not yet the next of its host does not
come about. A host's commands are performed one at a time, so one that names a context that its CTXEND is ending waits for it, as all of the
host's do, and is then answered ABSENT, as a second CTXEND is. A response names its command, status, context and sequence number. -/
def Sys2Proof.Statements.commandsAreJudged : Prop :=
  ∀ (n : Nat) (i : HostCmd → Instr), (n, i) ∈ [(5, Instr.winopen), (6, .winclose), (8, .hostCancel), (9, .status), (10, .logread),
      (11, .group), (12, .policy), (4, .unmap), (3, fun c => .map c []), (7, fun c => .submit c [])] →
    ∀ (c : HostCmd) (s : State),
      (s.boot.opened = true → c.isCommand n = true → s.nextOf c = true → s.boot.hosts.contains c.host = true →
        find s.contexts c.ctx = none →
        ∃ w, exec (i c) s = .next { taken s c with responses := s.responses ++ [(c.host, [w])] } ∧
          bits w 63 56 = n ∧ bits w 55 48 = 3 ∧ bits w 43 32 = c.ctx ∧ bits w 31 0 = c.seq) ∧
      (∀ t, s.boot.opened = true → c.isCommand n = true → s.nextOf c = true →
        (s.boot.hosts.contains c.host = false ∨ ∃ x, find s.contexts c.ctx = some x ∧ x.host ≠ c.host) →
        Gives (denyHost n c) (taken s c) () t → exec (i c) s = .next t) ∧
      ((s.boot.opened = false ∨ c.isCommand n = false ∨ s.nextOf c = false) → exec (i c) s = .next s) ∧
      (∀ x, find s.contexts c.ctx = some x → x.host = c.host → x.ending.isSome = true → s.nextOf c = false ∧ exec (i c) s = .next s) ∧
      (s.boot.opened = true → c.isCommand 2 = true → s.nextOf c = true → s.boot.hosts.contains c.host = true →
        find s.contexts c.ctx = none →
        ∃ w, exec (.ctxend c) s = .next { taken s c with responses := s.responses ++ [(c.host, [w])] } ∧
          bits w 63 56 = 2 ∧ bits w 55 48 = 3 ∧ bits w 43 32 = c.ctx ∧ bits w 31 0 = c.seq)

/-- 12 R311; 14 R340, R344, R354: CTXNEW gives a context the lowest free identity and its zeroed tables; MAP takes and enters frames; UNMAP
waits for accesses on their way and removes pages; SUBMIT holds a launch, for a new job too, and reads its record; CTXEND cancels every
launch of the context, and once all is at its end frees what it held. -/
def Sys2Proof.Statements.contextCommandsComplete : Prop :=
  (∀ (c : HostCmd) (root jobs ctx : Nat) (s s1 s2 t : State), s.boot.opened = true → c.isCommand 1 = true → s.nextOf c = true →
    s.boot.hosts.contains c.host = true → firstFree 1 4095 (s.contexts.map (·.1)) = some ctx →
    Gives (takeMemory ctx (65536 * root) 65536) { taken s c with
      contexts := put s.contexts ctx { host := c.host, root := 65536 * root, jobTable := 65536 * jobs }
      logs := del s.logs ctx } () s1 →
    Gives (takeMemory ctx (65536 * jobs) 131072) s1 () s2 → Gives (respond 1 c ctx 0 0 [word ctx]) s2 () t →
    exec (.ctxnew c [root, jobs]) s = .next t) ∧
  (∀ (c : HostCmd) (x : Context) (frames : List Nat) (s s1 s2 t : State) (ok : Bool), Accepted 3 s c x →
    rangeOk (argOf c 0) (argOf c 1) = true → argOf c 2 ≤ 2 → argOf c 3 ≤ 255 → argOf c 4 ≠ 0 → argOf c 4 ≤ 7 →
    (argOf c 4 / 2 % 2 = 1 → argOf c 4 % 2 = 1) → Gives (anyMapped x.root (argOf c 1 / 65536) (argOf c 0)) (taken s c) false s1 →
    Gives (attempt (mapPages c.ctx x.root (setBits (setBits (setBits (setBits 0 62 55 (argOf c 3)) 54 53 (argOf c 2)) 3 1 (argOf c 4)) 0 0 1)
      (argOf c 1 / 65536) (argOf c 0) frames)) s1 ok s2 →
    Gives (respond 3 c c.ctx (if ok then 0 else 1) 0 []) s2 () t → exec (.map c frames) s = .next t) ∧
  (∀ (c : HostCmd) (x : Context) (s s1 t : State), Accepted 4 s c x → rangeOk (argOf c 0) (argOf c 1) = true →
    s.quietUnder (setBits (setBits 0 63 52 c.ctx) 51 50 1) = true →
    Gives (unmapPages c.ctx x.root (argOf c 1 / 65536) (argOf c 0)) (taken s c) () s1 → Gives (respond 4 c c.ctx 0 0 []) s1 () t →
    exec (.unmap c) s = .next t) ∧
  (∀ (c : HostCmd) (x y : Context) (frames : List Nat) (s s1 s2 s3 s4 t : State) (h job : Nat) (l : Launch), Accepted 7 s c x →
    Gives (sweepJobs c.ctx) (taken s c) () s1 → find s1.contexts c.ctx = some y →
    (argOf c 1 ≠ 0 → y.jobs.any (fun j => j.number = argOf c 1) = true ∧ job = argOf c 1 ∧ s2 = s1) →
    (argOf c 1 = 0 → 1 ≤ argOf c 2 ∧ argOf c 2 ≤ 0xFFFFFF ∧ 32 ≤ argOf c 3 ∧ argOf c 3 ≤ 0xFFFFFFFF ∧
      Gives (newJob c.ctx (argOf c 2) (argOf c 3) frames) s1 (some job) s2) →
    argOf c 0 % 64 = 0 → (s1.entriesOf 0).length < 256 →
    Gives (holdEntry 0 c.ctx job none (word (argOf c 0)) (s2.clock (.sideboard 0)).t) s2 (some h) s3 →
    Gives (launchRecordRead h) s3 () s4 → find s4.launches h = some l →
    Gives (respond 7 c c.ctx (if l.state = .refused then 7 else 0) (if l.state = .refused then l.why else 0) [word job, word h]) s4 () t →
    exec (.submit c frames) s = .next t) ∧
  (∀ (c : HostCmd) (x : Context) (s s1 t : State), Accepted 2 s c x →
    Gives (modContext c.ctx (fun y => { y with ending := some c.seq })) (taken s c) () s1 →
    Gives ((s1.launches.filter (fun l => l.2.ctx = c.ctx && !l.2.settled)).forM (fun l => cancelLaunch l.1)) s1 () t →
    t.idleContext c.ctx = false → exec (.ctxend c) s = .next t) ∧
  (∀ (c : HostCmd) (x : Context) (s s1 s2 : State) (n : Nat), find s.contexts c.ctx = some x → x.host = c.host →
    x.ending = some c.seq → s.idleContext c.ctx = true → s.banks.all (fun b => b.2.owner != c.ctx) = true →
    Gives (dropSlots c.ctx) s () s1 → Gives (shootDown 0 (setBits (setBits 0 63 52 c.ctx) 51 50 1)) s1 n s2 →
    ∃ t, exec (.ctxend c) s = .next t ∧ find t.contexts c.ctx = none ∧ (∀ l ∈ t.launches, l.2.ctx ≠ c.ctx) ∧
      (∀ m ∈ t.messages, m.2.ctx ≠ c.ctx) ∧ (∀ m ∈ t.overflow, m.ctx ≠ c.ctx) ∧ t.responses.length = s2.responses.length + 1)

/-- 12 R291, R311; 13 R327; 14 R340, R347, R352 to R356: the host's commands are judged, and complete with their responses. The
model's choices are the order of a host's sequence numbers where they wrap, the lowest free identity for CTXNEW, DENIED for a command of
another host, and frames as arguments of the event (notes/assumptions/54.md), and that CTXEND is finished by the event repeated
(notes/assumptions/55.md). -/
def Obligations.HostCommandsComplete : Prop :=
  windowLogAndLaunchCommandsComplete ∧ contextCommandsComplete ∧ commandsAreJudged

/-- 14 R357: package reset puts the package, but for pooled memory, back to its reset state; power, links, image and slices follow in
order, each event only after what it waits for, and the last slice opens the job-control endpoint. R357 names slots, context entries,
banks, TLBs and times; that pooled memory stays, that what the caches held is lost, and that the image's other fields are kept unread, is the
model's reading (notes/assumptions/56.md), and the zeros of registers with no reset value are its choice (notes/assumptions/4.md). -/
def Obligations.BringUpCompletes : Prop :=
  (∀ s : State, exec .packageReset s = .next { State.reset with
    mem := s.mem
    memPoison := s.memPoison
    agenda := s.agenda
    fresh := s.fresh }) ∧
  (∀ s : State, exec .powerGood s = .next { s with boot := { s.boot with power := true } }) ∧
  (∀ (p : Nat) (s : State), p < 80 →
    (s.boot.power = true → exec (.linkTrained p) s = .next { s with boot := { s.boot with links := s.boot.links.insert p } }) ∧
    (s.boot.power = false → exec (.linkTrained p) s = .next s)) ∧
  (∀ (b : BootImage) (s : State), s.boot.power = true → 0 ∈ s.boot.links → s.boot.imaged = false → b.signed = true →
    ∃ t, exec (.bootImageRead b) s = .next t ∧ t.boot.imaged = true ∧ t.boot.pkgid = b.pkgid % 2 ^ 20 ∧ t.boot.hosts = b.hosts ∧
      t.boot.fabric = b.fabric ∧ t.boot.retries = b.retries ∧
      (∀ c, (t.core c).rf = [] ∨ t.core c = {}) ∧ (∀ c, (t.core c).l1 = [] ∨ t.core c = {}) ∧ (∀ k, (t.bank k).words = [] ∨ t.bank k = {}) ∧
      t.mem = s.mem) ∧
  (∀ (b : BootImage) (s : State), b.signed = false → exec (.bootImageRead b) s = .next s) ∧
  (∀ (n : Nat) (s : State), n < 768 → s.boot.imaged = true → s.boot.started.contains n = false →
    exec (.sliceStart n) s = .next { s with boot := { s.boot with started := n :: s.boot.started } }) ∧
  (∀ (n : Nat) (s : State), n < 768 → s.boot.started.contains n = true → s.boot.finished.contains n = false →
    ∃ t, exec (.sliceFinished n) s = .next t ∧ t.boot.finished = n :: s.boot.finished ∧
      t.boot.opened = decide (768 ≤ (n :: s.boot.finished).length) ∧ (t.slice n).ets = 0 ∧ t.clock (.slice n) = {} ∧
      (∀ p ∈ t.l2, sliceOf p.1 ≠ n) ∧ t.mem = s.mem)

/-- 04 R99: CVTU writes the FP32 pattern of (2k + 1) / 2^24 for the top 23 bits k of A, a value strictly between 0 and 1, in every
state; its encoding has op 0x23 and a reserved b; the rule's three examples. On resident names it runs, and raises no flag. -/
def Obligations.UniformValues : Prop :=
  (∀ (d a b : BitVec 8), decodeWord (0x23#8 ++ d ++ a ++ b) =
    if b = 0 then .ok (.cvtu d a) else .error .reservedField) ∧
  (∀ A : Word, ∃ v : Word, bits v 63 31 = 0 ∧ 0 < bits v 30 23 ∧ bits v 30 23 < 127 ∧
    (2 ^ 23 + bits v 22 0) * 2 ^ bits v 30 23 = (2 * bits A 63 41 + 1) * 2 ^ 126 ∧
    (A = 0 → v = 0x33800000) ∧ (A = 0x8000000000000000 → v = 0x3F000001) ∧ (A = BitVec.allOnes 64 → v = 0x3F7FFFFF) ∧
    (∀ (d a : BitVec 8) (s s1 s2 t : State), Issues (.cvtu d a) s → Gives (readName (wordOf (.cvtu d a)) a) s A s1 →
      Gives (writeName (wordOf (.cvtu d a)) d v) s1 () s2 → Retires s2 t → exec (.cvtu d a) s = .next t) ∧
    (∀ (d a : BitVec 8) (s : State) (x : Thread), Plain (.cvtu d a) s x → d.toNat < x.win → a.toNat < x.win →
      s.resident x a.toNat = A → ∃ t, exec (.cvtu d a) s = .next t ∧ RegistersOnly s t [d.toNat] ∧
        (t.slot s.cur).tstat = (s.slot s.cur).tstat ∧ (t.thread s.cur).map (·.pc) = some (x.pc + 4) ∧ t.resident x d.toNat = v))

/-- 15 R380: a value from outside enters a lone thread as it is; the leading thread of a pair makes the access and queues it, or parks
while 16 values wait; the trailing thread takes the queue's head and makes no access, parks while the queue is empty, and a head of another
address or kind is a silent-data fault (code 27, with no address of a release: 15 R368); a unit of either that goes on uses what it
recorded before. Neither makes an access
in a unit that could not go on at the end of the space. -/
def Sys2Proof.Statements.valuesEnterPairs : Prop :=
  ∀ (kind : Nat) (addr : Word) (act : M (Word × List Word)) (s : State) (x : Thread), s.thread s.cur = some x →
    (x.role = .single → enter kind addr act s = act s) ∧
    (x.role ≠ .single → (kind = 1 ∨ 5 ≤ kind) → 2 ^ 55 ≤ x.pc.toNat + 4 →
      ∃ i, enter kind addr act s = .error (.trap i) ∧ i.cause = 1 ∧ i.value = word (2 ^ 55)) ∧
    (¬((kind = 1 ∨ 5 ≤ kind) ∧ 2 ^ 55 ≤ x.pc.toNat + 4) →
      (x.role ≠ .single → ∀ p, x.resume.entered[x.resume.used]? = some p →
        Gives (enter kind addr act) s (p.value, p.values) (s.setThread s.cur (some { x with
          bst := p.bst
          resume := { x.resume with used := x.resume.used + 1 } }))) ∧
      (x.role = .leading →
        (x.resume.entered[x.resume.used]? = none → 16 ≤ x.values.length → enter kind addr act s = .error (.park .pairValue)) ∧
        (x.resume.entered[x.resume.used]? = none → x.values.length < 16 → ∀ (v : Word) (vs : List Word) (t : State) (y : Thread)
          (p : PairValue), Gives act s (v, vs) t → t.cur = s.cur → t.thread s.cur = some y →
          p = { kind := kind, addr := addr, value := v, values := vs, bst := y.bst, poison := false } →
          Gives (enter kind addr act) s (v, vs) (t.setThread s.cur (some { y with
            values := y.values ++ [p]
            resume := { y.resume with
              entered := y.resume.entered ++ [p]
              used := y.resume.used + 1 } })))) ∧
      (x.role = .trailing → x.resume.entered[x.resume.used]? = none → ∀ y, s.partner s.cur = some y →
        (y.values = [] → enter kind addr act s = .error (.park .pairValue)) ∧
        (∀ p ps, y.values = p :: ps → p.kind = kind → p.addr = addr →
          ∃ t, Gives (enter kind addr act) s (p.value, p.values) t ∧ t.mem = s.mem ∧ t.l2 = s.l2 ∧
            t.thread (partnerOf s.cur) = some { y with values := ps } ∧ t.thread s.cur = some { x with
              bst := p.bst
              resume := { x.resume with
                entered := x.resume.entered ++ [p]
                used := x.resume.used + 1 } }) ∧
        (∀ p ps, y.values = p :: ps → (p.kind ≠ kind ∨ p.addr ≠ addr) → enter kind addr act s = .error (.kill 27 0))))

/-- 15 R381: an effect whose result comes back into the pair waits until both threads have made it, and then the leading thread performs
it; one that the leading thread does not wait for joins its release buffer of 16, and the trailing thread's same effect lets it out. An
effect that differs kills both threads with code 27 and the leading thread's address, and is not made. -/
def Sys2Proof.Statements.effectsAreCompared : Prop :=
  (∀ (e : Effect) (s : State) (x : Thread), s.thread s.cur = some x →
    (x.role = .single → Gives (agree e) s true s) ∧
    (x.role = .leading → x.released = some e → Gives (agree e) s true s) ∧
    (x.role = .leading → x.released ≠ some e → 16 ≤ x.effects.length → agree e none s = .error (.park .pairValue)) ∧
    (x.role = .leading → x.released ≠ some e → x.effects.length < 16 → agree e none s = .error (.match_ e x.resume.entered)) ∧
    (x.role = .trailing → x.released ≠ some e → agree e none s = .error (.match_ e x.resume.entered)) ∧
    (∀ ws, (x.role = .trailing ∨ x.role = .leading ∧ x.effects.length < 16) → x.released ≠ some e →
      agree e (some ws) s = .error (.begun (.effect e) ws (bits (s.slot s.cur).tstat 7 3) x.resume.entered)) ∧
    (x.role = .trailing → x.released = some e → Gives (agree e) s false s)) ∧
  (∀ (e : Effect) (act : M Nat) (s : State) (x : Thread), s.thread s.cur = some x →
    (∀ n t, x.role = .single → Gives act s n t → Gives (defer e act) s () t) ∧
    (x.role = .leading → 16 ≤ x.effects.length → defer e act none s = .error (.park .pairValue)) ∧
    (∀ n t y, x.role = .leading → x.effects.length < 16 → Gives act s n t → t.cur = s.cur → t.thread s.cur = some y →
      Gives (defer e act) s () (t.setThread s.cur (some { y with effects := y.effects ++ [(e, n)] }))) ∧
    (∀ y, x.role = .trailing → s.partner s.cur = some y →
      (y.effects = [] → defer e act none s = .error (.match_ e x.resume.entered)) ∧
      (∀ n rest t, y.effects = (e, n) :: rest → Gives (releaseEffect (partnerOf s.cur) n e) s () t → Gives (defer e act) s () t) ∧
      (∀ e' n rest, y.effects = (e', n) :: rest → e' ≠ e → defer e act none s = .error (.kill 27 e'.addr)))) ∧
  (∀ (e e' : Effect) (s : State) (x y : Thread), s.thread s.cur = some x → s.partner s.cur = some y → y.park = some (.effect e') →
    x.effects = [] → y.effects = [] →
    (e' = e → ∃ t, Gives (parkThread s.cur (.effect e)) s () t ∧
      t.thread s.cur = some { x with
        released := some e
        park := none } ∧
      t.thread (partnerOf s.cur) = some { y with
        released := some e
        park := none }) ∧
    (e' ≠ e → ∀ t, Gives (killThread s.cur 27 (if x.role = .leading then e.addr else e'.addr) x.first) s () t → Gives (parkThread s.cur (.effect e)) s () t))

/-- 15 R380, R381: what enters a pair of threads, and what leaves it. That the leading thread stops only for effects with an answer, while
the others pass to the buffer and it goes on, that it parks at 16 of them, and that a value is queued as its unit completes, is the model's
reading: notes/assumptions/16.md and 17.md. -/
def Obligations.PairsCompared : Prop :=
  valuesEnterPairs ∧ effectsAreCompared

/-- 02 R24 to R26, R39: decoding the word that the encoder gives an instruction gives that instruction back, with every operand at
every value; a word that decodes is the word that its instruction encodes to, so no bit of a legal word is dropped; and the bytes at
the next address are left. -/
def Obligations.EncodingRoundTrip : Prop :=
  (∀ (i : Instr) (w : IWord), encode i = some w → decodeWord w = .ok i) ∧
  (∀ (w : IWord) (i : Instr), decodeWord w = .ok i → encode i = some w) ∧
  (∀ (w : IWord) (i : Instr) (rest : List Byte), encode i = some w → decode (bytesOfWord w ++ rest) = .ok (i, rest))

/-- 02 R24 to R26, R33, R39: words written out from the encodings of the entries decode to their instructions; a reserved opcode and a
reserved field that is not zero are refused. -/
def Obligations.WrittenWordsDecode : Prop :=
  decodeWord 0x01040506 = .ok (.add 4 5 6) ∧ decodeWord 0x030405F8 = .ok (.addi 4 5 0xF8) ∧
  decodeWord 0x24041234 = .ok (.ldi 4 0x1234) ∧ decodeWord 0x2608FFFE = .ok (.bz 8 0xFFFE) ∧
  decodeWord 0x2C00000A = .ok (.j 10) ∧ decodeWord 0xFE000001 = .ok (.pfxImm 1) ∧
  decodeWord 0xE0050011 = .ok (.sysr 5 0x0011) ∧ decodeWord 0xE1060102 = .ok (.sysw 6 0x0102) ∧
  decodeWord 0xE4050304 = .ok (.shoot 5 3 4) ∧ decodeWord 0xFF202005 = .ok (.pfxMod 1 0 0 1 0 5) ∧
  decodeWord 0x00000000 = .error .reservedOpcode ∧ decodeWord 0x42000000 = .error .reservedOpcode ∧
  decodeWord 0x7F123456 = .error .reservedOpcode ∧ decodeWord 0xF0000000 = .error .reservedOpcode ∧
  decodeWord 0x20040501 = .error .reservedField

/-- 02 R32, R41; 12 R284; 14 R341: a step whose turn is a core's issue fetches the word at the pc of the core's next ready slot and
runs what it decodes to; a word that is no instruction is illegal. A step whose turn is an event runs it. The word is the four bytes at
the physical address, the first the lowest, of the line in the instruction cache, or of the line that its home gives, which enters the
cache where its home holds it (08 R191). That a core's turn stands on the agenda is the model's choice (notes/assumptions/1.md). -/
def Obligations.StepRunsDecodedInstruction : Prop :=
  (∀ (s s0 s1 : State) (rest : List Turn) (core pick slot : Nat) (w : IWord), s.agenda = .issue core pick :: rest →
    ({ s with agenda := rest } : State).nextReady core = some slot →
    s0 = ({ s with agenda := rest } : State).issuing core slot pick →
    ((s0.thread s0.cur).bind (s0.stopped s0.cur)).isSome = false → Gives fetchWord s0 w s1 →
    (∀ i, decodeWord w = .ok i → step s = exec i s1) ∧
    (∀ e, decodeWord w = .error e → step s = runBody (illegal w) s1)) ∧
  (∀ (s : State) (rest : List Turn) (i : Instr), s.agenda = .event i :: rest → encode i = none →
    step s = exec i { s with agenda := rest }) ∧
  (∀ (s s1 : State) (x : Thread) (p : Page) (d : LineData), s.thread s.cur = some x →
    outside (x.pc.setWidth 64) = false → inAperture (x.pc.setWidth 64) = false →
    Gives (translate (x.pc.setWidth 64) 2) s p s1 → p.attr = .rshr → s1.errs = [] →
    (find (s1.core (coreOf s1.cur)).icache (p.pa / 32) = some d →
      Gives fetchWord s (d.extractLsb' (8 * (p.pa % 32)) 32) s1) ∧
    (∀ s3, find (s1.core (coreOf s1.cur)).icache (p.pa / 32) = none → Gives (fillHome (p.pa / 32) false) s1 () s3 →
      s3.homeLine (p.pa / 32) = (d, false) →
      (s3.atHome (p.pa / 32) = false → Gives fetchWord s (d.extractLsb' (8 * (p.pa % 32)) 32) s3) ∧
      (∀ t, s3.atHome (p.pa / 32) = true → Gives (iPlace (coreOf s1.cur) (p.pa / 32) d) s3 () t →
        Gives fetchWord s (d.extractLsb' (8 * (p.pa % 32)) 32) t))) ∧
  (∀ (core line : Nat) (d : LineData) (s t : State), Gives (iPlace core line d) s () t → find (t.core core).icache line = some d)

/-- 11 R259; 14 R357: what package reset leaves: every slot FREE with no owner and no thread, no context entry valid, every bank an
ARRAY of 8,192 zero words owned by context 0 with no composition, every TLB empty, and every own time, eviction time and the floor
zero. -/
def Obligations.ResetState : Prop :=
  (∀ tid, (State.reset.slot tid).state = .free ∧ (State.reset.slot tid).owner = none ∧ (State.reset.slot tid).own = 0 ∧
    State.reset.thread tid = none) ∧
  (∀ core n ctx, bit (findD (State.reset.core core).table {} n).id 63 = false ∧ State.reset.entryOf core ctx = none ∧
    (State.reset.core core).tlb = [] ∧ (State.reset.cluster (clusterOf core)).tlb = []) ∧
  (∀ b w, (State.reset.bank b).owner = 0 ∧ (State.reset.bank b).pers = 0 ∧ (State.reset.bank b).cap = 8192 ∧
    findD (State.reset.bank b).words {} w = { val := 0 } ∧ (State.reset.bank b).home = none ∧ (State.reset.bank b).members = []) ∧
  (∀ a n, (State.reset.clock a).t = 0 ∧ (State.reset.slice n).ets = 0) ∧ State.reset.floor = 0 ∧
  State.reset.boot.opened = false

/-- Package reset leaves pooled memory in canonical form; that every byte of it reads as zero is the model's choice
(notes/assumptions/3.md). -/
def Obligations.ResetSafe : Prop :=
  State.reset.Safe ∧ ∀ a, Memory.read State.reset.mem a = 0

/-- Every step, of any state in which pooled memory is in canonical form, leaves it so. -/
def Obligations.StepKeepsSafe : Prop :=
  ∀ s t : State, s.Safe → s.StepsTo t → t.Safe
end

