-- ==== Sys2Proof/Laws/Exec.lean ====
section
/-! SUPPORT. `exec` of each constructor is its meaning. -/

namespace Sys2Proof.Machine

theorem exec_pfxImm (x0 : BitVec 24) (s : State) : exec (.pfxImm x0) s = execPfxImm x0 s := rfl
theorem exec_pfxMod (x0 : BitVec 3) (x1 : BitVec 2) (x2 : BitVec 2) (x3 : BitVec 4) (x4 : BitVec 5) (x5 : BitVec 8) (s : State) : exec (.pfxMod x0 x1 x2 x3 x4 x5) s = execPfxMod x0 x1 x2 x3 x4 x5 s := rfl
theorem exec_add (x0 : BitVec 8) (x1 : BitVec 8) (x2 : BitVec 8) (s : State) : exec (.add x0 x1 x2) s = execAdd x0 x1 x2 s := rfl
theorem exec_sub (x0 : BitVec 8) (x1 : BitVec 8) (x2 : BitVec 8) (s : State) : exec (.sub x0 x1 x2) s = execSub x0 x1 x2 s := rfl
theorem exec_addi (x0 : BitVec 8) (x1 : BitVec 8) (x2 : BitVec 8) (s : State) : exec (.addi x0 x1 x2) s = execAddi x0 x1 x2 s := rfl
theorem exec_mul (x0 : BitVec 8) (x1 : BitVec 8) (x2 : BitVec 8) (s : State) : exec (.mul x0 x1 x2) s = execMul x0 x1 x2 s := rfl
theorem exec_mulh (x0 : BitVec 8) (x1 : BitVec 8) (x2 : BitVec 8) (s : State) : exec (.mulh x0 x1 x2) s = execMulh x0 x1 x2 s := rfl
theorem exec_mulhu (x0 : BitVec 8) (x1 : BitVec 8) (x2 : BitVec 8) (s : State) : exec (.mulhu x0 x1 x2) s = execMulhu x0 x1 x2 s := rfl
theorem exec_div (x0 : BitVec 8) (x1 : BitVec 8) (x2 : BitVec 8) (s : State) : exec (.div x0 x1 x2) s = execDiv x0 x1 x2 s := rfl
theorem exec_divu (x0 : BitVec 8) (x1 : BitVec 8) (x2 : BitVec 8) (s : State) : exec (.divu x0 x1 x2) s = execDivu x0 x1 x2 s := rfl
theorem exec_rem (x0 : BitVec 8) (x1 : BitVec 8) (x2 : BitVec 8) (s : State) : exec (.rem x0 x1 x2) s = execRem x0 x1 x2 s := rfl
theorem exec_remu (x0 : BitVec 8) (x1 : BitVec 8) (x2 : BitVec 8) (s : State) : exec (.remu x0 x1 x2) s = execRemu x0 x1 x2 s := rfl
theorem exec_and (x0 : BitVec 8) (x1 : BitVec 8) (x2 : BitVec 8) (s : State) : exec (.and x0 x1 x2) s = execAnd x0 x1 x2 s := rfl
theorem exec_or (x0 : BitVec 8) (x1 : BitVec 8) (x2 : BitVec 8) (s : State) : exec (.or x0 x1 x2) s = execOr x0 x1 x2 s := rfl
theorem exec_xor (x0 : BitVec 8) (x1 : BitVec 8) (x2 : BitVec 8) (s : State) : exec (.xor x0 x1 x2) s = execXor x0 x1 x2 s := rfl
theorem exec_andi (x0 : BitVec 8) (x1 : BitVec 8) (x2 : BitVec 8) (s : State) : exec (.andi x0 x1 x2) s = execAndi x0 x1 x2 s := rfl
theorem exec_ori (x0 : BitVec 8) (x1 : BitVec 8) (x2 : BitVec 8) (s : State) : exec (.ori x0 x1 x2) s = execOri x0 x1 x2 s := rfl
theorem exec_xori (x0 : BitVec 8) (x1 : BitVec 8) (x2 : BitVec 8) (s : State) : exec (.xori x0 x1 x2) s = execXori x0 x1 x2 s := rfl
theorem exec_shl (x0 : BitVec 8) (x1 : BitVec 8) (x2 : BitVec 8) (s : State) : exec (.shl x0 x1 x2) s = execShl x0 x1 x2 s := rfl
theorem exec_shr (x0 : BitVec 8) (x1 : BitVec 8) (x2 : BitVec 8) (s : State) : exec (.shr x0 x1 x2) s = execShr x0 x1 x2 s := rfl
theorem exec_sar (x0 : BitVec 8) (x1 : BitVec 8) (x2 : BitVec 8) (s : State) : exec (.sar x0 x1 x2) s = execSar x0 x1 x2 s := rfl
theorem exec_shli (x0 : BitVec 8) (x1 : BitVec 8) (x2 : BitVec 8) (s : State) : exec (.shli x0 x1 x2) s = execShli x0 x1 x2 s := rfl
theorem exec_shri (x0 : BitVec 8) (x1 : BitVec 8) (x2 : BitVec 8) (s : State) : exec (.shri x0 x1 x2) s = execShri x0 x1 x2 s := rfl
theorem exec_sari (x0 : BitVec 8) (x1 : BitVec 8) (x2 : BitVec 8) (s : State) : exec (.sari x0 x1 x2) s = execSari x0 x1 x2 s := rfl
theorem exec_slt (x0 : BitVec 8) (x1 : BitVec 8) (x2 : BitVec 8) (s : State) : exec (.slt x0 x1 x2) s = execSlt x0 x1 x2 s := rfl
theorem exec_sltu (x0 : BitVec 8) (x1 : BitVec 8) (x2 : BitVec 8) (s : State) : exec (.sltu x0 x1 x2) s = execSltu x0 x1 x2 s := rfl
theorem exec_seq (x0 : BitVec 8) (x1 : BitVec 8) (x2 : BitVec 8) (s : State) : exec (.seq x0 x1 x2) s = execSeq x0 x1 x2 s := rfl
theorem exec_slti (x0 : BitVec 8) (x1 : BitVec 8) (x2 : BitVec 8) (s : State) : exec (.slti x0 x1 x2) s = execSlti x0 x1 x2 s := rfl
theorem exec_sel (x0 : BitVec 8) (x1 : BitVec 8) (x2 : BitVec 8) (s : State) : exec (.sel x0 x1 x2) s = execSel x0 x1 x2 s := rfl
theorem exec_min (x0 : BitVec 8) (x1 : BitVec 8) (x2 : BitVec 8) (s : State) : exec (.min x0 x1 x2) s = execMin x0 x1 x2 s := rfl
theorem exec_max (x0 : BitVec 8) (x1 : BitVec 8) (x2 : BitVec 8) (s : State) : exec (.max x0 x1 x2) s = execMax x0 x1 x2 s := rfl
theorem exec_minu (x0 : BitVec 8) (x1 : BitVec 8) (x2 : BitVec 8) (s : State) : exec (.minu x0 x1 x2) s = execMinu x0 x1 x2 s := rfl
theorem exec_maxu (x0 : BitVec 8) (x1 : BitVec 8) (x2 : BitVec 8) (s : State) : exec (.maxu x0 x1 x2) s = execMaxu x0 x1 x2 s := rfl
theorem exec_clz (x0 : BitVec 8) (x1 : BitVec 8) (s : State) : exec (.clz x0 x1) s = execClz x0 x1 s := rfl
theorem exec_popc (x0 : BitVec 8) (x1 : BitVec 8) (s : State) : exec (.popc x0 x1) s = execPopc x0 x1 s := rfl
theorem exec_hash64 (x0 : BitVec 8) (x1 : BitVec 8) (x2 : BitVec 8) (s : State) : exec (.hash64 x0 x1 x2) s = execHash64 x0 x1 x2 s := rfl
theorem exec_cvtu (x0 : BitVec 8) (x1 : BitVec 8) (s : State) : exec (.cvtu x0 x1) s = execCvtu x0 x1 s := rfl
theorem exec_ldi (x0 : BitVec 8) (x1 : BitVec 16) (s : State) : exec (.ldi x0 x1) s = execLdi x0 x1 s := rfl
theorem exec_addpc (x0 : BitVec 8) (x1 : BitVec 16) (s : State) : exec (.addpc x0 x1) s = execAddpc x0 x1 s := rfl
theorem exec_bz (x0 : BitVec 8) (x1 : BitVec 16) (s : State) : exec (.bz x0 x1) s = execBz x0 x1 s := rfl
theorem exec_bnz (x0 : BitVec 8) (x1 : BitVec 16) (s : State) : exec (.bnz x0 x1) s = execBnz x0 x1 s := rfl
theorem exec_bltz (x0 : BitVec 8) (x1 : BitVec 16) (s : State) : exec (.bltz x0 x1) s = execBltz x0 x1 s := rfl
theorem exec_bgez (x0 : BitVec 8) (x1 : BitVec 16) (s : State) : exec (.bgez x0 x1) s = execBgez x0 x1 s := rfl
theorem exec_bgtz (x0 : BitVec 8) (x1 : BitVec 16) (s : State) : exec (.bgtz x0 x1) s = execBgtz x0 x1 s := rfl
theorem exec_blez (x0 : BitVec 8) (x1 : BitVec 16) (s : State) : exec (.blez x0 x1) s = execBlez x0 x1 s := rfl
theorem exec_j (x0 : BitVec 24) (s : State) : exec (.j x0) s = execJ x0 s := rfl
theorem exec_call (x0 : BitVec 24) (s : State) : exec (.call x0) s = execCall x0 s := rfl
theorem exec_jmpr (x0 : BitVec 8) (x1 : BitVec 8) (s : State) : exec (.jmpr x0 x1) s = execJmpr x0 x1 s := rfl
theorem exec_sext (x0 : BitVec 8) (x1 : BitVec 8) (x2 : BitVec 8) (s : State) : exec (.sext x0 x1 x2) s = execSext x0 x1 x2 s := rfl
theorem exec_fadd (x0 : BitVec 8) (x1 : BitVec 8) (x2 : BitVec 8) (s : State) : exec (.fadd x0 x1 x2) s = execFadd x0 x1 x2 s := rfl
theorem exec_fsub (x0 : BitVec 8) (x1 : BitVec 8) (x2 : BitVec 8) (s : State) : exec (.fsub x0 x1 x2) s = execFsub x0 x1 x2 s := rfl
theorem exec_fmul (x0 : BitVec 8) (x1 : BitVec 8) (x2 : BitVec 8) (s : State) : exec (.fmul x0 x1 x2) s = execFmul x0 x1 x2 s := rfl
theorem exec_ffma (x0 : BitVec 8) (x1 : BitVec 8) (x2 : BitVec 8) (s : State) : exec (.ffma x0 x1 x2) s = execFfma x0 x1 x2 s := rfl
theorem exec_fdiv (x0 : BitVec 8) (x1 : BitVec 8) (x2 : BitVec 8) (s : State) : exec (.fdiv x0 x1 x2) s = execFdiv x0 x1 x2 s := rfl
theorem exec_fsqrt (x0 : BitVec 8) (x1 : BitVec 8) (s : State) : exec (.fsqrt x0 x1) s = execFsqrt x0 x1 s := rfl
theorem exec_fmin (x0 : BitVec 8) (x1 : BitVec 8) (x2 : BitVec 8) (s : State) : exec (.fmin x0 x1 x2) s = execFmin x0 x1 x2 s := rfl
theorem exec_fmax (x0 : BitVec 8) (x1 : BitVec 8) (x2 : BitVec 8) (s : State) : exec (.fmax x0 x1 x2) s = execFmax x0 x1 x2 s := rfl
theorem exec_flg2 (x0 : BitVec 8) (x1 : BitVec 8) (s : State) : exec (.flg2 x0 x1) s = execFlg2 x0 x1 s := rfl
theorem exec_fex2 (x0 : BitVec 8) (x1 : BitVec 8) (s : State) : exec (.fex2 x0 x1) s = execFex2 x0 x1 s := rfl
theorem exec_feq (x0 : BitVec 8) (x1 : BitVec 8) (x2 : BitVec 8) (s : State) : exec (.feq x0 x1 x2) s = execFeq x0 x1 x2 s := rfl
theorem exec_flt (x0 : BitVec 8) (x1 : BitVec 8) (x2 : BitVec 8) (s : State) : exec (.flt x0 x1 x2) s = execFlt x0 x1 x2 s := rfl
theorem exec_fle (x0 : BitVec 8) (x1 : BitVec 8) (x2 : BitVec 8) (s : State) : exec (.fle x0 x1 x2) s = execFle x0 x1 x2 s := rfl
theorem exec_fcvt (x0 : BitVec 8) (x1 : BitVec 8) (x2 : BitVec 8) (s : State) : exec (.fcvt x0 x1 x2) s = execFcvt x0 x1 x2 s := rfl
theorem exec_fclass (x0 : BitVec 8) (x1 : BitVec 8) (s : State) : exec (.fclass x0 x1) s = execFclass x0 x1 s := rfl
theorem exec_fsgnj (x0 : BitVec 8) (x1 : BitVec 8) (x2 : BitVec 8) (s : State) : exec (.fsgnj x0 x1 x2) s = execFsgnj x0 x1 x2 s := rfl
theorem exec_frint (x0 : BitVec 8) (x1 : BitVec 8) (s : State) : exec (.frint x0 x1) s = execFrint x0 x1 s := rfl
theorem exec_ffms (x0 : BitVec 8) (x1 : BitVec 8) (x2 : BitVec 8) (s : State) : exec (.ffms x0 x1 x2) s = execFfms x0 x1 x2 s := rfl
theorem exec_vadd (x0 : BitVec 8) (x1 : BitVec 8) (x2 : BitVec 8) (s : State) : exec (.vadd x0 x1 x2) s = execVadd x0 x1 x2 s := rfl
theorem exec_vsub (x0 : BitVec 8) (x1 : BitVec 8) (x2 : BitVec 8) (s : State) : exec (.vsub x0 x1 x2) s = execVsub x0 x1 x2 s := rfl
theorem exec_vmul (x0 : BitVec 8) (x1 : BitVec 8) (x2 : BitVec 8) (s : State) : exec (.vmul x0 x1 x2) s = execVmul x0 x1 x2 s := rfl
theorem exec_vfma (x0 : BitVec 8) (x1 : BitVec 8) (x2 : BitVec 8) (s : State) : exec (.vfma x0 x1 x2) s = execVfma x0 x1 x2 s := rfl
theorem exec_vmin (x0 : BitVec 8) (x1 : BitVec 8) (x2 : BitVec 8) (s : State) : exec (.vmin x0 x1 x2) s = execVmin x0 x1 x2 s := rfl
theorem exec_vmax (x0 : BitVec 8) (x1 : BitVec 8) (x2 : BitVec 8) (s : State) : exec (.vmax x0 x1 x2) s = execVmax x0 x1 x2 s := rfl
theorem exec_vlg2 (x0 : BitVec 8) (x1 : BitVec 8) (s : State) : exec (.vlg2 x0 x1) s = execVlg2 x0 x1 s := rfl
theorem exec_vex2 (x0 : BitVec 8) (x1 : BitVec 8) (s : State) : exec (.vex2 x0 x1) s = execVex2 x0 x1 s := rfl
theorem exec_vcvt (x0 : BitVec 8) (x1 : BitVec 8) (x2 : BitVec 8) (s : State) : exec (.vcvt x0 x1 x2) s = execVcvt x0 x1 x2 s := rfl
theorem exec_vcmp (x0 : BitVec 8) (x1 : BitVec 8) (x2 : BitVec 8) (s : State) : exec (.vcmp x0 x1 x2) s = execVcmp x0 x1 x2 s := rfl
theorem exec_vsel (x0 : BitVec 8) (x1 : BitVec 8) (x2 : BitVec 8) (s : State) : exec (.vsel x0 x1 x2) s = execVsel x0 x1 x2 s := rfl
theorem exec_vbcast (x0 : BitVec 8) (x1 : BitVec 8) (s : State) : exec (.vbcast x0 x1) s = execVbcast x0 x1 s := rfl
theorem exec_vsum (x0 : BitVec 8) (x1 : BitVec 8) (s : State) : exec (.vsum x0 x1) s = execVsum x0 x1 s := rfl
theorem exec_vmaxr (x0 : BitVec 8) (x1 : BitVec 8) (s : State) : exec (.vmaxr x0 x1) s = execVmaxr x0 x1 s := rfl
theorem exec_vargmax (x0 : BitVec 8) (x1 : BitVec 8) (x2 : BitVec 8) (s : State) : exec (.vargmax x0 x1 x2) s = execVargmax x0 x1 x2 s := rfl
theorem exec_vhash (x0 : BitVec 8) (x1 : BitVec 8) (x2 : BitVec 8) (s : State) : exec (.vhash x0 x1 x2) s = execVhash x0 x1 x2 s := rfl
theorem exec_viadd (x0 : BitVec 8) (x1 : BitVec 8) (x2 : BitVec 8) (s : State) : exec (.viadd x0 x1 x2) s = execViadd x0 x1 x2 s := rfl
theorem exec_vimul (x0 : BitVec 8) (x1 : BitVec 8) (x2 : BitVec 8) (s : State) : exec (.vimul x0 x1 x2) s = execVimul x0 x1 x2 s := rfl
theorem exec_vand (x0 : BitVec 8) (x1 : BitVec 8) (x2 : BitVec 8) (s : State) : exec (.vand x0 x1 x2) s = execVand x0 x1 x2 s := rfl
theorem exec_vor (x0 : BitVec 8) (x1 : BitVec 8) (x2 : BitVec 8) (s : State) : exec (.vor x0 x1 x2) s = execVor x0 x1 x2 s := rfl
theorem exec_vxor (x0 : BitVec 8) (x1 : BitVec 8) (x2 : BitVec 8) (s : State) : exec (.vxor x0 x1 x2) s = execVxor x0 x1 x2 s := rfl
theorem exec_vshf (x0 : BitVec 8) (x1 : BitVec 8) (x2 : BitVec 8) (s : State) : exec (.vshf x0 x1 x2) s = execVshf x0 x1 x2 s := rfl
theorem exec_vld (x0 : BitVec 8) (x1 : BitVec 8) (x2 : BitVec 8) (s : State) : exec (.vld x0 x1 x2) s = execVld x0 x1 x2 s := rfl
theorem exec_vst (x0 : BitVec 8) (x1 : BitVec 8) (x2 : BitVec 8) (s : State) : exec (.vst x0 x1 x2) s = execVst x0 x1 x2 s := rfl
theorem exec_vldn (x0 : BitVec 8) (x1 : BitVec 8) (x2 : BitVec 8) (s : State) : exec (.vldn x0 x1 x2) s = execVldn x0 x1 x2 s := rfl
theorem exec_ldb (x0 : BitVec 8) (x1 : BitVec 8) (x2 : BitVec 8) (s : State) : exec (.ldb x0 x1 x2) s = execLdb x0 x1 x2 s := rfl
theorem exec_ldbu (x0 : BitVec 8) (x1 : BitVec 8) (x2 : BitVec 8) (s : State) : exec (.ldbu x0 x1 x2) s = execLdbu x0 x1 x2 s := rfl
theorem exec_ldh (x0 : BitVec 8) (x1 : BitVec 8) (x2 : BitVec 8) (s : State) : exec (.ldh x0 x1 x2) s = execLdh x0 x1 x2 s := rfl
theorem exec_ldhu (x0 : BitVec 8) (x1 : BitVec 8) (x2 : BitVec 8) (s : State) : exec (.ldhu x0 x1 x2) s = execLdhu x0 x1 x2 s := rfl
theorem exec_lds (x0 : BitVec 8) (x1 : BitVec 8) (x2 : BitVec 8) (s : State) : exec (.lds x0 x1 x2) s = execLds x0 x1 x2 s := rfl
theorem exec_ldsu (x0 : BitVec 8) (x1 : BitVec 8) (x2 : BitVec 8) (s : State) : exec (.ldsu x0 x1 x2) s = execLdsu x0 x1 x2 s := rfl
theorem exec_ldw (x0 : BitVec 8) (x1 : BitVec 8) (x2 : BitVec 8) (s : State) : exec (.ldw x0 x1 x2) s = execLdw x0 x1 x2 s := rfl
theorem exec_stb (x0 : BitVec 8) (x1 : BitVec 8) (x2 : BitVec 8) (s : State) : exec (.stb x0 x1 x2) s = execStb x0 x1 x2 s := rfl
theorem exec_sth (x0 : BitVec 8) (x1 : BitVec 8) (x2 : BitVec 8) (s : State) : exec (.sth x0 x1 x2) s = execSth x0 x1 x2 s := rfl
theorem exec_sts (x0 : BitVec 8) (x1 : BitVec 8) (x2 : BitVec 8) (s : State) : exec (.sts x0 x1 x2) s = execSts x0 x1 x2 s := rfl
theorem exec_stw (x0 : BitVec 8) (x1 : BitVec 8) (x2 : BitVec 8) (s : State) : exec (.stw x0 x1 x2) s = execStw x0 x1 x2 s := rfl
theorem exec_ldro (x0 : BitVec 8) (x1 : BitVec 8) (x2 : BitVec 8) (s : State) : exec (.ldro x0 x1 x2) s = execLdro x0 x1 x2 s := rfl
theorem exec_lde (x0 : BitVec 8) (x1 : BitVec 8) (x2 : BitVec 8) (s : State) : exec (.lde x0 x1 x2) s = execLde x0 x1 x2 s := rfl
theorem exec_stf (x0 : BitVec 8) (x1 : BitVec 8) (x2 : BitVec 8) (s : State) : exec (.stf x0 x1 x2) s = execStf x0 x1 x2 s := rfl
theorem exec_aadd (x0 : BitVec 8) (x1 : BitVec 8) (x2 : BitVec 8) (s : State) : exec (.aadd x0 x1 x2) s = execAadd x0 x1 x2 s := rfl
theorem exec_aswp (x0 : BitVec 8) (x1 : BitVec 8) (x2 : BitVec 8) (s : State) : exec (.aswp x0 x1 x2) s = execAswp x0 x1 x2 s := rfl
theorem exec_acas (x0 : BitVec 8) (x1 : BitVec 8) (x2 : BitVec 8) (s : State) : exec (.acas x0 x1 x2) s = execAcas x0 x1 x2 s := rfl
theorem exec_amin (x0 : BitVec 8) (x1 : BitVec 8) (x2 : BitVec 8) (s : State) : exec (.amin x0 x1 x2) s = execAmin x0 x1 x2 s := rfl
theorem exec_amax (x0 : BitVec 8) (x1 : BitVec 8) (x2 : BitVec 8) (s : State) : exec (.amax x0 x1 x2) s = execAmax x0 x1 x2 s := rfl
theorem exec_hold (x0 : BitVec 8) (x1 : BitVec 8) (s : State) : exec (.hold x0 x1) s = execHold x0 x1 s := rfl
theorem exec_unhold (x0 : BitVec 8) (x1 : BitVec 8) (s : State) : exec (.unhold x0 x1) s = execUnhold x0 x1 s := rfl
theorem exec_fence (s : State) : exec (.fence) s = execFence s := rfl
theorem exec_fenceSib (s : State) : exec (.fenceSib) s = execFenceSib s := rfl
theorem exec_flushp (x0 : BitVec 8) (x1 : BitVec 8) (x2 : BitVec 8) (s : State) : exec (.flushp x0 x1 x2) s = execFlushp x0 x1 x2 s := rfl
theorem exec_invp (x0 : BitVec 8) (x1 : BitVec 8) (x2 : BitVec 8) (s : State) : exec (.invp x0 x1 x2) s = execInvp x0 x1 x2 s := rfl
theorem exec_discard (x0 : BitVec 8) (x1 : BitVec 8) (x2 : BitVec 8) (s : State) : exec (.discard x0 x1 x2) s = execDiscard x0 x1 x2 s := rfl
theorem exec_pref (x0 : BitVec 8) (x1 : BitVec 8) (s : State) : exec (.pref x0 x1) s = execPref x0 x1 s := rfl
theorem exec_tick (x0 : BitVec 16) (s : State) : exec (.tick x0) s = execTick x0 s := rfl
theorem exec_tsprobe (x0 : BitVec 8) (x1 : BitVec 8) (s : State) : exec (.tsprobe x0 x1) s = execTsprobe x0 x1 s := rfl
theorem exec_ldex (x0 : BitVec 8) (x1 : BitVec 8) (x2 : BitVec 8) (s : State) : exec (.ldex x0 x1 x2) s = execLdex x0 x1 x2 s := rfl
theorem exec_bset (x0 : BitVec 8) (x1 : BitVec 8) (x2 : BitVec 8) (s : State) : exec (.bset x0 x1 x2) s = execBset x0 x1 x2 s := rfl
theorem exec_bcomp (x0 : BitVec 8) (x1 : BitVec 8) (x2 : BitVec 8) (s : State) : exec (.bcomp x0 x1 x2) s = execBcomp x0 x1 x2 s := rfl
theorem exec_binfo (x0 : BitVec 8) (x1 : BitVec 8) (s : State) : exec (.binfo x0 x1) s = execBinfo x0 x1 s := rfl
theorem exec_rcp (x0 : BitVec 8) (x1 : BitVec 16) (s : State) : exec (.rcp x0 x1) s = execRcp x0 x1 s := rfl
theorem exec_rcpfree (x0 : BitVec 8) (s : State) : exec (.rcpfree x0) s = execRcpfree x0 s := rfl
theorem exec_rcpq (x0 : BitVec 8) (x1 : BitVec 8) (s : State) : exec (.rcpq x0 x1) s = execRcpq x0 x1 s := rfl
theorem exec_spawn (x0 : BitVec 8) (x1 : BitVec 8) (x2 : BitVec 8) (s : State) : exec (.spawn x0 x1 x2) s = execSpawn x0 x1 x2 s := rfl
theorem exec_exit (s : State) : exec (.exit) s = execExit s := rfl
theorem exec_waitw (x0 : BitVec 8) (x1 : BitVec 16) (s : State) : exec (.waitw x0 x1) s = execWaitw x0 x1 s := rfl
theorem exec_post (x0 : BitVec 8) (x1 : BitVec 8) (x2 : BitVec 8) (s : State) : exec (.post x0 x1 x2) s = execPost x0 x1 x2 s := rfl
theorem exec_yield (s : State) : exec (.yield) s = execYield s := rfl
theorem exec_launch (x0 : BitVec 8) (x1 : BitVec 8) (s : State) : exec (.launch x0 x1) s = execLaunch x0 x1 s := rfl
theorem exec_lwait (x0 : BitVec 8) (x1 : BitVec 8) (s : State) : exec (.lwait x0 x1) s = execLwait x0 x1 s := rfl
theorem exec_cancel (x0 : BitVec 8) (x1 : BitVec 8) (s : State) : exec (.cancel x0 x1) s = execCancel x0 x1 s := rfl
theorem exec_barrier (x0 : BitVec 8) (s : State) : exec (.barrier x0) s = execBarrier x0 s := rfl
theorem exec_epbind (x0 : BitVec 8) (x1 : BitVec 8) (s : State) : exec (.epbind x0 x1) s = execEpbind x0 x1 s := rfl
theorem exec_migr (x0 : BitVec 8) (x1 : BitVec 8) (s : State) : exec (.migr x0 x1) s = execMigr x0 x1 s := rfl
theorem exec_mm (x0 : BitVec 8) (x1 : BitVec 8) (s : State) : exec (.mm x0 x1) s = execMm x0 x1 s := rfl
theorem exec_mms (x0 : BitVec 8) (x1 : BitVec 8) (s : State) : exec (.mms x0 x1) s = execMms x0 x1 s := rfl
theorem exec_cpy (x0 : BitVec 8) (x1 : BitVec 8) (s : State) : exec (.cpy x0 x1) s = execCpy x0 x1 s := rfl
theorem exec_coll (x0 : BitVec 8) (x1 : BitVec 8) (s : State) : exec (.coll x0 x1) s = execColl x0 x1 s := rfl
theorem exec_jwait (x0 : BitVec 8) (x1 : BitVec 8) (s : State) : exec (.jwait x0 x1) s = execJwait x0 x1 s := rfl
theorem exec_jpoll (x0 : BitVec 8) (x1 : BitVec 8) (s : State) : exec (.jpoll x0 x1) s = execJpoll x0 x1 s := rfl
theorem exec_sysr (x0 : BitVec 8) (x1 : BitVec 16) (s : State) : exec (.sysr x0 x1) s = execSysr x0 x1 s := rfl
theorem exec_sysw (x0 : BitVec 8) (x1 : BitVec 16) (s : State) : exec (.sysw x0 x1) s = execSysw x0 x1 s := rfl
theorem exec_trap (x0 : BitVec 16) (s : State) : exec (.trap x0) s = execTrap x0 s := rfl
theorem exec_tret (x0 : BitVec 8) (s : State) : exec (.tret x0) s = execTret x0 s := rfl
theorem exec_shoot (x0 : BitVec 8) (x1 : BitVec 8) (x2 : BitVec 8) (s : State) : exec (.shoot x0 x1 x2) s = execShoot x0 x1 x2 s := rfl
theorem exec_pageWalk (x0 : Nat) (s : State) : exec (.pageWalk x0) s = execPageWalk x0 s := rfl
theorem exec_loadReply (x0 : Nat) (x1 : Nat) (s : State) : exec (.loadReply x0 x1) s = execLoadReply x0 x1 s := rfl
theorem exec_bankReply (x0 : Nat) (s : State) : exec (.bankReply x0) s = execBankReply x0 s := rfl
theorem exec_threadReady (x0 : Nat) (s : State) : exec (.threadReady x0) s = execThreadReady x0 s := rfl
theorem exec_cohRead (x0 : Nat) (x1 : Nat) (s : State) : exec (.cohRead x0 x1) s = execCohRead x0 x1 s := rfl
theorem exec_exclusiveRequest (x0 : Nat) (x1 : Nat) (s : State) : exec (.exclusiveRequest x0 x1) s = execExclusiveRequest x0 x1 s := rfl
theorem exec_recall (x0 : Nat) (x1 : Bool) (s : State) : exec (.recall x0 x1) s = execRecall x0 x1 s := rfl
theorem exec_storeTimestamp (x0 : Nat) (x1 : Nat) (s : State) : exec (.storeTimestamp x0 x1) s = execStoreTimestamp x0 x1 s := rfl
theorem exec_farAtomic (x0 : Nat) (s : State) : exec (.farAtomic x0) s = execFarAtomic x0 s := rfl
theorem exec_writeBack (x0 : Nat) (s : State) : exec (.writeBack x0) s = execWriteBack x0 s := rfl
theorem exec_l2Fill (x0 : Nat) (x1 : Bool) (s : State) : exec (.l2Fill x0 x1) s = execL2Fill x0 x1 s := rfl
theorem exec_mergeWindowClose (x0 : Nat) (s : State) : exec (.mergeWindowClose x0) s = execMergeWindowClose x0 s := rfl
theorem exec_deferredDiscard (x0 : Nat) (s : State) : exec (.deferredDiscard x0) s = execDeferredDiscard x0 s := rfl
theorem exec_holdCap (x0 : Nat) (x1 : Nat) (s : State) : exec (.holdCap x0 x1) s = execHoldCap x0 x1 s := rfl
theorem exec_ptsTick (x0 : Nat) (s : State) : exec (.ptsTick x0) s = execPtsTick x0 s := rfl
theorem exec_floorRaise (s : State) : exec (.floorRaise) s = execFloorRaise s := rfl
theorem exec_ownTimeRaise (x0 : Agent) (s : State) : exec (.ownTimeRaise x0) s = execOwnTimeRaise x0 s := rfl
theorem exec_l2StampSweep (x0 : Nat) (x1 : Nat) (s : State) : exec (.l2StampSweep x0 x1) s = execL2StampSweep x0 x1 s := rfl
theorem exec_coreStampSweep (x0 : Nat) (x1 : Nat) (s : State) : exec (.coreStampSweep x0 x1) s = execCoreStampSweep x0 x1 s := rfl
theorem exec_steppedAdvance (x0 : Agent) (s : State) : exec (.steppedAdvance x0) s = execSteppedAdvance x0 s := rfl
theorem exec_storageSweep (x0 : Loc) (s : State) : exec (.storageSweep x0) s = execStorageSweep x0 s := rfl
theorem exec_registerSweep (x0 : Loc) (s : State) : exec (.registerSweep x0) s = execRegisterSweep x0 s := rfl
theorem exec_bankLoad (x0 : Nat) (s : State) : exec (.bankLoad x0) s = execBankLoad x0 s := rfl
theorem exec_bankStore (x0 : Nat) (s : State) : exec (.bankStore x0) s = execBankStore x0 s := rfl
theorem exec_fullBitRead (x0 : Nat) (s : State) : exec (.fullBitRead x0) s = execFullBitRead x0 s := rfl
theorem exec_granuleEmpty (x0 : Nat) (s : State) : exec (.granuleEmpty x0) s = execGranuleEmpty x0 s := rfl
theorem exec_pop (x0 : Nat) (s : State) : exec (.pop x0) s = execPop x0 s := rfl
theorem exec_push (x0 : Nat) (s : State) : exec (.push x0) s = execPush x0 s := rfl
theorem exec_peek (x0 : Nat) (s : State) : exec (.peek x0) s = execPeek x0 s := rfl
theorem exec_count (x0 : Nat) (s : State) : exec (.count x0) s = execCount x0 s := rfl
theorem exec_mapLookup (x0 : Nat) (s : State) : exec (.mapLookup x0) s = execMapLookup x0 s := rfl
theorem exec_mapInsert (x0 : Nat) (s : State) : exec (.mapInsert x0) s = execMapInsert x0 s := rfl
theorem exec_mapTake (x0 : Nat) (s : State) : exec (.mapTake x0) s = execMapTake x0 s := rfl
theorem exec_mapDelete (x0 : Nat) (s : State) : exec (.mapDelete x0) s = execMapDelete x0 s := rfl
theorem exec_heapInsert (x0 : Nat) (s : State) : exec (.heapInsert x0) s = execHeapInsert x0 s := rfl
theorem exec_heapPop (x0 : Nat) (s : State) : exec (.heapPop x0) s = execHeapPop x0 s := rfl
theorem exec_histRead (x0 : Nat) (s : State) : exec (.histRead x0) s = execHistRead x0 s := rfl
theorem exec_histAdd (x0 : Nat) (s : State) : exec (.histAdd x0) s = execHistAdd x0 s := rfl
theorem exec_histReadClear (x0 : Nat) (s : State) : exec (.histReadClear x0) s = execHistReadClear x0 s := rfl
theorem exec_histSet (x0 : Nat) (s : State) : exec (.histSet x0) s = execHistSet x0 s := rfl
theorem exec_bankVectorAccess (x0 : Nat) (s : State) : exec (.bankVectorAccess x0) s = execBankVectorAccess x0 s := rfl
theorem exec_bankLde (x0 : Nat) (s : State) : exec (.bankLde x0) s = execBankLde x0 s := rfl
theorem exec_bankStf (x0 : Nat) (s : State) : exec (.bankStf x0) s = execBankStf x0 s := rfl
theorem exec_keep (x0 : Nat) (x1 : List Nat) (x2 : List Nat) (s : State) : exec (.keep x0 x1 x2) s = execKeep x0 x1 x2 s := rfl
theorem exec_drain (x0 : Nat) (s : State) : exec (.drain x0) s = execDrain x0 s := rfl
theorem exec_clear (x0 : Nat) (s : State) : exec (.clear x0) s = execClear x0 s := rfl
theorem exec_compositionForm (x0 : Nat) (s : State) : exec (.compositionForm x0) s = execCompositionForm x0 s := rfl
theorem exec_bankHandover (x0 : Nat) (x1 : Nat) (s : State) : exec (.bankHandover x0 x1) s = execBankHandover x0 x1 s := rfl
theorem exec_trestleAccept (x0 : Nat) (s : State) : exec (.trestleAccept x0) s = execTrestleAccept x0 s := rfl
theorem exec_tileStep (x0 : Nat) (x1 : Nat) (x2 : Bool) (x3 : Bool) (s : State) : exec (.tileStep x0 x1 x2 x3) s = execTileStep x0 x1 x2 x3 s := rfl
theorem exec_publish (x0 : Nat) (x1 : Bool) (x2 : Nat) (s : State) : exec (.publish x0 x1 x2) s = execPublish x0 x1 x2 s := rfl
theorem exec_trestleSave (x0 : Nat) (s : State) : exec (.trestleSave x0) s = execTrestleSave x0 s := rfl
theorem exec_copyAccept (x0 : Nat) (s : State) : exec (.copyAccept x0) s = execCopyAccept x0 s := rfl
theorem exec_copy (x0 : Nat) (x1 : Nat) (x2 : Bool) (s : State) : exec (.copy x0 x1 x2) s = execCopy x0 x1 x2 s := rfl
theorem exec_fill (x0 : Nat) (x1 : Nat) (x2 : Bool) (s : State) : exec (.fill x0 x1 x2) s = execFill x0 x1 x2 s := rfl
theorem exec_gather (x0 : Nat) (x1 : Nat) (x2 : Bool) (s : State) : exec (.gather x0 x1 x2) s = execGather x0 x1 x2 s := rfl
theorem exec_scatteradd (x0 : Nat) (x1 : Nat) (s : State) : exec (.scatteradd x0 x1) s = execScatteradd x0 x1 s := rfl
theorem exec_put (x0 : Nat) (x1 : Nat) (s : State) : exec (.put x0 x1) s = execPut x0 x1 s := rfl
theorem exec_get (x0 : Nat) (x1 : Nat) (x2 : Bool) (x3 : RemoteAnswer) (s : State) : exec (.get x0 x1 x2 x3) s = execGet x0 x1 x2 x3 s := rfl
theorem exec_rmaRequest (x0 : RmaRequest) (s : State) : exec (.rmaRequest x0) s = execRmaRequest x0 s := rfl
theorem exec_remotePutPublish (x0 : Nat) (s : State) : exec (.remotePutPublish x0) s = execRemotePutPublish x0 s := rfl
theorem exec_retryBudgetExhausted (x0 : Nat) (x1 : Nat) (s : State) : exec (.retryBudgetExhausted x0 x1) s = execRetryBudgetExhausted x0 x1 s := rfl
theorem exec_copySave (x0 : Nat) (s : State) : exec (.copySave x0) s = execCopySave x0 s := rfl
theorem exec_allreduce (x0 : Nat) (x1 : Nat) (x2 : Nat) (x3 : Nat) (x4 : Bool) (x5 : RemoteAnswer) (s : State) : exec (.allreduce x0 x1 x2 x3 x4 x5) s = execAllreduce x0 x1 x2 x3 x4 x5 s := rfl
theorem exec_reduce (x0 : Nat) (x1 : Nat) (x2 : Nat) (x3 : Nat) (x4 : Bool) (x5 : RemoteAnswer) (s : State) : exec (.reduce x0 x1 x2 x3 x4 x5) s = execReduce x0 x1 x2 x3 x4 x5 s := rfl
theorem exec_bcast (x0 : Nat) (x1 : Nat) (x2 : Nat) (x3 : Nat) (x4 : Bool) (x5 : RemoteAnswer) (s : State) : exec (.bcast x0 x1 x2 x3 x4 x5) s = execBcast x0 x1 x2 x3 x4 x5 s := rfl
theorem exec_allgather (x0 : Nat) (x1 : Nat) (x2 : Nat) (x3 : Nat) (x4 : Bool) (x5 : RemoteAnswer) (s : State) : exec (.allgather x0 x1 x2 x3 x4 x5) s = execAllgather x0 x1 x2 x3 x4 x5 s := rfl
theorem exec_waitwDispatch (x0 : Nat) (s : State) : exec (.waitwDispatch x0) s = execWaitwDispatch x0 s := rfl
theorem exec_quiescence (x0 : Nat) (s : State) : exec (.quiescence x0) s = execQuiescence x0 s := rfl
theorem exec_threadCreation (x0 : Nat) (x1 : Nat) (s : State) : exec (.threadCreation x0 x1) s = execThreadCreation x0 x1 s := rfl
theorem exec_launchRecordRead (x0 : Nat) (s : State) : exec (.launchRecordRead x0) s = execLaunchRecordRead x0 s := rfl
theorem exec_sideboardReport (x0 : Nat) (s : State) : exec (.sideboardReport x0) s = execSideboardReport x0 s := rfl
theorem exec_restart (x0 : Nat) (x1 : Nat) (s : State) : exec (.restart x0 x1) s = execRestart x0 x1 s := rfl
theorem exec_messageInjection (x0 : Nat) (s : State) : exec (.messageInjection x0) s = execMessageInjection x0 s := rfl
theorem exec_messageDelivery (x0 : Nat) (s : State) : exec (.messageDelivery x0) s = execMessageDelivery x0 s := rfl
theorem exec_overflowDrain (x0 : Nat) (x1 : Nat) (x2 : Nat) (s : State) : exec (.overflowDrain x0 x1 x2) s = execOverflowDrain x0 x1 x2 s := rfl
theorem exec_migrationArrival (x0 : Nat) (s : State) : exec (.migrationArrival x0) s = execMigrationArrival x0 s := rfl
theorem exec_quantumBoundary (x0 : Nat) (s : State) : exec (.quantumBoundary x0) s = execQuantumBoundary x0 s := rfl
theorem exec_preEmption (x0 : Nat) (s : State) : exec (.preEmption x0) s = execPreEmption x0 s := rfl
theorem exec_threadSave (x0 : Nat) (s : State) : exec (.threadSave x0) s = execThreadSave x0 s := rfl
theorem exec_slotRst (x0 : Nat) (x1 : Word) (s : State) : exec (.slotRst x0 x1) s = execSlotRst x0 x1 s := rfl
theorem exec_slotOwn (x0 : Nat) (x1 : Word) (s : State) : exec (.slotOwn x0 x1) s = execSlotOwn x0 x1 s := rfl
theorem exec_cxId (x0 : Nat) (x1 : Nat) (x2 : Word) (s : State) : exec (.cxId x0 x1 x2) s = execCxId x0 x1 x2 s := rfl
theorem exec_tmbox (x0 : Nat) (s : State) : exec (.tmbox x0) s = execTmbox x0 s := rfl
theorem exec_mailboxReply (x0 : Nat) (x1 : Nat) (x2 : Nat) (x3 : Word) (s : State) : exec (.mailboxReply x0 x1 x2 x3) s = execMailboxReply x0 x1 x2 x3 s := rfl
theorem exec_sysShootD (x0 : Nat) (x1 : Word) (s : State) : exec (.sysShootD x0 x1) s = execSysShootD x0 x1 s := rfl
theorem exec_trestlePre (x0 : Nat) (x1 : Word) (s : State) : exec (.trestlePre x0 x1) s = execTrestlePre x0 x1 s := rfl
theorem exec_trestleRes (x0 : Nat) (x1 : Word) (s : State) : exec (.trestleRes x0 x1) s = execTrestleRes x0 x1 s := rfl
theorem exec_copyPre (x0 : Nat) (x1 : Word) (s : State) : exec (.copyPre x0 x1) s = execCopyPre x0 x1 s := rfl
theorem exec_copyRes (x0 : Nat) (x1 : Word) (s : State) : exec (.copyRes x0 x1) s = execCopyRes x0 x1 s := rfl
theorem exec_registerWrite (x0 : RegName) (x1 : Word) (s : State) : exec (.registerWrite x0 x1) s = execRegisterWrite x0 x1 s := rfl
theorem exec_putPublishAcknowledged (x0 : Nat) (x1 : Nat) (x2 : RemoteAnswer) (s : State) : exec (.putPublishAcknowledged x0 x1 x2) s = execPutPublishAcknowledged x0 x1 x2 s := rfl
theorem exec_privStoreEntersL1 (x0 : Nat) (x1 : Nat) (s : State) : exec (.privStoreEntersL1 x0 x1) s = execPrivStoreEntersL1 x0 x1 s := rfl
theorem exec_binfoReport (x0 : Nat) (s : State) : exec (.binfoReport x0) s = execBinfoReport x0 s := rfl
theorem exec_ctxnew (x0 : HostCmd) (x1 : List Nat) (s : State) : exec (.ctxnew x0 x1) s = execCtxnew x0 x1 s := rfl
theorem exec_ctxend (x0 : HostCmd) (s : State) : exec (.ctxend x0) s = execCtxend x0 s := rfl
theorem exec_map (x0 : HostCmd) (x1 : List Nat) (s : State) : exec (.map x0 x1) s = execMap x0 x1 s := rfl
theorem exec_unmap (x0 : HostCmd) (s : State) : exec (.unmap x0) s = execUnmap x0 s := rfl
theorem exec_winopen (x0 : HostCmd) (s : State) : exec (.winopen x0) s = execWinopen x0 s := rfl
theorem exec_winclose (x0 : HostCmd) (s : State) : exec (.winclose x0) s = execWinclose x0 s := rfl
theorem exec_submit (x0 : HostCmd) (x1 : List Nat) (s : State) : exec (.submit x0 x1) s = execSubmit x0 x1 s := rfl
theorem exec_hostCancel (x0 : HostCmd) (s : State) : exec (.hostCancel x0) s = execHostCancel x0 s := rfl
theorem exec_status (x0 : HostCmd) (s : State) : exec (.status x0) s = execStatus x0 s := rfl
theorem exec_logread (x0 : HostCmd) (s : State) : exec (.logread x0) s = execLogread x0 s := rfl
theorem exec_group (x0 : HostCmd) (s : State) : exec (.group x0) s = execGroup x0 s := rfl
theorem exec_policy (x0 : HostCmd) (s : State) : exec (.policy x0) s = execPolicy x0 s := rfl
theorem exec_packageReset (s : State) : exec (.packageReset) s = execPackageReset s := rfl
theorem exec_powerGood (s : State) : exec (.powerGood) s = execPowerGood s := rfl
theorem exec_linkTrained (x0 : Nat) (s : State) : exec (.linkTrained x0) s = execLinkTrained x0 s := rfl
theorem exec_bootImageRead (x0 : BootImage) (s : State) : exec (.bootImageRead x0) s = execBootImageRead x0 s := rfl
theorem exec_sliceStart (x0 : Nat) (s : State) : exec (.sliceStart x0) s = execSliceStart x0 s := rfl
theorem exec_sliceFinished (x0 : Nat) (s : State) : exec (.sliceFinished x0) s = execSliceFinished x0 s := rfl

end Sys2Proof.Machine
end

