-- ==== Sys2Proof/Laws/Maps.lean ====
section
/-! SUPPORT. What a map reads after an update of it, and the units and clocks that an update leaves alone. -/

namespace Sys2Proof.Machine

@[simp] theorem find_put_same {α : Type} (m : FMap α) (n : Nat) (v : α) : find (put m n v) n = some v := by
  induction m with
  | nil => simp [put, find]
  | cons p m ih =>
    obtain ⟨k, x⟩ := p
    simp only [put]
    split
    · simp [find]
    · split
      · simp [find]
      · simp only [find]
        split
        · omega
        · exact ih

theorem find_put_other {α : Type} (m : FMap α) (n j : Nat) (v : α) (h : j ≠ n) : find (put m n v) j = find m j := by
  induction m with
  | nil => simp [put, find]; omega
  | cons p m ih =>
    obtain ⟨k, x⟩ := p
    simp only [put]
    split
    · simp [find]; omega
    · split
      · simp only [find]; split <;> split <;> first | rfl | omega
      · simp only [find]; split
        · rfl
        · exact ih

@[simp] theorem findD_put_same {α : Type} (m : FMap α) (d : α) (n : Nat) (v : α) : findD (put m n v) d n = v := by
  simp [findD]

theorem findD_put_other {α : Type} (m : FMap α) (d : α) (n j : Nat) (v : α) (h : j ≠ n) :
    findD (put m n v) d j = findD m d j := by
  simp [findD, find_put_other _ _ _ _ h]

theorem find_del_same {α : Type} (m : FMap α) (n : Nat) : find (del m n) n = none := by
  induction m with
  | nil => rfl
  | cons p m ih =>
    obtain ⟨k, x⟩ := p
    by_cases h : k = n
    · simpa [del, List.filter, h] using ih
    · have : (k != n) = true := by simp [h]
      simp only [del, List.filter_cons, this, if_true, find] at ih ⊢
      rw [if_neg h]
      exact ih

theorem find_del_other {α : Type} (m : FMap α) (n j : Nat) (h : j ≠ n) : find (del m n) j = find m j := by
  induction m with
  | nil => rfl
  | cons p m ih =>
    obtain ⟨k, x⟩ := p
    by_cases hk : k = n
    · have : (k != n) = false := by simp [hk]
      simp only [del, List.filter_cons, this] at ih ⊢
      simp only [Bool.false_eq_true, if_false, find]
      rw [if_neg (by omega)]
      exact ih
    · have : (k != n) = true := by simp [hk]
      simp only [del, List.filter_cons, this, if_true, find] at ih ⊢
      split
      · rfl
      · exact ih

@[simp] theorem State.core_setCore (s : State) (c : Nat) (v : Core) : (s.setCore c v).core c = v := by
  simp [State.core, State.setCore]

theorem State.core_setCore_other (s : State) (c j : Nat) (v : Core) (h : j ≠ c) : (s.setCore c v).core j = s.core j := by
  simp [State.core, State.setCore, findD_put_other _ _ _ _ _ h]

@[simp] theorem State.cluster_setCluster (s : State) (k : Nat) (v : Cluster) : (s.setCluster k v).cluster k = v := by
  simp [State.cluster, State.setCluster]

theorem State.cluster_setCluster_other (s : State) (k j : Nat) (v : Cluster) (h : j ≠ k) :
    (s.setCluster k v).cluster j = s.cluster j := by
  simp [State.cluster, State.setCluster, findD_put_other _ _ _ _ _ h]

@[simp] theorem State.bank_setBank (s : State) (b : Nat) (v : Bank) : (s.setBank b v).bank b = v := by
  simp [State.bank, State.setBank]

theorem State.bank_setBank_other (s : State) (b j : Nat) (v : Bank) (h : j ≠ b) : (s.setBank b v).bank j = s.bank j := by
  simp [State.bank, State.setBank, findD_put_other _ _ _ _ _ h]

@[simp] theorem State.slot_setSlot (s : State) (t : Nat) (v : Slot) : (s.setSlot t v).slot t = v := by
  simp [State.slot, State.setSlot]

theorem State.slot_setSlot_other (s : State) (t j : Nat) (v : Slot) (h : j ≠ t) : (s.setSlot t v).slot j = s.slot j := by
  simp only [State.slot, State.setSlot]
  by_cases hc : coreOf j = coreOf t
  · have hs : slotOf j ≠ slotOf t := by
      intro e; apply h; simp only [coreOf, slotOf] at hc e; omega
    simp [hc, findD_put_other _ _ _ _ _ hs]
  · rw [State.core_setCore_other _ _ _ _ hc]

@[simp] theorem State.thread_setSlot (s : State) (t : Nat) (v : Slot) : (s.setSlot t v).thread t = v.thread := by
  simp [State.thread]

@[simp] theorem State.bank_setSlot (s : State) (t b : Nat) (v : Slot) : (s.setSlot t v).bank b = s.bank b := rfl
@[simp] theorem State.cluster_setSlot (s : State) (t k : Nat) (v : Slot) : (s.setSlot t v).cluster k = s.cluster k := rfl
@[simp] theorem State.clock_setSlot (s : State) (t : Nat) (v : Slot) (a : Agent) : (s.setSlot t v).clock a = s.clock a := rfl

theorem clock_setClockIn (l : List (Agent × Clock)) (a : Agent) (c : Clock) :
    (setClockIn l a c).find? (fun p => p.1 == a) = some (a, c) := by
  induction l with
  | nil => simp [setClockIn]
  | cons p l ih =>
    obtain ⟨b, x⟩ := p
    simp only [setClockIn]
    split
    · simp
    · rename_i h
      have : (b == a) = false := beq_eq_false_iff_ne.2 h
      simp [List.find?, this, ih]

theorem clock_setClockIn_other (l : List (Agent × Clock)) (a b : Agent) (c : Clock) (h : b ≠ a) :
    (setClockIn l a c).find? (fun p => p.1 == b) = l.find? (fun p => p.1 == b) := by
  induction l with
  | nil => simp [setClockIn, Ne.symm h]
  | cons p l ih =>
    obtain ⟨x, y⟩ := p
    simp only [setClockIn]
    split
    · rename_i e
      subst e
      have : (x == b) = false := beq_eq_false_iff_ne.2 (Ne.symm h)
      simp [List.find?, this]
    · simp only [List.find?, ih]

@[simp] theorem State.clock_setClock (s : State) (a : Agent) (c : Clock) : (s.setClock a c).clock a = c := by
  simp [State.clock, State.setClock, clock_setClockIn]

theorem State.clock_setClock_other (s : State) (a b : Agent) (c : Clock) (h : b ≠ a) : (s.setClock a c).clock b = s.clock b := by
  simp [State.clock, State.setClock, clock_setClockIn_other _ _ _ _ h]

end Sys2Proof.Machine
end

