-- ==== Sys2Proof/Laws/Monad.lean ====
section
/-! SUPPORT. How computations of the model run: one lemma for each way that one is put together. -/

namespace Sys2Proof.Machine

theorem bind_ok {α β : Type} {x : M α} {f : α → M β} {s t : State} {a : α} (h : x s = .ok (a, t)) : (x >>= f) s = f a t := by
  simp [bind, StateT.bind, Except.bind, h]

theorem bind_error {α β : Type} {x : M α} {f : α → M β} {s : State} {e : Abort} (h : x s = .error e) :
    (x >>= f) s = .error e := by
  simp [bind, StateT.bind, Except.bind, h]

/-- What a computation that went through did first. -/
theorem bind_inv {α β : Type} {x : M α} {f : α → M β} {s t : State} {b : β} (h : (x >>= f) s = .ok (b, t)) :
    ∃ a u, x s = .ok (a, u) ∧ f a u = .ok (b, t) := by
  cases hx : x s with
  | error e => rw [bind_error hx] at h; cases h
  | ok p => exact ⟨p.1, p.2, rfl, by rwa [bind_ok hx] at h⟩

@[simp] theorem pure_run {α : Type} (a : α) (s : State) : (pure a : M α) s = .ok (a, s) := rfl
@[simp] theorem getS_run (s : State) : getS s = .ok (s, s) := rfl
@[simp] theorem get_run (s : State) : (get : M State) s = .ok (s, s) := rfl
@[simp] theorem set_run (s t : State) : (set t : M Unit) s = .ok ((), t) := rfl
@[simp] theorem modS_run (f : State → State) (s : State) : modS f s = .ok ((), f s) := rfl
@[simp] theorem abort_run {α : Type} (a : Abort) (s : State) : (abort a : M α) s = .error a := rfl
@[simp] theorem park_run {α : Type} (w : Wait) (s : State) : (park w : M α) s = .error (.park w) := rfl
@[simp] theorem trap_run {α : Type} (c : Nat) (v : Word) (s : State) :
    (trap c v : M α) s = .error (.trap { cause := c, value := v, entered := s.entered }) := rfl
@[simp] theorem illegal_run {α : Type} (w : IWord) (n : Nat) (s : State) :
    (illegal w n : M α) s = .error (.trap { cause := 2, value := w.setWidth 64, extra := n, entered := s.entered }) := rfl

@[simp] theorem bind_getS {α : Type} (f : State → M α) (s : State) : (getS >>= f) s = f s s := rfl
@[simp] theorem bind_pure_run {α β : Type} (a : α) (f : α → M β) (s : State) : (pure a >>= f) s = f a s := rfl
@[simp] theorem bind_modS {α : Type} (g : State → State) (f : Unit → M α) (s : State) : (modS g >>= f) s = f () (g s) := rfl
@[simp] theorem bind_set {α : Type} (t : State) (f : PUnit → M α) (s : State) : ((set t : M PUnit) >>= f) s = f ⟨⟩ t := rfl
@[simp] theorem bind_abort {α β : Type} (a : Abort) (f : α → M β) (s : State) : ((abort a : M α) >>= f) s = .error a := rfl

@[simp] theorem bind_assoc_run {α β γ : Type} (x : M α) (f : α → M β) (g : β → M γ) (s : State) :
    ((x >>= f) >>= g) s = (x >>= fun a => f a >>= g) s := by
  cases h : x s with
  | error e =>
    have h1 : (x >>= f) s = .error e := bind_error h
    rw [bind_error h1, bind_error h]
  | ok p =>
    have h1 : (x >>= f) s = f p.1 p.2 := bind_ok h
    rw [bind_ok (f := fun a => f a >>= g) h]
    simp [bind, StateT.bind, Except.bind, h]

@[simp] theorem myTid_run (s : State) : myTid s = .ok (s.cur, s) := rfl
@[simp] theorem myCore_run (s : State) : myCore s = .ok (coreOf s.cur, s) := rfl
@[simp] theorem mySlot_run (s : State) : mySlot s = .ok (s.slot s.cur, s) := rfl
@[simp] theorem timeOf_run (a : Agent) (s : State) : timeOf a s = .ok ((s.clock a).t, s) := rfl
@[simp] theorem pts_run (s : State) : Machine.pts s = .ok (s.pts (coreOf s.cur), s) := rfl
@[simp] theorem draw_run (s : State) : draw s = .ok (s.fresh, { s with fresh := s.fresh + 1 }) := rfl

theorem me_run {s : State} {x : Thread} (h : s.thread s.cur = some x) : me s = .ok (x, s) := by
  simp [me, h]

theorem modSlot_run (t : Nat) (f : Slot → Slot) (s : State) : modSlot t f s = .ok ((), s.setSlot t (f (s.slot t))) := rfl
theorem modCore_run (c : Nat) (f : Core → Core) (s : State) : modCore c f s = .ok ((), s.setCore c (f (s.core c))) := rfl
theorem modMe_run (f : Thread → Thread) (s : State) :
    modMe f s = .ok ((), s.setSlot s.cur { s.slot s.cur with thread := (s.slot s.cur).thread.map f }) := rfl
theorem modMySlot_run (f : Slot → Slot) (s : State) : modMySlot f s = .ok ((), s.setSlot s.cur (f (s.slot s.cur))) := rfl

/-- Advancing an own time (09 R206, R227): a time that is not later changes nothing; a later one that fits becomes the own time. -/
theorem raise_run (a : Agent) (t : Stamp) (s : State) :
    raise a t s =
      if later (s.clock a).t t then
        if (t - (s.clock a).t).toNat ≤ (s.clock a).room then
          .ok ((), s.setClock a { t := t, room := (s.clock a).room - (t - (s.clock a).t).toNat, late := none })
        else .error (.late a t)
      else .ok ((), s) := by
  simp only [raise, bind_getS]
  split
  · split <;> rfl
  · rfl

theorem parkUntil_run (c : Bool) (w : Wait) (s : State) : parkUntil c w s = if c then .ok ((), s) else .error (.park w) := by
  unfold parkUntil; split <;> simp

theorem need_run (c : Bool) (s : State) : need c s = if c then .ok ((), s) else .error (.park (.advance 0)) := by
  unfold need; split <;> rfl

@[simp] theorem needSome_some {α : Type} (a : α) (s : State) : needSome (some a) s = .ok (a, s) := rfl

/-- An event whose computation goes through gives the state that it leaves. -/
theorem runEvent_ok {body : M Unit} {s t : State} (h : body s = .ok ((), t)) : runEvent body s = .next t := by
  simp [runEvent, h]

/-- An event of a unit that the package has runs. -/
theorem unit_ok {i : Instr} {body : M Unit} {s t : State} (hw : wellFormed i = true) (h : body s = .ok ((), t)) :
    unit i body s = .next t := by
  simp [unit, hw, runEvent_ok h]

/-- A word whose body goes through gives the state that it leaves. -/
theorem runBody_ok {go : M Unit} {s t : State} {x : Thread} (hx : s.thread s.cur = some x) (hp : x.park = none)
    (h : go s = .ok ((), t)) : runBody go s = .next t := by
  simp [runBody, hx, hp, h]

/-- An instruction that may issue and whose body goes through gives the state that it leaves. -/
theorem runUnit_ok {i : Instr} {body : IWord → M Unit} {s t : State} (hi : Issues i s) (h : body (wordOf i) s = .ok ((), t)) :
    runUnit i body s = .next t := by
  obtain ⟨x, hx, hp, hw, ha, hj⟩ := hi
  refine runBody_ok hx hp ?_
  rw [bind_ok (me_run hx)]
  simp only [hw, ha, Bool.and_self, if_true]
  rw [bind_ok hj]
  exact h

end Sys2Proof.Machine
end

