-- ==== Sys2Proof/Laws/State.lean ====
section
/-! SUPPORT. What each update of the state leaves: one lemma for each field. -/

namespace Sys2Proof.Machine

@[simp] theorem State.setCore_clusters (s : State) (c : Nat) (v : Core) : (s.setCore c v).clusters = s.clusters := rfl
@[simp] theorem State.setCore_banks (s : State) (c : Nat) (v : Core) : (s.setCore c v).banks = s.banks := rfl
@[simp] theorem State.setCore_slices (s : State) (c : Nat) (v : Core) : (s.setCore c v).slices = s.slices := rfl
@[simp] theorem State.setCore_ports (s : State) (c : Nat) (v : Core) : (s.setCore c v).ports = s.ports := rfl
@[simp] theorem State.setCore_l2 (s : State) (c : Nat) (v : Core) : (s.setCore c v).l2 = s.l2 := rfl
@[simp] theorem State.setCore_mem (s : State) (c : Nat) (v : Core) : (s.setCore c v).mem = s.mem := rfl
@[simp] theorem State.setCore_memPoison (s : State) (c : Nat) (v : Core) : (s.setCore c v).memPoison = s.memPoison := rfl
@[simp] theorem State.setCore_wbs (s : State) (c : Nat) (v : Core) : (s.setCore c v).wbs = s.wbs := rfl
@[simp] theorem State.setCore_discards (s : State) (c : Nat) (v : Core) : (s.setCore c v).discards = s.discards := rfl
@[simp] theorem State.setCore_requests (s : State) (c : Nat) (v : Core) : (s.setCore c v).requests = s.requests := rfl
@[simp] theorem State.setCore_clocks (s : State) (c : Nat) (v : Core) : (s.setCore c v).clocks = s.clocks := rfl
@[simp] theorem State.setCore_floor (s : State) (c : Nat) (v : Core) : (s.setCore c v).floor = s.floor := rfl
@[simp] theorem State.setCore_bankOps (s : State) (c : Nat) (v : Core) : (s.setCore c v).bankOps = s.bankOps := rfl
@[simp] theorem State.setCore_launches (s : State) (c : Nat) (v : Core) : (s.setCore c v).launches = s.launches := rfl
@[simp] theorem State.setCore_contexts (s : State) (c : Nat) (v : Core) : (s.setCore c v).contexts = s.contexts := rfl
@[simp] theorem State.setCore_logs (s : State) (c : Nat) (v : Core) : (s.setCore c v).logs = s.logs := rfl
@[simp] theorem State.setCore_messages (s : State) (c : Nat) (v : Core) : (s.setCore c v).messages = s.messages := rfl
@[simp] theorem State.setCore_overflow (s : State) (c : Nat) (v : Core) : (s.setCore c v).overflow = s.overflow := rfl
@[simp] theorem State.setCore_rings (s : State) (c : Nat) (v : Core) : (s.setCore c v).rings = s.rings := rfl
@[simp] theorem State.setCore_packets (s : State) (c : Nat) (v : Core) : (s.setCore c v).packets = s.packets := rfl
@[simp] theorem State.setCore_saved (s : State) (c : Nat) (v : Core) : (s.setCore c v).saved = s.saved := rfl
@[simp] theorem State.setCore_boot (s : State) (c : Nat) (v : Core) : (s.setCore c v).boot = s.boot := rfl
@[simp] theorem State.setCore_responses (s : State) (c : Nat) (v : Core) : (s.setCore c v).responses = s.responses := rfl
@[simp] theorem State.setCore_sequence (s : State) (c : Nat) (v : Core) : (s.setCore c v).sequence = s.sequence := rfl
@[simp] theorem State.setCore_rma (s : State) (c : Nat) (v : Core) : (s.setCore c v).rma = s.rma := rfl
@[simp] theorem State.setCore_rmaSent (s : State) (c : Nat) (v : Core) : (s.setCore c v).rmaSent = s.rmaSent := rfl
@[simp] theorem State.setCore_rmaAnswers (s : State) (c : Nat) (v : Core) : (s.setCore c v).rmaAnswers = s.rmaAnswers := rfl
@[simp] theorem State.setCore_errs (s : State) (c : Nat) (v : Core) : (s.setCore c v).errs = s.errs := rfl
@[simp] theorem State.setCore_moved (s : State) (c : Nat) (v : Core) : (s.setCore c v).moved = s.moved := rfl
@[simp] theorem State.setCore_agenda (s : State) (c : Nat) (v : Core) : (s.setCore c v).agenda = s.agenda := rfl
@[simp] theorem State.setCore_cur (s : State) (c : Nat) (v : Core) : (s.setCore c v).cur = s.cur := rfl
@[simp] theorem State.setCore_pick (s : State) (c : Nat) (v : Core) : (s.setCore c v).pick = s.pick := rfl
@[simp] theorem State.setCore_fresh (s : State) (c : Nat) (v : Core) : (s.setCore c v).fresh = s.fresh := rfl

@[simp] theorem State.setCluster_cores (s : State) (k : Nat) (v : Cluster) : (s.setCluster k v).cores = s.cores := rfl
@[simp] theorem State.setCluster_banks (s : State) (k : Nat) (v : Cluster) : (s.setCluster k v).banks = s.banks := rfl
@[simp] theorem State.setCluster_slices (s : State) (k : Nat) (v : Cluster) : (s.setCluster k v).slices = s.slices := rfl
@[simp] theorem State.setCluster_ports (s : State) (k : Nat) (v : Cluster) : (s.setCluster k v).ports = s.ports := rfl
@[simp] theorem State.setCluster_l2 (s : State) (k : Nat) (v : Cluster) : (s.setCluster k v).l2 = s.l2 := rfl
@[simp] theorem State.setCluster_mem (s : State) (k : Nat) (v : Cluster) : (s.setCluster k v).mem = s.mem := rfl
@[simp] theorem State.setCluster_memPoison (s : State) (k : Nat) (v : Cluster) : (s.setCluster k v).memPoison = s.memPoison := rfl
@[simp] theorem State.setCluster_wbs (s : State) (k : Nat) (v : Cluster) : (s.setCluster k v).wbs = s.wbs := rfl
@[simp] theorem State.setCluster_discards (s : State) (k : Nat) (v : Cluster) : (s.setCluster k v).discards = s.discards := rfl
@[simp] theorem State.setCluster_requests (s : State) (k : Nat) (v : Cluster) : (s.setCluster k v).requests = s.requests := rfl
@[simp] theorem State.setCluster_clocks (s : State) (k : Nat) (v : Cluster) : (s.setCluster k v).clocks = s.clocks := rfl
@[simp] theorem State.setCluster_floor (s : State) (k : Nat) (v : Cluster) : (s.setCluster k v).floor = s.floor := rfl
@[simp] theorem State.setCluster_bankOps (s : State) (k : Nat) (v : Cluster) : (s.setCluster k v).bankOps = s.bankOps := rfl
@[simp] theorem State.setCluster_launches (s : State) (k : Nat) (v : Cluster) : (s.setCluster k v).launches = s.launches := rfl
@[simp] theorem State.setCluster_contexts (s : State) (k : Nat) (v : Cluster) : (s.setCluster k v).contexts = s.contexts := rfl
@[simp] theorem State.setCluster_logs (s : State) (k : Nat) (v : Cluster) : (s.setCluster k v).logs = s.logs := rfl
@[simp] theorem State.setCluster_messages (s : State) (k : Nat) (v : Cluster) : (s.setCluster k v).messages = s.messages := rfl
@[simp] theorem State.setCluster_overflow (s : State) (k : Nat) (v : Cluster) : (s.setCluster k v).overflow = s.overflow := rfl
@[simp] theorem State.setCluster_rings (s : State) (k : Nat) (v : Cluster) : (s.setCluster k v).rings = s.rings := rfl
@[simp] theorem State.setCluster_packets (s : State) (k : Nat) (v : Cluster) : (s.setCluster k v).packets = s.packets := rfl
@[simp] theorem State.setCluster_saved (s : State) (k : Nat) (v : Cluster) : (s.setCluster k v).saved = s.saved := rfl
@[simp] theorem State.setCluster_boot (s : State) (k : Nat) (v : Cluster) : (s.setCluster k v).boot = s.boot := rfl
@[simp] theorem State.setCluster_responses (s : State) (k : Nat) (v : Cluster) : (s.setCluster k v).responses = s.responses := rfl
@[simp] theorem State.setCluster_sequence (s : State) (k : Nat) (v : Cluster) : (s.setCluster k v).sequence = s.sequence := rfl
@[simp] theorem State.setCluster_rma (s : State) (k : Nat) (v : Cluster) : (s.setCluster k v).rma = s.rma := rfl
@[simp] theorem State.setCluster_rmaSent (s : State) (k : Nat) (v : Cluster) : (s.setCluster k v).rmaSent = s.rmaSent := rfl
@[simp] theorem State.setCluster_rmaAnswers (s : State) (k : Nat) (v : Cluster) : (s.setCluster k v).rmaAnswers = s.rmaAnswers := rfl
@[simp] theorem State.setCluster_errs (s : State) (k : Nat) (v : Cluster) : (s.setCluster k v).errs = s.errs := rfl
@[simp] theorem State.setCluster_moved (s : State) (k : Nat) (v : Cluster) : (s.setCluster k v).moved = s.moved := rfl
@[simp] theorem State.setCluster_agenda (s : State) (k : Nat) (v : Cluster) : (s.setCluster k v).agenda = s.agenda := rfl
@[simp] theorem State.setCluster_cur (s : State) (k : Nat) (v : Cluster) : (s.setCluster k v).cur = s.cur := rfl
@[simp] theorem State.setCluster_pick (s : State) (k : Nat) (v : Cluster) : (s.setCluster k v).pick = s.pick := rfl
@[simp] theorem State.setCluster_fresh (s : State) (k : Nat) (v : Cluster) : (s.setCluster k v).fresh = s.fresh := rfl

@[simp] theorem State.setBank_cores (s : State) (b : Nat) (v : Bank) : (s.setBank b v).cores = s.cores := rfl
@[simp] theorem State.setBank_clusters (s : State) (b : Nat) (v : Bank) : (s.setBank b v).clusters = s.clusters := rfl
@[simp] theorem State.setBank_slices (s : State) (b : Nat) (v : Bank) : (s.setBank b v).slices = s.slices := rfl
@[simp] theorem State.setBank_ports (s : State) (b : Nat) (v : Bank) : (s.setBank b v).ports = s.ports := rfl
@[simp] theorem State.setBank_l2 (s : State) (b : Nat) (v : Bank) : (s.setBank b v).l2 = s.l2 := rfl
@[simp] theorem State.setBank_mem (s : State) (b : Nat) (v : Bank) : (s.setBank b v).mem = s.mem := rfl
@[simp] theorem State.setBank_memPoison (s : State) (b : Nat) (v : Bank) : (s.setBank b v).memPoison = s.memPoison := rfl
@[simp] theorem State.setBank_wbs (s : State) (b : Nat) (v : Bank) : (s.setBank b v).wbs = s.wbs := rfl
@[simp] theorem State.setBank_discards (s : State) (b : Nat) (v : Bank) : (s.setBank b v).discards = s.discards := rfl
@[simp] theorem State.setBank_requests (s : State) (b : Nat) (v : Bank) : (s.setBank b v).requests = s.requests := rfl
@[simp] theorem State.setBank_clocks (s : State) (b : Nat) (v : Bank) : (s.setBank b v).clocks = s.clocks := rfl
@[simp] theorem State.setBank_floor (s : State) (b : Nat) (v : Bank) : (s.setBank b v).floor = s.floor := rfl
@[simp] theorem State.setBank_bankOps (s : State) (b : Nat) (v : Bank) : (s.setBank b v).bankOps = s.bankOps := rfl
@[simp] theorem State.setBank_launches (s : State) (b : Nat) (v : Bank) : (s.setBank b v).launches = s.launches := rfl
@[simp] theorem State.setBank_contexts (s : State) (b : Nat) (v : Bank) : (s.setBank b v).contexts = s.contexts := rfl
@[simp] theorem State.setBank_logs (s : State) (b : Nat) (v : Bank) : (s.setBank b v).logs = s.logs := rfl
@[simp] theorem State.setBank_messages (s : State) (b : Nat) (v : Bank) : (s.setBank b v).messages = s.messages := rfl
@[simp] theorem State.setBank_overflow (s : State) (b : Nat) (v : Bank) : (s.setBank b v).overflow = s.overflow := rfl
@[simp] theorem State.setBank_rings (s : State) (b : Nat) (v : Bank) : (s.setBank b v).rings = s.rings := rfl
@[simp] theorem State.setBank_packets (s : State) (b : Nat) (v : Bank) : (s.setBank b v).packets = s.packets := rfl
@[simp] theorem State.setBank_saved (s : State) (b : Nat) (v : Bank) : (s.setBank b v).saved = s.saved := rfl
@[simp] theorem State.setBank_boot (s : State) (b : Nat) (v : Bank) : (s.setBank b v).boot = s.boot := rfl
@[simp] theorem State.setBank_responses (s : State) (b : Nat) (v : Bank) : (s.setBank b v).responses = s.responses := rfl
@[simp] theorem State.setBank_sequence (s : State) (b : Nat) (v : Bank) : (s.setBank b v).sequence = s.sequence := rfl
@[simp] theorem State.setBank_rma (s : State) (b : Nat) (v : Bank) : (s.setBank b v).rma = s.rma := rfl
@[simp] theorem State.setBank_rmaSent (s : State) (b : Nat) (v : Bank) : (s.setBank b v).rmaSent = s.rmaSent := rfl
@[simp] theorem State.setBank_rmaAnswers (s : State) (b : Nat) (v : Bank) : (s.setBank b v).rmaAnswers = s.rmaAnswers := rfl
@[simp] theorem State.setBank_errs (s : State) (b : Nat) (v : Bank) : (s.setBank b v).errs = s.errs := rfl
@[simp] theorem State.setBank_moved (s : State) (b : Nat) (v : Bank) : (s.setBank b v).moved = s.moved := rfl
@[simp] theorem State.setBank_agenda (s : State) (b : Nat) (v : Bank) : (s.setBank b v).agenda = s.agenda := rfl
@[simp] theorem State.setBank_cur (s : State) (b : Nat) (v : Bank) : (s.setBank b v).cur = s.cur := rfl
@[simp] theorem State.setBank_pick (s : State) (b : Nat) (v : Bank) : (s.setBank b v).pick = s.pick := rfl
@[simp] theorem State.setBank_fresh (s : State) (b : Nat) (v : Bank) : (s.setBank b v).fresh = s.fresh := rfl

@[simp] theorem State.setSlice_cores (s : State) (n : Nat) (v : Slice) : (s.setSlice n v).cores = s.cores := rfl
@[simp] theorem State.setSlice_clusters (s : State) (n : Nat) (v : Slice) : (s.setSlice n v).clusters = s.clusters := rfl
@[simp] theorem State.setSlice_banks (s : State) (n : Nat) (v : Slice) : (s.setSlice n v).banks = s.banks := rfl
@[simp] theorem State.setSlice_ports (s : State) (n : Nat) (v : Slice) : (s.setSlice n v).ports = s.ports := rfl
@[simp] theorem State.setSlice_l2 (s : State) (n : Nat) (v : Slice) : (s.setSlice n v).l2 = s.l2 := rfl
@[simp] theorem State.setSlice_mem (s : State) (n : Nat) (v : Slice) : (s.setSlice n v).mem = s.mem := rfl
@[simp] theorem State.setSlice_memPoison (s : State) (n : Nat) (v : Slice) : (s.setSlice n v).memPoison = s.memPoison := rfl
@[simp] theorem State.setSlice_wbs (s : State) (n : Nat) (v : Slice) : (s.setSlice n v).wbs = s.wbs := rfl
@[simp] theorem State.setSlice_discards (s : State) (n : Nat) (v : Slice) : (s.setSlice n v).discards = s.discards := rfl
@[simp] theorem State.setSlice_requests (s : State) (n : Nat) (v : Slice) : (s.setSlice n v).requests = s.requests := rfl
@[simp] theorem State.setSlice_clocks (s : State) (n : Nat) (v : Slice) : (s.setSlice n v).clocks = s.clocks := rfl
@[simp] theorem State.setSlice_floor (s : State) (n : Nat) (v : Slice) : (s.setSlice n v).floor = s.floor := rfl
@[simp] theorem State.setSlice_bankOps (s : State) (n : Nat) (v : Slice) : (s.setSlice n v).bankOps = s.bankOps := rfl
@[simp] theorem State.setSlice_launches (s : State) (n : Nat) (v : Slice) : (s.setSlice n v).launches = s.launches := rfl
@[simp] theorem State.setSlice_contexts (s : State) (n : Nat) (v : Slice) : (s.setSlice n v).contexts = s.contexts := rfl
@[simp] theorem State.setSlice_logs (s : State) (n : Nat) (v : Slice) : (s.setSlice n v).logs = s.logs := rfl
@[simp] theorem State.setSlice_messages (s : State) (n : Nat) (v : Slice) : (s.setSlice n v).messages = s.messages := rfl
@[simp] theorem State.setSlice_overflow (s : State) (n : Nat) (v : Slice) : (s.setSlice n v).overflow = s.overflow := rfl
@[simp] theorem State.setSlice_rings (s : State) (n : Nat) (v : Slice) : (s.setSlice n v).rings = s.rings := rfl
@[simp] theorem State.setSlice_packets (s : State) (n : Nat) (v : Slice) : (s.setSlice n v).packets = s.packets := rfl
@[simp] theorem State.setSlice_saved (s : State) (n : Nat) (v : Slice) : (s.setSlice n v).saved = s.saved := rfl
@[simp] theorem State.setSlice_boot (s : State) (n : Nat) (v : Slice) : (s.setSlice n v).boot = s.boot := rfl
@[simp] theorem State.setSlice_responses (s : State) (n : Nat) (v : Slice) : (s.setSlice n v).responses = s.responses := rfl
@[simp] theorem State.setSlice_sequence (s : State) (n : Nat) (v : Slice) : (s.setSlice n v).sequence = s.sequence := rfl
@[simp] theorem State.setSlice_rma (s : State) (n : Nat) (v : Slice) : (s.setSlice n v).rma = s.rma := rfl
@[simp] theorem State.setSlice_rmaSent (s : State) (n : Nat) (v : Slice) : (s.setSlice n v).rmaSent = s.rmaSent := rfl
@[simp] theorem State.setSlice_rmaAnswers (s : State) (n : Nat) (v : Slice) : (s.setSlice n v).rmaAnswers = s.rmaAnswers := rfl
@[simp] theorem State.setSlice_errs (s : State) (n : Nat) (v : Slice) : (s.setSlice n v).errs = s.errs := rfl
@[simp] theorem State.setSlice_moved (s : State) (n : Nat) (v : Slice) : (s.setSlice n v).moved = s.moved := rfl
@[simp] theorem State.setSlice_agenda (s : State) (n : Nat) (v : Slice) : (s.setSlice n v).agenda = s.agenda := rfl
@[simp] theorem State.setSlice_cur (s : State) (n : Nat) (v : Slice) : (s.setSlice n v).cur = s.cur := rfl
@[simp] theorem State.setSlice_pick (s : State) (n : Nat) (v : Slice) : (s.setSlice n v).pick = s.pick := rfl
@[simp] theorem State.setSlice_fresh (s : State) (n : Nat) (v : Slice) : (s.setSlice n v).fresh = s.fresh := rfl

@[simp] theorem State.setPort_cores (s : State) (n : Nat) (v : Port) : (s.setPort n v).cores = s.cores := rfl
@[simp] theorem State.setPort_clusters (s : State) (n : Nat) (v : Port) : (s.setPort n v).clusters = s.clusters := rfl
@[simp] theorem State.setPort_banks (s : State) (n : Nat) (v : Port) : (s.setPort n v).banks = s.banks := rfl
@[simp] theorem State.setPort_slices (s : State) (n : Nat) (v : Port) : (s.setPort n v).slices = s.slices := rfl
@[simp] theorem State.setPort_l2 (s : State) (n : Nat) (v : Port) : (s.setPort n v).l2 = s.l2 := rfl
@[simp] theorem State.setPort_mem (s : State) (n : Nat) (v : Port) : (s.setPort n v).mem = s.mem := rfl
@[simp] theorem State.setPort_memPoison (s : State) (n : Nat) (v : Port) : (s.setPort n v).memPoison = s.memPoison := rfl
@[simp] theorem State.setPort_wbs (s : State) (n : Nat) (v : Port) : (s.setPort n v).wbs = s.wbs := rfl
@[simp] theorem State.setPort_discards (s : State) (n : Nat) (v : Port) : (s.setPort n v).discards = s.discards := rfl
@[simp] theorem State.setPort_requests (s : State) (n : Nat) (v : Port) : (s.setPort n v).requests = s.requests := rfl
@[simp] theorem State.setPort_clocks (s : State) (n : Nat) (v : Port) : (s.setPort n v).clocks = s.clocks := rfl
@[simp] theorem State.setPort_floor (s : State) (n : Nat) (v : Port) : (s.setPort n v).floor = s.floor := rfl
@[simp] theorem State.setPort_bankOps (s : State) (n : Nat) (v : Port) : (s.setPort n v).bankOps = s.bankOps := rfl
@[simp] theorem State.setPort_launches (s : State) (n : Nat) (v : Port) : (s.setPort n v).launches = s.launches := rfl
@[simp] theorem State.setPort_contexts (s : State) (n : Nat) (v : Port) : (s.setPort n v).contexts = s.contexts := rfl
@[simp] theorem State.setPort_logs (s : State) (n : Nat) (v : Port) : (s.setPort n v).logs = s.logs := rfl
@[simp] theorem State.setPort_messages (s : State) (n : Nat) (v : Port) : (s.setPort n v).messages = s.messages := rfl
@[simp] theorem State.setPort_overflow (s : State) (n : Nat) (v : Port) : (s.setPort n v).overflow = s.overflow := rfl
@[simp] theorem State.setPort_rings (s : State) (n : Nat) (v : Port) : (s.setPort n v).rings = s.rings := rfl
@[simp] theorem State.setPort_packets (s : State) (n : Nat) (v : Port) : (s.setPort n v).packets = s.packets := rfl
@[simp] theorem State.setPort_saved (s : State) (n : Nat) (v : Port) : (s.setPort n v).saved = s.saved := rfl
@[simp] theorem State.setPort_boot (s : State) (n : Nat) (v : Port) : (s.setPort n v).boot = s.boot := rfl
@[simp] theorem State.setPort_responses (s : State) (n : Nat) (v : Port) : (s.setPort n v).responses = s.responses := rfl
@[simp] theorem State.setPort_sequence (s : State) (n : Nat) (v : Port) : (s.setPort n v).sequence = s.sequence := rfl
@[simp] theorem State.setPort_rma (s : State) (n : Nat) (v : Port) : (s.setPort n v).rma = s.rma := rfl
@[simp] theorem State.setPort_rmaSent (s : State) (n : Nat) (v : Port) : (s.setPort n v).rmaSent = s.rmaSent := rfl
@[simp] theorem State.setPort_rmaAnswers (s : State) (n : Nat) (v : Port) : (s.setPort n v).rmaAnswers = s.rmaAnswers := rfl
@[simp] theorem State.setPort_errs (s : State) (n : Nat) (v : Port) : (s.setPort n v).errs = s.errs := rfl
@[simp] theorem State.setPort_moved (s : State) (n : Nat) (v : Port) : (s.setPort n v).moved = s.moved := rfl
@[simp] theorem State.setPort_agenda (s : State) (n : Nat) (v : Port) : (s.setPort n v).agenda = s.agenda := rfl
@[simp] theorem State.setPort_cur (s : State) (n : Nat) (v : Port) : (s.setPort n v).cur = s.cur := rfl
@[simp] theorem State.setPort_pick (s : State) (n : Nat) (v : Port) : (s.setPort n v).pick = s.pick := rfl
@[simp] theorem State.setPort_fresh (s : State) (n : Nat) (v : Port) : (s.setPort n v).fresh = s.fresh := rfl

@[simp] theorem State.setSlot_clusters (s : State) (t : Nat) (v : Slot) : (s.setSlot t v).clusters = s.clusters := rfl
@[simp] theorem State.setSlot_banks (s : State) (t : Nat) (v : Slot) : (s.setSlot t v).banks = s.banks := rfl
@[simp] theorem State.setSlot_slices (s : State) (t : Nat) (v : Slot) : (s.setSlot t v).slices = s.slices := rfl
@[simp] theorem State.setSlot_ports (s : State) (t : Nat) (v : Slot) : (s.setSlot t v).ports = s.ports := rfl
@[simp] theorem State.setSlot_l2 (s : State) (t : Nat) (v : Slot) : (s.setSlot t v).l2 = s.l2 := rfl
@[simp] theorem State.setSlot_mem (s : State) (t : Nat) (v : Slot) : (s.setSlot t v).mem = s.mem := rfl
@[simp] theorem State.setSlot_memPoison (s : State) (t : Nat) (v : Slot) : (s.setSlot t v).memPoison = s.memPoison := rfl
@[simp] theorem State.setSlot_wbs (s : State) (t : Nat) (v : Slot) : (s.setSlot t v).wbs = s.wbs := rfl
@[simp] theorem State.setSlot_discards (s : State) (t : Nat) (v : Slot) : (s.setSlot t v).discards = s.discards := rfl
@[simp] theorem State.setSlot_requests (s : State) (t : Nat) (v : Slot) : (s.setSlot t v).requests = s.requests := rfl
@[simp] theorem State.setSlot_clocks (s : State) (t : Nat) (v : Slot) : (s.setSlot t v).clocks = s.clocks := rfl
@[simp] theorem State.setSlot_floor (s : State) (t : Nat) (v : Slot) : (s.setSlot t v).floor = s.floor := rfl
@[simp] theorem State.setSlot_bankOps (s : State) (t : Nat) (v : Slot) : (s.setSlot t v).bankOps = s.bankOps := rfl
@[simp] theorem State.setSlot_launches (s : State) (t : Nat) (v : Slot) : (s.setSlot t v).launches = s.launches := rfl
@[simp] theorem State.setSlot_contexts (s : State) (t : Nat) (v : Slot) : (s.setSlot t v).contexts = s.contexts := rfl
@[simp] theorem State.setSlot_logs (s : State) (t : Nat) (v : Slot) : (s.setSlot t v).logs = s.logs := rfl
@[simp] theorem State.setSlot_messages (s : State) (t : Nat) (v : Slot) : (s.setSlot t v).messages = s.messages := rfl
@[simp] theorem State.setSlot_overflow (s : State) (t : Nat) (v : Slot) : (s.setSlot t v).overflow = s.overflow := rfl
@[simp] theorem State.setSlot_rings (s : State) (t : Nat) (v : Slot) : (s.setSlot t v).rings = s.rings := rfl
@[simp] theorem State.setSlot_packets (s : State) (t : Nat) (v : Slot) : (s.setSlot t v).packets = s.packets := rfl
@[simp] theorem State.setSlot_saved (s : State) (t : Nat) (v : Slot) : (s.setSlot t v).saved = s.saved := rfl
@[simp] theorem State.setSlot_boot (s : State) (t : Nat) (v : Slot) : (s.setSlot t v).boot = s.boot := rfl
@[simp] theorem State.setSlot_responses (s : State) (t : Nat) (v : Slot) : (s.setSlot t v).responses = s.responses := rfl
@[simp] theorem State.setSlot_sequence (s : State) (t : Nat) (v : Slot) : (s.setSlot t v).sequence = s.sequence := rfl
@[simp] theorem State.setSlot_rma (s : State) (t : Nat) (v : Slot) : (s.setSlot t v).rma = s.rma := rfl
@[simp] theorem State.setSlot_rmaSent (s : State) (t : Nat) (v : Slot) : (s.setSlot t v).rmaSent = s.rmaSent := rfl
@[simp] theorem State.setSlot_rmaAnswers (s : State) (t : Nat) (v : Slot) : (s.setSlot t v).rmaAnswers = s.rmaAnswers := rfl
@[simp] theorem State.setSlot_errs (s : State) (t : Nat) (v : Slot) : (s.setSlot t v).errs = s.errs := rfl
@[simp] theorem State.setSlot_moved (s : State) (t : Nat) (v : Slot) : (s.setSlot t v).moved = s.moved := rfl
@[simp] theorem State.setSlot_agenda (s : State) (t : Nat) (v : Slot) : (s.setSlot t v).agenda = s.agenda := rfl
@[simp] theorem State.setSlot_cur (s : State) (t : Nat) (v : Slot) : (s.setSlot t v).cur = s.cur := rfl
@[simp] theorem State.setSlot_pick (s : State) (t : Nat) (v : Slot) : (s.setSlot t v).pick = s.pick := rfl
@[simp] theorem State.setSlot_fresh (s : State) (t : Nat) (v : Slot) : (s.setSlot t v).fresh = s.fresh := rfl

@[simp] theorem State.setThread_clusters (s : State) (t : Nat) (v : Option Thread) : (s.setThread t v).clusters = s.clusters := rfl
@[simp] theorem State.setThread_banks (s : State) (t : Nat) (v : Option Thread) : (s.setThread t v).banks = s.banks := rfl
@[simp] theorem State.setThread_slices (s : State) (t : Nat) (v : Option Thread) : (s.setThread t v).slices = s.slices := rfl
@[simp] theorem State.setThread_ports (s : State) (t : Nat) (v : Option Thread) : (s.setThread t v).ports = s.ports := rfl
@[simp] theorem State.setThread_l2 (s : State) (t : Nat) (v : Option Thread) : (s.setThread t v).l2 = s.l2 := rfl
@[simp] theorem State.setThread_mem (s : State) (t : Nat) (v : Option Thread) : (s.setThread t v).mem = s.mem := rfl
@[simp] theorem State.setThread_memPoison (s : State) (t : Nat) (v : Option Thread) : (s.setThread t v).memPoison = s.memPoison := rfl
@[simp] theorem State.setThread_wbs (s : State) (t : Nat) (v : Option Thread) : (s.setThread t v).wbs = s.wbs := rfl
@[simp] theorem State.setThread_discards (s : State) (t : Nat) (v : Option Thread) : (s.setThread t v).discards = s.discards := rfl
@[simp] theorem State.setThread_requests (s : State) (t : Nat) (v : Option Thread) : (s.setThread t v).requests = s.requests := rfl
@[simp] theorem State.setThread_clocks (s : State) (t : Nat) (v : Option Thread) : (s.setThread t v).clocks = s.clocks := rfl
@[simp] theorem State.setThread_floor (s : State) (t : Nat) (v : Option Thread) : (s.setThread t v).floor = s.floor := rfl
@[simp] theorem State.setThread_bankOps (s : State) (t : Nat) (v : Option Thread) : (s.setThread t v).bankOps = s.bankOps := rfl
@[simp] theorem State.setThread_launches (s : State) (t : Nat) (v : Option Thread) : (s.setThread t v).launches = s.launches := rfl
@[simp] theorem State.setThread_contexts (s : State) (t : Nat) (v : Option Thread) : (s.setThread t v).contexts = s.contexts := rfl
@[simp] theorem State.setThread_logs (s : State) (t : Nat) (v : Option Thread) : (s.setThread t v).logs = s.logs := rfl
@[simp] theorem State.setThread_messages (s : State) (t : Nat) (v : Option Thread) : (s.setThread t v).messages = s.messages := rfl
@[simp] theorem State.setThread_overflow (s : State) (t : Nat) (v : Option Thread) : (s.setThread t v).overflow = s.overflow := rfl
@[simp] theorem State.setThread_rings (s : State) (t : Nat) (v : Option Thread) : (s.setThread t v).rings = s.rings := rfl
@[simp] theorem State.setThread_packets (s : State) (t : Nat) (v : Option Thread) : (s.setThread t v).packets = s.packets := rfl
@[simp] theorem State.setThread_saved (s : State) (t : Nat) (v : Option Thread) : (s.setThread t v).saved = s.saved := rfl
@[simp] theorem State.setThread_boot (s : State) (t : Nat) (v : Option Thread) : (s.setThread t v).boot = s.boot := rfl
@[simp] theorem State.setThread_responses (s : State) (t : Nat) (v : Option Thread) : (s.setThread t v).responses = s.responses := rfl
@[simp] theorem State.setThread_sequence (s : State) (t : Nat) (v : Option Thread) : (s.setThread t v).sequence = s.sequence := rfl
@[simp] theorem State.setThread_rma (s : State) (t : Nat) (v : Option Thread) : (s.setThread t v).rma = s.rma := rfl
@[simp] theorem State.setThread_rmaSent (s : State) (t : Nat) (v : Option Thread) : (s.setThread t v).rmaSent = s.rmaSent := rfl
@[simp] theorem State.setThread_rmaAnswers (s : State) (t : Nat) (v : Option Thread) : (s.setThread t v).rmaAnswers = s.rmaAnswers := rfl
@[simp] theorem State.setThread_errs (s : State) (t : Nat) (v : Option Thread) : (s.setThread t v).errs = s.errs := rfl
@[simp] theorem State.setThread_moved (s : State) (t : Nat) (v : Option Thread) : (s.setThread t v).moved = s.moved := rfl
@[simp] theorem State.setThread_agenda (s : State) (t : Nat) (v : Option Thread) : (s.setThread t v).agenda = s.agenda := rfl
@[simp] theorem State.setThread_cur (s : State) (t : Nat) (v : Option Thread) : (s.setThread t v).cur = s.cur := rfl
@[simp] theorem State.setThread_pick (s : State) (t : Nat) (v : Option Thread) : (s.setThread t v).pick = s.pick := rfl
@[simp] theorem State.setThread_fresh (s : State) (t : Nat) (v : Option Thread) : (s.setThread t v).fresh = s.fresh := rfl

@[simp] theorem State.setStage_cores (s : State) (k n : Nat) (v : Stage) : (s.setStage k n v).cores = s.cores := rfl
@[simp] theorem State.setStage_banks (s : State) (k n : Nat) (v : Stage) : (s.setStage k n v).banks = s.banks := rfl
@[simp] theorem State.setStage_slices (s : State) (k n : Nat) (v : Stage) : (s.setStage k n v).slices = s.slices := rfl
@[simp] theorem State.setStage_ports (s : State) (k n : Nat) (v : Stage) : (s.setStage k n v).ports = s.ports := rfl
@[simp] theorem State.setStage_l2 (s : State) (k n : Nat) (v : Stage) : (s.setStage k n v).l2 = s.l2 := rfl
@[simp] theorem State.setStage_mem (s : State) (k n : Nat) (v : Stage) : (s.setStage k n v).mem = s.mem := rfl
@[simp] theorem State.setStage_memPoison (s : State) (k n : Nat) (v : Stage) : (s.setStage k n v).memPoison = s.memPoison := rfl
@[simp] theorem State.setStage_wbs (s : State) (k n : Nat) (v : Stage) : (s.setStage k n v).wbs = s.wbs := rfl
@[simp] theorem State.setStage_discards (s : State) (k n : Nat) (v : Stage) : (s.setStage k n v).discards = s.discards := rfl
@[simp] theorem State.setStage_requests (s : State) (k n : Nat) (v : Stage) : (s.setStage k n v).requests = s.requests := rfl
@[simp] theorem State.setStage_clocks (s : State) (k n : Nat) (v : Stage) : (s.setStage k n v).clocks = s.clocks := rfl
@[simp] theorem State.setStage_floor (s : State) (k n : Nat) (v : Stage) : (s.setStage k n v).floor = s.floor := rfl
@[simp] theorem State.setStage_bankOps (s : State) (k n : Nat) (v : Stage) : (s.setStage k n v).bankOps = s.bankOps := rfl
@[simp] theorem State.setStage_launches (s : State) (k n : Nat) (v : Stage) : (s.setStage k n v).launches = s.launches := rfl
@[simp] theorem State.setStage_contexts (s : State) (k n : Nat) (v : Stage) : (s.setStage k n v).contexts = s.contexts := rfl
@[simp] theorem State.setStage_logs (s : State) (k n : Nat) (v : Stage) : (s.setStage k n v).logs = s.logs := rfl
@[simp] theorem State.setStage_messages (s : State) (k n : Nat) (v : Stage) : (s.setStage k n v).messages = s.messages := rfl
@[simp] theorem State.setStage_overflow (s : State) (k n : Nat) (v : Stage) : (s.setStage k n v).overflow = s.overflow := rfl
@[simp] theorem State.setStage_rings (s : State) (k n : Nat) (v : Stage) : (s.setStage k n v).rings = s.rings := rfl
@[simp] theorem State.setStage_packets (s : State) (k n : Nat) (v : Stage) : (s.setStage k n v).packets = s.packets := rfl
@[simp] theorem State.setStage_saved (s : State) (k n : Nat) (v : Stage) : (s.setStage k n v).saved = s.saved := rfl
@[simp] theorem State.setStage_boot (s : State) (k n : Nat) (v : Stage) : (s.setStage k n v).boot = s.boot := rfl
@[simp] theorem State.setStage_responses (s : State) (k n : Nat) (v : Stage) : (s.setStage k n v).responses = s.responses := rfl
@[simp] theorem State.setStage_sequence (s : State) (k n : Nat) (v : Stage) : (s.setStage k n v).sequence = s.sequence := rfl
@[simp] theorem State.setStage_rma (s : State) (k n : Nat) (v : Stage) : (s.setStage k n v).rma = s.rma := rfl
@[simp] theorem State.setStage_rmaSent (s : State) (k n : Nat) (v : Stage) : (s.setStage k n v).rmaSent = s.rmaSent := rfl
@[simp] theorem State.setStage_rmaAnswers (s : State) (k n : Nat) (v : Stage) : (s.setStage k n v).rmaAnswers = s.rmaAnswers := rfl
@[simp] theorem State.setStage_errs (s : State) (k n : Nat) (v : Stage) : (s.setStage k n v).errs = s.errs := rfl
@[simp] theorem State.setStage_moved (s : State) (k n : Nat) (v : Stage) : (s.setStage k n v).moved = s.moved := rfl
@[simp] theorem State.setStage_agenda (s : State) (k n : Nat) (v : Stage) : (s.setStage k n v).agenda = s.agenda := rfl
@[simp] theorem State.setStage_cur (s : State) (k n : Nat) (v : Stage) : (s.setStage k n v).cur = s.cur := rfl
@[simp] theorem State.setStage_pick (s : State) (k n : Nat) (v : Stage) : (s.setStage k n v).pick = s.pick := rfl
@[simp] theorem State.setStage_fresh (s : State) (k n : Nat) (v : Stage) : (s.setStage k n v).fresh = s.fresh := rfl

@[simp] theorem State.setClock_cores (s : State) (a : Agent) (c : Clock) : (s.setClock a c).cores = s.cores := rfl
@[simp] theorem State.setClock_clusters (s : State) (a : Agent) (c : Clock) : (s.setClock a c).clusters = s.clusters := rfl
@[simp] theorem State.setClock_banks (s : State) (a : Agent) (c : Clock) : (s.setClock a c).banks = s.banks := rfl
@[simp] theorem State.setClock_slices (s : State) (a : Agent) (c : Clock) : (s.setClock a c).slices = s.slices := rfl
@[simp] theorem State.setClock_ports (s : State) (a : Agent) (c : Clock) : (s.setClock a c).ports = s.ports := rfl
@[simp] theorem State.setClock_l2 (s : State) (a : Agent) (c : Clock) : (s.setClock a c).l2 = s.l2 := rfl
@[simp] theorem State.setClock_mem (s : State) (a : Agent) (c : Clock) : (s.setClock a c).mem = s.mem := rfl
@[simp] theorem State.setClock_memPoison (s : State) (a : Agent) (c : Clock) : (s.setClock a c).memPoison = s.memPoison := rfl
@[simp] theorem State.setClock_wbs (s : State) (a : Agent) (c : Clock) : (s.setClock a c).wbs = s.wbs := rfl
@[simp] theorem State.setClock_discards (s : State) (a : Agent) (c : Clock) : (s.setClock a c).discards = s.discards := rfl
@[simp] theorem State.setClock_requests (s : State) (a : Agent) (c : Clock) : (s.setClock a c).requests = s.requests := rfl
@[simp] theorem State.setClock_floor (s : State) (a : Agent) (c : Clock) : (s.setClock a c).floor = s.floor := rfl
@[simp] theorem State.setClock_bankOps (s : State) (a : Agent) (c : Clock) : (s.setClock a c).bankOps = s.bankOps := rfl
@[simp] theorem State.setClock_launches (s : State) (a : Agent) (c : Clock) : (s.setClock a c).launches = s.launches := rfl
@[simp] theorem State.setClock_contexts (s : State) (a : Agent) (c : Clock) : (s.setClock a c).contexts = s.contexts := rfl
@[simp] theorem State.setClock_logs (s : State) (a : Agent) (c : Clock) : (s.setClock a c).logs = s.logs := rfl
@[simp] theorem State.setClock_messages (s : State) (a : Agent) (c : Clock) : (s.setClock a c).messages = s.messages := rfl
@[simp] theorem State.setClock_overflow (s : State) (a : Agent) (c : Clock) : (s.setClock a c).overflow = s.overflow := rfl
@[simp] theorem State.setClock_rings (s : State) (a : Agent) (c : Clock) : (s.setClock a c).rings = s.rings := rfl
@[simp] theorem State.setClock_packets (s : State) (a : Agent) (c : Clock) : (s.setClock a c).packets = s.packets := rfl
@[simp] theorem State.setClock_saved (s : State) (a : Agent) (c : Clock) : (s.setClock a c).saved = s.saved := rfl
@[simp] theorem State.setClock_boot (s : State) (a : Agent) (c : Clock) : (s.setClock a c).boot = s.boot := rfl
@[simp] theorem State.setClock_responses (s : State) (a : Agent) (c : Clock) : (s.setClock a c).responses = s.responses := rfl
@[simp] theorem State.setClock_sequence (s : State) (a : Agent) (c : Clock) : (s.setClock a c).sequence = s.sequence := rfl
@[simp] theorem State.setClock_rma (s : State) (a : Agent) (c : Clock) : (s.setClock a c).rma = s.rma := rfl
@[simp] theorem State.setClock_rmaSent (s : State) (a : Agent) (c : Clock) : (s.setClock a c).rmaSent = s.rmaSent := rfl
@[simp] theorem State.setClock_rmaAnswers (s : State) (a : Agent) (c : Clock) : (s.setClock a c).rmaAnswers = s.rmaAnswers := rfl
@[simp] theorem State.setClock_errs (s : State) (a : Agent) (c : Clock) : (s.setClock a c).errs = s.errs := rfl
@[simp] theorem State.setClock_moved (s : State) (a : Agent) (c : Clock) : (s.setClock a c).moved = s.moved := rfl
@[simp] theorem State.setClock_agenda (s : State) (a : Agent) (c : Clock) : (s.setClock a c).agenda = s.agenda := rfl
@[simp] theorem State.setClock_cur (s : State) (a : Agent) (c : Clock) : (s.setClock a c).cur = s.cur := rfl
@[simp] theorem State.setClock_pick (s : State) (a : Agent) (c : Clock) : (s.setClock a c).pick = s.pick := rfl
@[simp] theorem State.setClock_fresh (s : State) (a : Agent) (c : Clock) : (s.setClock a c).fresh = s.fresh := rfl

@[simp] theorem State.logIn_cores (s : State) (c k e r i : Nat) (a : Word) (t p : Nat) : (s.logIn c k e r i a t p).cores = s.cores := rfl
@[simp] theorem State.logIn_clusters (s : State) (c k e r i : Nat) (a : Word) (t p : Nat) : (s.logIn c k e r i a t p).clusters = s.clusters := rfl
@[simp] theorem State.logIn_banks (s : State) (c k e r i : Nat) (a : Word) (t p : Nat) : (s.logIn c k e r i a t p).banks = s.banks := rfl
@[simp] theorem State.logIn_slices (s : State) (c k e r i : Nat) (a : Word) (t p : Nat) : (s.logIn c k e r i a t p).slices = s.slices := rfl
@[simp] theorem State.logIn_ports (s : State) (c k e r i : Nat) (a : Word) (t p : Nat) : (s.logIn c k e r i a t p).ports = s.ports := rfl
@[simp] theorem State.logIn_l2 (s : State) (c k e r i : Nat) (a : Word) (t p : Nat) : (s.logIn c k e r i a t p).l2 = s.l2 := rfl
@[simp] theorem State.logIn_mem (s : State) (c k e r i : Nat) (a : Word) (t p : Nat) : (s.logIn c k e r i a t p).mem = s.mem := rfl
@[simp] theorem State.logIn_memPoison (s : State) (c k e r i : Nat) (a : Word) (t p : Nat) : (s.logIn c k e r i a t p).memPoison = s.memPoison := rfl
@[simp] theorem State.logIn_wbs (s : State) (c k e r i : Nat) (a : Word) (t p : Nat) : (s.logIn c k e r i a t p).wbs = s.wbs := rfl
@[simp] theorem State.logIn_discards (s : State) (c k e r i : Nat) (a : Word) (t p : Nat) : (s.logIn c k e r i a t p).discards = s.discards := rfl
@[simp] theorem State.logIn_requests (s : State) (c k e r i : Nat) (a : Word) (t p : Nat) : (s.logIn c k e r i a t p).requests = s.requests := rfl
@[simp] theorem State.logIn_clocks (s : State) (c k e r i : Nat) (a : Word) (t p : Nat) : (s.logIn c k e r i a t p).clocks = s.clocks := rfl
@[simp] theorem State.logIn_floor (s : State) (c k e r i : Nat) (a : Word) (t p : Nat) : (s.logIn c k e r i a t p).floor = s.floor := rfl
@[simp] theorem State.logIn_bankOps (s : State) (c k e r i : Nat) (a : Word) (t p : Nat) : (s.logIn c k e r i a t p).bankOps = s.bankOps := rfl
@[simp] theorem State.logIn_launches (s : State) (c k e r i : Nat) (a : Word) (t p : Nat) : (s.logIn c k e r i a t p).launches = s.launches := rfl
@[simp] theorem State.logIn_contexts (s : State) (c k e r i : Nat) (a : Word) (t p : Nat) : (s.logIn c k e r i a t p).contexts = s.contexts := rfl
@[simp] theorem State.logIn_messages (s : State) (c k e r i : Nat) (a : Word) (t p : Nat) : (s.logIn c k e r i a t p).messages = s.messages := rfl
@[simp] theorem State.logIn_overflow (s : State) (c k e r i : Nat) (a : Word) (t p : Nat) : (s.logIn c k e r i a t p).overflow = s.overflow := rfl
@[simp] theorem State.logIn_rings (s : State) (c k e r i : Nat) (a : Word) (t p : Nat) : (s.logIn c k e r i a t p).rings = s.rings := rfl
@[simp] theorem State.logIn_packets (s : State) (c k e r i : Nat) (a : Word) (t p : Nat) : (s.logIn c k e r i a t p).packets = s.packets := rfl
@[simp] theorem State.logIn_saved (s : State) (c k e r i : Nat) (a : Word) (t p : Nat) : (s.logIn c k e r i a t p).saved = s.saved := rfl
@[simp] theorem State.logIn_boot (s : State) (c k e r i : Nat) (a : Word) (t p : Nat) : (s.logIn c k e r i a t p).boot = s.boot := rfl
@[simp] theorem State.logIn_responses (s : State) (c k e r i : Nat) (a : Word) (t p : Nat) : (s.logIn c k e r i a t p).responses = s.responses := rfl
@[simp] theorem State.logIn_sequence (s : State) (c k e r i : Nat) (a : Word) (t p : Nat) : (s.logIn c k e r i a t p).sequence = s.sequence := rfl
@[simp] theorem State.logIn_rma (s : State) (c k e r i : Nat) (a : Word) (t p : Nat) : (s.logIn c k e r i a t p).rma = s.rma := rfl
@[simp] theorem State.logIn_rmaSent (s : State) (c k e r i : Nat) (a : Word) (t p : Nat) : (s.logIn c k e r i a t p).rmaSent = s.rmaSent := rfl
@[simp] theorem State.logIn_rmaAnswers (s : State) (c k e r i : Nat) (a : Word) (t p : Nat) : (s.logIn c k e r i a t p).rmaAnswers = s.rmaAnswers := rfl
@[simp] theorem State.logIn_errs (s : State) (c k e r i : Nat) (a : Word) (t p : Nat) : (s.logIn c k e r i a t p).errs = s.errs := rfl
@[simp] theorem State.logIn_moved (s : State) (c k e r i : Nat) (a : Word) (t p : Nat) : (s.logIn c k e r i a t p).moved = s.moved := rfl
@[simp] theorem State.logIn_agenda (s : State) (c k e r i : Nat) (a : Word) (t p : Nat) : (s.logIn c k e r i a t p).agenda = s.agenda := rfl
@[simp] theorem State.logIn_cur (s : State) (c k e r i : Nat) (a : Word) (t p : Nat) : (s.logIn c k e r i a t p).cur = s.cur := rfl
@[simp] theorem State.logIn_pick (s : State) (c k e r i : Nat) (a : Word) (t p : Nat) : (s.logIn c k e r i a t p).pick = s.pick := rfl
@[simp] theorem State.logIn_fresh (s : State) (c k e r i : Nat) (a : Word) (t p : Nat) : (s.logIn c k e r i a t p).fresh = s.fresh := rfl

end Sys2Proof.Machine
end

