-- ==== Sys2Proof/Laws/Operands.lean ====
section
/-! SUPPORT. Reading and writing names, and the end of a unit: what each does where nothing stands in its way. -/

namespace Sys2Proof.Machine

theorem thread_of_slot {s : State} {t : Nat} {x : Thread} (h : s.thread t = some x) : (s.slot t).thread = some x := h

/-- A register-class entry with no soft error outstanding reads as it stands (15 R361). -/
theorem checkReg_sound (loc : Loc) (r : Reg) {s : State} (h : s.errs = []) : checkReg loc r s = .ok (r, s) := by
  simp [checkReg, State.met, h]

/-- Reading a resident name that is not poisoned changes nothing (02 R52). -/
theorem readResident_plain {s : State} {x : Thread} {n : Nat} (hx : s.thread s.cur = some x) (he : s.errs = [])
    (hp : (findD (s.core (coreOf s.cur)).rf {} (x.wbase + n)).poison = false) :
    readResident n s = .ok (s.resident x n, s) := by
  unfold readResident
  rw [bind_ok (me_run hx), bind_ok (myCore_run s)]
  simp only [bind_getS]
  rw [bind_ok (checkReg_sound _ _ he)]
  unfold useReg
  rw [if_neg (by rw [hp]; exact Bool.false_ne_true)]
  rfl

/-- A resident name reads as its register (02 R27, R52). -/
theorem readName_resident (w : IWord) {s : State} {x : Thread} {n : BitVec 8} (hx : s.thread s.cur = some x) (he : s.errs = [])
    (hn : n.toNat < x.win) (hp : (findD (s.core (coreOf s.cur)).rf {} (x.wbase + n.toNat)).poison = false) :
    readName w n s = .ok (s.resident x n.toNat, s) := by
  unfold readName
  rw [bind_ok (me_run hx)]
  simp only [hn, if_true]
  exact readResident_plain hx he hp

/-- A thread's recipes after a write of a resident name (02 R53; 07 R168). -/
def Thread.staled (x : Thread) (n : Nat) : FMap Recipe :=
  x.recipes.map (fun p => if (recipeOperands x.win p.2).contains n then (p.1, { p.2 with stale := true }) else p)

/-- A state after a write of a resident name. -/
def State.wrote (s : State) (x : Thread) (n : Nat) (v : Word) : State :=
  let c := coreOf s.cur
  let s1 := s.setCore c { s.core c with rf := put (s.core c).rf (x.wbase + n) { val := v } }
  s1.setSlot s.cur { s.slot s.cur with thread := some { x with recipes := x.staled n } }

/-- A core's register file with one entry changed. -/
theorem slot_setCore_rf (s : State) (t : Nat) (rf : FMap Reg) (c : Nat) :
    (s.setCore c { s.core c with rf := rf }).slot t = s.slot t := by
  simp only [State.slot]
  by_cases h : coreOf t = c
  · subst h; simp
  · rw [State.core_setCore_other _ _ _ _ h]

/-- Writing a resident name writes its register, clears its poison, marks the recipes that name it stale, and does nothing else. -/
theorem writeResident_plain {s : State} {x : Thread} {n : Nat} {v : Word} (hx : s.thread s.cur = some x) (he : s.errs = []) :
    writeResident n v s = .ok ((), s.wrote x n v) := by
  unfold writeResident
  rw [bind_ok (me_run hx), bind_ok (myCore_run s)]
  have hs : { s with errs := s.errs.filter (fun e => e.1 != .reg (coreOf s.cur) (x.wbase + n)) } = s := by
    rw [he]; cases s; simp_all
  simp only [clearErr, bind_modS, hs]
  rw [bind_ok (modCore_run _ _ _), modMe_run]
  simp only [State.setCore_cur, slot_setCore_rf, thread_of_slot hx, Option.map_some]
  rfl

theorem writeName_resident (w : IWord) {s : State} {x : Thread} {n : BitVec 8} {v : Word} (hx : s.thread s.cur = some x)
    (he : s.errs = []) (hn : n.toNat < x.win) : writeName w n v s = .ok ((), s.wrote x n.toNat v) := by
  unfold writeName
  rw [bind_ok (me_run hx)]
  simp only [hn, if_true]
  exact writeResident_plain hx he

@[simp] theorem State.wrote_cur (s : State) (x : Thread) (n : Nat) (v : Word) : (s.wrote x n v).cur = s.cur := rfl
@[simp] theorem State.wrote_errs (s : State) (x : Thread) (n : Nat) (v : Word) : (s.wrote x n v).errs = s.errs := rfl
@[simp] theorem State.wrote_clock (s : State) (x : Thread) (n : Nat) (v : Word) (a : Agent) : (s.wrote x n v).clock a = s.clock a := rfl
@[simp] theorem State.wrote_slot (s : State) (x : Thread) (n : Nat) (v : Word) :
    (s.wrote x n v).slot s.cur = { s.slot s.cur with thread := some { x with recipes := x.staled n } } := by
  simp [State.wrote]
@[simp] theorem State.wrote_thread (s : State) (x : Thread) (n : Nat) (v : Word) :
    (s.wrote x n v).thread s.cur = some { x with recipes := x.staled n } := by
  simp [State.thread]

/-- The written name reads as the value. -/
theorem State.wrote_resident (s : State) (x y : Thread) (n : Nat) (v : Word) (h : y.wbase = x.wbase) :
    (s.wrote x n v).resident y n = v := by
  simp [State.resident, State.wrote, State.setSlot, h]

/-- A state after the end of the unit of the thread at `cur`, which goes on at `pc`. -/
def State.goOn (s : State) (x : Thread) (pc : BitVec 55) : State :=
  s.setSlot s.cur { s.slot s.cur with thread := some { x.endUnit with
    pc := pc
    released := none } }

theorem completeAt_plain {s : State} {x : Thread} (pc : BitVec 55) (hx : s.thread s.cur = some x)
    (hc : (s.slot s.cur).composed = false) : completeAt pc s = .ok ((), s.goOn x pc) := by
  unfold completeAt
  rw [bind_ok (mySlot_run s), bind_ok (me_run hx)]
  simp only [hc, Bool.false_eq_true, if_false]
  rw [modMe_run, thread_of_slot hx]
  rfl

/-- The unit ends and the thread goes on at its next word (04 R101). -/
theorem retire_plain {s : State} {x : Thread} (hx : s.thread s.cur = some x) (hc : (s.slot s.cur).composed = false)
    (hr : x.pc.toNat + 4 < 2 ^ 55) : retire 1 s = .ok ((), s.goOn x (x.pc + 4)) := by
  unfold retire
  rw [bind_ok (me_run hx)]
  have hr : x.pc.toNat + 4 < 36028797018963968 := hr
  simp only [Nat.mul_one, hr, if_true, show (2:Nat) ^ 55 = 36028797018963968 from rfl]
  exact completeAt_plain _ hx hc

end Sys2Proof.Machine
end

