-- ==== Sys2Proof/Laws/Integer.lean ====
section
/-! SUPPORT. The shared shapes of the integer instructions and of the branches: what they do where their operands are read and their
results written. -/

namespace Sys2Proof.Machine

theorem truth_decide (p : Prop) [Decidable p] : truth (decide p) = if p then 1 else 0 := by simp [truth]

theorem binary_ok {w : IWord} {d a b : BitVec 8} {f : Word → Word → Word} {s s1 s2 s3 t : State} {A B : Word}
    (ha : Gives (readName w a) s A s1) (hb : Gives (readName w b) s1 B s2) (hw : Gives (writeName w d (f A B)) s2 () s3)
    (hr : Retires s3 t) : binary w d a b f s = .ok ((), t) := by
  unfold binary
  rw [bind_ok ha, bind_ok hb, bind_ok hw]
  exact hr

theorem unary_ok {w : IWord} {d a : BitVec 8} {f : Word → Word} {s s1 s2 t : State} {A : Word}
    (ha : Gives (readName w a) s A s1) (hw : Gives (writeName w d (f A)) s1 () s2) (hr : Retires s2 t) :
    unary w d a f s = .ok ((), t) := by
  unfold unary
  rw [bind_ok ha, bind_ok hw]
  exact hr

@[simp] theorem latch_run {s : State} {x : Thread} (hx : s.thread s.cur = some x) : latch s = .ok (x.latch, s) := by
  unfold latch
  rw [bind_ok (me_run hx)]
  rfl

theorem immediate_ok {w : IWord} {d a i : BitVec 8} {f : Word → Word → Word} {s s1 s2 t : State} {A : Word} {x : Thread}
    (hx : s.thread s.cur = some x) (ha : Gives (readName w a) s A s1)
    (hw : Gives (writeName w d (f A (assembled x.latch 8 i.toNat))) s1 () s2) (hr : Retires s2 t) :
    immediate w d a i f s = .ok ((), t) := by
  unfold immediate
  rw [bind_ok (latch_run hx), bind_ok ha, bind_ok hw]
  exact hr

theorem target_run {s : State} {x : Thread} (n off : Nat) (hx : s.thread s.cur = some x) :
    target n off s = .ok (x.first.setWidth 64 + 4 * assembled x.latch n off, s) := by
  unfold target
  rw [bind_ok (me_run hx)]
  rfl

theorem link_run {s : State} {x : Thread} (hx : s.thread s.cur = some x) : link s = .ok (word (x.pc.toNat + 4), s) := by
  unfold link
  rw [bind_ok (me_run hx)]
  rfl

/-- A transfer to an aligned address of the space (04 R101). -/
theorem transfer_plain {T : Word} {s : State} {x : Thread} (hx : s.thread s.cur = some x) (hc : (s.slot s.cur).composed = false)
    (h1 : bits T 1 0 = 0) (h2 : T.toNat < 2 ^ 55) : transfer T s = .ok ((), s.goOn x (T.setWidth 55)) := by
  unfold transfer
  rw [if_neg (by simp [h1]), if_neg (by omega)]
  exact completeAt_plain _ hx hc

theorem branch_run {w : IWord} {a : BitVec 8} {o : BitVec 16} {c : Word → Bool} {s s1 : State} {x : Thread} {A : Word}
    (hx : s.thread s.cur = some x) (ha : Gives (readName w a) s A s1) :
    branch w a o c s = (if c A then transfer (x.first.setWidth 64 + 4 * assembled x.latch 16 o.toNat) else retire) s1 := by
  unfold branch
  rw [bind_ok (target_run _ _ hx), bind_ok ha]

end Sys2Proof.Machine
end

