-- ==== Sys2Proof/Laws/Memory.lean ====
section
/-! SUPPORT. Pooled memory: what a byte reads after a write, and that every memory operation keeps the canonical form. -/

namespace Sys2Proof.Machine

theorem Memory.read_write_same (m : List Host.Cell) (a : Nat) (v : Byte) (h : Memory.sorted m = true) :
    Memory.read (Memory.write m a v) a = v := by
  induction m with
  | nil => simp only [Memory.write]; split <;> simp_all [Memory.read]
  | cons p m ih =>
    obtain ⟨k, x⟩ := p
    have above : ∀ (l : List Host.Cell) (b : Nat) (y : Byte), Memory.sorted ((b, y) :: l) = true → ∀ c, c ≤ b →
        Memory.read l c = 0 := by
      intro l
      induction l with
      | nil => intros; rfl
      | cons q l ihl =>
        obtain ⟨k', x'⟩ := q
        intro b y hs c hc
        simp only [Memory.sorted, Bool.and_eq_true, decide_eq_true_eq] at hs
        simp only [Memory.read]
        rw [if_neg (by omega)]
        exact ihl k' x' hs.2 c (by omega)
    have tail : Memory.sorted m = true := by
      cases m with
      | nil => rfl
      | cons q m => simp only [Memory.sorted, Bool.and_eq_true] at h; exact h.2
    simp only [Memory.write]
    split
    · split
      · rename_i h1 h2
        subst h2
        simp only [Memory.read]
        rw [if_neg (by omega)]
        exact above m k x h a (by omega)
      · simp [Memory.read]
    · split
      · split
        · rename_i h1 h2 h3
          subst h2; subst h3
          exact above m a x h a (by omega)
        · simp [Memory.read]
      · simp only [Memory.read]
        rw [if_neg (by omega)]
        exact ih tail

theorem Memory.read_write_other (m : List Host.Cell) (a b : Nat) (v : Byte) (h : b ≠ a) :
    Memory.read (Memory.write m a v) b = Memory.read m b := by
  induction m with
  | nil =>
    simp only [Memory.write]
    split
    · rfl
    · simp [Memory.read, Ne.symm h]
  | cons p m ih =>
    obtain ⟨k, x⟩ := p
    simp only [Memory.write]
    split
    · split
      · rfl
      · simp [Memory.read, Ne.symm h]
    · split
      · rename_i h1 h2
        subst h2
        split <;> simp [Memory.read, Ne.symm h]
      · simp only [Memory.read, ih]

theorem Memory.sorted_tail {p : Host.Cell} {m : List Host.Cell} (h : Memory.sorted (p :: m) = true) :
    Memory.sorted m = true := by
  cases m with
  | nil => rfl
  | cons q m =>
    obtain ⟨k, v⟩ := p
    obtain ⟨k', v'⟩ := q
    simp only [Memory.sorted, Bool.and_eq_true] at h
    exact h.2

/-- A list in canonical form: its head is not 0, its keys are above `k`, and its tail is in canonical form. -/
theorem Memory.sorted_cons (k : Nat) (v : Byte) (m : List Host.Cell) :
    Memory.sorted ((k, v) :: m) = true ↔ v ≠ 0 ∧ (∀ q ∈ m.head?, k < q.1) ∧ Memory.sorted m = true := by
  cases m with
  | nil => simp [Memory.sorted]
  | cons q m =>
    obtain ⟨k', v'⟩ := q
    simp [Memory.sorted, and_assoc]

theorem Memory.write_head (m : List Host.Cell) (a k : Nat) (v : Byte) (ha : k < a) (h : ∀ q ∈ m.head?, k < q.1)
    (hs : Memory.sorted m = true) : ∀ q ∈ (Memory.write m a v).head?, k < q.1 := by
  cases m with
  | nil => simp only [Memory.write]; split <;> simp_all
  | cons p m =>
    obtain ⟨j, x⟩ := p
    have hj : k < j := by simpa using h
    have hm : ∀ q ∈ m.head?, k < q.1 := by
      intro q hq
      have := (Memory.sorted_cons j x m).1 hs
      have := this.2.1 q hq
      omega
    simp only [Memory.write]
    split
    · split <;> simp_all
    · split
      · split
        · exact hm
        · simp_all
      · simp_all

theorem Memory.sorted_write (m : List Host.Cell) (a : Nat) (v : Byte) (h : Memory.sorted m = true) :
    Memory.sorted (Memory.write m a v) = true := by
  induction m with
  | nil => simp only [Memory.write]; split <;> simp_all [Memory.sorted]
  | cons p m ih =>
    obtain ⟨k, x⟩ := p
    have hc := (Memory.sorted_cons k x m).1 h
    simp only [Memory.write]
    split
    · split
      · exact h
      · exact (Memory.sorted_cons _ _ _).2 ⟨by assumption, by simpa using ‹a < k›, h⟩
    · split
      · rename_i h1 h2
        subst h2
        split
        · exact hc.2.2
        · exact (Memory.sorted_cons _ _ _).2 ⟨by assumption, hc.2.1, hc.2.2⟩
      · refine (Memory.sorted_cons _ _ _).2 ⟨hc.1, ?_, ih hc.2.2⟩
        exact Memory.write_head m a k v (by omega) hc.2.1 hc.2.2

theorem Memory.sorted_writeLine (m : List Host.Cell) (line : Nat) (d : LineData) (mask : LineMask)
    (h : Memory.sorted m = true) : Memory.sorted (Memory.writeLine m line d mask) = true := by
  unfold Memory.writeLine
  generalize List.range 32 = l
  induction l generalizing m with
  | nil => exact h
  | cons k l ih =>
    simp only [List.foldl_cons]
    apply ih
    split
    · exact Memory.sorted_write _ _ _ h
    · exact h

theorem Memory.sorted_filter (m : List Host.Cell) (p : Host.Cell → Bool) (h : Memory.sorted m = true) :
    Memory.sorted (m.filter p) = true := by
  have key : ∀ (m : List Host.Cell) (k : Nat), (∀ q ∈ m.head?, k < q.1) → Memory.sorted m = true →
      (∀ q ∈ (m.filter p).head?, k < q.1) ∧ Memory.sorted (m.filter p) = true := by
    intro m
    induction m with
    | nil => intros; simp [Memory.sorted]
    | cons q m ih =>
      obtain ⟨j, x⟩ := q
      intro k hk hs
      have hc := (Memory.sorted_cons j x m).1 hs
      have hj : k < j := by simpa using hk
      have h1 := ih j hc.2.1 hc.2.2
      simp only [List.filter_cons]
      split
      · exact ⟨by simpa using hj, (Memory.sorted_cons _ _ _).2 ⟨hc.1, h1.1, h1.2⟩⟩
      · refine ⟨?_, h1.2⟩
        intro q hq
        have := h1.1 q hq
        omega
  cases m with
  | nil => rfl
  | cons q m =>
    obtain ⟨j, x⟩ := q
    have hc := (Memory.sorted_cons j x m).1 h
    have h1 := key m j hc.2.1 hc.2.2
    simp only [List.filter_cons]
    split
    · exact (Memory.sorted_cons _ _ _).2 ⟨hc.1, h1.1, h1.2⟩
    · exact h1.2

theorem Memory.wf_reset : Memory.wf State.reset = true := rfl

end Sys2Proof.Machine
end

