-- ==== Sys2Proof/Laws/Keeps.lean ====
section
/-! SUPPORT. Computations that keep a property of the state, and that property for each way that a computation is put together. -/

namespace Sys2Proof.Machine

/-- A computation that goes through keeps `P`. -/
def Keeps {α : Type} (P : State → Prop) (m : M α) : Prop := ∀ s v t, P s → m s = .ok (v, t) → P t

theorem Keeps.pure {α : Type} {P : State → Prop} (a : α) : Keeps P (pure a : M α) := by
  intro s v t hs h
  cases h
  exact hs

theorem Keeps.bind {α β : Type} {P : State → Prop} {m : M α} {f : α → M β} (hm : Keeps P m) (hf : ∀ a, Keeps P (f a)) :
    Keeps P (m >>= f) := by
  intro s v t hs h
  obtain ⟨a, u, h1, h2⟩ := bind_inv h
  exact hf a u v t (hm s a u hs h1) h2

theorem Keeps.getS {P : State → Prop} : Keeps P getS := by
  intro s v t hs h
  cases h
  exact hs

/-- What follows a look at the state keeps `P` if it does from every state with `P`. -/
theorem Keeps.look {α : Type} {P : State → Prop} {f : State → M α} (hf : ∀ s, P s → ∀ v t, f s s = .ok (v, t) → P t) :
    Keeps P (Machine.getS >>= f) := by
  intro s v t hs h
  exact hf s hs v t h

theorem Keeps.modS {P : State → Prop} {f : State → State} (hf : ∀ s, P s → P (f s)) : Keeps P (modS f) := by
  intro s v t hs h
  cases h
  exact hf s hs

theorem Keeps.abort {α : Type} {P : State → Prop} (a : Abort) : Keeps P (abort a : M α) := by
  intro s v t _ h
  cases h

theorem Keeps.ite {α : Type} {P : State → Prop} {c : Prop} [Decidable c] {m n : M α} (hm : Keeps P m) (hn : Keeps P n) :
    Keeps P (if c then m else n) := by
  split
  · exact hm
  · exact hn

theorem Keeps.forM {α : Type} {P : State → Prop} {f : α → M PUnit} (hf : ∀ a, Keeps P (f a)) (l : List α) : Keeps P (l.forM f) := by
  induction l with
  | nil => exact Keeps.pure _
  | cons a l ih => exact Keeps.bind (hf a) (fun _ => ih)

theorem Keeps.mapM {α β : Type} {P : State → Prop} {f : α → M β} (hf : ∀ a, Keeps P (f a)) (l : List α) : Keeps P (l.mapM f) := by
  induction l with
  | nil => simpa using Keeps.pure (P := P) ([] : List β)
  | cons a l ih =>
    rw [List.mapM_cons]
    exact Keeps.bind (hf a) (fun _ => Keeps.bind ih (fun _ => Keeps.pure _))

theorem Keeps.forIn {α β : Type} {P : State → Prop} {f : α → β → M (ForInStep β)} (hf : ∀ a b, Keeps P (f a b)) (l : List α) (b : β) :
    Keeps P (forIn l b f) := by
  induction l generalizing b with
  | nil => simpa using Keeps.pure (P := P) b
  | cons a l ih =>
    rw [List.forIn_cons]
    refine Keeps.bind (hf a b) (fun r => ?_)
    cases r with
    | done b => exact Keeps.pure b
    | yield b => exact ih b

/-- The outcome of an event whose computation keeps `P`, where a delayed advance and a miss that joins the walker's queue keep it too. -/
theorem Keeps.runEvent {P : State → Prop} {body : M Unit} (hb : Keeps P body)
    (hl : ∀ s a c, P s → P (s.setClock a c)) (hm : ∀ s k m, P s → P (s.queueMiss k m)) {s t : State} (hs : P s) (h : runEvent body s = .next t) : P t := by
  unfold Machine.runEvent at h
  split at h
  · cases h
    exact hb _ _ _ hs (by assumption)
  · cases h
  · cases h
    exact hm _ _ _ hs
  · cases h
    exact hl _ _ _ hs
  · cases h
    exact hs

/-- A change of anything but pooled memory keeps its canonical form. -/
theorem Keeps.elsewhere {f : State → State} (hf : ∀ s, (f s).mem = s.mem) : Keeps State.Safe (Machine.modS f) :=
  Keeps.modS (fun s hs => by simpa [State.Safe, Memory.wf, hf s] using hs)

end Sys2Proof.Machine
end

