-- ==== Sys2Proof/Laws/PerInstr.lean ====
section
/-! SUPPORT. Statements about every instruction, one lemma for each constructor. Encodes: the word that the encoder gives an
instruction decodes to it, with every operand at every value (02 R24 to R26). -/

namespace Sys2Proof.Laws.Encodes

/-- What the family states of an instruction. -/
def Statement (i : Instr) : Prop := ∀ w, encode i = some w → decodeWord w = .ok i

theorem field_d (o d a b : BitVec 8) : (o ++ d ++ a ++ b).extractLsb' 16 8 = d := by
  ext k hk
  simp only [BitVec.getElem_extractLsb', BitVec.getLsbD_append]
  simp (disch := omega) only [if_neg, show 16 + k - 8 - 8 = k by omega, BitVec.getLsbD_eq_getElem hk, hk, if_true]

theorem field_a (o d a b : BitVec 8) : (o ++ d ++ a ++ b).extractLsb' 8 8 = a := by
  ext k hk
  simp only [BitVec.getElem_extractLsb', BitVec.getLsbD_append]
  simp (disch := omega) only [if_neg, show 8 + k - 8 = k by omega, BitVec.getLsbD_eq_getElem hk, hk, if_true]

theorem field_b (o d a b : BitVec 8) : (o ++ d ++ a ++ b).extractLsb' 0 8 = b := by
  ext k hk
  simp only [BitVec.getElem_extractLsb', BitVec.getLsbD_append]
  simp (disch := omega) only [show 0 + k = k by omega, BitVec.getLsbD_eq_getElem hk, hk, if_true]

theorem opcode (o d a b : BitVec 8) : opcodeOf (o ++ d ++ a ++ b) = o := by
  unfold opcodeOf
  ext k hk
  simp only [BitVec.getElem_extractLsb', BitVec.getLsbD_append]
  simp (disch := omega) only [if_neg, show 24 + k - 8 - 8 - 8 = k by omega, BitVec.getLsbD_eq_getElem hk]

theorem half (o d : BitVec 8) (i : BitVec 16) : o ++ d ++ i = o ++ d ++ i.extractLsb' 8 8 ++ i.extractLsb' 0 8 := by
  ext k hk
  simp only [BitVec.getElem_append, BitVec.getElem_extractLsb']
  split
  · split
    · simp only [Nat.zero_add, BitVec.getLsbD_eq_getElem ‹k < 16›]
    · simp only [show 8 + (k - 8) = k by omega, show k - 8 < 8 by omega, dif_pos, BitVec.getLsbD_eq_getElem ‹k < 16›]
  · simp only [show ¬ k < 8 by omega, show ¬ k - 8 < 8 by omega, dif_neg, not_false_eq_true, show k - 8 - 8 = k - 16 by omega]

theorem long (o : BitVec 8) (i : BitVec 24) :
    o ++ i = o ++ i.extractLsb' 16 8 ++ i.extractLsb' 8 8 ++ i.extractLsb' 0 8 := by
  ext k hk
  simp only [BitVec.getElem_append, BitVec.getElem_extractLsb']
  split
  · split
    · simp only [Nat.zero_add, BitVec.getLsbD_eq_getElem ‹k < 24›]
    · split
      · simp only [show 8 + (k - 8) = k by omega, BitVec.getLsbD_eq_getElem ‹k < 24›]
      · simp only [show 16 + (k - 8 - 8) = k by omega, show k - 8 - 8 < 8 by omega, dif_pos, BitVec.getLsbD_eq_getElem ‹k < 24›]
  · simp only [show ¬ k < 8 by omega, show ¬ k - 8 < 8 by omega, show ¬ k - 8 - 8 < 8 by omega, dif_neg, not_false_eq_true,
      show k - 8 - 8 - 8 = k - 24 by omega]

theorem field_half (o d : BitVec 8) (i : BitVec 16) : (o ++ d ++ i).extractLsb' 0 16 = i := by
  ext k hk
  simp only [BitVec.getElem_extractLsb', BitVec.getLsbD_append]
  simp (disch := omega) only [show 0 + k = k by omega, BitVec.getLsbD_eq_getElem hk, hk, if_true]

theorem field_long (o : BitVec 8) (i : BitVec 24) : (o ++ i).extractLsb' 0 24 = i := by
  ext k hk
  simp only [BitVec.getElem_extractLsb', BitVec.getLsbD_append]
  simp (disch := omega) only [show 0 + k = k by omega, BitVec.getLsbD_eq_getElem hk, hk, if_true]

theorem half_d (o d : BitVec 8) (i : BitVec 16) : (o ++ d ++ i).extractLsb' 16 8 = d := by rw [half]; exact field_d _ _ _ _
theorem half_opcode (o d : BitVec 8) (i : BitVec 16) : opcodeOf (o ++ d ++ i) = o := by rw [half]; exact opcode _ _ _ _
theorem long_opcode (o : BitVec 8) (i : BitVec 24) : opcodeOf (o ++ i) = o := by rw [long]; exact opcode _ _ _ _

/-- A field that is zero is clear under the mask that reserves it. -/
theorem clear_b (o d a : BitVec 8) : (o ++ d ++ a ++ 0#8) &&& 0x0000FF#32 = 0#32 := by
  rw [show (0x0000FF#32) = 0#24 ++ 0xFF#8 from rfl]
  ext k hk
  simp only [BitVec.getElem_and, BitVec.getElem_append]
  split <;> simp

theorem clear_half (o d : BitVec 8) : (o ++ d ++ 0#16) &&& 0x00FFFF#32 = 0#32 := by
  rw [show (0x00FFFF#32) = 0#16 ++ 0xFFFF#16 from rfl]
  ext k hk
  simp only [BitVec.getElem_and, BitVec.getElem_append]
  split <;> simp

theorem clear_d (o : BitVec 8) (i : BitVec 16) : (o ++ 0#8 ++ i) &&& 0xFF0000#32 = 0#32 := by
  rw [show (0xFF0000#32) = 0#8 ++ 0xFF#8 ++ 0#16 from rfl]
  ext k hk
  simp only [BitVec.getElem_and, BitVec.getElem_append]
  split
  · simp
  · split <;> simp

theorem clear_d3 (o a b : BitVec 8) : (o ++ 0#8 ++ a ++ b) &&& 0xFF0000#32 = 0#32 := by
  rw [show (0xFF0000#32) = 0#8 ++ 0xFF#8 ++ 0#8 ++ 0#8 from rfl]
  ext k hk
  simp only [BitVec.getElem_and, BitVec.getElem_append]
  split
  · simp
  · split
    · simp
    · split <;> simp

theorem clear_db (o a : BitVec 8) : (o ++ 0#8 ++ a ++ 0#8) &&& 0xFF00FF#32 = 0#32 := by
  rw [show (0xFF00FF#32) = 0#8 ++ 0xFF#8 ++ 0#8 ++ 0xFF#8 from rfl]
  ext k hk
  simp only [BitVec.getElem_and, BitVec.getElem_append]
  split
  · simp
  · split
    · simp
    · split <;> simp

theorem clear_all (o : BitVec 8) : (o ++ 0#24) &&& 0xFFFFFF#32 = 0#32 := by
  rw [show (0xFFFFFF#32) = 0#8 ++ 0xFFFFFF#24 from rfl]
  ext k hk
  simp only [BitVec.getElem_and, BitVec.getElem_append]
  split <;> simp

/-- A word decodes to what the row of its opcode makes of it, where the row's reserved fields are zero. -/
theorem decode_row {w : IWord} {o : BitVec 8} {r : Encoding} {i : Instr} (ho : opcodeOf w = o)
    (hr : (Encoding.rows (o.toNat / 16)).find? (fun r => r.op == o) = some r) (hz : w &&& r.reserved = 0#32)
    (hm : r.make w = i) : decodeWord w = .ok i := by
  simp only [decodeWord, ho, hr, hz, if_true, hm]

theorem and_zero' (w : IWord) : w &&& 0x000000#32 = 0#32 := by simp

theorem pfxImm (h : BitVec 24) : Statement (.pfxImm h) := by
  intro w h
  cases h
  exact decode_row (long_opcode _ _) rfl (and_zero' _) (by simp only [field_long])

theorem pfxMod (r : BitVec 3) (c : BitVec 2) (sc : BitVec 2) (f : BitVec 4) (x : BitVec 5) (n : BitVec 8) : Statement (.pfxMod r c sc f x n) := by
  intro w h
  cases h
  have ho : opcodeOf (0xFF#8 ++ r ++ c ++ sc ++ f ++ x ++ n) = 0xFF#8 := by
    unfold opcodeOf
    ext k hk
    simp only [BitVec.getElem_extractLsb', BitVec.getLsbD_append]
    simp (disch := omega) only [if_neg, show 24 + k - 8 - 5 - 4 - 2 - 2 - 3 = k by omega, BitVec.getLsbD_eq_getElem hk]
  have h1 : (0xFF#8 ++ r ++ c ++ sc ++ f ++ x ++ n).extractLsb' 21 3 = r := by
    ext k hk
    simp only [BitVec.getElem_extractLsb', BitVec.getLsbD_append]
    simp (disch := omega) only [if_neg, show 21 + k - 8 - 5 - 4 - 2 - 2 = k by omega, BitVec.getLsbD_eq_getElem hk, hk, if_true]
  have h2 : (0xFF#8 ++ r ++ c ++ sc ++ f ++ x ++ n).extractLsb' 19 2 = c := by
    ext k hk
    simp only [BitVec.getElem_extractLsb', BitVec.getLsbD_append]
    simp (disch := omega) only [if_neg, show 19 + k - 8 - 5 - 4 - 2 = k by omega, BitVec.getLsbD_eq_getElem hk, hk, if_true]
  have h3 : (0xFF#8 ++ r ++ c ++ sc ++ f ++ x ++ n).extractLsb' 17 2 = sc := by
    ext k hk
    simp only [BitVec.getElem_extractLsb', BitVec.getLsbD_append]
    simp (disch := omega) only [if_neg, show 17 + k - 8 - 5 - 4 = k by omega, BitVec.getLsbD_eq_getElem hk, hk, if_true]
  have h4 : (0xFF#8 ++ r ++ c ++ sc ++ f ++ x ++ n).extractLsb' 13 4 = f := by
    ext k hk
    simp only [BitVec.getElem_extractLsb', BitVec.getLsbD_append]
    simp (disch := omega) only [if_neg, show 13 + k - 8 - 5 = k by omega, BitVec.getLsbD_eq_getElem hk, hk, if_true]
  have h5 : (0xFF#8 ++ r ++ c ++ sc ++ f ++ x ++ n).extractLsb' 8 5 = x := by
    ext k hk
    simp only [BitVec.getElem_extractLsb', BitVec.getLsbD_append]
    simp (disch := omega) only [if_neg, show 8 + k - 8 = k by omega, BitVec.getLsbD_eq_getElem hk, hk, if_true]
  have h6 : (0xFF#8 ++ r ++ c ++ sc ++ f ++ x ++ n).extractLsb' 0 8 = n := by
    ext k hk
    simp only [BitVec.getElem_extractLsb', BitVec.getLsbD_append]
    simp (disch := omega) only [show 0 + k = k by omega, BitVec.getLsbD_eq_getElem hk, hk, if_true]
  exact decode_row ho rfl (and_zero' _) (by simp only [h1, h2, h3, h4, h5, h6])

theorem add (d : BitVec 8) (a : BitVec 8) (b : BitVec 8) : Statement (.add d a b) := by
  intro w h
  cases h
  exact decode_row (opcode _ _ _ _) rfl (and_zero' _) (by simp only [field_d, field_a, field_b])

theorem sub (d : BitVec 8) (a : BitVec 8) (b : BitVec 8) : Statement (.sub d a b) := by
  intro w h
  cases h
  exact decode_row (opcode _ _ _ _) rfl (and_zero' _) (by simp only [field_d, field_a, field_b])

theorem addi (d : BitVec 8) (a : BitVec 8) (i : BitVec 8) : Statement (.addi d a i) := by
  intro w h
  cases h
  exact decode_row (opcode _ _ _ _) rfl (and_zero' _) (by simp only [field_d, field_a, field_b])

theorem mul (d : BitVec 8) (a : BitVec 8) (b : BitVec 8) : Statement (.mul d a b) := by
  intro w h
  cases h
  exact decode_row (opcode _ _ _ _) rfl (and_zero' _) (by simp only [field_d, field_a, field_b])

theorem mulh (d : BitVec 8) (a : BitVec 8) (b : BitVec 8) : Statement (.mulh d a b) := by
  intro w h
  cases h
  exact decode_row (opcode _ _ _ _) rfl (and_zero' _) (by simp only [field_d, field_a, field_b])

theorem mulhu (d : BitVec 8) (a : BitVec 8) (b : BitVec 8) : Statement (.mulhu d a b) := by
  intro w h
  cases h
  exact decode_row (opcode _ _ _ _) rfl (and_zero' _) (by simp only [field_d, field_a, field_b])

theorem div (d : BitVec 8) (a : BitVec 8) (b : BitVec 8) : Statement (.div d a b) := by
  intro w h
  cases h
  exact decode_row (opcode _ _ _ _) rfl (and_zero' _) (by simp only [field_d, field_a, field_b])

theorem divu (d : BitVec 8) (a : BitVec 8) (b : BitVec 8) : Statement (.divu d a b) := by
  intro w h
  cases h
  exact decode_row (opcode _ _ _ _) rfl (and_zero' _) (by simp only [field_d, field_a, field_b])

theorem rem (d : BitVec 8) (a : BitVec 8) (b : BitVec 8) : Statement (.rem d a b) := by
  intro w h
  cases h
  exact decode_row (opcode _ _ _ _) rfl (and_zero' _) (by simp only [field_d, field_a, field_b])

theorem remu (d : BitVec 8) (a : BitVec 8) (b : BitVec 8) : Statement (.remu d a b) := by
  intro w h
  cases h
  exact decode_row (opcode _ _ _ _) rfl (and_zero' _) (by simp only [field_d, field_a, field_b])

theorem and (d : BitVec 8) (a : BitVec 8) (b : BitVec 8) : Statement (.and d a b) := by
  intro w h
  cases h
  exact decode_row (opcode _ _ _ _) rfl (and_zero' _) (by simp only [field_d, field_a, field_b])

theorem or (d : BitVec 8) (a : BitVec 8) (b : BitVec 8) : Statement (.or d a b) := by
  intro w h
  cases h
  exact decode_row (opcode _ _ _ _) rfl (and_zero' _) (by simp only [field_d, field_a, field_b])

theorem xor (d : BitVec 8) (a : BitVec 8) (b : BitVec 8) : Statement (.xor d a b) := by
  intro w h
  cases h
  exact decode_row (opcode _ _ _ _) rfl (and_zero' _) (by simp only [field_d, field_a, field_b])

theorem andi (d : BitVec 8) (a : BitVec 8) (i : BitVec 8) : Statement (.andi d a i) := by
  intro w h
  cases h
  exact decode_row (opcode _ _ _ _) rfl (and_zero' _) (by simp only [field_d, field_a, field_b])

theorem ori (d : BitVec 8) (a : BitVec 8) (i : BitVec 8) : Statement (.ori d a i) := by
  intro w h
  cases h
  exact decode_row (opcode _ _ _ _) rfl (and_zero' _) (by simp only [field_d, field_a, field_b])

theorem xori (d : BitVec 8) (a : BitVec 8) (i : BitVec 8) : Statement (.xori d a i) := by
  intro w h
  cases h
  exact decode_row (opcode _ _ _ _) rfl (and_zero' _) (by simp only [field_d, field_a, field_b])

theorem shl (d : BitVec 8) (a : BitVec 8) (b : BitVec 8) : Statement (.shl d a b) := by
  intro w h
  cases h
  exact decode_row (opcode _ _ _ _) rfl (and_zero' _) (by simp only [field_d, field_a, field_b])

theorem shr (d : BitVec 8) (a : BitVec 8) (b : BitVec 8) : Statement (.shr d a b) := by
  intro w h
  cases h
  exact decode_row (opcode _ _ _ _) rfl (and_zero' _) (by simp only [field_d, field_a, field_b])

theorem sar (d : BitVec 8) (a : BitVec 8) (b : BitVec 8) : Statement (.sar d a b) := by
  intro w h
  cases h
  exact decode_row (opcode _ _ _ _) rfl (and_zero' _) (by simp only [field_d, field_a, field_b])

theorem shli (d : BitVec 8) (a : BitVec 8) (i : BitVec 8) : Statement (.shli d a i) := by
  intro w h
  cases h
  exact decode_row (opcode _ _ _ _) rfl (and_zero' _) (by simp only [field_d, field_a, field_b])

theorem shri (d : BitVec 8) (a : BitVec 8) (i : BitVec 8) : Statement (.shri d a i) := by
  intro w h
  cases h
  exact decode_row (opcode _ _ _ _) rfl (and_zero' _) (by simp only [field_d, field_a, field_b])

theorem sari (d : BitVec 8) (a : BitVec 8) (i : BitVec 8) : Statement (.sari d a i) := by
  intro w h
  cases h
  exact decode_row (opcode _ _ _ _) rfl (and_zero' _) (by simp only [field_d, field_a, field_b])

theorem slt (d : BitVec 8) (a : BitVec 8) (b : BitVec 8) : Statement (.slt d a b) := by
  intro w h
  cases h
  exact decode_row (opcode _ _ _ _) rfl (and_zero' _) (by simp only [field_d, field_a, field_b])

theorem sltu (d : BitVec 8) (a : BitVec 8) (b : BitVec 8) : Statement (.sltu d a b) := by
  intro w h
  cases h
  exact decode_row (opcode _ _ _ _) rfl (and_zero' _) (by simp only [field_d, field_a, field_b])

theorem seq (d : BitVec 8) (a : BitVec 8) (b : BitVec 8) : Statement (.seq d a b) := by
  intro w h
  cases h
  exact decode_row (opcode _ _ _ _) rfl (and_zero' _) (by simp only [field_d, field_a, field_b])

theorem slti (d : BitVec 8) (a : BitVec 8) (i : BitVec 8) : Statement (.slti d a i) := by
  intro w h
  cases h
  exact decode_row (opcode _ _ _ _) rfl (and_zero' _) (by simp only [field_d, field_a, field_b])

theorem sel (d : BitVec 8) (a : BitVec 8) (b : BitVec 8) : Statement (.sel d a b) := by
  intro w h
  cases h
  exact decode_row (opcode _ _ _ _) rfl (and_zero' _) (by simp only [field_d, field_a, field_b])

theorem min (d : BitVec 8) (a : BitVec 8) (b : BitVec 8) : Statement (.min d a b) := by
  intro w h
  cases h
  exact decode_row (opcode _ _ _ _) rfl (and_zero' _) (by simp only [field_d, field_a, field_b])

theorem max (d : BitVec 8) (a : BitVec 8) (b : BitVec 8) : Statement (.max d a b) := by
  intro w h
  cases h
  exact decode_row (opcode _ _ _ _) rfl (and_zero' _) (by simp only [field_d, field_a, field_b])

theorem minu (d : BitVec 8) (a : BitVec 8) (b : BitVec 8) : Statement (.minu d a b) := by
  intro w h
  cases h
  exact decode_row (opcode _ _ _ _) rfl (and_zero' _) (by simp only [field_d, field_a, field_b])

theorem maxu (d : BitVec 8) (a : BitVec 8) (b : BitVec 8) : Statement (.maxu d a b) := by
  intro w h
  cases h
  exact decode_row (opcode _ _ _ _) rfl (and_zero' _) (by simp only [field_d, field_a, field_b])

theorem clz (d : BitVec 8) (a : BitVec 8) : Statement (.clz d a) := by
  intro w h
  cases h
  exact decode_row (opcode _ _ _ _) rfl (clear_b _ _ _) (by simp only [field_d, field_a])

theorem popc (d : BitVec 8) (a : BitVec 8) : Statement (.popc d a) := by
  intro w h
  cases h
  exact decode_row (opcode _ _ _ _) rfl (clear_b _ _ _) (by simp only [field_d, field_a])

theorem hash64 (d : BitVec 8) (a : BitVec 8) (b : BitVec 8) : Statement (.hash64 d a b) := by
  intro w h
  cases h
  exact decode_row (opcode _ _ _ _) rfl (and_zero' _) (by simp only [field_d, field_a, field_b])

theorem cvtu (d : BitVec 8) (a : BitVec 8) : Statement (.cvtu d a) := by
  intro w h
  cases h
  exact decode_row (opcode _ _ _ _) rfl (clear_b _ _ _) (by simp only [field_d, field_a])

theorem ldi (d : BitVec 8) (i : BitVec 16) : Statement (.ldi d i) := by
  intro w h
  cases h
  exact decode_row (half_opcode _ _ _) rfl (and_zero' _) (by simp only [half_d, field_half])

theorem addpc (d : BitVec 8) (i : BitVec 16) : Statement (.addpc d i) := by
  intro w h
  cases h
  exact decode_row (half_opcode _ _ _) rfl (and_zero' _) (by simp only [half_d, field_half])

theorem bz (a : BitVec 8) (o : BitVec 16) : Statement (.bz a o) := by
  intro w h
  cases h
  exact decode_row (half_opcode _ _ _) rfl (and_zero' _) (by simp only [half_d, field_half])

theorem bnz (a : BitVec 8) (o : BitVec 16) : Statement (.bnz a o) := by
  intro w h
  cases h
  exact decode_row (half_opcode _ _ _) rfl (and_zero' _) (by simp only [half_d, field_half])

theorem bltz (a : BitVec 8) (o : BitVec 16) : Statement (.bltz a o) := by
  intro w h
  cases h
  exact decode_row (half_opcode _ _ _) rfl (and_zero' _) (by simp only [half_d, field_half])

theorem bgez (a : BitVec 8) (o : BitVec 16) : Statement (.bgez a o) := by
  intro w h
  cases h
  exact decode_row (half_opcode _ _ _) rfl (and_zero' _) (by simp only [half_d, field_half])

theorem bgtz (a : BitVec 8) (o : BitVec 16) : Statement (.bgtz a o) := by
  intro w h
  cases h
  exact decode_row (half_opcode _ _ _) rfl (and_zero' _) (by simp only [half_d, field_half])

theorem blez (a : BitVec 8) (o : BitVec 16) : Statement (.blez a o) := by
  intro w h
  cases h
  exact decode_row (half_opcode _ _ _) rfl (and_zero' _) (by simp only [half_d, field_half])

theorem j (o : BitVec 24) : Statement (.j o) := by
  intro w h
  cases h
  exact decode_row (long_opcode _ _) rfl (and_zero' _) (by simp only [field_long])

theorem call (o : BitVec 24) : Statement (.call o) := by
  intro w h
  cases h
  exact decode_row (long_opcode _ _) rfl (and_zero' _) (by simp only [field_long])

theorem jmpr (d : BitVec 8) (a : BitVec 8) : Statement (.jmpr d a) := by
  intro w h
  cases h
  exact decode_row (opcode _ _ _ _) rfl (clear_b _ _ _) (by simp only [field_d, field_a])

theorem sext (d : BitVec 8) (a : BitVec 8) (i : BitVec 8) : Statement (.sext d a i) := by
  intro w h
  cases h
  exact decode_row (opcode _ _ _ _) rfl (and_zero' _) (by simp only [field_d, field_a, field_b])

theorem fadd (d : BitVec 8) (a : BitVec 8) (b : BitVec 8) : Statement (.fadd d a b) := by
  intro w h
  cases h
  exact decode_row (opcode _ _ _ _) rfl (and_zero' _) (by simp only [field_d, field_a, field_b])

theorem fsub (d : BitVec 8) (a : BitVec 8) (b : BitVec 8) : Statement (.fsub d a b) := by
  intro w h
  cases h
  exact decode_row (opcode _ _ _ _) rfl (and_zero' _) (by simp only [field_d, field_a, field_b])

theorem fmul (d : BitVec 8) (a : BitVec 8) (b : BitVec 8) : Statement (.fmul d a b) := by
  intro w h
  cases h
  exact decode_row (opcode _ _ _ _) rfl (and_zero' _) (by simp only [field_d, field_a, field_b])

theorem ffma (d : BitVec 8) (a : BitVec 8) (b : BitVec 8) : Statement (.ffma d a b) := by
  intro w h
  cases h
  exact decode_row (opcode _ _ _ _) rfl (and_zero' _) (by simp only [field_d, field_a, field_b])

theorem fdiv (d : BitVec 8) (a : BitVec 8) (b : BitVec 8) : Statement (.fdiv d a b) := by
  intro w h
  cases h
  exact decode_row (opcode _ _ _ _) rfl (and_zero' _) (by simp only [field_d, field_a, field_b])

theorem fsqrt (d : BitVec 8) (a : BitVec 8) : Statement (.fsqrt d a) := by
  intro w h
  cases h
  exact decode_row (opcode _ _ _ _) rfl (clear_b _ _ _) (by simp only [field_d, field_a])

theorem fmin (d : BitVec 8) (a : BitVec 8) (b : BitVec 8) : Statement (.fmin d a b) := by
  intro w h
  cases h
  exact decode_row (opcode _ _ _ _) rfl (and_zero' _) (by simp only [field_d, field_a, field_b])

theorem fmax (d : BitVec 8) (a : BitVec 8) (b : BitVec 8) : Statement (.fmax d a b) := by
  intro w h
  cases h
  exact decode_row (opcode _ _ _ _) rfl (and_zero' _) (by simp only [field_d, field_a, field_b])

theorem flg2 (d : BitVec 8) (a : BitVec 8) : Statement (.flg2 d a) := by
  intro w h
  cases h
  exact decode_row (opcode _ _ _ _) rfl (clear_b _ _ _) (by simp only [field_d, field_a])

theorem fex2 (d : BitVec 8) (a : BitVec 8) : Statement (.fex2 d a) := by
  intro w h
  cases h
  exact decode_row (opcode _ _ _ _) rfl (clear_b _ _ _) (by simp only [field_d, field_a])

theorem feq (d : BitVec 8) (a : BitVec 8) (b : BitVec 8) : Statement (.feq d a b) := by
  intro w h
  cases h
  exact decode_row (opcode _ _ _ _) rfl (and_zero' _) (by simp only [field_d, field_a, field_b])

theorem flt (d : BitVec 8) (a : BitVec 8) (b : BitVec 8) : Statement (.flt d a b) := by
  intro w h
  cases h
  exact decode_row (opcode _ _ _ _) rfl (and_zero' _) (by simp only [field_d, field_a, field_b])

theorem fle (d : BitVec 8) (a : BitVec 8) (b : BitVec 8) : Statement (.fle d a b) := by
  intro w h
  cases h
  exact decode_row (opcode _ _ _ _) rfl (and_zero' _) (by simp only [field_d, field_a, field_b])

theorem fcvt (d : BitVec 8) (a : BitVec 8) (i : BitVec 8) : Statement (.fcvt d a i) := by
  intro w h
  cases h
  exact decode_row (opcode _ _ _ _) rfl (and_zero' _) (by simp only [field_d, field_a, field_b])

theorem fclass (d : BitVec 8) (a : BitVec 8) : Statement (.fclass d a) := by
  intro w h
  cases h
  exact decode_row (opcode _ _ _ _) rfl (clear_b _ _ _) (by simp only [field_d, field_a])

theorem fsgnj (d : BitVec 8) (a : BitVec 8) (b : BitVec 8) : Statement (.fsgnj d a b) := by
  intro w h
  cases h
  exact decode_row (opcode _ _ _ _) rfl (and_zero' _) (by simp only [field_d, field_a, field_b])

theorem frint (d : BitVec 8) (a : BitVec 8) : Statement (.frint d a) := by
  intro w h
  cases h
  exact decode_row (opcode _ _ _ _) rfl (clear_b _ _ _) (by simp only [field_d, field_a])

theorem ffms (d : BitVec 8) (a : BitVec 8) (b : BitVec 8) : Statement (.ffms d a b) := by
  intro w h
  cases h
  exact decode_row (opcode _ _ _ _) rfl (and_zero' _) (by simp only [field_d, field_a, field_b])

theorem vadd (d : BitVec 8) (a : BitVec 8) (b : BitVec 8) : Statement (.vadd d a b) := by
  intro w h
  cases h
  exact decode_row (opcode _ _ _ _) rfl (and_zero' _) (by simp only [field_d, field_a, field_b])

theorem vsub (d : BitVec 8) (a : BitVec 8) (b : BitVec 8) : Statement (.vsub d a b) := by
  intro w h
  cases h
  exact decode_row (opcode _ _ _ _) rfl (and_zero' _) (by simp only [field_d, field_a, field_b])

theorem vmul (d : BitVec 8) (a : BitVec 8) (b : BitVec 8) : Statement (.vmul d a b) := by
  intro w h
  cases h
  exact decode_row (opcode _ _ _ _) rfl (and_zero' _) (by simp only [field_d, field_a, field_b])

theorem vfma (d : BitVec 8) (a : BitVec 8) (b : BitVec 8) : Statement (.vfma d a b) := by
  intro w h
  cases h
  exact decode_row (opcode _ _ _ _) rfl (and_zero' _) (by simp only [field_d, field_a, field_b])

theorem vmin (d : BitVec 8) (a : BitVec 8) (b : BitVec 8) : Statement (.vmin d a b) := by
  intro w h
  cases h
  exact decode_row (opcode _ _ _ _) rfl (and_zero' _) (by simp only [field_d, field_a, field_b])

theorem vmax (d : BitVec 8) (a : BitVec 8) (b : BitVec 8) : Statement (.vmax d a b) := by
  intro w h
  cases h
  exact decode_row (opcode _ _ _ _) rfl (and_zero' _) (by simp only [field_d, field_a, field_b])

theorem vlg2 (d : BitVec 8) (a : BitVec 8) : Statement (.vlg2 d a) := by
  intro w h
  cases h
  exact decode_row (opcode _ _ _ _) rfl (clear_b _ _ _) (by simp only [field_d, field_a])

theorem vex2 (d : BitVec 8) (a : BitVec 8) : Statement (.vex2 d a) := by
  intro w h
  cases h
  exact decode_row (opcode _ _ _ _) rfl (clear_b _ _ _) (by simp only [field_d, field_a])

theorem vcvt (d : BitVec 8) (a : BitVec 8) (i : BitVec 8) : Statement (.vcvt d a i) := by
  intro w h
  cases h
  exact decode_row (opcode _ _ _ _) rfl (and_zero' _) (by simp only [field_d, field_a, field_b])

theorem vcmp (d : BitVec 8) (a : BitVec 8) (b : BitVec 8) : Statement (.vcmp d a b) := by
  intro w h
  cases h
  exact decode_row (opcode _ _ _ _) rfl (and_zero' _) (by simp only [field_d, field_a, field_b])

theorem vsel (d : BitVec 8) (a : BitVec 8) (b : BitVec 8) : Statement (.vsel d a b) := by
  intro w h
  cases h
  exact decode_row (opcode _ _ _ _) rfl (and_zero' _) (by simp only [field_d, field_a, field_b])

theorem vbcast (d : BitVec 8) (a : BitVec 8) : Statement (.vbcast d a) := by
  intro w h
  cases h
  exact decode_row (opcode _ _ _ _) rfl (clear_b _ _ _) (by simp only [field_d, field_a])

theorem vsum (d : BitVec 8) (a : BitVec 8) : Statement (.vsum d a) := by
  intro w h
  cases h
  exact decode_row (opcode _ _ _ _) rfl (clear_b _ _ _) (by simp only [field_d, field_a])

theorem vmaxr (d : BitVec 8) (a : BitVec 8) : Statement (.vmaxr d a) := by
  intro w h
  cases h
  exact decode_row (opcode _ _ _ _) rfl (clear_b _ _ _) (by simp only [field_d, field_a])

theorem vargmax (d : BitVec 8) (a : BitVec 8) (b : BitVec 8) : Statement (.vargmax d a b) := by
  intro w h
  cases h
  exact decode_row (opcode _ _ _ _) rfl (and_zero' _) (by simp only [field_d, field_a, field_b])

theorem vhash (d : BitVec 8) (a : BitVec 8) (b : BitVec 8) : Statement (.vhash d a b) := by
  intro w h
  cases h
  exact decode_row (opcode _ _ _ _) rfl (and_zero' _) (by simp only [field_d, field_a, field_b])

theorem viadd (d : BitVec 8) (a : BitVec 8) (b : BitVec 8) : Statement (.viadd d a b) := by
  intro w h
  cases h
  exact decode_row (opcode _ _ _ _) rfl (and_zero' _) (by simp only [field_d, field_a, field_b])

theorem vimul (d : BitVec 8) (a : BitVec 8) (b : BitVec 8) : Statement (.vimul d a b) := by
  intro w h
  cases h
  exact decode_row (opcode _ _ _ _) rfl (and_zero' _) (by simp only [field_d, field_a, field_b])

theorem vand (d : BitVec 8) (a : BitVec 8) (b : BitVec 8) : Statement (.vand d a b) := by
  intro w h
  cases h
  exact decode_row (opcode _ _ _ _) rfl (and_zero' _) (by simp only [field_d, field_a, field_b])

theorem vor (d : BitVec 8) (a : BitVec 8) (b : BitVec 8) : Statement (.vor d a b) := by
  intro w h
  cases h
  exact decode_row (opcode _ _ _ _) rfl (and_zero' _) (by simp only [field_d, field_a, field_b])

theorem vxor (d : BitVec 8) (a : BitVec 8) (b : BitVec 8) : Statement (.vxor d a b) := by
  intro w h
  cases h
  exact decode_row (opcode _ _ _ _) rfl (and_zero' _) (by simp only [field_d, field_a, field_b])

theorem vshf (d : BitVec 8) (a : BitVec 8) (b : BitVec 8) : Statement (.vshf d a b) := by
  intro w h
  cases h
  exact decode_row (opcode _ _ _ _) rfl (and_zero' _) (by simp only [field_d, field_a, field_b])

theorem vld (d : BitVec 8) (a : BitVec 8) (i : BitVec 8) : Statement (.vld d a i) := by
  intro w h
  cases h
  exact decode_row (opcode _ _ _ _) rfl (and_zero' _) (by simp only [field_d, field_a, field_b])

theorem vst (d : BitVec 8) (a : BitVec 8) (i : BitVec 8) : Statement (.vst d a i) := by
  intro w h
  cases h
  exact decode_row (opcode _ _ _ _) rfl (and_zero' _) (by simp only [field_d, field_a, field_b])

theorem vldn (d : BitVec 8) (a : BitVec 8) (b : BitVec 8) : Statement (.vldn d a b) := by
  intro w h
  cases h
  exact decode_row (opcode _ _ _ _) rfl (and_zero' _) (by simp only [field_d, field_a, field_b])

theorem ldb (d : BitVec 8) (a : BitVec 8) (i : BitVec 8) : Statement (.ldb d a i) := by
  intro w h
  cases h
  exact decode_row (opcode _ _ _ _) rfl (and_zero' _) (by simp only [field_d, field_a, field_b])

theorem ldbu (d : BitVec 8) (a : BitVec 8) (i : BitVec 8) : Statement (.ldbu d a i) := by
  intro w h
  cases h
  exact decode_row (opcode _ _ _ _) rfl (and_zero' _) (by simp only [field_d, field_a, field_b])

theorem ldh (d : BitVec 8) (a : BitVec 8) (i : BitVec 8) : Statement (.ldh d a i) := by
  intro w h
  cases h
  exact decode_row (opcode _ _ _ _) rfl (and_zero' _) (by simp only [field_d, field_a, field_b])

theorem ldhu (d : BitVec 8) (a : BitVec 8) (i : BitVec 8) : Statement (.ldhu d a i) := by
  intro w h
  cases h
  exact decode_row (opcode _ _ _ _) rfl (and_zero' _) (by simp only [field_d, field_a, field_b])

theorem lds (d : BitVec 8) (a : BitVec 8) (i : BitVec 8) : Statement (.lds d a i) := by
  intro w h
  cases h
  exact decode_row (opcode _ _ _ _) rfl (and_zero' _) (by simp only [field_d, field_a, field_b])

theorem ldsu (d : BitVec 8) (a : BitVec 8) (i : BitVec 8) : Statement (.ldsu d a i) := by
  intro w h
  cases h
  exact decode_row (opcode _ _ _ _) rfl (and_zero' _) (by simp only [field_d, field_a, field_b])

theorem ldw (d : BitVec 8) (a : BitVec 8) (i : BitVec 8) : Statement (.ldw d a i) := by
  intro w h
  cases h
  exact decode_row (opcode _ _ _ _) rfl (and_zero' _) (by simp only [field_d, field_a, field_b])

theorem stb (d : BitVec 8) (a : BitVec 8) (i : BitVec 8) : Statement (.stb d a i) := by
  intro w h
  cases h
  exact decode_row (opcode _ _ _ _) rfl (and_zero' _) (by simp only [field_d, field_a, field_b])

theorem sth (d : BitVec 8) (a : BitVec 8) (i : BitVec 8) : Statement (.sth d a i) := by
  intro w h
  cases h
  exact decode_row (opcode _ _ _ _) rfl (and_zero' _) (by simp only [field_d, field_a, field_b])

theorem sts (d : BitVec 8) (a : BitVec 8) (i : BitVec 8) : Statement (.sts d a i) := by
  intro w h
  cases h
  exact decode_row (opcode _ _ _ _) rfl (and_zero' _) (by simp only [field_d, field_a, field_b])

theorem stw (d : BitVec 8) (a : BitVec 8) (i : BitVec 8) : Statement (.stw d a i) := by
  intro w h
  cases h
  exact decode_row (opcode _ _ _ _) rfl (and_zero' _) (by simp only [field_d, field_a, field_b])

theorem ldro (d : BitVec 8) (a : BitVec 8) (i : BitVec 8) : Statement (.ldro d a i) := by
  intro w h
  cases h
  exact decode_row (opcode _ _ _ _) rfl (and_zero' _) (by simp only [field_d, field_a, field_b])

theorem lde (d : BitVec 8) (a : BitVec 8) (i : BitVec 8) : Statement (.lde d a i) := by
  intro w h
  cases h
  exact decode_row (opcode _ _ _ _) rfl (and_zero' _) (by simp only [field_d, field_a, field_b])

theorem stf (d : BitVec 8) (a : BitVec 8) (i : BitVec 8) : Statement (.stf d a i) := by
  intro w h
  cases h
  exact decode_row (opcode _ _ _ _) rfl (and_zero' _) (by simp only [field_d, field_a, field_b])

theorem aadd (d : BitVec 8) (a : BitVec 8) (b : BitVec 8) : Statement (.aadd d a b) := by
  intro w h
  cases h
  exact decode_row (opcode _ _ _ _) rfl (and_zero' _) (by simp only [field_d, field_a, field_b])

theorem aswp (d : BitVec 8) (a : BitVec 8) (b : BitVec 8) : Statement (.aswp d a b) := by
  intro w h
  cases h
  exact decode_row (opcode _ _ _ _) rfl (and_zero' _) (by simp only [field_d, field_a, field_b])

theorem acas (d : BitVec 8) (a : BitVec 8) (b : BitVec 8) : Statement (.acas d a b) := by
  intro w h
  cases h
  exact decode_row (opcode _ _ _ _) rfl (and_zero' _) (by simp only [field_d, field_a, field_b])

theorem amin (d : BitVec 8) (a : BitVec 8) (b : BitVec 8) : Statement (.amin d a b) := by
  intro w h
  cases h
  exact decode_row (opcode _ _ _ _) rfl (and_zero' _) (by simp only [field_d, field_a, field_b])

theorem amax (d : BitVec 8) (a : BitVec 8) (b : BitVec 8) : Statement (.amax d a b) := by
  intro w h
  cases h
  exact decode_row (opcode _ _ _ _) rfl (and_zero' _) (by simp only [field_d, field_a, field_b])

theorem hold (d : BitVec 8) (a : BitVec 8) : Statement (.hold d a) := by
  intro w h
  cases h
  exact decode_row (opcode _ _ _ _) rfl (clear_b _ _ _) (by simp only [field_d, field_a])

theorem unhold (d : BitVec 8) (a : BitVec 8) : Statement (.unhold d a) := by
  intro w h
  cases h
  exact decode_row (opcode _ _ _ _) rfl (clear_b _ _ _) (by simp only [field_d, field_a])

theorem fence : Statement (.fence) := by
  intro w h
  cases h
  exact decode_row (long_opcode _ _) rfl (clear_all _) (rfl)

theorem fenceSib : Statement (.fenceSib) := by
  intro w h
  cases h
  exact decode_row (long_opcode _ _) rfl (clear_all _) (rfl)

theorem flushp (d : BitVec 8) (a : BitVec 8) (b : BitVec 8) : Statement (.flushp d a b) := by
  intro w h
  cases h
  exact decode_row (opcode _ _ _ _) rfl (and_zero' _) (by simp only [field_d, field_a, field_b])

theorem invp (d : BitVec 8) (a : BitVec 8) (b : BitVec 8) : Statement (.invp d a b) := by
  intro w h
  cases h
  exact decode_row (opcode _ _ _ _) rfl (and_zero' _) (by simp only [field_d, field_a, field_b])

theorem discard (d : BitVec 8) (a : BitVec 8) (b : BitVec 8) : Statement (.discard d a b) := by
  intro w h
  cases h
  exact decode_row (opcode _ _ _ _) rfl (and_zero' _) (by simp only [field_d, field_a, field_b])

theorem pref (a : BitVec 8) (i : BitVec 8) : Statement (.pref a i) := by
  intro w h
  cases h
  exact decode_row (opcode _ _ _ _) rfl (clear_d3 _ _ _) (by simp only [field_a, field_b])

theorem tick (i : BitVec 16) : Statement (.tick i) := by
  intro w h
  cases h
  exact decode_row (half_opcode _ _ _) rfl (clear_d _ _) (by simp only [field_half])

theorem tsprobe (d : BitVec 8) (a : BitVec 8) : Statement (.tsprobe d a) := by
  intro w h
  cases h
  exact decode_row (opcode _ _ _ _) rfl (clear_b _ _ _) (by simp only [field_d, field_a])

theorem ldex (d : BitVec 8) (a : BitVec 8) (i : BitVec 8) : Statement (.ldex d a i) := by
  intro w h
  cases h
  exact decode_row (opcode _ _ _ _) rfl (and_zero' _) (by simp only [field_d, field_a, field_b])

theorem bset (d : BitVec 8) (a : BitVec 8) (b : BitVec 8) : Statement (.bset d a b) := by
  intro w h
  cases h
  exact decode_row (opcode _ _ _ _) rfl (and_zero' _) (by simp only [field_d, field_a, field_b])

theorem bcomp (d : BitVec 8) (a : BitVec 8) (b : BitVec 8) : Statement (.bcomp d a b) := by
  intro w h
  cases h
  exact decode_row (opcode _ _ _ _) rfl (and_zero' _) (by simp only [field_d, field_a, field_b])

theorem binfo (d : BitVec 8) (a : BitVec 8) : Statement (.binfo d a) := by
  intro w h
  cases h
  exact decode_row (opcode _ _ _ _) rfl (clear_b _ _ _) (by simp only [field_d, field_a])

theorem rcp (d : BitVec 8) (i : BitVec 16) : Statement (.rcp d i) := by
  intro w h
  cases h
  exact decode_row (half_opcode _ _ _) rfl (and_zero' _) (by simp only [half_d, field_half])

theorem rcpfree (d : BitVec 8) : Statement (.rcpfree d) := by
  intro w h
  cases h
  exact decode_row (half_opcode _ _ _) rfl (clear_half _ _) (by simp only [half_d])

theorem rcpq (d : BitVec 8) (a : BitVec 8) : Statement (.rcpq d a) := by
  intro w h
  cases h
  exact decode_row (opcode _ _ _ _) rfl (clear_b _ _ _) (by simp only [field_d, field_a])

theorem spawn (d : BitVec 8) (a : BitVec 8) (b : BitVec 8) : Statement (.spawn d a b) := by
  intro w h
  cases h
  exact decode_row (opcode _ _ _ _) rfl (and_zero' _) (by simp only [field_d, field_a, field_b])

theorem exit : Statement (.exit) := by
  intro w h
  cases h
  exact decode_row (long_opcode _ _) rfl (clear_all _) (rfl)

theorem waitw (d : BitVec 8) (i : BitVec 16) : Statement (.waitw d i) := by
  intro w h
  cases h
  exact decode_row (half_opcode _ _ _) rfl (and_zero' _) (by simp only [half_d, field_half])

theorem post (d : BitVec 8) (a : BitVec 8) (b : BitVec 8) : Statement (.post d a b) := by
  intro w h
  cases h
  exact decode_row (opcode _ _ _ _) rfl (and_zero' _) (by simp only [field_d, field_a, field_b])

theorem yield : Statement (.yield) := by
  intro w h
  cases h
  exact decode_row (long_opcode _ _) rfl (clear_all _) (rfl)

theorem launch (d : BitVec 8) (a : BitVec 8) : Statement (.launch d a) := by
  intro w h
  cases h
  exact decode_row (opcode _ _ _ _) rfl (clear_b _ _ _) (by simp only [field_d, field_a])

theorem lwait (d : BitVec 8) (a : BitVec 8) : Statement (.lwait d a) := by
  intro w h
  cases h
  exact decode_row (opcode _ _ _ _) rfl (clear_b _ _ _) (by simp only [field_d, field_a])

theorem cancel (d : BitVec 8) (a : BitVec 8) : Statement (.cancel d a) := by
  intro w h
  cases h
  exact decode_row (opcode _ _ _ _) rfl (clear_b _ _ _) (by simp only [field_d, field_a])

theorem barrier (d : BitVec 8) : Statement (.barrier d) := by
  intro w h
  cases h
  exact decode_row (half_opcode _ _ _) rfl (clear_half _ _) (by simp only [half_d])

theorem epbind (d : BitVec 8) (a : BitVec 8) : Statement (.epbind d a) := by
  intro w h
  cases h
  exact decode_row (opcode _ _ _ _) rfl (clear_b _ _ _) (by simp only [field_d, field_a])

theorem migr (d : BitVec 8) (a : BitVec 8) : Statement (.migr d a) := by
  intro w h
  cases h
  exact decode_row (opcode _ _ _ _) rfl (clear_b _ _ _) (by simp only [field_d, field_a])

theorem mm (d : BitVec 8) (a : BitVec 8) : Statement (.mm d a) := by
  intro w h
  cases h
  exact decode_row (opcode _ _ _ _) rfl (clear_b _ _ _) (by simp only [field_d, field_a])

theorem mms (d : BitVec 8) (a : BitVec 8) : Statement (.mms d a) := by
  intro w h
  cases h
  exact decode_row (opcode _ _ _ _) rfl (clear_b _ _ _) (by simp only [field_d, field_a])

theorem cpy (d : BitVec 8) (a : BitVec 8) : Statement (.cpy d a) := by
  intro w h
  cases h
  exact decode_row (opcode _ _ _ _) rfl (clear_b _ _ _) (by simp only [field_d, field_a])

theorem coll (d : BitVec 8) (a : BitVec 8) : Statement (.coll d a) := by
  intro w h
  cases h
  exact decode_row (opcode _ _ _ _) rfl (clear_b _ _ _) (by simp only [field_d, field_a])

theorem jwait (d : BitVec 8) (a : BitVec 8) : Statement (.jwait d a) := by
  intro w h
  cases h
  exact decode_row (opcode _ _ _ _) rfl (clear_b _ _ _) (by simp only [field_d, field_a])

theorem jpoll (d : BitVec 8) (a : BitVec 8) : Statement (.jpoll d a) := by
  intro w h
  cases h
  exact decode_row (opcode _ _ _ _) rfl (clear_b _ _ _) (by simp only [field_d, field_a])

theorem sysr (d : BitVec 8) (i : BitVec 16) : Statement (.sysr d i) := by
  intro w h
  cases h
  exact decode_row (half_opcode _ _ _) rfl (and_zero' _) (by simp only [half_d, field_half])

theorem sysw (d : BitVec 8) (i : BitVec 16) : Statement (.sysw d i) := by
  intro w h
  cases h
  exact decode_row (half_opcode _ _ _) rfl (and_zero' _) (by simp only [half_d, field_half])

theorem trap (i : BitVec 16) : Statement (.trap i) := by
  intro w h
  cases h
  exact decode_row (half_opcode _ _ _) rfl (clear_d _ _) (by simp only [field_half])

theorem tret (a : BitVec 8) : Statement (.tret a) := by
  intro w h
  cases h
  exact decode_row (opcode _ _ _ _) rfl (clear_db _ _) (by simp only [field_a])

theorem shoot (d : BitVec 8) (a : BitVec 8) (b : BitVec 8) : Statement (.shoot d a b) := by
  intro w h
  cases h
  exact decode_row (opcode _ _ _ _) rfl (and_zero' _) (by simp only [field_d, field_a, field_b])

theorem pageWalk (tid : Nat) : Statement (.pageWalk tid) := by
  intro w h
  cases h

theorem loadReply (tid : Nat) (part : Nat) : Statement (.loadReply tid part) := by
  intro w h
  cases h

theorem bankReply (op : Nat) : Statement (.bankReply op) := by
  intro w h
  cases h

theorem threadReady (tid : Nat) : Statement (.threadReady tid) := by
  intro w h
  cases h

theorem cohRead (tid : Nat) (part : Nat) : Statement (.cohRead tid part) := by
  intro w h
  cases h

theorem exclusiveRequest (core : Nat) (line : Nat) : Statement (.exclusiveRequest core line) := by
  intro w h
  cases h

theorem storeTimestamp (core : Nat) (entry : Nat) : Statement (.storeTimestamp core entry) := by
  intro w h
  cases h

theorem farAtomic (tid : Nat) : Statement (.farAtomic tid) := by
  intro w h
  cases h

theorem writeBack (entry : Nat) : Statement (.writeBack entry) := by
  intro w h
  cases h

theorem l2Fill (line : Nat) (shared : Bool) : Statement (.l2Fill line shared) := by
  intro w h
  cases h

theorem mergeWindowClose (block : Nat) : Statement (.mergeWindowClose block) := by
  intro w h
  cases h

theorem deferredDiscard (line : Nat) : Statement (.deferredDiscard line) := by
  intro w h
  cases h

theorem holdCap (tid : Nat) (line : Nat) : Statement (.holdCap tid line) := by
  intro w h
  cases h

theorem ptsTick (core : Nat) : Statement (.ptsTick core) := by
  intro w h
  cases h

theorem floorRaise : Statement (.floorRaise) := by
  intro w h
  cases h

theorem ownTimeRaise (agent : Agent) : Statement (.ownTimeRaise agent) := by
  intro w h
  cases h

theorem l2StampSweep (slice : Nat) (line : Nat) : Statement (.l2StampSweep slice line) := by
  intro w h
  cases h

theorem coreStampSweep (core : Nat) (line : Nat) : Statement (.coreStampSweep core line) := by
  intro w h
  cases h

theorem steppedAdvance (agent : Agent) : Statement (.steppedAdvance agent) := by
  intro w h
  cases h

theorem storageSweep (loc : Loc) : Statement (.storageSweep loc) := by
  intro w h
  cases h

theorem registerSweep (loc : Loc) : Statement (.registerSweep loc) := by
  intro w h
  cases h

theorem bankLoad (op : Nat) : Statement (.bankLoad op) := by
  intro w h
  cases h

theorem bankStore (op : Nat) : Statement (.bankStore op) := by
  intro w h
  cases h

theorem fullBitRead (op : Nat) : Statement (.fullBitRead op) := by
  intro w h
  cases h

theorem granuleEmpty (op : Nat) : Statement (.granuleEmpty op) := by
  intro w h
  cases h

theorem pop (op : Nat) : Statement (.pop op) := by
  intro w h
  cases h

theorem push (op : Nat) : Statement (.push op) := by
  intro w h
  cases h

theorem peek (op : Nat) : Statement (.peek op) := by
  intro w h
  cases h

theorem count (op : Nat) : Statement (.count op) := by
  intro w h
  cases h

theorem mapLookup (op : Nat) : Statement (.mapLookup op) := by
  intro w h
  cases h

theorem mapInsert (op : Nat) : Statement (.mapInsert op) := by
  intro w h
  cases h

theorem mapTake (op : Nat) : Statement (.mapTake op) := by
  intro w h
  cases h

theorem mapDelete (op : Nat) : Statement (.mapDelete op) := by
  intro w h
  cases h

theorem heapInsert (op : Nat) : Statement (.heapInsert op) := by
  intro w h
  cases h

theorem heapPop (op : Nat) : Statement (.heapPop op) := by
  intro w h
  cases h

theorem histRead (op : Nat) : Statement (.histRead op) := by
  intro w h
  cases h

theorem histAdd (op : Nat) : Statement (.histAdd op) := by
  intro w h
  cases h

theorem histReadClear (op : Nat) : Statement (.histReadClear op) := by
  intro w h
  cases h

theorem histSet (op : Nat) : Statement (.histSet op) := by
  intro w h
  cases h

theorem bankVectorAccess (op : Nat) : Statement (.bankVectorAccess op) := by
  intro w h
  cases h

theorem bankLde (op : Nat) : Statement (.bankLde op) := by
  intro w h
  cases h

theorem bankStf (op : Nat) : Statement (.bankStf op) := by
  intro w h
  cases h

theorem keep (op : Nat) (slots : List Nat) (order : List Nat) : Statement (.keep op slots order) := by
  intro w h
  cases h

theorem drain (op : Nat) : Statement (.drain op) := by
  intro w h
  cases h

theorem clear (op : Nat) : Statement (.clear op) := by
  intro w h
  cases h

theorem compositionForm (op : Nat) : Statement (.compositionForm op) := by
  intro w h
  cases h

theorem bankHandover (bank : Nat) (owner : Nat) : Statement (.bankHandover bank owner) := by
  intro w h
  cases h

theorem trestleAccept (tid : Nat) : Statement (.trestleAccept tid) := by
  intro w h
  cases h

theorem tileStep (cluster : Nat) (mismatches : Nat) (room : Bool) (fetch : Bool) : Statement (.tileStep cluster mismatches room fetch) := by
  intro w h
  cases h

theorem publish (cluster : Nat) (copy : Bool) (coreIn : Nat) : Statement (.publish cluster copy coreIn) := by
  intro w h
  cases h

theorem trestleSave (cluster : Nat) : Statement (.trestleSave cluster) := by
  intro w h
  cases h

theorem copyAccept (tid : Nat) : Statement (.copyAccept tid) := by
  intro w h
  cases h

theorem copy (cluster : Nat) (coreIn : Nat) (room : Bool) : Statement (.copy cluster coreIn room) := by
  intro w h
  cases h

theorem fill (cluster : Nat) (coreIn : Nat) (room : Bool) : Statement (.fill cluster coreIn room) := by
  intro w h
  cases h

theorem gather (cluster : Nat) (coreIn : Nat) (room : Bool) : Statement (.gather cluster coreIn room) := by
  intro w h
  cases h

theorem scatteradd (cluster : Nat) (coreIn : Nat) : Statement (.scatteradd cluster coreIn) := by
  intro w h
  cases h

theorem put (cluster : Nat) (coreIn : Nat) : Statement (.put cluster coreIn) := by
  intro w h
  cases h

theorem get (cluster : Nat) (coreIn : Nat) (room : Bool) (answer : RemoteAnswer) : Statement (.get cluster coreIn room answer) := by
  intro w h
  cases h

theorem rmaRequest (request : RmaRequest) : Statement (.rmaRequest request) := by
  intro w h
  cases h

theorem remotePutPublish (request : Nat) : Statement (.remotePutPublish request) := by
  intro w h
  cases h

theorem retryBudgetExhausted (cluster : Nat) (coreIn : Nat) : Statement (.retryBudgetExhausted cluster coreIn) := by
  intro w h
  cases h

theorem copySave (cluster : Nat) : Statement (.copySave cluster) := by
  intro w h
  cases h

theorem allreduce (ctx : Nat) (group : Nat) (instance_ : Nat) (rank : Nat) (room : Bool) (answer : RemoteAnswer) : Statement (.allreduce ctx group instance_ rank room answer) := by
  intro w h
  cases h

theorem reduce (ctx : Nat) (group : Nat) (instance_ : Nat) (rank : Nat) (room : Bool) (answer : RemoteAnswer) : Statement (.reduce ctx group instance_ rank room answer) := by
  intro w h
  cases h

theorem bcast (ctx : Nat) (group : Nat) (instance_ : Nat) (rank : Nat) (room : Bool) (answer : RemoteAnswer) : Statement (.bcast ctx group instance_ rank room answer) := by
  intro w h
  cases h

theorem allgather (ctx : Nat) (group : Nat) (instance_ : Nat) (rank : Nat) (room : Bool) (answer : RemoteAnswer) : Statement (.allgather ctx group instance_ rank room answer) := by
  intro w h
  cases h

theorem waitwDispatch (cluster : Nat) : Statement (.waitwDispatch cluster) := by
  intro w h
  cases h

theorem quiescence (launch : Nat) : Statement (.quiescence launch) := by
  intro w h
  cases h

theorem threadCreation (launch : Nat) (cluster : Nat) : Statement (.threadCreation launch cluster) := by
  intro w h
  cases h

theorem launchRecordRead (launch : Nat) : Statement (.launchRecordRead launch) := by
  intro w h
  cases h

theorem sideboardReport (cluster : Nat) : Statement (.sideboardReport cluster) := by
  intro w h
  cases h

theorem restart (launch : Nat) (index : Nat) : Statement (.restart launch index) := by
  intro w h
  cases h

theorem messageInjection (tid : Nat) : Statement (.messageInjection tid) := by
  intro w h
  cases h

theorem messageDelivery (message : Nat) : Statement (.messageDelivery message) := by
  intro w h
  cases h

theorem overflowDrain (ctx : Nat) (job : Nat) (message : Nat) : Statement (.overflowDrain ctx job message) := by
  intro w h
  cases h

theorem migrationArrival (packet : Nat) : Statement (.migrationArrival packet) := by
  intro w h
  cases h

theorem quantumBoundary (core : Nat) : Statement (.quantumBoundary core) := by
  intro w h
  cases h

theorem preEmption (tid : Nat) : Statement (.preEmption tid) := by
  intro w h
  cases h

theorem threadSave (tid : Nat) : Statement (.threadSave tid) := by
  intro w h
  cases h

theorem slotRst (tid : Nat) (pa : Word) : Statement (.slotRst tid pa) := by
  intro w h
  cases h

theorem slotOwn (tid : Nat) (v : Word) : Statement (.slotOwn tid v) := by
  intro w h
  cases h

theorem cxId (core : Nat) (tableEntry : Nat) (v : Word) : Statement (.cxId core tableEntry v) := by
  intro w h
  cases h

theorem tmbox (tid : Nat) : Statement (.tmbox tid) := by
  intro w h
  cases h

theorem mailboxReply (cluster : Nat) (coreIn : Nat) (entryIn : Nat) (v : Word) : Statement (.mailboxReply cluster coreIn entryIn v) := by
  intro w h
  cases h

theorem sysShootD (cluster : Nat) (v : Word) : Statement (.sysShootD cluster v) := by
  intro w h
  cases h

theorem trestlePre (cluster : Nat) (v : Word) : Statement (.trestlePre cluster v) := by
  intro w h
  cases h

theorem trestleRes (cluster : Nat) (v : Word) : Statement (.trestleRes cluster v) := by
  intro w h
  cases h

theorem copyPre (cluster : Nat) (v : Word) : Statement (.copyPre cluster v) := by
  intro w h
  cases h

theorem copyRes (cluster : Nat) (v : Word) : Statement (.copyRes cluster v) := by
  intro w h
  cases h

theorem registerWrite (reg : RegName) (v : Word) : Statement (.registerWrite reg v) := by
  intro w h
  cases h

theorem putPublishAcknowledged (cluster : Nat) (coreIn : Nat) (answer : RemoteAnswer) : Statement (.putPublishAcknowledged cluster coreIn answer) := by
  intro w h
  cases h

theorem privStoreEntersL1 (core : Nat) (entry : Nat) : Statement (.privStoreEntersL1 core entry) := by
  intro w h
  cases h

theorem binfoReport (op : Nat) : Statement (.binfoReport op) := by
  intro w h
  cases h

theorem ctxnew (cmd : HostCmd) (frames : List Nat) : Statement (.ctxnew cmd frames) := by
  intro w h
  cases h

theorem ctxend (cmd : HostCmd) : Statement (.ctxend cmd) := by
  intro w h
  cases h

theorem map (cmd : HostCmd) (frames : List Nat) : Statement (.map cmd frames) := by
  intro w h
  cases h

theorem unmap (cmd : HostCmd) : Statement (.unmap cmd) := by
  intro w h
  cases h

theorem winopen (cmd : HostCmd) : Statement (.winopen cmd) := by
  intro w h
  cases h

theorem winclose (cmd : HostCmd) : Statement (.winclose cmd) := by
  intro w h
  cases h

theorem submit (cmd : HostCmd) (frames : List Nat) : Statement (.submit cmd frames) := by
  intro w h
  cases h

theorem hostCancel (cmd : HostCmd) : Statement (.hostCancel cmd) := by
  intro w h
  cases h

theorem status (cmd : HostCmd) : Statement (.status cmd) := by
  intro w h
  cases h

theorem logread (cmd : HostCmd) : Statement (.logread cmd) := by
  intro w h
  cases h

theorem group (cmd : HostCmd) : Statement (.group cmd) := by
  intro w h
  cases h

theorem policy (cmd : HostCmd) : Statement (.policy cmd) := by
  intro w h
  cases h

theorem packageReset : Statement (.packageReset) := by
  intro w h
  cases h

theorem powerGood : Statement (.powerGood) := by
  intro w h
  cases h

theorem linkTrained (port : Nat) : Statement (.linkTrained port) := by
  intro w h
  cases h

theorem bootImageRead (image : BootImage) : Statement (.bootImageRead image) := by
  intro w h
  cases h

theorem sliceStart (slice : Nat) : Statement (.sliceStart slice) := by
  intro w h
  cases h

theorem sliceFinished (slice : Nat) : Statement (.sliceFinished slice) := by
  intro w h
  cases h

end Sys2Proof.Laws.Encodes

namespace Sys2Proof.Laws

theorem Encodes.recall (line : Nat) (keep : Bool) : Encodes.Statement (.recall line keep) := by
  intro w h
  cases h

end Sys2Proof.Laws
end

