-- ==== Sys2Proof/Laws/Units.lean ====
section
/-! SUPPORT. The checks, the comparator, the traps and the float shapes that the words share: what each does where it goes through,
and what a unit on resident names leaves. -/

namespace Sys2Proof.Machine

theorem mode_run {s : State} {x : Thread} (hx : s.thread s.cur = some x) :
    mode s = .ok (modeOf x.latch.rm (s.slot s.cur).tstat, s) := by
  unfold mode
  rw [bind_ok (latch_run hx), bind_ok (mySlot_run s)]
  rfl

theorem laneCode_run {s : State} {x : Thread} (hx : s.thread s.cur = some x) : laneCode s = .ok (x.latch.aux % 8, s) := by
  unfold laneCode
  rw [bind_ok (latch_run hx)]
  rfl

theorem checkRange_ok {ea : Word} {store : Bool} {s : State} (h : outside ea = false) : checkRange ea store s = .ok ((), s) := by
  simp [checkRange, h]

theorem checkAlign_ok {ea : Word} {n : Nat} {store : Bool} {s : State} (h : ea.toNat % n = 0) :
    checkAlign ea n store s = .ok ((), s) := by
  simp [checkAlign, h]

theorem effective_run {s : State} {x : Thread} {ea : Word} (h : s.thread s.cur = some x) :
    effective ea s = .ok (x.resume.ea.getD ea, s) := by
  unfold effective
  rw [bind_ok (me_run h)]
  rfl

theorem parkUntil_ok {c : Bool} {w : Wait} {s : State} (h : c = true) : parkUntil c w s = .ok ((), s) := by subst h; rfl
theorem needSome_ok {α : Type} {o : Option α} {a : α} {s : State} (h : o = some a) : needSome o s = .ok (a, s) := by subst h; rfl
theorem need_ok {c : Bool} {s : State} (h : c = true) : need c s = .ok ((), s) := by subst h; rfl
theorem userMode_run (s : State) : userMode s = .ok (!prv (s.slot s.cur).tstat, s) := rfl

theorem later_self (a : Stamp) : later a a = false := by simp [later]

/-- An own time that is late enough already stays (09 R206). -/
theorem raise_keeps {a : Agent} {t : Stamp} {s : State} (h : later (s.clock a).t t = false) : raise a t s = .ok ((), s) := by
  rw [raise_run]
  simp [h]

theorem checkBankWord_ok {b w : Nat} {s : State} (h : s.errs = []) : checkBankWord b w s = .ok ((), s) := by
  unfold checkBankWord
  simp [h]

/-- The effects and values of a lone thread go through no comparator (15 R380, R381). -/
theorem agree_single {e : Effect} {names : Option (List Word)} {s : State} {x : Thread} (hx : s.thread s.cur = some x)
    (h : x.role = .single) : agree e names s = .ok (true, s) := by
  unfold agree
  rw [bind_ok (me_run hx)]
  simp [h]

theorem enter_single {k : Nat} {a : Word} {act : M (Word × List Word)} {s : State} {x : Thread} (hx : s.thread s.cur = some x)
    (h : x.role = .single) : enter k a act s = act s := by
  unfold enter
  rw [bind_ok (me_run hx)]
  simp [h]

theorem enterWord_single {k : Nat} {a v : Word} {act : M Word} {s t : State} {x : Thread} (hx : s.thread s.cur = some x)
    (h : x.role = .single) (hh : act s = .ok (v, t)) : enterWord k a act s = .ok (v, t) := by
  unfold enterWord
  rw [bind_ok (a := (v, ([] : List Word))) (t := t) (by rw [enter_single hx h, bind_ok hh]; rfl)]
  rfl

theorem outward_single {e : Effect} {act : M (Word × List Word)} {names : Option (List Word)} {s : State} {x : Thread}
    (hx : s.thread s.cur = some x) (h : x.role = .single) : outward e act names s = act s := by
  unfold outward
  rw [bind_ok (agree_single hx h), enter_single hx h]

/-- A trap of a lone thread in user mode is taken (15 R367 to R369). -/
theorem settle_trap {s : State} {x : Thread} {t : TrapInfo} (hx : s.thread s.cur = some x) (hr : x.role = .single)
    (hp : prv (s.slot s.cur).tstat = false) : settle s.cur (.trap t) s = .ok ((), s.takeTrap s.cur x t) := by
  unfold settle
  simp only
  unfold trapThread
  simp only [bind_getS, hx, hr, if_true]
  unfold takeTrapOf
  simp only [bind_getS, hp, Bool.false_eq_true, if_false, modS_run]

/-- What a unit had taken from outside is no part of the trap that a lone thread takes. -/
@[simp] theorem takeTrap_entered (s : State) (tid : Nat) (x : Thread) (t : TrapInfo) (l : List PairValue) :
    s.takeTrap tid x { t with entered := l } = s.takeTrap tid x t := rfl

/-- An instruction that issues and whose body traps leaves the state in which the trap is taken. -/
theorem runUnit_trap {i : Instr} {body : IWord → M Unit} {s : State} {x : Thread} {t : TrapInfo} (hi : Issues i s)
    (hx : s.thread s.cur = some x) (hr : x.role = .single) (hp : prv (s.slot s.cur).tstat = false)
    (h : body (wordOf i) s = .error (.trap t)) : runUnit i body s = .next (s.takeTrap s.cur x t) := by
  obtain ⟨y, hy, hpk, hw, ha, hj⟩ := hi
  obtain rfl : y = x := by rw [hx] at hy; exact (Option.some.inj hy).symm
  have hgo : (do
      let x ← me
      if wellFormed i && accepts i x.latch then do
        judgeNames (wordOf i) i
        body (wordOf i)
      else illegal (wordOf i)) s = .error (.trap t) := by
    rw [bind_ok (me_run hx)]
    simp only [hw, ha, Bool.and_self, if_true]
    rw [bind_ok hj]
    exact h
  unfold runUnit runBody
  simp only [hx, hpk, hgo, settle_trap hx hr hp]
  rfl

theorem floatBinary_ok {w : IWord} {d a b : BitVec 8} {f : Fmt → Nat → Nat → Nat → Nat × Flags} {s s1 s2 s3 s4 t : State}
    {x y : Thread} {A B : Word} {r : Nat × Flags} (hx : s.thread s.cur = some x) (ha : Gives (readName w a) s A s1)
    (hb : Gives (readName w b) s1 B s2) (hy : s2.thread s2.cur = some y)
    (hr : r = f (precision x.latch.aux) (modeOf y.latch.rm (s2.slot s2.cur).tstat) (operand (precision x.latch.aux) A)
      (operand (precision x.latch.aux) B))
    (hf : Gives (raiseFlags r.2) s2 () s3) (hw : Gives (writeName w d (word r.1)) s3 () s4) (ht : Retires s4 t) :
    floatBinary w d a b f s = .ok ((), t) := by
  unfold floatBinary
  rw [bind_ok (latch_run hx), bind_ok ha, bind_ok hb, bind_ok (mode_run hy), ← hr]
  rcases r with ⟨v, fl⟩
  dsimp only
  rw [bind_ok hf, bind_ok hw]
  exact ht

theorem floatUnary_ok {w : IWord} {d a : BitVec 8} {f : Fmt → Nat → Nat → Nat × Flags} {s s1 s2 s3 t : State} {x y : Thread} {A : Word}
    {r : Nat × Flags} (hx : s.thread s.cur = some x) (ha : Gives (readName w a) s A s1) (hy : s1.thread s1.cur = some y)
    (hr : r = f (precision x.latch.aux) (modeOf y.latch.rm (s1.slot s1.cur).tstat) (operand (precision x.latch.aux) A))
    (hf : Gives (raiseFlags r.2) s1 () s2) (hw : Gives (writeName w d (word r.1)) s2 () s3) (ht : Retires s3 t) :
    floatUnary w d a f s = .ok ((), t) := by
  unfold floatUnary
  rw [bind_ok (latch_run hx), bind_ok ha, bind_ok (mode_run hy), ← hr]
  rcases r with ⟨v, fl⟩
  dsimp only
  rw [bind_ok hf, bind_ok hw]
  exact ht

/-- A write marks recipes stale and changes nothing else of them. -/
theorem staled_reset (x : Thread) (n : Nat) :
    (x.staled n).map (fun p => (p.1, { p.2 with stale := false })) = x.recipes.map (fun p => (p.1, { p.2 with stale := false })) := by
  simp only [Thread.staled, List.map_map]
  apply List.map_congr_left
  intro p _
  simp only [Function.comp]
  split <;> rfl

/-- A unit that writes one resident name and ends changes nothing else. -/
theorem wrote_registersOnly {s : State} {x : Thread} {n : Nat} {v : Word} (hx : s.thread s.cur = some x) (pc : BitVec 55) :
    RegistersOnly s ((s.wrote x n v).goOn { x with recipes := x.staled n } pc) [n] := by
  refine ⟨x, _, hx, by simp [State.goOn, State.thread]; rfl, ?_, ?_, ?_, ?_, ?_, ?_, ?_, ?_⟩
  · rfl
  · intro c hc
    simp [State.goOn, State.setSlot, State.core_setCore_other _ _ _ _ hc, State.wrote]
  · simp [State.goOn, State.setSlot, State.wrote]
  · intro k hk
    have := hk n (by simp)
    simp [State.goOn, State.setSlot, State.wrote, findD_put_other _ _ _ _ _ this]
  · intro m hm
    simp only [State.goOn, State.wrote]
    rw [State.slot_setSlot_other _ _ _ _ (by simpa using hm)]
    rw [State.slot_setSlot_other _ _ _ _ (by simpa using hm)]
    exact slot_setCore_rf _ _ _ _
  · simp [State.goOn]
  · simp [Thread.endUnit]
  · exact staled_reset x n

end Sys2Proof.Machine
end

