-- ==== Sys2Proof/Tests/Slice0.lean ====
section
/-! SUPPORT. Tests: decoding of words written out from the encodings of the spec, ill-formed terms that are refused, small runs with
results worked out by hand from the spec, and for every statement with hypotheses a state and operands that meet them. A witness gives
the concrete state; where a statement's hypotheses are computations that follow one another, it shows that they go through in that
order (`goes_bind`). -/

set_option Elab.async false

namespace Sys2Proof.Tests

open Sys2Proof.Machine Sys2Proof.Statements

/-- A list of checks, each of which is met. -/
abbrev Met (l : List Bool) : Prop := l.all id = true

/-- A computation goes through. -/
def goes {α : Type} (m : M α) (s : State) : Bool :=
  match m s with
  | .ok _ => true
  | .error _ => false

/-- A computation goes through and its answer and state pass a check. -/
def gives {α : Type} (m : M α) (s : State) (check : α → State → Bool) : Bool :=
  match m s with
  | .ok (v, t) => check v t
  | .error _ => false

theorem goes_gives {α : Type} {m : M α} {s : State} (h : goes m s = true) : ∃ v t, Gives m s v t := by
  unfold goes at h
  split at h
  · exact ⟨_, _, by assumption⟩
  · cases h

theorem gives_gives {α : Type} {m : M α} {s : State} {check : α → State → Bool} (h : gives m s check = true) :
    ∃ v t, Gives m s v t ∧ check v t = true := by
  unfold gives at h
  split at h
  · exact ⟨_, _, by assumption, h⟩
  · cases h

theorem goes_bind {α β : Type} {m : M α} {f : α → M β} {s : State} (h : goes (m >>= f) s = true) :
    ∃ a t, Gives m s a t ∧ goes (f a) t = true := by
  obtain ⟨b, t, hb⟩ := goes_gives h
  obtain ⟨a, u, h1, h2⟩ := bind_inv hb
  exact ⟨a, u, h1, by simp [goes, h2]⟩

/-- A check of the state in the midst of a chain of computations. -/
def sure (check : State → Bool) : M Unit := do need (check (← getS))

/-- The thread at `cur` may issue an instruction. -/
def issues (i : Instr) (s : State) : Bool :=
  match s.thread s.cur with
  | some x => x.park.isNone && wellFormed i && accepts i x.latch && gives (judgeNames (wordOf i) i) s (fun _ t => decide (t = s))
  | none => false

theorem issues_sound {i : Instr} {s : State} (h : issues i s = true) : Issues i s := by
  unfold issues at h
  split at h
  · rename_i x hx
    simp only [Bool.and_eq_true, Option.isNone_iff_eq_none] at h
    obtain ⟨⟨⟨h1, h2⟩, h3⟩, h4⟩ := h
    obtain ⟨v, t, ht, he⟩ := gives_gives h4
    rw [of_decide_eq_true he] at ht
    exact ⟨x, hx, h1, h2, h3, ht⟩
  · cases h

/-- Nothing but registers stands in the way of the thread at `cur`, in a state with no poisoned register at all. -/
def plain (i : Instr) (s : State) : Bool :=
  match s.thread s.cur with
  | some x => issues i s && decide (x.role = .single) && s.errs.isEmpty && (s.core (coreOf s.cur)).rf.all (fun p => !p.2.poison) &&
    !(s.slot s.cur).composed && decide (x.pc.toNat + 4 < 2 ^ 55)
  | none => false

/-- A thread of context 1 in slot 0 of core 0, at 0x100000, with names 0 to 127 resident. -/
def base : State := State.reset.placeWord 0

/-- The thread of `base`. -/
def someone : Thread := newThread 0 1 0 none 0 128 0 0x100000

/-- A state with its thread at `cur` changed. -/
def with' (s : State) (f : Thread → Thread) : State := s.setSlot s.cur { s.slot s.cur with thread := (s.slot s.cur).thread.map f }

/-- A state with a resident name of its thread set. -/
def reg (s : State) (n : Nat) (v : Word) : State := s.setCore 0 { s.core 0 with rf := put (s.core 0).rf n { val := v } }

/-- A state whose first core maps the 64 KiB page of an address, by a leaf with every permission. `attr`: 0 PRIV, 1 RSHR, 2 COH. -/
def mapped (s : State) (page attr : Nat) : State := s.setCore 0 { s.core 0 with
  tlb := { ctx := 1, level := 3, page := page, leaf := setBits (setBits (setBits (setBits 0 62 55 8) 54 53 attr) 51 16 page) 3 0 15 } ::
    (s.core 0).tlb }

/-- A unit's prefix latch with an aux code. -/
def modded (aux : BitVec 5) (s : State) : State := with' s (fun x => { x with latch := { modf := 0#3 ++ 0#2 ++ 0#2 ++ 0#4 ++ aux ++ 0#8, nmod := 1 } })

/-- The result of a step that goes on. -/
def next (o : Host.Outcome State Fault Refusal) : State :=
  match o with
  | .next t => t
  | _ => {}

/-- A step that goes on. -/
def steps (o : Host.Outcome State Fault Refusal) : Bool :=
  match o with
  | .next _ => true
  | _ => false

/-- A value of a resident name after a step that goes on. -/
def value (o : Host.Outcome State Fault Refusal) (n : Nat) : Option Word :=
  match o with
  | .next t => some ((t.thread t.cur).elim 0 (fun x => t.resident x n))
  | _ => none

/-! Words of the tables and of the entries, written out (02 R24 to R26, R39; 04 to 15). -/

theorem test_decode_integer : Met [
    decodeWord 0x01040506 == .ok (.add 4 5 6), decodeWord 0x030405FF == .ok (.addi 4 5 0xFF),
    decodeWord 0x0A010203 == .ok (.remu 1 2 3), decodeWord 0x1B010203 == .ok (.sel 1 2 3),
    decodeWord 0x20040500 == .ok (.clz 4 5), decodeWord 0x2408FFFF == .ok (.ldi 8 0xFFFF),
    decodeWord 0x25080010 == .ok (.addpc 8 0x10), decodeWord 0x2F040520 == .ok (.sext 4 5 32)] := by decide +kernel

theorem test_decode_transfers : Met [
    decodeWord 0x26088000 == .ok (.bz 8 0x8000), decodeWord 0x2B08FFFC == .ok (.blez 8 0xFFFC),
    decodeWord 0x2CFFFFFE == .ok (.j 0xFFFFFE), decodeWord 0x2D000010 == .ok (.call 0x10),
    decodeWord 0x2EFF0700 == .ok (.jmpr 255 7)] := by decide +kernel

theorem test_decode_float_vector : Met [
    decodeWord 0x30040506 == .ok (.fadd 4 5 6), decodeWord 0x33040506 == .ok (.ffma 4 5 6),
    decodeWord 0x3D040510 == .ok (.fcvt 4 5 0x10), decodeWord 0x40040500 == .ok (.frint 4 5),
    decodeWord 0x41040506 == .ok (.ffms 4 5 6), decodeWord 0x50081018 == .ok (.vadd 8 16 24),
    decodeWord 0x5C081000 == .ok (.vsum 8 16), decodeWord 0x66081001 == .ok (.vld 8 16 1),
    decodeWord 0x68081004 == .ok (.vldn 8 16 4)] := by decide +kernel

theorem test_decode_memory : Met [
    decodeWord 0x80040500 == .ok (.ldb 4 5 0), decodeWord 0x86040501 == .ok (.ldw 4 5 1),
    decodeWord 0x8A0405FF == .ok (.stw 4 5 0xFF), decodeWord 0x8E040506 == .ok (.aadd 4 5 6),
    decodeWord 0x90040506 == .ok (.acas 4 5 6), decodeWord 0x93040500 == .ok (.hold 4 5),
    decodeWord 0x95000000 == .ok .fence, decodeWord 0x96000000 == .ok .fenceSib,
    decodeWord 0x9A000501 == .ok (.pref 5 1), decodeWord 0x9B000003 == .ok (.tick 3)] := by decide +kernel

theorem test_decode_others : Met [
    decodeWord 0xA0040506 == .ok (.bset 4 5 6), decodeWord 0xA2040500 == .ok (.binfo 4 5),
    decodeWord 0xB0800003 == .ok (.rcp 128 3), decodeWord 0xB1800000 == .ok (.rcpfree 128),
    decodeWord 0xC1000000 == .ok .exit, decodeWord 0xC204000F == .ok (.waitw 4 15),
    decodeWord 0xC4000000 == .ok .yield, decodeWord 0xD0040800 == .ok (.mm 4 8),
    decodeWord 0xD4040500 == .ok (.jwait 4 5), decodeWord 0xE0050011 == .ok (.sysr 5 0x11),
    decodeWord 0xE2000007 == .ok (.trap 7), decodeWord 0xE3000500 == .ok (.tret 5),
    decodeWord 0xFE00ABCD == .ok (.pfxImm 0xABCD)] := by decide +kernel

theorem test_decode_reserved : Met [
    decodeWord 0x00000000 == .error .reservedOpcode, decodeWord 0x42000000 == .error .reservedOpcode,
    decodeWord 0x69000000 == .error .reservedOpcode, decodeWord 0x9E000000 == .error .reservedOpcode,
    decodeWord 0xA3000000 == .error .reservedOpcode, decodeWord 0xE5000000 == .error .reservedOpcode,
    decodeWord 0x20040501 == .error .reservedField, decodeWord 0x95000001 == .error .reservedField,
    decode [6, 5, 4] == .error .short] := by decide +kernel

/-! Ill-formed terms that the checks of WellFormed refuse, beside a good one. -/

theorem test_illformed_names : Met [
    wellFormed (.add 4 5 6), !wellFormed (.add 253 5 6), !wellFormed (.add 252 5 6), !wellFormed (.add 200 5 6), !wellFormed (.add 4 251 6),
    !wellFormed (.add 4 5 246), wellFormed (.ldw 253 5 0), !wellFormed (.ldw 249 5 0), wellFormed (.stw 246 5 0),
    !wellFormed (.stw 251 5 0), !wellFormed (.sel 240 5 6), !wellFormed (.acas 255 5 6)] := by decide +kernel

theorem test_illformed_groups : Met [
    wellFormed (.vadd 8 16 24), !wellFormed (.vadd 12 16 24), !wellFormed (.vadd 8 16 240), !wellFormed (.vargmax 126 8 4),
    !wellFormed (.spawn 4 5 12)] := by decide +kernel

theorem test_illformed_fields : Met [
    wellFormed (.shli 4 5 63), !wellFormed (.shli 4 5 64), wellFormed (.sext 4 5 64), !wellFormed (.sext 4 5 0), !wellFormed (.sext 4 5 65),
    !wellFormed (.fcvt 4 5 0xC0), !wellFormed (.vcvt 8 16 0x80), wellFormed (.rcp 128 4), !wellFormed (.rcp 128 5),
    !wellFormed (.rcp 128 0), !wellFormed (.rcp 7 1), !wellFormed (.rcpfree 240)] := by decide +kernel

theorem test_illformed_units : Met [
    !wellFormed (.pageWalk 262144), !wellFormed (.recall (2 ^ 47) true), !wellFormed (.mergeWindowClose (2 ^ 44)),
    !wellFormed (.ownTimeRaise (.slice 768)), !wellFormed (.storageSweep (.bank 16384 0)), !wellFormed (.registerSweep (.reg 0 2048)),
    !wellFormed (.bankHandover 16384 0), !wellFormed (.tileStep 512 0 true true), !wellFormed (.publish 0 true 8),
    !wellFormed (.registerWrite (.portReg 64 0) 0)] := by decide +kernel

theorem test_illformed_word_traps : value (exec (.add 4 251 6) base) 4 = some 0 ∧
    (next (exec (.add 4 251 6) base)).slot 0 = { base.slot 0 with
      tcause := 2
      tvalue := 0x0104FB06
      tpc := 0x100000
      tstat := 0x10000000
      thread := some { someone with pc := 0 } } := by decide +kernel

theorem test_illformed_event_faults : exec (.pageWalk 262144) base = .fault .noSuchUnit := rfl

/-! Small runs. Their results are worked out by hand from the rules that they name. -/

/-- 04 R90: 2^64 - 1 + 2 wraps to 1; the destination may be a source. 04 R91: the rule's example. -/
theorem test_add_mulh : Met [
    value (exec (.add 4 4 5) (reg (reg base 4 (BitVec.allOnes 64)) 5 2)) 4 == some 1,
    value (exec (.mulh 4 5 5) (reg base 5 0x8000000000000000)) 4 == some 0x4000000000000000,
    value (exec (.mul 4 5 5) (reg base 5 0x8000000000000000)) 4 == some 0] := by decide +kernel

/-- 04 R92: the corners of the divides. -/
theorem test_divides : Met [
    value (exec (.div 4 5 6) (reg base 5 9)) 4 == some (BitVec.allOnes 64),
    value (exec (.rem 4 5 6) (reg base 5 9)) 4 == some 9,
    value (exec (.div 4 5 6) (reg (reg base 5 0x8000000000000000) 6 (BitVec.allOnes 64))) 4 == some 0x8000000000000000,
    value (exec (.rem 4 5 6) (reg (reg base 5 (-7)) 6 2)) 4 == some (-1)] := by decide +kernel

/-- 04 R93, R94, R97: an amount of 65 shifts by 1, SAR of -1 gives -1, and comparisons of either sign. -/
theorem test_shifts_compares : Met [
    value (exec (.shl 4 5 6) (reg (reg base 5 3) 6 65)) 4 == some 6,
    value (exec (.sar 4 5 6) (reg (reg base 5 (-1)) 6 63)) 4 == some (-1),
    value (exec (.slt 4 5 6) (reg base 5 (-1))) 4 == some 1, value (exec (.sltu 4 5 6) (reg base 5 (-1))) 4 == some 0,
    value (exec (.sext 4 5 8) (reg base 5 0x80)) 4 == some (-128)] := by decide +kernel

/-- 04 R96, R98, R99: bit counts, the mixer of zero, and the table of CVTU. -/
theorem test_counts_hash : Met [
    value (exec (.clz 4 5) base) 4 == some 64, value (exec (.popc 4 5) (reg base 5 (-1))) 4 == some 64,
    value (exec (.hash64 4 5 6) (reg base 4 7)) 4 == some 0,
    value (exec (.cvtu 4 5) (reg base 5 0x8000000000000000)) 4 == some 0x3F000001,
    value (exec (.cvtu 4 5) (reg base 5 (-1))) 4 == some 0x3F7FFFFF] := by decide +kernel

/-- 02 R35, R36: ANDI with 240 under one PFX.IMM of 0 keeps bits 7:4; the unprefixed field 0xF0 is -16. -/
theorem test_prefixed_immediate : Met [
    value (exec (.andi 4 5 0xF0) (next (exec (.pfxImm 0) (reg base 5 0x1FF)))) 4 == some 0xF0,
    value (exec (.andi 4 5 0xF0) (reg base 5 0x1FF)) 4 == some 0x1F0] := by decide +kernel

/-- 04 R102 to R104: a taken branch goes back by one unit of 4 bytes; CALL links g7 past its unit. -/
theorem test_transfers : Met [
    ((next (exec (.bz 4 0xFFFF) base)).thread 0).map (·.pc) == some 0xFFFFC,
    ((next (exec (.bnz 4 0xFFFF) base)).thread 0).map (·.pc) == some 0x100004,
    ((next (exec (.call 4) base)).thread 0).map (·.pc) == some 0x100010, value (exec (.call 4) base) 7 == some 0x100004,
    ((next (exec (.jmpr 7 7) (reg base 7 0x40))).thread 0).map (·.pc) == some 0x40,
    ((next (exec (.jmpr 7 7) (reg base 7 0x42))).slot 0).tvalue == 0x42,
    ((next (exec (.jmpr 128 7) (reg base 7 0x42))).slot 0).tvalue == 0x42 &&
      ((next (exec (.jmpr 128 7) (reg base 7 0x40))).slot 0).tcause == 2] := by decide +kernel

/-- 05 R111 to R116, in FP32: 1 + 2 = 3; 1 / 0 is infinity and raises dz; min of 0 and -0 is -0. -/
theorem test_floats : Met [
    value (exec (.fadd 4 5 6) (reg (reg base 5 0x3F800000) 6 0x40000000)) 4 == some 0x40400000,
    value (exec (.fdiv 4 5 6) (reg base 5 0x3F800000)) 4 == some 0x7F800000,
    value (exec (.fsqrt 4 5) (reg base 5 0x40800000)) 4 == some 0x40000000,
    value (exec (.fmin 4 5 6) (reg base 6 0x80000000)) 4 == some 0x80000000,
    value (exec (.ffma 4 5 6) (reg (reg (reg base 4 0x3F800000) 5 0x40000000) 6 0x40400000)) 4 == some 0x40E00000] := by decide +kernel

/-- 10 R233; 09 R217: a store and a load of its bytes through the store buffer of a PRIV page. -/
theorem test_store_load : value (exec (.ldbu 6 5 9) (next (exec (.stw 4 5 1) (reg (reg (mapped base 0x20 0) 5 0x200000) 4 0x8877)))) 6 =
    some 0x88 := by decide +kernel

/-- 10 R230: the alignment fault of a load and the access fault of a store. -/
theorem test_address_faults : Met [
    ((next (exec (.ldw 4 5 0) (reg base 5 0x200004))).slot 0).tcause == 4,
    ((next (exec (.stw 4 5 0) (reg base 5 0x80000000000000))).slot 0).tcause == 7] := by decide +kernel

/-- 15 R369, R372; 14 R345: TRAP 7 saves its cause, value and pc and sets prv; TRET with 1 goes past it; TRET in user mode is illegal. -/
theorem test_trap_return : Met [
    ((next (exec (.trap 7) base)).slot 0).tcause == 25, ((next (exec (.trap 7) base)).slot 0).tvalue == 7,
    ((next (exec (.trap 7) base)).slot 0).tpc == 0x100000, prv ((next (exec (.trap 7) base)).slot 0).tstat,
    ((next (exec (.tret 5) (reg (next (exec (.trap 7) base)) 5 1))).thread 0).map (·.pc) == some 0x100004,
    !prv ((next (exec (.tret 5) (reg (next (exec (.trap 7) base)) 5 1))).slot 0).tstat,
    ((next (exec (.tret 5) base)).slot 0).tcause == 2] := by decide +kernel

/-- 12 R284; 02 R32: the word that is placed is fetched and run by the next step. -/
theorem test_placed_word : value (step (State.reset.withFetchWord 32 0x24041234)) 4 = some 0x1234 := by decide +kernel

/-! Witnesses: integer, float and vector instructions. -/

/-- IntegerPairCompletes, IntegerOthersComplete: operands of every kind that its clauses speak of, at names 0 and 127. -/
theorem witness_integer : Met [
    issues (.add 127 0 255) base && goes (do
      let a ← readName (wordOf (.add 127 0 255)) 0
      let b ← readName (wordOf (.add 127 0 255)) 255
      writeName (wordOf (.add 127 0 255)) 127 (a + b)
      retire 1) base,
    issues (.addi 4 5 0x80) base && goes (do
      let a ← readName (wordOf (.addi 4 5 0x80)) 5
      writeName (wordOf (.addi 4 5 0x80)) 4 (a + assembled {} 8 0x80)
      retire 1) base,
    issues (.sel 4 5 6) base && goes (do
      let a ← readName (wordOf (.sel 4 5 6)) 5
      let b ← readName (wordOf (.sel 4 5 6)) 6
      let d ← readResident 4
      writeName (wordOf (.sel 4 5 6)) 4 (if d ≠ 0 then a else b)
      retire 1) base,
    issues (.ldi 4 0xFFFF) base && goes (do
      writeName (wordOf (.ldi 4 0xFFFF)) 4 (assembled {} 16 0xFFFF)
      retire 1) base,
    issues (.addpc 4 8) base && goes (do
      writeName (wordOf (.addpc 4 8)) 4 (0x100000 + assembled {} 16 8)
      retire 1) base] := by decide +kernel

/-- TransfersComplete: a branch that is taken and one that is not, J, CALL and JMPR, and an aligned target at the end of the space. -/
theorem witness_transfers : Met [
    issues (.bz 4 2) base && goes (readName (wordOf (.bz 4 2)) 4) base && goes (transfer (0x100000 + 4 * assembled {} 16 2)) base,
    issues (.bnz 4 2) base && goes (readName (wordOf (.bnz 4 2)) 4) base && goes (retire 1) base,
    goes (transfer (BitVec.ofNat 64 (2 ^ 55 - 4))) base && !(base.slot 0).composed && (bits (BitVec.ofNat 64 (2 ^ 55 - 4)) 1 0 == 0),
    issues (.j 2) base && goes (transfer (0x100000 + 4 * assembled {} 24 2)) base,
    issues (.call 2) base && goes (do
      writeResident 7 0x100004
      transfer (0x100000 + 4 * assembled {} 24 2)) base,
    issues (.jmpr 4 5) (reg base 5 0x40) && goes (do
      let t ← readName (wordOf (.jmpr 4 5)) 5
      writeName (wordOf (.jmpr 4 5)) 4 0x100004
      transfer t) (reg base 5 0x40)] := by decide +kernel

/-- IntegerFrame, FloatFrame, VectorFrame, UniformValues: resident names at both ends of a window of 128. -/
theorem witness_plain : Met [
    plain (.add 127 0 5) base, plain (.addi 127 0 5) base, plain (.fadd 127 0 5) base, plain (.fsqrt 127 0) base,
    plain (.ffma 127 0 5) base, plain (.fcvt 127 0 0x10) base, plain (.vadd 120 0 8) base, plain (.vand 120 0 8) base,
    [Instr.vlg2 120 0, .vex2 120 0, .vcmp 127 0 120, .vsel 120 0 127, .vbcast 120 0, .vhash 120 0 127, .vsum 127 0, .vmaxr 127 0, .vshf 120 0 8,
      .vcvt 120 0 0x10].all (fun i => plain i base && (vectorWrites base someone i).elim false (fun o => o.needs.all (· < 128))),
    plain (.vsum 127 0) (modded 3 base), plain (.vmaxr 127 0) (modded 3 base), plain (.vargmax 125 0 127) base,
    plain (.cvtu 127 0) base] := by decide +kernel

/-- FloatsComplete: with flags that are raised (1 / 0). -/
theorem witness_floats : Met [
    issues (.fdiv 4 5 6) (reg base 5 0x3F800000) && goes (do
      let a ← readName (wordOf (.fdiv 4 5 6)) 5
      let b ← readName (wordOf (.fdiv 4 5 6)) 6
      let r := Fmt.fp32.div 0 (operand Fmt.fp32 a) (operand Fmt.fp32 b)
      raiseFlags r.2
      writeName (wordOf (.fdiv 4 5 6)) 4 (word r.1)
      retire 1) (reg base 5 0x3F800000),
    issues (.fsqrt 4 5) base && goes (do
      let a ← readName (wordOf (.fsqrt 4 5)) 5
      let r := Fmt.fp32.sqrt 0 (operand Fmt.fp32 a)
      raiseFlags r.2
      writeName (wordOf (.fsqrt 4 5)) 4 (word r.1)
      retire 1) base,
    issues (.ffms 4 5 6) base && goes (do
      let a ← readName (wordOf (.ffms 4 5 6)) 5
      let b ← readName (wordOf (.ffms 4 5 6)) 6
      let c ← readName (wordOf (.ffms 4 5 6)) 4
      let r := Fmt.fp32.fma 0 (operand Fmt.fp32 a) (operand Fmt.fp32 b) (operand Fmt.fp32 c) true
      raiseFlags r.2
      writeName (wordOf (.ffms 4 5 6)) 4 (word r.1)
      retire 1) base,
    issues (.fcvt 4 5 0x10) base && goes (do
      let a ← readName (wordOf (.fcvt 4 5 0x10)) 5
      let r := fcvt 0 1 0 a
      raiseFlags r.2
      writeName (wordOf (.fcvt 4 5 0x10)) 4 r.1
      retire 1) base] := by decide +kernel

/-- VectorsComplete: groups at both ends of a window; a float and an integer reduction. -/
theorem witness_vectors : Met [
    issues (.vadd 120 0 8) base && goes (do
      let a ← readGroup (wordOf (.vadd 120 0 8)) 0
      let b ← readGroup (wordOf (.vadd 120 0 8)) 8
      let d ← readGroup (wordOf (.vadd 120 0 8)) 120
      let r := ((lanesOf 0 a).zip ((lanesOf 0 b).zip (lanesOf 0 d))).map (fun p => floatLane (fun f m x y _ => f.add m x y) 0 0 p.1 p.2.1 p.2.2)
      raiseFlags (r.foldl (fun g p => g ||| p.2) 0)
      writeGroup (wordOf (.vadd 120 0 8)) 120 (ofLanes 0 (r.map (·.1)))
      retire 1) base,
    issues (.vlg2 120 0) base && goes (do
      let _ ← readGroup (wordOf (.vlg2 120 0)) 0
      writeGroup (wordOf (.vlg2 120 0)) 120 (ofLanes 0 (List.replicate 16 0))
      retire 1) base,
    issues (.vand 120 0 8) base && issues (.vcmp 4 0 8) base && issues (.vsel 120 0 4) base && issues (.vbcast 120 4) base,
    issues (.vhash 120 4 5) base && issues (.vshf 120 0 8) base && issues (.vcvt 120 0 0x00) base,
    issues (.vsum 4 0) base && issues (.vmaxr 4 0) base && issues (.vargmax 125 0 4) base,
    issues (.vsum 4 0) (modded 3 base) && goes (do
      let a ← readGroup (wordOf (.vsum 4 0)) 0
      writeName (wordOf (.vsum 4 0)) 4 (BitVec.ofInt 64 (((lanesOf 3 a).map (laneInt 3)).sum))
      retire 1) (modded 3 base),
    issues (.vmaxr 4 0) (modded 3 base) && goes (readGroup (wordOf (.vmaxr 4 0)) 0) base && (lanesOf 3 (List.replicate 8 0)).contains 0,
    goes (do
      let _ ← readGroup (wordOf (.vargmax 125 0 4)) 0
      let _ ← readName (wordOf (.vargmax 125 0 4)) 4
      let _ ← readResident 125
      let _ ← readResident 127
      writeResidents 125 [1, 2, 3]
      retire 1) base] := by decide +kernel

/-- FloatFrame: the patterns of 1, -1 and 0 in FP32 and their values: sums, differences, products and quotients of two of them are zero and
are not, and square roots are of numbers above, at and below zero. -/
theorem witness_rounded : Met [
    decide (Fmt.fp32.read 0x3F800000 = .fin false 8388608 (-23)), decide (Fmt.fp32.read 0xBF800000 = .fin true 8388608 (-23)),
    decide (Fmt.fp32.read 0 = .fin false 0 (-149)), decide (Fmt.fp64.read 0 = .fin false 0 (-1074))] ∧
    ((valueOf (.fin false 8388608 (-23)) : ℚ) : ℝ) = 1 ∧ ((valueOf (.fin true 8388608 (-23)) : ℚ) : ℝ) = -1 ∧
    ((valueOf (.fin false 0 (-149)) : ℚ) : ℝ) = 0 := by
  refine ⟨by decide +kernel, ?_, ?_, ?_⟩ <;> norm_num [valueOf, zpow_neg]

/-! Witnesses: memory instructions. -/

/-- A line in the first core's L1 with every byte 0x11, exclusive. -/
def cached (s : State) (line : Nat) (attr : Attr) : State := s.setCore 0 { s.core 0 with
  l1 := put (s.core 0).l1 (l1Key line attr) { data := (0x1111111111111111111111111111111111111111111111111111111111111111 : LineData), excl := true } }

/-- A thread whose bank access has its reply. -/
def replied (s : State) (r : Reply) : State := with' s (fun x => { x with resume := { x.resume with reply := some r } })

/-- Name 5 holds an address of a page of attribute `attr` whose line the core's L1 holds. -/
def near (attr : Nat) : State :=
  cached (reg (mapped base 0x20 attr) 5 0x200000) 0x10000 (if attr = 0 then .priv else if attr = 1 then .rshr else .coh)

/-- Name 5 holds an address of a bank, and the reply is there. -/
def banked : State := replied (reg base 5 (BitVec.ofNat 64 apertureBase)) { value := 9 }

/-- Both lines of a block of an RSHR page have arrived. -/
def arrived : State := with' (near 1) (fun x => { x with resume := { x.resume with served := [
  { line := 0x10000, attr := .rshr, data := 1, poison := false, wts := 0, rts := 0 },
  { line := 0x10001, attr := .rshr, data := 2, poison := false, wts := 0, rts := 0 }] } })

/-- A translation of an address of the page. -/
def pageAt (kind : Nat) : M Page := translate 0x200000 kind

/-- LoadsAndStoresComplete: a load from a page to a name and to ldq, and from a bank; a store to a page and to a bank. -/
theorem witness_loads_stores : Met [
    issues (.ldbu 4 5 31) (near 0) && goes (do
      let a ← readOnce 0 (wordOf (.ldbu 4 5 31)) 5
      let ea := a + word 1 * assembled {} 8 31
      let p ← translate ea 0
      let v ← enterWord 1 ea (do
        let data ← loadLine someone ea p (maskOf (p.pa % 32) 1) 0 true
        return extendBytes 1 false (fromByte data (p.pa % 32)))
      deliver (wordOf (.ldbu 4 5 31)) 4 ea v
      retire 1) (near 0),
    issues (.ldw 253 5 0) (near 0) && goes (do
      let a ← readOnce 0 (wordOf (.ldw 253 5 0)) 5
      let p ← translate a 0
      appendLoad someone (wordOf (.ldw 253 5 0)) a p 8 false 0
      retire 1) (near 0),
    issues (.ldw 4 5 0) banked && inAperture (BitVec.ofNat 64 apertureBase) && goes (do
      let a ← readOnce 0 (wordOf (.ldw 4 5 0)) 5
      let (v, _) ← bankLoadOp ((banked.thread 0).getD someone) a (.load 8 false) { operands := [a], d := 4 }
      deliver (wordOf (.ldw 4 5 0)) 4 a v
      retire 1) banked,
    issues (.stw 4 5 0) (near 0) && goes (do
      let a ← readOnce 0 (wordOf (.stw 4 5 0)) 5
      let d ← readDataOnce 1 (wordOf (.stw 4 5 0)) 4
      let p ← storePage a 8
      storeEffect someone a p 8 [extendBytes 8 false d] 1
        (placeStore p (p.pa / 32) (maskOf (p.pa % 32) 8) (atByte (extendBytes 8 false d) (p.pa % 32)) 0)
      retire 1) (near 0),
    issues (.stw 4 5 0) banked && goes (do
      let a ← readOnce 0 (wordOf (.stw 4 5 0)) 5
      let d ← readDataOnce 1 (wordOf (.stw 4 5 0)) 4
      let _ ← bankEffect ((banked.thread 0).getD someone) a (.store 8) 21 (extendBytes 8 false d) [word 8] { operands := [a, d] }
      retire 1) banked] := by decide +kernel

/-- WideAndMarkedAccessesComplete. -/
theorem witness_wide_marked : Met [
    issues (.ldex 4 5 0) (near 2) && goes (do
      let a ← readName (wordOf (.ldex 4 5 0)) 5
      let p ← storePage a 8
      let v ← enterWord 1 a (do
        let (v, bad) ← loadExclusive someone a p 0
        if bad then abort (.consumed a (p.pa / 32)) else return v)
      writeName (wordOf (.ldex 4 5 0)) 4 v
      retire 1) (near 2),
    issues (.ldex 253 5 0) (near 2) && goes (do
      let a ← readName (wordOf (.ldex 253 5 0)) 5
      let p ← storePage a 8
      let (v, bad) ← loadExclusive someone a p 0
      deliver (wordOf (.ldex 253 5 0)) 253 a v bad
      retire 1) (near 2),
    issues (.ldex 4 5 0) (near 0) && goes (do
      let a ← readName (wordOf (.ldex 4 5 0)) 5
      let p ← storePage a 8
      let v ← enterWord 1 a (do return fromByte (← loadLine someone a p (maskOf (p.pa % 32) 8) 0 true) (p.pa % 32))
      writeName (wordOf (.ldex 4 5 0)) 4 v
      retire 1) (near 0),
    issues (.ldex 253 5 0) (near 0) && goes (do
      let a ← readName (wordOf (.ldex 253 5 0)) 5
      let p ← storePage a 8
      appendLoad someone (wordOf (.ldex 253 5 0)) a p 8 false 0
      retire 1) (near 0),
    issues (.lde 4 5 0) banked && goes (do
      let a ← readOnce 0 (wordOf (.lde 4 5 0)) 5
      let (v, _) ← bankLoadOp ((banked.thread 0).getD someone) a (.lde false) { operands := [a], d := 4 }
      deliver (wordOf (.lde 4 5 0)) 4 a v
      retire 1) banked,
    issues (.stf 4 5 0) banked && goes (do
      let a ← readOnce 0 (wordOf (.stf 4 5 0)) 5
      let d ← readDataOnce 1 (wordOf (.stf 4 5 0)) 4
      let _ ← bankEffect ((banked.thread 0).getD someone) a .stf 23 d [] { operands := [a, d] }
      retire 1) banked,
    issues (.vld 8 5 0) arrived && goes (do
      checkGroup (wordOf (.vld 8 5 0)) 8
      let a ← readOnce 0 (wordOf (.vld 8 5 0)) 5
      let vs ← loadBlock someone a 64 0
      writeGroup (wordOf (.vld 8 5 0)) 8 vs
      retire 1) arrived,
    issues (.vst 8 5 0) (near 0) && goes (do
      checkGroup (wordOf (.vst 8 5 0)) 8
      let a ← readOnce 0 (wordOf (.vst 8 5 0)) 5
      let vs ← readGroupOnce 1 (wordOf (.vst 8 5 0)) 8
      let p ← storePage a 64
      storeEffect someone a p 64 vs 2 (do
        placeStore p (p.pa / 32) fullMask (lineOfWords vs) 0
        placeStore p (p.pa / 32 + 1) fullMask (lineOfWords (vs.drop 4)) 0)
      retire 1) (near 0),
    issues (.vldn 8 5 6) (near 1) && goes (do
      checkGroup (wordOf (.vldn 8 5 6)) 8
      let _ ← readOnce 0 (wordOf (.vldn 8 5 6)) 5
      let _ ← readOnce 1 (wordOf (.vldn 8 5 6)) 6
      writeGroup (wordOf (.vldn 8 5 6)) 8 (ofLanes 0 (List.replicate 16 0))
      retire 1) (near 1),
    issues (.vldn 8 5 6) (reg arrived 6 3) && goes (do
      let a ← readOnce 0 (wordOf (.vldn 8 5 6)) 5
      loadBlock someone a 12 0) (reg arrived 6 3)] := by decide +kernel

/-- AtomicsComplete: the word of an atomic whose reply is there. -/
theorem witness_atomics : Met [
    issues (.aadd 4 5 6) (replied (near 2) { value := 7 }) && goes (do
      let a ← readOnce 0 (wordOf (.aadd 4 5 6)) 5
      let b ← readOnce 1 (wordOf (.aadd 4 5 6)) 6
      let (v, _) ← outward { kind := 24, addr := a, size := 8, data := b :: atomicCode .add } (do
        return (← performAtomic (((replied (near 2) { value := 7 }).thread 0).getD someone) a .add b { operands := [a, b], d := 4 }, []))
      writeName (wordOf (.aadd 4 5 6)) 4 v
      retire 1) (replied (near 2) { value := 7 }),
    issues (.acas 4 5 6) (near 2) && goes (do
      let a ← readOnce 0 (wordOf (.acas 4 5 6)) 5
      let b ← readOnce 1 (wordOf (.acas 4 5 6)) 6
      let _ ← storePage a 8
      let c ← readResidentOnce 2 4
      waitOlder
      let (v, _) ← outward { kind := 24, addr := a, size := 8, data := b :: atomicCode (.cas c) } (do
        return (← performAtomic someone a (.cas c) b { operands := [a, b, c], d := 4 }, []))
      writeName (wordOf (.acas 4 5 6)) 4 v
      retire 1) (near 2)] := by decide +kernel

/-- AtomicsPerformed: a held line, at the first and the last word of it. -/
theorem witness_near_atomic : Met [
    goes (nearAtomic 0 0x10000 0 .add 1 0x200000 { data := 5 }) (near 2),
    goes (nearAtomic 0 0x10000 24 .swap 1 0x200018 { data := 5 }) (near 2)] := by decide +kernel

/-- HoldsAndFencesComplete: TICK by 1 and by its greatest count within the room. -/
theorem witness_holds_fences : Met [
    issues (.hold 4 5) (near 2) && goes (do
      let a ← readOnce 0 (wordOf (.hold 4 5)) 5
      let p ← holdPage a
      let (v, _) ← outward { kind := 25, addr := a, size := 32, data := [] } (do return (← acquire (p.pa / 32) [a], []))
      writeName (wordOf (.hold 4 5)) 4 v
      retire 1) (near 2),
    issues (.unhold 4 5) (near 2) && goes (do
      let a ← readName (wordOf (.unhold 4 5)) 5
      let p ← holdPage a
      let (v, _) ← outward { kind := 26, addr := a, size := 32, data := [] } (do return (← release (p.pa / 32), []))
      writeName (wordOf (.unhold 4 5)) 4 v
      retire 1) (near 2),
    decide (0x10000 ∈ [0x10000]) && goes (acquire 0x10000 [5]) (with' base (fun x => { x with holds := [0x10000] })),
    goes (acquire 0x10002 [5]) (with' base (fun x => { x with holds := [0x10000, 0x10001] })),
    goes (release 0x10000) base && goes (release 0x10000) (with' base (fun x => { x with holds := [0x10000] })),
    decide (base.pendingStores 0 0 = []),
    issues .fence base && base.fenceDone 0 someone && goes (retire 1) base,
    issues .fenceSib base && base.earlyDone someone,
    issues (.tick 1) base && issues (.tick 0xFFFF) base && decide (0xFFFF ≤ (base.clock (.core 0)).room)] := by decide +kernel

/-- CacheInstructionsComplete: an empty range, a range of one line, and PREF and TSPROBE of a page in the TLB. -/
theorem witness_cache : Met [
    issues (.flushp 4 5 6) (near 0) && goes (do
      let _ ← readOnce 0 (wordOf (.flushp 4 5 6)) 5
      let _ ← readOnce 1 (wordOf (.flushp 4 5 6)) 6
      writeName (wordOf (.flushp 4 5 6)) 4 0
      retire 1) (near 0),
    issues (.invp 4 5 6) (reg (near 0) 6 32) && gives (rangeParts 0 (fun _ => 0) 18 0x200000 32) (reg (near 0) 6 32) (fun parts t =>
      decide (t.pendingStores 0 0 = []) && !t.flushing 0 ((parts.flatMap Part.lines).map (·.1)) && goes (do
        flushLine 0 0x10000
        l1Drop 0 0x10000 .priv
        writeName (wordOf (.invp 4 5 6)) 4 32
        retire 1) t),
    issues (.discard 4 5 6) (reg (near 0) 6 32) && gives (rangeParts 1 (fun p => if p.attr = .rshr then 0 else 1) 18 0x200000 32)
        (reg (near 0) 6 32) (fun parts t => (parts.flatMap Part.lines).all (fun l => !t.discardWaits l.1) && goes (do
          discardLine 0 0x10000 .priv
          writeName (wordOf (.discard 4 5 6)) 4 32
          retire 1) t),
    issues (.pref 5 0) (reg base 5 (BitVec.ofNat 64 apertureBase)) && issues (.pref 5 0) (reg base 5 (BitVec.ofNat 64 (2 ^ 55))),
    issues (.pref 5 0) (near 0) && (tlbFind ((near 0).core 0).tlb 1 0x200000).isSome,
    issues (.tsprobe 4 5) (near 2) && goes (do
      let a ← readName (wordOf (.tsprobe 4 5)) 5
      let p ← translate a 0
      let v ← enterWord 6 a (do return (← getS).probe (p.pa / 32))
      writeName (wordOf (.tsprobe 4 5)) 4 v
      retire 1) (near 2) && !(near 2).inRegion 0x200000 32] := by decide +kernel

/-- LoadFromL1Frame, StoreFrame: the first and last byte of a line; what the statements ask of the page and the buffer. -/
theorem witness_memory_frames : Met [
    plain (.ldbu 127 5 31) (near 0) && plain (.ldw 127 5 3) (near 1) && plain (.stb 127 5 31) (near 0) && plain (.stw 4 5 0) (near 2),
    (near 0).olderDone 0 someone && decide ((near 0).buffered 0 someone 0x10000 .priv (maskOf 31 1) (near 0).fresh = []),
    !(near 0).isMigratory 0 && (near 2).holdsExcl 0 0x10000 && !(near 2).inRegion 0x200000 8,
    plain (.ldw 4 5 3) (near 2) && goes (raise (.core 0) 0) (near 2) && atMost ((near 2).pts 0) 0 && decide (someone.resume = {}) &&
      decide ((near 2).buffered 0 someone 0x10000 .coh (maskOf 24 8) (near 2).fresh = []),
    goes (pageAt 0) (near 1) && goes (pageAt 1) (near 0) && goes (pageAt 1) (near 2)] := by decide +kernel

/-- AddressFaults: the first address outside the space, and one byte past an aligned one. -/
theorem witness_address_faults : Met [
    plain (.ldw 127 5 0) (reg base 5 (BitVec.ofNat 64 (2 ^ 55))) && outside (BitVec.ofNat 64 (2 ^ 55)),
    plain (.ldw 127 5 0) (reg base 5 (BitVec.ofNat 64 (2 ^ 55 - 1))) && !outside (BitVec.ofNat 64 (2 ^ 55 - 1)),
    plain (.stw 4 5 0) (reg base 5 (BitVec.ofNat 64 (2 ^ 55))) && plain (.sth 4 5 0) (reg base 5 1),
    !prv (base.slot 0).tstat] := by decide +kernel

/-- AddressFaults: every access at an address of a bank, of a page of each attribute, outside the space and misaligned. -/
theorem witness_access_faults : Met [
    [Instr.lde 4 5 0, .ldex 4 5 0, .stf 4 5 0, .vld 8 5 0, .vst 8 5 0, .hold 4 5, .unhold 4 5, .tsprobe 4 5, .ldro 4 5 0, .stb 4 5 0,
      .aadd 4 5 6, .acas 4 5 6].all (fun i => (accessOf i).isSome &&
      [base, near 0, near 1, near 2, reg base 5 (BitVec.ofNat 64 apertureBase), reg base 5 (BitVec.ofNat 64 (2 ^ 55)), reg base 5 1].all (plain i)),
    plain (.vldn 8 5 6) (reg (near 0) 6 1) && plain (.vldn 8 5 6) (reg base 5 1) && decide (someone.resume = {}),
    !permits 0x13 1 false && goes (pageAt 1) (near 1)] := by decide +kernel

/-- BankInstructionsComplete: an instruction with its reply, and an access that is sent to a bank of its own cluster. -/
theorem witness_bank_instructions : Met [
    issues (.bset 4 5 6) banked && issues (.bcomp 4 5 6) banked && issues (.binfo 4 5) banked,
    goes (do
      let a ← readOnce 0 (wordOf (.binfo 4 5)) 5
      let (v, _) ← bankEffect ((banked.thread 0).getD someone) a .binfo 42 0 [] { operands := [a], d := 4 }
      writeName (wordOf (.binfo 4 5)) 4 v
      retire 1) banked,
    goes (raisePts 0) banked,
    base.olderDone 0 someone && decide (clusterOf (bankOf (BitVec.ofNat 64 apertureBase) / 4) = clusterOf 0)] := by decide +kernel

/-! Witnesses: banks, prefixes, names, traps, system registers, recipes, engine and thread instructions. -/

/-- An operation of context 0 at bank 0. -/
def asks (kind : BankKind) (cls key : Nat) : BankOp :=
  { tid := 0, uid := 0, ctx := 0, ea := 0, bank := 0, cls := cls, key := key, byte := 0, kind := kind, v := 5, time := 0 }

/-- A state in which operation 1 waits at a bank. -/
def asked (op : BankOp) (b : Bank) : State := { base with
  bankOps := [(1, op)]
  banks := [(0, b)] }

/-- Operation 1 waits at its bank with a form; it is accepted or not. -/
def waits (s : State) (form : BankForm) (ok : Bool) : Bool :=
  match find s.bankOps 1 with
  | some op => op.reply.isNone && decide (s.formOf op = (form, ok)) && !(s.bank op.bank).waiting.any (fun q => q.op = 1)
  | none => false

/-- The conditions of AtBank for operation 1. -/
def atBank (s : State) (form : BankForm) : Bool :=
  match find s.bankOps 1 with
  | some op => waits s form true && !op.header && (s.bank op.bank).members.isEmpty && s.errs.isEmpty && !later (s.clock (.bank op.bank)).t op.time
  | none => false

/-- BankOperationsComplete: an accepted operation is performed and answered; LDE of a full, an absent and an empty granule. -/
theorem witness_bank_operations : Met [
    waits (asked (asks (.load 8 false) 0 0) {}) .load true && goes (do
      raise (.bank 0) 0
      let r ← performForm .load (asks (.load 8 false) 0 0) 1 0 [0] 0
      answerOp 1 r) (asked (asks (.load 8 false) 0 0) {}),
    waits (asked (asks (.lde true) 0 2) { pers := 1, full := [1] }) .lde true && granuleFull { pers := 1, full := [1] } 2 && goes (do
      let r ← performForm .lde (asks (.lde true) 0 2) 1 0 [0] 0
      answerOp 1 r) (asked (asks (.lde true) 0 2) { pers := 1, full := [1] }),
    waits (asked (asks (.lde true) 0 8192) { pers := 1 }) .lde true && goes (do
      let r ← performForm .lde (asks (.lde true) 0 8192) 1 0 [0] 0
      answerOp 1 r) (asked (asks (.lde true) 0 8192) { pers := 1 }),
    waits (asked (asks (.lde true) 0 8191) { pers := 1 }) .lde true && !granuleFull { pers := 1 } 8191 &&
      goes (raise (.bank 0) 0) (asked (asks (.lde true) 0 8191) { pers := 1 })] := by decide +kernel

/-- ArrayBanksAnswer: the last index within the capacity and the first beyond it. -/
theorem witness_array_banks : Met [
    atBank (asked (asks (.load 4 true) 0 8191) {}) .load, atBank (asked (asks (.store 4) 0 8191) {}) .store,
    atBank (asked (asks (.load 8 false) 1 8191) { pers := 1 }) .fullBit, atBank (asked (asks (.store 8) 1 0) { pers := 1, full := [0] }) .empty,
    atBank (asked (asks (.load 4 true) 0 8192) {}) .load, atBank (asked (asks (.store 4) 0 8192) {}) .store,
    atBank (asked (asks (.lde true) 0 3) { pers := 1, full := [1] }) .lde, atBank (asked (asks .stf 0 3) { pers := 1 }) .stf,
    atBank (asked (asks (.load 8 false) 1 8192) { pers := 1 }) .fullBit, atBank (asked (asks (.store 8) 1 8192) { pers := 1 }) .empty,
    atBank (asked (asks (.lde true) 0 8192) { pers := 1 }) .lde, atBank (asked (asks .stf 0 8192) { pers := 1 }) .stf] := by
  decide +kernel

/-- QueueStackAndHistBanksAnswer: empty, full and in between. -/
theorem witness_queue_hist_banks : Met [
    atBank (asked (asks (.store 8) 0 0) { pers := 2, cap := 2, count := 1, head := 1 }) .push,
    atBank (asked (asks (.store 8) 0 0) { pers := 3, cap := 2, count := 2 }) .push,
    atBank (asked (asks (.load 8 false) 0 0) { pers := 2, cap := 2 }) .pop,
    atBank (asked (asks (.load 8 false) 0 0) { pers := 2, cap := 2, count := 2, head := 1 }) .pop,
    atBank (asked (asks (.load 8 false) 0 0) { pers := 3, cap := 2, count := 2 }) .pop,
    atBank (asked (asks (.load 8 false) 1 0) { pers := 2, cap := 2, count := 1, head := 1 }) .peek,
    atBank (asked (asks (.load 8 false) 1 1) { pers := 3, cap := 2, count := 2 }) .count,
    atBank (asked (asks (.load 8 false) 1 0) { pers := 3, cap := 2, count := 1, head := 1 }) .peek,
    atBank (asked (asks (.load 8 false) 1 0) { pers := 3, cap := 2 }) .peek, atBank (asked (asks (.load 8 false) 1 2) { pers := 2, cap := 2 }) .peek,
    atBank (asked (asks (.load 8 false) 0 1) { pers := 6, cap := 2 }) .histRead,
    atBank (asked (asks (.store 8) 0 1) { pers := 6, cap := 2 }) .histAdd,
    atBank (asked (asks (.load 8 false) 1 1) { pers := 6, cap := 2 }) .histReadClear,
    atBank (asked (asks (.store 8) 1 1) { pers := 6, cap := 2 }) .histSet] := by decide +kernel

/-- MapAndHeapBanksAnswer: present and absent keys, room and none, and a heap whose least key comes twice. -/
theorem witness_map_heap_banks : Met [
    atBank (asked (asks (.load 8 false) 0 7) { pers := 4, cap := 1, live := [(7, { val := 1 })] }) .lookup,
    atBank (asked (asks (.load 8 false) 0 8) { pers := 4, cap := 1, live := [(7, { val := 1 })] }) .lookup,
    atBank (asked (asks (.store 8) 0 7) { pers := 4, cap := 1, live := [(7, { val := 1 })] }) .insert,
    atBank (asked (asks (.store 8) 0 8) { pers := 4, cap := 1, live := [(7, { val := 1 })] }) .insert,
    atBank (asked (asks (.load 8 false) 2 7) { pers := 4, cap := 1, live := [(7, { val := 1 })] }) .take,
    atBank (asked (asks (.load 8 false) 2 8) { pers := 4, cap := 1, live := [(7, { val := 1 })] }) .take,
    atBank (asked (asks (.load 8 false) 1 0) { pers := 5, cap := 3, heap := [(1, { val := 0x100000000 })] }) .peek,
    atBank (asked (asks (.load 8 false) 1 0) { pers := 5, cap := 3 }) .peek, atBank (asked (asks (.load 8 false) 1 2) { pers := 5, cap := 3 }) .peek,
    atBank (asked (asks (.load 8 false) 1 1) { pers := 5, cap := 3, heap := [(1, { val := 0 })] }) .count,
    atBank (asked (asks (.store 8) 2 7) { pers := 4, cap := 1, live := [(7, { val := 1 })] }) .delete,
    atBank (asked (asks (.store 8) 2 9) { pers := 4, cap := 1, live := [(7, { val := 1 })] }) .delete,
    atBank (asked (asks (.store 8) 0 0) { pers := 5, cap := 1 }) .heapInsert,
    atBank (asked (asks (.store 8) 0 0) { pers := 5, cap := 1, heap := [(1, { val := 0 })] }) .heapInsert,
    atBank (asked (asks (.load 8 false) 0 0) { pers := 5, cap := 3 }) .heapPop,
    atBank (asked (asks (.load 8 false) 0 0)
      { pers := 5, cap := 3, heap := [(1, { val := 0x100000000 }), (2, { val := 0x100000007 }), (3, { val := 0x200000000 })] }) .heapPop,
    ([(1, 0x100000000), (2, 0x100000007), (3, 0x200000000)] : List (Nat × Word)).all (fun e => e.1 == 1 ||
      decide (1 < bits e.2 63 32 ∨ (1 = bits e.2 63 32 ∧ 1 < e.1)))] := by decide +kernel

/-- A BSET with a word at a bank, of a form, as the statements on modes ask. -/
def setsAt (form : BankForm) (v : Word) (b : Bank) : Bool :=
  atBank (asked { asks .bset 0 0 with v := v } b) form && b.home.isNone && b.waiting.isEmpty && decide (bsetCap v ≤ maxCap (bsetPers v))

/-- Banks of each kind, with entries. -/
def filled : List Bank := [{ words := [(8191, { val := 1 })] }, { pers := 1, full := [3], words := [(6, { val := 1 })] },
  { pers := 2, cap := 2, count := 2, head := 1, words := [(0, { val := 1 }), (1, { val := 2 })] },
  { pers := 3, cap := 2, count := 1, words := [(0, { val := 1 })] }, { pers := 4, cap := 2, live := [(7, { val := 1 })], high := 1 },
  { pers := 5, cap := 2, heap := [(0, { val := 1 }), (1, { val := 1 })], high := 2 }, { pers := 6, cap := 2, words := [(1, { val := 1 })] }]

/-- BankConfigurationCompletes: KEEP, DRAIN and CLEAR of a bank of each kind, from and to the greatest capacities; what the clauses ask of
a QUEUE, a MAP and a HEAP; and a capacity beyond the greatest. -/
theorem witness_modes : Met [
    filled.all (fun b => setsAt .keep 0 b && setsAt .drain 0x48002 b && setsAt .clear 0xB2000 b),
    filled.all (fun b => decide ((b.pers = 2 ∨ b.pers = 3 → 0 < b.cap ∧ b.count ≤ b.cap) ∧ b.live.length ≤ b.cap ∧ b.heap.length ≤ b.high ∧
      b.high ≤ b.cap ∧ (b.live.map (·.1)).Nodup ∧ (b.heap.map (·.1)).Nodup) && b.heap.all (fun e => decide (e.1 < 2 ^ 64))),
    decide (maxCap (bsetPers 0x22000) < bsetCap 0x22000) && atBank (asked { asks .bset 0 0 with v := 0x22000 } {}) .keep] := by decide +kernel

/-- BankConfigurationCompletes: items with and without a key that each kind takes, and that it refuses for want of room or of a place. -/
theorem witness_items : Met [
    filled.all (fun b => (b.apply 0 { key := some 0, val := 5, poison := true }).isNone),
    [(0, 0), (1, 0), (3, 1), (6, 1)].all (fun p => (filled[p.1]?.bind (·.apply p.2 { key := none, val := 5, poison := false })).isSome),
    (filled[4]?.bind (·.apply 0 { key := some 8, val := 5, poison := false })).isSome &&
      (filled[4]?.bind (·.apply 0 { key := some (2 ^ 19), val := 5, poison := false })).isNone,
    (filled[0]?.bind (·.apply 0 { key := some 8192, val := 5, poison := false })).isNone &&
      (filled[2]?.bind (·.apply 0 { key := none, val := 5, poison := false })).isNone &&
      (filled[5]?.bind (·.apply 0 { key := none, val := 5, poison := false })).isNone] := by decide +kernel

/-- Two banks of a kind, which operation 1 is to join. -/
def joining (b : Bank) : State := { asked { asks .bcomp 0 0 with v := 0x8180 } b with banks := [(0, b), (1, b)] }

/-- BankConfigurationCompletes: two banks of each kind are joined; an entry of a MAP whose member is full. -/
theorem witness_compositions : Met [
    filled.all (fun b => waits (joining b) .compose true && decide (compMembers 0 0x8180 = [0, 1]) &&
      !(joining b).compBad { asks .bcomp 0 0 with v := 0x8180 } && b.waiting.isEmpty &&
      goes ([0, 1].forM (touch 0)) (joining b) && goes (compose { asks .bcomp 0 0 with v := 0x8180 }) (joining b)),
    filled.all (fun b => decide (b.count ≤ b.cap)) && decide ([0, 1].all (fun m => decide (((([0, 1].flatMap (fun _ => [7])).filter
      (fun k => mapMember [0, 1] k = m)).dedup).length ≤ 2))),
    decide (find ((joining { pers := 4 }).bank (mapMember [0, 1] 9)).live 9 = none) && gives (placeMap [0, 1] [(9, {}, false)] 0)
      (joining { pers := 4, cap := 0 }) (fun d _ => d = 1)] := by decide +kernel

/-- BankConfigurationCompletes: the modes of BSET, a composition, BINFO of an own and of another context's bank, and a
hand-over of a bank whose old owner runs nothing on its core. -/
theorem witness_bank_configuration : Met [
    waits (asked { asks .bset 0 0 with v := 2 } { pers := 2, cap := 2 }) .keep true && goes (do
      let r ← bsetWith { asks .bset 0 0 with v := 2 } true 0 (keepBank 0 [] [])
      answerOp 1 r) (asked { asks .bset 0 0 with v := 2 } { pers := 2, cap := 2 }),
    waits (asked { asks .bset 0 0 with v := 0x40002 } { pers := 2, cap := 2 }) .drain true && goes (do
      let r ← bsetWith { asks .bset 0 0 with v := 0x40002 } true 0 (drainBank 0)
      answerOp 1 r) (asked { asks .bset 0 0 with v := 0x40002 } { pers := 2, cap := 2 }),
    waits (asked { asks .bset 0 0 with v := 0x80002 } {}) .clear true && goes (do
      let r ← bsetWith { asks .bset 0 0 with v := 0x80002 } true 0 (clearBank 0)
      answerOp 1 r) (asked { asks .bset 0 0 with v := 0x80002 } {}),
    waits (joining {}) .compose true && goes (do
      let r ← compose { asks .bcomp 0 0 with v := 0x8180 }
      answerOp 1 r) (joining {}),
    atBank (asked (asks .binfo 0 0) {}) .info, waits (asked (asks .binfo 0 0) { owner := 3 }) .info false,
    [(BankKind.load 8 false, BankForm.load), (.store 8, .store), (.vload 8, .vector), (.vstore [], .vector), (.lde false, .lde), (.stf, .stf)].all
      (fun p => [({ owner := 3 } : Bank), { home := some 1 }, { pers := 7 }].all (fun b => waits (asked (asks p.1 0 0) b) p.2 false &&
        waits (asked { asks p.1 0 0 with header := true } b) p.2 false) &&
        (asked (asks p.1 0 0) { pers := 1 }).formOf (asks p.1 0 0) == (p.2, true)),
    goes (raise (.bank 0) 0) base,
    base.threads.all (fun p => p.2.ctx != (base.bank 0).owner) && goes (do
      meetHome 0
      answerLde 0 0
      leaveComposition 0 0) base] := by decide +kernel

/-- PrefixWordsComplete, IllegalUnitsTrap: units with none, one and two prefix words, and the last word of the space. -/
theorem witness_prefixes : Met [
    decide (someone.latch.nimm + someone.latch.nmod < 2), decide (someone.pc.toNat + 4 < 2 ^ 55),
    ((next (exec (.pfxImm 1) base)).thread 0).elim false (fun x => x.latch.nimm == 1 && x.park.isNone),
    ((next (exec (.pfxImm 1) (next (exec (.pfxImm 1) base)))).thread 0).elim false (fun x => x.latch.nimm == 2),
    ((with' base (fun x => { x with pc := BitVec.ofNat 55 (2 ^ 55 - 4) })).thread 0).elim false (fun x => decide (2 ^ 55 ≤ x.pc.toNat + 4)),
    ((next (exec (.pfxMod 0 0 0 0 0 0) base)).thread 0).elim false (fun x => x.latch.nmod == 1 && !accepts (.add 4 5 6) { x.latch with modf := 1 }),
    issues (.trap 0xFFFF) base && !sysUser 1 && !prv (base.slot 0).tstat && decide (someone.role = .single) && someone.park.isNone,
    !wellFormed (.vadd 12 16 24) && (encode (.vadd 12 16 24)).isSome] := by decide +kernel

/-- AssembledImmediates: the least and greatest fields, with no, one and two PFX.IMM. -/
theorem witness_immediates : Met [
    (assembled {} 8 0x80).toInt == -128, (assembled {} 8 0x7F).toInt == 127,
    (assembled { imm := 0xFFFFFF, nimm := 1 } 8 0).toInt == -256,
    (assembled { imm := 0x800000000001, nimm := 2 } 16 0xFFFF).toInt == -(2 ^ 63) + 2 ^ 17 - 1] := by decide +kernel

/-- A context's entry under which its threads own sh. -/
def owning : State := (base.setCore 0 { base.core 0 with table := [(0, { id := setBits (setBits 0 63 63 1) 11 0 1 })] }).setSlot 0 { base.slot 0 with
  own := setBits (setBits 0 63 63 1) 11 0 1 }

/-- An entry of the load-data queue with its value. -/
def ready : LdEntry := { iw := 0, ea := 0, line := 0, attr := .priv, lease := 1, size := 8, signed := false, val := some 3 }

/-- NamesRead, NamesWritten: names at both ends of the window, the special names, sh of an owning context, and a ready load. -/
theorem witness_names : Met [
    goes (readName 0 0) base && goes (readName 0 127) base && goes (readName 0 247) base && goes (readName 0 248) base &&
      goes (readName 0 254) base && goes (readName 0 255) base,
    owning.ownsShared 0 1 && goes (readName 0 240) owning && goes (readName 0 245) owning,
    goes (readName 0 253) (with' base (fun x => { x with ldq := [ready] })),
    goes (writeName 0 0 1) base && goes (writeName 0 127 1) base && goes (writeName 0 246 1) base && !goes (writeName 0 128 1) base &&
      !goes (writeName 0 239 1) base] := by decide +kernel

/-- The slots on both sides of the thread's hold threads of its owner; the forward cells before and after it hold words, or not. -/
def chained (full : List Nat) : State :=
  let s := (base.setSlot 63 { base.slot 63 with state := .home, owner := (base.slot 0).owner }).setSlot 1 { base.slot 1 with
    state := .home
    owner := (base.slot 0).owner }
  s.setCore 0 { s.core 0 with
    full := full
    cells := full.map (fun k => (k, { val := 7 })) }

/-- The thread's unit has read words. -/
def begun (ws : List Word) (s : State) : State := with' s (fun x => { x with resume := { x.resume with operands := some ws } })

/-- NamesRead: the forward cell before the first slot, usable or not, empty and full; a message of one word and of more; the queues of data,
empty or not; a unit that has read its words, in names and at the heads of queues. -/
theorem witness_queues_read : Met [
    !base.cellUsable 0 63 && (chained []).cellUsable 0 63 && !((chained []).core 0).full.contains 63 &&
      ((chained [63]).core 0).full.contains 63 && goes (readName 0 249) (chained [63]),
    (base.slot 0).inbox.isEmpty && [[1], [1, 2]].all (fun ws => goes (readName 0 252)
      (base.setSlot 0 { base.slot 0 with inbox := [{ words := ws, ctx := 1, job := 0, dst := 0, src := 0, srcUid := 0, time := 0 }] })),
    someone.ldq.isEmpty && someone.sdq.isEmpty && goes (readData 0 246) (with' base (fun x => { x with sdq := [(5, false), (6, true)] })) &&
      !goes (readName 0 253) (with' base (fun x => { x with ldq := [{ ready with val := none }] })),
    goes (readOnce 0 0 4) base && gives (readOnce 0 0 4) (begun [5] base) (fun v _ => v == 5) &&
      gives (readOnce 0 0 249) (begun [5] (chained [63])) (fun v t => v == 5 && !(t.core 0).full.contains 63) &&
      gives (readOnce 1 0 253) (begun [5, 6] (with' base (fun x => { x with ldq := [ready] }))) (fun v t =>
        v == 6 && (t.thread 0).elim false (·.ldq.isEmpty))] := by decide +kernel

/-- NamesWritten: the first and the last shared register, by an owner and by another; the forward cell to the next slot; a header that is
none, the first of several words of a message, and its last. -/
theorem witness_queues_written : Met [
    owning.ownsShared 0 1 && goes (writeName 0 240 1) owning && goes (writeName 0 245 1) owning && !base.ownsShared 0 1,
    !base.cellUsable 0 0 && (chained [0]).cellUsable 0 0 && ((chained [0]).core 0).full.contains 0 &&
      !((chained []).core 0).full.contains 0 && goes (writeName 0 250 1) (chained []),
    (base.slot 0).compose.isEmpty && decide (bits 0 61 57 = 0) && decide (bits 0x0400000000000000 61 57 = 2) &&
      goes (writeName 0 251 0x0400000000000000) base && base.olderDone 0 someone &&
      goes (writeName 0 251 9) (base.setSlot 0 { base.slot 0 with compose := [(0x0400000000000000, false)] })] := by decide +kernel

/-- A thread in trap mode. -/
def handler : State := base.setSlot 0 { base.slot 0 with tstat := setBits 0 28 28 1 }

/-- TrapsTaken, TrapReturns: user mode, and trap mode with each of TRET's four operands. -/
theorem witness_traps : Met [
    !prv (base.slot 0).tstat && decide (someone.role = .single) && prv (handler.slot 0).tstat &&
      goes (killThread 0 28 2 0x100000) (handler.logFault 0 someone { cause := 2, value := 0 }) &&
      goes (killOne 0 [1, 2, 3, 4] true) base && (base.partner 0).isNone && base.saved.isEmpty,
    issues (.tret 4) handler && prv (handler.slot 0).tstat && goes (readName (wordOf (.tret 4)) 4) handler,
    steps (exec (.tret 4) (reg handler 4 1)), steps (exec (.tret 4) (reg handler 4 2)), steps (exec (.tret 4) (reg handler 4 3)),
    goes (requestSave 0 1) (handler.returnTrap 0 someone false), goes (killThread 0 0 0 0) handler] := by decide +kernel

/-- A thread in trap mode, while a store of another thread of its context is on its way; g6 names the context. -/
def shooting : State := reg (handler.setCore 0 { handler.core 0 with
  buffer := [{ id := 7, uid := 9, ctx := 1, line := 0x10000, attr := .coh, mask := 1, data := 9 }] }) 6 0x0014000000000000

/-- SystemRegistersReadAndWritten, ShootdownDropsTranslations: with nothing on its way, and with a store on its way. -/
theorem witness_system : Met [
    issues (.sysr 4 0x11) base && steps (exec (.sysr 4 0x11) base) && issues (.sysw 4 1) handler && steps (exec (.sysw 4 1) handler),
    goes (writeSlotReg 0 7 (-1)) base && goes (writeSlotReg 0 0 (-1)) base && goes (writeSlotReg 0 3 (-1)) base,
    issues (.shoot 4 5 6) handler && decide (handler.pendingStores 0 0 = []) && gives flushThread handler (fun _ t =>
      t.quietUnder 0 && goes checkNext t && goes (do
        let n ← shootDown 0 0
        writeName (wordOf (.shoot 4 5 6)) 4 (word (min n 0xFFFFFFFF))
        retire 1) t),
    issues (.shoot 4 5 6) shooting && decide (shooting.pendingStores 0 0 = []) && gives flushThread shooting (fun _ t =>
      !t.quietUnder 0x0014000000000000 && goes checkNext t && goes (shootDown 0 0x0014000000000000) t)] := by decide +kernel

/-- A thread with a recipe of one ADDI, in name 128, fresh or stale. -/
def formula (stale : Bool) : State := with' base (fun x => { x with recipes := [(128, { rm := 0, stale := stale, body :=
  [{ px := false, hi := 0, iw := wordOf (.addi 4 5 1), poison := false }] })] })

/-- The thread has had a turn for a replay's step. -/
def turns (s : State) : State := with' s (fun x => { x with resume := { x.resume with turns := 1 } })

/-- The next words are instructions `ADDI 128, 5, 1`. -/
def recording : State := { base with mem := (numbers 0 4).flatMap (fun k =>
  [(0x100004 + 4 * k, 1), (0x100005 + 4 * k, 5), (0x100006 + 4 * k, 0x80), (0x100007 + 4 * k, 3)]) }

/-- The thread's recipes have taken every step that it may have. -/
def crowded : State := with' recording (fun x => { x with
  recipes := [(129, { rm := 0, stale := false, body := List.replicate 520 { px := false, hi := 0, iw := wordOf (.addi 4 5 1), poison := false } })] })

/-- An RCP has fetched `n` words of its body. -/
def fetching (n : Nat) (s : State) : State := with' s (fun x => { x with resume := { x.resume with
  body := some (List.replicate n 0x03800501) } })

/-- RecipesFormedAndReplayed: the least and greatest formula names; a formula whose thread has had a turn and one whose has not; a body's
first word, and the last of four units with room and of one with none. -/
theorem witness_recipes : Met [
    issues (.rcp 128 1) base && issues (.rcp 239 4) base && issues (.rcpfree 128) (formula false) && issues (.rcpfree 239) base &&
      issues (.rcpq 4 128) (formula true),
    goes (readName 0 128) (turns (formula false)) && !goes (readName 0 128) (formula false) && !goes (readName 0 128) (turns (formula true)) &&
      !goes (readName 0 239) base,
    goes (do
      writeName 0 4 (recipeWord none 0 0)
      retire 1) base,
    issues (.rcp 128 4) (fetching 0 recording) && gives (fetchBody 0x100000 1) (fetching 0 recording) (fun w t =>
      decide (unitsOf 4 [w] = none) && (t.thread 0).isSome),
    issues (.rcp 128 4) (fetching 3 recording) && gives (fetchBody 0x100000 4) (fetching 3 recording) (fun w t =>
      (unitsOf 4 (List.replicate 3 0x03800501 ++ [w])).elim false (fun us => decide (firstBreach 128 128 false us = none ∧ t.errs = [])) &&
      decide (4 ≤ t.freeSteps 0 someone) && goes (retire 5) t),
    gives (fetchBody 0x100000 1) (fetching 0 crowded) (fun w t =>
      (unitsOf 1 [w]).elim false (fun us => decide (firstBreach 128 128 false us = none ∧ t.errs = [])) &&
      (t.thread 0).elim false (fun x => decide (t.freeSteps 0 { x with recipes := del x.recipes 128 } < 1)) && goes (retire 2) t)] := by
  decide +kernel

/-- RecipesFormedAndReplayed: units of one, two and three words, a second load, and one unit that breaks the rule; RCP of a resident name, a
body whose word is none, and one that reaches the end of the space. -/
theorem witness_bodies : Met [
    [(⟨[], 0x03800501⟩ : BodyUnit), ⟨[0xFE000001], 0x03800501⟩, ⟨[0xFE000001, 0xFF000000], 0⟩, ⟨[0xFF000000], 0xFF000000⟩].all (fun u =>
      decide (unitsOf 1 (u.pre ++ [u.last]) = some [u])),
    unitOk 128 128 ⟨[], 0x03800501⟩ && !unitOk 128 128 ⟨[], 0⟩ &&
      decide (firstBreach 128 128 false [⟨[], 0x86800500⟩, ⟨[0xFE000001], 0x86800500⟩] = some 0xFE000001),
    issues (.rcp 127 1) base && !wellFormed (.rcp 7 1) && !wellFormed (.rcp 240 1) && !wellFormed (.rcp 128 0) && !wellFormed (.rcp 128 5),
    gives (fetchBody 0x100000 1) (fetching 0 base) (fun w t => (unitsOf 1 [w]).elim false (fun us =>
      decide (firstBreach 128 128 false us = some 0)) && (t.thread 0).isSome),
    match fetchAt (word (2 ^ 55)) (with' (fetching 0 base) (fun x => { x with pc := BitVec.ofNat 55 (2 ^ 55 - 4) })) with
      | .error (.trap f) => f.cause == 1
      | _ => false] := by decide +kernel

/-- The step of an instruction without prefix words. -/
def stepWith (i : Instr) : RecipeStep := { px := false, hi := 0, iw := wordOf i, poison := false }

/-- RecipesFormedAndReplayed: a step of each shape, of the least and greatest resident names, tid, zr and the running value; with a turn and
without one. -/
theorem witness_replays : Met [
    [Instr.sub 128 0 127, .addi 128 128 255, .ldi 128 0xFFFF, .fmul 128 247 255, .ffma 128 0 128, .fcvt 128 128 0x10].all (fun i =>
      decodeWord (wordOf i) == .ok i && (stepResult i {} 0 5 (fun _ => 1)).isSome &&
      (sources i).all (fun n => decide (n.toNat = 128 ∨ n.toNat < 128 ∨ n = 247#8 ∨ n = 255#8)) &&
      goes (replaySteps 128 0 0 [stepWith i] 5 0) (turns base) && !goes (replaySteps 128 0 0 [stepWith i] 5 0) base)] := by decide +kernel

/-- RecipesFormedAndReplayed: a load step out of range, misaligned, in the aperture, of a page without a translation, of one without the
permission and of one that is not RSHR, and of a line in the L1. -/
theorem witness_replay_loads : Met [
    decodeWord (wordOf (.ldw 128 5 0)) == .ok (.ldw 128 5 0) && (loadOf (.ldw 128 5 0)).isSome,
    outside (BitVec.ofNat 64 (2 ^ 55)) && !outside 0x200001 && !inAperture 0x200000 && !outside (BitVec.ofNat 64 apertureBase) &&
      inAperture (BitVec.ofNat 64 apertureBase) && decide (apertureBase % 8 = 0),
    decide (tlbFind (base.core 0).tlb 1 0x200000 = none) && decide (tlbFind (base.cluster 0).tlb 1 0x200000 = none),
    !permits 0x11 0 true, goes (pageAt 0) (near 0) && goes (pageAt 0) (near 1),
    (near 1).olderDone 0 someone && decide ((near 1).buffered 0 someone 0x10000 .rshr (maskOf 0 8) (near 1).fresh = []) &&
      gives (replaySteps 128 0 0 [stepWith (.ldw 128 5 0)] 5 0) (turns (near 1)) (fun v _ => v.1 == 0x1111111111111111) &&
      !goes (replaySteps 128 0 0 [stepWith (.ldw 128 5 0)] 5 0) (near 1)] := by decide +kernel

/-- Core 0's status table holds the thread's job 3, ended or not. -/
def withJob (ended : Option (Word × Stamp)) : State := base.setCore 0 { base.core 0 with
  status := [{ jid := 3, ctx := 1, launch := 0, keep := false, ended := ended }] }

/-- EngineInstructionsComplete: a command with its answer, and one that has none yet; a JWAIT that parks, that frees its entry, and that has
its answer; jobs that ended, run, and are not there. -/
theorem witness_engine_instructions : Met [
    issues (.mm 4 8) (replied base { value := 9 }) && issues (.mms 4 8) (replied base {}) && issues (.cpy 4 8) (replied base {}) &&
      issues (.coll 4 8) (replied base {}),
    goes (do
      let _ ← readGroup (wordOf (.mm 4 8)) 8
      waitOlder
      raisePts 0
      writeName (wordOf (.mm 4 8)) 4 9
      retire 1) (replied base { value := 9 }),
    gives (do
      let _ ← readGroupOnce 0 (wordOf (.cpy 4 8)) 8
      waitOlder) base (fun _ t => (t.thread 0).elim false (fun y => y.resume.reply.isNone && y.role == .single)) &&
      decide (someone.resume.entered = []) && decide (someone.pc.toNat + 4 < 2 ^ 55),
    goes (jobWord true 3) (withJob none) == false && goes (jobWord true 3) (withJob (some (7, 0))) &&
      goes (jobWord true 3) (replied (withJob (some (7, 0))) { value := 7 }),
    issues (.jwait 4 5) base && goes (enterWord 44 0 (jobWord true 0)) base && issues (.jpoll 4 5) base && goes (enterWord 45 0 (jobWord false 0)) base,
    goes (jobWord false 3) (base.setCore 0 { base.core 0 with status := [{ jid := 3, ctx := 1, launch := 0, keep := false }] }),
    goes (jobWord false 3) (base.setCore 0 { base.core 0 with
      status := [{ jid := 3, ctx := 1, launch := 0, keep := false, ended := some (7, 0) }] })] := by decide +kernel

/-- ThreadInstructionsComplete: what the sideboard answers; a WAITW that waits and one that is turned away; a BARRIER's arrival. -/
theorem witness_thread_instructions : Met [
    issues (.spawn 4 5 8) base && issues (.post 4 5 8) base && issues (.launch 4 5) base && issues (.lwait 4 5) base &&
      issues (.cancel 4 5) base && issues (.epbind 4 5) base && issues (.migr 4 5) (replied base {}),
    issues .exit base && goes waitStores base && goes (do
      leave 0 .exit
      freeSlots 0 someone) base,
    issues .yield base && goes (do
      retire 1
      requestSave 0 2) base,
    issues (.waitw 4 0x8000) base && decide ((base.stage 0 15).launch = someone.launch),
    issues (.waitw 4 1) (base.setStage 0 0 { launch := 9 }) && decide (((base.setStage 0 0 { launch := 9 }).stage 0 0).launch ≠ someone.launch) &&
      issues (.waitw 4 0) base && goes (do
        denied 0
        writeName (wordOf (.waitw 4 0)) 4 0
        retire 1) base,
    issues (.barrier 4) base && goes waitOlder base && goes (report 0 0 3 0 0) (base.setSlot 0 { base.slot 0 with thread := some { someone with
      park := some (.barrier 4)
      resume := { operands := some [], flags := 0 } } }),
    goes (migrTarget someone (BitVec.ofNat 64 apertureBase)) (reg base 5 (BitVec.ofNat 64 apertureBase))] := by decide +kernel

/-! Witnesses: events of the caches, the homes, the times and the sweeps. -/

/-- The thread of `base` parked. -/
def parked (w : Wait) : State := with' base (fun x => { x with park := some w })

/-- An answer of a home. -/
def answered : Served := { line := 0x10000, attr := .coh, data := 3, poison := false, wts := 0, rts := 8 }

/-- A thread that waits for the first word of a line. -/
def loading (attr : Attr) (r : Option Served) : State := parked (.line 0x200000 0x10000 attr 8 false 0 (maskOf 0 8) r false)

/-- The line that it waits for. -/
def wanted (s : State) : Waiting := (s.waitingLoad 0 0).getD
  { ea := 0, line := 0, attr := .priv, lease := 0, ch := 0, mask := 0, seq := 0, older := false, reply := none }

/-- A shared copy of the line, whose lease has passed, with a write stamp. -/
def expired (w : Stamp) (s : State) : State := (s.setCore 0 { s.core 0 with
  l1 := [(l1Key 0x10000 .coh, { data := 5, wts := w, rts := 1 })] }).setClock (.core 0) { t := 2 }

/-- LoadsAreServed: a COH read by a core without a copy, and by one whose copy has the line's write and one whose copy has not. -/
theorem witness_coh_read : [loading .coh none, expired 0 (loading .coh none), expired 1 (loading .coh none)].all (fun s =>
    (s.waitingLoad 0 0).isSome && decide (s.ownerAt 0x10000 = none) && (s.queueAt 0x10000).isEmpty &&
      !s.usable 0 0x10000 && gives (l1Read 0 0x10000 .coh) s (fun _ t => goes (do
        raise (.slice (sliceOf 0x10000)) 0
        fillHome 0x10000 true
        setStamps 0x10000 0 8
        setReply 0 0 (some answered)) t)) = true := by decide +kernel

/-- LoadsAreServed: a load whose line is in the L1; one whose answer's lease is good; one whose lease has passed, and a renewal of a copy
that is gone; an RSHR line that nothing holds. -/
theorem witness_load_reply : Met [
    gives (performLoad 0 0x10000 .priv (maskOf 0 8) 0 true) (cached (loading .priv none) 0x10000 .priv) (fun f t => match f with
      | .got v => goes (finishLoad 0 0 (wanted t) v) t
      | _ => false),
    gives (performLoad 0 0x10000 .coh (maskOf 0 8) 0 true) (loading .coh (some answered)) (fun f t => decide (f = .miss) &&
      atMost (t.pts 0) answered.rts && decide (answered.renewed none = some answered) && goes (do
        raise (.core 0) 0
        l1Place 0 0x10000 .coh { data := 3, rts := 8 }
        finishLoad 0 0 (wanted t) answered) t),
    !atMost (((loading .coh (some answered)).setClock (.core 0) { t := 9 }).pts 0) answered.rts &&
      decide ({ answered with renew := some 1 }.renewed none = none) && goes (setReply 0 0 none) (loading .coh (some answered)),
    gives (performLoad 0 0x10000 .rshr (maskOf 0 8) 0 true) (loading .rshr none) (fun f t => decide (f = .miss) && goes (do
      fillHome 0x10000 false
      l1Place 0 0x10000 .rshr { data := 3 }
      finishLoad 0 0 (wanted t) answered) t)] := by decide +kernel

/-- A root table whose first entry is a leaf of 4 TiB. -/
def tabled : State := { parked (.walk 0x200000 0 none) with mem := [(0, 3)] }

/-- The thread of `base` parked, with a reply. -/
def answeredIn (w : Wait) : State := replied (parked w) { value := 3 }

/-- Thirty-two threads of core 0 wait for pages that the cluster's walks have taken up, and the thread of `base` for one more. -/
def walking : State :=
  let s := (numbers 1 32).foldl (fun s t => s.setSlot t { s.slot t with
    state := .home
    owner := some 1
    thread := some { someone with
      uid := t
      home := t
      park := some (.walk (BitVec.ofNat 64 (2 ^ 16 * t)) 0 none) } }) (parked (.walk 0x300000 0 none))
  s.setCluster 0 { s.cluster 0 with walks := (numbers 1 32).map (fun t => (1, t)) ++ [(1, 0x30)] }

/-- WalksAndWaitsEnd: a walk that 32 others come before. -/
theorem witness_many_walks : Met [
    decide (32 ≤ ((walking.liveWalks 0).takeWhile (fun w => w != (1, 0x30))).length), !walking.walkTurn 0 1 0x30,
    tabled.walkTurn 0 1 0x20] := by decide +kernel

/-- An engine's miss, which waits for its walk or whose walk has found no page. -/
def engineMiss (ended : Option Bool) : EngineMiss := { ctx := 1, page := 0x30, copy := false, jid := 9, ended := ended }

/-- WalksAndWaitsEnd: a miss of an engine that 32 walks come before; the first miss of a cluster; one whose walk has found no page; a walk
that such a miss has joined. -/
theorem witness_engine_misses : Met [
    ((walking.cluster 0).asked.all (fun n => n.ended.isNone)) && decide (tlbFind (walking.cluster 0).tlb 1 0x300000 = none) &&
      !goes (engineXlat 0 1 0x300000 0 (false, 9)) walking,
    (base.cluster 0).walks.isEmpty && (base.cluster 0).asked.isEmpty && !goes (abort (.miss 0 (engineMiss none)) : M Unit) base,
    gives (engineXlat 0 1 0x300000 0 (false, 9)) (base.setCluster 0 { base.cluster 0 with asked := [engineMiss (some false)] })
      (fun r t => decide (r = .page) && (t.cluster 0).asked.isEmpty),
    steps (exec (.pageWalk 0) (tabled.setCluster 0 { tabled.cluster 0 with asked := [{ engineMiss none with page := 0x20 }] }))] := by
  decide +kernel

/-- WalksAndWaitsEnd: a walk that finds a leaf, one that finds none; a condition that holds; a released BARRIER and a SHOOT that waits for
nothing more; and a bank's reply. -/
theorem witness_walks_waits : Met [
    gives (walk ((tabled.rootOf 0 1)) 0x200000) tabled (fun r t => decide (r = .leaf 1 3) && (t.thread 0).isSome),
    gives (walk ((tabled.rootOf 0 1)) 0x200000) (parked (.walk 0x200000 0 none)) (fun r t => decide (r = .absent) &&
      decide ((parked (.walk 0x200000 0 none)).misses 0 1 3 0x20 = [(0, 0x200000, 0, none)]) &&
      goes (settle 0 (.trap { cause := 13, value := 0x200000 })) t),
    (parked .stores).conditionHolds 0 { someone with park := some .stores } .stores,
    ((answeredIn (.barrier 4)).thread 0).elim false (fun x => x.park == some (.barrier 4) && x.resume.reply.isSome) && goes (do
      raisePts 0
      writeName (wordOf (.barrier 4)) 4 3
      retire 1) (with' (answeredIn (.barrier 4)) (fun x => { x with park := none })),
    (answeredIn (.shoot (wordOf (.shoot 4 5 6)) 0 [] [] [])).landed [] [] [] && goes (do
      writeName (wordOf (.shoot 4 5 6)) 4 3
      retire 1) (with' (answeredIn (.shoot (wordOf (.shoot 4 5 6)) 0 [] [] [])) (fun x => { x with park := none })),
    decide (({ parked (.bank 1) with bankOps := [(1, { asks .binfo 0 0 with reply := some {} })] } : State).byUid 0 =
      some (0, { someone with park := some (.bank 1) }))] := by decide +kernel

/-- A COH line whose only copy core 0 has. -/
def owned : State := { cached base 0x10000 .coh with l2 := [(0x10000, { data := some 5, tag := some (0, 0), owner := some 0 })] }

/-- A COH line at its home that no core owns. -/
def unowned : State := { parked (.hold 0x10000) with l2 := [(0x10000, { data := some 5, tag := some (0, 0) })] }

/-- Another core asks for the line: for its data (`keep`) or for itself. -/
def wants (keep : Bool) : State := owned.setSlot 64 { owned.slot 64 with
  state := .home
  owner := some 1
  thread := some { newThread 1 1 0 none 0 128 64 0x100000 with
    park := some (if keep then .line 0x200000 0x10000 .coh 8 false 0 (maskOf 0 8) none false else .hold 0x10000) } }

/-- ExclusivePermissionMoves: a line that is asked for by a core without a copy, and by one whose copy is its data; and one that is taken
back for a read, and for another core. -/
theorem witness_exclusive : Met [
    unowned.wantsExcl 0 0x10000 true && (unowned.ownerAt 0x10000).isNone && (unowned.queueAt 0x10000).isEmpty && unowned.errs.isEmpty &&
      !later (unowned.clock (.slice (sliceOf 0x10000))).t (unowned.pts 0) &&
      decide (((unowned.core 0).l1Set 0x10000 (l1Key 0x10000 .coh)).length < 20),
    gives (raise (.slice (sliceOf 0x10000)) 0) unowned (fun _ t => gives (fillHome 0x10000 true) t (fun _ t => t.atHome 0x10000 && goes (do
      let _ ← l1Read 0 0x10000 .coh
      l1Place 0 0x10000 .coh { data := (t.homeLine 0x10000).1, excl := true }
      wakeExcl 0 0x10000) t)),
    (find ((expired 0 unowned).core 0).l1 (l1Key 0x10000 .coh)).elim false (fun y => y.wts == 0) &&
      steps (exec (.exclusiveRequest 0 0x10000) (expired 0 unowned)),
    (wants true).recallServes 0 0x10000 true && steps (exec (.recall 0x10000 true) (wants true)),
    (wants false).recallServes 0 0x10000 false && steps (exec (.recall 0x10000 false) (wants false))] := by decide +kernel

/-- A store of the first and the last byte of a line, in core 0's buffer. -/
def entry (attr : Attr) : StEntry := { id := 7, uid := 0, ctx := 1, line := 0x10000, attr := attr, mask := 0x80000001, data := 9 }

/-- A state with a store in the buffer. -/
def storing (s : State) (attr : Attr) : State := s.setCore 0 { s.core 0 with buffer := [entry attr] }

/-- StoresArePerformed: a COH store with its line held exclusively, a PRIV store with and without a copy of its line, and a write-back to
a home that has the line and to one that has not. -/
theorem witness_stores_performed : Met [
    (find ((storing owned .coh).core 0).l1 (l1Key 0x10000 .coh)).elim false (·.excl) && goes (raise (.core 0) 1) (storing owned .coh) &&
      steps (exec (.storeTimestamp 0 7) (storing owned .coh)),
    goes (privWrite 0 0x10000 0x80000001 9 false 0) (storing base .priv) && steps (exec (.privStoreEntersL1 0 7) (storing base .priv)),
    (find ((storing (cached base 0x10000 .priv) .priv).core 0).l1 (l1Key 0x10000 .priv)).isSome,
    goes (homeWrite 0x10000 0x80000001 9 false) base && steps (exec (.writeBack 3) { owned with
      wbs := [(3, { line := 0x10000, toMemory := false, core := 0, mask := 1, data := 2, poison := false })] })] := by decide +kernel

/-- FarAtomicCompletes: a word of a line that no core owns. -/
theorem witness_far_atomic : Met [
    ((parked (.atomic .add 5 0x10000 24 false)).ownerAt 0x10000).isNone && ((parked (.atomic .add 5 0x10000 24 false)).queueAt 0x10000).isEmpty,
    gives (do
      raise (.slice (sliceOf 0x10000)) 0
      fillHome 0x10000 true) (parked (.atomic .add 5 0x10000 24 false)) (fun _ t => !(t.homeLine 0x10000).2 && goes (do
        writeAsked 0x10000 (maskOf 24 8) (atByte (atomicWord .add (fromByte (t.homeLine 0x10000).1 24) 5) 24)
        setStamps 0x10000 1 1) t),
    gives (do
      raise (.slice (sliceOf 0x10000)) 0
      fillHome 0x10000 true) (parked (.atomic .add 5 0x10000 0 true)) (fun _ t =>
        decide (bits (fromByte (t.homeLine 0x10000).1 0) 61 57 = 0))] := by decide +kernel

/-- HomeEventsComplete: a line whose merge window is open, windows of one and of two lines, a discard that waits for nothing, and a hold. -/
theorem witness_home_events : Met [
    gives (noteRead 0x10000) base (fun _ t => !t.atHome 0x10000 && (t.missLines 0x10000).any (fun l =>
      (findD (t.port (portOf l)).windows [] (l / 8)).contains l) && !t.allPinned 0x10000 && goes (fillLine 0x10000 false true) t),
    gives (noteRead 0x10001) base (fun _ t => (find (t.port (portOf 0x10000)).windows 0x2000).isSome),
    !base.discardWaits 0x10000 && goes (discardHome 0x10000 [0]) { base with discards := [0x10000] },
    steps (exec (.holdCap 0 0x10000) (with' owned (fun x => { x with holds := [0x10000] })))] := by decide +kernel

/-- TimesMove: a core that ticks; floors that move and that do not; a time behind the floor; an advance of two steps. -/
theorem witness_times : Met [
    owning.ticking 0 && decide (1 ≤ (owning.clock (.core 0)).room),
    later (BitVec.ofNat 24 0) ((base.setClock (.core 0) { t := 0x200001 }).clocks.foldl (fun t c => tmax t c.2.t) (BitVec.ofNat 24 0) - BitVec.ofNat 24 (2 ^ 21)),
    !later (BitVec.ofNat 24 0) (base.clocks.foldl (fun t c => tmax t c.2.t) (BitVec.ofNat 24 0) - BitVec.ofNat 24 (2 ^ 21)),
    later (base.clock (.slice 767)).t (BitVec.ofNat 24 (2 ^ 20)) && (Agent.slice 767).valid,
    later 0 0x180000 && decide (min (0x180000 - 0 : Stamp).toNat (2 ^ 20) ≤ 2 ^ 20)] := by decide +kernel

/-- SweepsComplete: stamps that are old and that are not, of an eviction time, a tag and the copies of a core; and struck words. -/
theorem witness_sweeps : Met [
    stale 0 (BitVec.ofNat 24 (2 ^ 21 + 1)) && !stale 0 (BitVec.ofNat 24 (2 ^ 21)),
    goes (setStamps 0x10000 5 5) owned && decide (sliceOf 0x10000 < 768) && (unowned.l2.all (fun p => p.2.tag.isSome && p.2.owner.isNone)),
    stale ((unowned.setClock (.slice (sliceOf 0x10000)) { t := 0x200001 }).stamps 0x10000).2 0x200001,
    goes (recallNow 0x10000 false) owned,
    (Loc.l1 4095 0 3).valid && (Loc.l2 (2 ^ 47 - 1) 3).valid && (Loc.bank 16383 8191).valid && (Loc.reg 4095 2047).valid &&
      (Loc.l1i 4095 (2 ^ 47 - 1) 3).valid && (Loc.shadow 511 true 0xFFFF (2 ^ 47 - 1) 3).valid,
    goes (checkBankWord 0 0) { base with errs := [(.bank 0 0, 1)] } && goes (checkShadow 0 false 9 0x10000) base,
    decide (popCount 1 % 2 = 1)] := by decide +kernel

/-! Witnesses: events of the engines, the copy units and the collectives. -/

/-- Core 0 knows context 1, with a share of its trestle, and the context's first table entry is a page of 4 TiB with every permission. -/
def ordered : State := { base.setCore 0 { base.core 0 with table := [(0, { id := 0x8000000000000001, sched := 0x0100000000000000 })] } with
  mem := [(0, 15)] }

/-- A state with its thread parked. -/
def parkIn (s : State) (w : Wait) : State := with' s (fun x => { x with park := some w })

/-- The parameters of a product of an element by an element, signed bytes to a 32-bit sum. -/
def matrix : List Word := [0x200000, 0x200020, 0, 0x200040, 0x0000010000100001, 0x0001000100000001, 0x1081100000000000, 0]

/-- A command at an engine is accepted as the statement asks. -/
def accepted (copy : Bool) (s : State) : Bool :=
  match s.thread 0 with
  | none => false
  | some x => goes (do
    flushFor 0 x
    raise (engineAgent 0 copy) (s.pts 0)
    sure (fun t => decide (t.thread 0 = some x) && (copy || t.weight 0 1 != 0) && (t.engine 0 copy).jobs.isEmpty &&
      (t.core 0).status.isEmpty)) s

/-- The job of a thread of core 0. -/
def task (kind : Nat) (param : List Word) : Job :=
  { jid := 9, kind := kind, ctx := 1, core := 0, tid := 0, launch := 0, param := param, time := 0 }

/-- A trestle with one job. -/
def trestling (j : Job) : State := ordered.setCluster 0 { ordered.cluster 0 with trestle := { jobs := [j] } }

/-- A copy engine with one job. -/
def copying (j : Job) : State := ordered.setCluster 0 { ordered.cluster 0 with copy := { jobs := [j] } }

/-- An engine whose job is to be saved. -/
def asked' (e : Engine) : Engine := { e with pre := some { addr := 0x300000, jid := 9, stepped := true } }

/-- A computation that goes through from any state of a kind and stays within it. -/
abbrev Within (P : State → Prop) (m : M Unit) : Prop := ∀ s, P s → ∃ t, m s = .ok ((), t) ∧ P t

theorem within_pure {P : State → Prop} : Within P (pure ()) := fun s h => ⟨s, rfl, h⟩

theorem within_bind {P : State → Prop} {m : M Unit} {f : Unit → M Unit} (hm : Within P m) (hf : Within P (f ())) : Within P (m >>= f) := by
  intro s h
  obtain ⟨u, hu, pu⟩ := hm s h
  rw [bind_ok hu]
  exact hf u pu

theorem within_forIn {P : State → Prop} {α : Type} {f : α → M Unit} (hf : ∀ a, Within P (f a)) (l : List α) :
    Within P (forIn l PUnit.unit (fun a _ => do
      f a
      pure (ForInStep.yield PUnit.unit))) := by
  induction l with
  | nil => exact within_pure
  | cons a l ih =>
    intro s h
    obtain ⟨u, hu, pu⟩ := hf a s h
    obtain ⟨t, ht, pt⟩ := ih u pu
    refine ⟨t, ?_, pt⟩
    rw [List.forIn_cons, bind_ok (show (f a >>= fun _ => pure (ForInStep.yield PUnit.unit)) s = .ok (ForInStep.yield PUnit.unit, u) from by
      rw [bind_ok hu]; rfl)]
    exact ht

/-- A state whose homes hold lines of different sets, each with an entry of its own. -/
structure Roomy (s : State) : Prop where
  sound : s.errs = []
  lines : ∀ p ∈ s.l2, p.1 < 12582912 ∧ p.2.mate = none

theorem roomy_noteMiss (line : Nat) : Within Roomy (noteMiss line) := by
  intro s h
  exact within_bind (within_forIn (P := Roomy) (f := noteRead) (fun a s h => ⟨_, rfl, ⟨h.sound, h.lines⟩⟩) (s.missLines line)) within_pure s h

theorem Roomy.setLines {s : State} (h : Roomy s) {line : Nat} (hl : line < 12582912) : s.setLines line = [] := by
  unfold State.setLines
  rw [List.filter_eq_nil_iff]
  intro p hp
  have h1 := (h.lines p hp).1
  intro hq
  simp only [sliceOf, Machine.setOf, Bool.and_eq_true, bne_iff_ne] at hq
  have h3 := of_decide_eq_true hq.1.2
  have h4 := of_decide_eq_true hq.2
  have h2 := hq.1.1
  omega

theorem mem_put {α : Type} {m : FMap α} {n : Nat} {v : α} {p : Nat × α} (h : p ∈ put m n v) : p = (n, v) ∨ p ∈ m := by
  induction m with
  | nil => simpa [put] using h
  | cons q m ih =>
    obtain ⟨k, w⟩ := q
    simp only [put] at h
    split at h
    · simp at h ⊢; tauto
    · split at h
      · simp at h ⊢; tauto
      · simp at h ⊢
        rcases h with h | h
        · tauto
        · have := ih h; tauto

theorem mem_find {α : Type} {m : FMap α} {n : Nat} {v : α} (h : find m n = some v) : (n, v) ∈ m := by
  induction m with
  | nil => simp [find] at h
  | cons q m ih =>
    obtain ⟨k, w⟩ := q
    simp only [find] at h
    split at h
    · simp_all
    · exact List.mem_cons_of_mem _ (ih h)

theorem Roomy.put {s : State} (h : Roomy s) {line : Nat} (hl : line < 12582912) {x : L2Line} (hx : x.mate = none) :
    Roomy { s with l2 := put s.l2 line x } :=
  ⟨h.sound, fun p hp => by
    rcases mem_put hp with rfl | hp
    · exact ⟨hl, hx⟩
    · exact h.lines p hp⟩

theorem Roomy.giveEntry {s : State} (h : Roomy s) {line : Nat} (hl : line < 12582912) (x : L2Line) (d : LineData) :
    ∃ t, giveEntry line x d false s = .ok ((), t) ∧ Roomy t := by
  have hset := h.setLines hl
  refine ⟨_, ?_, h.put hl (x := { x with data := some d, mate := none }) rfl⟩
  have hr : roomForData line s = .ok (true, s) := by
    unfold roomForData
    rw [bind_getS, hset]
    rfl
  unfold Machine.giveEntry
  rw [bind_getS, hset]
  have hc : (compressible d && (false || decide (16 ≤ usedEntries []))) = false := by simp [usedEntries]
  rw [hc]
  exact bind_ok hr

theorem roomy_written {line : Nat} (hl : line < 12582912) (m : LineMask) (d : LineData) {s : State} (h : Roomy s) :
    ∃ t, (do
      let s ← getS
      let (old, p) := s.homeLine line
      let new := mergeLine old d m
      let p' := false || (p && m != fullMask)
      match find s.l2 line with
      | some x =>
        if x.data.isSome then do
          set { s with l2 := put s.l2 line { x with data := some new, dirty := true, poison := p' } }
          expand line
        else if s.allPinned line then do
          memPut line new p'
          countBypass line
        else giveEntry line { x with dirty := true, poison := p' } new false
      | none =>
        let full := s.allPinned line
        let room ← roomForTag line
        if full then do
          if room then modS (fun s => { s with l2 := put s.l2 line { data := none } }) else pure ()
          memPut line new p'
          countBypass line
        else do
          need room
          giveEntry line { data := none, dirty := true, poison := p' } new false) s = .ok ((), t) ∧ Roomy t := by
  have hset := h.setLines hl
  have hp : s.allPinned line = false := by unfold State.allPinned; rw [hset]; simp [usedEntries]
  simp only [bind_getS]
  generalize hf : find s.l2 line = o
  cases o with
  | none =>
    simp only [hp]
    have hr : roomForTag line s = .ok (true, s) := by
      unfold roomForTag
      rw [bind_getS, hset]
      rfl
    rw [bind_ok hr]
    simp only [Bool.false_eq_true, if_false]
    exact h.giveEntry hl _ _
  | some x =>
    have hm : x.mate = none := (h.lines (line, x) (mem_find hf)).2
    obtain ⟨data⟩ := x
    cases data with
    | none =>
      simp only [hp]
      exact h.giveEntry hl _ _
    | some d0 =>
      cases hm
      exact ⟨_, by simp [expand, bind_getS]; rfl, h.put hl rfl⟩

theorem Roomy.forget {s : State} (h : Roomy s) (line : Nat) (m : LineMask) : Roomy (s.forgetPublished line m) := by
  unfold State.forgetPublished
  split <;> exact ⟨h.sound, h.lines⟩

theorem roomy_homeWrite {line : Nat} (hl : line < 12582912) (m : LineMask) (d : LineData) : Within Roomy (homeWrite line m d false) := by
  intro s0 h0
  have hc : s0.checkL2 line = s0 := by unfold State.checkL2; rw [h0.sound]; rfl
  unfold homeWrite
  simp only [bind_modS, hc, bind_getS]
  split
  · obtain ⟨s, hs, h⟩ := roomy_noteMiss line _ (h0.forget line m)
    rw [bind_ok hs]
    exact roomy_written hl m d h
  · exact roomy_written hl m d (h0.forget line m)

theorem roomy_physWrites (ws : List Word) (pa : Nat) (hp : pa / 32 + ws.length < 12582912) : Within Roomy (physWrites pa ws) := by
  induction ws generalizing pa with
  | nil => exact within_pure
  | cons w ws ih =>
    simp only [List.length_cons] at hp
    exact within_bind (roomy_homeWrite (by omega) _ _) (ih (pa + 8) (by omega))

theorem length_numbers (a n : Nat) : (numbers a n).length = n := by simp [numbers]

theorem length_area (j : Job) : j.area.length = 18448 := by simp [Job.area, length_numbers]

/-- EngineEventsComplete: the acceptance of a trestle and of a copy command. -/
theorem witness_acceptance : Met [
    accepted false (parkIn ordered (.engine 0 matrix false)), accepted true (parkIn ordered (.engine 2 [] true))] := by decide +kernel

/-- A job with its results in its shadow, one line of which may be poisoned. -/
def finished (bad : Bool) : Job := { task 0 matrix with
  ready := true
  shadow := [(0x10000, { mask := 1, data := 7, va := 0x200000, poison := bad })] }

/-- EngineEventsComplete: a job's only tile-step; a publish of a job with no poisoned line and of one with one; a trestle's and a copy
engine's job to be saved. -/
theorem witness_engine_steps : Met [
    decide (((trestling (task 0 matrix)).engine 0 false).nextCore = some 0) &&
      decide (((trestling (task 0 matrix)).engine 0 false).current 0 = some (task 0 matrix)) &&
      gives (do
        runJob 0 false (task 0 matrix) (tileOf 0 true true)
        modEngine 0 false (fun e => if e.jobs.any (fun x => x.jid = (task 0 matrix).jid && !x.ready) then e else { e with turn := 0 })) ((trestling (task 0 matrix)).setCluster 0
        { (trestling (task 0 matrix)).cluster 0 with trestle := { jobs := [task 0 matrix], pointer := 0, turn := 0 } })
        (fun _ t => (t.engine 0 false).jobs.all (·.ready)),
    [false, true].all (fun bad => gives (shadowOf 0 false (finished bad)) (trestling (finished bad)) (fun sh t =>
      (sh.find? (fun p => p.2.poison)).isSome == bad && goes (do
        if bad then endJob 0 false (finished bad) 5 0x200000
        else do
          publishLines (engineAgent 0 false) (some 0) sh
          endJob 0 false (finished bad) 0 0) t)),
    goes (do
      modJob 0 true 9 (fun y => { y with parts := [] })
      physWrites 0x300000 ((task 2 []).copyArea ordered)
      unpin []
      modJob 0 true 9 (fun j => { j with saved := some 0x300000 })) (ordered.setCluster 0
        { ordered.cluster 0 with copy := asked' { jobs := [task 2 []] } }),
    goes (unpin []) ordered] := by decide +kernel

/-- EngineEventsComplete: a trestle job's area is written. -/
theorem witness_trestle_save : ∃ t, physWrites 0x300000 (task 0 matrix).area ordered = .ok ((), t) := by
  obtain ⟨t, ht, -⟩ := roomy_physWrites (task 0 matrix).area 0x300000 (by rw [length_area]; decide) ordered ⟨rfl,
    fun p hp => by cases (show p ∈ ([] : List (Nat × L2Line)) from hp)⟩
  exact ⟨t, ht⟩

/-- A product of an element by an element in some formats. -/
def productOf (f d : Nat) : MatJob := { readMat matrix with fa := f, fb := f, fd := d, acc := false, s := 3 }

/-- EngineEventsComplete: products of each class; the exponent of a group with a zero; a pair of slices; and accumulators with each tag. -/
theorem witness_arithmetic : Met [
    decide ((readMat matrix).cls = some .integer) && decide ((productOf 7 19).cls = some .float) &&
      decide ((productOf 12 19).cls = some .logarithmic) && decide ((productOf 15 19).cls = some .sliced),
    decide (groupExponent [.fin false 0 0, .fin true 5 (-2)] = some 1) && decide (groupExponent [.fin false 0 0] = none),
    decide ((slicePairs 3)[1]? = some (2, 2)) && decide (groupExponent (([0x3F800000] : List Nat).map (matFmt 15).read) = some 1),
    decide (-16383 ≤ (-16478 : Int) + Nat.log2 (2 ^ 95) ∧ (-16478 : Int) + Nat.log2 (2 ^ 95) < 16383),
    decide ((extRead 0).2.2 = 0) && decide ((extRead 1).2.2 = 1) && decide ((extRead 2).2.2 = 2) && decide ((extRead 3).2.2 = 3),
    decide (exactSum false 1 0 false 1 0 = (2, 0)),
    decide (fpMul (.inf true) (.fin true 1 0) = (.inf false, 0)) &&
      decide (sumProducts [.inf false, .fin true 1 0] = .inf false) && decide (sumProducts [.inf false, .inf true] = .nan false)] := by
  decide +kernel

/-- The parameters of a copy of two rows of 8 bytes, with an operation, a format and an argument. -/
def rows (op fmt : Nat) (arg pkg : Word) : List Word :=
  [0x200000, 0x210000, 0x220000, 0x0000000200000008, 0x0000010000000100, setBits (setBits 0 63 60 op) 59 55 fmt, arg, pkg]

/-- A copy job's turn comes. -/
def onTurn (op : Nat) (s : State) (j : Job) : Bool :=
  decide (s.copyTurn 0 = some 0) && decide ((s.engine 0 true).copyCurrent 0 = some j) && s.copyRuns (s.engine 0 true) j &&
  decide (bits (j.param.getD 5 0) 63 60 = op) && !j.cancel

/-- The job goes on from its first row to its second. -/
def moves (s : State) (j : Job) (act : Seat → CopyJob → Nat → Nat → Nat → J Unit) : Bool :=
  gives (runJob 0 true j (unitOf act)) (turned s 0 0) (fun _ t => (t.engine 0 true).jobs.any (fun j => j.pos = [1, 0]))

/-- CopyEventsComplete: the four operations of one package on a first row. -/
theorem witness_copy_units : Met [
    onTurn 0 (copying (task 2 (rows 0 0 0 0))) (task 2 (rows 0 0 0 0)) && moves (copying (task 2 (rows 0 0 0 0))) (task 2 (rows 0 0 0 0))
      (fun q c r off n => do
        let v ← q.span (c.src + r * c.spitch + off) n
        q.write true c (c.dst + r * c.dpitch + off) n v),
    onTurn 1 (copying (task 2 (rows 1 0 5 0))) (task 2 (rows 1 0 5 0)) && moves (copying (task 2 (rows 1 0 5 0))) (task 2 (rows 1 0 5 0))
      (fun q c r off n => q.write true c (c.dst + r * c.dpitch + off) n
        ((List.replicate (n / 8) c.arg).foldr (fun w u => w.toNat + 2 ^ 64 * u) 0)),
    onTurn 2 (copying (task 2 (rows 2 0 5 0))) (task 2 (rows 2 0 5 0)) && moves (copying (task 2 (rows 2 0 5 0))) (task 2 (rows 2 0 5 0))
      (fun q c r off n => do
        match ← q.index c r with
        | none => q.write true c (c.dst + r * c.dpitch + off) n 0
        | some m => do
          q.checkRow (c.src + m * c.spitch) c.rowlen
          let v ← q.span (c.src + m * c.spitch + off) n
          q.write true c (c.dst + r * c.dpitch + off) n v),
    onTurn 3 (copying (task 2 (rows 3 17 5 0))) (task 2 (rows 3 17 5 0)) && moves (copying (task 2 (rows 3 17 5 0))) (task 2 (rows 3 17 5 0))
      (fun q c r _ n => do
        match ← q.index c r with
        | none => pure ()
        | some m => do
          let v ← q.span (c.src + r * c.spitch) n
          q.checkRow (c.dst + m * c.dpitch) n
          q.addRow c.fmt (c.dst + m * c.dpitch) n v)] := by decide +kernel

/-- The words of a job whose other package is 1. -/
def away (op : Nat) : List Word := rows op 0 0x400000 0x0000100000000000

/-- A context that another package may write through a window. -/
def shared : State := { ordered with
  boot := { opened := true }
  contexts := [(1, { host := 0, root := 0, jobTable := 0, windows := [{ rkey := 5, va := 0x200000, len := 0x1000, put := true, get := true, peer := 1 }] })] }

/-- A request to write eight bytes. -/
def request : RmaRequest := { pkg := 1, ctx := 1, rkey := 5, put := true, rows := [{ va := 0x200000, len := 8, data := [1, 2, 3, 4, 5, 6, 7, 8] }] }

/-- CopyEventsComplete: a put's first row; a get's first bytes; a request and its publish; the end of jobs that are under way. -/
theorem witness_remote_copies : Met [
    onTurn 4 (copying (task 2 (away 4))) (task 2 (away 4)) && moves (copying (task 2 (away 4))) (task 2 (away 4)) (fun q c r off n => do
      let v ← q.span (c.src + r * c.spitch + off) n
      let bytes := q.job.bytes ++ natBytes n v
      modJob q.k true q.job.jid (fun x => { x with bytes := bytes })
      if r + 1 = c.nrow && c.rowlen ≤ off + n then
        let out : RmaRequest := { pkg := c.pkg, ctx := c.rctx, rkey := c.rkey, put := true, rows := c.rows c.dpitch bytes }
        modS (fun s => { s with rmaSent := s.rmaSent ++ [out] })
      else pure ()),
    decide (((copying { task 2 (away 5) with sent := true }).engine 0 true).copyCurrent 0 = some { task 2 (away 5) with sent := true }) &&
      decide (min 256 ((readCopy (away 5)).rowlen - 0) = 8) && moves (copying { task 2 (away 5) with sent := true, started := true })
        { task 2 (away 5) with sent := true, started := true } (fun q c r off n =>
          q.write true c (c.dst + r * c.dpitch + off) n (bytesNat [1, 2, 3, 4, 5, 6, 7, 8])),
    gives (checkRma request { va := 0x200000, len := 8, data := [1, 2, 3, 4, 5, 6, 7, 8] }) shared (fun r _ => decide (r = none)),
    gives (rmaShadow request) shared (fun r t => match r with
      | .ok sh => !sh.isEmpty && goes (publishLines (.copyUnit 0) none sh) t
      | .error _ => false),
    (readCopy (away 4)).remote && (readCopy (away 5)).remote && goes (do
      endJob 0 true { task 2 (away 4) with sent := true } 4 0
      endJob 0 true { task 2 (away 4) with sent := true } 0 0) (copying { task 2 (away 4) with sent := true })] := by decide +kernel

/-- The parameters of a collective of one word by rank 0. -/
def joint (kind : Nat) : List Word := [0x200000, 0x210000, 1, 0, setBits (setBits 0 63 60 kind) 57 53 17, 0, 0, 0]

/-- An instance of a collective of two local ranks. -/
def instanceOf (kind : Nat) (failed : Option Nat) : Coll :=
  { grp := 0, inst := 1, members := [(0, 0), (0, 1)], joined := [0], shape := [1, (joint kind).getD 4 0], failed := failed }

/-- A collective's job of rank 0, in its instance. -/
def rankJob (kind : Nat) : Job := { task 3 (joint kind) with
  inst := 1
  started := true
  pos := [0, 0] }

/-- The context has the instance, and the job is at its engine. -/
def collective (kind : Nat) (failed : Option Nat) : State := { copying (rankJob kind) with
  contexts := [(1, { host := 0, root := 0, jobTable := 0, colls := [instanceOf kind failed] })] }

/-- The job has the next turn. -/
def rankTurn (kind : Nat) (failed : Option Nat) : Bool :=
  decide (bits ((instanceOf kind failed).shape.getD 1 0) 63 60 = kind) && decide ((collective kind failed).copyTurn 0 = some 0) &&
  (collective kind failed).copyRuns ((collective kind failed).engine 0 true) (rankJob kind) &&
  decide ((collective kind failed).jobs.find? (fun p => p.2.2.kind = 3 && p.2.2.ctx = 1 && p.2.2.grp = 0 && p.2.2.inst = 1 &&
    (readColl p.2.2.param).rank = 0) = some (0, true, rankJob kind))

/-- CollectivesComplete: each kind's first unit, and the end of a job whose instance has failed. -/
theorem witness_collectives : Met ([0, 1, 2, 3].map (fun kind =>
    rankTurn kind none && goes (runJob 0 true (rankJob kind) (collUnit true (instanceOf kind none))) (turned (collective kind none) 0 0) &&
      rankTurn kind (some 7) && goes (endJob 0 true (rankJob kind) 7 0) (turned (collective kind (some 7)) 0 0))) := by decide +kernel

/-- Both ranks have given their word, 5 and 6. -/
def givenIn (kind : Nat) : Coll := { instanceOf kind none with parts := [(0, natBytes 4 5), (1, natBytes 4 6)] }

/-- The job has given its bytes and its result is next. -/
def receiving (kind : Nat) : Job := { rankJob kind with
  given := true
  pos := [1, 0] }

/-- The instance is to give the job its result. -/
def combined (kind : Nat) : State := { copying (receiving kind) with
  contexts := [(1, { host := 0, root := 0, jobTable := 0, colls := [givenIn kind] })] }

/-- CollectivesComplete: each kind's source is read and given whole. -/
theorem witness_contributions : Met ([0, 1, 2, 3].map (fun kind =>
    !(rankJob kind).given && decide ((readColl (joint kind)).kind = kind) && gives (do
      match ← ExceptT.run (Seat.checkDest { k := 0, copy := true, job := rankJob kind } 0x210000 ((readColl (joint kind)).result
        (instanceOf kind none))) with
      | .ok _ => pure ()
      | .error _ => need false
      modJob 0 true 9 (fun y => { y with started := true })
      match ← ExceptT.run (Seat.span { k := 0, copy := true, job := rankJob kind } 0x200000 4) with
      | .ok v => do
        modColl 1 0 1 (fun y => { y with parts := put y.parts 0 (natBytes 4 v) })
        modJob 0 true 9 (fun y => { y with
          given := true
          pos := [1, 0] })
        stepDone 0 true 9 0
      | .error _ => need false) (turned (collective kind none) 0 0) (fun _ _ => true) && decide ((readColl (joint kind)).size ≤ 0 + 4))) := by
  decide +kernel

/-- CollectivesComplete: each kind's result is written: the sum, the sum, the root's word and both words. -/
theorem witness_results : Met ([(0, 11, 4), (1, 11, 4), (2, 5, 4), (3, 5 + 6 * 2 ^ 32, 8)].map (fun p =>
    let kind := p.1
    let n := p.2.2
    (receiving kind).given && decide ((turned (combined kind) 0 0).partsOf (receiving kind) = (givenIn kind).parts) &&
      decide ((readColl (joint kind)).result (givenIn kind) = n) && gives (do
      match ← ExceptT.run (Seat.checkDest { k := 0, copy := true, job := receiving kind } 0x210000 n) with
      | .ok _ => pure ()
      | .error _ => need false
      modJob 0 true 9 (fun y => { y with started := true })
      match ← ExceptT.run (Seat.writeShadow { k := 0, copy := true, job := receiving kind } true 0x210000 n p.2.1) with
      | .ok _ => pure ()
      | .error _ => need false
      raise (.copyUnit 0) 0
      lastStep 0 true 9
      modJob 0 true 9 (fun y => { y with ready := true })) (turned (combined kind) 0 0) (fun _ t => (t.engine 0 true).jobs.all (·.ready)))) := by
  decide +kernel

/-- CollectivesComplete: sums, least and greatest at both ends of a format, and the identities. -/
theorem witness_combinations : Met [
    decide (combine 0 17 (2 ^ 32 - 1) 2 = 1) && decide (combine 1 17 (2 ^ 31) (2 ^ 31 - 1) = 2 ^ 31) &&
      decide (combine 2 17 (2 ^ 31) (2 ^ 31 - 1) = 2 ^ 31 - 1),
    decide (partAt (combine 0 17) (fun r => if r < 3 then r + 1 else identityOf 0 17) 2 0 = 6)] := by decide +kernel

/-! Witnesses: events of the sideboards, the network, saves, the bureaus and the host. -/

/-- The state that a computation leaves, where it goes through. -/
def left (m : M Unit) (s : State) : State :=
  match m s with
  | .ok (_, t) => t
  | .error _ => {}

/-- A running launch of one thread of 8 names on core 0. -/
def aLaunch : Launch := { handle := 1, ctx := 1, job := 1, issuer := none, recordVa := 0x200000, state := .running, nthr := 1, record :=
  { win := 8, restart := true, nthr := 1, entry := 0x100000, cmask := 1, ccnt := 1 } }

/-- A state with a launch. -/
def withLaunch (s : State) (l : Launch) : State := { s with launches := [(1, l)] }

/-- Slot 1 of core 0 is free and assigned to context 1. -/
def roomy : State := ordered.setSlot 1 { ordered.slot 1 with own := 0x8000000000000001 }

/-- A launch record of one thread of 8 names. -/
def recordAt : State := { roomy with l2 := [(0x10000, { data := some (lineOfWords [0x0108000000000001, 0x100000, 0, 0x80200]) })] }

/-- A stage of cluster 0 holds an item for the thread of slot 0, which WAITW, or SPAWN (`start`), has made wait. -/
def staged (start : Bool) : State := (parkIn base (.work 4 8 start)).setCluster 0 { base.cluster 0 with
  stages := [(3, { launch := 0, hwm := 4, items := [{ words := [5], time := 0 }] })]
  waiters := [0] }

/-- The only thread of a launch waits for work. -/
def quiet (start : Bool) : State := withLaunch (with' base (fun x => { x with
  launch := 1
  park := some (.work 4 8 start) })) { aLaunch with made := 1 }

/-- SideboardEventsComplete: a dispatch to a thread that waits in WAITW, and to one that has yet to start. -/
theorem witness_dispatch : [false, true].all (fun start =>
    decide (((staged start).cluster 0).waiters.findSome? (fun u => match (staged start).byUid u with
      | some (tid, x) => ((staged start).serving 0 x).map (fun n => (u, tid, x, n))
      | none => none) = some (0, 0, { someone with park := some (.work 4 8 start) }, 3)) && goes (do
        if start then raise (.core 0) 0 else pure ()
        modS (fun s' => s'.setStage 0 3 { (staged start).stage 0 3 with items := [] })
        modCluster 0 (fun c => { c with waiters := [] })
        modThread 0 (fun x => { x with park := none })
        if start then writeWindow 0 0 8 [{ val := 5 }]
        else do
          raise (.core 0) 0
          modThread 0 (fun x => { x with bst := 0 })
          writeResidents 0 [5, 0, 0, 0, 0, 0, 0, 0]
          writeName (wordOf (.waitw 4 8)) 4 19
          retire 1) (staged start)) = true := by decide +kernel

/-- SideboardEventsComplete: a quiet launch, of a thread that waits in WAITW and of one that has yet to start. -/
theorem witness_quiescence : [false, true].all (fun start =>
    (quiet start).quiescent 1 && decide ((quiet start).threads.map (·.1) = [0]) &&
      decide ((quiet start).thread 0 = some { someone with launch := 1, park := some (.work 4 8 start) }) && goes (do
        modCluster 0 (fun c => { c with waiters := c.waiters.filter (· != 0) })
        modThread 0 (fun x => { x with
          park := none
          bst := 2 })
        if start then pure ()
        else do
          writeName (wordOf (.waitw 4 8)) 4 0
          retire 1) (quiet start)) = true := by decide +kernel

/-- SideboardEventsComplete: a creation; a record's read; reports of each kind; a restart. -/
theorem witness_sideboards : Met [
    decide (aLaunch.nextIndex 0 = some 0) && decide (greatestBy (·.1) ((withLaunch roomy aLaunch).candidates aLaunch 0) = some (1, 1)) &&
      gives (createThread 1 aLaunch (some 0) 0x100000 [0, 0] none 0) (withLaunch roomy aLaunch) (fun b t => b && (t.thread 1).isSome),
    gives (bureauReads 0 1 0x200000 8) (withLaunch recordAt { aLaunch with state := .pending }) (fun ws s => match ws with
      | none => false
      | some ws => !recordBad ws && decide ((readRecord ws).cores = [0]) && (s.entryOf 0 1).isSome &&
        decide ((readRecord ws).declared = [])),
    [{ aLaunch with created := 1 }, { aLaunch with exited := 1 }, { aLaunch with killed := 1 }, { aLaunch with arrivals := [(0, 0)] },
      aLaunch].all (fun l => goes (do
        releaseBarrier 1
        freeStatus 1
        completeLaunch 1
        freeHandles) (withLaunch (base.setCluster 0 { base.cluster 0 with reports := [] }) l)),
    decide ({ aLaunch with lost := [0] }.lost.contains 0) && aLaunch.record.restart] := by decide +kernel

/-- Job 1 of context 1 has ten endpoints, of which 2 is bound to slot 0, and a word in its queue. -/
def tables : State := { ordered.setCore 0 { ordered.core 0 with table :=
    [(0, { id := 0x8000000000000001, sched := 0x0100000000000000, jobs := 0x300000 })] } with
  l2 := [(0x18001, { data := some (lineOfWords [0x8000000000400000, 10, 0x500000, 0x6400000001]) }),
    (0x20000, { data := some (lineOfWords [0, 0, 0x4000000000000000, 0]) })] }

/-- Slot 0 is bound to endpoint 2 of job 1. -/
def bound : State := tables.setSlot 0 { tables.slot 0 with endpoint := some (1, 2) }

/-- A message of one word for endpoint 2. -/
def mail : Message := { words := [2], ctx := 1, job := 1, dst := 2, src := 0, srcUid := 0, time := 0, toSlot := some 0 }

/-- The same message, held. -/
def heldMail : HeldMessage := { ctx := 1, job := 1, dst := 2, src := 0, srcUid := 0, words := [2], time := 0 }

/-- A thread with a complete message. -/
def composed : State := parkIn (tables.setSlot 0 { tables.slot 0 with compose := [(2, false)] }) .inject

/-- A thread on its way to slot 0. -/
def moving : State := { parkIn base .migration with packets := [(0, { uid := 0, header := [0, 0, 0, 0], window := [{ val := 7 }], target := 0 })] }

/-- The message stands in the job's overflow queue. -/
def queued : State := left (toOverflow 0 mail) bound

/-- MessagesAndMigrationComplete: an injection; a delivery to a slot with room, and one behind a held message; a drain of the overflow
queue; an arrival. -/
theorem witness_messages : Met [
    composed.olderDone 0 { someone with park := some .inject } && composed.errs.isEmpty && goes (inject 0 { someone with park := some .inject } 0 [2] 0)
      (composed.setSlot 0 { composed.slot 0 with
        compose := []
        thread := some { someone with park := none } }),
    decide ((bound.slot 0).endpoint = some (1, 2)) && decide ((bound.slot 0).owner = some 1) && decide ((bound.slot 0).state ≠ .free) &&
      decide (bound.heldFor 1 1 2 = []) && decide ((bound.core 0).received + 1 ≤ 512) && goes (do
        deliverTo 0 (mail.hold bound) 0
        sweepJobs 1) bound,
    decide (queued.heldFor 1 1 2 ≠ []) && goes (do
      toOverflow 0 mail
      sweepJobs 1) queued,
    decide (queued.heldFor 1 1 2 = [mail.hold bound]) && decide ((queued.cores.flatMap (fun c => c.2.slots.filterMap (fun p =>
      if p.2.endpoint = some (1, 2) && p.2.state != .free && p.2.owner = some 1 then some (64 * c.1 + p.1) else none))).head? = some 0) &&
      gives (do
        let j ← readJob 0 1 1
        let e ← readEndpoint j 2
        need (e = (1, 0))
        let j ← readJob 0 1 1
        let ws ← ringWords j (findD (← getS).rings 0 j.pa) 0 1
        changeQueue 0 1 1 (·.erase (mail.hold bound))
        raise (.core 0) (returnTime 0 0)
        sweepJobs 1
        return ws) queued (fun ws _ => decide (ws = [2])),
    goes (do
      raise (.core 0) 0
      writeWindow 0 0 128 [{ val := 7 }]
      sure (fun t => decide (t.thread 0 = some { someone with park := some .migration }))) moving] := by decide +kernel

/-- A thread of 8 names that is asked to leave its slot. -/
def leaving : State := with' (base.setSlot 0 { base.slot 0 with tsave := 0x300000 }) (fun x => { x with
  win := 8
  preempt := some 1 })

/-- It has stopped. -/
def drained' : State := parkIn leaving (.save none none)

/-- A thread record of 8 names, at 0x500000; its header's line may be poisoned. -/
def savedAt (bad : Bool) : State := { roomy with l2 := [(0x28000, { data := some (lineOfWords [0x0108000000000000, 0x100000, 0, 0]), poison := bad }),
  (0x28001, { data := some (lineOfWords [0, 0, 0x10000000, 0]) })] }

/-- SavesComplete: a thread stops between words, in a wait, in a BARRIER, and while it waits for work, started and not. -/
theorem witness_stops : [none, some Wait.ldq, some .fence, some (.barrier 4), some (.work 4 8 true), some (.work 4 8 false)].all (fun w =>
    let x := { someone with win := 8, preempt := some 1, park := w }
    let s := with' leaving (fun _ => x)
    decide (s.thread 0 = some x) && s.pairStops 0 x && !prv (s.slot 0).tstat && decide (x.released = none ∧ x.resume = {}) &&
      steps (exec (.preEmption 0) s)) = true := by decide +kernel

/-- SavesComplete: a record is written; a slot takes a record, and a slot of no context does not; a record that is none, and a poisoned
one. -/
theorem witness_saves : Met [
    (drained'.thread 0).elim false (fun x => drained'.drained 0 x && decide (x.place 0 = 0) && x.privLines.isEmpty && goes (do
      need (← holdMail 0 0 0)
      let record ← threadRecord 0 x
      writeRecordLines 0x18000 ((record.length + 3) / 4) record
      modCore 0 (fun c => { c with
        full := c.full.filter (· != 0)
        cells := del c.cells 0 })
      endHolds 0 x
      let free ← draw
      freeSlot 0
      fillMail 0 0 [0, word free]) drained'),
    gives (readThread 0x500000) (savedAt false) (fun r t => match r with
      | .ok r => decide (t.restoreFails 1 0x500000 r = none) && goes (restoreThread 1 0x500000 r) t && decide (t.restoreFails 2 0x500000 r = some 5)
      | _ => false),
    gives (readThread 0x500000) roomy (fun r _ => match r with
      | .bad => true
      | _ => false),
    gives (readThread 0x500000) (savedAt true) (fun r t => match r with
      | .poisoned => goes (restoreKilled 1 0x500000) t
      | _ => false)] := by decide +kernel

/-- All slots of core 0 are assigned to context 1, and context 2, whose share is one slot, has a thread to be created. -/
def crowdedCore : State :=
  let s := (numbers 0 64).foldl (fun s t => s.setSlot t { s.slot t with own := 0x8000000000000001 }) base
  { s.setCore 0 { s.core 0 with table := [(0, { id := 0x8000000000000001, sched := setBits 0 55 48 63 }),
      (1, { id := 0x8000000000000002, sched := setBits 0 55 48 1 })] } with
    launches := [(1, aLaunch), (2, { aLaunch with
      handle := 2
      ctx := 2 })] }

/-- The last slot of core 0 holds a thread of context 1. -/
def crowdedWith : State := crowdedCore.setSlot 63 { crowdedCore.slot 63 with
  state := .home
  owner := some 1
  thread := some { someone with
    uid := 5
    home := 63 } }

/-- SavesComplete: a boundary of a core with no placed launch; and one at which the last slot is due to move, FREE and HOME. -/
theorem witness_quantum : Met [
    decide (((base.placedContexts 0).map (fun c => bits (base.entry 0 c).sched 55 48)).sum = 0),
    [crowdedCore, crowdedWith].all (fun s =>
      let s1 := s.setSlot 63 { s.slot 63 with own := setBits (setBits 0 63 63 1) 11 0 2 }
      decide (s.slotMove 0 = some (63, 2)) && decide (s1.slotMove 0 = none) && decide (s.assigned 63 ≠ s1.assigned 63) &&
        goes (emptyCells 63) s1),
    decide ((crowdedCore.slot 63).state = .free) && decide ((crowdedWith.threads.filter (fun p => p.2.home = 63 || p.1 = 63)).length = 1)] := by
  decide +kernel

/-- A handler's record waits for its reply. -/
def posted : State := (parkIn base (.mailbox true)).setCluster 0 { base.cluster 0 with
  mailbox := [(0, { words := [1], tid := some 0, uid := 0 })] }

/-- A copy job whose state lies in its save area. -/
def areaState : State := left (physWrites 0x300000 ((task 2 (rows 0 0 0 0)).copyArea ordered)) (copying { task 2 (rows 0 0 0 0) with
  saved := some 0x300000 })

/-- A killed thread whose record the bureau is to answer. -/
def killedOne : State := parkIn base (.killed [] true)

/-- Both threads of a pair are killed, with one record. -/
def killedPair : State := (parkIn base (.killed [5] true)).setSlot 32 { base.slot 32 with
  state := .home
  owner := some 1
  thread := some { someone with
    uid := 1
    home := 32
    park := some (.killed [5] false) } }

/-- BureauEventsComplete: writes of registers; a handler's record and its reply; a shootdown; the reply for a killed thread; requests and
resumptions. -/
theorem witness_bureaus : Met [
    goes (do
      let _ ← writeCoreReg 0 0x111 0x8000000000000001
      let _ ← writeCoreReg 0 0x101 0x8000000000000001) base,
    goes (post 0 { words := [recordWord 0 0 0 1 0 0, 0, 0, 0], tid := some 0, uid := 0 }) (parkIn base (.mailbox true)),
    goes (do
      promote 0
      sure (fun t => decide (t.thread 0 = some { someone with park := some (.mailbox true) }))) (posted.setCluster 0
        { posted.cluster 0 with mailbox := [] }),
    base.quietUnder 0x0004000000000000 && goes (shootDown 0 0x0004000000000000) base,
    (killedOne.thread 0).elim false (fun x => x.dead && x.uid == 0) && goes (do
      promote 0
      freeSlot 0) killedOne,
    decide ((killedOne.thread (partnerOf 0)).bind (·.park) ≠ some (.killed [] false)) &&
      decide ((killedPair.thread (partnerOf 0)).bind (·.park) = some (.killed [5] false)) && goes (do
      promote 0
      freeSlot 0
      freeSlot 32) killedPair,
    decide (((trestling (task 0 matrix)).engine 0 false).running = some (task 0 matrix)) &&
      decide ((copying (task 2 (rows 0 0 0 0))).copyRunning 0 = some (task 2 (rows 0 0 0 0))) && (base.engine 0 false).running.isNone,
    ((base.engine 0 false).jobs.find? (fun j => j.saved = some 0x300000)).isNone &&
      ((base.engine 0 true).jobs.find? (fun j => j.saved = some 0x300000)).isNone,
    ((areaState.engine 0 true).jobs.find? (fun j => j.saved = some 0x300000)).isSome && gives (physReads 0x300000 16) areaState
      (fun r t => r.2.isNone && decide (bits (r.1.getD 9 0) 27 16 = 1) && decide (bits (r.1.getD 9 0) 15 0 = 9) &&
        gives (copyFrom 0 (task 2 (rows 0 0 0 0)) r.1) t (fun j u => j.isSome && goes (do
          modEngine 0 true (fun e => { e with res := 0 })
          modJob 0 true 9 (fun _ => { task 2 (rows 0 0 0 0) with saved := none })) u)),
    gives (trestleFrom 0 (task 0 matrix) (task 0 matrix).area) base (fun j _ => j.isSome),
    [RegName.portReg 63 0x810, .portReg 0 0x1F8, .sliceReg 767 0x850, .coreCounter 4095 0xF0858, .coreReg 4095 0x120, .slotReg 262143 0xD,
      .shootA 511, .chkRetry 511, .trestleSpill 511, .copySpill 511, .bureau 511 (2 ^ 52 - 8)].all (fun r => r.valid && goes (writeRegister r 3) base),
    decide (2 ^ 55 + 0xE000000000 + 0x100000 * 7 + 8 * 0x120 < 2 ^ 64) && goes (physWrite 0x300000 3) base] := by decide +kernel

/-- A host's command of a number on context 1. -/
def cmd (code : Nat) (args : List Word) : HostCmd := { host := 7, words := setBits (setBits (setBits 0 63 56 code) 55 44 1) 31 0 1 :: args }

/-- A command is accepted, with what it is asked in its context. -/
def takes (code : Nat) (args : List Word) (s : State) : Bool :=
  s.boot.opened && (cmd code args).isCommand code && s.nextOf (cmd code args) && s.boot.hosts.contains 7 &&
    (find s.contexts 1).elim false (fun x => x.host == 7 && x.ending.isNone)

/-- A context that host 7 created, with its first table at 0x600000, a window and a job. -/
def itsContext : Context := { host := 7, root := 0x600000, jobTable := 0x610000, jobs := [{ number := 1, incomplete := 1 }], windows :=
  [{ rkey := 5, va := 0, len := 8, put := true, get := false, peer := 1 }] }

/-- The context with a launch, and a group's record at 0x200000. -/
def hosted : State := { withLaunch ordered aLaunch with
  boot := { opened := true, hosts := [7] }
  contexts := [(1, itsContext)]
  l2 := [(0x10000, { data := some (lineOfWords [0x0000000200000001, 0x40000, 0, 0]) })] }

/-- HostCommandsComplete: what the commands on windows, logs, launches, policies and groups ask. -/
theorem witness_windows_logs_launches : Met [
    [5, 6, 8, 9, 10, 11, 12].all (fun n => takes n [] hosted),
    decide (argOf (cmd 5 [0, 8, 3, 1]) 1 ≠ 0 ∧ argOf (cmd 5 [0, 8, 3, 1]) 0 + 8 ≤ apertureBase ∧ argOf (cmd 5 [0, 8, 3, 1]) 2 = 3) &&
      goes (respond 5 (cmd 5 []) 1 0 0 []) (taken hosted (cmd 5 [])),
    itsContext.windows.any (fun w => w.rkey = argOf (cmd 6 [5]) 0) && goes (respond 6 (cmd 6 []) 1 0 0 []) hosted,
    decide (hosted.commanded (cmd 9 [1, 0]) = [aLaunch]) && decide (hosted.commanded (cmd 8 [1, 1]) = [aLaunch]) &&
      goes ((([aLaunch].filter (fun l => !l.settled)).forM (fun l => cancelLaunch l.handle))) hosted,
    gives (bureauRead 0 1 0x200000) hosted (fun h t => decide (h = some 0x0000000200000001) && decide (argOf (cmd 11 [2, 0x200000]) 0 = 2) &&
      gives (bureauReads 0 1 0x200008 1) t (fun ws u => decide (ws = some [0x40000]) && goes (respond 11 (cmd 11 []) 1 0 0 []) u))] := by
  decide +kernel

/-- The context is being ended. -/
def ending : State := { hosted with contexts := [(1, { itsContext with ending := some 0 })] }

/-- HostCommandsComplete: commands that are judged: of a context that is being ended or is not there, of another host, of a host that did not create the
context, and out of turn. -/
theorem witness_judged : Met [
    (cmd 5 []).isCommand 5 && decide (find { hosted with contexts := [] }.contexts 1 = none) &&
      steps (exec (.winopen (cmd 5 [])) { hosted with contexts := [] }),
    { hosted with boot := { opened := true } }.boot.hosts.contains 7 == false && goes (denyHost 5 (cmd 5 [])) hosted,
    (find { hosted with contexts := [(1, { itsContext with host := 8 })] }.contexts 1).elim false (fun x => x.host != 7),
    !({ hosted with sequence := [(7, 1)] } : State).nextOf (cmd 5 []) && !(cmd 6 []).isCommand 5,
    (find ending.contexts 1).elim false (fun x => x.host == 7 && x.ending.isSome) && !ending.nextOf (cmd 5 []) &&
      (cmd 2 []).isCommand 2] := by decide +kernel

/-- The context with its own tables alone, which hold nothing. -/
def untabled : State := { hosted.setCore 0 { hosted.core 0 with table := [] } with launches := [] }

/-- A launch record at 0x200000, which the context's tables reach through core 0. -/
def submitted : State := { roomy with
  boot := hosted.boot
  contexts := hosted.contexts
  l2 := recordAt.l2 }

/-- HostCommandsComplete: a new context; a page mapped and a page taken out; a launch submitted, and a new job; a context that is to end,
and one that has. -/
theorem witness_contexts : Met [
    decide (firstFree 1 4095 (hosted.contexts.map (·.1)) = some 2) && goes (do
      takeMemory 2 0x700000 65536
      takeMemory 2 0x710000 131072
      respond 1 (cmd 1 []) 2 0 0 [2]) { hosted with contexts := put hosted.contexts 2 { host := 7, root := 0x700000, jobTable := 0x710000 } },
    rangeOk 0x200000 65536 && gives (anyMapped 0x600000 1 0x200000) untabled (fun b t => !b &&
      gives (attempt (mapPages 1 0x600000 0x3 1 0x200000 [0x72, 0x73, 0x74])) t (fun ok u => ok && u.quietUnder 0x0014000000000000 &&
        gives (anyMapped 0x600000 1 0x200000) u (fun b v => b && goes (unmapPages 1 0x600000 1 0x200000) v))),
    gives (sweepJobs 1) submitted (fun _ t => (find t.contexts 1).elim false (fun y => y.jobs.any (fun j => j.number = 1)) &&
      decide ((t.entriesOf 0).length < 256) && gives (holdEntry 0 1 1 none 0x200000 0) t (fun h u => match h with
        | none => false
        | some h => gives (launchRecordRead h) u (fun _ v => (find v.launches h).elim false (fun l => decide (l.state ≠ .refused)) &&
          goes (respond 7 (cmd 7 []) 1 0 0 [1, word h]) v))),
    gives (newJob 1 1 32 [0x80, 0x81]) submitted (fun j _ => decide (j = some 2)),
    [2, 3, 4, 7].all (fun n => takes n [] hosted) && goes (do
      modContext 1 (fun y => { y with ending := some 1 })
      cancelLaunch 1) hosted && !hosted.idleContext 1,
    { (State.reset) with contexts := untabled.contexts }.idleContext 1 && goes (do
      dropSlots 1
      let _ ← shootDown 0 0x0014000000000000) { State.reset with contexts := untabled.contexts }] := by decide +kernel

/-- BringUpCompletes: the package with power, a trained link, an image, and a slice that has started. -/
theorem witness_bring_up : Met [
    { State.reset with boot := { power := true, links := [0] } }.boot.power && decide (0 ∈ [0]) &&
      { signed := true, pkgid := 3, hosts := [7], fabric := [], retries := 0 : BootImage }.signed,
    !{ signed := false, pkgid := 3, hosts := [7], fabric := [], retries := 0 : BootImage }.signed,
    !({ State.reset with boot := { imaged := true } } : State).boot.started.contains 4 &&
      ({ State.reset with boot := { imaged := true, started := [4] } } : State).boot.started.contains 4] := by decide +kernel

/-- The leading thread of a pair in slot 0 and the trailing one in slot 32. -/
def pair (x y : Thread → Thread) : State :=
  let s := with' base (fun t => x { t with role := .leading })
  s.setSlot 32 { s.slot 32 with
    state := .home
    owner := some 1
    thread := some (y { someone with
      uid := 1
      home := 32
      role := .trailing }) }

/-- A thread whose partner is at EXIT, too, and whose EXIT is agreed on. -/
def leavingPair : State := pair (fun x => { x with released := some { kind := 33, addr := 0, size := 0, data := [] } }) id

/-- The thread's launch is 1, of job 1; launch 2 is of job 2. -/
def twoLaunches (state : LaunchState) : State := { with' base (fun x => { x with launch := 1 }) with
  launches := [(1, aLaunch), (2, { aLaunch with
    handle := 2
    job := 2
    state := state })] }

/-- A thread of a migratory launch that may leave its core for a free slot of core 1. -/
def rover : State :=
  let s := { with' base (fun x => { x with
    launch := 1
    win := 8 }) with launches := [(1, { aLaunch with record := { aLaunch.record with migr := true } })] }
  s.setSlot 64 { s.slot 64 with own := 0x8000000000000001 }

/-- ThreadInstructionsComplete: an EXIT of a pair; an LWAIT that waits and one of an ended launch; a MIGR that departs, one with a
destination that is a name of the home slot, one that is turned away, and one of a guest. -/
theorem witness_departures : Met [
    goes waitStores leavingPair && (leavingPair.partner 0).isSome && goes (do
      leave 32 .exit
      freeSlots 32 { someone with home := 32 }
      sure (fun t => t.cur == 0 && (t.thread 0).isSome)
      leave 0 .exit
      freeSlots 0 someone) leavingPair,
    ((twoLaunches .running).named { someone with launch := 1 } 2).elim false (fun l => decide (l.ctx = 1) && !l.state.ended && l.job != 1) &&
      ((twoLaunches .complete).named { someone with launch := 1 } 2).elim false (fun l => l.state.ended) && goes (raisePts 0) (twoLaunches .complete),
    (rover.thread 0).elim false (fun x => rover.mayMigrate x && (rover.guestPlace x 1).isSome && !rover.mayMigrate { x with launch := 0 }) &&
      goes (depart (wordOf (.migr 4 5)) 4 1 false) rover && goes (depart (wordOf (.migr 250 5)) 250 1 false)
      (rover.setSlot 1 { rover.slot 1 with state := .home, owner := some 1 })] := by decide +kernel

/-- An effect of a store. -/
def effectOf : Effect := { kind := 1, addr := 0x200000, size := 8, data := [5] }

/-- A value that the leading thread has taken. -/
def taken : PairValue := { kind := 2, addr := 0x200000, value := 5, values := [], bst := 0, poison := false }

/-- PairsCompared: effects that are released and that are not; values queued, a full queue, an empty one, and a head that matches. -/
theorem witness_pairs : Met [
    gives (agree effectOf) base (fun b t => b && decide (t = base)),
    !goes (agree effectOf (some [5])) (pair id id) && !goes (agree effectOf (some [5])) { pair id id with cur := 32 },
    gives (readOnce 0 0 249) (pair (fun x => { x with resume := { x.resume with operands := some [5] } }) id) (fun v _ => v == 5),
    gives (enter 2 0x200000 (pure (9, []))) (pair (fun x => { x with resume := { x.resume with entered := [taken] } }) id)
      (fun v t => decide (v.1 = 5) && (t.thread 0).elim false (·.resume.used == 1)),
    !goes (agree effectOf) (pair (fun x => { x with effects := List.replicate 16 (effectOf, 0) }) id) &&
      !goes (agree effectOf) { pair id id with cur := 32 },
    !goes (agree effectOf) (pair id id) && gives (agree effectOf) (pair (fun x => { x with released := some effectOf }) id) (fun b _ => b) &&
      gives (agree effectOf) { pair id (fun y => { y with released := some effectOf }) with cur := 32 } (fun b _ => !b),
    goes (enter 2 0x200000 (pure (5, []))) (pair id id) &&
      !goes (enter 2 0x200000 (pure (5, []))) (pair (fun x => { x with values := List.replicate 16 taken }) id),
    decide (({ pair id id with cur := 32 } : State).partner 32 = (pair id id).thread 0) && decide (partnerOf 32 = 0) &&
      !goes (enter 2 0x200000 (pure (5, []))) { pair id id with cur := 32 },
    gives (enter 2 0x200000 (pure (9, []))) { pair (fun x => { x with values := [taken] }) id with cur := 32 } (fun v _ => decide (v.1 = 5)),
    !goes (enter 2 0x200008 (pure (9, []))) { pair (fun x => { x with values := [taken] }) id with cur := 32 } &&
      !goes (enter 3 0x200000 (pure (9, []))) { pair (fun x => { x with values := [taken] }) id with cur := 32 },
    decide (((pair id (fun y => { y with park := some (.effect effectOf) })).partner 0).map (·.park) = some (some (.effect effectOf)))] := by
  decide +kernel

/-- TrapsTaken: a pair whose partner goes on, and one whose partner has come to a trap of the same unit. -/
theorem witness_paired_traps : Met [
    ((pair id id).thread 0).isSome && ((pair id id).partner 0).elim false (fun y => y.park.isNone && y.effects.isEmpty &&
      y.role == .trailing) && decide (coreOf (partnerOf 0) = coreOf 0),
    ((pair id (fun y => { y with park := some (.pairTrap 2 5) })).thread 0).elim false (fun x =>
      ((pair id (fun y => { y with park := some (.pairTrap 2 5) })).partner 0).elim false (fun y => y.first == x.first && x.effects.isEmpty)),
    goes (silentFault 0 0) (pair id (fun y => { y with park := some (.pairTrap 2 5) })) && goes (killOne 32 [1, 2, 3, 4] false) (pair id id)] := by decide +kernel

/-- PairsCompared: an effect that the leading thread does not wait for: its buffer has room, and is full; and the trailing thread finds
none, the same, and another. -/
theorem witness_deferred : Met [
    goes (defer effectOf (pure 0)) base && goes (defer effectOf (pure 0)) (pair id id) &&
      !goes (defer effectOf (pure 0)) (pair (fun x => { x with effects := List.replicate 16 (effectOf, 0) }) id),
    !goes (defer effectOf (pure 0)) { pair id id with cur := 32 } &&
      goes (releaseEffect 0 0 effectOf) { pair (fun x => { x with effects := [(effectOf, 0)] }) id with cur := 32 } &&
      !goes (defer { effectOf with size := 4 } (pure 0)) { pair (fun x => { x with effects := [(effectOf, 0)] }) id with cur := 32 },
    ((pair id (fun y => { y with park := some (.effect effectOf) })).thread 0).elim false (fun x => x.effects.isEmpty) &&
      goes (killThread 0 27 0x200000 0x100000) (pair id (fun y => { y with park := some (.effect { effectOf with size := 4 }) }))] := by
  decide +kernel

/-- EncodingRoundTrip: an instruction that has a word, and the word that it has. -/
theorem witness_encoding : Met [
    decide (encode (.addi 4 5 0xFF) = some 0x030405FF), decodeWord 0x030405FF == .ok (.addi 4 5 0xFF)] := by decide +kernel

/-- A state in which core 0's turn stands on the agenda and `ADDI 4, 5, 0xFF` at the pc. -/
def aboutTo : State := State.reset.withFetchWord 32 0x030405FF

/-- The word that the next step fetches, if it is core 0's turn. -/
def fetched (s : State) (w : IWord) : Bool :=
  match ({ s with agenda := [] } : State).nextReady 0 with
  | none => false
  | some slot =>
    let s0 := ({ s with agenda := [] } : State).issuing 0 slot 0
    ((s0.thread s0.cur).bind (s0.stopped s0.cur)).isNone && gives fetchWord s0 (fun v _ => decide (v = w))

/-- StepRunsDecodedInstruction: a turn of a core, with a word that decodes and one that does not; a turn of an event; a word that comes
from the instruction cache and one that comes from its home. -/
theorem witness_step_runs : Met [
    decide (aboutTo.agenda = [.issue 0 0]) && fetched aboutTo 0x030405FF,
    fetched (State.reset.withFetchWord 32 0x42000000) 0x42000000 && (match decodeWord 0x42000000 with
      | .error _ => true
      | .ok _ => false),
    (encode .powerGood).isNone,
    !outside 0x100000 && !inAperture 0x100000 && gives (translate 0x100000 2) aboutTo (fun p t => decide (p.attr = .rshr) &&
      (find (t.core 0).icache (p.pa / 32)).isNone && gives (fillHome (p.pa / 32) false) t (fun _ u => !(u.homeLine (p.pa / 32)).2)),
    (find ((aboutTo.setCore 0 { aboutTo.core 0 with icache := [(0x8000, 0x030405FF)] }).core 0).icache (0x100000 / 32)).isSome] := by
  decide +kernel

/-- StepKeepsSafe: package reset is safe, and a state that steps. -/
theorem witness_step_keeps : State.reset.Safe ∧ aboutTo.Safe ∧ steps (step aboutTo) = true := by
  refine ⟨?_, ?_, by decide +kernel⟩ <;> unfold State.Safe <;> decide +kernel

end Sys2Proof.Tests
end

