-- ==== Sys2Proof/Proofs/Encoding.lean ====
section
/-! Decoding and encoding (02 R24 to R26, R39). Each row of the decoder's table is faithful: a word of its opcode whose reserved fields
are zero is the word of the instruction that the row makes of it. One lemma for each layout of the fields. -/

namespace Sys2Proof.Proofs

open Sys2Proof.Laws

/-- A word of the row's opcode whose reserved fields are zero is the word of the instruction that the row makes of it. -/
def Faithful (r : Encoding) : Prop :=
  ∀ w : IWord, opcodeOf w = r.op → w &&& r.reserved = 0#32 → encode (r.make w) = some w

/-- A word is its opcode followed by its three fields of eight bits (02 R24, R25). -/
theorem word_of_fields (w : IWord) :
    opcodeOf w ++ w.extractLsb' 16 8 ++ w.extractLsb' 8 8 ++ w.extractLsb' 0 8 = w := by
  simp only [opcodeOf, BitVec.extractLsb'_append_extractLsb'_eq_extractLsb', BitVec.extractLsb'_eq_self]

theorem word_of_half (w : IWord) : opcodeOf w ++ w.extractLsb' 16 8 ++ w.extractLsb' 0 16 = w := by
  simp only [opcodeOf, BitVec.extractLsb'_append_extractLsb'_eq_extractLsb', BitVec.extractLsb'_eq_self]

theorem word_of_long (w : IWord) : opcodeOf w ++ w.extractLsb' 0 24 = w := by
  simp only [opcodeOf, BitVec.extractLsb'_append_extractLsb'_eq_extractLsb', BitVec.extractLsb'_eq_self]

/-- A field that a mask covers is zero in a word that is clear under the mask (02 R26). -/
theorem field_of_clear {w m : IWord} (k n : Nat) (h : w &&& m = 0#32) (hm : m.extractLsb' k n = BitVec.allOnes n) :
    w.extractLsb' k n = 0#n := by
  have := congrArg (BitVec.extractLsb' k n) h
  rwa [BitVec.extractLsb'_and, hm, BitVec.and_allOnes, BitVec.extractLsb'_zero] at this

theorem Faithful.three {op : BitVec 8} {f : BitVec 8 → BitVec 8 → BitVec 8 → Instr}
    (hf : ∀ d a b, encode (f d a b) = some (op ++ d ++ a ++ b) := by intros; rfl) :
    Faithful ⟨op, 0x000000#32, fun w => f (w.extractLsb' 16 8) (w.extractLsb' 8 8) (w.extractLsb' 0 8)⟩ := by
  intro w ho _
  obtain rfl : opcodeOf w = op := ho
  exact (hf _ _ _).trans (congrArg some (word_of_fields w))

theorem Faithful.two {op : BitVec 8} {f : BitVec 8 → BitVec 8 → Instr}
    (hf : ∀ d a, encode (f d a) = some (op ++ d ++ a ++ 0#8) := by intros; rfl) :
    Faithful ⟨op, 0x0000FF#32, fun w => f (w.extractLsb' 16 8) (w.extractLsb' 8 8)⟩ := by
  intro w ho hz
  obtain rfl : opcodeOf w = op := ho
  exact (hf _ _).trans (congrArg some (by rw [← field_of_clear 0 8 (m := 0x0000FF#32) hz (by decide)]; exact word_of_fields w))

theorem Faithful.half {op : BitVec 8} {f : BitVec 8 → BitVec 16 → Instr}
    (hf : ∀ d i, encode (f d i) = some (op ++ d ++ i) := by intros; rfl) :
    Faithful ⟨op, 0x000000#32, fun w => f (w.extractLsb' 16 8) (w.extractLsb' 0 16)⟩ := by
  intro w ho _
  obtain rfl : opcodeOf w = op := ho
  exact (hf _ _).trans (congrArg some (word_of_half w))

theorem Faithful.long {op : BitVec 8} {f : BitVec 24 → Instr}
    (hf : ∀ i, encode (f i) = some (op ++ i) := by intros; rfl) :
    Faithful ⟨op, 0x000000#32, fun w => f (w.extractLsb' 0 24)⟩ := by
  intro w ho _
  obtain rfl : opcodeOf w = op := ho
  exact (hf _).trans (congrArg some (word_of_long w))

theorem Faithful.bare {op : BitVec 8} {f : Instr}
    (hf : encode f = some (op ++ 0#24) := by rfl) :
    Faithful ⟨op, 0xFFFFFF#32, fun _ => f⟩ := by
  intro w ho hz
  obtain rfl : opcodeOf w = op := ho
  exact (hf).trans (congrArg some (by rw [← field_of_clear 0 24 (m := 0xFFFFFF#32) hz (by decide)]; exact word_of_long w))

theorem Faithful.lastTwo {op : BitVec 8} {f : BitVec 8 → BitVec 8 → Instr}
    (hf : ∀ a b, encode (f a b) = some (op ++ 0#8 ++ a ++ b) := by intros; rfl) :
    Faithful ⟨op, 0xFF0000#32, fun w => f (w.extractLsb' 8 8) (w.extractLsb' 0 8)⟩ := by
  intro w ho hz
  obtain rfl : opcodeOf w = op := ho
  exact (hf _ _).trans (congrArg some (by rw [← field_of_clear 16 8 (m := 0xFF0000#32) hz (by decide)]; exact word_of_fields w))

theorem Faithful.lastHalf {op : BitVec 8} {f : BitVec 16 → Instr}
    (hf : ∀ i, encode (f i) = some (op ++ 0#8 ++ i) := by intros; rfl) :
    Faithful ⟨op, 0xFF0000#32, fun w => f (w.extractLsb' 0 16)⟩ := by
  intro w ho hz
  obtain rfl : opcodeOf w = op := ho
  exact (hf _).trans (congrArg some (by rw [← field_of_clear 16 8 (m := 0xFF0000#32) hz (by decide)]; exact word_of_half w))

theorem Faithful.first {op : BitVec 8} {f : BitVec 8 → Instr}
    (hf : ∀ d, encode (f d) = some (op ++ d ++ 0#16) := by intros; rfl) :
    Faithful ⟨op, 0x00FFFF#32, fun w => f (w.extractLsb' 16 8)⟩ := by
  intro w ho hz
  obtain rfl : opcodeOf w = op := ho
  exact (hf _).trans (congrArg some (by rw [← field_of_clear 0 16 (m := 0x00FFFF#32) hz (by decide)]; exact word_of_half w))

theorem tret_faithful : Faithful ⟨0xE3#8, 0xFF00FF#32, fun w => .tret (w.extractLsb' 8 8)⟩ := by
  intro w ho hz
  have h : opcodeOf w ++ w.extractLsb' 16 8 ++ w.extractLsb' 8 8 ++ w.extractLsb' 0 8 = w := word_of_fields w
  rw [field_of_clear 16 8 hz (by decide), field_of_clear 0 8 hz (by decide), show opcodeOf w = 0xE3#8 from ho] at h
  exact congrArg some h

/-- The fields of PFX.MOD (02 R37). -/
theorem pfxMod_faithful : Faithful ⟨0xFF#8, 0x000000#32, fun w => .pfxMod (w.extractLsb' 21 3) (w.extractLsb' 19 2) (w.extractLsb' 17 2)
    (w.extractLsb' 13 4) (w.extractLsb' 8 5) (w.extractLsb' 0 8)⟩ := by
  intro w ho _
  have h : 0xFF#8 = w.extractLsb' 24 8 := ho.symm
  simp only [encode, h, BitVec.extractLsb'_append_extractLsb'_eq_extractLsb', BitVec.extractLsb'_eq_self]

theorem rows0_faithful : ∀ r ∈ Encoding.rows0, Faithful r := by
  simp only [Encoding.rows0, List.forall_mem_cons]
  exact ⟨.three, .three, .three, .three, .three, .three, .three, .three, .three, .three, .three, .three, .three, .three, .three,
    List.forall_mem_nil _⟩

theorem rows1_faithful : ∀ r ∈ Encoding.rows1, Faithful r := by
  simp only [Encoding.rows1, List.forall_mem_cons]
  exact ⟨.three, .three, .three, .three, .three, .three, .three, .three, .three, .three, .three, .three, .three, .three, .three,
    .three, List.forall_mem_nil _⟩

theorem rows2_faithful : ∀ r ∈ Encoding.rows2, Faithful r := by
  simp only [Encoding.rows2, List.forall_mem_cons]
  exact ⟨.two, .two, .three, .two, .half, .half, .half, .half, .half, .half, .half, .half, .long, .long, .two, .three,
    List.forall_mem_nil _⟩

theorem rows3_faithful : ∀ r ∈ Encoding.rows3, Faithful r := by
  simp only [Encoding.rows3, List.forall_mem_cons]
  exact ⟨.three, .three, .three, .three, .three, .two, .three, .three, .two, .two, .three, .three, .three, .three, .two, .three,
    List.forall_mem_nil _⟩

theorem rows4_faithful : ∀ r ∈ Encoding.rows4, Faithful r := by
  simp only [Encoding.rows4, List.forall_mem_cons]
  exact ⟨.two, .three, List.forall_mem_nil _⟩

theorem rows5_faithful : ∀ r ∈ Encoding.rows5, Faithful r := by
  simp only [Encoding.rows5, List.forall_mem_cons]
  exact ⟨.three, .three, .three, .three, .three, .three, .two, .two, .three, .three, .three, .two, .two, .two, .three, .three,
    List.forall_mem_nil _⟩

theorem rows6_faithful : ∀ r ∈ Encoding.rows6, Faithful r := by
  simp only [Encoding.rows6, List.forall_mem_cons]
  exact ⟨.three, .three, .three, .three, .three, .three, .three, .three, .three, List.forall_mem_nil _⟩

theorem rows8_faithful : ∀ r ∈ Encoding.rows8, Faithful r := by
  simp only [Encoding.rows8, List.forall_mem_cons]
  exact ⟨.three, .three, .three, .three, .three, .three, .three, .three, .three, .three, .three, .three, .three, .three, .three,
    .three, List.forall_mem_nil _⟩

theorem rows9_faithful : ∀ r ∈ Encoding.rows9, Faithful r := by
  simp only [Encoding.rows9, List.forall_mem_cons]
  exact ⟨.three, .three, .three, .two, .two, .bare, .bare, .three, .three, .three, .lastTwo, .lastHalf, .two, .three,
    List.forall_mem_nil _⟩

theorem rowsA_faithful : ∀ r ∈ Encoding.rowsA, Faithful r := by
  simp only [Encoding.rowsA, List.forall_mem_cons]
  exact ⟨.three, .three, .two, List.forall_mem_nil _⟩

theorem rowsB_faithful : ∀ r ∈ Encoding.rowsB, Faithful r := by
  simp only [Encoding.rowsB, List.forall_mem_cons]
  exact ⟨.half, .first, .two, List.forall_mem_nil _⟩

theorem rowsC_faithful : ∀ r ∈ Encoding.rowsC, Faithful r := by
  simp only [Encoding.rowsC, List.forall_mem_cons]
  exact ⟨.three, .bare, .half, .three, .bare, .two, .two, .two, .first, .two, .two, List.forall_mem_nil _⟩

theorem rowsD_faithful : ∀ r ∈ Encoding.rowsD, Faithful r := by
  simp only [Encoding.rowsD, List.forall_mem_cons]
  exact ⟨.two, .two, .two, .two, .two, .two, List.forall_mem_nil _⟩

theorem rowsE_faithful : ∀ r ∈ Encoding.rowsE, Faithful r := by
  simp only [Encoding.rowsE, List.forall_mem_cons]
  exact ⟨.half, .half, .lastHalf, tret_faithful, .three, List.forall_mem_nil _⟩

theorem rowsF_faithful : ∀ r ∈ Encoding.rowsF, Faithful r := by
  simp only [Encoding.rowsF, List.forall_mem_cons]
  exact ⟨.long, pfxMod_faithful, List.forall_mem_nil _⟩

theorem rows_faithful (n : Nat) : ∀ r ∈ Encoding.rows n, Faithful r := by
  unfold Encoding.rows
  split
  · exact rows0_faithful
  · exact rows1_faithful
  · exact rows2_faithful
  · exact rows3_faithful
  · exact rows4_faithful
  · exact rows5_faithful
  · exact rows6_faithful
  · exact rows8_faithful
  · exact rows9_faithful
  · exact rowsA_faithful
  · exact rowsB_faithful
  · exact rowsC_faithful
  · exact rowsD_faithful
  · exact rowsE_faithful
  · exact rowsF_faithful
  · intro r hr
    cases hr

/-- A word that decodes is the word that its instruction encodes to: no bit of a legal word is dropped. -/
theorem encode_of_decodeWord {w : IWord} {i : Instr} (h : decodeWord w = .ok i) : encode i = some w := by
  unfold decodeWord at h
  split at h
  · cases h
  · next r hr =>
    split at h
    · next hz =>
      cases h
      have ho : (r.op == opcodeOf w) = true := List.find?_some (p := fun r : Encoding => r.op == opcodeOf w) hr
      exact rows_faithful _ r (List.mem_of_find?_eq_some hr) w (eq_of_beq ho).symm hz
    · cases h

open Encodes in
/-- The word of an instruction decodes to it: one lemma for each constructor, in their order. -/
theorem decodeWord_of_encode {w : IWord} (i : Instr) : encode i = some w → decodeWord w = .ok i :=
  Instr.casesOn (motive := Encodes.Statement) i
    pfxImm pfxMod add sub addi mul mulh mulhu div divu rem remu and or xor andi ori xori shl shr sar shli shri sari slt sltu seq
    slti sel min max minu maxu clz popc hash64 cvtu ldi addpc bz bnz bltz bgez bgtz blez j call jmpr sext fadd fsub fmul ffma fdiv
    fsqrt fmin fmax flg2 fex2 feq flt fle fcvt fclass fsgnj frint ffms vadd vsub vmul vfma vmin vmax vlg2 vex2 vcvt vcmp vsel
    vbcast vsum vmaxr vargmax vhash viadd vimul vand vor vxor vshf vld vst vldn ldb ldbu ldh ldhu lds ldsu ldw stb sth sts stw
    ldro lde stf aadd aswp acas amin amax hold unhold fence fenceSib flushp invp discard pref tick tsprobe ldex bset bcomp binfo
    rcp rcpfree rcpq spawn exit waitw post yield launch lwait cancel barrier epbind migr mm mms cpy coll jwait jpoll sysr sysw
    trap tret shoot pageWalk loadReply bankReply threadReady cohRead exclusiveRequest Encodes.recall storeTimestamp farAtomic
    writeBack l2Fill mergeWindowClose deferredDiscard holdCap ptsTick floorRaise ownTimeRaise l2StampSweep coreStampSweep
    steppedAdvance storageSweep registerSweep bankLoad bankStore fullBitRead granuleEmpty pop push peek count mapLookup mapInsert
    mapTake mapDelete heapInsert heapPop histRead histAdd histReadClear histSet bankVectorAccess bankLde bankStf keep drain clear
    compositionForm bankHandover trestleAccept tileStep publish trestleSave copyAccept copy fill gather scatteradd put get
    rmaRequest remotePutPublish retryBudgetExhausted copySave allreduce reduce bcast allgather waitwDispatch quiescence
    threadCreation launchRecordRead sideboardReport restart messageInjection messageDelivery overflowDrain migrationArrival
    quantumBoundary preEmption threadSave slotRst slotOwn cxId tmbox mailboxReply sysShootD trestlePre trestleRes copyPre copyRes
    registerWrite putPublishAcknowledged privStoreEntersL1 binfoReport ctxnew ctxend map unmap winopen winclose submit hostCancel
    status logread group policy packageReset powerGood linkTrained bootImageRead sliceStart sliceFinished w

/-- The four bytes of a word, the first at the lowest address, make it up again (02 R24). -/
theorem wordOfBytes_of_word (w : IWord) :
    wordOfBytes (w.extractLsb' 0 8) (w.extractLsb' 8 8) (w.extractLsb' 16 8) (w.extractLsb' 24 8) = w :=
  word_of_fields w

theorem decode_bytesOfWord (w : IWord) (rest : List Byte) :
    decode (bytesOfWord w ++ rest) = (decodeWord w).map (fun i => (i, rest)) := by
  simp only [bytesOfWord, List.cons_append, List.nil_append, decode, wordOfBytes_of_word]

/-- Settles O55: every instruction with a word decodes from it, and every row of the decoder's table is faithful. -/
theorem encodingRoundTrip : Obligations.EncodingRoundTrip := by
  unfold Obligations.EncodingRoundTrip
  refine ⟨fun i w => decodeWord_of_encode i, fun w i => encode_of_decodeWord, fun w i rest h => ?_⟩
  rw [decode_bytesOfWord, decodeWord_of_encode i h]
  rfl

end Sys2Proof.Proofs
end

