-- ==== Sys2Proof/Proofs/Fetch.lean ====
section
/-! The words of the spec decode (02 R24 to R26, R33, R39), and a step runs what it fetches (12 R284; 14 R341). -/

namespace Sys2Proof.Proofs

open Sys2Proof.Machine Sys2Proof.Statements

/-- Settles O56: each word is the encoding of its instruction; the refused ones have no row in the table, or a reserved bit set. -/
theorem writtenWordsDecode : Obligations.WrittenWordsDecode := by
  unfold Obligations.WrittenWordsDecode
  refine ⟨decodeWord_of_encode _ rfl, decodeWord_of_encode _ rfl, decodeWord_of_encode _ rfl, decodeWord_of_encode _ rfl,
    decodeWord_of_encode _ rfl, decodeWord_of_encode _ rfl, decodeWord_of_encode _ rfl, decodeWord_of_encode _ rfl,
    decodeWord_of_encode _ rfl, decodeWord_of_encode _ rfl, rfl, rfl, rfl, rfl, rfl⟩

theorem step_agenda {s : State} {t : Turn} {rest : List Turn} (h : s.agenda = t :: rest) :
    step s = turn t { s with agenda := rest } := by
  unfold step
  rw [h]

/-- A thread that is not to be stopped runs what its next word decodes to (12 R284). -/
theorem runIssue_fetched {s t : State} {w : IWord} (hs : ((s.thread s.cur).bind (s.stopped s.cur)).isSome = false)
    (hf : Gives fetchWord s w t) :
    (∀ i, decodeWord w = .ok i → runIssue s = exec i t) ∧ (∀ e, decodeWord w = .error e → runIssue s = runBody (illegal w) t) := by
  have hf : fetchWord s = .ok (w, t) := hf
  constructor <;> intro i hi <;> simp only [runIssue, hs, Bool.false_eq_true, if_false, hf, hi]

theorem checkI_sound {s : State} (core line : Nat) (h : s.errs = []) : s.checkI core line = s := by
  simp [State.checkI, h]

/-- A fetch from an RSHR page whose line is in the instruction cache gives the word of that line (08 R180). -/
theorem fetchAt_cached {va : Word} {s s1 : State} {p : Page} {d : LineData} (ho : outside va = false) (ha : inAperture va = false)
    (ht : Gives (translate va 2) s p s1) (hp : p.attr = .rshr) (he : s1.errs = [])
    (hd : find (s1.core (coreOf s1.cur)).icache (p.pa / 32) = some d) :
    fetchAt va s = .ok (lineIWord d (p.pa % 32), s1) := by
  unfold fetchAt
  simp only [ho, ha, Bool.or_self, Bool.false_eq_true, if_false]
  rw [bind_ok ht]
  simp only [hp, bne_self_eq_false, Bool.false_eq_true, if_false]
  rw [bind_ok (myCore_run s1)]
  simp only [bind_modS, checkI_sound _ _ he, bind_getS, hd, pure_run]

/-- A fetch from an RSHR page whose line is not in the instruction cache gives the word of the line at its home, which enters the cache
where its home holds it (08 R180, R191). -/
theorem fetchAt_home {va : Word} {s s1 s3 t : State} {p : Page} {d : LineData} (ho : outside va = false) (ha : inAperture va = false)
    (ht : Gives (translate va 2) s p s1) (hp : p.attr = .rshr) (he : s1.errs = [])
    (hd : find (s1.core (coreOf s1.cur)).icache (p.pa / 32) = none) (hf : Gives (fillHome (p.pa / 32) false) s1 () s3)
    (hl : s3.homeLine (p.pa / 32) = (d, false))
    (hi : (if s3.atHome (p.pa / 32) then iPlace (coreOf s1.cur) (p.pa / 32) d else pure ()) s3 = .ok ((), t)) :
    fetchAt va s = .ok (lineIWord d (p.pa % 32), t) := by
  unfold fetchAt
  simp only [ho, ha, Bool.or_self, Bool.false_eq_true, if_false]
  rw [bind_ok ht]
  simp only [hp, bne_self_eq_false, Bool.false_eq_true, if_false]
  rw [bind_ok (myCore_run s1)]
  simp only [bind_modS, checkI_sound _ _ he, bind_getS, hd]
  rw [bind_ok hf]
  simp only [bind_getS, hl, Bool.false_eq_true, if_false]
  cases hc : s3.atHome (p.pa / 32) with
  | true =>
    rw [hc, if_pos rfl] at hi
    rw [if_pos rfl, bind_ok hi]
    rfl
  | false =>
    rw [hc] at hi
    cases hi
    rfl

/-- A line that is placed in an instruction cache is there (08 R187). -/
theorem find_iPlace {core line : Nat} {d : LineData} {s t : State} (h : Gives (iPlace core line d) s () t) :
    find (t.core core).icache line = some d := by
  have last : ∀ u, modCore core (fun c => { c with icache := put c.icache line d }) u = .ok ((), t) →
      find (t.core core).icache line = some d := by
    intro u h
    cases h
    simp
  unfold iPlace at h
  obtain ⟨c, u, -, h⟩ := bind_inv h
  dsimp only at h
  split at h
  · exact last _ h
  · obtain ⟨o, v, -, h⟩ := bind_inv h
    cases o with
    | none => exact last _ h
    | some p =>
      dsimp only at h
      rw [bind_ok (modCore_run _ _ _)] at h
      exact last _ h

/-- Settles O57: a step's first turn, the word that an issue fetches, and what is run of it. -/
theorem stepRunsDecodedInstruction : Obligations.StepRunsDecodedInstruction := by
  unfold Obligations.StepRunsDecodedInstruction
  refine ⟨?_, ?_, ?_, fun _ _ _ _ _ => find_iPlace⟩
  · intro s s0 s1 rest core pick slot w hag hn hs0 hst hf
    have hstep : step s = runIssue s0 := by
      rw [step_agenda hag]
      simp only [turn, issueTurn, hn, hs0]
    rw [hstep]
    exact runIssue_fetched hst hf
  · intro s rest i hag hi
    rw [step_agenda hag]
    simp [turn, hi]
  · intro s s1 x p d hx ho ha ht hp he
    have hw : ∀ r, fetchAt (x.pc.setWidth 64) s = r → fetchWord s = r := by
      rintro r rfl
      exact bind_ok (me_run hx)
    refine ⟨fun hd => hw _ (fetchAt_cached ho ha ht hp he hd), fun s3 hd hf hl => ⟨fun hh => ?_, fun t hh hi => ?_⟩⟩
    · exact hw _ (fetchAt_home ho ha ht hp he hd hf hl (by simp [hh]))
    · exact hw _ (fetchAt_home ho ha ht hp he hd hf hl (by rw [if_pos hh]; exact hi))

end Sys2Proof.Proofs
end

