-- ==== Sys2Proof/Proofs/Integer.lean ====
section
/-! The integer instructions of one operand, SEL, LDI and ADDPC (04 R90 to R100), and the immediates that they take (02 R36). -/

namespace Sys2Proof.Proofs

open Sys2Proof.Machine Sys2Proof.Statements

theorem truth_ltS (A B : Word) : truth (ltS A B) = if A.toInt < B.toInt then 1 else 0 := truth_decide _

/-- ADDI to SLTI take the assembled immediate; the rest is d ← f(A) (04 R90 to R99). -/
theorem integerOne_completes : integerOneCompletes := by
  unfold integerOneCompletes
  intro i d a f h s s1 s2 t x A hi hx ha hw hr
  unfold integerOne at h
  split at h <;> cases h
  · rw [exec_addi]; exact runUnit_ok hi (immediate_ok hx ha hw hr)
  · rw [exec_andi]; exact runUnit_ok hi (immediate_ok hx ha hw hr)
  · rw [exec_ori]; exact runUnit_ok hi (immediate_ok hx ha hw hr)
  · rw [exec_xori]; exact runUnit_ok hi (immediate_ok hx ha hw hr)
  · rw [exec_slti]; exact runUnit_ok hi (immediate_ok hx ha (by rw [truth_ltS]; exact hw) hr)
  · rw [exec_shli]; exact runUnit_ok hi (unary_ok ha hw hr)
  · rw [exec_shri]; exact runUnit_ok hi (unary_ok ha hw hr)
  · rw [exec_sari]; exact runUnit_ok hi (unary_ok ha hw hr)
  · rw [exec_clz]; exact runUnit_ok hi (unary_ok ha hw hr)
  · rw [exec_popc]; exact runUnit_ok hi (unary_ok ha hw hr)
  · rw [exec_cvtu]; exact runUnit_ok hi (unary_ok ha hw hr)
  · rw [exec_sext]; exact runUnit_ok hi (unary_ok ha hw hr)

theorem selectAndLoadImmediate_complete : selectAndLoadImmediateComplete := by
  unfold selectAndLoadImmediateComplete
  refine ⟨?_, ?_, ?_⟩
  · intro d a b s s1 s2 s3 s4 t A B D hi ha hb hd hw hr
    have choice : (if D != 0 then A else B) = if D ≠ 0 then A else B := by simp only [bne_iff_ne]
    rw [exec_sel]
    refine runUnit_ok hi ?_
    rw [bind_ok ha, bind_ok hb, bind_ok hd, choice, bind_ok hw]
    exact hr
  · intro d k s s1 t x hi hx hw hr
    rw [exec_ldi]
    refine runUnit_ok hi ?_
    rw [bind_ok (latch_run hx), bind_ok hw]
    exact hr
  · intro d k s s1 t x hi hx hw hr
    rw [exec_addpc]
    refine runUnit_ok hi ?_
    rw [bind_ok (latch_run hx), bind_ok (me_run hx), bind_ok hw]
    exact hr

/-- Settles O2. -/
theorem integerOthersComplete : Obligations.IntegerOthersComplete :=
  ⟨integerOne_completes, selectAndLoadImmediate_complete⟩

/-- The low `n` bits of a word as two's complement (02 R36). -/
theorem signExtendFrom_toInt {n : Nat} (w : Word) (hn : n ≤ 64) : (signExtendFrom n w).toInt = (w.toNat : Int).bmod (2 ^ n) := by
  rw [signExtendFrom, BitVec.toInt_signExtend_of_le hn, BitVec.toInt_setWidth]

/-- An assembled immediate is its field's low `n` bits below those of the latch, as two's complement of the bits that the latch holds
(02 R36). -/
theorem assembled_toInt {l : Latch} {n field : Nat} (hn : n + 24 * l.nimm ≤ 64) (hv : l.imm.toNat * 2 ^ n + field < 2 ^ 64) :
    (assembled l n field).toInt = ((l.imm.toNat * 2 ^ n + field : Nat) : Int).bmod (2 ^ (n + 24 * l.nimm)) := by
  rw [assembled, signExtendFrom_toInt _ hn, word, BitVec.toNat_ofNat, Nat.mod_eq_of_lt hv]

/-- A number of `m` bits read as two's complement. -/
theorem bmod_two_pow {a m : Nat} (hm : 0 < m) (ha : a < 2 ^ m) :
    (a : Int).bmod (2 ^ m) = if a < 2 ^ (m - 1) then (a : Int) else (a : Int) - 2 ^ m := by
  obtain ⟨k, rfl⟩ : ∃ k, m = k + 1 := ⟨m - 1, by omega⟩
  have hp : 2 ^ (k + 1) = 2 * 2 ^ k := by ring
  rw [Int.bmod_def]
  simp only [hp, Nat.add_sub_cancel] at ha ⊢
  have hmod : (a : Int) % ((2 * 2 ^ k : Nat) : Int) = a := Int.emod_eq_of_lt (by omega) (by exact_mod_cast ha)
  have hpi : (2 : Int) ^ (k + 1) = ((2 * 2 ^ k : Nat) : Int) := by push_cast; ring
  rw [hmod, hpi]
  split <;> split <;> omega

/-- A number of `m` bits read as two's complement, with `n` bits below it. -/
theorem bmod_shift_add {a b m n : Nat} (hm : 0 < m) (ha : a < 2 ^ m) (hb : b < 2 ^ n) :
    ((a * 2 ^ n + b : Nat) : Int).bmod (2 ^ (n + m)) = (a : Int).bmod (2 ^ m) * 2 ^ n + b := by
  have below : ∀ c k : Nat, c < 2 ^ k ↔ c * 2 ^ n + b < 2 ^ (n + k) := by
    intro c k
    rw [pow_add, mul_comm c]
    constructor
    · intro h
      calc 2 ^ n * c + b < 2 ^ n * c + 2 ^ n := by omega
        _ = 2 ^ n * (c + 1) := by ring
        _ ≤ 2 ^ n * 2 ^ k := Nat.mul_le_mul_left _ h
    · intro h
      exact Nat.lt_of_mul_lt_mul_left (lt_of_le_of_lt (Nat.le_add_right _ b) h)
  rw [bmod_two_pow hm ha, bmod_two_pow (by omega) ((below a m).1 ha), show n + m - 1 = n + (m - 1) by omega]
  simp only [← below a (m - 1)]
  split <;> push_cast <;> ring

/-- The field of one PFX.IMM (02 R35, R36). -/
theorem assembled_one {l : Latch} {n field : Nat} {h : BitVec 24} (hn : n ≤ 24) (hf : field < 2 ^ n) (h1 : l.nimm = 1)
    (hi : l.imm = h.setWidth 48) : (assembled l n field).toInt = h.toInt * 2 ^ n + field := by
  have hv : l.imm.toNat = h.toNat := by rw [hi, BitVec.toNat_setWidth, Nat.mod_eq_of_lt (by omega)]
  rw [assembled_toInt (by omega) ?_, hv, h1, bmod_shift_add (by omega) h.isLt hf, BitVec.toInt_eq_toNat_bmod]
  calc l.imm.toNat * 2 ^ n + field < 2 ^ 24 * 2 ^ 24 + 2 ^ 24 := by
        have : 2 ^ n ≤ 2 ^ 24 := Nat.pow_le_pow_right (by omega) hn
        have := Nat.mul_le_mul (Nat.le_of_lt (hv ▸ h.isLt)) this
        omega
    _ < 2 ^ 64 := by omega

/-- The bits of the latch after two PFX.IMM (02 R35). -/
theorem twoFields_toNat (h k : BitVec 24) : ((h.setWidth 48 <<< 24) ||| k.setWidth 48).toNat = h.toNat * 2 ^ 24 + k.toNat := by
  have hs : h.toNat <<< 24 < 2 ^ 48 := by
    have := h.isLt
    rw [Nat.shiftLeft_eq]
    omega
  rw [BitVec.toNat_or, BitVec.toNat_shiftLeft, BitVec.toNat_setWidth, BitVec.toNat_setWidth,
    Nat.mod_eq_of_lt (a := h.toNat) (by omega), Nat.mod_eq_of_lt (a := k.toNat) (by omega), Nat.mod_eq_of_lt hs, Nat.shiftLeft_eq,
    mul_comm, ← Nat.two_pow_add_eq_or_of_lt k.isLt]

/-- The fields of two PFX.IMM (02 R35, R36). -/
theorem assembled_two {l : Latch} {n field : Nat} {h k : BitVec 24} (hn : n ≤ 16) (hf : field < 2 ^ n) (h2 : l.nimm = 2)
    (hi : l.imm = (h.setWidth 48 <<< 24) ||| k.setWidth 48) :
    (assembled l n field).toInt = (h.toInt * 2 ^ 24 + k.toNat) * 2 ^ n + field := by
  have hv : l.imm.toNat = h.toNat * 2 ^ 24 + k.toNat := by rw [hi, twoFields_toNat]
  have hw : l.imm.toNat < 2 ^ (24 + 24) := l.imm.isLt
  have top : (l.imm.toNat : Int).bmod (2 ^ (24 + 24)) = h.toInt * 2 ^ 24 + k.toNat := by
    rw [hv, bmod_shift_add (by omega) h.isLt k.isLt, BitVec.toInt_eq_toNat_bmod]
  rw [assembled_toInt (by omega) ?_, h2, bmod_shift_add (by omega) hw hf, top]
  calc l.imm.toNat * 2 ^ n + field < l.imm.toNat * 2 ^ n + 2 ^ n := by omega
    _ = (l.imm.toNat + 1) * 2 ^ n := by ring
    _ ≤ 2 ^ 48 * 2 ^ 16 := Nat.mul_le_mul hw (Nat.pow_le_pow_right (by omega) hn)

/-- Settles O25. -/
theorem assembledImmediates : Obligations.AssembledImmediates := by
  unfold Obligations.AssembledImmediates
  intro l n field h0 hn hf
  refine ⟨fun hz hi => ?_, fun h h1 hi => assembled_one hn hf h1 hi, fun h k hk h2 hi => assembled_two hk hf h2 hi⟩
  have hl : 2 ^ n ≤ 2 ^ 24 := Nat.pow_le_pow_right (by omega) hn
  rw [assembled_toInt (by omega) (by rw [hi]; simp; omega), hz, hi]
  simpa using bmod_two_pow h0 hf

end Sys2Proof.Proofs
end

