-- ==== Sys2Proof/Proofs/Refusals.lean ====
section
/-! Prefix words (02 R33 to R37), and the units that are refused (02 R34, R38, R41; 14 R344, R345; 15 R372). -/

namespace Sys2Proof.Proofs

open Sys2Proof.Machine Sys2Proof.Statements

/-- A change of the issuing thread (02 R55). -/
theorem modMe_ok {s : State} {x : Thread} (f : Thread → Thread) (hx : s.thread s.cur = some x) :
    modMe f s = .ok ((), s.setSlot s.cur { s.slot s.cur with thread := some (f x) }) := by
  rw [modMe_run, thread_of_slot hx]
  rfl

/-- What a PFX word does: a third one and a second PFX.MOD are illegal, one at the end of the space traps, any other fills the latch
(02 R33 to R35; 04 R101). -/
theorem runPrefix_eq {i : Instr} {isMod : Bool} {f : Latch → Latch} {s : State} {x : Thread} (hx : s.thread s.cur = some x)
    (hp : x.park = none) :
    runPrefix i isMod f s =
      if 2 ≤ x.latch.nimm + x.latch.nmod ∨ (isMod = true ∧ 1 ≤ x.latch.nmod) then runBody (illegal (wordOf i)) s
      else if 2 ^ 55 ≤ x.pc.toNat + 4 then runBody (abort (.trap { cause := 1, value := word (2 ^ 55), extra := 1 })) s
      else .next (s.setSlot s.cur { s.slot s.cur with thread := some { x with
        latch := f x.latch
        unitPc := x.first
        unitLen := x.unitLen + 1
        pc := x.pc + 4 } }) := by
  have whole : ∀ (go go' : M Unit), go s = go' s → runBody go s = runBody go' s := by
    intro go go' h
    simp only [runBody, h]
  unfold runPrefix
  split
  · next h => exact whole _ _ (by rw [bind_ok (me_run hx)]; simp only [h, Bool.or_eq_true, decide_eq_true_eq, Bool.and_eq_true, if_true])
  · next h =>
    split
    · next he =>
      exact whole _ _ (by
        rw [bind_ok (me_run hx)]
        simp only [h, he, Bool.or_eq_true, decide_eq_true_eq, Bool.and_eq_true, if_false, if_true])
    · next he =>
      refine runBody_ok hx hp ?_
      rw [bind_ok (me_run hx)]
      simp only [h, he, Bool.or_eq_true, decide_eq_true_eq, Bool.and_eq_true, if_false]
      exact modMe_ok _ hx

/-- Settles O24. -/
theorem prefixWordsComplete : Obligations.PrefixWordsComplete := by
  unfold Obligations.PrefixWordsComplete
  refine ⟨fun _ => rfl, ?_, ?_, ?_, ?_⟩
  · intro h s x hx hp hl hr
    rw [exec_pfxImm, execPfxImm, runPrefix_eq hx hp, if_neg (by simp; omega), if_neg (by omega)]
  · intro h s x hx hp
    rw [exec_pfxImm, execPfxImm, runPrefix_eq hx hp]
    exact ⟨fun hl => if_pos (.inl hl), fun hl he => by rw [if_neg (by simp; omega), if_pos he]⟩
  · intro r c sc f e n s x hx hp
    rw [exec_pfxMod, execPfxMod, runPrefix_eq hx hp]
    exact ⟨fun hl => if_pos (by simpa using hl), fun hl hm he => by rw [if_neg (by simp; omega), if_pos he]⟩
  · intro r c sc f e n s x hx hp hl hm hr
    rw [exec_pfxMod, execPfxMod, runPrefix_eq hx hp, if_neg (by simp; omega), if_neg (by omega)]

section
variable {s : State} {x : Thread} (hx : s.thread s.cur = some x) (hp : x.park = none) (hr : x.role = .single)
  (hu : prv (s.slot s.cur).tstat = false)
include hx hp hr hu

/-- A body that traps, of a lone thread in user mode, leaves the state in which the trap is taken (15 R367 to R369). -/
theorem runBody_trap {go : M Unit} {t : TrapInfo} (h : go s = .error (.trap t)) : runBody go s = .next (s.takeTrap s.cur x t) := by
  unfold runBody
  simp only [hx, hp, Option.isSome_none, Bool.false_eq_true, if_false, h, settle_trap hx hr hu]

/-- An illegal instruction takes the trap with cause 2 and its word (02 R41). -/
theorem runBody_illegal {go : M Unit} {w : IWord} {u : State} (h : go s = (illegal w : M Unit) u) :
    runBody go s = .next (s.takeTrap s.cur x { cause := 2, value := w.setWidth 64 }) := by
  rw [runBody_trap hx hp hr hu (h.trans (illegal_run _ _ _))]
  exact congrArg _ (takeTrap_entered s s.cur x { cause := 2, value := w.setWidth 64 } _)

/-- A unit with an ill-formed field or a PFX word that it does not accept is illegal (02 R34, R38, R41). -/
theorem runUnit_refused {i : Instr} {body : IWord → M Unit} (h : wellFormed i = false ∨ accepts i x.latch = false) :
    runUnit i body s = .next (s.takeTrap s.cur x { cause := 2, value := (wordOf i).setWidth 64 }) := by
  have refused : (wellFormed i && accepts i x.latch) = false := by rcases h with h | h <;> simp [h]
  refine runBody_illegal (u := s) hx hp hr hu ?_
  rw [bind_ok (me_run hx)]
  simp only [refused, Bool.false_eq_true, if_false]

end

/-- Every word but the prefixes runs as a unit (02 R33). -/
theorem exec_eq_runUnit {i : Instr} {w : IWord} (h : encode i = some w) (hp : ∀ h, i ≠ .pfxImm h)
    (hm : ∀ r c sc f e n, i ≠ .pfxMod r c sc f e n) : ∃ body, ∀ s, exec i s = runUnit i body s := by
  cases i
  case pfxImm k => exact absurd rfl (hp k)
  case pfxMod r c sc f e n => exact absurd rfl (hm r c sc f e n)
  all_goals cases h
  all_goals simp only [exec]
  all_goals exact ⟨_, fun _ => rfl⟩

theorem refusedUnits_trap : refusedUnitsTrap := by
  unfold refusedUnitsTrap
  refine ⟨?_, ?_, ?_⟩
  · intro h s x hx hp hr hu hl
    rw [exec_pfxImm, execPfxImm, runPrefix_eq hx hp, if_pos (.inl hl)]
    exact runBody_illegal hx hp hr hu rfl
  · intro r c sc f e n s x hx hp hr hu hl
    rw [exec_pfxMod, execPfxMod, runPrefix_eq hx hp, if_pos (by simpa using hl)]
    exact runBody_illegal hx hp hr hu rfl
  · intro i w hw hi hm s x hx hp hr hu h
    obtain ⟨body, hb⟩ := exec_eq_runUnit hw hi hm
    have hword : wordOf i = w := by rw [wordOf, hw]; rfl
    rw [hb, runUnit_refused hx hp hr hu h, hword]

theorem trapInstruction_traps : trapInstructionTraps := by
  unfold trapInstructionTraps
  intro k s x hi hx hr hu
  rw [exec_trap]
  exact (runUnit_trap hi hx hr hu (trap_run _ _ _)).trans (congrArg _ (takeTrap_entered s s.cur x _ _))

/-- Raising flags leaves the mode (03 R69, R70). -/
theorem prv_orFlags (w : Word) (f : Flags) : prv (orFlags w f) = prv w := by
  have : (word (f % 32 * 8)).getLsbD 28 = false := by
    rw [word, BitVec.getLsbD_ofNat, Nat.testBit_lt_two_pow (by omega), Bool.and_false]
  simp only [prv, bit, orFlags, BitVec.getLsbD_or, this, Bool.or_false]

/-- A state after the thread at `cur` has raised flags (03 R69, R70). -/
def flagged (s : State) (f : Flags) : State :=
  if f = 0 then s else s.setSlot s.cur { s.slot s.cur with tstat := orFlags (s.slot s.cur).tstat f }

theorem raiseFlags_run (f : Flags) (s : State) : raiseFlags f s = .ok ((), flagged s f) := by
  unfold raiseFlags flagged
  split
  · rfl
  · rw [modMySlot_run]

@[simp] theorem flagged_cur (s : State) (f : Flags) : (flagged s f).cur = s.cur := by
  unfold flagged
  split <;> rfl

/-- Raised flags stand in the thread's tstat, and nothing else of its slot changes. -/
@[simp] theorem flagged_slot (s : State) (f : Flags) : (flagged s f).slot s.cur =
    { s.slot s.cur with tstat := if f = 0 then (s.slot s.cur).tstat else orFlags (s.slot s.cur).tstat f } := by
  unfold flagged
  split
  · rfl
  · exact State.slot_setSlot _ _ _

theorem flagged_prv (s : State) (f : Flags) : prv ((flagged s f).slot (flagged s f).cur).tstat = prv (s.slot s.cur).tstat := by
  rw [flagged_cur, flagged_slot]
  dsimp only
  split
  · rfl
  · exact prv_orFlags _ _

/-- An instruction that user mode may not run, and whose body asks for the mode before anything else, is illegal there: its names are
judged first, or its unit has begun and goes on (02 R40; 15 R372). -/
theorem runUnit_privileged {i : Instr} {body : IWord → M Unit} {s : State} {x : Thread} (hx : s.thread s.cur = some x)
    (hp : x.park = none) (hr : x.role = .single) (hu : prv (s.slot s.cur).tstat = false) (hf : forbidden true i = true)
    (hb : ∀ t : State, prv (t.slot t.cur).tstat = false → body (wordOf i) t = (illegal (wordOf i) : M Unit) t) :
    runUnit i body s = .next (s.takeTrap s.cur x { cause := 2, value := (wordOf i).setWidth 64 }) := by
  by_cases h : wellFormed i = false ∨ accepts i x.latch = false
  · exact runUnit_refused hx hp hr hu h
  · have good : (wellFormed i && accepts i x.latch) = true := by simpa using h
    cases ho : x.resume.operands.isSome with
    | false =>
      refine runBody_illegal (u := s) hx hp hr hu ?_
      rw [bind_ok (me_run hx)]
      simp only [good, if_true]
      refine bind_error ?_
      unfold judgeNames
      rw [bind_ok (me_run hx)]
      simp only [bind_getS, ho, hu, Bool.not_false, hf, Bool.false_eq_true, if_false, if_true, illegal_run]
    | true =>
      have judged : judgeNames (wordOf i) i s = raiseFlags x.resume.flags s := by
        unfold judgeNames
        rw [bind_ok (me_run hx)]
        simp only [bind_getS, ho, if_true]
      refine runBody_illegal (u := flagged s x.resume.flags) hx hp hr hu ?_
      rw [bind_ok (me_run hx)]
      simp only [good, if_true]
      rw [bind_ok (judged.trans (raiseFlags_run _ _)), hb _ ((flagged_prv _ _).trans hu)]

theorem privilegedInstructions_trap : privilegedInstructionsTrap := by
  unfold privilegedInstructionsTrap
  rintro i (⟨a, rfl⟩ | ⟨d, a, b, rfl⟩ | ⟨d, k, rfl⟩ | ⟨d, k, rfl, hk⟩) s x hx hp hr hu
  · rw [exec_tret]
    exact runUnit_privileged hx hp hr hu rfl (fun t ht => by rw [bind_ok (userMode_run t), ht]; rfl)
  · rw [exec_shoot]
    exact runUnit_privileged hx hp hr hu rfl (fun t ht => by rw [bind_ok (userMode_run t), ht]; rfl)
  · rw [exec_sysw]
    exact runUnit_privileged hx hp hr hu (by simp [forbidden]) (fun t ht => by
      dsimp only
      rw [bind_ok (userMode_run t), ht]
      simp)
  · rw [exec_sysr]
    exact runUnit_privileged hx hp hr hu (by simp [forbidden, hk]) (fun t ht => by
      rw [bind_ok (userMode_run t), ht, hk]
      simp)

/-- Settles O30. -/
theorem illegalUnitsTrap : Obligations.IllegalUnitsTrap :=
  ⟨refusedUnits_trap, trapInstruction_traps, privilegedInstructions_trap⟩

end Sys2Proof.Proofs
end

