-- ==== Sys2Proof/Proofs/BankAccess.lean ====
section
/-! BSET, BCOMP and BINFO, and how an access reaches a bank and comes back (02 R57; 11 R278 to R280). -/

namespace Sys2Proof.Proofs

open Sys2Proof.Machine Sys2Proof.Statements

theorem bankAddress_ok {A : Word} {s : State} (h : inAperture A = true) : bankAddress A s = .ok ((), s) := by
  unfold bankAddress
  rw [if_pos h]
  rfl

/-- A destination that asks for no header takes any result (13 R333). -/
theorem noHeader_ok {w : IWord} {d : BitVec 8} {s : State} (h : ¬(d = 251#8 ∧ (s.slot s.cur).compose = [])) :
    noHeader w d s = .ok ((), s) := by
  have asks : asksHeader d s = .ok (false, s) := by
    unfold asksHeader
    rw [bind_ok (mySlot_run s)]
    have : (decide (d = 251#8) && (s.slot s.cur).compose.isEmpty) = false := by
      simpa [Bool.and_eq_false_imp] using h
    rw [this]
    rfl
  unfold noHeader
  rw [bind_ok asks]
  rfl

theorem bankInstructions_answered : bankInstructionsAnswered := by
  unfold bankInstructionsAnswered
  refine ⟨?_, ?_, ?_⟩
  · intro d a b s s1 s2 s3 s4 t x A B v vs hi hx ha hb hA hd he hw hr
    rw [exec_bset]
    refine runUnit_ok hi ?_
    rw [bind_ok (me_run hx), bind_ok ha, bind_ok hb, bind_ok (bankAddress_ok hA), bind_ok (noHeader_ok hd), bind_ok he]
    dsimp only
    rw [bind_ok hw]
    exact hr
  · intro d a b s s1 s2 s3 s4 t x A B v vs hi hx ha hb hA hd he hw hr
    rw [exec_bcomp]
    refine runUnit_ok hi ?_
    rw [bind_ok (me_run hx), bind_ok ha, bind_ok hb, bind_ok (bankAddress_ok hA), bind_ok (noHeader_ok hd), bind_ok he]
    dsimp only
    rw [bind_ok hw]
    exact hr
  · intro d a s s1 s2 s3 t x A v vs hi hx ha hA he hw hr
    rw [exec_binfo]
    refine runUnit_ok hi ?_
    rw [bind_ok (me_run hx), bind_ok ha, bind_ok (bankAddress_ok hA), bind_ok he]
    dsimp only
    rw [bind_ok hw]
    exact hr

theorem waitOlder_run {s : State} {x : Thread} (hx : s.thread s.cur = some x) :
    waitOlder s = if s.olderDone (coreOf s.cur) x then .ok ((), s) else .error (.park .stores) := by
  unfold waitOlder
  rw [bind_ok (me_run hx), bind_getS, parkUntil_run]

theorem checkNext_ok {s : State} {x : Thread} (hx : s.thread s.cur = some x) (h : x.pc.toNat + 4 < 2 ^ 55) :
    checkNext s = .ok ((), s) := by
  unfold checkNext
  rw [bind_ok (me_run hx), if_neg (by omega)]
  rfl

/-- An operation of a bank of the thread's own cluster moves no thread (12 R301). -/
theorem migrateForBank_near {x : Thread} {bank : Nat} {s : State} (h : clusterOf (bank / 4) = clusterOf (coreOf s.cur)) :
    migrateForBank x bank s = .ok ((), s) := by
  unfold migrateForBank
  rw [bind_getS, if_pos h]
  rfl

theorem bankAccess_receives : bankAccessReceives := by
  unfold bankAccessReceives
  intro x0 x ea v kind q s hx
  refine ⟨fun r s1 hr hp ht => ⟨_, ?_, rfl⟩, fun hr ho hb hn => ?_⟩
  · show bankAccess x0 ea kind v q s = _
    unfold bankAccess
    rw [bind_ok (me_run hx), bind_getS]
    simp only [hr]
    rw [bind_ok ht, hp]
    rfl
  · unfold bankAccess
    rw [bind_ok (me_run hx), bind_getS]
    simp only [hr]
    rw [bind_ok ((waitOlder_run hx).trans (if_pos ho)), bind_ok (migrateForBank_near hb), bind_ok (checkNext_ok hx hn)]
    rfl

/-- Settles O18. -/
theorem bankInstructionsComplete : Obligations.BankInstructionsComplete :=
  ⟨bankInstructions_answered, bankAccess_receives⟩

end Sys2Proof.Proofs
end

