-- ==== Sys2Proof/Proofs/Names.lean ====
section
/-! Reading and writing names (02 R27 to R31, R52, R53). -/

namespace Sys2Proof.Proofs

open Sys2Proof.Machine Sys2Proof.Statements

/-- A special name is read by its number (02 R29). -/
theorem readName_special {w : IWord} {n : BitVec 8} {s : State} {x : Thread} (hx : s.thread s.cur = some x) (hw : x.win ≤ 240)
    (hn : 240 ≤ n.toNat) : readName w n s = readSpecial w n.toNat s := by
  unfold readName
  rw [bind_ok (me_run hx), if_neg (by omega), if_neg (by omega)]

/-- A special name is written by its number (02 R29). -/
theorem writeName_special {w : IWord} {n : BitVec 8} {v : Word} {s : State} {x : Thread} (hx : s.thread s.cur = some x)
    (hw : x.win ≤ 240) (hn : 240 ≤ n.toNat) : writeName w n v s = writeSpecial w n.toNat v s := by
  unfold writeName
  rw [bind_ok (me_run hx), if_neg (by omega), if_neg (by omega)]

theorem shared_toNat {k : Nat} (hk : k < 6) : (BitVec.ofNat 8 (240 + k)).toNat = 240 + k := by
  rw [BitVec.toNat_ofNat, Nat.mod_eq_of_lt (by omega)]

/-! A trailing thread finds the core-shared registers as its leading thread did, whoever owns them (15 R380, R382): where the leading
thread has not read one yet, the trailing one waits for it. -/

/-- The words of another context that a pair's leading thread has not asked for: the trailing thread waits for it (15 R380). -/
theorem readName_shared_trailing {w : IWord} {s : State} {x y : Thread} {k : Nat} (hx : s.thread s.cur = some x) (hw : x.win ≤ 240)
    (hk : k < 6) (hr : x.role = .trailing) (hy : s.partner s.cur = some y) (hp : y.park = none) (hv : y.values = [])
    (he : x.resume.entered = []) : readName w (BitVec.ofNat 8 (240 + k)) s = .error (.park .pairValue) := by
  have finds : s.pairFinds x (s.ownsShared (coreOf s.cur) x.ctx) = true := by
    simp [State.pairFinds, hr, hy, hp]
  have waits : ∀ act : M (Word × List Word), enter 2 (word (240 + k)) act s = .error (.park .pairValue) := by
    intro act
    unfold enter
    rw [bind_ok (me_run hx)]
    simp only [hr, he]
    rw [bind_ok (show checkAccess 2 s = .ok ((), s) from rfl)]
    simp [hy, hv]
  rw [readName_special hx hw (by rw [shared_toNat hk]; omega), shared_toNat hk]
  unfold readSpecial
  rw [bind_ok (me_run hx), bind_getS, if_pos (by omega), if_pos finds]
  exact bind_error (waits _)

/-- A pair of threads of context 1 on core 0, whose leading thread is in slot 0 and has trapped nowhere; core 0 is no context's. -/
def pairOfReset : State :=
  { (State.reset.setSlot 0 { State.reset.slot 0 with thread := some { newThread 1 1 1 none 0 128 0 0x100000 with role := .leading } }).setSlot
      32 { State.reset.slot 32 with thread := some { newThread 2 1 1 none 32 128 128 0x100000 with role := .trailing } } with cur := 32 }

/-- Refutes O26: its last clause asks that a read of a core-shared register by a thread whose context does not own it be illegal, of every
thread. The trailing thread of a pair finds the register as its leading thread did, and parks here for it (15 R380, R382). -/
theorem not_namesRead : ¬ Obligations.NamesRead := by
  unfold Obligations.NamesRead
  rintro ⟨-, -, -, h⟩
  obtain ⟨-, special⟩ := h 0 pairOfReset { newThread 2 1 1 none 32 128 128 0x100000 with role := .trailing } rfl rfl
  obtain ⟨-, -, -, -, -, foreign⟩ := special (by decide)
  have traps := foreign 0 (by omega) (by decide)
  rw [readName_shared_trailing (y := { newThread 1 1 1 none 0 128 0 0x100000 with role := .leading }) rfl (by decide) (by omega) rfl rfl
    rfl rfl rfl] at traps
  cases traps

section
variable {w : IWord} {v : Word} {s : State} {x : Thread} (hx : s.thread s.cur = some x)
include hx

/-- A destination that is not there is illegal for a unit that has made no request (02 R29). -/
theorem lostDest_fresh (ho : x.resume.operands = none) : lostDest w s = (illegal w : M Unit) s := by
  unfold lostDest
  rw [bind_ok (me_run hx), ho]
  rfl

/-- A trap of the unit in progress, with what it has taken from outside (15 R380). -/
theorem illegal_of_thread {α : Type} :
    (illegal w : M α) s = .error (.trap { cause := 2, value := w.setWidth 64, entered := x.resume.entered }) := by
  rw [illegal_run, State.entered, hx]
  rfl

/-- The effects of a lone thread go through no comparator (15 R381). -/
theorem defer_single {e : Effect} {act : M Nat} {n : Nat} {t : State} (hr : x.role = .single) (h : act s = .ok (n, t)) :
    defer e act none s = .ok ((), t) := by
  unfold defer
  rw [bind_ok (me_run hx)]
  simp only [hr]
  rw [bind_ok h]
  rfl

end

/-- What a lone thread finds is what is there (15 R380). -/
theorem pairFinds_single {s : State} {x : Thread} {own : Bool} (hr : x.role = .single) : s.pairFinds x own = own := by
  simp [State.pairFinds, hr]

/-- A write of an entry with no soft error outstanding (15 R361). -/
theorem clearErr_sound {s : State} (loc : Loc) (h : s.errs = []) : clearErr loc s = .ok ((), s) := by
  unfold clearErr
  rw [modS_run, h]
  exact congrArg (fun e => Except.ok ((), { s with errs := e })) h.symm

theorem met_sound {s : State} (loc : Loc) (r : Reg) (h : s.errs = []) : s.met loc r = r := by simp [State.met, h]

/-- A state after the thread at `cur` has written a core-shared register: the value replaced stays to be seen for a while (02 R30). -/
def sharedWritten (s : State) (k : Nat) (v : Word) : State :=
  let now := findD (s.core (coreOf s.cur)).issuedAt 0 (slotOf s.cur)
  s.setCore (coreOf s.cur) { s.core (coreOf s.cur) with
    shOld := put (s.core (coreOf s.cur)).shOld k (((findD (s.core (coreOf s.cur)).sh {} k).val, slotOf s.cur, now) ::
      (findD (s.core (coreOf s.cur)).shOld [] k).filter (fun p => decide (now < p.2.2 + 8)))
    sh := put (s.core (coreOf s.cur)).sh k { val := v } }

theorem sharedRegisters_written : sharedRegistersWritten := by
  unfold sharedRegistersWritten
  intro w v k s x hx he hw hk
  have special : writeName w (BitVec.ofNat 8 (240 + k)) v s = writeSpecial w (240 + k) v s := by
    rw [writeName_special hx hw (by rw [shared_toNat hk]; omega), shared_toNat hk]
  constructor
  · intro hr ho
    have written : writeSpecial w (240 + k) v s = .ok ((), sharedWritten s k v) := by
      unfold writeSpecial
      rw [bind_ok (me_run hx), bind_getS, if_pos (by omega), if_pos ho, if_neg (by rw [hr]; decide)]
      simp only [Nat.add_sub_cancel_left, met_sound _ _ he]
      rw [bind_ok (clearErr_sound _ he), modCore_run]
      rfl
    refine ⟨_, special.trans written, ?_, ?_, ?_, ?_⟩
    · simp [sharedWritten]
    · simp [sharedWritten]
    · intro j hj
      simp [sharedWritten, findD_put_other _ _ _ _ _ hj]
    · simp [sharedWritten]
  · intro ho hn
    rw [special]
    unfold writeSpecial
    rw [bind_ok (me_run hx), bind_getS, if_pos (by omega), if_neg (by rw [ho]; decide), lostDest_fresh hx hn, illegal_of_thread hx]

theorem forwardCells_written : forwardCellsWritten := by
  unfold forwardCellsWritten
  intro w v s x core hx he hw hr hf hc
  subst hc
  have special : writeName w 250#8 v s = (if s.cellUsable (coreOf s.cur) (slotOf s.cur) then (do
      parkUntil (s.cellFree s.cur x) .fwo
      defer { kind := 11, addr := 0, size := 8, data := [v] } (do
        if x.role = .single then fillCell s.cur v else pure ()
        return 0)) else lostDest w) s := by
    rw [writeName_special hx hw (by decide)]
    unfold writeSpecial
    rw [bind_ok (me_run hx), bind_getS, pairFinds_single hr]
    rfl
  have free : s.cellFree s.cur x = !(s.core (coreOf s.cur)).full.contains (slotOf s.cur) := by simp [State.cellFree, hr, hf]
  refine ⟨fun hu ho => ?_, fun hu hfull => ?_, fun hu hfull => ?_⟩
  · rw [special, hu, if_neg (by decide), lostDest_fresh hx ho, illegal_of_thread hx]
  · rw [special, if_pos hu, free, hfull]
    exact bind_error (park_run _ _)
  · have filled : fillCell s.cur v s = .ok ((), s.setCore (coreOf s.cur) { s.core (coreOf s.cur) with
        full := (s.core (coreOf s.cur)).full ++ [slotOf s.cur]
        cells := put (s.core (coreOf s.cur)).cells (slotOf s.cur) { val := v } }) := by
      unfold fillCell
      rw [bind_ok (clearErr_sound _ he), modCore_run]
    refine special.trans ?_
    rw [if_pos hu, free, hfull, bind_ok (parkUntil_ok Bool.not_false)]
    refine defer_single hx hr (n := 0) ?_
    dsimp only
    rw [if_pos hr, bind_ok filled]
    rfl

/-- A write of snd whose word may stand where it comes: a word that completes its message waits for the older stores (13 R333). -/
theorem writeSnd_run {w : IWord} {v : Word} {s : State} {x : Thread} (hx : s.thread s.cur = some x) (he : s.errs = [])
    (hr : x.role = .single) (hv : ((s.slot s.cur).compose.isEmpty && headerless v) = false) :
    writeSnd w v s =
      if messageLength ((s.slot s.cur).compose ++ [(v, false)]) = (s.slot s.cur).compose.length + 1 ∧
        s.olderDone (coreOf s.cur) x = false then .error (.park .stores)
      else .ok ((), s.setSlot s.cur { s.slot s.cur with compose := (s.slot s.cur).compose ++ [(v, false)] }) := by
  unfold writeSnd
  rw [bind_getS, bind_ok (mySlot_run s)]
  simp only [hv, Bool.false_eq_true, if_false, List.length_append, List.length_singleton]
  by_cases hl : messageLength ((s.slot s.cur).compose ++ [(v, false)]) = (s.slot s.cur).compose.length + 1
  · simp only [hl, if_true, true_and]
    cases ho : s.olderDone (coreOf s.cur) x with
    | false => exact bind_error ((waitOlder_run hx).trans (by rw [ho]; rfl))
    | true =>
      rw [bind_ok ((waitOlder_run hx).trans (if_pos ho)), bind_ok (defer_single hx hr (pure_run 0 s)), bind_ok (clearErr_sound _ he),
        modMySlot_run]
      rfl
  · simp only [hl, if_false, false_and]
    rw [bind_ok (clearErr_sound _ he), modMySlot_run]

theorem messages_composed : messagesComposed := by
  unfold messagesComposed
  intro w v s x hx he hw hr
  have special : writeName w 251#8 v s = writeSnd w v s := by
    rw [writeName_special hx hw (by decide)]
    unfold writeSpecial
    rw [bind_ok (me_run hx), bind_getS]
    rfl
  rw [Gives, special]
  constructor
  · intro hc hb
    have bad : headerless v = true := by simpa [headerless, or_assoc] using hb
    unfold writeSnd
    rw [bind_getS, bind_ok (mySlot_run s), hc, bad]
    exact illegal_of_thread hx
  · intro h p hh hgood
    have good : ((s.slot s.cur).compose.isEmpty && headerless v) = false := by
      rw [Bool.and_eq_false_imp]
      intro hemp
      obtain ⟨h1, h2, h3⟩ := hgood (by simpa using hemp)
      simp [headerless, h1, h2, h3]
    have len : messageLength ((s.slot s.cur).compose ++ [(v, false)]) = bits h 61 57 := by
      cases hl : (s.slot s.cur).compose ++ [(v, false)] with
      | nil => rw [hl] at hh; cases hh
      | cons q qs => rw [hl] at hh; cases hh; rfl
    rw [writeSnd_run hx he hr good, len]
    refine ⟨fun hd => if_neg ?_, fun hd ho => if_pos ⟨hd, ho⟩⟩
    rintro ⟨hlen, hold⟩
    exact hd.elim (fun hne => hne hlen) (fun hok => by rw [hok] at hold; cases hold)

/-- A write of tid, pts or zero is discarded (02 R31). -/
theorem writeSpecial_discards {w : IWord} {v : Word} {n : Nat} {s : State} {x : Thread} (hx : s.thread s.cur = some x)
    (hn : n = 247 ∨ n = 254 ∨ n = 255) : writeSpecial w n v s = .ok ((), s) := by
  unfold writeSpecial
  rw [bind_ok (me_run hx), bind_getS]
  obtain rfl | rfl | rfl := hn <;> rfl

/-- Settles O27. -/
theorem namesWritten : Obligations.NamesWritten := by
  unfold Obligations.NamesWritten
  refine ⟨sharedRegisters_written, forwardCells_written, messages_composed, ?_⟩
  intro w v s x hx he hw
  have special : ∀ n : BitVec 8, 240 ≤ n.toNat → writeName w n v s = writeSpecial w n.toNat v s :=
    fun n hn => writeName_special hx hw hn
  refine ⟨fun n hn => ⟨_, writeName_resident w hx he hn, State.wrote_resident _ _ _ _ _ rfl, ?_, rfl, rfl⟩, ?_, ?_, ?_, ?_, ?_, ?_⟩
  · intro k hk
    simp [State.resident, State.wrote, State.setSlot, findD_put_other _ _ _ _ _ (show x.wbase + k ≠ x.wbase + n.toNat by omega)]
  · exact (special _ (by decide)).trans (writeSpecial_discards hx (.inl rfl))
  · exact (special _ (by decide)).trans (writeSpecial_discards hx (.inr (.inl rfl)))
  · exact (special _ (by decide)).trans (writeSpecial_discards hx (.inr (.inr rfl)))
  · refine (special _ (by decide)).trans ?_
    unfold writeSpecial
    rw [bind_ok (me_run hx), bind_getS]
    exact modMe_ok _ hx
  · intro hl
    refine (special _ (by decide)).trans ?_
    unfold writeSpecial
    rw [bind_ok (me_run hx), bind_getS]
    exact (congrFun (if_pos hl) s).trans (modMe_ok _ hx)
  · rintro n (⟨hlo, hhi⟩ | rfl | rfl | rfl)
    · unfold writeName
      rw [bind_ok (me_run hx), if_neg (by omega), if_pos hhi]
      exact illegal_of_thread hx
    all_goals
      refine (special _ (by decide)).trans ?_
      unfold writeSpecial
      rw [bind_ok (me_run hx), bind_getS]
      exact illegal_of_thread hx

end Sys2Proof.Proofs
end

