-- ==== Sys2Proof/Proofs/Fields.lean ====
section
/-! Bit fields of a word: what a field reads after a field is written (00 R4). -/

namespace Sys2Proof.Proofs

open Sys2Proof.Machine Sys2Proof.Statements

/-- The bits of a word after a field is written. -/
theorem getLsbD_setBits (w : Word) {hi lo : Nat} (v i : Nat) (h : hi < 64) :
    (setBits w hi lo v).getLsbD i = if lo ≤ i ∧ i ≤ hi then v.testBit (i - lo) else w.getLsbD i := by
  unfold setBits
  simp only [BitVec.getLsbD_or, BitVec.getLsbD_and, BitVec.getLsbD_not, BitVec.getLsbD_ofNat, Nat.testBit_mul_two_pow,
    Nat.testBit_two_pow_sub_one, Nat.testBit_mod_two_pow]
  by_cases field : lo ≤ i ∧ i ≤ hi
  · have inside : i - lo < hi + 1 - lo := by omega
    simp [field, inside, show i < 64 by omega]
  · by_cases hi64 : i < 64
    · have outside : lo ≤ i → ¬ i - lo < hi + 1 - lo := by omega
      by_cases hlo : lo ≤ i
      · simp [field, hi64, outside hlo]
      · simp [hi64, hlo]
    · rw [BitVec.getLsbD_of_ge _ _ (by omega), if_neg field]
      simp [hi64]

theorem testBit_bits (w : Word) (hi lo j : Nat) : (bits w hi lo).testBit j = (decide (j < hi + 1 - lo) && w.getLsbD (lo + j)) := by
  rw [bits, Nat.testBit_mod_two_pow, Nat.testBit_div_two_pow, BitVec.testBit_toNat, Nat.add_comm j]

/-- A written field reads as what was written, in its width. -/
theorem bits_setBits_same (w : Word) {hi lo : Nat} (v : Nat) (h : hi < 64) :
    bits (setBits w hi lo v) hi lo = v % 2 ^ (hi + 1 - lo) := by
  refine Nat.eq_of_testBit_eq fun j => ?_
  rw [testBit_bits, Nat.testBit_mod_two_pow, getLsbD_setBits w v _ h]
  by_cases hj : j < hi + 1 - lo
  · rw [if_pos (by omega), Nat.add_sub_cancel_left]
  · simp [hj]

/-- A field that has no bit of the one written stays. -/
theorem bits_setBits_other (w : Word) {hi lo a b : Nat} (v : Nat) (h : hi < 64) (hd : a < lo ∨ hi < b) :
    bits (setBits w hi lo v) a b = bits w a b := by
  refine Nat.eq_of_testBit_eq fun j => ?_
  rw [testBit_bits, testBit_bits, getLsbD_setBits w v _ h]
  by_cases hj : j < a + 1 - b
  · rw [if_neg (by omega)]
  · simp [hj]

/-- The fields of tstat after a trap (07 R167; 15 R369). -/
theorem trapStat_fields (w : Word) (n : Nat) (r : Option (Nat × Nat)) :
    bits (trapStat w n r) 25 22 = n % 16 ∧ prv (trapStat w n r) = true ∧ (r = none → bits (trapStat w n r) 19 9 = 0) ∧
    (∀ name k, r = some (name, k) → name < 256 → k < 4 → bits (trapStat w n r) 19 18 = k ∧ bits (trapStat w n r) 17 10 = name ∧
      bits (trapStat w n r) 9 9 = 1) ∧
    bits (trapStat w n r) 63 29 = bits w 63 29 ∧ bits (trapStat w n r) 27 26 = bits w 27 26 ∧
    bits (trapStat w n r) 21 20 = bits w 21 20 ∧ bits (trapStat w n r) 8 0 = bits w 8 0 := by
  unfold trapStat
  cases r with
  | none =>
    refine ⟨?_, ?_, fun _ => ?_, fun _ _ h => (by cases h), ?_, ?_, ?_, ?_⟩
    · simp [bits_setBits_other, bits_setBits_same]
    · rw [prv, bit]
      simp only [getLsbD_setBits, Nat.reduceLT]
      simp
    all_goals simp [bits_setBits_other, bits_setBits_same]
  | some p =>
    obtain ⟨name, k⟩ := p
    refine ⟨?_, ?_, fun h => (by cases h), ?_, ?_, ?_, ?_, ?_⟩
    · simp [bits_setBits_other, bits_setBits_same]
    · rw [prv, bit]
      simp only [getLsbD_setBits, Nat.reduceLT]
      simp
    · intro name' k' h hn hk
      cases h
      simp [bits_setBits_other, bits_setBits_same]
      omega
    all_goals simp [bits_setBits_other]

end Sys2Proof.Proofs
end

