-- ==== Sys2Proof/Proofs/Traps.lean ====
section
/-! Taking a trap: one thread's, that of both threads of a pair, and the kills (02 R55; 07 R167; 15 R365 to R370, R381, R382). -/

namespace Sys2Proof.Proofs

open Sys2Proof.Machine Sys2Proof.Statements

theorem core_setSlot (s : State) (tid : Nat) (v : Slot) : (s.setSlot tid v).core (coreOf tid) =
    { s.core (coreOf tid) with slots := put (s.core (coreOf tid)).slots (slotOf tid) v } := State.core_setCore _ _ _

theorem core_setSlot_other (s : State) (tid c : Nat) (v : Slot) (h : c ≠ coreOf tid) : (s.setSlot tid v).core c = s.core c :=
  State.core_setCore_other _ _ _ _ h

/-- A slot's change leaves the context table of every core. -/
theorem table_setSlot (s : State) (tid c : Nat) (v : Slot) : ((s.setSlot tid v).core c).table = (s.core c).table := by
  by_cases h : c = coreOf tid
  · subst h
    rw [core_setSlot]
  · rw [core_setSlot_other _ _ _ _ h]

theorem entry_setSlot (s : State) (tid c ctx : Nat) (v : Slot) : (s.setSlot tid v).entry c ctx = s.entry c ctx := by
  simp only [State.entry, State.entryOf, table_setSlot]

theorem modThread_run {s : State} {tid : Nat} {x : Thread} (f : Thread → Thread) (hx : s.thread tid = some x) :
    modThread tid f s = .ok ((), s.setSlot tid { s.slot tid with thread := some (f x) }) := by
  unfold modThread
  rw [modSlot_run, thread_of_slot hx]
  rfl

/-- The other thread of a pair stands in its slot. -/
theorem thread_of_partner {s : State} {tid : Nat} {y : Thread} (h : s.partner tid = some y) : s.thread (partnerOf tid) = some y := by
  unfold State.partner at h
  split at h
  · split at h
    · cases h
    · obtain ⟨z, hz, hy⟩ := Option.bind_eq_some_iff.1 h
      split at hy
      · cases hy
        exact hz
      · cases hy
  · cases h

/-- A fault's entry in the log is all that it changes outside the slot. -/
theorem logFault_eq (s : State) (tid : Nat) (x : Thread) (f : TrapInfo) : s.logFault tid x f = { s with
    logs := if f.cause = 1 ∨ f.cause = 5 ∨ f.cause = 7 then
      (s.logIn x.ctx 1 f.cause 0 x.home f.value (extendTime s.floor (s.pts (coreOf tid))) s.boot.pkgid).logs else s.logs } := by
  unfold State.logFault
  split <;> rfl

theorem slot_logFault (s : State) (tid n : Nat) (x : Thread) (f : TrapInfo) : (s.logFault tid x f).slot n = s.slot n := by
  rw [logFault_eq]
  rfl

theorem core_logFault (s : State) (tid c : Nat) (x : Thread) (f : TrapInfo) : (s.logFault tid x f).core c = s.core c := by
  rw [logFault_eq]
  rfl

/-- A slot whose thread has entered its context's handler (15 R367 to R370). -/
def handlerSlot (sl : Slot) (x : Thread) (f : TrapInfo) (e : CtxEntry) : Slot := { sl with
  tcause := word f.cause
  tvalue := f.value
  tpc := x.first.setWidth 64
  tstat := trapStat sl.tstat (x.unitLen + f.extra) f.replay
  thread := some { x.endUnit with
    values := []
    released := none
    pc := e.trap.setWidth 55 &&& ~~~3#55 } }

theorem enterTrap_eq (s : State) (tid : Nat) (x : Thread) (f : TrapInfo) :
    s.enterTrap tid x f = s.setSlot tid (handlerSlot (s.slot tid) x f (s.entry (coreOf tid) x.ctx)) := rfl

theorem enteredHandler_of_slot {s t : State} {tid : Nat} {x : Thread} {f : TrapInfo}
    (h : t.slot tid = handlerSlot (s.slot tid) x f (s.entry (coreOf tid) x.ctx)) : EnteredHandler s t tid x f := by
  unfold EnteredHandler
  rw [h]
  exact ⟨rfl, trapStat_fields _ _ _⟩

/-- What the trap of a lone thread, or of a thread whose partner's trap is taken with it, leaves. -/
theorem takeTrap_enteredHandler (s : State) (tid : Nat) (x : Thread) (f : TrapInfo) :
    EnteredHandler s (s.takeTrap tid x f) tid x f :=
  enteredHandler_of_slot (by rw [State.takeTrap, slot_logFault, enterTrap_eq, State.slot_setSlot])

theorem takeTrap_onlySlots (s : State) (tid : Nat) (x : Thread) (f : TrapInfo) :
    OnlySlots s (s.takeTrap tid x f) (coreOf tid) x f := by
  unfold OnlySlots State.takeTrap
  refine ⟨?_, fun c hc => ?_, ?_⟩
  · rw [logFault_eq]
    rfl
  · rw [core_logFault, State.enterTrap, core_setSlot_other _ _ _ _ hc]
  · rw [core_logFault, State.enterTrap, core_setSlot]

theorem takeTrap_slot_other (s : State) (tid n : Nat) (x : Thread) (f : TrapInfo) (h : n ≠ tid) :
    (s.takeTrap tid x f).slot n = s.slot n := by
  rw [State.takeTrap, slot_logFault, State.enterTrap, State.slot_setSlot_other _ _ _ _ h]

/-- A thread of a pair whose partner's trap is the same one takes it with it (15 R370, R382). -/
def bothTrapped (s : State) (tid : Nat) (x y : Thread) (f : TrapInfo) : State :=
  let s1 := s.setSlot (partnerOf tid) { s.slot (partnerOf tid) with thread := some { y with park := none } }
  (s1.enterTrap (partnerOf tid) { y with park := none } f).takeTrap tid x f

section
variable {s : State} {tid : Nat} (x y : Thread) (f : TrapInfo)

/-- The trap of both threads changes the two slots and the log. -/
theorem bothTrapped_slot (hne : partnerOf tid ≠ tid) :
    (bothTrapped s tid x y f).slot tid = handlerSlot (s.slot tid) x f (s.entry (coreOf tid) x.ctx) := by
  rw [bothTrapped, State.takeTrap, slot_logFault, enterTrap_eq, State.slot_setSlot, enterTrap_eq]
  simp only [State.slot_setSlot_other _ _ _ _ hne.symm, entry_setSlot]

theorem bothTrapped_partner (hne : partnerOf tid ≠ tid) : (bothTrapped s tid x y f).slot (partnerOf tid) =
    handlerSlot (s.slot (partnerOf tid)) y f (s.entry (coreOf (partnerOf tid)) y.ctx) := by
  rw [bothTrapped, State.takeTrap, slot_logFault, enterTrap_eq, State.slot_setSlot_other _ _ _ _ hne, enterTrap_eq,
    State.slot_setSlot, State.slot_setSlot, entry_setSlot]
  rfl

theorem bothTrapped_slot_other {n : Nat} (h : n ≠ tid) (hp : n ≠ partnerOf tid) : (bothTrapped s tid x y f).slot n = s.slot n := by
  rw [bothTrapped, takeTrap_slot_other _ _ _ _ _ h, enterTrap_eq, State.slot_setSlot_other _ _ _ _ hp,
    State.slot_setSlot_other _ _ _ _ hp]

theorem bothTrapped_onlySlots (hc : coreOf (partnerOf tid) = coreOf tid) :
    OnlySlots s (bothTrapped s tid x y f) (coreOf tid) x f := by
  unfold OnlySlots
  refine ⟨?_, fun c h => ?_, ?_⟩
  · rw [bothTrapped, State.takeTrap, logFault_eq]
    rfl
  · rw [bothTrapped, State.takeTrap, core_logFault, enterTrap_eq, core_setSlot_other _ _ _ _ h, enterTrap_eq,
      core_setSlot_other _ _ _ _ (hc ▸ h), core_setSlot_other _ _ _ _ (hc ▸ h)]
  · rw [bothTrapped, State.takeTrap, core_logFault, enterTrap_eq, core_setSlot, enterTrap_eq, ← hc, core_setSlot, core_setSlot]

end

theorem settle_trap_eq (tid : Nat) (f : TrapInfo) (s : State) : settle tid (.trap f) s = trapThread tid f s := rfl

/-- A double trap kills, and the fault's entry stands in the log (15 R370). -/
theorem takeTrapOf_double {s : State} {tid : Nat} {x : Thread} {f : TrapInfo} {o : Option Thread}
    (hp : prv (s.slot tid).tstat = true) :
    takeTrapOf tid x f o s = killThread tid 28 (word f.cause) x.first (s.logFault tid x f) := by
  unfold takeTrapOf
  rw [bind_getS, if_pos hp, bind_modS]

theorem trapThread_single {s : State} {tid : Nat} {x : Thread} {f : TrapInfo} (hx : s.thread tid = some x) (hr : x.role = .single) :
    trapThread tid f s = takeTrapOf tid x f none s := by
  unfold trapThread
  simp only [bind_getS, hx, hr, if_true]

theorem paired_traps : pairedTraps := by
  unfold pairedTraps
  intro s x y tid f hx hr hp hf
  refine ⟨fun hpark heff => ?_, fun hpark hfirst hxe hye hc hne hu => ?_, fun c v t hpark hd ht => ?_⟩
  · show settle tid (.trap f) s = _
    rw [settle_trap_eq]
    unfold trapThread
    simp only [bind_getS, hx, hr, if_false, hp, hpark, heff, List.isEmpty_nil, Bool.not_true, Bool.and_false, Bool.false_eq_true, hf,
      List.drop_nil, ite_self, List.append_nil]
    exact modThread_run _ hx
  · refine ⟨bothTrapped s tid x y f, ?_, enteredHandler_of_slot (bothTrapped_slot x y f hne),
      enteredHandler_of_slot (bothTrapped_partner x y f hne), bothTrapped_onlySlots x y f hc,
      fun n hn hnp => bothTrapped_slot_other x y f hn hnp⟩
    show settle tid (.trap f) s = _
    rw [settle_trap_eq]
    unfold trapThread
    simp only [bind_getS, hx, hr, if_false, hp, hpark, hfirst, hxe, hye, List.isEmpty_nil, decide_true, Bool.and_self, if_true]
    rw [bind_ok (modThread_run _ (thread_of_partner hp))]
    unfold takeTrapOf
    rw [bind_getS, State.slot_setSlot_other _ _ _ _ hne.symm, hu]
    rfl
  · show settle tid (.trap f) s = _
    rw [settle_trap_eq]
    unfold trapThread
    have differs : (decide (c = f.cause) && decide (v = f.value)) = false := by
      rcases hd with h | h <;> simp [h]
    simp only [bind_getS, hx, hr, if_false, hp, hpark, differs, Bool.false_and, Bool.false_eq_true]
    exact ht

/-- A kill of a thread that stands alone (15 R365). -/
theorem killThread_alone {s : State} {x : Thread} {tid code : Nat} {v : Word} {pc : BitVec 55} (hx : s.thread tid = some x)
    (hp : s.partner tid = none) (hq : ∀ q ∈ s.saved, q.mate ≠ some x.uid) :
    killThread tid code v pc s = killOne tid [recordWord 1 0 code x.ctx x.home 0, v, pc.setWidth 64, word x.launch] true s := by
  have skipped : ∀ l : List SavedThread, (∀ q ∈ l, q.mate ≠ some x.uid) →
      (forIn l PUnit.unit (fun q _ => do
        if q.mate = some x.uid then leaveSaved q else pure ()
        pure (ForInStep.yield PUnit.unit)) : M PUnit) s = .ok (⟨⟩, s) := by
    intro l hl
    induction l with
    | nil => rfl
    | cons q l ih =>
      rw [List.forIn_cons]
      obtain ⟨hq, hl⟩ := List.forall_mem_cons.1 hl
      rw [bind_ok (a := ForInStep.yield PUnit.unit) (t := s) (by rw [if_neg hq]; rfl)]
      exact ih hl
  unfold killThread
  simp only [bind_getS, hx, hp]
  rw [bind_ok (skipped _ hq)]

/-- A kill of both threads of a pair posts one record (15 R365, R382). -/
theorem killThread_pair {s s1 t : State} {x y : Thread} {tid code : Nat} {v : Word} {pc : BitVec 55} {words : List Word}
    (hx : s.thread tid = some x) (hp : s.partner tid = some y)
    (hw : words = [recordWord 1 0 code x.ctx x.home 0, v, pc.setWidth 64, word x.launch])
    (h1 : Gives (killOne (partnerOf tid) words false) s () s1) (h2 : Gives (killOne tid words true) s1 () t) :
    killThread tid code v pc s = .ok ((), t) := by
  subst hw
  unfold killThread
  simp only [bind_getS, hx, hp]
  rw [bind_ok h1]
  exact h2

/-- Settles O28. -/
theorem trapsTaken : Obligations.TrapsTaken := by
  unfold Obligations.TrapsTaken
  refine ⟨paired_traps, fun s x tid f hx hr hu => ?_, fun s t x tid f hx hr hu ht => ?_, fun s t x tid code v pc hx hp hq ht => ?_,
    fun s s1 t x y tid code v pc words hx hp hw h1 h2 => killThread_pair hx hp hw h1 h2⟩
  · refine ⟨s.takeTrap tid x f, ?_, takeTrap_enteredHandler s tid x f, takeTrap_onlySlots s tid x f,
      fun n hn => takeTrap_slot_other s tid n x f hn⟩
    show settle tid (.trap f) s = _
    rw [settle_trap_eq, trapThread_single hx hr]
    unfold takeTrapOf
    rw [bind_getS, hu]
    rfl
  · show settle tid (.trap f) s = _
    rw [settle_trap_eq, trapThread_single hx hr, takeTrapOf_double hu]
    exact ht
  · show killThread tid code v pc s = _
    rw [killThread_alone hx hp hq]
    exact ht

end Sys2Proof.Proofs
end

