-- ==== Sys2Proof/Proofs/Walks.lean ====
section
/-! PAGE_WALK and the walker's queue (14 R341 to R343). A walk that finds a page wakes every thread that waits for the page, one after
another; `wake` is what it does to one. -/

namespace Sys2Proof.Proofs

open Sys2Proof.Machine Sys2Proof.Statements

theorem mem_of_find {α : Type} {m : FMap α} {n : Nat} {v : α} (h : find m n = some v) : (n, v) ∈ m := by
  induction m with
  | nil => cases h
  | cons p m ih =>
    obtain ⟨k, x⟩ := p
    simp only [find] at h
    split at h
    · next hk =>
      cases h
      subst hk
      exact List.mem_cons_self
    · exact List.mem_cons_of_mem _ (ih h)

/-- A slot that holds a thread is listed. -/
theorem mem_tids {s : State} {t : Nat} {x : Thread} (h : s.thread t = some x) : t ∈ s.tids := by
  simp only [State.thread, State.slot, State.core, findD] at h
  cases hc : find s.cores (coreOf t) with
  | none => rw [hc] at h; cases h
  | some c =>
    rw [hc, Option.getD_some] at h
    cases hs : find c.slots (slotOf t) with
    | none => rw [hs] at h; cases h
    | some sl =>
      refine List.mem_flatMap.2 ⟨_, mem_of_find hc, List.mem_map.2 ⟨_, mem_of_find hs, ?_⟩⟩
      simp only [coreOf, slotOf]
      omega

theorem mem_threads {s : State} {t : Nat} {x : Thread} : (t, x) ∈ s.threads ↔ s.thread t = some x := by
  constructor
  · intro h
    obtain ⟨n, -, hn⟩ := List.mem_filterMap.1 h
    obtain ⟨y, hy, he⟩ := Option.map_eq_some_iff.1 hn
    cases he
    exact hy
  · intro h
    exact List.mem_filterMap.2 ⟨t, mem_tids h, by rw [h]; rfl⟩

/-- The misses of a page are those of the threads that are parked for it. -/
theorem mem_misses {s : State} {k ctx level page : Nat} {m : Nat × Word × Nat × Option (Nat × Nat)} :
    m ∈ s.misses k ctx level page ↔ ∃ y, s.thread m.1 = some y ∧ y.park = some (.walk m.2.1 m.2.2.1 m.2.2.2) ∧
      clusterOf (coreOf m.1) = k ∧ y.ctx = ctx ∧ m.2.1.toNat % 2 ^ 55 / pageSize level = page := by
  constructor
  · intro h
    obtain ⟨⟨t, y⟩, hp, hm⟩ := List.mem_filterMap.1 h
    dsimp only at hm
    split at hm
    · next va kind replay hpark =>
      split at hm
      · next hc =>
        cases hm
        simp only [Bool.and_eq_true, decide_eq_true_eq] at hc
        obtain ⟨⟨hk, hx⟩, hv⟩ := hc
        exact ⟨y, mem_threads.1 hp, hpark, hk, hx, hv⟩
      · cases hm
    · cases hm
  · rintro ⟨y, hy, hpark, hk, hx, hv⟩
    refine List.mem_filterMap.2 ⟨(m.1, y), mem_threads.2 hy, ?_⟩
    simp only [hpark, hk, hx, hv, decide_true, Bool.and_self, if_true]

/-- A change of a core that keeps its slots leaves every slot. -/
theorem slot_setCore_of_slots {s : State} {c : Nat} {v : Core} (h : v.slots = (s.core c).slots) (t : Nat) :
    (s.setCore c v).slot t = s.slot t := by
  by_cases hc : coreOf t = c
  · subst hc
    simp [State.slot, h]
  · simp [State.slot, State.core_setCore_other _ _ _ _ hc]

/-- A thread that is ready. -/
def unparked (x : Thread) : Thread := { x with park := none }

/-- A state in which a page has entered a core's TLB. -/
def tlbFilled (e : TlbEntry) (s : State) (c : Nat) : State := s.setCore c { s.core c with tlb := tlbPut (s.core c).tlb e }

theorem tlbFilled_slot (e : TlbEntry) (s : State) (c t : Nat) : (tlbFilled e s c).slot t = s.slot t :=
  slot_setCore_of_slots (v := { s.core c with tlb := tlbPut (s.core c).tlb e }) rfl t

/-- A slot whose thread is ready. -/
def slotReady (sl : Slot) : Slot := { sl with thread := sl.thread.map unparked }

/-- A state in which the page that a thread waited for is in its core's TLB, and the thread is ready (14 R343). -/
def wake (e : TlbEntry) (s : State) (tid : Nat) : State :=
  (tlbFilled e s (coreOf tid)).setSlot tid (slotReady ((tlbFilled e s (coreOf tid)).slot tid))

theorem wake_thread (e : TlbEntry) (s : State) (tid n : Nat) :
    (wake e s tid).thread n = if n = tid then (s.thread n).map unparked else s.thread n := by
  unfold wake
  split
  · next h =>
    subst h
    rw [State.thread_setSlot, tlbFilled_slot]
    rfl
  · next h => rw [State.thread, State.slot_setSlot_other _ _ _ _ h, tlbFilled_slot, State.thread]

theorem wake_tlb (e : TlbEntry) (s : State) (tid c : Nat) : ((wake e s tid).core c).tlb =
    if c = coreOf tid then tlbPut (s.core c).tlb e else (s.core c).tlb := by
  unfold wake
  split
  · next h =>
    subst h
    rw [core_setSlot, tlbFilled, State.core_setCore]
  · next h => rw [core_setSlot_other _ _ _ _ h, tlbFilled, State.core_setCore_other _ _ _ _ h]

section
variable {β : Type} (e : TlbEntry) (tid : β → Nat)

/-- A state in which the threads of a list have been woken, one after another. -/
def wakeAll (s : State) (l : List β) : State := l.foldl (fun s m => wake e s (tid m)) s

theorem wakeAll_thread (l : List β) (s : State) (n : Nat) :
    (wakeAll e tid s l).thread n = if n ∈ l.map tid then (s.thread n).map unparked else s.thread n := by
  induction l generalizing s with
  | nil => rfl
  | cons m l ih =>
    show (wakeAll e tid (wake e s (tid m)) l).thread n = _
    rw [ih, wake_thread]
    by_cases hm : n = tid m
    · subst hm
      rw [if_pos rfl, List.map_cons, if_pos List.mem_cons_self]
      split
      · rw [Option.map_map]
        rfl
      · rfl
    · simp only [hm, if_false, List.map_cons, List.mem_cons, false_or]

theorem wakeAll_tlb_head (l : List β) (s : State) (c : Nat) (h : ((s.core c).tlb.head? = some e) ∨ ∃ m ∈ l, coreOf (tid m) = c) :
    ((wakeAll e tid s l).core c).tlb.head? = some e := by
  induction l generalizing s with
  | nil =>
    obtain h | ⟨m, hm, -⟩ := h
    · exact h
    · cases hm
  | cons m l ih =>
    refine ih (wake e s (tid m)) ?_
    rw [wake_tlb]
    by_cases hc : c = coreOf (tid m)
    · exact .inl (by rw [if_pos hc]; rfl)
    · rw [if_neg hc]
      obtain h | ⟨n, hn, hcn⟩ := h
      · exact .inl h
      · obtain rfl | hn := List.mem_cons.1 hn
        · exact absurd hcn.symm hc
        · exact .inr ⟨n, hn, hcn⟩

/-- Waking threads changes the cores alone. -/
theorem wakeAll_frame (l : List β) (s : State) : wakeAll e tid s l = { s with cores := (wakeAll e tid s l).cores } := by
  induction l generalizing s with
  | nil => rfl
  | cons m l ih => exact (ih (wake e s (tid m))).trans rfl

end

/-- The state in which a page has entered a cluster's TLB and its engines' misses of it have been answered (14 R342, R343). -/
def pageEntered (s : State) (k : Nat) (e : TlbEntry) : State :=
  s.setCluster k { s.cluster k with
    tlb := tlbPut2 (s.cluster k).tlb e
    asked := (s.cluster k).asked.filter
      (fun m => !(m.ended.isNone && m.ctx = e.ctx && m.page * 65536 / pageSize e.level = e.page)) }

/-- The state in which a page has been found and every miss that waited for it is answered. -/
def missesAnswered (s : State) (k : Nat) (e : TlbEntry) : State :=
  wakeAll e (·.1) (pageEntered s k e) (s.misses k e.ctx e.level e.page)

/-- The state in which the walks that nothing waits for have left a cluster's walker (14 R343). -/
def walksTidied (s : State) (k : Nat) : State := s.setCluster k { s.cluster k with walks := s.liveWalks k }

theorem tidyWalks_run (k : Nat) (s : State) : tidyWalks k s = .ok ((), walksTidied s k) := rfl

theorem answerMisses_run (k : Nat) (e : TlbEntry) (s : State) :
    answerMisses k e s = .ok ((), walksTidied (missesAnswered s k e) k) := by
  have loop : ∀ (l : List (Nat × Word × Nat × Option (Nat × Nat))) (u : State),
      (forIn l PUnit.unit (fun m _ => do
        modCore (coreOf m.1) (fun c => { c with tlb := tlbPut c.tlb e })
        modThread m.1 (fun x => { x with park := none })
        pure (ForInStep.yield PUnit.unit)) : M PUnit) u = .ok (⟨⟩, wakeAll e (·.1) u l) := by
    intro l
    induction l with
    | nil => intro u; rfl
    | cons m l ih =>
      intro u
      rw [List.forIn_cons, bind_assoc_run, bind_ok (modCore_run _ _ _), bind_assoc_run]
      change (modThread m.1 unparked >>= _) (tlbFilled e u (coreOf m.1)) = _
      rw [bind_ok (show modThread m.1 unparked (tlbFilled e u (coreOf m.1)) = .ok ((), wake e u m.1) from rfl)]
      exact ih _
  unfold answerMisses
  rw [bind_ok (show modCluster _ _ s = .ok ((), pageEntered s k e) from rfl), bind_getS, bind_ok (loop _ _)]
  rfl

/-! What a walk reads leaves every thread as it is. -/

theorem cores_noteReads (l : List Nat) (s : State) : (l.foldl State.noteRead s).cores = s.cores := by
  induction l generalizing s with
  | nil => rfl
  | cons a l ih => exact ih (s.noteRead a)

theorem cores_refetch (s : State) (line : Nat) (x : L2Line) : (s.refetch line x).cores = s.cores := by
  unfold State.refetch
  dsimp only
  split <;> exact cores_noteReads _ s

theorem cores_checkL2 (s : State) (line : Nat) : (s.checkL2 line).cores = s.cores := by
  unfold State.checkL2
  generalize s.errs.filter _ = l
  induction l generalizing s with
  | nil => rfl
  | cons e l ih =>
    rw [List.foldl_cons, ih]
    dsimp only
    split
    · split
      · rw [State.setSlice_cores, cores_refetch]
      · rfl
      · rfl
      · rfl
    · rfl

section
variable {v : FMap Core}

theorem keeps_cores_noteMiss (line : Nat) : Keeps (·.cores = v) (noteMiss line) :=
  Keeps.bind Keeps.getS (fun _ => Keeps.bind (Keeps.forIn (fun _ _ => Keeps.bind
    (show Keeps _ (Machine.noteRead _) from Keeps.modS (fun _ h => h)) (fun _ => Keeps.pure _)) _ _) (fun _ => Keeps.pure _))

theorem keeps_cores_physRead (pa : Nat) : Keeps (·.cores = v) (physRead pa) := by
  refine Keeps.bind (Keeps.bind (Keeps.modS (fun s h => (cores_checkL2 s _).trans h)) (fun _ => ?_)) (fun _ => Keeps.pure _)
  refine Keeps.bind Keeps.getS (fun _ => ?_)
  dsimp only
  split
  · exact Keeps.bind Keeps.getS (fun _ => Keeps.pure _)
  · exact Keeps.bind (keeps_cores_noteMiss _) (fun _ => Keeps.bind Keeps.getS (fun _ => Keeps.pure _))

theorem keeps_cores_walkFrom (va n : Nat) : ∀ table level, Keeps (·.cores = v) (walkFrom table va n level) := by
  induction n with
  | zero => exact fun _ _ => Keeps.pure _
  | succ n ih =>
    intro table level
    refine Keeps.bind (keeps_cores_physRead _) (fun r => ?_)
    dsimp only
    split
    · exact Keeps.pure _
    · split
      · exact Keeps.pure _
      · split
        · exact ih _ _
        · split <;> exact Keeps.pure _

end

theorem walk_cores {root va : Nat} {r : WalkResult} {s t : State} (h : walk root va s = .ok (r, t)) : t.cores = s.cores :=
  keeps_cores_walkFrom _ _ _ _ s r t rfl h

theorem threads_of_cores {s t : State} (h : t.cores = s.cores) : t.threads = s.threads := by
  simp only [State.threads, State.tids, State.thread, State.slot, State.core, h]

theorem misses_of_cores {s t : State} (h : t.cores = s.cores) (k ctx level page : Nat) :
    t.misses k ctx level page = s.misses k ctx level page := by
  simp only [State.misses, threads_of_cores h]

/-- A page of 64 KiB lies in the page of its level that its addresses lie in. -/
theorem page_of_page (va level : Nat) : va / pageSize 3 * 65536 / pageSize level = va / pageSize level := by
  have key : ∀ n m, m = 65536 * n → va / 65536 * 65536 / m = va / m := fun n m hm => by
    rw [hm, Nat.mul_comm (va / 65536), Nat.mul_div_mul_left _ _ (by decide : 0 < 65536), Nat.div_div_eq_div_mul]
  have h3 : pageSize 3 = 65536 := rfl
  rw [h3]
  obtain rfl | h1 := eq_or_ne level 1
  · exact key 67108864 _ rfl
  · obtain rfl | h2 := eq_or_ne level 2
    · exact key 8192 _ rfl
    · exact key 1 _ ((if_neg h1).trans (if_neg h2))

section
variable {s : State} {k : Nat} {e : TlbEntry}

theorem pageEntered_cluster : (pageEntered s k e).cluster k = { s.cluster k with
    tlb := tlbPut2 (s.cluster k).tlb e
    asked := (s.cluster k).asked.filter
      (fun m => !(m.ended.isNone && m.ctx = e.ctx && m.page * 65536 / pageSize e.level = e.page)) } :=
  State.cluster_setCluster _ _ _

/-- What is answered of a page's misses changes the cores and the cluster alone. -/
theorem missesAnswered_frame : missesAnswered s k e = { pageEntered s k e with cores := (missesAnswered s k e).cores } :=
  wakeAll_frame _ _ _ _

theorem missesAnswered_cluster : (missesAnswered s k e).cluster k = (pageEntered s k e).cluster k := by
  rw [missesAnswered_frame]
  rfl

theorem missesAnswered_thread (n : Nat) : (missesAnswered s k e).thread n =
    if n ∈ (s.misses k e.ctx e.level e.page).map (·.1) then (s.thread n).map unparked else s.thread n :=
  wakeAll_thread _ _ _ _ _

/-- A miss that is still there waited before. -/
theorem misses_of_missesAnswered {ctx level page : Nat} {m : Nat × Word × Nat × Option (Nat × Nat)}
    (h : m ∈ (missesAnswered s k e).misses k ctx level page) : m ∈ s.misses k ctx level page := by
  obtain ⟨y, hy, hp, hm⟩ := mem_misses.1 h
  rw [missesAnswered_thread] at hy
  split at hy
  · obtain ⟨z, -, rfl⟩ := Option.map_eq_some_iff.1 hy
    cases hp
  · exact mem_misses.2 ⟨y, hy, hp, hm⟩

theorem walksTidied_walks (v : State) : ((walksTidied v k).cluster k).walks = v.liveWalks k := by
  rw [walksTidied, State.cluster_setCluster]

/-- A walk that is still there was there before. -/
theorem liveWalks_of_missesAnswered {w : Nat × Nat} (h : w ∈ (missesAnswered s k e).liveWalks k) : w ∈ s.liveWalks k := by
  simp only [State.liveWalks, missesAnswered_cluster, pageEntered_cluster, List.mem_filter, Bool.or_eq_true, Bool.not_eq_true',
    List.isEmpty_eq_false_iff_exists_mem, List.any_eq_true] at h ⊢
  obtain ⟨hw, ⟨m, hm⟩ | ⟨m, ⟨hm, -⟩, hv⟩⟩ := h
  · exact ⟨hw, .inl ⟨m, misses_of_missesAnswered hm⟩⟩
  · exact ⟨hw, .inr ⟨m, hm, hv⟩⟩

/-- A miss of an engine that is still there waited before, and not for the page. -/
theorem asked_of_missesAnswered {va : Nat} (he : e.page = va / pageSize e.level) {m : EngineMiss}
    (h : m ∈ ((missesAnswered s k e).cluster k).asked) :
    m ∈ (s.cluster k).asked ∧ m.waits e.ctx (va / pageSize 3) = false := by
  rw [missesAnswered_cluster, pageEntered_cluster] at h
  obtain ⟨hm, hf⟩ := List.mem_filter.1 h
  refine ⟨hm, Bool.eq_false_iff.2 (fun hw => ?_)⟩
  simp only [EngineMiss.waits, Bool.and_eq_true, decide_eq_true_eq] at hw
  obtain ⟨⟨hn, hc⟩, hp⟩ := hw
  rw [hn, hp, page_of_page, he] at hf
  simp [hc] at hf

end

/-- A walk that finds no page and that one thread has waited for traps that thread, and the engines' misses that joined it end. -/
theorem failMisses_run {k ctx page tid kind : Nat} {va : Word} {s s2 s3 : State} {x : Thread}
    (hm : s.misses k ctx 3 page = [(tid, va, kind, none)]) (hx : s.thread tid = some x)
    (hs : settle tid (.trap { cause := pageFault kind, value := va, extra := if kind = 2 then (va.toNat - x.pc.toNat) / 4 else 0 }) s =
      .ok ((), s2))
    (h3 : s3 = s2.setCluster k { s2.cluster k with
      asked := (s2.cluster k).asked.map (fun m => if m.waits ctx page then { m with ended := some false } else m) }) :
    failMisses k ctx page false s = .ok ((), walksTidied s3 k) := by
  subst h3
  unfold failMisses
  rw [bind_getS, hm, List.forIn_cons]
  simp only [Bool.false_eq_true, if_false, bind_assoc_run, bind_getS, hx, Option.map_some, Option.getD_some]
  rw [bind_ok hs]
  rfl

/-- What the result of a walk does (14 R343). -/
def walkEnds (k ctx va : Nat) : WalkResult → M Unit
  | .leaf level w => answerMisses k { ctx := ctx, level := level, page := va % 2 ^ 55 / pageSize level, leaf := w }
  | .poisoned => failMisses k ctx (va % 2 ^ 55 / pageSize 3) true
  | .absent => failMisses k ctx (va % 2 ^ 55 / pageSize 3) false

section
variable {tid : Nat} {s : State} {x : Thread} {va : Word} {kind : Nat} (ht : tid < 262144) (hx : s.thread tid = some x)
  (hp : x.park = some (.walk va kind none))
include ht hx hp

/-- A walk whose turn it is not does not run. -/
theorem pageWalk_later (h : s.walkTurn (clusterOf (coreOf tid)) x.ctx (va.toNat % 2 ^ 55 / pageSize 3) = false) :
    exec (.pageWalk tid) s = .next s := by
  have hb : pageWalk tid s = .error (.park (.advance 0)) := by
    unfold pageWalk
    rw [bind_getS, bind_ok (needSome_ok hx)]
    dsimp only
    rw [hp]
    dsimp only
    rw [h]
    rfl
  have hw : wellFormed (.pageWalk tid) = true := decide_eq_true ht
  rw [exec_pageWalk, execPageWalk, unit, if_pos hw, runEvent, hb]

/-- A walk whose turn it is runs, and what it finds answers the misses. -/
theorem pageWalk_run {r : WalkResult} {s1 t : State}
    (h : s.walkTurn (clusterOf (coreOf tid)) x.ctx (va.toNat % 2 ^ 55 / pageSize 3) = true)
    (hw : walk (s.rootOf (coreOf tid) x.ctx) va.toNat s = .ok (r, s1))
    (hr : walkEnds (clusterOf (coreOf tid)) x.ctx va.toNat r s1 = .ok ((), t)) :
    exec (.pageWalk tid) s = .next t := by
  rw [exec_pageWalk, execPageWalk]
  refine unit_ok (decide_eq_true ht) ?_
  unfold pageWalk
  rw [bind_getS, bind_ok (needSome_ok hx)]
  dsimp only
  rw [hp]
  dsimp only
  rw [bind_ok (need_ok h), bind_ok hw]
  cases r <;> exact hr

end

theorem pageWalkCompletes_holds : pageWalkCompletes := by
  constructor
  · intro tid s x va kind ht hx hp hl
    exact pageWalk_later ht hx hp (decide_eq_false (by omega))
  · intro tid s s1 x va kind ht hx hp hturn hx1
    constructor
    · intro level w hw
      let e : TlbEntry := { ctx := x.ctx, level := level, page := va.toNat % 2 ^ 55 / pageSize level, leaf := w }
      have hmiss : (tid, va, kind, none) ∈ s1.misses (clusterOf (coreOf tid)) e.ctx e.level e.page :=
        mem_misses.2 ⟨x, hx1, hp, rfl, rfl, rfl⟩
      have hthread : ∀ m ∈ s1.misses (clusterOf (coreOf tid)) e.ctx e.level e.page, ∀ y, s1.thread m.1 = some y →
          (missesAnswered s1 (clusterOf (coreOf tid)) e).thread m.1 = some { y with park := none } := fun m hm y hy => by
        rw [missesAnswered_thread, if_pos (List.mem_map_of_mem hm), hy]
        rfl
      have hcluster : (walksTidied (missesAnswered s1 (clusterOf (coreOf tid)) e) (clusterOf (coreOf tid))).cluster
          (clusterOf (coreOf tid)) = { (missesAnswered s1 (clusterOf (coreOf tid)) e).cluster (clusterOf (coreOf tid)) with
            walks := (missesAnswered s1 (clusterOf (coreOf tid)) e).liveWalks (clusterOf (coreOf tid)) } :=
        State.cluster_setCluster _ _ _
      refine ⟨_, e, pageWalk_run ht hx hp hturn hw (answerMisses_run _ e s1), rfl, hthread _ hmiss x hx1,
        wakeAll_tlb_head _ _ _ _ _ (.inr ⟨_, hmiss, rfl⟩), ?_, ?_, ?_, ?_, ?_, hthread⟩
      · rw [hcluster, missesAnswered_cluster, pageEntered_cluster]
        rfl
      · rw [walksTidied, missesAnswered_frame]
        rfl
      · rw [walksTidied, missesAnswered_frame]
        rfl
      · intro w hw
        rw [walksTidied_walks] at hw
        exact liveWalks_of_missesAnswered hw
      · intro m hm
        rw [hcluster] at hm
        exact asked_of_missesAnswered rfl hm
    · intro s2 s3 t hw hm hs h3 ht'
      subst ht'
      refine pageWalk_run ht hx hp hturn hw (failMisses_run ?_ hx1 hs h3)
      rw [misses_of_cores (walk_cores hw), hm]

/-! The misses of engines in the walker's queue (14 R343). -/

theorem put_put {α : Type} (m : FMap α) (n : Nat) (v w : α) : put (put m n v) n w = put m n w := by
  induction m with
  | nil => simp [put]
  | cons p m ih =>
    obtain ⟨k, x⟩ := p
    simp only [put]
    split
    · simp [put]
    · split
      · simp [put]
      · next h1 h2 => rw [put, if_neg h1, if_neg h2, ih]

theorem setCluster_setCluster (s : State) (k : Nat) (v w : Cluster) : (s.setCluster k v).setCluster k w = s.setCluster k w :=
  congrArg (fun m => { s with clusters := m }) (put_put _ _ _ _)

/-- Whether an engine's miss has an answer for a job's walk of a page. -/
def answered (ctx page : Nat) (job : Bool × Nat) (m : EngineMiss) : Bool :=
  m.ctx = ctx && m.page = page && m.copy = job.1 && m.jid = job.2 && m.ended.isSome

theorem takeAnswer_run (k ctx page : Nat) (job : Bool × Nat) (s : State) : takeAnswer k ctx page job s =
    .ok (((s.cluster k).asked.find? (answered ctx page job)).bind (·.ended),
      s.setCluster k { s.cluster k with asked := (s.cluster k).asked.filter (fun m => !answered ctx page job m) }) := rfl

theorem liveWalks_setCluster {s : State} {k : Nat} {v : Cluster} (hw : v.walks = (s.cluster k).walks)
    (ha : v.asked = (s.cluster k).asked) : (s.setCluster k v).liveWalks k = s.liveWalks k := by
  have hm : ∀ ctx level page, (s.setCluster k v).misses k ctx level page = s.misses k ctx level page :=
    misses_of_cores (State.setCluster_cores _ _ _) k
  simp only [State.liveWalks, State.cluster_setCluster, hw, ha, hm]

/-- A miss that 32 walks come before is left to the walker's queue. -/
theorem engineXlat_waits {core ctx va kind : Nat} {job : Bool × Nat} {s : State}
    (ha : ∀ m ∈ (s.cluster (clusterOf core)).asked, m.ended = none) (ht : tlbFind (s.cluster (clusterOf core)).tlb ctx va = none)
    (hw : s.walkTurn (clusterOf core) ctx (va % 2 ^ 55 / pageSize 3) = false) :
    engineXlat core ctx va kind job s =
      .error (.miss (clusterOf core) { ctx := ctx, page := va % 2 ^ 55 / pageSize 3, copy := job.1, jid := job.2 }) := by
  have hno : ∀ m ∈ (s.cluster (clusterOf core)).asked, answered ctx (va % 2 ^ 55 / pageSize 3) job m = false := fun m hm => by
    simp [answered, ha m hm]
  have hfind : (s.cluster (clusterOf core)).asked.find? (answered ctx (va % 2 ^ 55 / pageSize 3) job) = none :=
    List.find?_eq_none.2 (fun m hm => by rw [hno m hm]; exact Bool.false_ne_true)
  have hkeep : (s.cluster (clusterOf core)).asked.filter (fun m => !answered ctx (va % 2 ^ 55 / pageSize 3) job m) =
      (s.cluster (clusterOf core)).asked := List.filter_eq_self.2 (fun m hm => by rw [hno m hm]; rfl)
  unfold engineXlat
  refine bind_error ?_
  unfold walkPage
  dsimp only
  rw [bind_ok (takeAnswer_run _ _ _ _ _), hfind, hkeep]
  simp only [Option.bind_none, bind_getS, State.cluster_setCluster, ht]
  rw [State.walkTurn, liveWalks_setCluster rfl rfl, ← State.walkTurn, hw]
  rfl

/-- An absent result of the walk that a job's miss joined is a page fault. -/
theorem engineXlat_absent {core ctx va kind : Nat} {job : Bool × Nat} {s : State}
    (ha : (s.cluster (clusterOf core)).asked =
      [{ ctx := ctx, page := va % 2 ^ 55 / pageSize 3, copy := job.1, jid := job.2, ended := some false }]) :
    engineXlat core ctx va kind job s =
      .ok (.page, s.setCluster (clusterOf core) { s.cluster (clusterOf core) with asked := [] }) := by
  unfold engineXlat walkPage
  dsimp only
  rw [bind_assoc_run, bind_ok (takeAnswer_run _ _ _ _ _), ha]
  simp [answered]

theorem engineMissesQueue_holds : engineMissesQueue := by
  refine ⟨?_, ?_, ?_⟩
  · rintro core ctx va kind jid copy s k page m rfl rfl rfl ha ht hw
    refine engineXlat_waits (fun m hm => ?_) ht hw
    simpa using List.all_eq_true.1 ha m hm
  · intro k m s body hb hw ha
    have hlive : s.liveWalks k = [] := by
      rw [State.liveWalks, hw]
      rfl
    simp [runEvent, hb, State.queueMiss, State.queueWalk, hlive, State.cluster_setCluster, ha, setCluster_setCluster]
  · rintro core ctx va kind jid copy s k page m rfl rfl rfl ha
    exact engineXlat_absent ha

/-! The ends of waits (02 R54, R57; 13 R330; 14 R344). -/

/-- The state in which a parked thread is ready and its instruction goes on. -/
def resumed (s : State) (tid : Nat) (x : Thread) : State :=
  { s.setSlot tid { s.slot tid with thread := some (unparked x) } with cur := tid }

theorem resumed_thread (s : State) (tid : Nat) (x : Thread) : (resumed s tid x).thread (resumed s tid x).cur = some (unparked x) :=
  State.thread_setSlot _ _ _

/-- A parked instruction whose body goes through completes as its thread's. -/
theorem completeParked_run {tid : Nat} {s t : State} {x : Thread} {body : M Unit} (hx : s.thread tid = some x)
    (hb : body (resumed s tid x) = .ok ((), t)) : completeParked tid (pure ()) body s = .ok ((), { t with cur := s.cur }) := by
  unfold completeParked
  rw [bind_getS, bind_pure_run, bind_ok (modThread_run _ hx), bind_modS]
  generalize hr : body _ = r
  rw [hr.symm.trans hb]
  rfl

/-- What ends a wait whose condition holds (02 R54; 13 R330; 14 R344). -/
def waitEnds (tid : Nat) (x : Thread) : Wait → M Unit
  | .shoot i va _ _ _ => completeParked tid (pure ()) (finishShoot i va ((x.resume.reply.map (fun r => r.value)).getD 0))
  | .barrier _ => finishBarrier tid
  | _ => modThread tid unparked

/-- A parked thread whose condition holds becomes ready, or completes what it waits in. -/
theorem threadReady_run {tid : Nat} {s t : State} {x : Thread} {w : Wait} (ht : tid < 262144) (hx : s.thread tid = some x)
    (hp : x.park = some w) (hc : s.conditionHolds tid x w = true) (h : waitEnds tid x w s = .ok ((), t)) :
    exec (.threadReady tid) s = .next t := by
  rw [exec_threadReady, execThreadReady]
  refine unit_ok (decide_eq_true ht) ?_
  rw [bind_getS, bind_ok (needSome_ok hx), bind_ok (needSome_ok hp), bind_ok (need_ok hc)]
  cases w <;> exact h

/-- A thread that has a bank's reply (02 R57). -/
def replied (op : BankOp) (r : Reply) (x : Thread) : Thread := { x with
  park := none
  resume := { x.resume with
    ea := some op.ea
    reply := some r } }

theorem waitsEnd_holds : waitsEnd := by
  refine ⟨?_, ?_, ?_, ?_⟩
  · intro tid s x w ht hx hp hc hd hb hs
    refine threadReady_run ht hx hp hc ?_
    have hrun := modThread_run unparked hx
    cases w with
    | shoot i va ids uids jobs => exact absurd rfl (hs i va ids uids jobs)
    | barrier d => exact absurd rfl (hb d)
    | _ => exact hrun
  · intro tid s s1 s2 t x d r ht hx hp hrole hr h1 h2 h3
    have hx' := resumed_thread s tid x
    refine threadReady_run ht hx hp (by rw [State.conditionHolds, hr]; rfl) ?_
    show finishBarrier tid s = _
    have h1 : raisePts r.time (resumed s tid x) = .ok ((), s1) := h1
    unfold finishBarrier
    rw [bind_getS, bind_ok (needSome_ok hx), hp, hr]
    refine completeParked_run hx ?_
    unfold leaveBarrier
    rw [bind_ok (a := (r.value, ([] : List Word))) (t := s1) (by rw [enter_single hx' hrole, bind_ok h1]; rfl)]
    dsimp only
    rw [bind_ok h2]
    exact h3
  · intro tid s s1 t x d a b va ids uids jobs r ht hx hp hrole hr hl h1 h2
    have hx' := resumed_thread s tid x
    refine threadReady_run ht hx hp hl ?_
    unfold waitEnds
    rw [hr]
    refine completeParked_run hx ?_
    unfold finishShoot
    have hd : (wordOf (.shoot d a b)).extractLsb' 16 8 = d := Sys2Proof.Laws.Encodes.field_d _ _ _ _
    rw [bind_ok (enterWord_single (v := r.value) hx' hrole rfl), hd]
    exact (bind_ok h1).trans h2
  · intro n tid s op r x hop hr hu hx hp
    have hx' : ({ s with bankOps := del s.bankOps n } : State).thread tid = some x := hx
    refine ⟨State.setSlot { s with bankOps := del s.bankOps n } tid { s.slot tid with thread := some (replied op r x) }, ?_,
      find_del_same _ _, State.thread_setSlot _ _ _, rfl, rfl⟩
    rw [exec_bankReply, execBankReply]
    refine unit_ok rfl ?_
    rw [bind_getS, bind_ok (needSome_ok hop), bind_ok (needSome_ok hr), bind_set, hu]
    dsimp only
    rw [if_pos hp]
    exact modThread_run (replied op r) hx'

/-- Settles O37: a page that is found wakes every thread that waits for it, and a parked instruction completes as its thread's. -/
theorem walksAndWaitsEnd : Obligations.WalksAndWaitsEnd :=
  ⟨pageWalkCompletes_holds, engineMissesQueue_holds, waitsEnd_holds⟩

end Sys2Proof.Proofs
end

