-- ==== Sys2Proof/Proofs/VectorPart.lean ====
section
/-! The part number of a VCVT where no PFX.MOD gives one (05 R129). VCVT takes it from the unit's latch as it stands, and `Plain` does not
say that a latch with no PFX.MOD is empty. -/

namespace Sys2Proof.Proofs

open Sys2Proof.Machine Sys2Proof.Statements

/-- A thread of context 1 in slot 0 of core 0 with names 0 to 127 resident, whose latch holds the part number 31 though it has no
PFX.MOD. -/
def strayPart : Thread := { newThread 0 1 0 none 0 128 0 0x100000 with latch := { modf := 0x1F00, nmod := 0 } }

/-- A state of that thread in which the register 31 places behind the name 120, which is none of its names, is poisoned. -/
def strayState : State := { cores := [(0, {
  slots := [(0, { thread := some strayPart })]
  rf := [(151, { val := 0, poison := true })] })] }

/-- Nothing but registers stands in the way of the thread: its own names hold no poison. -/
theorem strayState_plain : Plain (.vcvt 0 120 0x54) strayState strayPart where
  thread := rfl
  issues := ⟨strayPart, rfl, rfl, by decide, by decide, rfl⟩
  single := rfl
  sound := rfl
  clean := fun k hk => by
    have hk : k < 128 := hk
    have hfind : find [(151, ({ val := 0, poison := true } : Reg))] (0 + k) = none := by
      rw [find, if_neg (by omega), find]
    exact congrArg (fun r => (Option.getD r {}).poison) hfind
  open_ := rfl
  room := by decide

/-- Where the thread at slot 0 goes on after a step. -/
def pcAfter : Host.Outcome State Fault Refusal → Option (BitVec 55)
  | .next t => (t.thread 0).map (·.pc)
  | _ => none

/-- The unit reads the poisoned register, and its thread is killed (15 R364). -/
theorem strayState_killed : pcAfter (exec (.vcvt 0 120 0x54) strayState) ≠ some (strayPart.pc + 4) := by decide

/-- Refutes O8: a VCVT whose unit has no PFX.MOD reads and writes the part that stands in its latch, so with part 31 it leaves its groups
and here reads a poisoned register that is no name of its thread. -/
theorem not_vectorFrame : ¬ Obligations.VectorFrame := by
  unfold Obligations.VectorFrame
  rintro ⟨frame, -⟩
  obtain ⟨t, ht, -, -, -, hpc⟩ := frame _ strayState strayPart _ strayState_plain rfl (by decide)
  exact strayState_killed ((congrArg pcAfter ht).trans hpc)

end Sys2Proof.Proofs
end

