-- ==== Sys2Proof/Proofs/Rounding.lean ====
section
/-! Rounding to a multiple (03 R68), seen over the reals: what `roundAt` answers of a real that its operands pin down. -/

namespace Sys2Proof.Proofs

open Sys2Proof.Machine Sys2Proof.Statements

/-- A mode that rounds to the nearest value. -/
def Nearest (mode : Nat) : Prop := mode = 0 ∨ mode = 4

/-- A mode that rounds a magnitude with a sign away from zero. -/
def Away (mode : Nat) (neg : Bool) : Prop := (mode = 2 ∧ neg = false) ∨ (mode = 3 ∧ neg = true)

/-- A mode that rounds a magnitude with a sign towards zero. -/
def Toward (mode : Nat) (neg : Bool) : Prop := mode = 1 ∨ (mode = 2 ∧ neg = true) ∨ (mode = 3 ∧ neg = false)

theorem mode_cases {mode : Nat} (h : mode < 5) (neg : Bool) : Nearest mode ∨ Away mode neg ∨ Toward mode neg := by
  unfold Nearest Away Toward
  cases neg <;> simp <;> omega

theorem not_away_of_toward {mode : Nat} {neg : Bool} (h : Toward mode neg) : ¬Away mode neg := by
  unfold Away
  unfold Toward at h
  cases neg <;> simp at h ⊢ <;> omega

theorem not_nearest_of_toward {mode : Nat} {neg : Bool} (h : Toward mode neg) : ¬Nearest mode := by
  unfold Nearest
  unfold Toward at h
  omega

theorem not_nearest_of_away {mode : Nat} {neg : Bool} (h : Away mode neg) : ¬Nearest mode := by
  unfold Nearest
  unfold Away at h
  omega

/-- `n` is the natural number that a mode rounds the magnitude `t` to. -/
structure RoundsTo (mode : Nat) (neg : Bool) (t : ℝ) (n : ℕ) : Prop where
  near : Nearest mode → |(n : ℝ) - t| ≤ 1 / 2 ∧ (|(n : ℝ) - t| = 1 / 2 → (mode = 0 → n % 2 = 0) ∧ (mode = 4 → t < n))
  away : Away mode neg → t ≤ n ∧ (n : ℝ) < t + 1
  toward : Toward mode neg → (n : ℝ) ≤ t ∧ t < n + 1

theorem RoundsTo.exact (mode : Nat) (neg : Bool) (n : ℕ) : RoundsTo mode neg n n where
  near := fun _ => by
    rw [sub_self, abs_zero]
    exact ⟨by norm_num, fun h => by norm_num at h⟩
  away := fun _ => ⟨le_rfl, by linarith⟩
  toward := fun _ => ⟨le_rfl, by linarith⟩

/-- What is known of a magnitude: it is `m`, or with `sticky` more than `m` and less than the next number. -/
def Pinned (m : ℕ) (sticky : Bool) (u : ℝ) : Prop := if sticky then (m : ℝ) < u ∧ u < m + 1 else u = m

theorem Pinned.le {m : ℕ} {sticky : Bool} {u : ℝ} (h : Pinned m sticky u) : (m : ℝ) ≤ u := by
  cases sticky
  · exact h.ge
  · exact h.1.le

theorem Pinned.lt {m : ℕ} {sticky : Bool} {u : ℝ} (h : Pinned m sticky u) : u < m + 1 := by
  cases sticky
  · have : u = m := h
    linarith
  · exact h.2

/-! The digits `r` of `2·h·n + r` that are cut off say where the magnitude lies between `n` and `n + 1`, in units of `2·h`. -/

theorem unit_pos {r h : ℕ} (hr : r < 2 * h) : (0 : ℝ) < 2 * h := by
  have : 0 < 2 * h := by omega
  exact_mod_cast this

section
variable {n r h : ℕ} {sticky : Bool} {u : ℝ} (hp : Pinned (2 * h * n + r) sticky u) (hr : r < 2 * h)
include hp hr

theorem floor_le : (n : ℝ) ≤ u / (2 * h) := by
  have h1 := hp.le
  push_cast at h1
  rw [le_div_iff₀ (unit_pos hr)]
  nlinarith [r.cast_nonneg (α := ℝ)]

theorem lt_floor_add_one : u / (2 * h) < n + 1 := by
  have h1 := hp.lt
  have h2 : (r : ℝ) + 1 ≤ 2 * h := by exact_mod_cast hr
  push_cast at h1
  rw [div_lt_iff₀ (unit_pos hr)]
  linarith

theorem floor_lt (h0 : (sticky || r != 0) = true) : (n : ℝ) < u / (2 * h) := by
  rw [lt_div_iff₀ (unit_pos hr)]
  cases sticky
  · have h1 : u = (2 * h * n + r : ℕ) := hp
    have h2 : (1 : ℝ) ≤ r := by
      have : 1 ≤ r := by simpa [Nat.one_le_iff_ne_zero] using h0
      exact_mod_cast this
    push_cast at h1
    linarith
  · have h1 := hp.1
    push_cast at h1
    nlinarith [r.cast_nonneg (α := ℝ)]

theorem eq_floor (h0 : (sticky || r != 0) = false) : u / (2 * h) = n := by
  obtain ⟨rfl, h1⟩ := Bool.or_eq_false_iff.1 h0
  obtain rfl : r = 0 := by simpa using h1
  have h2 : u = (2 * h * n + 0 : ℕ) := hp
  rw [div_eq_iff (unit_pos hr).ne', h2]
  push_cast
  ring

theorem half_le (h0 : h ≤ r) : (n : ℝ) + 1 / 2 ≤ u / (2 * h) := by
  have h1 := hp.le
  have h2 : (h : ℝ) ≤ r := by exact_mod_cast h0
  push_cast at h1
  rw [le_div_iff₀ (unit_pos hr)]
  linarith

theorem lt_half (h0 : r < h) : u / (2 * h) < n + 1 / 2 := by
  have h1 := hp.lt
  have h2 : (r : ℝ) + 1 ≤ h := by exact_mod_cast h0
  push_cast at h1
  rw [div_lt_iff₀ (unit_pos hr)]
  linarith

theorem half_lt (h0 : h < r ∨ (r = h ∧ sticky = true)) : (n : ℝ) + 1 / 2 < u / (2 * h) := by
  rw [lt_div_iff₀ (unit_pos hr)]
  obtain h0 | ⟨rfl, rfl⟩ := h0
  · have h1 := hp.le
    have h2 : (h : ℝ) + 1 ≤ r := by exact_mod_cast h0
    push_cast at h1
    linarith
  · have h1 := hp.1
    push_cast at h1
    linarith

theorem eq_half (h0 : r = h) (hs : sticky = false) : u / (2 * h) = n + 1 / 2 := by
  subst h0 hs
  have h2 : u = (2 * r * n + r : ℕ) := hp
  rw [div_eq_iff (unit_pos hr).ne', h2]
  push_cast
  ring

end

/-- Whether a mode rounds up, from the number that stays, the digits that are cut off and half a unit (03 R68). -/
def roundsUp (mode : Nat) (neg : Bool) (n r h : Nat) (sticky : Bool) : Bool :=
  match mode with
  | 0 => decide (h < r) || (r = h && (sticky || n % 2 = 1))
  | 1 => false
  | 2 => (sticky || r != 0) && !neg
  | 3 => (sticky || r != 0) && neg
  | _ => decide (h ≤ r)

theorem roundAt_eq {mode : Nat} {neg : Bool} {m : Nat} {e : Int} {sticky : Bool} {q : Int} (h : ¬q ≤ e) :
    roundAt mode neg m e sticky q =
      (if roundsUp mode neg (m / 2 ^ (q - e).toNat) (m % 2 ^ (q - e).toNat) (2 ^ ((q - e).toNat - 1)) sticky
        then m / 2 ^ (q - e).toNat + 1 else m / 2 ^ (q - e).toNat, sticky || m % 2 ^ (q - e).toNat != 0) := by
  unfold roundAt
  rw [if_neg h]
  rfl

/-- Between two numbers and nearer to the upper one, or half way and the upper one is the choice. -/
theorem roundsTo_near_up {mode : Nat} {neg : Bool} {t : ℝ} {n : ℕ} (hn : Nearest mode) (h1 : (n : ℝ) + 1 / 2 ≤ t) (h2 : t < n + 1)
    (h3 : t = n + 1 / 2 → mode = 0 → n % 2 = 1) : RoundsTo mode neg t (n + 1) where
  near := fun _ => by
    push_cast
    rw [abs_of_pos (by linarith)]
    exact ⟨by linarith, fun h => ⟨fun h0 => by have := h3 (by linarith) h0; omega, fun _ => h2⟩⟩
  away := fun h => absurd hn (not_nearest_of_away h)
  toward := fun h => absurd hn (not_nearest_of_toward h)

/-- Between two numbers and nearer to the lower one, or half way and the lower one is the choice. -/
theorem roundsTo_near_down {mode : Nat} {neg : Bool} {t : ℝ} {n : ℕ} (hn : Nearest mode) (h1 : (n : ℝ) ≤ t) (h2 : t ≤ n + 1 / 2)
    (h3 : t = n + 1 / 2 → mode = 0 ∧ n % 2 = 0) : RoundsTo mode neg t n where
  near := fun _ => by
    rw [abs_of_nonpos (by linarith)]
    refine ⟨by linarith, fun h => ?_⟩
    obtain ⟨h0, he⟩ := h3 (by linarith)
    exact ⟨fun _ => he, fun h4 => absurd (h0.symm.trans h4) (by decide)⟩
  away := fun h => absurd hn (not_nearest_of_away h)
  toward := fun h => absurd hn (not_nearest_of_toward h)

theorem roundsTo_toward {mode : Nat} {neg : Bool} {t : ℝ} {n : ℕ} (hm : Toward mode neg) (h1 : (n : ℝ) ≤ t) (h2 : t < n + 1) :
    RoundsTo mode neg t n where
  near := fun h => absurd h (not_nearest_of_toward hm)
  away := fun h => absurd h (not_away_of_toward hm)
  toward := fun _ => ⟨h1, h2⟩

theorem roundsTo_away {mode : Nat} {neg : Bool} {t : ℝ} {n : ℕ} (hm : Away mode neg) (h1 : t ≤ n) (h2 : (n : ℝ) < t + 1) :
    RoundsTo mode neg t n where
  near := fun h => absurd h (not_nearest_of_away hm)
  away := fun _ => ⟨h1, h2⟩
  toward := fun h => absurd hm (not_away_of_toward h)

section
variable {n r h : ℕ} {sticky : Bool} {u : ℝ} (hp : Pinned (2 * h * n + r) sticky u) (hr : r < 2 * h)
include hp hr

/-- The choice of each mode is the number that it rounds to. -/
theorem roundsTo_roundsUp {mode : Nat} (hm : mode < 5) (neg : Bool) :
    RoundsTo mode neg (u / (2 * h)) (if roundsUp mode neg n r h sticky then n + 1 else n) := by
  have hle := floor_le hp hr
  have hlt := lt_floor_add_one hp hr
  have dir : ∀ mode, Away mode neg → RoundsTo mode neg (u / (2 * h)) (if (sticky || r != 0) = true then n + 1 else n) := fun mode ha => by
    split
    · next h0 =>
      have := floor_lt hp hr h0
      exact roundsTo_away ha (by push_cast; linarith) (by push_cast; linarith)
    · next h0 =>
      rw [eq_floor hp hr (Bool.eq_false_iff.2 h0)]
      exact RoundsTo.exact _ _ _
  match mode, hm with
  | 0, _ =>
    split
    · next h0 =>
      simp only [roundsUp, Bool.or_eq_true, Bool.and_eq_true, decide_eq_true_eq] at h0
      refine roundsTo_near_up (.inl rfl) (half_le hp hr (by omega)) hlt (fun ht _ => ?_)
      obtain h0 | ⟨h0, hs | ho⟩ := h0
      · exact absurd ht (half_lt hp hr (.inl h0)).ne'
      · exact absurd ht (half_lt hp hr (.inr ⟨h0, hs⟩)).ne'
      · exact ho
    · next h0 =>
      simp only [roundsUp, Bool.or_eq_true, Bool.and_eq_true, decide_eq_true_eq, not_or, not_and] at h0
      obtain ⟨h1, h2⟩ := h0
      obtain hlt | heq := Nat.lt_or_eq_of_le (Nat.le_of_not_lt h1)
      · exact roundsTo_near_down (.inl rfl) hle (lt_half hp hr hlt).le (fun ht => absurd ht (lt_half hp hr hlt).ne)
      · obtain ⟨hs, ho⟩ := h2 heq
        have := eq_half hp hr heq (Bool.eq_false_iff.2 hs)
        exact roundsTo_near_down (.inl rfl) hle this.le (fun _ => ⟨rfl, by omega⟩)
  | 1, _ => exact roundsTo_toward (.inl rfl) hle hlt
  | 2, _ =>
    cases neg
    · simpa [roundsUp] using dir 2 (.inl ⟨rfl, rfl⟩)
    · simpa [roundsUp] using roundsTo_toward (.inr (.inl ⟨rfl, rfl⟩)) hle hlt
  | 3, _ =>
    cases neg
    · simpa [roundsUp] using roundsTo_toward (.inr (.inr ⟨rfl, rfl⟩)) hle hlt
    · simpa [roundsUp] using dir 3 (.inr ⟨rfl, rfl⟩)
  | 4, _ =>
    split
    · next h0 =>
      exact roundsTo_near_up (.inr rfl) (half_le hp hr (of_decide_eq_true h0)) hlt (fun _ h => absurd h (by decide))
    · next h0 =>
      have := lt_half hp hr (Nat.lt_of_not_le (fun h => h0 (decide_eq_true h)))
      exact roundsTo_near_down (.inr rfl) hle this.le (fun ht => absurd ht this.ne)

/-- Something was cut off just where the result is not the magnitude. -/
theorem inexact_iff (mode : Nat) (neg : Bool) : (sticky || r != 0) = true ↔
    ((if roundsUp mode neg n r h sticky then n + 1 else n : ℕ) : ℝ) ≠ u / (2 * h) := by
  constructor
  · intro h0
    have h1 := floor_lt hp hr h0
    have h2 := lt_floor_add_one hp hr
    split
    · push_cast
      exact h2.ne'
    · exact h1.ne
  · intro h0
    by_contra hc
    have hc := Bool.eq_false_iff.2 hc
    obtain ⟨hs, h1⟩ := Bool.or_eq_false_iff.1 hc
    obtain rfl : r = 0 := by simpa using h1
    have hup : roundsUp mode neg n 0 h sticky = false := by
      unfold roundsUp
      split <;> simp [hs] <;> omega
    rw [hup, eq_floor hp hr hc] at h0
    exact h0 rfl

end

/-- A real that `m`, `e` and `sticky` pin down: `m · 2^e`, or with `sticky` more, by less than `2^e`. -/
def Scaled (m : ℕ) (e : ℤ) (sticky : Bool) (a : ℝ) : Prop := Pinned m sticky (a / 2 ^ e)

theorem scaled_exact (m : ℕ) (e : ℤ) : Scaled m e false (m * 2 ^ e) :=
  mul_div_cancel_right₀ _ (zpow_ne_zero _ (by norm_num))

/-- What `roundAt` answers: the multiple of `2^q` that the mode rounds to, and whether it is another number. Digits are only missing below
the multiple. -/
theorem roundAt_roundsTo {mode : Nat} (hm : mode < 5) (neg : Bool) {m : ℕ} {e q : ℤ} {sticky : Bool} {a : ℝ} (ha : Scaled m e sticky a)
    (hq : sticky = true → e < q) :
    RoundsTo mode neg (a / 2 ^ q) (roundAt mode neg m e sticky q).1 ∧
      ((roundAt mode neg m e sticky q).2 = true ↔ ((roundAt mode neg m e sticky q).1 : ℝ) ≠ a / 2 ^ q) := by
  by_cases h : q ≤ e
  · have hs : sticky = false := by
      cases sticky
      · rfl
      · exact absurd (hq rfl) (not_lt.2 h)
    subst hs
    have hae : a / 2 ^ e = m := ha
    have hexact : a / 2 ^ q = ((m * 2 ^ (e - q).toNat : ℕ) : ℝ) := by
      rw [(div_eq_iff (zpow_ne_zero e (by norm_num : (2 : ℝ) ≠ 0))).1 hae, mul_div_assoc, ← zpow_sub₀ (by norm_num : (2 : ℝ) ≠ 0)]
      push_cast
      rw [← zpow_natCast (2 : ℝ), Int.toNat_of_nonneg (by omega)]
    have hr : roundAt mode neg m e false q = (m * 2 ^ (e - q).toNat, false) := by
      unfold roundAt
      rw [if_pos h]
    rw [hr, hexact]
    exact ⟨RoundsTo.exact _ _ _, by simp⟩
  · obtain ⟨k, hk⟩ : ∃ k : ℕ, (q - e).toNat = k + 1 := ⟨(q - e).toNat - 1, by omega⟩
    have hpow : 2 ^ (q - e).toNat = 2 * 2 ^ k := by rw [hk, pow_succ]; ring
    have hdiv : a / 2 ^ q = a / 2 ^ e / (2 * (2 ^ k : ℕ)) := by
      have : (2 : ℝ) ^ q = 2 ^ e * (2 * (2 ^ k : ℕ)) := by
        rw [show q = e + (k + 1 : ℕ) by omega, zpow_add₀ (by norm_num : (2 : ℝ) ≠ 0), zpow_natCast, pow_succ]
        push_cast
        ring
      rw [this, div_div]
    have hp : Pinned (2 * 2 ^ k * (m / (2 * 2 ^ k)) + m % (2 * 2 ^ k)) sticky (a / 2 ^ e) := by
      rw [Nat.div_add_mod]
      exact ha
    have hr : m % (2 * 2 ^ k) < 2 * 2 ^ k := Nat.mod_lt _ (by positivity)
    rw [roundAt_eq h, hpow, hdiv, hk, Nat.add_sub_cancel]
    exact ⟨roundsTo_roundsUp hp hr hm neg, inexact_iff hp hr mode neg⟩

end Sys2Proof.Proofs
end

