-- ==== Sys2Proof/Proofs/FloatFormat.lean ====
section
/-! Rounding to a format with infinities (02 R56; 03 R67, R68): what its patterns stand for, and that `Fmt.round` answers the rounding of the
real that its operands pin down. -/

namespace Sys2Proof.Proofs

open Sys2Proof.Machine Sys2Proof.Statements

/-! The choice among the values of a format, in units of the last place. -/

/-- What a magnitude of the format's values can be, in units of the last place of the result: a number, or less than some number that the
rounded magnitude is not below. -/
def OnGrid (t w : ℝ) : Prop := ∃ c : ℕ, w = c ∨ (w < c ∧ (c : ℝ) ≤ t)

/-- A magnitude with a sign. -/
def withSign (neg : Bool) (a : ℝ) : ℝ := if neg then -a else a

theorem abs_withSign {neg : Bool} {a : ℝ} (h : 0 ≤ a) : |withSign neg a| = a := by
  cases neg
  · exact abs_of_nonneg h
  · rw [withSign, if_pos rfl, abs_neg, abs_of_nonneg h]

theorem withSign_sub (neg : Bool) (a b : ℝ) : |withSign neg a - withSign neg b| = |a - b| := by
  cases neg
  · rfl
  · rw [withSign, withSign, if_pos rfl, if_pos rfl, ← abs_neg]
    ring_nf

theorem one_le_abs_sub {c n : ℕ} (h : c ≠ n) : (1 : ℝ) ≤ |(c : ℝ) - n| := by
  have : (1 : ℤ) ≤ |(c : ℤ) - n| := Int.one_le_abs (by omega)
  exact_mod_cast this

/-- No other magnitude of the grid is nearer than one that is within a half, and one that is as near is half way to the other side. -/
theorem near_onGrid {t w : ℝ} {n : ℕ} (hn : |(n : ℝ) - t| ≤ 1 / 2) (hg : OnGrid t w) (hw : w ≠ n) :
    |(n : ℝ) - t| ≤ |w - t| ∧ (|(n : ℝ) - t| = |w - t| → |(n : ℝ) - t| = 1 / 2) := by
  have far : ∀ c : ℕ, c ≠ n → 1 / 2 ≤ |(c : ℝ) - t| := fun c hc => by
    have h1 := abs_sub_le (c : ℝ) t n
    have h2 := one_le_abs_sub hc
    rw [abs_sub_comm t] at h1
    linarith
  obtain ⟨c, rfl | ⟨hwc, hct⟩⟩ := hg
  · have := far c (fun h => hw (congrArg _ h))
    exact ⟨hn.trans this, fun h => le_antisymm hn (h ▸ this)⟩
  · have h1 : |w - t| = t - w := by rw [abs_of_nonpos (by linarith), neg_sub]
    have h2 : |(c : ℝ) - t| = t - c := by rw [abs_of_nonpos (by linarith), neg_sub]
    have h3 : |(n : ℝ) - t| ≤ |(c : ℝ) - t| := by
      obtain rfl | hc := eq_or_ne c n
      · rfl
      · exact hn.trans (far c hc)
    exact ⟨by linarith, fun h => by linarith⟩

/-- A magnitude of the grid that is not above the rounded one is not above a number that the rounded one is less than one more than. -/
theorem onGrid_le {t w : ℝ} {n : ℕ} (hg : OnGrid t w) (hw : w ≤ t) (ht : t < n + 1) : w ≤ n := by
  have le : ∀ c : ℕ, (c : ℝ) ≤ t → (c : ℝ) ≤ n := fun c hc => by
    have : (c : ℝ) < n + 1 := by linarith
    exact_mod_cast Nat.lt_succ_iff.1 (by exact_mod_cast this)
  obtain ⟨c, rfl | ⟨hwc, hct⟩⟩ := hg
  · exact le c hw
  · exact hwc.le.trans (le c hct)

/-- A magnitude of the grid that is not below the rounded one is not below a number that is less than one more than it. -/
theorem le_onGrid {t w : ℝ} {n : ℕ} (hg : OnGrid t w) (hw : t ≤ w) (ht : (n : ℝ) < t + 1) : (n : ℝ) ≤ w := by
  obtain ⟨c, rfl | ⟨hwc, hct⟩⟩ := hg
  · have : (n : ℝ) < c + 1 := by linarith
    exact_mod_cast Nat.lt_succ_iff.1 (by exact_mod_cast this)
  · linarith

section
variable {mode : Nat} {neg s : Bool} {t w : ℝ} {n : ℕ} (hr : RoundsTo mode neg t n) (ht : 0 < t) (hw : 0 ≤ w) (hg : OnGrid t w)
include hr ht hw hg

/-- A value as near as the rounded one is its mirror image about the magnitude: both are half a unit away. -/
theorem tie_is_half (hm : Nearest mode) (hd : |(n : ℝ) - t| = |withSign s w - withSign neg t|) (hne : withSign s w ≠ withSign neg n) :
    |(n : ℝ) - t| = 1 / 2 := by
  obtain ⟨hn, -⟩ := hr.near hm
  obtain rfl | hwn := eq_or_ne w n
  · obtain rfl | hs := eq_or_ne s neg
    · exact absurd rfl hne
    · have hsum : |withSign s n - withSign neg t| = n + t := by
        cases s <;> cases neg
        · exact absurd rfl hs
        · simp only [withSign, Bool.false_eq_true, if_false, if_true]
          rw [abs_of_pos (by linarith)]
          ring
        · simp only [withSign, Bool.false_eq_true, if_false, if_true]
          rw [abs_of_neg (by linarith)]
          ring
        · exact absurd rfl hs
      rw [hsum] at hd
      obtain h | h := abs_choice ((n : ℝ) - t)
      · linarith
      · have : (n : ℝ) = 0 := by linarith
        rw [this] at hne
        exact absurd (by cases s <;> cases neg <;> simp [withSign]) hne
  · obtain ⟨h1, h2⟩ := near_onGrid hn hg hwn
    have h3 := abs_abs_sub_abs_le_abs_sub (withSign s w) (withSign neg t)
    rw [abs_withSign hw, abs_withSign ht.le] at h3
    exact h2 (le_antisymm h1 (hd ▸ h3))

/-- The number that a mode rounds to is the choice among the values of the grid (03 R68). -/
theorem chosen_of_roundsTo {even : Prop} (he : n % 2 = 0 → even) :
    Chosen mode (withSign neg t) (withSign neg n) (withSign s w) even := by
  have hn0 : (0 : ℝ) ≤ n := n.cast_nonneg
  have hdist := abs_abs_sub_abs_le_abs_sub (withSign s w) (withSign neg t)
  rw [abs_withSign hw, abs_withSign ht.le] at hdist
  refine ⟨fun hm => ?_, fun hm => ?_, fun hm => ?_, fun hm => ?_⟩
  · obtain ⟨hn, htie⟩ := hr.near hm
    rw [withSign_sub]
    constructor
    · obtain rfl | hwn := eq_or_ne w n
      · exact hdist
      · exact (near_onGrid hn hg hwn).1.trans hdist
    · intro hd hne
      have hhalf := tie_is_half hr ht hw hg hm hd hne
      obtain ⟨h0, h4⟩ := htie hhalf
      refine ⟨fun h => he (h0 h), fun h => ?_⟩
      have h1 := h4 h
      rw [abs_withSign hw, abs_withSign hn0]
      rw [← hd, abs_of_pos (by linarith : 0 < (n : ℝ) - t)] at hdist
      have := le_abs_self (w - t)
      linarith
  · obtain ⟨h1, h2⟩ := hr.toward (.inl hm)
    rw [abs_withSign hw, abs_withSign hn0, abs_withSign ht.le]
    refine ⟨h1, ?_, fun h _ => onGrid_le hg h h2⟩
    cases neg <;> simp only [withSign, Bool.false_eq_true, if_false, if_true] <;> nlinarith
  · cases neg
    · obtain ⟨h1, h2⟩ := hr.away (.inl ⟨hm, rfl⟩)
      refine ⟨h1, fun h => ?_⟩
      cases s
      · exact le_onGrid hg h h2
      · simp only [withSign, Bool.false_eq_true, if_false, if_true] at h ⊢
        linarith
    · obtain ⟨h1, h2⟩ := hr.toward (.inr (.inl ⟨hm, rfl⟩))
      refine ⟨neg_le_neg h1, fun h => ?_⟩
      cases s
      · simp only [withSign, Bool.false_eq_true, if_false, if_true] at h ⊢
        linarith
      · exact neg_le_neg (onGrid_le hg (neg_le_neg_iff.1 h) h2)
  · cases neg
    · obtain ⟨h1, h2⟩ := hr.toward (.inr (.inr ⟨hm, rfl⟩))
      refine ⟨h1, fun h => ?_⟩
      cases s
      · exact onGrid_le hg h h2
      · simp only [withSign, Bool.false_eq_true, if_false, if_true] at h ⊢
        linarith
    · obtain ⟨h1, h2⟩ := hr.away (.inr ⟨hm, rfl⟩)
      refine ⟨neg_le_neg h1, fun h => ?_⟩
      cases s
      · simp only [withSign, Bool.false_eq_true, if_false, if_true] at h ⊢
        linarith
      · exact neg_le_neg (le_onGrid hg (neg_le_neg_iff.1 h) h2)

end

/-- The choice does not depend on the unit. -/
theorem chosen_scale {mode : Nat} {v z y c : ℝ} {even : Prop} (hc : 0 < c) (h : Chosen mode v z y even) :
    Chosen mode (v * c) (z * c) (y * c) even := by
  have habs : ∀ a : ℝ, |a * c| = |a| * c := fun a => by rw [abs_mul, abs_of_pos hc]
  have hle : ∀ a b : ℝ, a * c ≤ b * c ↔ a ≤ b := fun a b => mul_le_mul_iff_of_pos_right hc
  have heq : ∀ a b : ℝ, a * c = b * c ↔ a = b := fun a b => mul_left_inj' hc.ne'
  have hsign : ∀ a b : ℝ, 0 ≤ a * c * (b * c) ↔ 0 ≤ a * b := fun a b => by
    rw [show a * c * (b * c) = a * b * (c * c) by ring, mul_nonneg_iff_of_pos_right (mul_pos hc hc)]
  unfold Chosen at h ⊢
  simp only [← sub_mul, habs, hle, heq, ne_eq, hsign]
  exact h

/-! The patterns of a format with infinities (03 R64 to R66). -/

/-- The formats with infinities: an exponent field of two bits or more and a fraction. -/
structure HasInf (f : Fmt) : Prop where
  ieee : f.e4m3 = false
  ebits : 2 ≤ f.ebits
  fbits : 1 ≤ f.fbits

section
variable {f : Fmt} (hf : HasInf f)
include hf

theorem two_bias : 2 ^ f.ebits = 2 * f.bias + 2 ∧ 1 ≤ f.bias := by
  have h := hf.ebits
  obtain ⟨k, hk⟩ : ∃ k, f.ebits = k + 2 := ⟨f.ebits - 2, by omega⟩
  have : 0 < 2 ^ k := by positivity
  unfold Fmt.bias
  rw [hk, show k + 2 - 1 = k + 1 from rfl, pow_succ, pow_succ]
  omega

/-- A pattern stands for what its sign, exponent and fraction say. -/
theorem read_signed (neg : Bool) {ex fr : ℕ} (hex : ex < 2 ^ f.ebits) (hfr : fr < 2 ^ f.fbits) :
    f.read (f.signed neg ((ex * 2 ^ f.fbits + fr) * 2 ^ f.shift)) =
      if ex = 2 ^ f.ebits - 1 then (if fr = 0 then .inf neg else .nan (decide (fr < 2 ^ (f.fbits - 1))))
      else if ex = 0 then .fin neg fr (f.emin - f.fbits) else .fin neg (2 ^ f.fbits + fr) ((ex : Int) - f.bias - f.fbits) := by
  have hwidth : f.width - 1 = f.ebits + f.fbits := by unfold Fmt.width; omega
  have hpat : ex * 2 ^ f.fbits + fr < 2 ^ (f.ebits + f.fbits) := by
    rw [pow_add]
    calc ex * 2 ^ f.fbits + fr < (ex + 1) * 2 ^ f.fbits := by rw [Nat.succ_mul]; omega
      _ ≤ 2 ^ f.ebits * 2 ^ f.fbits := Nat.mul_le_mul_right _ hex
  have hb : f.signed neg ((ex * 2 ^ f.fbits + fr) * 2 ^ f.shift) / 2 ^ f.shift % 2 ^ f.width =
      ex * 2 ^ f.fbits + fr + if neg then 2 ^ (f.ebits + f.fbits) else 0 := by
    have hw : f.width = f.ebits + f.fbits + 1 := by unfold Fmt.width; omega
    unfold Fmt.signed Fmt.signBit
    rw [hwidth]
    cases neg
    · rw [if_neg Bool.false_ne_true, if_neg Bool.false_ne_true, Nat.mul_div_cancel _ (by positivity), Nat.add_zero, Nat.mod_eq_of_lt]
      rw [hw, pow_succ]
      omega
    · rw [if_pos rfl, if_pos rfl, ← Nat.add_mul, Nat.mul_div_cancel _ (by positivity), Nat.mod_eq_of_lt]
      rw [hw, pow_succ]
      omega
  have hneg : decide (2 ^ (f.ebits + f.fbits) ≤ ex * 2 ^ f.fbits + fr + if neg then 2 ^ (f.ebits + f.fbits) else 0) = neg := by
    cases neg
    · simpa using hpat
    · simp
  have hdiv : (ex * 2 ^ f.fbits + fr + if neg then 2 ^ (f.ebits + f.fbits) else 0) / 2 ^ f.fbits % 2 ^ f.ebits = ex := by
    cases neg
    · rw [if_neg Bool.false_ne_true, Nat.add_zero, Nat.mul_comm, Nat.mul_add_div (by positivity), Nat.div_eq_of_lt hfr, Nat.add_zero,
        Nat.mod_eq_of_lt hex]
    · rw [if_pos rfl, pow_add, show ex * 2 ^ f.fbits + fr + 2 ^ f.ebits * 2 ^ f.fbits = 2 ^ f.fbits * (ex + 2 ^ f.ebits) + fr by ring,
        Nat.mul_add_div (by positivity), Nat.div_eq_of_lt hfr, Nat.add_zero, Nat.add_mod_right, Nat.mod_eq_of_lt hex]
  have hmod : (ex * 2 ^ f.fbits + fr + if neg then 2 ^ (f.ebits + f.fbits) else 0) % 2 ^ f.fbits = fr := by
    cases neg
    · rw [if_neg Bool.false_ne_true, Nat.add_zero, Nat.mul_comm, Nat.mul_add_mod, Nat.mod_eq_of_lt hfr]
    · rw [if_pos rfl, pow_add, show ex * 2 ^ f.fbits + fr + 2 ^ f.ebits * 2 ^ f.fbits = 2 ^ f.fbits * (ex + 2 ^ f.ebits) + fr by ring,
        Nat.mul_add_mod, Nat.mod_eq_of_lt hfr]
  unfold Fmt.read
  rw [hb, hwidth]
  dsimp only
  rw [hneg, hdiv, hmod, hf.ieee]
  simp only [Bool.false_and, Bool.false_eq_true, if_false, Bool.not_false, Bool.true_and, decide_eq_true_eq]

/-- The bounds of what a finite pattern stands for. -/
theorem read_fin_bounds {b j : ℕ} {i : Bool} {k : ℤ} (h : f.read b = .fin i j k) :
    j < 2 ^ (f.fbits + 1) ∧ f.emin - f.fbits ≤ k ∧ k ≤ (f.bias : ℤ) - f.fbits := by
  obtain ⟨hb, hb1⟩ := two_bias hf
  have hemin : f.emin = 1 - (f.bias : ℤ) := rfl
  unfold Fmt.read at h
  dsimp only at h
  rw [hf.ieee] at h
  simp only [Bool.false_and, Bool.false_eq_true, if_false, Bool.not_false, Bool.true_and, decide_eq_true_eq] at h
  have hex := Nat.mod_lt (b / 2 ^ f.shift % 2 ^ f.width / 2 ^ f.fbits) (show 0 < 2 ^ f.ebits by positivity)
  have hfr := Nat.mod_lt (b / 2 ^ f.shift % 2 ^ f.width) (show 0 < 2 ^ f.fbits by positivity)
  rw [pow_succ]
  split at h
  · split at h <;> cases h
  · split at h
    · cases h
      omega
    · cases h
      omega

theorem read_inf (neg : Bool) : f.read (f.signed neg f.infBits) = .inf neg := by
  have h := read_signed hf neg (ex := 2 ^ f.ebits - 1) (fr := 0) (by have := (two_bias hf).1; omega) (by positivity)
  rw [if_pos rfl, if_pos rfl, Nat.add_zero] at h
  have hbits : f.infBits = (2 ^ f.ebits - 1) * 2 ^ f.fbits * 2 ^ f.shift := by
    unfold Fmt.infBits
    rw [hf.ieee, if_neg Bool.false_ne_true]
  rw [hbits, h]

theorem read_max (neg : Bool) :
    f.read (f.signed neg f.maxBits) = .fin neg (2 ^ (f.fbits + 1) - 1) ((f.bias : ℤ) - f.fbits) := by
  obtain ⟨hb, hb1⟩ := two_bias hf
  have hpos : 0 < 2 ^ f.fbits := by positivity
  have h := read_signed hf neg (ex := 2 ^ f.ebits - 2) (fr := 2 ^ f.fbits - 1) (by omega) (by omega)
  rw [if_neg (by omega), if_neg (by omega)] at h
  have hbits : f.maxBits = ((2 ^ f.ebits - 2) * 2 ^ f.fbits + (2 ^ f.fbits - 1)) * 2 ^ f.shift := by
    unfold Fmt.maxBits
    rw [hf.ieee, if_neg Bool.false_ne_true, show 2 ^ f.ebits - 1 = 2 ^ f.ebits - 2 + 1 by omega, Nat.succ_mul]
    congr 1
    omega
  rw [hbits, h, pow_succ]
  congr 1
  · omega
  · omega

end

end Sys2Proof.Proofs
end

