-- ==== Sys2Proof/Proofs/FloatRound.lean ====
section
/-! `Fmt.round` (02 R56; 03 R67, R68): it rounds to a multiple of the unit in the last place of the exact value, and its pattern and flags are
the rounding of the real that its operands pin down. -/

namespace Sys2Proof.Proofs

open Sys2Proof.Machine Sys2Proof.Statements

/-! Thresholds: when a rounded magnitude reaches a power of two (03 R67). -/

theorem RoundsTo.le_of_le {mode : Nat} {neg : Bool} {t : ℝ} {n L : ℕ} (hr : RoundsTo mode neg t n) (hm : mode < 5) (h : (L : ℝ) ≤ t) :
    L ≤ n := by
  by_contra hc
  have hc : (n : ℝ) + 1 ≤ L := by exact_mod_cast Nat.lt_of_not_le hc
  obtain hn | ha | ht := mode_cases hm neg
  · have := (abs_le.1 (hr.near hn).1).1
    linarith
  · linarith [(hr.away ha).1]
  · linarith [(hr.toward ht).2]

theorem RoundsTo.le_of_ge {mode : Nat} {neg : Bool} {t : ℝ} {n L : ℕ} (hr : RoundsTo mode neg t n) (hm : mode < 5) (h : t ≤ (L : ℝ)) :
    n ≤ L := by
  by_contra hc
  have hc : (L : ℝ) + 1 ≤ n := by exact_mod_cast Nat.lt_of_not_le hc
  obtain hn | ha | ht := mode_cases hm neg
  · have := (abs_le.1 (hr.near hn).1).2
    linarith
  · linarith [(hr.away ha).2]
  · linarith [(hr.toward ht).1]

/-- A rounded magnitude is at least an even number just where the magnitude is, or is near enough below it for the mode. -/
theorem RoundsTo.le_iff {mode : Nat} {neg : Bool} {t : ℝ} {n L : ℕ} (hr : RoundsTo mode neg t n) (hm : mode < 5) (hL : L % 2 = 0) :
    L ≤ n ↔ (L : ℝ) ≤ t ∨ (Nearest mode ∧ (L : ℝ) - 1 / 2 ≤ t) ∨ (Away mode neg ∧ (L : ℝ) - 1 < t) := by
  constructor
  · intro h
    have h : (L : ℝ) ≤ n := by exact_mod_cast h
    obtain hn | ha | ht := mode_cases hm neg
    · have := (abs_le.1 (hr.near hn).1).2
      exact .inr (.inl ⟨hn, by linarith⟩)
    · have := (hr.away ha).2
      exact .inr (.inr ⟨ha, by linarith⟩)
    · have := (hr.toward ht).1
      exact .inl (by linarith)
  · rintro (h | ⟨hn, h⟩ | ⟨ha, h⟩)
    · exact hr.le_of_le hm h
    · by_contra hc
      have hc1 : (n : ℝ) + 1 ≤ L := by exact_mod_cast Nat.lt_of_not_le hc
      obtain ⟨h1, h2⟩ := hr.near hn
      have habs : |(n : ℝ) - t| = t - n := by rw [abs_of_nonpos (by linarith), neg_sub]
      rw [habs] at h1 h2
      obtain ⟨h0, h4⟩ := h2 (by linarith)
      have hcast : ((n + 1 : ℕ) : ℝ) = L := by push_cast; linarith
      have hnL : n + 1 = L := by exact_mod_cast hcast
      obtain hn | hn := hn
      · have := h0 hn
        omega
      · linarith [h4 hn]
    · have := (hr.away ha).1
      have : (L : ℝ) < n + 1 := by linarith
      exact Nat.lt_succ_iff.1 (by exact_mod_cast this)

/-- `Reaches`, in units of the last place below the threshold. -/
theorem reaches_iff {mode : Nat} {neg : Bool} {a c L : ℝ} (ha : 0 < a) (hc : 0 < c) :
    Reaches mode (withSign neg a) (L * c) c ↔
      L ≤ a / c ∨ (Nearest mode ∧ L - 1 / 2 ≤ a / c) ∨ (Away mode neg ∧ L - 1 < a / c) := by
  have haway : ((mode = 2 ∧ 0 < withSign neg a) ∨ (mode = 3 ∧ withSign neg a < 0)) ↔ Away mode neg := by
    unfold Away
    cases neg
    · simp [withSign, ha, ha.not_gt]
    · simp [withSign, ha, ha.not_gt]
  unfold Reaches
  rw [haway, abs_withSign ha.le, le_div_iff₀ hc, le_div_iff₀ hc, lt_div_iff₀ hc, sub_mul, sub_mul, one_mul,
    show (1 : ℝ) / 2 * c = c / 2 by ring]
  rfl

section
variable {mode : Nat} {neg : Bool} {a : ℝ} {n fb : ℕ} {top : ℤ} (hm : mode < 5) (ha : 0 < a)
  (hr : RoundsTo mode neg (a / 2 ^ (top - fb)) n) (hlo : (2 : ℝ) ^ top ≤ a) (hhi : a < 2 ^ (top + 1))
include hlo

theorem unit_le : ((2 ^ fb : ℕ) : ℝ) ≤ a / 2 ^ (top - fb) := by
  rw [le_div_iff₀ (by positivity)]
  push_cast
  rw [← zpow_natCast, ← zpow_add₀ (by norm_num)]
  simpa using hlo

omit hlo
include hhi

theorem lt_unit : a / 2 ^ (top - fb) < ((2 ^ (fb + 1) : ℕ) : ℝ) := by
  rw [div_lt_iff₀ (by positivity)]
  push_cast
  rw [← zpow_natCast, ← zpow_add₀ (by norm_num)]
  rw [show ((fb + 1 : ℕ) : ℤ) + (top - fb) = top + 1 by push_cast; ring]
  exact hhi

include hm ha hr hlo

/-- A magnitude rounded to a precision reaches a power of two just where `Reaches` says so. -/
theorem rounded_reaches (j : ℤ) :
    (2 : ℝ) ^ j ≤ n * 2 ^ (top - fb) ↔ Reaches mode (withSign neg a) (2 ^ j) (2 ^ (j - 1 - fb)) := by
  have hn1 := hr.le_of_le hm (unit_le hlo)
  have hn2 := hr.le_of_ge hm (lt_unit hhi).le
  have hpow : ∀ i : ℤ, (2 : ℝ) ^ i = ((2 ^ (fb + 1) : ℕ) : ℝ) * 2 ^ (i - 1 - fb) := fun i => by
    push_cast
    rw [← zpow_natCast, ← zpow_add₀ (by norm_num)]
    congr 1
    push_cast
    ring
  obtain h | h | h := lt_trichotomy (top + 1) j
  · have hle : (2 : ℝ) ^ (top + 1) ≤ 2 ^ (j - 1) := zpow_le_zpow_right₀ (by norm_num) (by omega)
    have hlt : (2 : ℝ) ^ (j - 1) < 2 ^ j := zpow_lt_zpow_right₀ (by norm_num) (by omega)
    refine iff_of_false ?_ ?_
    · have : (n : ℝ) * 2 ^ (top - fb) ≤ 2 ^ (top + 1) := by
        rw [hpow (top + 1), show top + 1 - 1 - (fb : ℤ) = top - fb by ring]
        exact mul_le_mul_of_nonneg_right (by exact_mod_cast hn2) (by positivity)
      linarith
    · rw [hpow j, reaches_iff ha (by positivity)]
      have hac : a / 2 ^ (j - 1 - fb) < ((2 ^ fb : ℕ) : ℝ) := by
        rw [div_lt_iff₀ (by positivity)]
        push_cast
        rw [← zpow_natCast, ← zpow_add₀ (by norm_num), show (fb : ℤ) + (j - 1 - fb) = j - 1 by ring]
        linarith
      have h1 : ((2 ^ (fb + 1) : ℕ) : ℝ) = 2 * ((2 ^ fb : ℕ) : ℝ) := by push_cast; ring
      have h2 : (1 : ℝ) ≤ ((2 ^ fb : ℕ) : ℝ) := by exact_mod_cast Nat.one_le_two_pow
      rw [h1]
      rintro (h | ⟨-, h⟩ | ⟨-, h⟩) <;> linarith
  · subst h
    have hu : top + 1 - 1 - (fb : ℤ) = top - fb := by ring
    rw [hpow (top + 1), hu, reaches_iff ha (by positivity), mul_le_mul_iff_of_pos_right (by positivity), Nat.cast_le]
    exact hr.le_iff hm (by rw [pow_succ]; omega)
  · have hle : (2 : ℝ) ^ j ≤ 2 ^ top := zpow_le_zpow_right₀ (by norm_num) (by omega)
    refine iff_of_true ?_ (.inl (by rw [abs_withSign ha.le]; linarith))
    have : (2 : ℝ) ^ top = ((2 ^ fb : ℕ) : ℝ) * 2 ^ (top - fb) := by
      push_cast
      rw [← zpow_natCast, ← zpow_add₀ (by norm_num)]
      simp
    rw [this] at hle
    exact hle.trans (mul_le_mul_of_nonneg_right (by exact_mod_cast hn1) (by positivity))

end

/-! The steps of `Fmt.round`. -/

/-- The exponent of the unit in the last place that a value of a binade is rounded to, for a format. -/
def ulpExp (f : Fmt) (top : ℤ) : ℤ := max (top - f.fbits) (f.emin - f.fbits)

/-- A significand with one bit too many is the next power of two. -/
def carried (f : Fmt) (p : ℕ × ℤ) : ℕ × ℤ := if p.1 = 2 ^ (f.fbits + 1) then (2 ^ f.fbits, p.2 + 1) else p

/-- The exponent field of a significand and its unit's exponent. -/
def expField (f : Fmt) (p : ℕ × ℤ) : ℕ := if 2 ^ f.fbits ≤ p.1 then (p.2 + f.fbits + f.bias).toNat else 0

/-- The pattern, without its sign, of a significand and its unit's exponent. -/
def patternOf (f : Fmt) (p : ℕ × ℤ) : ℕ :=
  if 2 ^ f.fbits ≤ p.1 then expField f p * 2 ^ f.fbits + (p.1 - 2 ^ f.fbits) else p.1

/-- What a value beyond the format's greatest is rounded to (03 R68). -/
def overflowed (f : Fmt) (mode : Nat) (neg : Bool) : ℕ :=
  f.signed neg (if mode = 1 || (mode = 2 && neg) || (mode = 3 && !neg) then f.maxBits else f.infBits)

/-- The flags of a value that is not beyond the format's greatest (03 R67). -/
def smallFlags (inexact tiny : Bool) : Flags := (if inexact then 1 else 0) + (if inexact && tiny then 2 else 0)

/-- Whether a value that is rounded without a least exponent lies below the least normal value, from its binade and its significand. -/
def isTiny (f : Fmt) (top : ℤ) (free : ℕ) : Bool :=
  decide (top < f.emin) && !(free = 2 ^ (f.fbits + 1) && top = f.emin - 1)

section
variable {f : Fmt} (hf : HasInf f)
include hf

/-- `Fmt.round`, step by step. -/
theorem round_eq (mode : Nat) (neg : Bool) {m : ℕ} (hm : m ≠ 0) (e : ℤ) (sticky : Bool) {top : ℤ} (htop : top = e + (Nat.log2 m : ℤ))
    {r free : ℕ × Bool} (hr : r = roundAt mode neg m e sticky (ulpExp f top)) (hfree : free = roundAt mode neg m e sticky (top - f.fbits))
    {p : ℕ × ℤ} (hp : p = carried f (r.1, ulpExp f top)) :
    f.round mode neg m e sticky = if 2 ^ f.ebits - 1 ≤ expField f p then (overflowed f mode neg, 5)
      else (f.signed neg (patternOf f p * 2 ^ f.shift), smallFlags r.2 (isTiny f top free.1)) := by
  subst htop hr hfree hp
  unfold Fmt.round
  rw [if_neg (by simp [hm]), hf.ieee]
  simp only [Bool.false_eq_true, if_false, Bool.not_false, Bool.true_and, decide_eq_true_eq]
  rfl

/-- The pattern of a significand and an exponent that the format has stands for them. -/
theorem read_patternOf (neg : Bool) {p : ℕ × ℤ} (hn : p.1 < 2 ^ (f.fbits + 1)) (hq : f.emin - f.fbits ≤ p.2)
    (hsub : p.1 < 2 ^ f.fbits → p.2 = f.emin - f.fbits) (hb : ¬2 ^ f.ebits - 1 ≤ expField f p) :
    f.read (f.signed neg (patternOf f p * 2 ^ f.shift)) = .fin neg p.1 p.2 := by
  obtain ⟨hbias, hb1⟩ := two_bias hf
  have hemin : f.emin = 1 - (f.bias : ℤ) := rfl
  obtain ⟨n, q⟩ := p
  dsimp only at hn hq hsub ⊢
  rw [pow_succ] at hn
  unfold patternOf
  split
  · next h =>
    have hex : expField f (n, q) = (q + f.fbits + f.bias).toNat := if_pos h
    rw [read_signed hf neg (by omega) (by omega), if_neg (by omega), if_neg (by omega)]
    congr 1
    · omega
    · omega
  · next h =>
    have h0 := read_signed hf neg (ex := 0) (fr := n) (by positivity) (Nat.lt_of_not_le h)
    rw [if_neg (by omega), if_pos rfl, Nat.zero_mul, Nat.zero_add] at h0
    rw [h0, hsub (Nat.lt_of_not_le h)]

/-- A carry does not change the value, and keeps an even significand. -/
theorem carried_value (n : ℕ) (q : ℤ) :
    ((carried f (n, q)).1 : ℝ) * 2 ^ (carried f (n, q)).2 = n * 2 ^ q ∧ (n % 2 = 0 → (carried f (n, q)).1 % 2 = 0) := by
  have hfb := hf.fbits
  unfold carried
  split
  · next h =>
    dsimp only at h ⊢
    constructor
    · rw [h, zpow_add_one₀ (by norm_num)]
      push_cast
      ring
    · intro _
      obtain ⟨k, hk⟩ : ∃ k, f.fbits = k + 1 := ⟨f.fbits - 1, by omega⟩
      rw [hk, pow_succ]
      omega
  · exact ⟨rfl, id⟩

/-- The exponent field is too large just where the value is beyond the format's greatest. -/
theorem expField_big {p : ℕ × ℤ} (hn : p.1 < 2 ^ (f.fbits + 1)) (hq : f.emin - f.fbits ≤ p.2)
    (hsub : p.1 < 2 ^ f.fbits → p.2 = f.emin - f.fbits) :
    2 ^ f.ebits - 1 ≤ expField f p ↔ (2 : ℝ) ^ ((f.bias : ℤ) + 1) ≤ p.1 * 2 ^ p.2 := by
  obtain ⟨hbias, hb1⟩ := two_bias hf
  have hemin : f.emin = 1 - (f.bias : ℤ) := rfl
  obtain ⟨n, q⟩ := p
  dsimp only at hn hq hsub ⊢
  have hsplit : ∀ i : ℤ, (2 : ℝ) ^ (i + f.fbits) = ((2 ^ f.fbits : ℕ) : ℝ) * 2 ^ i := fun i => by
    push_cast
    rw [zpow_add₀ (by norm_num), zpow_natCast, mul_comm]
  unfold expField
  split
  · next h =>
    dsimp only at h ⊢
    constructor
    · intro hbig
      calc (2 : ℝ) ^ ((f.bias : ℤ) + 1) ≤ 2 ^ (q + f.fbits) := zpow_le_zpow_right₀ (by norm_num) (by omega)
        _ = ((2 ^ f.fbits : ℕ) : ℝ) * 2 ^ q := hsplit q
        _ ≤ n * 2 ^ q := mul_le_mul_of_nonneg_right (by exact_mod_cast h) (by positivity)
    · intro hbig
      have hlt : (2 : ℝ) ^ ((f.bias : ℤ) + 1) < 2 ^ (q + f.fbits + 1) := by
        refine hbig.trans_lt ?_
        rw [zpow_add_one₀ (by norm_num), hsplit, mul_right_comm]
        refine mul_lt_mul_of_pos_right ?_ (by positivity)
        rw [pow_succ] at hn
        exact_mod_cast hn
      have := (zpow_lt_zpow_iff_right₀ (by norm_num : (1 : ℝ) < 2)).1 hlt
      omega
  · next h =>
    dsimp only at h
    have h := Nat.lt_of_not_le h
    refine iff_of_false (by omega) ?_
    rw [hsub h, not_le]
    calc (n : ℝ) * 2 ^ (f.emin - f.fbits) < ((2 ^ f.fbits : ℕ) : ℝ) * 2 ^ (f.emin - f.fbits) :=
          mul_lt_mul_of_pos_right (by exact_mod_cast h) (by positivity)
      _ = 2 ^ f.emin := by rw [← hsplit, sub_add_cancel]
      _ ≤ 2 ^ ((f.bias : ℤ) + 1) := zpow_le_zpow_right₀ (by norm_num) (by omega)

end

/-- A real that a number pins down lies in the binade of that number. -/
theorem scaled_binade {m : ℕ} {e : ℤ} {sticky : Bool} {a : ℝ} (ha : Scaled m e sticky a) (hm : m ≠ 0) :
    0 < a ∧ (2 : ℝ) ^ (e + (Nat.log2 m : ℤ)) ≤ a ∧ a < 2 ^ (e + (Nat.log2 m : ℤ) + 1) := by
  have hpos : (0 : ℝ) < 2 ^ e := by positivity
  have h1 : (2 : ℝ) ^ Nat.log2 m ≤ m := by exact_mod_cast Nat.log2_self_le hm
  have h2 : (m : ℝ) + 1 ≤ 2 ^ (Nat.log2 m + 1) := by exact_mod_cast (Nat.lt_log2_self : m < _)
  have hle := ha.le
  have hlt := ha.lt
  rw [le_div_iff₀ hpos] at hle
  rw [div_lt_iff₀ hpos] at hlt
  have hlo : (2 : ℝ) ^ (e + (Nat.log2 m : ℤ)) ≤ a := by
    rw [zpow_add₀ (by norm_num), zpow_natCast, mul_comm]
    exact (mul_le_mul_of_nonneg_right h1 hpos.le).trans hle
  refine ⟨(by positivity : (0 : ℝ) < 2 ^ (e + (Nat.log2 m : ℤ))).trans_le hlo, hlo, ?_⟩
  rw [show e + (Nat.log2 m : ℤ) + 1 = e + (Nat.log2 m + 1 : ℕ) by push_cast; ring, zpow_add₀ (by norm_num), zpow_natCast, mul_comm]
  exact hlt.trans_le (mul_le_mul_of_nonneg_right h2 hpos.le)

/-- A power of two in units of another. -/
theorem zpow_units (k : ℕ) (i : ℤ) : (2 : ℝ) ^ (i + k) = ((2 ^ k : ℕ) : ℝ) * 2 ^ i := by
  push_cast
  rw [zpow_add₀ (by norm_num), zpow_natCast, mul_comm]

section
variable {f : Fmt} {mode : Nat} {neg : Bool} {a : ℝ} {top : ℤ} {n free : ℕ} (hf : HasInf f) (hm : mode < 5) (ha : 0 < a)
  (hlo : (2 : ℝ) ^ top ≤ a) (hhi : a < 2 ^ (top + 1)) (hn : RoundsTo mode neg (a / 2 ^ ulpExp f top) n)
  (hfree : RoundsTo mode neg (a / 2 ^ (top - f.fbits)) free)

/-- At or above the least normal binade the unit is that of the binade. -/
theorem ulpExp_normal {f : Fmt} {top : ℤ} (h : f.emin ≤ top) : ulpExp f top = top - f.fbits := max_eq_left (by omega)

/-- Below the least normal binade the unit is that of the least normal binade. -/
theorem ulpExp_subnormal {f : Fmt} {top : ℤ} (h : top < f.emin) : ulpExp f top = f.emin - f.fbits := max_eq_right (by omega)

include hm hhi hfree in
theorem free_le : (free : ℝ) * 2 ^ (top - f.fbits) ≤ 2 ^ (top + 1) := by
  have h := hfree.le_of_ge hm (lt_unit hhi).le
  rw [show top + 1 = top - f.fbits + (f.fbits + 1 : ℕ) by push_cast; ring, zpow_units]
  exact mul_le_mul_of_nonneg_right (by exact_mod_cast h) (by positivity)

include hm hhi hn in
/-- A value below the least normal binade is rounded to no more than the least normal value. -/
theorem subnormal_le (h : top < f.emin) : n ≤ 2 ^ f.fbits := by
  refine hn.le_of_ge hm ?_
  rw [ulpExp_subnormal h, div_le_iff₀ (by positivity), ← zpow_units, sub_add_cancel]
  exact hhi.le.trans (zpow_le_zpow_right₀ (by norm_num) (by omega))

include hm hlo hn in
theorem normal_ge (h : f.emin ≤ top) : 2 ^ f.fbits ≤ n := by
  rw [ulpExp_normal h] at hn
  exact hn.le_of_le hm (unit_le hlo)

include hm hhi hn in
theorem rounded_le : n ≤ 2 ^ (f.fbits + 1) := by
  obtain h | h := lt_or_ge top f.emin
  · exact (subnormal_le hm hhi hn h).trans (Nat.pow_le_pow_right (by norm_num) (Nat.le_succ _))
  · rw [ulpExp_normal h] at hn
    exact hn.le_of_ge hm (lt_unit hhi).le

include hm hlo hhi hn in
/-- What is encoded is a significand and an exponent that the format has, if its exponent field is not too large. -/
theorem carried_bounds {p : ℕ × ℤ} (hp : p = carried f (n, ulpExp f top)) :
    p.1 < 2 ^ (f.fbits + 1) ∧ f.emin - f.fbits ≤ p.2 ∧ (p.1 < 2 ^ f.fbits → p.2 = f.emin - f.fbits) := by
  have hle := rounded_le hm hhi hn
  have hq : f.emin - f.fbits ≤ ulpExp f top := le_max_right _ _
  have hpos : 0 < 2 ^ f.fbits := by positivity
  subst hp
  unfold carried
  rw [pow_succ] at hle ⊢
  split
  · exact ⟨by dsimp only; omega, by dsimp only; omega, fun h => absurd h (lt_irrefl _)⟩
  · next h =>
    dsimp only at h ⊢
    refine ⟨by omega, hq, fun h => ?_⟩
    obtain ht | ht := lt_or_ge top f.emin
    · exact ulpExp_subnormal ht
    · exact absurd (normal_ge hm hlo hn ht) (Nat.not_le.2 h)

include hf hm ha hlo hhi hn hfree in
/-- The rounded value is beyond the format's greatest just where `Reaches` says so (03 R67). -/
theorem overflow_iff : (2 : ℝ) ^ ((f.bias : ℤ) + 1) ≤ n * 2 ^ ulpExp f top ↔
    Reaches mode (withSign neg a) (2 ^ ((f.bias : ℤ) + 1)) (2 ^ ((f.bias : ℤ) - f.fbits)) := by
  obtain ⟨hbias, hb1⟩ := two_bias hf
  have hemin : f.emin = 1 - (f.bias : ℤ) := rfl
  rw [show (f.bias : ℤ) - f.fbits = (f.bias : ℤ) + 1 - 1 - f.fbits by ring]
  obtain h | h := lt_or_ge top f.emin
  · have hsmall : (2 : ℝ) ^ f.emin < 2 ^ ((f.bias : ℤ) + 1) := zpow_lt_zpow_right₀ (by norm_num) (by omega)
    refine iff_of_false (not_le.2 ?_) (fun hr => ?_)
    · refine lt_of_le_of_lt ?_ hsmall
      rw [ulpExp_subnormal h, ← sub_add_cancel f.emin (f.fbits : ℤ), zpow_units, sub_add_cancel]
      exact mul_le_mul_of_nonneg_right (by exact_mod_cast subnormal_le hm hhi hn h) (by positivity)
    · have h1 := (rounded_reaches hm ha hfree hlo hhi _).2 hr
      have h2 := free_le hm hhi hfree
      have h3 : (2 : ℝ) ^ (top + 1) ≤ 2 ^ f.emin := zpow_le_zpow_right₀ (by norm_num) (by omega)
      linarith
  · rw [ulpExp_normal h] at hn ⊢
    exact rounded_reaches hm ha hn hlo hhi _

include hm ha hlo hhi hfree in
/-- The value is tiny after rounding just where `Reaches` says so (03 R67). -/
theorem isTiny_iff : isTiny f top free = true ↔ ¬Reaches mode (withSign neg a) (2 ^ f.emin) (2 ^ (f.emin - 1 - f.fbits)) := by
  rw [← rounded_reaches hm ha hfree hlo hhi]
  have hunits : (2 : ℝ) ^ (top + 1) = ((2 ^ (f.fbits + 1) : ℕ) : ℝ) * 2 ^ (top - f.fbits) := by
    rw [← zpow_units]
    congr 1
    push_cast
    ring
  unfold isTiny
  simp only [Bool.and_eq_true, decide_eq_true_eq, Bool.not_eq_true', Bool.and_eq_false_iff, decide_eq_false_iff_not]
  obtain h | h := lt_or_ge top f.emin
  · rw [and_iff_right h, ← not_and_or, not_iff_not]
    constructor
    · rintro ⟨h1, h2⟩
      rw [h1, ← hunits, h2, sub_add_cancel]
    · intro h1
      have h2 := (zpow_le_zpow_iff_right₀ (by norm_num : (1 : ℝ) < 2)).1 (h1.trans (free_le hm hhi hfree))
      obtain rfl : top = f.emin - 1 := by omega
      rw [sub_add_cancel] at hunits
      rw [hunits, mul_le_mul_iff_of_pos_right (by positivity), Nat.cast_le] at h1
      exact ⟨le_antisymm (hfree.le_of_ge hm (lt_unit hhi).le) h1, rfl⟩
  · refine iff_of_false (fun hc => absurd hc.1 (not_lt.2 h)) (not_not.2 ?_)
    have h1 := hfree.le_of_le hm (unit_le hlo)
    calc (2 : ℝ) ^ f.emin ≤ 2 ^ top := zpow_le_zpow_right₀ (by norm_num) h
      _ = ((2 ^ f.fbits : ℕ) : ℝ) * 2 ^ (top - f.fbits) := by rw [← zpow_units, sub_add_cancel]
      _ ≤ free * 2 ^ (top - f.fbits) := mul_le_mul_of_nonneg_right (by exact_mod_cast h1) (by positivity)

end

section
variable {f : Fmt} (hf : HasInf f)
include hf

/-- Every value of a format is a multiple of the unit of a real's last place, or below the real's binade. -/
theorem onGrid_of_read {a : ℝ} {top : ℤ} (hlo : (2 : ℝ) ^ top ≤ a) {b j : ℕ} {i : Bool} {k : ℤ} (h : f.read b = .fin i j k) :
    OnGrid (a / 2 ^ ulpExp f top) (j * 2 ^ k / 2 ^ ulpExp f top) := by
  obtain ⟨hj, hk, -⟩ := read_fin_bounds hf h
  rw [mul_div_assoc, ← zpow_sub₀ (by norm_num)]
  obtain hkq | hkq := le_or_gt (ulpExp f top) k
  · refine ⟨j * 2 ^ (k - ulpExp f top).toNat, .inl ?_⟩
    push_cast
    rw [← zpow_natCast, Int.toNat_of_nonneg (by omega)]
  · have hnormal : f.emin ≤ top := by
      by_contra hc
      rw [ulpExp_subnormal (not_le.1 hc)] at hkq
      omega
    rw [ulpExp_normal hnormal] at hkq ⊢
    refine ⟨2 ^ f.fbits, .inr ⟨?_, unit_le hlo⟩⟩
    have h1 : (2 : ℝ) ^ (k - (top - f.fbits)) ≤ 2 ^ (-1 : ℤ) := zpow_le_zpow_right₀ (by norm_num) (by omega)
    have h2 : (j : ℝ) < 2 * ((2 ^ f.fbits : ℕ) : ℝ) := by
      rw [pow_succ, mul_comm] at hj
      exact_mod_cast hj
    calc (j : ℝ) * 2 ^ (k - (top - f.fbits)) ≤ j * 2 ^ (-1 : ℤ) := mul_le_mul_of_nonneg_left h1 j.cast_nonneg
      _ = j / 2 := by norm_num [div_eq_mul_inv]
      _ < ((2 ^ f.fbits : ℕ) : ℝ) := by linarith

/-- No value of a format is beyond its greatest, which is below the power of two that overflows. -/
theorem read_le_max {b j : ℕ} {i : Bool} {k : ℤ} (h : f.read b = .fin i j k) :
    (j : ℝ) * 2 ^ k ≤ ((2 ^ (f.fbits + 1) - 1 : ℕ) : ℝ) * 2 ^ ((f.bias : ℤ) - f.fbits) := by
  obtain ⟨hj, -, hk⟩ := read_fin_bounds hf h
  have h1 : j ≤ 2 ^ (f.fbits + 1) - 1 := by omega
  exact mul_le_mul (by exact_mod_cast h1) (zpow_le_zpow_right₀ (by norm_num) hk) (by positivity) (Nat.cast_nonneg _)

omit hf in
theorem max_lt (f : Fmt) : ((2 ^ (f.fbits + 1) - 1 : ℕ) : ℝ) * 2 ^ ((f.bias : ℤ) - f.fbits) < 2 ^ ((f.bias : ℤ) + 1) := by
  rw [show (f.bias : ℤ) + 1 = (f.bias : ℤ) - f.fbits + (f.fbits + 1 : ℕ) by push_cast; ring, zpow_units]
  refine mul_lt_mul_of_pos_right ?_ (by positivity)
  have : 2 ^ (f.fbits + 1) - 1 < 2 ^ (f.fbits + 1) := Nat.sub_lt (by positivity) (by norm_num)
  exact_mod_cast this

end

theorem valueOf_fin (n : Bool) (m : ℕ) (e : ℤ) : ((valueOf (.fin n m e) : ℚ) : ℝ) = withSign n (m * 2 ^ e) := by
  cases n <;> simp [valueOf, withSign]

theorem withSign_mul (n : Bool) (a c : ℝ) : withSign n a * c = withSign n (a * c) := by
  cases n
  · rfl
  · exact neg_mul _ _

theorem withSign_inj {n : Bool} {a b : ℝ} : withSign n a = withSign n b ↔ a = b := by
  cases n
  · rfl
  · exact neg_inj

theorem withSign_lt_zero {n : Bool} {a : ℝ} (ha : 0 < a) : withSign n a < 0 ↔ n = true := by
  cases n <;> simp [withSign, ha, ha.le]

/-- The direction that `Rounded` speaks of is one that is not toward zero. -/
theorem not_toward_iff {mode : Nat} (hm : mode < 5) {neg : Bool} {a : ℝ} (ha : 0 < a) :
    (mode = 0 ∨ mode = 4 ∨ (mode = 2 ∧ 0 < withSign neg a) ∨ (mode = 3 ∧ withSign neg a < 0)) ↔ ¬Toward mode neg := by
  have hpos : 0 < withSign neg a ↔ neg = false := by cases neg <;> simp [withSign, ha, ha.le]
  rw [withSign_lt_zero ha, hpos]
  unfold Toward
  cases neg <;> simp <;> omega

/-- A greatest magnitude below the real is the choice of a mode that rounds toward zero. -/
theorem chosen_max {mode : Nat} {neg s : Bool} {a M w : ℝ} {even : Prop} (ht : Toward mode neg) (hM : M ≤ a) (hw : 0 ≤ w) (hwM : w ≤ M) :
    Chosen mode (withSign neg a) (withSign neg M) (withSign s w) even := by
  have hM0 : 0 ≤ M := hw.trans hwM
  refine ⟨fun h => absurd h (not_nearest_of_toward ht), fun _ => ?_, fun h => ?_, fun h => ?_⟩
  · rw [abs_withSign hM0, abs_withSign (hM0.trans hM), abs_withSign hw]
    refine ⟨hM, ?_, fun _ _ => hwM⟩
    cases neg <;> simp only [withSign, Bool.false_eq_true, if_false, if_true] <;> nlinarith
  · obtain rfl : neg = true := by
      unfold Toward at ht
      cases neg
      · simp at ht
        omega
      · rfl
    refine ⟨neg_le_neg hM, fun _ => ?_⟩
    cases s <;> simp only [withSign, Bool.false_eq_true, if_false, if_true] <;> linarith
  · obtain rfl : neg = false := by
      unfold Toward at ht
      cases neg
      · rfl
      · simp at ht
        omega
    refine ⟨hM, fun _ => ?_⟩
    cases s <;> simp only [withSign, Bool.false_eq_true, if_false, if_true] <;> linarith

theorem smallFlags_bits (inexact tiny : Bool) : (smallFlags inexact tiny % 2 = 1 ↔ inexact = true) ∧
    (smallFlags inexact tiny / 2 % 2 = 1 ↔ inexact = true ∧ tiny = true) ∧ smallFlags inexact tiny < 4 := by
  cases inexact <;> cases tiny <;> decide

section
variable {f : Fmt} (hf : HasInf f) {mode : Nat} (hm : mode < 5) {neg : Bool} {a : ℝ} (ha : 0 < a)
include hf hm ha

/-- An infinity, or the greatest value where the mode rounds toward zero, is the rounding of a real that the format's values do not reach
(03 R68). -/
theorem overflowed_rounded (hr : Reaches mode (withSign neg a) (2 ^ ((f.bias : ℤ) + 1)) (2 ^ ((f.bias : ℤ) - f.fbits)))
    (ht : Reaches mode (withSign neg a) (2 ^ f.emin) (2 ^ (f.emin - 1 - f.fbits))) :
    Rounded f mode (withSign neg a) (overflowed f mode neg, 5) := by
  by_cases hdir : Toward mode neg
  · have hbig : (2 : ℝ) ^ ((f.bias : ℤ) + 1) ≤ a := by
      have hd := not_toward_iff hm ha (neg := neg)
      obtain h | ⟨h, -⟩ | ⟨h, -⟩ := hr
      · rwa [abs_withSign ha.le] at h
      · exact absurd hdir (hd.1 (h.elim .inl (fun h => .inr (.inl h))))
      · exact absurd hdir (hd.1 (.inr (.inr h)))
    have hlt := (max_lt f).trans_le hbig
    have hread : f.read (overflowed f mode neg) = .fin neg (2 ^ (f.fbits + 1) - 1) ((f.bias : ℤ) - f.fbits) := by
      unfold overflowed
      unfold Toward at hdir
      rw [if_pos (by simpa [or_assoc] using hdir), read_max hf]
    exact {
      number := by rw [hread]; rfl
      sign := fun n m e h => by
        rw [hread] at h
        obtain h | h := h <;> cases h
        exact (withSign_lt_zero ha).symm
      chosen := fun n m e h b i j k hb => by
        rw [hread] at h
        cases h
        rw [valueOf_fin, valueOf_fin]
        exact chosen_max hdir hlt.le (by positivity) (read_le_max hf hb)
      infinite := iff_of_false (fun ⟨n, h⟩ => by rw [hread] at h; cases h) (fun h => (not_toward_iff hm ha).1 h.2 hdir)
      inexact := iff_of_true (show (5 : ℕ) % 2 = 1 from rfl) (fun n m e h => by
        rw [hread] at h
        cases h
        rw [valueOf_fin, ne_eq, withSign_inj]
        exact hlt.ne)
      underflow := iff_of_false (show ¬(5 : ℕ) / 2 % 2 = 1 by decide) (fun h => h.2 ht)
      overflow := iff_of_true (show (5 : ℕ) / 4 % 2 = 1 from rfl) hr
      others := show (5 : ℕ) < 8 by decide }
  · have hread : f.read (overflowed f mode neg) = .inf neg := by
      unfold overflowed
      unfold Toward at hdir
      rw [if_neg (by simpa [or_assoc] using hdir), read_inf hf]
    exact {
      number := by rw [hread]; rfl
      sign := fun n m e h => by
        rw [hread] at h
        obtain h | h := h <;> cases h
        exact (withSign_lt_zero ha).symm
      chosen := fun n m e h => by rw [hread] at h; cases h
      infinite := iff_of_true ⟨neg, hread⟩ ⟨hr, (not_toward_iff hm ha).2 hdir⟩
      inexact := iff_of_true (show (5 : ℕ) % 2 = 1 from rfl) (fun n m e h => by rw [hread] at h; cases h)
      underflow := iff_of_false (show ¬(5 : ℕ) / 2 % 2 = 1 by decide) (fun h => h.2 ht)
      overflow := iff_of_true (show (5 : ℕ) / 4 % 2 = 1 from rfl) hr
      others := show (5 : ℕ) < 8 by decide }

/-- `Fmt.round` rounds the real that its operands pin down, where digits are missing only below the last place (02 R56; 03 R67, R68). -/
theorem round_rounded {m : ℕ} (hm0 : m ≠ 0) {e : ℤ} {sticky : Bool} (hs : Scaled m e sticky a)
    (hp : sticky = true → f.fbits < Nat.log2 m) : Rounded f mode (withSign neg a) (f.round mode neg m e sticky) := by
  obtain ⟨-, hlo, hhi⟩ := scaled_binade hs hm0
  generalize htop : e + (Nat.log2 m : ℤ) = top at hlo hhi
  have hq : top - f.fbits ≤ ulpExp f top := le_max_left _ _
  obtain ⟨hn, hinexact⟩ := roundAt_roundsTo hm neg hs (q := ulpExp f top) (fun h => by have := hp h; omega)
  obtain ⟨hfree, -⟩ := roundAt_roundsTo hm neg hs (q := top - f.fbits) (fun h => by have := hp h; omega)
  rw [round_eq hf mode neg hm0 e sticky htop.symm rfl rfl rfl]
  generalize roundAt mode neg m e sticky (ulpExp f top) = r at hn hinexact ⊢
  generalize roundAt mode neg m e sticky (top - f.fbits) = free at hfree ⊢
  obtain ⟨hp1, hp2, hp3⟩ := carried_bounds hm hlo hhi hn rfl
  obtain ⟨hvalue, heven⟩ := carried_value hf r.1 (ulpExp f top)
  have hbig := expField_big hf hp1 hp2 hp3
  rw [hvalue, overflow_iff hf hm ha hlo hhi hn hfree] at hbig
  have htiny := isTiny_iff hm ha hlo hhi hfree
  split
  · next h =>
    refine overflowed_rounded hf hm ha (hbig.1 h) (not_not.1 (fun hc => ?_))
    have hsmall := hbig.1 h
    rw [← overflow_iff hf hm ha hlo hhi hn hfree] at hsmall
    have ht := htiny.2 hc
    unfold isTiny at ht
    simp only [Bool.and_eq_true, decide_eq_true_eq] at ht
    have hsub := subnormal_le hm hhi hn ht.1
    rw [ulpExp_subnormal ht.1] at hsmall
    have h1 : (r.1 : ℝ) * 2 ^ (f.emin - f.fbits) ≤ 2 ^ f.emin := by
      rw [← sub_add_cancel f.emin (f.fbits : ℤ), zpow_units, sub_add_cancel]
      exact mul_le_mul_of_nonneg_right (by exact_mod_cast hsub) (by positivity)
    have h2 : (2 : ℝ) ^ f.emin < 2 ^ ((f.bias : ℤ) + 1) :=
      zpow_lt_zpow_right₀ (by norm_num) (by have := (two_bias hf).2; unfold Fmt.emin; omega)
    linarith
  · next h =>
    have hread := read_patternOf hf neg hp1 hp2 hp3 h
    generalize carried f (r.1, ulpExp f top) = p at hvalue heven hread
    obtain ⟨hnx, huf, hof⟩ := smallFlags_bits r.2 (isTiny f top free.1)
    have hexact : r.2 = true ↔ ((valueOf (.fin neg p.1 p.2) : ℚ) : ℝ) ≠ withSign neg a := by
      rw [hinexact, valueOf_fin, ne_eq, ne_eq, withSign_inj, hvalue, eq_div_iff (by positivity)]
    exact {
      number := by rw [hread]; rfl
      sign := fun n m e h => by
        rw [hread] at h
        obtain h | h := h <;> cases h
        exact (withSign_lt_zero ha).symm
      chosen := fun n m e h b i j k hb => by
        rw [hread] at h
        cases h
        have hc := chosen_scale (c := 2 ^ ulpExp f top) (by positivity)
          (chosen_of_roundsTo (s := i) hn (by positivity) (by positivity) (onGrid_of_read hf hlo hb) heven)
        rw [withSign_mul, withSign_mul, withSign_mul, div_mul_cancel₀ _ (by positivity), div_mul_cancel₀ _ (by positivity)] at hc
        rw [valueOf_fin, valueOf_fin, hvalue]
        exact hc
      infinite := iff_of_false (fun ⟨n, hi⟩ => by rw [hread] at hi; cases hi) (fun hi => h (hbig.2 hi.1))
      inexact := by
        rw [hnx, hexact]
        constructor
        · intro hne n m e he
          rw [hread] at he
          cases he
          exact hne
        · exact fun hall => hall _ _ _ hread
      underflow := by rw [huf, hnx, htiny]
      overflow := iff_of_false (fun hc => by rw [Nat.div_eq_of_lt hof] at hc; cases hc) (fun hr => h (hbig.2 hr))
      others := Nat.lt_of_lt_of_le hof (by decide) }

end

end Sys2Proof.Proofs
end

