-- ==== Sys2Proof/Proofs/FloatResults.lean ====
section
/-! The results of the arithmetic instructions (05 R111): sums, products, fused sums, quotients and square roots of finite values are their
exact values rounded once. -/

namespace Sys2Proof.Proofs

open Sys2Proof.Machine Sys2Proof.Statements

/-- The real that a finite value stands for. -/
noncomputable def realOf (n : Bool) (m : ℕ) (e : ℤ) : ℝ := withSign n (m * 2 ^ e)

theorem realOf_eq_zero {n : Bool} {m : ℕ} {e : ℤ} : realOf n m e = 0 ↔ m = 0 := by
  have : (2 : ℝ) ^ e ≠ 0 := by positivity
  cases n <;> simp [realOf, withSign, this]

theorem realOf_not (n : Bool) (m : ℕ) (e : ℤ) : realOf (!n) m e = -realOf n m e := by
  cases n <;> simp [realOf, withSign]

theorem realOf_mul (n i : Bool) (m j : ℕ) (e g : ℤ) : realOf n m e * realOf i j g = realOf (n != i) (m * j) (e + g) := by
  have : (2 : ℝ) ^ (e + g) = 2 ^ e * 2 ^ g := zpow_add₀ (by norm_num) _ _
  cases n <;> cases i <;> simp [realOf, withSign, this] <;> ring

theorem withSign_div (n i : Bool) (a b : ℝ) : withSign n a / withSign i b = withSign (n != i) (a / b) := by
  cases n <;> cases i <;> simp [withSign, neg_div, div_neg]

theorem exactSum_value (n i : Bool) (m j : ℕ) (e g : ℤ) :
    ((exactSum n m e i j g).1 : ℝ) * 2 ^ (exactSum n m e i j g).2 = realOf n m e + realOf i j g := by
  have scale : ∀ k : ℤ, min e g ≤ k → ∀ c : ℕ, ((c * 2 ^ (k - min e g).toNat : ℕ) : ℝ) * 2 ^ min e g = c * 2 ^ k := fun k hk c => by
    push_cast
    rw [mul_assoc, ← zpow_natCast, Int.toNat_of_nonneg (by omega), ← zpow_add₀ (by norm_num), sub_add_cancel]
  have h1 := scale e (min_le_left _ _) m
  have h2 := scale g (min_le_right _ _) j
  unfold exactSum realOf withSign
  dsimp only
  push_cast at h1 h2 ⊢
  cases n <;> cases i <;> simp only [Bool.false_eq_true, if_false, if_true] <;> rw [← h1, ← h2] <;> ring

/-- An integer in units is its magnitude with its sign. -/
theorem realOf_natAbs (s : ℤ) (e : ℤ) : realOf (decide (s < 0)) s.natAbs e = s * 2 ^ e := by
  unfold realOf withSign
  obtain h | h := lt_or_ge s 0
  · rw [if_pos (decide_eq_true h), Nat.cast_natAbs, abs_of_neg h]
    push_cast
    ring
  · rw [if_neg (by simpa using h), Nat.cast_natAbs, abs_of_nonneg h]

section
variable {f : Fmt} (hf : HasInf f) {mode : Nat} (hm : mode < 5)

theorem round_zero (f : Fmt) (mode : Nat) (n : Bool) (e : ℤ) : f.round mode n 0 e = (f.signed n 0, 0) := rfl

theorem finish_fin (f : Fmt) (mode : Nat) (n : Bool) (m : ℕ) (e : ℤ) : finish f mode (.fin n m e, 0) = f.round mode n m e := by
  unfold finish Fmt.write
  dsimp only
  rw [Nat.or_zero]

/-- A sum of two finite values has the sign that 05 R111 gives it where it is zero. -/
theorem fpAdd_zero (mode : Nat) {n i : Bool} {m j : ℕ} {e g : ℤ} (h : realOf n m e + realOf i j g = 0) :
    fpAdd mode (.fin n m e) (.fin i j g) = (.fin (if m = 0 ∧ n = i then n else mode = 3) 0 0, 0) := by
  have hs : (exactSum n m e i j g).1 = 0 := by
    rw [← exactSum_value] at h
    exact_mod_cast (mul_eq_zero.1 h).resolve_right (by positivity)
  have hj : m = 0 → j = 0 := fun h0 => by
    rw [realOf_eq_zero.2 h0, zero_add] at h
    exact realOf_eq_zero.1 h
  unfold fpAdd
  dsimp only
  rw [if_pos hs]
  congr 3
  by_cases h0 : m = 0
  · simp [h0, hj h0]
  · simp [h0]

theorem fpAdd_nonzero (mode : Nat) {n i : Bool} {m j : ℕ} {e g : ℤ} (h : realOf n m e + realOf i j g ≠ 0) :
    ∃ k c l, fpAdd mode (.fin n m e) (.fin i j g) = (.fin k c l, 0) ∧ c ≠ 0 ∧ realOf k c l = realOf n m e + realOf i j g := by
  rw [← exactSum_value] at h ⊢
  have hs : (exactSum n m e i j g).1 ≠ 0 := fun h0 => h (by rw [h0]; simp)
  refine ⟨_, _, _, ?_, Int.natAbs_ne_zero.2 hs, realOf_natAbs _ _⟩
  unfold fpAdd
  dsimp only
  rw [if_neg hs]

include hf hm

/-- A finite value rounded. -/
theorem fin_rounded {n : Bool} {m : ℕ} (e : ℤ) (h : m ≠ 0) : Rounded f mode (realOf n m e) (f.round mode n m e) := by
  have hpos : (0 : ℝ) < m := by exact_mod_cast Nat.pos_of_ne_zero h
  exact round_rounded hf hm (by positivity) h (scaled_exact m e) (fun h => by cases h)

theorem finish_add {n i : Bool} {m j : ℕ} {e g : ℤ} (h : realOf n m e + realOf i j g ≠ 0) :
    Rounded f mode (realOf n m e + realOf i j g) (finish f mode (fpAdd mode (.fin n m e) (.fin i j g))) := by
  obtain ⟨k, c, l, hk, hc, hv⟩ := fpAdd_nonzero mode h
  rw [hk, finish_fin, ← hv]
  exact fin_rounded hf hm l hc

end

/-- The quotient of two significands has digits enough, and the rest says whether it is exact. -/
theorem quotient_scaled (f : Fmt) {m j : ℕ} (e g : ℤ) (hm : m ≠ 0) (hj : j ≠ 0) (hjf : j < 2 ^ (f.fbits + 1)) :
    m * 2 ^ (2 * f.fbits + 8) / j ≠ 0 ∧ f.fbits < Nat.log2 (m * 2 ^ (2 * f.fbits + 8) / j) ∧
      Scaled (m * 2 ^ (2 * f.fbits + 8) / j) (e - g - (2 * f.fbits + 8 : ℕ)) (m * 2 ^ (2 * f.fbits + 8) % j != 0)
        (m * 2 ^ e / (j * 2 ^ g)) := by
  have hjpos := Nat.pos_of_ne_zero hj
  generalize hk : 2 * f.fbits + 8 = k
  have hbig : 2 ^ (f.fbits + 1) ≤ m * 2 ^ k / j := by
    rw [Nat.le_div_iff_mul_le hjpos]
    calc 2 ^ (f.fbits + 1) * j ≤ 2 ^ (f.fbits + 1) * 2 ^ (f.fbits + 1) := Nat.mul_le_mul_left _ hjf.le
      _ = 2 ^ (f.fbits + 1 + (f.fbits + 1)) := (pow_add _ _ _).symm
      _ ≤ 2 ^ k := Nat.pow_le_pow_right (by norm_num) (by omega)
      _ ≤ m * 2 ^ k := Nat.le_mul_of_pos_left _ (Nat.pos_of_ne_zero hm)
  have h0 : m * 2 ^ k / j ≠ 0 := by
    have : 0 < 2 ^ (f.fbits + 1) := by positivity
    omega
  refine ⟨h0, (Nat.le_log2 h0).2 hbig, ?_⟩
  have hj0 : (0 : ℝ) < j := by exact_mod_cast hjpos
  have hunits : (m : ℝ) * 2 ^ e / (j * 2 ^ g) / 2 ^ (e - g - (k : ℤ)) = ((m * 2 ^ k : ℕ) : ℝ) / j := by
    rw [zpow_sub₀ (by norm_num), zpow_sub₀ (by norm_num), zpow_natCast]
    push_cast
    have he : (2 : ℝ) ^ e ≠ 0 := by positivity
    have hg : (2 : ℝ) ^ g ≠ 0 := by positivity
    field_simp
  unfold Scaled
  rw [hunits]
  generalize m * 2 ^ k = N
  have hsplit : (N : ℝ) / j = (N / j : ℕ) + ((N % j : ℕ) : ℝ) / j := by
    rw [eq_comm, ← sub_eq_zero]
    field_simp
    have : ((j * (N / j) + N % j : ℕ) : ℝ) = N := by rw [Nat.div_add_mod]
    push_cast at this
    linarith
  have hmod : ((N % j : ℕ) : ℝ) < j := by exact_mod_cast Nat.mod_lt N hjpos
  rw [hsplit]
  by_cases hr : N % j = 0
  · rw [hr]
    simp [Pinned]
  · have hpos : (0 : ℝ) < (N % j : ℕ) := by exact_mod_cast Nat.pos_of_ne_zero hr
    have h1 : (0 : ℝ) < ((N % j : ℕ) : ℝ) / j := div_pos hpos hj0
    have h2 : ((N % j : ℕ) : ℝ) / j < 1 := (div_lt_one hj0).2 hmod
    unfold Pinned
    rw [if_pos (by simpa using hr)]
    exact ⟨by linarith, by linarith⟩

/-- `isqrt` finds the integer square root in the bits that it is given. -/
theorem isqrt_spec (n b r : ℕ) (hlo : r * r ≤ n) (hhi : n < (r + 2 ^ b) * (r + 2 ^ b)) :
    isqrt n b r * isqrt n b r ≤ n ∧ n < (isqrt n b r + 1) * (isqrt n b r + 1) := by
  induction b generalizing r with
  | zero => exact ⟨hlo, hhi⟩
  | succ b ih =>
    unfold isqrt
    dsimp only
    split
    · next h => exact ih _ h (by rw [pow_succ] at hhi; rwa [show r + 2 ^ b + 2 ^ b = r + 2 ^ b * 2 by ring])
    · next h => exact ih _ hlo (Nat.lt_of_not_le h)

/-- The integer square root that FSQRT takes: half as many bits as the number has are enough. -/
def rootOf (n : ℕ) : ℕ := isqrt n (Nat.log2 n / 2 + 1) 0

theorem rootOf_spec (n : ℕ) : rootOf n * rootOf n ≤ n ∧ n < (rootOf n + 1) * (rootOf n + 1) := by
  refine isqrt_spec _ _ _ (Nat.zero_le _) ?_
  rw [Nat.zero_add, ← pow_add]
  exact Nat.lt_log2_self.trans_le (Nat.pow_le_pow_right (by norm_num) (by omega))

/-- The root of a significand has digits enough, and whether it is the root of a square says whether it is exact. -/
theorem root_scaled (f : Fmt) {m k : ℕ} {e : ℤ} (hm : m ≠ 0) (hk : 2 * f.fbits + 8 ≤ k) (heven : (e - k) % 2 = 0) {r : ℕ}
    (hlo : r * r ≤ m * 2 ^ k) (hhi : m * 2 ^ k < (r + 1) * (r + 1)) :
    r ≠ 0 ∧ f.fbits < Nat.log2 r ∧ Scaled r ((e - k) / 2) (r * r != m * 2 ^ k) (Real.sqrt (m * 2 ^ e)) := by
  have hbig : 2 ^ (f.fbits + 1) ≤ r := by
    by_contra hc
    have h1 : (r + 1) * (r + 1) ≤ 2 ^ (f.fbits + 1) * 2 ^ (f.fbits + 1) := Nat.mul_le_mul (by omega) (by omega)
    rw [← pow_add] at h1
    have h2 : 2 ^ (f.fbits + 1 + (f.fbits + 1)) ≤ 2 ^ k := Nat.pow_le_pow_right (by norm_num) (by omega)
    have h3 : 2 ^ k ≤ m * 2 ^ k := Nat.le_mul_of_pos_left _ (Nat.pos_of_ne_zero hm)
    omega
  have h0 : r ≠ 0 := by
    have : 0 < 2 ^ (f.fbits + 1) := by positivity
    omega
  refine ⟨h0, (Nat.le_log2 h0).2 hbig, ?_⟩
  have hunits : Real.sqrt (m * 2 ^ e) / 2 ^ ((e - k) / 2) = Real.sqrt ((m * 2 ^ k : ℕ) : ℝ) := by
    have hsq : (2 : ℝ) ^ (e - k) = 2 ^ ((e - k) / 2) * 2 ^ ((e - k) / 2) := by
      rw [← zpow_add₀ (by norm_num)]
      congr 1
      omega
    have hval : (m : ℝ) * 2 ^ e = ((m * 2 ^ k : ℕ) : ℝ) * (2 ^ ((e - k) / 2) * 2 ^ ((e - k) / 2)) := by
      rw [← hsq]
      push_cast
      rw [mul_assoc, ← zpow_natCast, ← zpow_add₀ (by norm_num)]
      congr 2
      ring
    rw [hval, Real.sqrt_mul (Nat.cast_nonneg _), Real.sqrt_mul_self (by positivity), mul_div_cancel_right₀ _ (by positivity)]
  unfold Scaled
  rw [hunits]
  generalize m * 2 ^ k = N at hlo hhi
  by_cases hr : r * r = N
  · subst hr
    push_cast
    rw [Real.sqrt_mul_self (Nat.cast_nonneg _)]
    simp [Pinned]
  · have h1 : (r : ℝ) * r < N := by exact_mod_cast lt_of_le_of_ne hlo hr
    have h2 : (N : ℝ) < (r + 1) * (r + 1) := by exact_mod_cast hhi
    unfold Pinned
    rw [if_pos (by simpa using hr)]
    constructor
    · exact Real.lt_sqrt_of_sq_lt (by rw [pow_two]; exact h1)
    · rw [Real.sqrt_lt' (by positivity), pow_two]
      exact h2

section
variable {f : Fmt} (hf : HasInf f) {mode : Nat} (hm : mode < 5) {a b c : ℕ} {n i k : Bool} {m j l : ℕ} {e g h : ℤ}
  (ha : f.read a = .fin n m e) (hb : f.read b = .fin i j g) (hc : f.read c = .fin k l h)

include ha hb in
theorem add_zero_sum (hz : realOf n m e + realOf i j g = 0) :
    f.add mode a b = (f.signed (if m = 0 ∧ n = i then n else mode = 3) 0, 0) := by
  rw [Fmt.add, ha, hb, fpAdd_zero mode hz, finish_fin, round_zero]

include ha hb in
theorem sub_zero_difference (hz : realOf n m e - realOf i j g = 0) :
    f.sub mode a b = (f.signed (if m = 0 ∧ n ≠ i then n else mode = 3) 0, 0) := by
  rw [sub_eq_add_neg, ← realOf_not] at hz
  rw [Fmt.sub, ha, hb, Fp.neg, fpAdd_zero mode hz, finish_fin, round_zero]
  simp only [Bool.eq_not, ne_eq]

include ha hb in
theorem mul_zero_product (hz : realOf n m e * realOf i j g = 0) : f.mul mode a b = (f.signed (n != i) 0, 0) := by
  rw [realOf_mul, realOf_eq_zero] at hz
  rw [Fmt.mul, ha, hb, fpMul, hz, finish_fin, round_zero]

include ha hb in
theorem div_by_zero (hx : realOf n m e ≠ 0) (hy : realOf i j g = 0) : f.div mode a b = (f.signed (n != i) f.infBits, 8) := by
  rw [ne_eq, realOf_eq_zero] at hx
  rw [realOf_eq_zero] at hy
  simp [Fmt.div, ha, hb, hx, hy]

include hf hm

include ha hb in
theorem add_rounded (hz : realOf n m e + realOf i j g ≠ 0) : Rounded f mode (realOf n m e + realOf i j g) (f.add mode a b) := by
  rw [Fmt.add, ha, hb]
  exact finish_add hf hm hz

include ha hb in
theorem sub_rounded (hz : realOf n m e - realOf i j g ≠ 0) : Rounded f mode (realOf n m e - realOf i j g) (f.sub mode a b) := by
  rw [sub_eq_add_neg, ← realOf_not] at hz ⊢
  rw [Fmt.sub, ha, hb]
  exact finish_add hf hm hz

include ha hb in
theorem mul_rounded (hz : realOf n m e * realOf i j g ≠ 0) : Rounded f mode (realOf n m e * realOf i j g) (f.mul mode a b) := by
  rw [realOf_mul] at hz ⊢
  rw [Fmt.mul, ha, hb, fpMul, finish_fin]
  exact fin_rounded hf hm _ (mt realOf_eq_zero.2 hz)

include ha hb hc in
theorem fma_rounded (neg : Bool) (hz : realOf n m e * realOf i j g + realOf (if neg then !k else k) l h ≠ 0) :
    Rounded f mode (realOf n m e * realOf i j g + realOf (if neg then !k else k) l h) (f.fma mode a b c neg) := by
  have hfma : f.fma mode a b c neg = finish f mode (fpAdd mode (.fin (n != i) (m * j) (e + g)) (.fin (if neg then !k else k) l h)) := by
    rw [Fmt.fma, ha, hb, hc, fpMul]
    cases neg <;> simp [Fp.neg]
  rw [realOf_mul] at hz ⊢
  rw [hfma]
  exact finish_add hf hm hz

include ha hb in
theorem div_rounded (hx : realOf n m e ≠ 0) (hy : realOf i j g ≠ 0) :
    Rounded f mode (realOf n m e / realOf i j g) (f.div mode a b) := by
  rw [ne_eq, realOf_eq_zero] at hx hy
  obtain ⟨h0, hdigits, hs⟩ := quotient_scaled f e g hx hy (read_fin_bounds hf hb).1
  have hxp : (0 : ℝ) < m := by exact_mod_cast Nat.pos_of_ne_zero hx
  have hyp : (0 : ℝ) < j := by exact_mod_cast Nat.pos_of_ne_zero hy
  have hdiv : f.div mode a b = f.round mode (n != i) (m * 2 ^ (2 * f.fbits + 8) / j) (e - g - (2 * f.fbits + 8 : ℕ))
      (m * 2 ^ (2 * f.fbits + 8) % j != 0) := by
    rw [Fmt.div, ha, hb]
    dsimp only
    rw [if_neg hy, if_neg hx]
  rw [realOf, realOf, withSign_div, hdiv]
  exact round_rounded hf hm (by positivity) h0 hs (fun _ => hdigits)

include ha in
theorem sqrt_rounded (hx : 0 < realOf n m e) : Rounded f mode (Real.sqrt (realOf n m e)) (f.sqrt mode a) := by
  have hm0 : m ≠ 0 := mt realOf_eq_zero.2 hx.ne'
  have hmp : (0 : ℝ) < m := by exact_mod_cast Nat.pos_of_ne_zero hm0
  obtain rfl : n = false := by
    cases n
    · rfl
    · exact absurd ((withSign_lt_zero (n := true) (by positivity : (0 : ℝ) < m * 2 ^ e)).2 rfl) hx.not_gt
  obtain ⟨d, hd, hk⟩ : ∃ d : ℕ, d = (if (e - (2 * f.fbits + 8 : ℕ)) % 2 = 0 then 0 else 1) ∧ (e - (2 * f.fbits + 8 + d : ℕ)) % 2 = 0 := by
    refine ⟨_, rfl, ?_⟩
    split <;> push_cast <;> omega
  have hsqrt : f.sqrt mode a = f.round mode false (rootOf (m * 2 ^ (2 * f.fbits + 8 + d))) ((e - (2 * f.fbits + 8 + d : ℕ)) / 2)
      (rootOf (m * 2 ^ (2 * f.fbits + 8 + d)) * rootOf (m * 2 ^ (2 * f.fbits + 8 + d)) != m * 2 ^ (2 * f.fbits + 8 + d)) := by
    rw [Fmt.sqrt, ha]
    dsimp only
    rw [if_neg hm0, if_neg Bool.false_ne_true, hd]
    rfl
  obtain ⟨hlo, hhi⟩ := rootOf_spec (m * 2 ^ (2 * f.fbits + 8 + d))
  obtain ⟨h0, hdigits, hs⟩ := root_scaled f hm0 (Nat.le_add_right _ d) hk hlo hhi
  rw [hsqrt]
  exact round_rounded (neg := false) hf hm (Real.sqrt_pos.2 hx) h0 hs (fun _ => hdigits)

end

theorem hasInf_of_mem {f : Fmt} (h : f ∈ [Fmt.fp64, Fmt.fp32, Fmt.fp19, Fmt.bf16, Fmt.fp16, Fmt.e5m2]) : HasInf f := by
  have : f.e4m3 = false ∧ 2 ≤ f.ebits ∧ 1 ≤ f.fbits := by
    revert f
    decide
  exact ⟨this.1, this.2.1, this.2.2⟩

/-- The arithmetic results are the exact ones rounded (02 R56; 03 R67, R68; 05 R111). -/
theorem resultsAreRounded_holds : resultsAreRounded := by
  intro f hmem mode hm
  have hf := hasInf_of_mem hmem
  refine ⟨fun n m e h => by rw [valueOf_fin]; exact fin_rounded hf hm e h, ?_⟩
  intro a b c n i k m j l e g h x y z ha hb hc hx hy hz
  obtain rfl : x = realOf n m e := hx.trans (valueOf_fin _ _ _)
  obtain rfl : y = realOf i j g := hy.trans (valueOf_fin _ _ _)
  obtain rfl : z = realOf k l h := hz.trans (valueOf_fin _ _ _)
  have hminus : realOf n m e * realOf i j g - realOf k l h = realOf n m e * realOf i j g + realOf (!k) l h := by
    rw [realOf_not, sub_eq_add_neg]
  refine ⟨add_rounded hf hm ha hb, add_zero_sum ha hb, sub_rounded hf hm ha hb, sub_zero_difference ha hb, mul_rounded hf hm ha hb,
    mul_zero_product ha hb, fma_rounded hf hm ha hb hc false, fun h => ?_, div_rounded hf hm ha hb, fun hx hy => ?_,
    div_by_zero ha hb, fun hx hy => ?_, sqrt_rounded hf hm ha, fun hx => ?_, fun hx => ?_⟩
  · rw [hminus] at h ⊢
    exact fma_rounded hf hm ha hb hc true h
  · rw [realOf_eq_zero] at hx
    rw [ne_eq, realOf_eq_zero] at hy
    simp [Fmt.div, ha, hb, hx, hy]
  · rw [realOf_eq_zero] at hx hy
    simp [Fmt.div, ha, hb, hx, hy]
  · rw [realOf_eq_zero] at hx
    simp [Fmt.sqrt, ha, hx]
  · have hm0 : m ≠ 0 := mt realOf_eq_zero.2 hx.ne
    have hmp : (0 : ℝ) < m := by exact_mod_cast Nat.pos_of_ne_zero hm0
    have hn : n = true := (withSign_lt_zero (by positivity)).1 hx
    simp [Fmt.sqrt, ha, hm0, hn]

end Sys2Proof.Proofs
end

