-- ==== Sys2Proof/Proofs/FloatFrame.lean ====
section
/-! The frame of the scalar float instructions (05 R109): what one that reads resident names leaves. -/

namespace Sys2Proof.Proofs

open Sys2Proof.Machine Sys2Proof.Statements

@[simp] theorem flagged_errs (s : State) (f : Flags) : (flagged s f).errs = s.errs := by
  unfold flagged
  split <;> rfl

theorem flagged_thread (s : State) (f : Flags) : (flagged s f).thread s.cur = s.thread s.cur := by
  rw [State.thread, flagged_slot, State.thread]

theorem resident_goOn (s : State) (x y : Thread) (pc : BitVec 55) (n : Nat) : (s.goOn x pc).resident y n = s.resident y n := by
  rw [State.resident, State.goOn, State.setSlot_cur, core_setSlot, State.resident]

theorem tstat_goOn (s : State) (x : Thread) (pc : BitVec 55) : ((s.goOn x pc).slot s.cur).tstat = (s.slot s.cur).tstat := by
  rw [State.goOn, State.slot_setSlot]

theorem pc_goOn (s : State) (x : Thread) (pc : BitVec 55) : ((s.goOn x pc).thread s.cur).map (·.pc) = some pc := by
  rw [State.goOn, State.thread_setSlot]
  rfl

/-- Raised flags are part of what a unit on registers may change. -/
theorem registersOnly_flagged {s t : State} {f : Flags} {names : List Nat} (h : RegistersOnly (flagged s f) t names) :
    RegistersOnly s t names := by
  unfold flagged at h
  split at h
  · exact h
  · obtain ⟨x, y, hx, hy, ht, hcores, hcore, hregs, hslots, hslot, hyx, hrec⟩ := h
    simp only [State.setSlot_cur] at hx hy hcores hcore hregs hslots hslot
    refine ⟨x, y, ?_, hy, ht, fun c hc => ?_, ?_, fun k hk => ?_, fun n hn => ?_, ?_, hyx, hrec⟩
    · rw [State.thread_setSlot] at hx
      exact hx
    · rw [hcores c hc, core_setSlot_other _ _ _ _ hc]
    · rw [hcore, core_setSlot]
    · rw [hregs k hk, core_setSlot]
    · rw [hslots n hn, State.slot_setSlot_other _ _ _ _ hn]
    · rw [hslot, State.slot_setSlot]

section
variable {i : Instr} {s : State} {x : Thread} (hp : Plain i s x)
include hp

theorem plain_read (w : IWord) {n : BitVec 8} (hn : n.toNat < x.win) : readName w n s = .ok (s.resident x n.toNat, s) :=
  readName_resident w hp.thread hp.sound hn (hp.clean _ hn)

/-- The end of a unit that raises flags and writes one resident name. -/
theorem plain_writes (w : IWord) {d : BitVec 8} (hd : d.toNat < x.win) (f : Flags) (v : Word) :
    ∃ s3 s4 t, Gives (raiseFlags f) s () s3 ∧ Gives (writeName w d v) s3 () s4 ∧ Retires s4 t ∧ RegistersOnly s t [d.toNat] ∧
      t.resident x d.toNat = v ∧ (t.slot s.cur).tstat = (if f = 0 then (s.slot s.cur).tstat else orFlags (s.slot s.cur).tstat f) ∧
      (t.thread s.cur).map (·.pc) = some (x.pc + 4) := by
  have hx : (flagged s f).thread (flagged s f).cur = some x := by rw [flagged_cur, flagged_thread, hp.thread]
  have hcomposed : ((flagged s f).slot (flagged s f).cur).composed = false := by
    rw [flagged_cur, flagged_slot]
    exact hp.open_
  have hwrote : ((flagged s f).wrote x d.toNat v).thread ((flagged s f).wrote x d.toNat v).cur =
      some { x with recipes := x.staled d.toNat } := State.wrote_thread _ _ _ _
  have hopen : (((flagged s f).wrote x d.toNat v).slot ((flagged s f).wrote x d.toNat v).cur).composed = false := by
    rw [State.wrote_cur, State.wrote_slot]
    exact hcomposed
  refine ⟨_, _, _, raiseFlags_run f s, writeName_resident w hx ((flagged_errs s f).trans hp.sound) hd,
    retire_plain hwrote hopen hp.room, registersOnly_flagged (wrote_registersOnly hx _), ?_, ?_, ?_⟩
  · rw [resident_goOn]
    exact State.wrote_resident _ _ _ _ _ rfl
  · have h := tstat_goOn ((flagged s f).wrote x d.toNat v) { x with recipes := x.staled d.toNat } (x.pc + 4)
    rw [State.wrote_cur, State.wrote_slot, flagged_cur, flagged_slot] at h
    exact h
  · have h := pc_goOn ((flagged s f).wrote x d.toNat v) { x with recipes := x.staled d.toNat } (x.pc + 4)
    rwa [State.wrote_cur, flagged_cur] at h

end

/-! The bodies of the float instructions. -/

section
variable {s t : State} {x : Thread}

/-- A float instruction of two operands is its operation in the unit's format. -/
theorem exec_floatPair {i : Instr} {d a b : BitVec 8} {f : Latch → Fmt → Nat → Nat → Nat → Nat × Flags} (hi : floatPair i = some (d, a, b, f))
    (hs : Issues i s) (hx : s.thread s.cur = some x) (h : floatBinary (wordOf i) d a b (f x.latch) s = .ok ((), t)) :
    exec i s = .next t := by
  cases i <;> cases hi
  case fadd => rw [exec_fadd]; exact runUnit_ok hs h
  case fsub => rw [exec_fsub]; exact runUnit_ok hs h
  case fmul => rw [exec_fmul]; exact runUnit_ok hs h
  case fdiv => rw [exec_fdiv]; exact runUnit_ok hs h
  case fmin => rw [exec_fmin]; exact runUnit_ok hs h
  case fmax => rw [exec_fmax]; exact runUnit_ok hs h
  case feq => rw [exec_feq]; exact runUnit_ok hs h
  case flt => rw [exec_flt]; exact runUnit_ok hs h
  case fle => rw [exec_fle]; exact runUnit_ok hs h
  case fsgnj => rw [exec_fsgnj]; exact runUnit_ok hs ((bind_ok (latch_run hx)).trans h)

/-- A float instruction of one operand is its operation in the unit's format. -/
theorem exec_floatOne {i : Instr} {d a : BitVec 8} {f : Fmt → Nat → Nat → Nat × Flags} (hi : floatOne i = some (d, a, f))
    (hs : Issues i s) (h : floatUnary (wordOf i) d a f s = .ok ((), t)) : exec i s = .next t := by
  cases i <;> cases hi
  case fsqrt => rw [exec_fsqrt]; exact runUnit_ok hs h
  case flg2 => rw [exec_flg2]; exact runUnit_ok hs h
  case fex2 => rw [exec_fex2]; exact runUnit_ok hs h
  case fclass => rw [exec_fclass]; exact runUnit_ok hs h
  case frint => rw [exec_frint]; exact runUnit_ok hs h

theorem exec_fused {i : Instr} {d a b : BitVec 8} {neg : Bool} (hi : fused i = some (d, a, b, neg)) (hs : Issues i s)
    (h : floatTernary (wordOf i) d a b neg s = .ok ((), t)) : exec i s = .next t := by
  cases i <;> cases hi
  case ffma => rw [exec_ffma]; exact runUnit_ok hs h
  case ffms => rw [exec_ffms]; exact runUnit_ok hs h

end

/-- Settles O6: rounding to a multiple of the last place is rounding to the format's values, and a unit on resident names ends in the state
that its flags and its one write leave. -/
theorem floatFrame : Obligations.FloatFrame := by
  unfold Obligations.FloatFrame
  refine ⟨resultsAreRounded_holds, ?_, ?_, ?_, ?_⟩
  · intro i d a b f hi s x r hp hd ha hb hr
    obtain ⟨s3, s4, t, h3, h4, ht, frame⟩ := plain_writes hp (wordOf i) hd r.2 (word r.1)
    exact ⟨t, exec_floatPair hi hp.issues hp.thread
      (floatBinary_ok hp.thread (plain_read hp _ ha) (plain_read hp _ hb) hp.thread hr h3 h4 ht), frame⟩
  · intro i d a f hi s x r hp hd ha hr
    obtain ⟨s3, s4, t, h3, h4, ht, frame⟩ := plain_writes hp (wordOf i) hd r.2 (word r.1)
    exact ⟨t, exec_floatOne hi hp.issues (floatUnary_ok hp.thread (plain_read hp _ ha) hp.thread hr h3 h4 ht), frame⟩
  · intro i d a b neg hi s x r hp hd ha hb hr
    obtain ⟨s3, s4, t, h3, h4, ht, frame⟩ := plain_writes hp (wordOf i) hd r.2 (word r.1)
    refine ⟨t, exec_fused hi hp.issues ?_, frame⟩
    unfold floatTernary
    rw [bind_ok (latch_run hp.thread), bind_ok (plain_read hp _ ha), bind_ok (plain_read hp _ hb), bind_ok (plain_read hp _ hd),
      bind_ok (mode_run hp.thread)]
    subst hr
    exact (bind_ok h3).trans ((bind_ok h4).trans ht)
  · intro d a k s x r hp hd ha hr
    obtain ⟨s3, s4, t, h3, h4, ht, frame⟩ := plain_writes hp (wordOf (.fcvt d a k)) hd r.2 r.1
    refine ⟨t, ?_, frame⟩
    rw [exec_fcvt]
    refine runUnit_ok hp.issues ?_
    rw [bind_ok (plain_read hp _ ha), bind_ok (mode_run hp.thread)]
    subst hr
    exact (bind_ok h3).trans ((bind_ok h4).trans ht)

end Sys2Proof.Proofs
end

