-- ==== Sys2Proof/Proofs/BureauRegisters.lean ====
section
/-! A bureau's writes of its registers, by their names and at their addresses (03 R81; 08 R194; 14 R344 to R346; 15 R362, R369, R371,
R373, R378). -/

namespace Sys2Proof.Proofs

open Sys2Proof.Machine Sys2Proof.Statements

/-! Writes of registers by their names. -/

theorem registerWrite_ok {r : RegName} {v : Word} {s t : State} (hr : r.valid = true) (h : writeRegister r v s = .ok ((), t)) :
    exec (.registerWrite r v) s = .next t := by
  rw [exec_registerWrite]
  exact unit_ok hr h

/-- A write that does what an event of the package's units does. -/
theorem registerWrite_eq_unit {r : RegName} {i : Instr} {v : Word} {body : M Unit} {s : State} (hr : r.valid = true)
    (hi : wellFormed i = true) (h : writeRegister r v s = body s) : exec (.registerWrite r v) s = unit i body s := by
  rw [exec_registerWrite, execRegisterWrite, unit, unit, if_pos hi, if_pos (show wellFormed (.registerWrite r v) = true from hr), runEvent,
    runEvent, h]

theorem clusterRegisters_written (k : Nat) (v : Word) (s : State) (hk : k < 512) :
    exec (.registerWrite (.shootA k) v) s = .next (s.setCluster k { s.cluster k with shootA := v }) ∧
    exec (.registerWrite (.chkRetry k) v) s = .next (s.setCluster k { s.cluster k with trestle := { (s.cluster k).trestle with
      retries := v.toNat } }) ∧
    exec (.registerWrite (.trestleSpill k) v) s = .next (s.setCluster k { s.cluster k with trestle := { (s.cluster k).trestle with
      spill := word (bits v 51 0) } }) ∧
    exec (.registerWrite (.copySpill k) v) s = .next (s.setCluster k { s.cluster k with copy := { (s.cluster k).copy with
      spill := word (bits v 51 0) } }) := by
  have valid : decide (k < 512) = true := decide_eq_true hk
  exact ⟨registerWrite_ok valid rfl, registerWrite_ok valid rfl, registerWrite_ok valid rfl, registerWrite_ok valid rfl⟩

theorem coreCounters_written (c : Nat) (v : Word) (s : State) (hc : c < 4096) :
    exec (.registerWrite (.coreCounter c 0xF0840) v) s = .next (s.setCore c { s.core c with refetch := v.toNat }) ∧
    exec (.registerWrite (.coreCounter c 0xF0848) v) s = .next (s.setCore c { s.core c with corrected := v.toNat }) ∧
    exec (.registerWrite (.coreCounter c 0xF0850) v) s = .next (s.setCore c { s.core c with poisoned := v.toNat }) ∧
    exec (.registerWrite (.coreCounter c 0xF0858) v) s = .next (s.setCore c { s.core c with regPoison := v.toNat }) := by
  have valid : decide (c < 4096) = true := decide_eq_true hc
  exact ⟨registerWrite_ok valid rfl, registerWrite_ok valid rfl, registerWrite_ok valid rfl, registerWrite_ok valid rfl⟩

theorem sliceCounters_written (n : Nat) (v : Word) (s : State) (hn : n < 768) :
    exec (.registerWrite (.sliceReg n 0x800) v) s = .next (s.setSlice n { s.slice n with bypass := v.toNat }) ∧
    exec (.registerWrite (.sliceReg n 0x808) v) s = .next (s.setSlice n { s.slice n with sharedEntry := v.toNat }) ∧
    exec (.registerWrite (.sliceReg n 0x838) v) s = .next (s.setSlice n { s.slice n with cancelled := v.toNat }) ∧
    exec (.registerWrite (.sliceReg n 0x840) v) s = .next (s.setSlice n { s.slice n with refetch := v.toNat }) ∧
    exec (.registerWrite (.sliceReg n 0x848) v) s = .next (s.setSlice n { s.slice n with corrected := v.toNat }) ∧
    exec (.registerWrite (.sliceReg n 0x850) v) s = .next (s.setSlice n { s.slice n with poisoned := v.toNat }) := by
  have valid : decide (n < 768) = true := decide_eq_true hn
  exact ⟨registerWrite_ok valid rfl, registerWrite_ok valid rfl, registerWrite_ok valid rfl, registerWrite_ok valid rfl,
    registerWrite_ok valid rfl, registerWrite_ok valid rfl⟩

theorem portCounters_written (p : Nat) (v : Word) (s : State) (hp : p < 64) :
    exec (.registerWrite (.portReg p 0x810) v) s = .next (s.setPort p { s.port p with single := v.toNat }) ∧
    exec (.registerWrite (.portReg p 0x818) v) s = .next (s.setPort p { s.port p with burst := v.toNat }) ∧
    exec (.registerWrite (.portReg p 0x820) v) s = .next (s.setPort p { s.port p with merged := v.toNat }) ∧
    exec (.registerWrite (.portReg p 0x828) v) s = .next (s.setPort p { s.port p with dropped := v.toNat }) ∧
    exec (.registerWrite (.portReg p 0x830) v) s = .next (s.setPort p { s.port p with wb := v.toNat }) := by
  have valid : decide (p < 64) = true := decide_eq_true hp
  exact ⟨registerWrite_ok valid rfl, registerWrite_ok valid rfl, registerWrite_ok valid rfl, registerWrite_ok valid rfl,
    registerWrite_ok valid rfl⟩

/-! The format regions of a controller (03 R81): a register's word is known by its fields. -/

theorem bits_lt (w : Word) (hi lo : Nat) : bits w hi lo < 2 ^ (hi + 1 - lo) := Nat.mod_lt _ (Nat.two_pow_pos _)

/-- Words that agree in a field agree in its bits. -/
theorem getLsbD_of_bits {a b : Word} {hi lo i : Nat} (h : bits a hi lo = bits b hi lo) (hl : lo ≤ i) (hh : i ≤ hi) :
    a.getLsbD i = b.getLsbD i := by
  have hbit := congrArg (Nat.testBit · (i - lo)) h
  simpa [testBit_bits, show i - lo < hi + 1 - lo by omega, Nat.add_sub_cancel' hl] using hbit

theorem bits_zero (hi lo : Nat) : bits 0 hi lo = 0 := by simp [bits]

/-- fr_enc holds the base and the enable bit of a region. -/
theorem eq_regionField_enc {p : Nat} {v w : Word} (hbase : bits w 51 8 = bits v 51 8) (hen : bits w 0 0 = bits v 0 0)
    (hhigh : bits w 63 52 = 0) (hmid : bits w 7 1 = 0) : regionField p 0 v = w := by
  have field : regionField p 0 v = setBits (setBits 0 51 8 (bits v 51 8)) 0 0 (bits v 0 0) := rfl
  have fbase : bits (regionField p 0 v) 51 8 = bits w 51 8 := by
    rw [field, bits_setBits_other _ _ (by omega) (by omega), bits_setBits_same _ _ (by omega), Nat.mod_eq_of_lt (bits_lt _ _ _), hbase]
  have fen : bits (regionField p 0 v) 0 0 = bits w 0 0 := by
    rw [field, bits_setBits_same _ _ (by omega), Nat.mod_eq_of_lt (bits_lt _ _ _), hen]
  have fhigh : bits (regionField p 0 v) 63 52 = bits w 63 52 := by
    rw [field, bits_setBits_other _ _ (by omega) (by omega), bits_setBits_other _ _ (by omega) (by omega), bits_zero, hhigh]
  have fmid : bits (regionField p 0 v) 7 1 = bits w 7 1 := by
    rw [field, bits_setBits_other _ _ (by omega) (by omega), bits_setBits_other _ _ (by omega) (by omega), bits_zero, hmid]
  refine BitVec.eq_of_getLsbD_eq fun i hi => ?_
  obtain h | h | h | h : i = 0 ∨ (1 ≤ i ∧ i ≤ 7) ∨ (8 ≤ i ∧ i ≤ 51) ∨ (52 ≤ i ∧ i ≤ 63) := by omega
  · exact getLsbD_of_bits fen (by omega) (by omega)
  · exact getLsbD_of_bits fmid h.1 h.2
  · exact getLsbD_of_bits fbase h.1 h.2
  · exact getLsbD_of_bits fhigh h.1 h.2

/-- fr_fmt holds the format with the block length, and the scale region's base. -/
theorem eq_regionField_fmt {p : Nat} {v w : Word} (hhigh : bits w 63 57 = bits v 63 57) (hmid : bits w 56 52 = 0)
    (hlow : bits w 51 0 = bits v 51 0) : regionField p 3 v = w := by
  have field : regionField p 3 v = setBits (setBits 0 63 57 (bits v 63 57)) 51 0 (bits v 51 0) := rfl
  have fhigh : bits (regionField p 3 v) 63 57 = bits w 63 57 := by
    rw [field, bits_setBits_other _ _ (by omega) (by omega), bits_setBits_same _ _ (by omega), Nat.mod_eq_of_lt (bits_lt _ _ _), hhigh]
  have fmid : bits (regionField p 3 v) 56 52 = bits w 56 52 := by
    rw [field, bits_setBits_other _ _ (by omega) (by omega), bits_setBits_other _ _ (by omega) (by omega), bits_zero, hmid]
  have flow : bits (regionField p 3 v) 51 0 = bits w 51 0 := by
    rw [field, bits_setBits_same _ _ (by omega), Nat.mod_eq_of_lt (bits_lt _ _ _), hlow]
  refine BitVec.eq_of_getLsbD_eq fun i hi => ?_
  obtain h | h | h : i ≤ 51 ∨ (52 ≤ i ∧ i ≤ 56) ∨ (57 ≤ i ∧ i ≤ 63) := by omega
  · exact getLsbD_of_bits flow (by omega) h
  · exact getLsbD_of_bits fmid h.1 h.2
  · exact getLsbD_of_bits fhigh h.1 h.2

/-- fr_view, the base of the decoded view, is clamped into the controller's own addresses (00 R16; 14 R350). -/
theorem eq_regionField_view {p : Nat} {v w : Word} (hlow : bits v 51 8 < p * 2 ^ 38 → w = word (256 * (p * 2 ^ 38)))
    (hmid : p * 2 ^ 38 ≤ bits v 51 8 → bits v 51 8 < (p + 1) * 2 ^ 38 → w = word (256 * bits v 51 8))
    (hhigh : (p + 1) * 2 ^ 38 ≤ bits v 51 8 → w = word (256 * ((p + 1) * 2 ^ 38 - 1))) : regionField p 2 v = w := by
  have field : regionField p 2 v = word (256 * min (max (bits v 51 8) (p * 2 ^ 38)) (p * 2 ^ 38 + 2 ^ 38 - 1)) := rfl
  rw [field]
  obtain below | inside | above : bits v 51 8 < p * 2 ^ 38 ∨ (p * 2 ^ 38 ≤ bits v 51 8 ∧ bits v 51 8 < (p + 1) * 2 ^ 38) ∨
      (p + 1) * 2 ^ 38 ≤ bits v 51 8 := by omega
  · rw [hlow below]
    congr 2
    omega
  · rw [hmid inside.1 inside.2]
    congr 2
    omega
  · rw [hhigh above]
    congr 2
    omega

theorem regionWord_written {p k j : Nat} {v w : Word} {s : State} (hp : p < 64) (hk : k < 16) (hj : j < 4) (hw : regionField p j v = w) :
    exec (.registerWrite (.portReg p (0x100 + 32 * k + 8 * j)) v) s = .next (s.setPort p { s.port p with
      regions := put (s.port p).regions k (setAt (findD (s.port p).regions [0, 0, 0, 0] k) j w) }) := by
  refine registerWrite_ok (decide_eq_true hp) ?_
  have region : (0x100 + 32 * k + 8 * j - 0x100) / 32 = k := by omega
  have place : (0x100 + 32 * k + 8 * j - 0x100) % 32 / 8 = j := by omega
  change writePort p (0x100 + 32 * k + 8 * j) v s = _
  rw [writePort, if_pos (by omega), region, place, hw]
  rfl

theorem regionRegisters_written (p : Nat) (v : Word) (s : State) (hp : p < 64) (k j : Nat) (w : Word) (hk : k < 16) (hj : j < 4)
    (h0 : j = 0 → bits w 51 8 = bits v 51 8 ∧ bits w 0 0 = bits v 0 0 ∧ bits w 63 52 = 0 ∧ bits w 7 1 = 0)
    (h1 : j = 1 → w = word (bits v 31 0))
    (h2 : j = 2 → (bits v 51 8 < p * 2 ^ 38 → w = word (256 * (p * 2 ^ 38))) ∧
      (p * 2 ^ 38 ≤ bits v 51 8 → bits v 51 8 < (p + 1) * 2 ^ 38 → w = word (256 * bits v 51 8)) ∧
      ((p + 1) * 2 ^ 38 ≤ bits v 51 8 → w = word (256 * ((p + 1) * 2 ^ 38 - 1))))
    (h3 : j = 3 → bits w 63 57 = bits v 63 57 ∧ bits w 56 52 = 0 ∧ bits w 51 0 = bits v 51 0) :
    exec (.registerWrite (.portReg p (0x100 + 32 * k + 8 * j)) v) s = .next (s.setPort p { s.port p with
      regions := put (s.port p).regions k (setAt (findD (s.port p).regions [0, 0, 0, 0] k) j w) }) := by
  refine regionWord_written hp hk hj ?_
  obtain rfl | rfl | rfl | rfl : j = 0 ∨ j = 1 ∨ j = 2 ∨ j = 3 := by omega
  · obtain ⟨hbase, hen, hhigh, hmid⟩ := h0 rfl
    exact eq_regionField_enc hbase hen hhigh hmid
  · exact (h1 rfl).symm
  · obtain ⟨hlow, hmid, hhigh⟩ := h2 rfl
    exact eq_regionField_view hlow hmid hhigh
  · obtain ⟨hhigh, hmid, hlow⟩ := h3 rfl
    exact eq_regionField_fmt hhigh hmid hlow

/-- A write of tkeep or trecw replaces its one word (15 R369, R371). -/
theorem keptWords_written (tid : Nat) (v : Word) (s : State) (ht : tid < 262144) (n : Nat) (hn : n < 4) :
    exec (.registerWrite (.slotReg tid (4 + n)) v) s = .next (s.setSlot tid { s.slot tid with
      tkeep := setAt (s.slot tid).tkeep n v }) ∧
    exec (.registerWrite (.slotReg tid (8 + n)) v) s = .next (s.setSlot tid { s.slot tid with
      trecw := setAt (s.slot tid).trecw n v }) := by
  have valid : decide (tid < 262144) = true := decide_eq_true ht
  obtain rfl | rfl | rfl | rfl : n = 0 ∨ n = 1 ∨ n = 2 ∨ n = 3 := by omega
  all_goals exact ⟨registerWrite_ok valid rfl, registerWrite_ok valid rfl⟩

theorem slotRegisters_written (tid : Nat) (v : Word) (s : State) (ht : tid < 262144) :
    exec (.registerWrite (.slotReg tid 0) v) s = .next (s.setSlot tid { s.slot tid with tstat := writeStat (s.slot tid).tstat v }) ∧
    exec (.registerWrite (.slotReg tid 1) v) s = .next (s.setSlot tid { s.slot tid with tcause := word (bits v 7 0) }) ∧
    exec (.registerWrite (.slotReg tid 2) v) s = .next (s.setSlot tid { s.slot tid with tvalue := v }) ∧
    exec (.registerWrite (.slotReg tid 3) v) s = .next (s.setSlot tid { s.slot tid with tpc := word (bits v 54 2 * 4) }) ∧
    (∀ n, n < 4 → exec (.registerWrite (.slotReg tid (4 + n)) v) s = .next (s.setSlot tid { s.slot tid with
      tkeep := setAt (s.slot tid).tkeep n v }) ∧
      exec (.registerWrite (.slotReg tid (8 + n)) v) s = .next (s.setSlot tid { s.slot tid with
        trecw := setAt (s.slot tid).trecw n v })) ∧
    exec (.registerWrite (.slotReg tid 0xD) v) s = .next (s.setSlot tid { s.slot tid with tsave := word (bits v 51 6 * 64) }) ∧
    exec (.registerWrite (.slotReg tid 0xE) v) s = exec (.slotRst tid v) s := by
  have valid : decide (tid < 262144) = true := decide_eq_true ht
  exact ⟨registerWrite_ok valid rfl, registerWrite_ok valid rfl, registerWrite_ok valid rfl, registerWrite_ok valid rfl,
    keptWords_written tid v s ht, registerWrite_ok valid rfl, registerWrite_eq_unit valid valid rfl⟩

/-- A write of a core-scope register that no slot's owner depends on (14 R345). -/
theorem coreRegister_written {c n : Nat} {v : Word} {s t : State} (hc : c < 4096) (h : writeCoreReg c n v s = .ok ([], t)) :
    exec (.registerWrite (.coreReg c n) v) s = .next t :=
  registerWrite_ok (decide_eq_true hc) (bind_ok h)

theorem coreRegisters_written (c : Nat) (v : Word) (s : State) (e : CtxEntry → State) (hc : c < 4096)
    (he : ∀ y, e y = s.setCore c { s.core c with table := put (s.core c).table (s.core c).cxSel y }) :
    exec (.registerWrite (.coreReg c 0x100) v) s = .next (s.setCore c { s.core c with cxSel := bits v 5 0 }) ∧
    exec (.registerWrite (.coreReg c 0x102) v) s = .next (e { (s.core c).selected with
      sched := setBits (setBits 0 63 32 (bits v 63 32)) 24 0 (min (max (bits v 24 0) 4096) 16777216) }) ∧
    exec (.registerWrite (.coreReg c 0x103) v) s = .next (e { (s.core c).selected with time := word (bits v 15 0) }) ∧
    exec (.registerWrite (.coreReg c 0x104) v) s = .next (e { (s.core c).selected with root := setBits 0 51 16 (bits v 51 16) }) ∧
    exec (.registerWrite (.coreReg c 0x105) v) s = .next (e { (s.core c).selected with trap := setBits 0 54 2 (bits v 54 2) }) ∧
    exec (.registerWrite (.coreReg c 0x106) v) s = .next (e { (s.core c).selected with jobs := setBits 0 51 16 (bits v 51 16) }) ∧
    exec (.registerWrite (.coreReg c 0x110) v) s = .next (s.setCore c { s.core c with slotSel := bits v 5 0 }) ∧
    exec (.registerWrite (.coreReg c 0x120) v) s = .next (s.setCore c { s.core c with guest := min (bits v 4 0) 16 }) := by
  simp only [he]
  exact ⟨coreRegister_written hc rfl, coreRegister_written hc rfl, coreRegister_written hc rfl, coreRegister_written hc rfl,
    coreRegister_written hc rfl, coreRegister_written hc rfl, coreRegister_written hc rfl, coreRegister_written hc rfl⟩

/-- The registers by their names, unit by unit. -/
theorem registerWritesComplete_holds : registerWritesComplete := by
  refine ⟨fun r v s t hr h => registerWrite_ok hr h, clusterRegisters_written, coreCounters_written, sliceCounters_written, ?_,
    slotRegisters_written, coreRegisters_written⟩
  intro p v s hp
  obtain ⟨h1, h2, h3, h4, h5⟩ := portCounters_written p v s hp
  exact ⟨h1, h2, h3, h4, h5, regionRegisters_written p v s hp⟩

/-! The places that a bureau's addresses name (14 R346). -/

/-- The register space lies from 2^55 on: the cores' windows, then for the steward's bureau alone the controllers and the slices, then the
units of the cluster. -/
theorem bureauPlace_registerSpace {k a o : Nat} (ha : a = 2 ^ 55 + o) (h8 : o % 8 = 0) :
    bureauPlace k a =
      if 0xE000000000 ≤ o ∧ o < 0xE000800000 then corePlace (8 * k + (o - 0xE000000000) / 0x100000) (o % 0x100000)
      else if k = 0 ∧ 0xF000000000 ≤ o ∧ o < 0xF000400000 then .reg (.portReg ((o - 0xF000000000) / 0x10000) (o % 0x10000))
      else if k = 0 ∧ 0xF100000000 ≤ o ∧ o < 0xF103000000 then .reg (.sliceReg ((o - 0xF100000000) / 0x10000) (o % 0x10000))
      else unitPlace k o := by
  have aligned : (a % 8 != 0) = false := by
    rw [bne_eq_false_iff_eq]
    omega
  have offset : a - 2 ^ 55 = o := by omega
  rw [bureauPlace, aligned, if_neg Bool.false_ne_true, if_neg (by omega), if_neg (by omega), offset]

theorem bureauPlace_core {k a c o : Nat} (ha : a = 2 ^ 55 + 0xE000000000 + 0x100000 * c + o) (hc : c < 8) (ho : o < 0x100000)
    (h8 : o % 8 = 0) : bureauPlace k a = corePlace (8 * k + c) o := by
  have core : (0xE000000000 + 0x100000 * c + o - 0xE000000000) / 0x100000 = c := by omega
  have offset : (0xE000000000 + 0x100000 * c + o) % 0x100000 = o := by omega
  rw [bureauPlace_registerSpace (o := 0xE000000000 + 0x100000 * c + o) (by omega) (by omega), if_pos (by omega), core, offset]

theorem bureauPlace_unit {k a o : Nat} (ha : a = 2 ^ 55 + o) (h8 : o % 8 = 0) (hlow : 0xE000800000 ≤ o) (hhigh : o < 0xF000000000) :
    bureauPlace k a = unitPlace k o := by
  rw [bureauPlace_registerSpace ha h8, if_neg (by omega), if_neg (by omega), if_neg (by omega)]

theorem unitPlace_high {k o : Nat} (h : 0xE000A00800 ≤ o) : unitPlace k o = .nothing := by
  unfold unitPlace
  iterate 10 rw [if_neg (by omega)]

theorem bureauPlace_port {k a p o : Nat} (ha : a = 2 ^ 55 + 0xF000000000 + 0x10000 * p + o) (hp : p < 64) (ho : o < 0x10000)
    (h8 : o % 8 = 0) : bureauPlace k a = if k = 0 then .reg (.portReg p o) else .nothing := by
  have port : (0xF000000000 + 0x10000 * p + o - 0xF000000000) / 0x10000 = p := by omega
  have offset : (0xF000000000 + 0x10000 * p + o) % 0x10000 = o := by omega
  rw [bureauPlace_registerSpace (o := 0xF000000000 + 0x10000 * p + o) (by omega) (by omega), if_neg (by omega)]
  by_cases hk : k = 0
  · rw [if_pos (by omega), if_pos hk, port, offset]
  · rw [if_neg (by omega), if_neg (by omega), if_neg hk, unitPlace_high (by omega)]

theorem bureauPlace_slice {k a n o : Nat} (ha : a = 2 ^ 55 + 0xF100000000 + 0x10000 * n + o) (hn : n < 768) (ho : o < 0x10000)
    (h8 : o % 8 = 0) : bureauPlace k a = if k = 0 then .reg (.sliceReg n o) else .nothing := by
  have slice : (0xF100000000 + 0x10000 * n + o - 0xF100000000) / 0x10000 = n := by omega
  have offset : (0xF100000000 + 0x10000 * n + o) % 0x10000 = o := by omega
  rw [bureauPlace_registerSpace (o := 0xF100000000 + 0x10000 * n + o) (by omega) (by omega), if_neg (by omega), if_neg (by omega)]
  by_cases hk : k = 0
  · rw [if_pos (by omega), if_pos hk, slice, offset]
  · rw [if_neg (by omega), if_neg hk, unitPlace_high (by omega)]

theorem corePlace_coreReg {core n : Nat} (hn : n < 0x10000) : corePlace core (8 * n) = .reg (.coreReg core n) := by
  have number : 8 * n / 8 = n := by omega
  rw [corePlace, if_pos (by omega), number]

theorem corePlace_slotReg {core slot n : Nat} (hs : slot < 64) (hn : n < 512) :
    corePlace core (0x80000 + 0x1000 * slot + 8 * n) = .reg (.slotReg (64 * core + slot) n) := by
  have place : (0x80000 + 0x1000 * slot + 8 * n - 0x80000) / 0x1000 = slot := by omega
  have number : (0x80000 + 0x1000 * slot + 8 * n) % 0x1000 / 8 = n := by omega
  rw [corePlace, if_neg (by omega), if_pos (by omega), place, number]

theorem corePlace_counter {core o : Nat} (ho : 0xC0000 ≤ o) : corePlace core o = .reg (.coreCounter core o) := by
  rw [corePlace, if_neg (by omega), if_neg (by omega)]

/-- Word 5 of a mailbox entry (15 R373). -/
theorem unitPlace_mail {k n : Nat} (hn : n < 32) : unitPlace k (0xE000A00000 + 0x40 * n + 40) = .mail n 5 := by
  have entryNumber : (0xE000A00000 + 0x40 * n + 40 - 0xE000A00000) / 0x40 = n := by omega
  have wordNumber : (0xE000A00000 + 0x40 * n + 40) % 0x40 / 8 = 5 := by omega
  unfold unitPlace
  iterate 9 rw [if_neg (by omega)]
  rw [if_pos (by omega), entryNumber, wordNumber]

theorem bureauPlace_memory {k a : Nat} (h8 : a % 8 = 0) (ha : a < 2 ^ 52) : bureauPlace k a = .memory a := by
  rw [bureauPlace, h8, if_neg (by decide), if_pos ha]

/-! What a write at each place does. -/

section
variable {k a : Nat} {v : Word} {s : State}

/-- A write at an address that does what an event of the package's units does is that event. -/
theorem exec_bureau_event {i : Instr} {body : M Unit} (hk : k < 512) (hi : wellFormed i = true) (he : exec i s = unit i body s)
    (h : writeBureau k a v s = body s) : exec (.registerWrite (.bureau k a) v) s = exec i s := by
  rw [he]
  exact registerWrite_eq_unit (decide_eq_true hk) hi h

/-- A write at a register's address is the write of the register by its name. -/
theorem exec_bureau_reg {r : RegName} (hk : k < 512) (hp : bureauPlace k a = .reg r) (hr : r.valid = true)
    (hn : writeRegister r v = writeNamed r v) : exec (.registerWrite (.bureau k a) v) s = exec (.registerWrite r v) s := by
  refine exec_bureau_event hk hr (exec_registerWrite r v s) ?_
  rw [hn, writeBureau, hp]

theorem exec_bureau_mail {c e : Nat} (hk : k < 512) (hc : c < 8) (he : e < 4) (hp : bureauPlace k a = .mail (4 * c + e) 5) :
    exec (.registerWrite (.bureau k a) v) s = exec (.mailboxReply k c e v) s := by
  refine exec_bureau_event hk (by simp [wellFormed, hk, hc, he]) (exec_mailboxReply k c e v s) ?_
  rw [writeBureau, hp]
  rfl

theorem exec_bureau_nothing (hk : k < 512) (hp : bureauPlace k a = .nothing) : exec (.registerWrite (.bureau k a) v) s = .next s := by
  refine registerWrite_ok (decide_eq_true hk) ?_
  rw [writeRegister, writeBureau, hp]
  rfl

theorem exec_bureau_memory {t : State} (hk : k < 512) (hp : bureauPlace k a = .memory a) (h : physWrite a v s = .ok ((), t)) :
    exec (.registerWrite (.bureau k a) v) s = .next t := by
  refine registerWrite_ok (decide_eq_true hk) ?_
  rw [writeRegister, writeBureau, hp]
  exact h

/-- The registers that the steward's bureau alone has (14 R346). -/
theorem exec_bureau_steward {r : RegName} (hk : k < 512) (hp : bureauPlace k a = if k = 0 then .reg r else .nothing)
    (hr : r.valid = true) (hn : writeRegister r v = writeNamed r v) :
    exec (.registerWrite (.bureau k a) v) s = if k = 0 then exec (.registerWrite r v) s else .next s := by
  by_cases h0 : k = 0
  · rw [if_pos h0] at hp ⊢
    exact exec_bureau_reg hk hp hr hn
  · rw [if_neg h0] at hp ⊢
    exact exec_bureau_nothing hk hp

end

/-- The registers by their addresses, in the order of R346's table. -/
theorem bureauAddresses_holds : bureauAddresses := by
  intro k v s hk
  have core : ∀ {c}, c < 8 → 8 * k + c < 4096 := by omega
  have unitThere : decide (k < 512) = true := decide_eq_true hk
  have shootA : bureauPlace k (2 ^ 55 + 0xE000800000) = .reg (.shootA k) := bureauPlace_unit rfl (by omega) (by omega) (by omega)
  have shootD : bureauPlace k (2 ^ 55 + 0xE000800008) = .shootD := bureauPlace_unit rfl (by omega) (by omega) (by omega)
  have trestlePre : bureauPlace k (2 ^ 55 + 0xE000900000) = .pre false := bureauPlace_unit rfl (by omega) (by omega) (by omega)
  have trestleRes : bureauPlace k (2 ^ 55 + 0xE000900008) = .res false := bureauPlace_unit rfl (by omega) (by omega) (by omega)
  have copyPre : bureauPlace k (2 ^ 55 + 0xE000900100) = .pre true := bureauPlace_unit rfl (by omega) (by omega) (by omega)
  have copyRes : bureauPlace k (2 ^ 55 + 0xE000900108) = .res true := bureauPlace_unit rfl (by omega) (by omega) (by omega)
  have chkRetry : bureauPlace k (2 ^ 55 + 0xE000900200) = .reg (.chkRetry k) := bureauPlace_unit rfl (by omega) (by omega) (by omega)
  refine ⟨fun c n hc hn => ?_, fun c slot n hc hs hn => ?_, fun c n hc hlow hhigh => ?_, exec_bureau_reg hk shootA unitThere rfl,
    exec_bureau_event hk unitThere (exec_sysShootD k v s) (by rw [writeBureau, shootD]),
    exec_bureau_event hk unitThere (exec_trestlePre k v s) (by rw [writeBureau, trestlePre]; rfl),
    exec_bureau_event hk unitThere (exec_trestleRes k v s) (by rw [writeBureau, trestleRes]; rfl),
    exec_bureau_event hk unitThere (exec_copyPre k v s) (by rw [writeBureau, copyPre]; rfl),
    exec_bureau_event hk unitThere (exec_copyRes k v s) (by rw [writeBureau, copyRes]; rfl),
    exec_bureau_reg hk chkRetry unitThere rfl, fun c e hc he => ?_, fun p o hp ho h8 => ?_, fun n o hn ho h8 => ?_, fun a t h8 ha h => ?_⟩
  · exact exec_bureau_reg hk ((bureauPlace_core rfl hc (by omega) (by omega)).trans (corePlace_coreReg hn)) (decide_eq_true (core hc)) rfl
  · exact exec_bureau_reg hk ((bureauPlace_core (by omega) hc (by omega) (by omega)).trans (corePlace_slotReg hs hn))
      (decide_eq_true (by omega)) rfl
  · exact exec_bureau_reg hk ((bureauPlace_core (by omega) hc (by omega) (by omega)).trans (corePlace_counter (by omega)))
      (decide_eq_true (core hc)) rfl
  · exact exec_bureau_mail hk hc he ((bureauPlace_unit (by omega) (by omega) (by omega) (by omega)).trans (unitPlace_mail (by omega)))
  · exact exec_bureau_steward hk (bureauPlace_port rfl hp ho h8) (decide_eq_true hp) rfl
  · exact exec_bureau_steward hk (bureauPlace_slice rfl hn ho h8) (decide_eq_true hn) rfl
  · exact exec_bureau_memory hk (bureauPlace_memory h8 ha) h

end Sys2Proof.Proofs
end

