-- ==== Sys2Proof/Proofs/Bureaus.lean ====
section
/-! The bureaus' events: a slot's owner and a context's identity, the mailbox, the shootdown, and the pre-emption and resumption of engine
jobs (14 R344 to R346; 15 R365, R373, R378). -/

namespace Sys2Proof.Proofs

open Sys2Proof.Machine Sys2Proof.Statements

theorem modCluster_run (k : Nat) (f : Cluster → Cluster) (s : State) :
    modCluster k f s = .ok ((), s.setCluster k (f (s.cluster k))) := rfl

/-- An engine after a change of it. -/
theorem modEngine_gives (k : Nat) (copy : Bool) (f : Engine → Engine) (s : State) :
    ∃ t, Gives (modEngine k copy f) s () t ∧ t.engine k copy = f (s.engine k copy) := by
  refine ⟨_, rfl, ?_⟩
  rw [State.engine, State.cluster_setCluster]
  cases copy <;> rfl

theorem slotOwn_completes (tid : Nat) (v : Word) (s t : State) (l : List Nat) (ht : tid < 262144)
    (h : Gives (writeCoreReg (coreOf tid) 0x111 v) (s.setCore (coreOf tid) { s.core (coreOf tid) with slotSel := slotOf tid }) l t) :
    exec (.slotOwn tid v) s = .next t := by
  rw [exec_slotOwn]
  refine unit_ok (decide_eq_true ht) ?_
  rw [bind_ok (modCore_run _ _ _), bind_ok h]
  rfl

theorem cxId_completes (core e : Nat) (v : Word) (s t : State) (l : List Nat) (hc : core < 4096) (he : e < 64)
    (h : Gives (writeCoreReg core 0x101 v) (s.setCore core { s.core core with cxSel := e }) l t) :
    exec (.cxId core e v) s = .next t := by
  rw [exec_cxId]
  refine unit_ok (by simp [wellFormed, hc, he]) ?_
  rw [bind_ok (modCore_run _ _ _), bind_ok h]
  rfl

/-- A handler's record is posted and the handler waits for its reply (15 R373). -/
theorem tmbox_posts (tid : Nat) (s t : State) (x : Thread) (ht : tid < 262144) (hx : s.thread tid = some x)
    (hp : x.park = some (.mailbox false))
    (h : Gives (post (coreOf tid) { words := [recordWord 0 0 (bits ((s.slot tid).trecw.getD 0 0) 7 0) x.ctx x.home 0,
        (s.slot tid).trecw.getD 1 0, (s.slot tid).trecw.getD 2 0, (s.slot tid).trecw.getD 3 0], tid := some tid, uid := x.uid })
      (s.setSlot tid { s.slot tid with thread := some { x with park := some (.mailbox true) } }) () t) :
    exec (.tmbox tid) s = .next t := by
  rw [exec_tmbox]
  refine unit_ok (decide_eq_true ht) ?_
  rw [bind_getS, bind_ok (needSome_ok hx), bind_ok (need_ok (decide_eq_true hp)), bind_ok (modThread_run _ hx)]
  exact h

/-! The reply to a record frees its entry for the posts that wait, and then answers the thread that the record is of (15 R373). -/

section
variable {k c e tid : Nat} {v : Word} {s s1 : State} {m : Mail} {x : Thread} (he : e < 4)
  (hm : find (s.cluster k).mailbox (4 * c + e) = some m) (hw : m.words ≠ []) (ht : m.tid = some tid) (hx : s.thread tid = some x)
  (hu : x.uid = m.uid)
  (hp : Gives (promote (8 * k + c)) (s.setCluster k { s.cluster k with mailbox := del (s.cluster k).mailbox (4 * c + e) }) () s1)
include he hm hw ht hx hu hp

/-- A handler goes on with the word. -/
theorem mailboxReply_handler (hpark : x.park = some (.mailbox true)) (h1 : s1.thread tid = some x) :
    mailboxReply k (4 * c + e) v s = .ok ((), s1.setSlot tid { s1.slot tid with thread := some { x with
      park := none
      resume := { x.resume with reply := some { value := v } } } }) := by
  have core : 8 * k + (4 * c + e) / 4 = 8 * k + c := by omega
  have same : (x.uid != m.uid) = false := bne_eq_false_iff_eq.2 hu
  unfold mailboxReply
  rw [bind_getS, bind_ok (needSome_ok hm), bind_ok (need_ok (by simp [hw])), bind_ok (modCluster_run _ _ _), core, bind_ok hp]
  simp only [ht, hx, same, hpark, Bool.false_eq_true, if_false]
  exact modThread_run _ h1

/-- The slot of a killed thread becomes FREE, with that of the other thread of its pair where that one has the same record
(15 R365, R381). -/
theorem mailboxReply_killed {words : List Word} {posted : Bool} (hpark : x.park = some (.killed words posted)) :
    mailboxReply k (4 * c + e) v s = (do
      freeSlot tid
      if (s.thread (partnerOf tid)).bind (·.park) = some (Wait.killed words false) then freeSlot (partnerOf tid) else pure ()) s1 := by
  have core : 8 * k + (4 * c + e) / 4 = 8 * k + c := by omega
  have same : (x.uid != m.uid) = false := bne_eq_false_iff_eq.2 hu
  unfold mailboxReply
  rw [bind_getS, bind_ok (needSome_ok hm), bind_ok (need_ok (by simp [hw])), bind_ok (modCluster_run _ _ _), core, bind_ok hp]
  simp only [ht, hx, same, hpark, Bool.false_eq_true, if_false]
  cases s.thread (partnerOf tid) <;> rfl

end

theorem mailboxReply_event {k c e : Nat} {v : Word} {s t : State} (hk : k < 512) (hc : c < 8) (he : e < 4)
    (h : mailboxReply k (4 * c + e) v s = .ok ((), t)) : exec (.mailboxReply k c e v) s = .next t := by
  rw [exec_mailboxReply]
  exact unit_ok (by simp [wellFormed, hk, hc, he]) h

theorem sysShootD_completes (k n : Nat) (v : Word) (s t : State) (hk : k < 512) :
    (bits v 51 50 ≠ 3 → s.quietUnder v = true → Gives (shootDown (s.cluster k).shootA v) s n t → exec (.sysShootD k v) s = .next t) ∧
    (bits v 51 50 = 3 → exec (.sysShootD k v) s = .next s) := by
  rw [exec_sysShootD]
  refine ⟨fun scope quiet h => unit_ok (decide_eq_true hk) ?_, fun scope => unit_ok (decide_eq_true hk) ?_⟩
  · rw [shootWrite, bind_getS, if_neg scope, bind_ok (need_ok quiet), bind_ok h]
    rfl
  · rw [shootWrite, bind_getS, if_pos scope]
    rfl

/-! Pre-emption of the job that runs, and resumption of a saved one (15 R378). -/

/-- A request is held with the save area's address for the job that runs. -/
theorem writePre_requests {k : Nat} {copy : Bool} {v : Word} {s : State} {j : Job} (hb : bit v 0 = true) (hp : (s.engine k copy).pre = none) :
    ∃ t, Gives (writePre k copy v (some j)) s () t ∧
      t.engine k copy = { s.engine k copy with pre := some { addr := bits v 51 7 * 128, jid := j.jid } } := by
  obtain ⟨t, ht, he⟩ := modEngine_gives k copy (fun e => if e.pre.isSome || !bit v 0 then e
    else { e with pre := some { addr := bits v 51 7 * 128, jid := j.jid } }) s
  exact ⟨t, ht, by simpa [hp, hb] using he⟩

/-- A request while no job runs completes at once. -/
theorem writePre_idle {k : Nat} {copy : Bool} {v : Word} {s : State} (hb : bit v 0 = true) (hp : (s.engine k copy).pre = none) :
    ∃ t, Gives (writePre k copy v none) s () t ∧ t.engine k copy = { s.engine k copy with preJob := 0 } := by
  obtain ⟨t, ht, he⟩ := modEngine_gives k copy (fun e => if e.pre.isSome || !bit v 0 then e else { e with preJob := 0 }) s
  exact ⟨t, ht, by simpa [hp, hb] using he⟩

theorem trestlePre_event {k : Nat} {v : Word} {s t : State} (hk : k < 512)
    (h : Gives (writePre k false v (s.engine k false).running) s () t) : exec (.trestlePre k v) s = .next t := by
  rw [exec_trestlePre]
  exact unit_ok (decide_eq_true hk) h

theorem copyPre_event {k : Nat} {v : Word} {s t : State} (hk : k < 512) (h : Gives (writePre k true v (s.copyRunning k)) s () t) :
    exec (.copyPre k v) s = .next t := by
  rw [exec_copyPre]
  exact unit_ok (decide_eq_true hk) h

theorem preemptions_complete (k : Nat) (v : Word) (s : State) (j : Job) (hk : k < 512) (hb : bit v 0 = true) :
    ((s.engine k false).pre = none → (s.engine k false).running = some j → ∃ t, exec (.trestlePre k v) s = .next t ∧
      t.engine k false = { s.engine k false with pre := some { addr := bits v 51 7 * 128, jid := j.jid } }) ∧
    ((s.engine k true).pre = none → s.copyRunning k = some j → ∃ t, exec (.copyPre k v) s = .next t ∧
      t.engine k true = { s.engine k true with pre := some { addr := bits v 51 7 * 128, jid := j.jid } }) ∧
    ((s.engine k false).pre = none → (s.engine k false).running = none → ∃ t, exec (.trestlePre k v) s = .next t ∧
      t.engine k false = { s.engine k false with preJob := 0 }) := by
  refine ⟨fun hp hr => ?_, fun hp hr => ?_, fun hp hr => ?_⟩
  · obtain ⟨t, ht, he⟩ := writePre_requests (j := j) hb hp
    exact ⟨t, trestlePre_event hk (hr ▸ ht), he⟩
  · obtain ⟨t, ht, he⟩ := writePre_requests (j := j) hb hp
    exact ⟨t, copyPre_event hk (hr ▸ ht), he⟩
  · obtain ⟨t, ht, he⟩ := writePre_idle hb hp
    exact ⟨t, trestlePre_event hk (hr ▸ ht), he⟩

section
variable {k : Nat} {copy : Bool} {v : Word} {size : Job → Nat} {read : Job → List Word → M (Option Job)} {s : State}

/-- No job is saved at the address: outcome 1. -/
theorem resumeJob_absent (h : (s.engine k copy).jobs.find? (fun j => j.saved = some (bits v 51 7 * 128)) = none) :
    ∃ t, Gives (resumeJob k copy v size read) s () t ∧ t.engine k copy = { s.engine k copy with res := 1 } := by
  obtain ⟨t, ht, he⟩ := modEngine_gives k copy (fun e => { e with res := 1 }) s
  refine ⟨t, ?_, he⟩
  rw [Gives, resumeJob, bind_getS]
  simp only [h]
  exact ht

/-- The area is whole, names the job and breaks no rule: the job goes on from it, with outcome 0. -/
theorem resumeJob_resumes {s1 s2 t : State} {j j' : Job} {ws : List Word}
    (hj : (s.engine k copy).jobs.find? (fun j => j.saved = some (bits v 51 7 * 128)) = some j)
    (hread : Gives (physReads (bits v 51 7 * 128) (size j)) s (ws, none) s1) (hctx : bits (ws.getD 9 0) 27 16 = j.ctx)
    (hjid : bits (ws.getD 9 0) 15 0 = j.jid) (harea : Gives (read j ws) s1 (some j') s2)
    (hset : Gives (do
      modEngine k copy (fun e => { e with res := 0 })
      modJob k copy j.jid (fun _ => { j' with saved := none })) s2 () t) : resumeJob k copy v size read s = .ok ((), t) := by
  have named : (bits (ws.getD 9 0) 27 16 != j.ctx || bits (ws.getD 9 0) 15 0 != j.jid) = false := by
    rw [hctx, hjid, bne_self_eq_false, bne_self_eq_false, Bool.or_self]
  rw [resumeJob, bind_getS]
  simp only [hj]
  rw [bind_ok hread]
  simp only [named, Bool.false_eq_true, if_false]
  rw [bind_ok harea]
  exact hset

end

theorem trestleRes_event {k : Nat} {v : Word} {s t : State} (hk : k < 512)
    (h : Gives (resumeJob k false v (fun _ => 18448) (trestleFrom k)) s () t) : exec (.trestleRes k v) s = .next t := by
  rw [exec_trestleRes]
  exact unit_ok (decide_eq_true hk) h

theorem copyRes_event {k : Nat} {v : Word} {s t : State} (hk : k < 512)
    (h : Gives (resumeJob k true v Job.areaSize (copyFrom k)) s () t) : exec (.copyRes k v) s = .next t := by
  rw [exec_copyRes]
  exact unit_ok (decide_eq_true hk) h

theorem resumption_of_none (k : Nat) (v : Word) (s : State) (hk : k < 512) :
    ((s.engine k false).jobs.find? (fun j => j.saved = some (bits v 51 7 * 128)) = none → ∃ t, exec (.trestleRes k v) s = .next t ∧
      t.engine k false = { s.engine k false with res := 1 }) ∧
    ((s.engine k true).jobs.find? (fun j => j.saved = some (bits v 51 7 * 128)) = none → ∃ t, exec (.copyRes k v) s = .next t ∧
      t.engine k true = { s.engine k true with res := 1 }) := by
  refine ⟨fun h => ?_, fun h => ?_⟩
  · obtain ⟨t, ht, he⟩ := resumeJob_absent h
    exact ⟨t, trestleRes_event hk ht, he⟩
  · obtain ⟨t, ht, he⟩ := resumeJob_absent h
    exact ⟨t, copyRes_event hk ht, he⟩

theorem resumption_completes (k size : Nat) (copy : Bool) (i : Instr) (v : Word) (s s1 s2 t : State) (j j' : Job) (ws : List Word)
    (hi : (i = .trestleRes k v ∧ copy = false ∧ size = 18448 ∧ Gives (trestleFrom k j ws) s1 (some j') s2) ∨
      (i = .copyRes k v ∧ copy = true ∧ size = j.areaSize ∧ Gives (copyFrom k j ws) s1 (some j') s2)) (hk : k < 512)
    (hj : (s.engine k copy).jobs.find? (fun j => j.saved = some (bits v 51 7 * 128)) = some j)
    (hread : Gives (physReads (bits v 51 7 * 128) size) s (ws, none) s1) (hctx : bits (ws.getD 9 0) 27 16 = j.ctx)
    (hjid : bits (ws.getD 9 0) 15 0 = j.jid)
    (hset : Gives (do
      modEngine k copy (fun e => { e with res := 0 })
      modJob k copy j.jid (fun _ => { j' with saved := none })) s2 () t) : exec i s = .next t := by
  obtain ⟨rfl, rfl, rfl, harea⟩ | ⟨rfl, rfl, rfl, harea⟩ := hi
  · exact trestleRes_event hk (resumeJob_resumes hj hread hctx hjid harea hset)
  · exact copyRes_event hk (resumeJob_resumes hj hread hctx hjid harea hset)

/-- Settles O50: each event's computation goes through where its statement says so, and each address of a bureau names the register that
R346's table gives it. -/
theorem bureauEventsComplete : Obligations.BureauEventsComplete := by
  unfold Obligations.BureauEventsComplete
  refine ⟨slotOwn_completes, cxId_completes, tmbox_posts, ?_, ?_, sysShootD_completes, preemptions_complete, resumption_of_none,
    resumption_completes, registerWritesComplete_holds, bureauAddresses_holds⟩
  · intro k c e tid v s s1 m x hk hc he hm hw ht hx hu hpark hp h1
    exact mailboxReply_event hk hc he (mailboxReply_handler he hm hw ht hx hu hp hpark h1)
  · intro k c e tid v s s1 t m x hk hc he hm hw ht hu words posted hpark hp hx hfree
    have reply := mailboxReply_killed (v := v) he hm hw ht hx hu hp hpark
    rw [bind_ok hfree] at reply
    refine ⟨fun alone => mailboxReply_event hk hc he ?_, fun u both hfree' => mailboxReply_event hk hc he ?_⟩
    · rw [reply, if_neg alone]
      rfl
    · rw [reply, if_pos both]
      exact hfree'

end Sys2Proof.Proofs
end

