-- ==== Sys2Proof/Proofs/IntegerPairs.lean ====
section
/-! The integer instructions of two operands (04 R90 to R94, R98), and the frame of the integer instructions on resident names. -/

namespace Sys2Proof.Proofs

open Sys2Proof.Machine Sys2Proof.Statements

theorem truth_ltU (A B : Word) : truth (ltU A B) = if A.toNat < B.toNat then 1 else 0 := truth_decide _

/-- An integer instruction of two operands is d ← f(A, B) (04 R87). -/
theorem exec_integerPair {i : Instr} {d a b : BitVec 8} {f : Word → Word → Word} {s t : State} (hi : integerPair i = some (d, a, b, f))
    (hs : Issues i s) (h : binary (wordOf i) d a b f s = .ok ((), t)) : exec i s = .next t := by
  cases i <;> cases hi
  case add => rw [exec_add]; exact runUnit_ok hs h
  case sub => rw [exec_sub]; exact runUnit_ok hs h
  case mul => rw [exec_mul]; exact runUnit_ok hs h
  case mulh => rw [exec_mulh]; exact runUnit_ok hs h
  case mulhu => rw [exec_mulhu]; exact runUnit_ok hs h
  case div => rw [exec_div]; exact runUnit_ok hs h
  case divu => rw [exec_divu]; exact runUnit_ok hs h
  case rem => rw [exec_rem]; exact runUnit_ok hs h
  case remu => rw [exec_remu]; exact runUnit_ok hs h
  case and => rw [exec_and]; exact runUnit_ok hs h
  case or => rw [exec_or]; exact runUnit_ok hs h
  case xor => rw [exec_xor]; exact runUnit_ok hs h
  case shl => rw [exec_shl]; exact runUnit_ok hs h
  case shr => rw [exec_shr]; exact runUnit_ok hs h
  case sar => rw [exec_sar]; exact runUnit_ok hs h
  case slt => rw [exec_slt]; exact runUnit_ok hs (by simp only [truth_ltS]; exact h)
  case sltu => rw [exec_sltu]; exact runUnit_ok hs (by simp only [truth_ltU]; exact h)
  case seq => rw [exec_seq]; exact runUnit_ok hs (by simp only [truth_decide]; exact h)
  case min => rw [exec_min]; exact runUnit_ok hs h
  case max => rw [exec_max]; exact runUnit_ok hs h
  case minu => rw [exec_minu]; exact runUnit_ok hs h
  case maxu => rw [exec_maxu]; exact runUnit_ok hs h
  case hash64 => rw [exec_hash64]; exact runUnit_ok hs h

/-- The low 64 bits of the signed and of the unsigned product are those of MUL (04 R91). -/
theorem mul_eq_products (A B : Word) : A * B = BitVec.ofInt 64 (A.toInt * B.toInt) ∧ A * B = BitVec.ofNat 64 (A.toNat * B.toNat) := by
  constructor
  · rw [BitVec.ofInt_mul, BitVec.ofInt_toInt, BitVec.ofInt_toInt]
  · rw [BitVec.ofNat_mul, BitVec.ofNat_toNat, BitVec.ofNat_toNat, BitVec.setWidth_eq, BitVec.setWidth_eq]

/-- Settles O1: the body reads A, reads B, writes and retires, whatever the operation; the products are computed. -/
theorem integerPairCompletes : Obligations.IntegerPairCompletes := by
  unfold Obligations.IntegerPairCompletes
  refine ⟨fun i d a b f h s s1 s2 s3 t A B hi ha hb hw hr => exec_integerPair h hi (binary_ok ha hb hw hr),
    fun d a b => ⟨rfl, rfl, rfl, fun f => ⟨?_, ?_⟩⟩⟩
  · rintro ⟨⟩
    decide
  · rintro ⟨⟩
    exact ⟨by decide, mul_eq_products⟩

/-- The end of a unit on resident names that raises no flag and writes one of them. -/
theorem plain_writes_unflagged {i : Instr} {s : State} {x : Thread} (hp : Plain i s x) (w : IWord) {d : BitVec 8}
    (hd : d.toNat < x.win) (v : Word) :
    ∃ s1 t, Gives (writeName w d v) s () s1 ∧ Retires s1 t ∧ RegistersOnly s t [d.toNat] ∧ t.resident x d.toNat = v ∧
      (t.slot s.cur).tstat = (s.slot s.cur).tstat ∧ (t.thread s.cur).map (·.pc) = some (x.pc + 4) := by
  obtain ⟨s0, s1, t, h0, h1, ht, frame⟩ := plain_writes hp w hd 0 v
  obtain ⟨⟩ : (Except.ok ((), s) : Except Abort (Unit × State)) = .ok ((), s0) := (raiseFlags_run 0 s).symm.trans h0
  exact ⟨s1, t, h1, ht, frame⟩

/-- Settles O4: what completes on resident names ends in the state that its one write leaves. -/
theorem integerFrame : Obligations.IntegerFrame := by
  unfold Obligations.IntegerFrame
  constructor
  · intro i d a b f hi s x hp hd ha hb
    obtain ⟨s1, t, hw, ht, frame⟩ := plain_writes_unflagged hp (wordOf i) hd (f (s.resident x a.toNat) (s.resident x b.toNat))
    exact ⟨t, integerPairCompletes.1 i d a b f hi s s s s1 t _ _ hp.issues (plain_read hp _ ha) (plain_read hp _ hb) hw ht, frame⟩
  · intro i d a f hi s x hp hd ha
    obtain ⟨s1, t, hw, ht, frame⟩ := plain_writes_unflagged hp (wordOf i) hd (f x.latch (s.resident x a.toNat))
    exact ⟨t, integerOne_completes i d a f hi s s s1 t x _ hp.issues hp.thread (plain_read hp _ ha) hw ht, frame⟩

end Sys2Proof.Proofs
end

