-- ==== Sys2Proof/Proofs/Transfers.lean ====
section
/-! The branches, J, CALL and JMPR, and the transfer that they end in (04 R101 to R104). -/

namespace Sys2Proof.Proofs

open Sys2Proof.Machine Sys2Proof.Statements

/-- A compare-with-zero branch is one of its condition. -/
theorem exec_branchOf {i : Instr} {a : BitVec 8} {o : BitVec 16} {c : Word → Bool} {s t : State} (hi : branchOf i = some (a, o, c))
    (hs : Issues i s) (h : branch (wordOf i) a o c s = .ok ((), t)) : exec i s = .next t := by
  cases i <;> cases hi
  case bz => rw [exec_bz]; exact runUnit_ok hs h
  case bnz => rw [exec_bnz]; exact runUnit_ok hs h
  case bltz => rw [exec_bltz]; exact runUnit_ok hs h
  case bgez => rw [exec_bgez]; exact runUnit_ok hs h
  case bgtz => rw [exec_bgtz]; exact runUnit_ok hs h
  case blez => rw [exec_blez]; exact runUnit_ok hs h

theorem branches_complete : branchesComplete := by
  unfold branchesComplete
  intro i a o c h s s1 t x A hi hx ha
  refine ⟨fun hc hr => exec_branchOf h hi ?_, fun hc ht => exec_branchOf h hi ?_⟩
  · rw [branch_run hx ha, hc]
    exact hr
  · rw [branch_run hx ha, hc]
    exact ht

theorem transfer_goesOn : transferGoesOn := by
  unfold transferGoesOn
  exact fun T s x hx hc aligned inSpace => transfer_plain hx hc aligned inSpace

theorem jumps_complete : jumpsComplete := by
  unfold jumpsComplete
  refine ⟨?_, ?_, ?_⟩
  · intro o s t x hi hx ht
    rw [exec_j]
    exact runUnit_ok hi ((bind_ok (target_run _ _ hx)).trans ht)
  · intro o s s1 t x hi hx hw ht
    rw [exec_call]
    refine runUnit_ok hi ?_
    rw [bind_ok (target_run _ _ hx), bind_ok (link_run hx), bind_ok hw]
    exact ht
  · intro d a s s1 s2 t x T hi ha hx aligned inSpace hw ht
    have good : (bits T 1 0 != 0 || decide (2 ^ 55 ≤ T.toNat)) = false := by
      rw [aligned, decide_eq_false (Nat.not_le.2 inSpace)]
      rfl
    rw [exec_jmpr]
    refine runUnit_ok hi ?_
    rw [bind_ok ha, bind_ok (link_run hx), good, if_neg Bool.false_ne_true, bind_ok hw]
    exact ht

/-- Settles O3. -/
theorem transfersComplete : Obligations.TransfersComplete :=
  ⟨branches_complete, transfer_goesOn, jumps_complete⟩

end Sys2Proof.Proofs
end

