-- ==== Sys2Proof/Proofs/UniformValues.lean ====
section
/-! CVTU (04 R99): its encoding, and the FP32 pattern that it gives. -/

namespace Sys2Proof.Proofs

open Sys2Proof.Machine Sys2Proof.Statements Sys2Proof.Laws

/-- A word whose row's reserved fields are not all zero is refused (02 R26). -/
theorem decode_reserved {w : IWord} {o : BitVec 8} {r : Encoding} (ho : opcodeOf w = o)
    (hr : (Encoding.rows (o.toNat / 16)).find? (fun r => r.op == o) = some r) (hz : w &&& r.reserved ≠ 0#32) :
    decodeWord w = .error .reservedField := by
  simp only [decodeWord, ho, hr, hz, if_false]

theorem decode_cvtu (d a b : BitVec 8) :
    decodeWord (0x23#8 ++ d ++ a ++ b) = if b = 0 then .ok (.cvtu d a) else .error .reservedField := by
  split
  · subst b
    exact decodeWord_of_encode _ rfl
  · refine decode_reserved (Encodes.opcode _ _ _ _) rfl fun clear => ‹¬b = 0› ?_
    rw [← Encodes.field_b 0x23#8 d a b]
    exact field_of_clear 0 8 clear (by decide)

/-- The fields of a positive FP32 pattern (03 R64). -/
theorem bits_pattern32 {e m : Nat} (he : e < 256) (hm : m < 2 ^ 23) :
    bits (word (e * 2 ^ 23 + m)) 63 31 = 0 ∧ bits (word (e * 2 ^ 23 + m)) 30 23 = e ∧ bits (word (e * 2 ^ 23 + m)) 22 0 = m := by
  simp only [bits, word, BitVec.toNat_ofNat]
  omega

/-- The pattern of n · 2^-24 (04 R99): the leading one of n gives the exponent, the bits below it the fraction. -/
theorem uniform32_pattern {n : Nat} (h0 : n ≠ 0) (hn : n < 2 ^ 24) :
    ∃ e m, uniform32 n = e * 2 ^ 23 + m ∧ 0 < e ∧ e < 127 ∧ m < 2 ^ 23 ∧ (2 ^ 23 + m) * 2 ^ e = n * 2 ^ 126 := by
  have htop : Nat.log2 n ≤ 23 := Nat.le_of_lt_succ ((Nat.log2_lt h0).2 hn)
  obtain ⟨k, hk⟩ := Nat.exists_eq_add_of_le htop
  have lower : 2 ^ 23 ≤ n * 2 ^ k := by
    calc 2 ^ 23 = 2 ^ Nat.log2 n * 2 ^ k := by rw [← pow_add, ← hk]
      _ ≤ n * 2 ^ k := Nat.mul_le_mul_right _ (Nat.log2_self_le h0)
  have upper : n * 2 ^ k < 2 ^ 24 := by
    calc n * 2 ^ k < 2 ^ (Nat.log2 n + 1) * 2 ^ k := Nat.mul_lt_mul_of_pos_right Nat.lt_log2_self (Nat.two_pow_pos _)
      _ = 2 ^ 24 := by rw [← pow_add]; congr 1; omega
  refine ⟨103 + Nat.log2 n, n * 2 ^ k - 2 ^ 23, ?_, by omega, by omega, by omega, ?_⟩
  · have shift : 23 - Nat.log2 n = k := by omega
    unfold uniform32
    simp only [shift]
  · rw [Nat.add_sub_cancel' lower, mul_assoc, ← pow_add, show k + (103 + Nat.log2 n) = 126 by omega]

/-- CVTU gives the value (2k + 1) / 2^24 of the top 23 bits k, strictly between 0 and 1 (04 R99). -/
theorem cvtu_value (A : Word) : bits (cvtu A) 63 31 = 0 ∧ 0 < bits (cvtu A) 30 23 ∧ bits (cvtu A) 30 23 < 127 ∧
    (2 ^ 23 + bits (cvtu A) 22 0) * 2 ^ bits (cvtu A) 30 23 = (2 * bits A 63 41 + 1) * 2 ^ 126 := by
  have hk : bits A 63 41 < 2 ^ 23 := bits_lt A 63 41
  obtain ⟨e, m, hpattern, hpos, hlt, hm, hvalue⟩ := uniform32_pattern (n := 2 * bits A 63 41 + 1) (by omega) (by omega)
  obtain ⟨sign, exponent, fraction⟩ := bits_pattern32 (e := e) (by omega) hm
  rw [cvtu, hpattern, sign, exponent, fraction]
  exact ⟨rfl, hpos, hlt, hvalue⟩

/-- Settles O53: the value is that of `cvtu`, and CVTU completes and keeps its frame as every integer instruction of one operand. -/
theorem uniformValues : Obligations.UniformValues := by
  unfold Obligations.UniformValues
  refine ⟨decode_cvtu, fun A => ⟨cvtu A, ?_⟩⟩
  obtain ⟨sign, positive, belowOne, value⟩ := cvtu_value A
  refine ⟨sign, positive, belowOne, value, ?_, ?_, ?_, ?_, ?_⟩
  · rintro rfl
    decide
  · rintro rfl
    decide
  · rintro rfl
    decide
  · intro d a s s1 s2 t hi ha hw hr
    have ⟨x, hx, _⟩ := hi
    exact integerOne_completes (.cvtu d a) d a (fun _ A => cvtu A) rfl s s1 s2 t x A hi hx ha hw hr
  · rintro d a s x hp hd ha rfl
    obtain ⟨t, runs, only, result, flags, next⟩ := integerFrame.2 (.cvtu d a) d a (fun _ A => cvtu A) rfl s x hp hd ha
    exact ⟨t, runs, only, flags, next, result⟩

end Sys2Proof.Proofs
end

