-- ==== Sys2Proof/Proofs/Floats.lean ====
section
/-! The scalar float instructions complete (05 R109 to R117): those of two operands, of one, the fused ones and FCVT. -/

namespace Sys2Proof.Proofs

open Sys2Proof.Machine Sys2Proof.Statements

/-- A fused instruction reads A, B and the old value of d, in this order (05 R111). -/
theorem floatTernary_ok {w : IWord} {d a b : BitVec 8} {neg : Bool} {s s1 s2 s3 s4 s5 t : State} {x y : Thread} {A B C : Word}
    {r : Nat × Flags} (hx : s.thread s.cur = some x) (ha : Gives (readName w a) s A s1) (hb : Gives (readName w b) s1 B s2)
    (hc : Gives (readName w d) s2 C s3) (hy : s3.thread s3.cur = some y)
    (hr : r = (precision x.latch.aux).fma (roundingOf s3 y.latch) (operand (precision x.latch.aux) A)
      (operand (precision x.latch.aux) B) (operand (precision x.latch.aux) C) neg)
    (hf : Gives (raiseFlags r.2) s3 () s4) (hw : Gives (writeName w d (word r.1)) s4 () s5) (ht : Retires s5 t) :
    floatTernary w d a b neg s = .ok ((), t) := by
  subst hr
  unfold floatTernary
  rw [bind_ok (latch_run hx), bind_ok ha, bind_ok hb, bind_ok hc, bind_ok (mode_run hy)]
  exact (bind_ok hf).trans ((bind_ok hw).trans ht)

theorem floatPair_completes : floatPairCompletes := by
  unfold floatPairCompletes
  intro i d a b f h s s1 s2 s3 s4 t x y A B r hi hx ha hb hy hr hf hw ht
  exact exec_floatPair h hi hx (floatBinary_ok hx ha hb hy hr hf hw ht)

theorem floatOthers_complete : floatOthersComplete := by
  unfold floatOthersComplete
  refine ⟨?_, ?_, ?_⟩
  · intro i d a f h s s1 s2 s3 t x y A r hi hx ha hy hr hf hw ht
    exact exec_floatOne h hi (floatUnary_ok hx ha hy hr hf hw ht)
  · intro i d a b neg h s s1 s2 s3 s4 s5 t x y A B C r hi hx ha hb hc hy hr hf hw ht
    exact exec_fused h hi (floatTernary_ok hx ha hb hc hy hr hf hw ht)
  · rintro d a k s s1 s2 s3 t y A r hi ha hy rfl hf hw ht
    rw [exec_fcvt]
    refine runUnit_ok hi ?_
    rw [bind_ok ha, bind_ok (mode_run hy)]
    exact (bind_ok hf).trans ((bind_ok hw).trans ht)

/-- Settles O5: each body reads its operands, raises its flags, writes its value and retires. -/
theorem floatsComplete : Obligations.FloatsComplete :=
  ⟨floatPair_completes, floatOthers_complete⟩

end Sys2Proof.Proofs
end

