-- ==== Sys2Proof/Proofs/Vectors.lean ====
section
/-! The vector instructions on registers complete (05 R118 to R129): the lane operations, those with a scalar operand or result, VSHF, VCVT
and the reductions. -/

namespace Sys2Proof.Proofs

open Sys2Proof.Machine Sys2Proof.Statements

/-! The shapes that the lane operations share. -/

section
variable {w : IWord} {d a b : BitVec 8} {s s1 s2 s3 s4 s5 t : State} {x y : Thread} {A B C : List Word}

theorem laneWise_ok {f : Nat → Nat → Nat → Nat → Nat → Nat × Flags} {r : List (Nat × Flags)} (hx : s.thread s.cur = some x)
    (ha : Gives (readGroup w a) s A s1) (hb : Gives (readGroup w b) s1 B s2) (hc : Gives (readGroup w d) s2 C s3)
    (hy : s3.thread s3.cur = some y)
    (hr : r = ((lanesOf (x.latch.aux % 8) A).zip ((lanesOf (x.latch.aux % 8) B).zip (lanesOf (x.latch.aux % 8) C))).map
      (fun p => f (x.latch.aux % 8) (roundingOf s3 y.latch) p.1 p.2.1 p.2.2))
    (hf : Gives (raiseFlags (r.foldl (fun g p => g ||| p.2) 0)) s3 () s4)
    (hw : Gives (writeGroup w d (ofLanes (x.latch.aux % 8) (r.map (·.1)))) s4 () s5) (ht : Retires s5 t) :
    laneWise w d a b f s = .ok ((), t) := by
  subst hr
  unfold laneWise
  rw [bind_ok (laneCode_run hx), bind_ok ha, bind_ok hb, bind_ok hc, bind_ok (mode_run hy)]
  exact (bind_ok hf).trans ((bind_ok hw).trans ht)

theorem laneUnary_ok {f : Fmt → Nat → Nat → Nat × Flags} {r : List (Nat × Flags)} (hx : s.thread s.cur = some x)
    (ha : Gives (readGroup w a) s A s1) (hy : s1.thread s1.cur = some y)
    (hr : r = (lanesOf (x.latch.aux % 8) A).map
      (fun v => floatLane (fun f' m x _ _ => f f' m x) (x.latch.aux % 8) (roundingOf s1 y.latch) v 0 0))
    (hf : Gives (raiseFlags (r.foldl (fun g p => g ||| p.2) 0)) s1 () s2)
    (hw : Gives (writeGroup w d (ofLanes (x.latch.aux % 8) (r.map (·.1)))) s2 () s3) (ht : Retires s3 t) :
    laneUnary w d a f s = .ok ((), t) := by
  subst hr
  unfold laneUnary
  rw [bind_ok (laneCode_run hx), bind_ok ha, bind_ok (mode_run hy)]
  exact (bind_ok hf).trans ((bind_ok hw).trans ht)

theorem bitWise_ok {f : Word → Word → Word} (ha : Gives (readGroup w a) s A s1) (hb : Gives (readGroup w b) s1 B s2)
    (hw : Gives (writeGroup w d (List.zipWith f A B)) s2 () s3) (ht : Retires s3 t) : bitWise w d a b f s = .ok ((), t) := by
  have hzip : (A.zip B).map (fun p => f p.1 p.2) = List.zipWith f A B := by rw [List.zip, List.map_zipWith]
  unfold bitWise
  rw [bind_ok ha, bind_ok hb, hzip]
  exact (bind_ok hw).trans ht

end

section
variable {i : Instr} {d a b : BitVec 8} {s t : State} (hs : Issues i s)
include hs

/-- A lane operation on three groups is its operation lane by lane. -/
theorem exec_laneThree {f : Nat → Nat → Nat → Nat → Nat → Nat × Flags} (hi : laneThree i = some (d, a, b, f))
    (h : laneWise (wordOf i) d a b f s = .ok ((), t)) : exec i s = .next t := by
  cases i <;> cases hi
  case vadd => rw [exec_vadd]; exact runUnit_ok hs h
  case vsub => rw [exec_vsub]; exact runUnit_ok hs h
  case vmul => rw [exec_vmul]; exact runUnit_ok hs h
  case vfma => rw [exec_vfma]; exact runUnit_ok hs h
  case vmin => rw [exec_vmin]; exact runUnit_ok hs h
  case vmax => rw [exec_vmax]; exact runUnit_ok hs h
  case viadd => rw [exec_viadd]; exact runUnit_ok hs h
  case vimul => rw [exec_vimul]; exact runUnit_ok hs h

/-- A lane operation on one group is an operation of its float lanes. -/
theorem exec_laneSingle {f : Nat → Nat → Nat → Nat × Flags} (hi : laneSingle i = some (d, a, f))
    (h : ∀ g : Fmt → Nat → Nat → Nat × Flags, f = (fun code m v => floatLane (fun f' m v _ _ => g f' m v) code m v 0 0) →
      laneUnary (wordOf i) d a g s = .ok ((), t)) : exec i s = .next t := by
  cases i <;> cases hi
  case vlg2 => rw [exec_vlg2]; exact runUnit_ok hs (h _ rfl)
  case vex2 => rw [exec_vex2]; exact runUnit_ok hs (h _ rfl)

/-- A bitwise operation on groups is its operation word by word. -/
theorem exec_groupBits {f : Word → Word → Word} (hi : groupBits i = some (d, a, b, f))
    (h : bitWise (wordOf i) d a b f s = .ok ((), t)) : exec i s = .next t := by
  cases i <;> cases hi
  case vand => rw [exec_vand]; exact runUnit_ok hs h
  case vor => rw [exec_vor]; exact runUnit_ok hs h
  case vxor => rw [exec_vxor]; exact runUnit_ok hs h

end

theorem vectorLanes_complete : vectorLanesComplete := by
  unfold vectorLanesComplete
  refine ⟨?_, ?_, ?_⟩
  · intro i d a b f h s s1 s2 s3 s4 s5 t x y A B C r hi hx ha hb hc hy hr hf hw ht
    exact exec_laneThree hi h (laneWise_ok hx ha hb hc hy hr hf hw ht)
  · intro i d a f h s s1 s2 s3 t x y A r hi hx ha hy hr hf hw ht
    refine exec_laneSingle hi h fun g hg => laneUnary_ok hx ha hy ?_ hf hw ht
    rw [hr, hg]
  · intro i d a b f h s s1 s2 s3 t A B hi ha hb hw ht
    exact exec_groupBits hi h (bitWise_ok ha hb hw ht)

/-- A group within the window passes its check (02 R28). -/
theorem checkGroup_ok {w : IWord} {n : BitVec 8} {s : State} {x : Thread} (hx : s.thread s.cur = some x) (h : n.toNat + 7 < x.win) :
    checkGroup w n s = .ok ((), s) := by
  unfold checkGroup
  rw [bind_ok (me_run hx), if_pos h]
  rfl

theorem vectorOthers_complete : vectorOthersComplete := by
  unfold vectorOthersComplete
  refine ⟨?_, ?_, ?_, ?_, ?_, ?_⟩
  · rintro d a b s s1 s2 s3 s4 t x A B r hi hx ha hb rfl hf hw ht
    rw [exec_vcmp]
    refine runUnit_ok hi ?_
    rw [bind_ok (laneCode_run hx), bind_ok (latch_run hx), bind_ok ha, bind_ok hb]
    exact (bind_ok hf).trans ((bind_ok hw).trans ht)
  · intro d a b s s1 s2 s3 s4 t x A C B hi hx ha hb hc hw ht
    rw [exec_vsel]
    refine runUnit_ok hi ?_
    rw [bind_ok (laneCode_run hx), bind_ok ha, bind_ok hb, bind_ok hc]
    exact (bind_ok hw).trans ht
  · intro d a s s1 s2 t x A hi hx ha hw ht
    rw [exec_vbcast]
    refine runUnit_ok hi ?_
    rw [bind_ok (laneCode_run hx), bind_ok ha]
    exact (bind_ok hw).trans ht
  · intro d a b s s1 s2 s3 t x A B hi hx ha hb hw ht
    rw [exec_vhash]
    refine runUnit_ok hi ?_
    rw [bind_ok (laneCode_run hx), bind_ok ha, bind_ok hb]
    exact (bind_ok hw).trans ht
  · intro d a b s s1 s2 s3 t x A B hi hx ha hb hw ht
    rw [exec_vshf]
    refine runUnit_ok hi ?_
    rw [bind_ok (laneCode_run hx), bind_ok (latch_run hx), bind_ok ha, bind_ok hb]
    exact (bind_ok hw).trans ht
  · rintro d a k s s1 s2 s3 t x A ns nd r hi hx hsource hdest rfl rfl ha rfl hf hw ht
    rw [exec_vcvt]
    refine runUnit_ok hi ?_
    rw [bind_ok (latch_run hx), bind_ok (mode_run hx)]
    refine (bind_ok (checkGroup_ok hx hsource)).trans ((bind_ok (checkGroup_ok hx hdest)).trans ((bind_ok ha).trans ?_))
    exact (bind_ok hf).trans ((bind_ok hw).trans ht)

/-! Reading resident names leaves the state as it is (02 R52). -/

theorem keeps_me {P : State → Prop} : Keeps P me := by
  intro s v t hs h
  cases hx : s.thread s.cur with
  | some x =>
    rw [me_run hx] at h
    cases h
    exact hs
  | none =>
    simp only [me, bind_getS, hx, abort_run] at h
    cases h

theorem keeps_readResident {P : State → Prop} (n : Nat) : Keeps P (readResident n) := by
  unfold readResident
  refine Keeps.bind keeps_me fun x => Keeps.bind (Keeps.bind Keeps.getS fun _ => Keeps.pure _) fun c => Keeps.bind Keeps.getS fun s =>
    Keeps.bind (Keeps.bind Keeps.getS fun _ => Keeps.pure _) fun r => ?_
  unfold useReg
  exact Keeps.ite (Keeps.abort _) (Keeps.pure _)

theorem keeps_readResidents {P : State → Prop} (n k : Nat) : Keeps P (readResidents n k) := by
  induction k generalizing n with
  | zero => exact Keeps.pure _
  | succ k ih => exact Keeps.bind (keeps_readResident n) fun _ => Keeps.bind (ih (n + 1)) fun _ => Keeps.pure _

theorem keeps_checkGroup {P : State → Prop} (w : IWord) (n : BitVec 8) : Keeps P (checkGroup w n) := by
  unfold checkGroup
  exact Keeps.bind keeps_me fun _ => Keeps.ite (Keeps.pure _) (Keeps.bind Keeps.getS fun _ => Keeps.abort _)

theorem readGroup_state {w : IWord} {n : BitVec 8} {s t : State} {A : List Word} (h : Gives (readGroup w n) s A t) : t = s :=
  Keeps.bind (P := (· = s)) (keeps_checkGroup w n) (fun _ => keeps_readResidents n.toNat 8) s A t rfl h

/-! The reductions. -/

/-- The running maximum of a list from its first element is its greatest element. -/
theorem foldl_max_greatest {l : List Int} {first n : Int} (hf : first ∈ l) (hn : n ∈ l) (greatest : ∀ k ∈ l, k ≤ n) :
    l.foldl Max.max first = n := by
  have hmax : (first :: l).max? = some n :=
    List.max?_eq_some_iff.2 ⟨List.mem_cons_of_mem _ hn, List.forall_mem_cons.2 ⟨greatest _ hf, greatest⟩⟩
  rw [List.max?_cons'] at hmax
  exact Option.some.inj hmax

theorem headD_mem {α : Type} {l : List α} (d : α) (h : l ≠ []) : l.headD d ∈ l := by
  cases l with
  | nil => exact absurd rfl h
  | cons v l => exact List.mem_cons_self

theorem vectorReductions_complete : vectorReductionsComplete := by
  unfold vectorReductionsComplete
  refine ⟨?_, ?_, ?_, ?_, ?_⟩
  · rintro d a s s1 s2 s3 t x A r hi hx hfloat ha rfl hf hw ht
    obtain rfl := readGroup_state ha
    rw [exec_vsum]
    refine runUnit_ok hi ?_
    rw [bind_ok (laneCode_run hx), bind_ok ha, bind_ok (mode_run hx)]
    simp only [hfloat, if_true]
    exact (bind_ok hf).trans ((bind_ok hw).trans ht)
  · intro d a s s1 s2 t x A hi hx hint ha hw ht
    obtain rfl := readGroup_state ha
    rw [exec_vsum]
    refine runUnit_ok hi ?_
    rw [bind_ok (laneCode_run hx), bind_ok ha, bind_ok (mode_run hx)]
    simp only [Nat.not_lt.2 hint, if_false]
    exact (bind_ok hw).trans ht
  · rintro d a s s1 s2 s3 t x A r hi hx hfloat ha rfl hf hw ht
    rw [exec_vmaxr]
    refine runUnit_ok hi ?_
    rw [bind_ok (laneCode_run hx), bind_ok ha]
    simp only [hfloat, if_true]
    exact (bind_ok hf).trans ((bind_ok hw).trans ht)
  · intro d a s s1 s2 t x A n hi hx hint ha hn greatest hw ht
    have hlanes : lanesOf (x.latch.aux % 8) A ≠ [] := List.ne_nil_of_mem (List.mem_map.1 hn).choose_spec.1
    rw [exec_vmaxr]
    refine runUnit_ok hi ?_
    rw [bind_ok (laneCode_run hx), bind_ok ha]
    simp only [Nat.not_lt.2 hint, if_false]
    rw [foldl_max_greatest (List.mem_map_of_mem (headD_mem 0 hlanes)) hn greatest]
    exact (bind_ok hw).trans ht
  · rintro d a b s s1 s2 s3 s4 s5 s6 t x A B V I C r hi hx hd ha hb hV hI hC rfl hw ht
    rw [exec_vargmax]
    refine runUnit_ok hi ?_
    rw [bind_ok (me_run hx), if_neg (Nat.not_le.2 hd), bind_ok ha, bind_ok hb, bind_ok hV, bind_ok hI, bind_ok hC]
    exact (bind_ok hw).trans ((bind_ok (modMySlot_run _ _)).trans ht)

/-- Settles O7: each body reads its groups and names, raises its lanes' flags, writes its result and retires; the rounding mode of a
reduction is read behind its group, which changes nothing. -/
theorem vectorsComplete : Obligations.VectorsComplete :=
  ⟨vectorLanes_complete, vectorOthers_complete, vectorReductions_complete⟩

end Sys2Proof.Proofs
end

