-- ==== Sys2Proof/Proofs/WideAccesses.lean ====
section
/-! LDEX, LDE, STF, VLD, VST and VLDN complete (05 R130 to R132; 10 R235 to R238). -/

namespace Sys2Proof.Proofs

open Sys2Proof.Machine Sys2Proof.Statements

/-- The address of an access that passes the checks of 10 R230, steps 1 and 2, goes on with the rest of its unit. -/
theorem addressed_ok {α : Type} {x y : Thread} {A ea : Word} {m : BitVec 8} {size : Nat} {store : Bool} {s : State} {f : Word → M α}
    (hy : s.thread s.cur = some y) (hea : ea = addressOf y A size m x.latch) (h : Addressed ea size) :
    (do
      let ea ← effective (A + word size * assembled x.latch 8 m.toNat)
      checkRange ea store
      checkAlign ea size store
      f ea) s = f ea s := by
  have heff : effective (A + word size * assembled x.latch 8 m.toNat) s = .ok (ea, s) := hea ▸ effective_run hy
  rw [bind_ok heff, bind_ok (checkRange_ok h.1), bind_ok (checkAlign_ok h.2)]

theorem exclusiveAndFullBitAccesses_complete : exclusiveAndFullBitAccessesComplete := by
  unfold exclusiveAndFullBitAccessesComplete
  refine ⟨?_, ?_, ?_⟩
  · intro d a m s s1 s2 s3 s4 t x y A ea v bad p hi hx ha hy hea haddr haper hp hread ht
    rw [exec_ldex]
    refine runUnit_ok hi ?_
    rw [bind_ok (me_run hx), bind_ok (latch_run hx), bind_ok ha]
    refine (addressed_ok (size := 8) hy hea haddr).trans ?_
    rw [if_neg (ne_true_of_eq_false haper), bind_ok hp]
    rcases hread with ⟨hpriv, hd, happend⟩ | ⟨hpriv, hd, hv, hw⟩ | ⟨hpriv, hd, hv, hw⟩ | ⟨hpriv, hd, hv, hw⟩
    · rw [if_pos hpriv, if_pos hd]
      exact (bind_ok happend).trans ht
    · rw [if_pos hpriv, if_neg hd]
      exact (bind_ok hv).trans ((bind_ok hw).trans ht)
    · rw [if_neg hpriv, if_pos hd]
      rcases hv with ⟨hrole, rfl, rfl, rfl⟩ | ⟨hrole, hv⟩
      · rw [if_pos hrole]
        exact (bind_ok (pure_run _ _)).trans ((bind_ok hw).trans ht)
      · rw [if_neg hrole]
        exact (bind_ok hv).trans ((bind_ok hw).trans ht)
    · rw [if_neg hpriv, if_neg hd]
      exact (bind_ok hv).trans ((bind_ok hw).trans ht)
  · intro d a m s s1 s2 s3 t x y A ea v vs hi hx ha hy hea haddr haper he hw ht
    rw [exec_lde]
    refine runUnit_ok hi ?_
    rw [bind_ok (me_run hx), bind_ok (latch_run hx), bind_ok ha]
    refine (addressed_ok (size := 8) hy hea haddr).trans ?_
    rw [if_pos haper]
    by_cases hempties : x.latch.aux = 1
    · rw [if_pos hempties] at he ⊢
      exact (bind_ok he).trans ((bind_ok hw).trans ht)
    · rw [if_neg hempties] at he ⊢
      exact (bind_ok he).trans ((bind_ok hw).trans ht)
  · intro d a m s s1 s2 s3 t x y A D ea r hi hx ha hd hy hea haddr haper he ht
    rw [exec_stf]
    refine runUnit_ok hi ?_
    rw [bind_ok (me_run hx), bind_ok (latch_run hx), bind_ok ha, bind_ok hd]
    refine (addressed_ok (size := 8) hy hea haddr).trans ?_
    rw [if_pos haper]
    exact (bind_ok he).trans ht

theorem vectorMemory_completes : vectorMemoryCompletes := by
  unfold vectorMemoryCompletes
  refine ⟨?_, ?_, ?_⟩
  · intro d a m s s0 s1 s2 s3 t x y A ea vs hi hx hg ha hy hea haddr hread hw ht
    rw [exec_vld]
    refine runUnit_ok hi ?_
    rw [bind_ok (me_run hx), bind_ok (latch_run hx), bind_ok hg, bind_ok ha]
    refine (addressed_ok (size := 64) hy hea haddr).trans ?_
    rcases hread with ⟨haper, hread⟩ | ⟨haper, v, hread⟩
    · rw [if_neg (ne_true_of_eq_false haper), bind_ok hread]
      exact (bind_ok hw).trans ht
    · rw [if_pos haper]
      exact (bind_ok hread).trans ((bind_ok (pure_run _ _)).trans ((bind_ok hw).trans ht))
  · intro d a m s s0 s1 s2 s3 t x y A ea vs hi hx hg ha hd hy hea haddr hstore ht
    rw [exec_vst]
    refine runUnit_ok hi ?_
    rw [bind_ok (me_run hx), bind_ok (latch_run hx), bind_ok hg, bind_ok ha, bind_ok hd]
    refine (addressed_ok (size := 64) hy hea haddr).trans ?_
    rcases hstore with ⟨haper, p, s', hp, hstore⟩ | ⟨haper, r, hstore⟩
    · rw [if_neg (ne_true_of_eq_false haper), bind_ok hp]
      exact (bind_ok hstore).trans ht
    · rw [if_pos haper]
      exact (bind_ok hstore).trans ht
  · intro d a b s s0 s1 s2 s3 s4 t x y A B ea vs c n code hi hx hg ha hb hy hea hcode hc hn halign hread hw ht
    have heff : effective A s2 = .ok (ea, s2) := hea ▸ effective_run hy
    rw [exec_vldn]
    refine runUnit_ok hi ?_
    rw [bind_ok (me_run hx), bind_ok (latch_run hx), bind_ok (laneCode_run hx), bind_ok hg, bind_ok ha, bind_ok hb, bind_ok heff]
    simp only [← hcode, ← hc, ← hn]
    rcases hread with ⟨hc0, rfl, rfl⟩ | ⟨hc0, hout, haper, hread⟩ | ⟨hc0, hout, haper, v, hread⟩
    · rw [if_pos hc0, bind_ok (checkAlign_ok halign), if_pos hc0]
      exact (bind_ok (pure_run _ _)).trans ((bind_ok hw).trans ht)
    · rw [if_neg hc0, bind_ok (checkRange_ok hout), bind_ok (checkAlign_ok halign), if_neg hc0, if_neg (ne_true_of_eq_false haper)]
      exact (bind_ok hread).trans ((bind_ok hw).trans ht)
    · rw [if_neg hc0, bind_ok (checkRange_ok hout), bind_ok (checkAlign_ok halign), if_neg hc0, if_pos haper]
      exact (bind_ok hread).trans ((bind_ok (pure_run _ _)).trans ((bind_ok hw).trans ht))

/-- Settles O10: an address that passes its checks goes on with the read or write of its page, its bank or the load-data queue. -/
theorem wideAndMarkedAccessesComplete : Obligations.WideAndMarkedAccessesComplete :=
  ⟨exclusiveAndFullBitAccesses_complete, vectorMemory_completes⟩

end Sys2Proof.Proofs
end

