-- ==== Sys2Proof/Proofs/AddressChecks.lean ====
section
/-! The checks of an address (10 R230; 08 R178, R180; 14 R341): an access of a thread whose window holds no special name takes the fault of the
first that fails. -/

namespace Sys2Proof.Proofs

open Sys2Proof.Machine Sys2Proof.Statements

/-! What a unit that does not complete leaves (02 R54, R55). -/

/-- A unit that issues and aborts leaves what becomes of its abort. -/
theorem runUnit_settled {i : Instr} {body : IWord → M Unit} {s t : State} {a : Abort} (hi : Issues i s)
    (h : body (wordOf i) s = .error a) (hs : settle s.cur a s = .ok ((), t)) : runUnit i body s = .next t := by
  obtain ⟨x, hx, hpark, hwf, haccepts, hjudged⟩ := hi
  have hgo : (do
      let x ← me
      if wellFormed i && accepts i x.latch then do
        judgeNames (wordOf i) i
        body (wordOf i)
      else illegal (wordOf i)) s = .error a := by
    rw [bind_ok (me_run hx)]
    simp only [hwf, haccepts, Bool.and_self, if_true]
    rw [bind_ok hjudged]
    exact h
  unfold runUnit runBody
  simp only [hx, hpark, hgo, hs]
  rfl

/-- A state in which the thread at `cur` waits for the walk of an address (14 R343). -/
def awaitsWalk (s : State) (x : Thread) (va : Word) (w : Wait) : State :=
  (s.queueWalk (clusterOf (coreOf s.cur)) x.ctx (va.toNat % 2 ^ 55 / pageSize 3)).setSlot s.cur
    { s.slot s.cur with thread := some { x with park := some w } }

/-- Nothing of the thread's core but its slot changes as it parks for a walk. -/
theorem awaitsWalk_core (s : State) (x : Thread) (va : Word) (w : Wait) : (awaitsWalk s x va w).core (coreOf s.cur) =
    { s.core (coreOf s.cur) with slots := ((awaitsWalk s x va w).core (coreOf s.cur)).slots } := by
  rw [awaitsWalk, core_setSlot]
  rfl

theorem settle_walk {s : State} {x : Thread} (hx : s.thread s.cur = some x) (va : Word) (kind : Nat) (r : Option (Nat × Nat)) :
    settle s.cur (.park (.walk va kind r)) s = .ok ((), awaitsWalk s x va (.walk va kind r)) := by
  unfold settle
  simp only
  unfold parkThread
  simp only [bind_getS, hx, bind_modS]
  exact modThread_run _ hx

/-! The translation of an address (08 R179; 14 R341, R342). -/

section
variable {s : State} {x : Thread} {ea : Word} {kind : Nat} (hx : s.thread s.cur = some x)
include hx

theorem translate_mapped {p : Page} (h : Mapped s x ea kind p) : translate ea kind s = .ok (p, s) := by
  obtain ⟨e, hfind, rfl, hpermits⟩ := h
  unfold Machine.translate translateBy
  rw [bind_ok (me_run hx), bind_getS]
  simp only [hfind, hpermits, if_true]
  rfl

theorem translate_denied {e : TlbEntry} (hfind : tlbFind (s.core (coreOf s.cur)).tlb x.ctx ea.toNat = some e)
    (hdenied : permits e.leaf kind (!prv (s.slot s.cur).tstat) = false) :
    translate ea kind s = (trap (pageFault kind) ea : M Page) s := by
  have hleaf : (pageOf e.level e.leaf ea.toNat).leaf = e.leaf := rfl
  unfold Machine.translate translateBy
  rw [bind_ok (me_run hx), bind_getS]
  simp only [hfind, hleaf, hdenied, Bool.false_eq_true, if_false]

theorem translate_missed (h1 : tlbFind (s.core (coreOf s.cur)).tlb x.ctx ea.toNat = none)
    (h2 : tlbFind (s.cluster (clusterOf (coreOf s.cur))).tlb x.ctx ea.toNat = none) :
    translate ea kind s = .error (.park (.walk ea kind none)) := by
  unfold Machine.translate translateBy
  rw [bind_ok (me_run hx), bind_getS]
  simp only [h1, h2, park_run]

end

/-! The order of the checks. -/

section
variable {α β : Type}

/-- What an access of a form does with an address in the space that is aligned: the aperture, the pages, and the page that it finds are
checked, in this order. -/
structure Judges (f : AccessForm) (m : M α) (s : State) (ea : Word) : Prop where
  aperture : inAperture ea = true → f.banked = false → m s = (trap 5 ea : M α) s
  pages : inAperture ea = false → f.paged = false → m s = (trap (causeOf f.store 5 7) ea : M α) s
  page : inAperture ea = false → f.paged = true → ∃ g : Page → M α, m s = (translate ea (causeOf f.store 0 1) >>= g) s ∧
    ∀ p, f.forbids s p = true → g p s = (trap (causeOf f.store 5 7) ea : M α) s

variable {f : AccessForm} {s : State} {ea : Word}

/-- An access that treats the aperture apart from the pages. -/
theorem Judges.ofAperture {bank paged : M α} (haper : f.banked = false → bank s = (trap 5 ea : M α) s)
    (hpages : f.paged = false → paged s = (trap (causeOf f.store 5 7) ea : M α) s)
    (hpage : f.paged = true → ∃ g : Page → M α, paged s = (translate ea (causeOf f.store 0 1) >>= g) s ∧
      ∀ p, f.forbids s p = true → g p s = (trap (causeOf f.store 5 7) ea : M α) s) :
    Judges f (if inAperture ea then bank else paged) s ea where
  aperture hin hb := (congrFun (if_pos hin) s).trans (haper hb)
  pages hin hpg := (congrFun (if_neg (ne_true_of_eq_false hin)) s).trans (hpages hpg)
  page hin hpg := by
    rw [if_neg (ne_true_of_eq_false hin)]
    exact hpage hpg

/-- What follows a computation sees of it what it gives from the state. -/
theorem bind_of_eq {m n : M α} (h : m s = n s) (k : α → M β) : (m >>= k) s = (n >>= k) s := by
  cases hn : n s with
  | error e => rw [bind_error (h.trans hn), bind_error hn]
  | ok p => rw [bind_ok (h.trans hn), bind_ok hn]

theorem Judges.bind {m : M α} (h : Judges f m s ea) (k : α → M β) : Judges f (m >>= k) s ea where
  aperture hin hb := bind_error (h.aperture hin hb)
  pages hin hpg := bind_error (h.pages hin hpg)
  page hin hpg := by
    obtain ⟨g, hg, hforbids⟩ := h.page hin hpg
    exact ⟨fun p => g p >>= k, (bind_of_eq hg k).trans (bind_assoc_run _ _ _ _), fun p hp => bind_error (hforbids p hp)⟩

/-- A computation checks an address as a form asks, before anything else. -/
def Checks (f : AccessForm) (m : M α) (s : State) (ea : Word) : Prop :=
  ∃ rest, m s = (checkRange ea f.store >>= fun _ => checkAlign ea f.multiple f.store >>= fun _ => rest) s ∧ Judges f rest s ea

/-- What is read before an address is checked leaves the state as it is. -/
theorem Checks.after {c : M α} {k : α → M β} {v : α} (h : c s = .ok (v, s)) (hk : Checks f (k v) s ea) : Checks f (c >>= k) s ea := by
  obtain ⟨rest, heq, hj⟩ := hk
  exact ⟨rest, (bind_ok h).trans heq, hj⟩

theorem Checks.bind {m : M α} (h : Checks f m s ea) (k : α → M β) : Checks f (m >>= k) s ea := by
  obtain ⟨rest, heq, hj⟩ := h
  refine ⟨rest >>= k, (bind_of_eq heq k).trans ?_, hj.bind k⟩
  simp only [bind_assoc]

/-- Any address is a multiple of one byte. -/
theorem checkAlign_one (ea : Word) (store : Bool) : checkAlign ea 1 store = pure () := by simp [checkAlign, Nat.mod_one]

theorem Checks.ofByte {rest : M α} (h1 : f.multiple = 1) (hj : Judges f rest s ea) :
    Checks f (checkRange ea f.store >>= fun _ => rest) s ea := by
  refine ⟨rest, ?_, hj⟩
  rw [h1, checkAlign_one]
  rfl

end

section
variable {i : Instr} {s : State} {x : Thread} (hp : Plain i s x) (hu : prv (s.slot s.cur).tstat = false) {body : IWord → M Unit}
  (he : exec i s = runUnit i body s) {ea : Word}
include hp hu he

theorem faults_of_trap {cause : Nat} (h : body (wordOf i) s = (trap cause ea : M Unit) s) : Faults i s x cause ea := by
  unfold Faults
  rw [he]
  exact (runUnit_trap hp.issues hp.thread hp.single hu (h.trans (trap_run _ _ _))).trans
    (congrArg _ (takeTrap_entered s s.cur x { cause := cause, value := ea } _))

/-- An access whose body checks its address takes the fault of the first check that fails. -/
theorem addressChecks_of_checks {f : AccessForm} (h : Checks f (body (wordOf i)) s ea) : addressChecks i f s x ea := by
  obtain ⟨rest, hbody, hj⟩ := h
  have good : Addressed ea f.multiple → body (wordOf i) s = rest s := by
    rintro ⟨hrange, halign⟩
    rw [hbody, bind_ok (checkRange_ok hrange), bind_ok (checkAlign_ok halign)]
  unfold addressChecks
  refine ⟨fun hrange => faults_of_trap hp hu he ?_, fun hrange halign => faults_of_trap hp hu he ?_,
    fun ha hin hb => faults_of_trap hp hu he ((good ha).trans (hj.aperture hin hb)),
    fun ha hin hpg => faults_of_trap hp hu he ((good ha).trans (hj.pages hin hpg)), fun ha hin hpg => ?_⟩
  · rw [hbody, checkRange, if_pos hrange]
    exact bind_error (trap_run _ _ _)
  · have hbad : (ea.toNat % f.multiple != 0) = true := bne_iff_ne.2 halign
    rw [hbody, bind_ok (checkRange_ok hrange), checkAlign, if_pos hbad]
    exact bind_error (trap_run _ _ _)
  · obtain ⟨g, hg, hforbids⟩ := hj.page hin hpg
    have hbody := (good ha).trans hg
    refine ⟨fun h1 h2 => ?_, fun e hfind hdenied => faults_of_trap hp hu he ?_, fun p hmapped hforbidden => faults_of_trap hp hu he ?_⟩
    · have hmiss := hbody.trans (bind_error (translate_missed hp.thread h1 h2))
      refine ⟨_, he.trans (runUnit_settled hp.issues hmiss (settle_walk hp.thread ea _ none)), ?_, rfl, ?_, ?_⟩
      · rw [awaitsWalk, State.thread_setSlot]
        rfl
      · rw [awaitsWalk_core]
      · rw [awaitsWalk_core]
    · have hfault : pageFault (causeOf f.store 0 1) = causeOf f.store 13 15 := by cases f.store <;> rfl
      rw [← hfault]
      exact hbody.trans (bind_error (translate_denied hp.thread hfind hdenied))
    · exact hbody.trans ((bind_ok (translate_mapped hp.thread hmapped)).trans (hforbids p hforbidden))

/-- An access whose form adds no offset. -/
theorem addressChecks_of_base {f : AccessForm} (h : Checks f (body (wordOf i)) s ea) : addressChecks i f s x (ea + 0) := by
  rw [add_zero]
  exact addressChecks_of_checks hp hu he h

end

end Sys2Proof.Proofs
end

