-- ==== Sys2Proof/Proofs/AddressFaults.lean ====
section
/-! The accesses of 05 R130 to R132 and 10 R233 to R241, R247 check their addresses as their forms say, in a window that holds no special
name; in one that holds sdq the data of a store may be read from the queue. -/

namespace Sys2Proof.Proofs

open Sys2Proof.Machine Sys2Proof.Statements

/-! What a unit that has not begun reads of resident names (02 R52, R54). -/

theorem begunWord_none {x : Thread} (hres : x.resume = {}) (k : Nat) : x.begunWord k = none := by
  rw [Thread.begunWord, hres]
  rfl

theorem effective_fresh {ea : Word} {s : State} {x : Thread} (hx : s.thread s.cur = some x) (hres : x.resume = {}) :
    effective ea s = .ok (ea, s) := by
  rw [effective_run hx, hres]
  rfl

section
variable {i : Instr} {s : State} {x : Thread} (hp : Plain i s x)
include hp

theorem plain_readResidents {n k : Nat} (h : n + k ≤ x.win) : ∃ vs, readResidents n k s = .ok (vs, s) := by
  induction k generalizing n with
  | zero => exact ⟨[], rfl⟩
  | succ k ih =>
    obtain ⟨vs, hvs⟩ := ih (n := n + 1) (by omega)
    refine ⟨s.resident x n :: vs, ?_⟩
    unfold readResidents
    rw [bind_ok (readResident_plain hp.thread hp.sound (hp.clean n (by omega))), bind_ok hvs]
    rfl

variable (hres : x.resume = {})
include hres

theorem plain_readOnce (k : Nat) (w : IWord) {n : BitVec 8} (hn : n.toNat < x.win) :
    readOnce k w n s = .ok (s.resident x n.toNat, s) := by
  unfold readOnce
  rw [bind_ok (me_run hp.thread)]
  simp only [begunWord_none hres]
  exact plain_read hp w hn

/-- The data of a store are those of a resident name where the name is not that of sdq (02 R29). -/
theorem plain_readDataOnce (k : Nat) (w : IWord) {n : BitVec 8} (hn : n.toNat < x.win) (hq : n ≠ 246#8) :
    readDataOnce k w n s = .ok (s.resident x n.toNat, s) := by
  unfold readDataOnce
  rw [bind_ok (me_run hp.thread)]
  simp only [begunWord_none hres]
  unfold readData
  rw [if_neg hq]
  exact plain_read hp w hn

theorem plain_readGroupOnce (k : Nat) (w : IWord) {n : BitVec 8} (hn : n.toNat + 7 < x.win) :
    ∃ vs, readGroupOnce k w n s = .ok (vs, s) := by
  obtain ⟨vs, hvs⟩ := plain_readResidents hp (n := n.toNat) (k := 8) (by omega)
  refine ⟨vs, ?_⟩
  unfold readGroupOnce
  rw [bind_ok (me_run hp.thread)]
  simp only [begunWord_none hres]
  exact (bind_ok (checkGroup_ok hp.thread hn)).trans hvs

/-- The groups of a unit that issues lie in its window (02 R28). -/
theorem plain_group {n : BitVec 8} (h : n ∈ groups i) : n.toNat + 7 < x.win := by
  obtain ⟨y, hy, -, -, -, hj⟩ := hp.issues
  unfold Gives judgeNames at hj
  rw [bind_ok (me_run hp.thread), bind_getS] at hj
  simp only [hres, Option.isSome_none, Bool.false_eq_true, if_false] at hj
  by_contra hout
  have hbad : (groups i).any (fun n => decide (x.win ≤ n.toNat + 7)) = true :=
    List.any_eq_true.2 ⟨n, h, decide_eq_true (Nat.not_lt.1 hout)⟩
  simp only [hbad, Bool.or_true, if_true] at hj
  split at hj
  · cases hj
  · split at hj
    · split at hj <;> cases hj
    · cases hj

end

/-! The accesses. -/

/-- The page of a store is translated, and then may not be one that stores are forbidden of (10 R230). -/
theorem storePage_judges (ea : Word) (n : Nat) (k : Page → M Unit) (s : State) :
    ∃ g, (storePage ea n >>= k) s = (translate ea 1 >>= g) s ∧
      ∀ p, (p.attr = .rshr || s.inRegion p.pa n) = true → g p s = (trap 7 ea : M Unit) s := by
  unfold storePage
  refine ⟨_, bind_assoc_run _ _ _ _, fun p hforbidden => ?_⟩
  rw [bind_assoc_run, bind_getS, if_pos hforbidden]
  exact bind_error (trap_run _ _ _)

/-- The page of a block is translated before anything else of it (05 R132). -/
theorem loadBlock_translates (x : Thread) (ea : Word) (n ch : Nat) (k : List Word → M Unit) (s : State) :
    ∃ g, (loadBlock x ea n ch >>= k) s = (translate ea 0 >>= g) s := ⟨_, bind_assoc_run _ _ _ _⟩

/-- An access faults as its form says, in a window that holds no special name. -/
def FaultsAsFormed (i : Instr) : Prop :=
  ∀ (f : AccessForm), accessOf i = some f → ∀ (s : State) (x : Thread), Plain i s x → x.resume = {} → prv (s.slot s.cur).tstat = false →
    x.win ≤ 240 → f.base.toNat < x.win → (∀ n ∈ f.names, n < x.win) → addressChecks i f s x (s.resident x f.base.toNat + f.offset x.latch)

/-- A resident name of a window that holds no special name is not sdq (02 R29). -/
theorem resident_ne_sdq {n : BitVec 8} {win : Nat} (hwin : win ≤ 240) (hn : n.toNat < win) : n ≠ 246#8 := by
  rintro rfl
  have : 246 < win := hn
  omega

section
variable {i : Instr} {d a m b : BitVec 8} {size : Nat}

theorem load_faultsAsFormed {signed ro : Bool} (hi : loadOf i = some (d, a, m, size, signed, ro)) : FaultsAsFormed i := by
  have hexec : ∀ s, exec i s = runUnit i (fun w => loadScalar w d a m size signed ro) s := by
    cases i <;> cases hi <;> exact fun _ => rfl
  have hform : accessOf i = some ⟨a, fun l => word size * assembled l 8 m.toNat, size, false, [], true, !ro,
      fun _ p => ro && p.attr = .priv⟩ := by
    cases i <;> cases hi <;> rfl
  intro f hf s x hp hres hu _ ha _
  obtain rfl := Option.some.inj (hform.symm.trans hf)
  refine addressChecks_of_checks hp hu (hexec s) (.after (me_run hp.thread) (.after (latch_run hp.thread)
    (.after (plain_readOnce hp hres 0 _ ha) (.after (effective_fresh hp.thread hres)
      ⟨_, rfl, .ofAperture (fun hb => congrFun (if_pos ?_) s) nofun
        fun _ => ⟨_, rfl, fun p hf => congrFun (if_pos hf) s⟩⟩))))
  simpa using hb

theorem store_faultsAsFormed (hi : storeOf i = some (d, a, m, size)) : FaultsAsFormed i := by
  have hexec : ∀ s, exec i s = runUnit i (fun w => storeScalar w d a m size) s := by
    cases i <;> cases hi <;> exact fun _ => rfl
  have hform : accessOf i = some ⟨a, fun l => word size * assembled l 8 m.toNat, size, true, [d.toNat], true, true,
      fun s p => p.attr = .rshr || s.inRegion p.pa size⟩ := by
    cases i <;> cases hi <;> rfl
  intro f hf s x hp hres hu hwin ha hd
  obtain rfl := Option.some.inj (hform.symm.trans hf)
  have hd : d.toNat < x.win := hd _ List.mem_cons_self
  exact addressChecks_of_checks hp hu (hexec s) (.after (me_run hp.thread) (.after (latch_run hp.thread)
    (.after (plain_readOnce hp hres 0 _ ha) (.after (plain_readDataOnce hp hres 1 _ hd (resident_ne_sdq hwin hd))
      (.after (effective_fresh hp.thread hres)
        ⟨_, rfl, .ofAperture nofun nofun fun _ => storePage_judges _ _ _ s⟩)))))

theorem atomic_faultsAsFormed {k : Latch → Word → AtomicKind} (hi : atomicOf i = some (d, a, b, k)) : FaultsAsFormed i := by
  have hexec : ∃ kind, ∀ s, exec i s = runUnit i (fun w => atomic w d a b kind) s := by
    cases i <;> cases hi <;> exact ⟨_, fun _ => rfl⟩
  have hform : accessOf i = some ⟨a, fun _ => 0, 8, true, [b.toNat], true, false, fun s p => p.attr = .rshr || s.inRegion p.pa 8⟩ := by
    cases i <;> cases hi <;> rfl
  obtain ⟨kind, hexec⟩ := hexec
  intro f hf s x hp hres hu hwin ha hb
  obtain rfl := Option.some.inj (hform.symm.trans hf)
  have hb : b.toNat < x.win := hb _ List.mem_cons_self
  refine addressChecks_of_base hp hu (hexec s) (.after (me_run hp.thread) (.after (plain_readOnce hp hres 0 _ ha)
    (.after (plain_readOnce hp hres 1 _ hb)
      ⟨_, rfl, .ofAperture (fun _ => rfl) nofun fun _ => ?_⟩)))
  rw [bind_ok (me_run hp.thread)]
  simp only [hres, Option.isSome_none, Bool.false_eq_true, if_false]
  exact storePage_judges _ _ _ s

end

theorem lde_faultsAsFormed (d a m : BitVec 8) : FaultsAsFormed (.lde d a m) := by
  rintro _ ⟨⟩ s x hp hres hu - ha -
  exact addressChecks_of_checks hp hu (exec_lde d a m s) (.after (me_run hp.thread) (.after (latch_run hp.thread)
    (.after (plain_readOnce hp hres 0 _ ha) (.after (effective_fresh hp.thread hres)
      ⟨_, rfl, .ofAperture nofun (fun _ => rfl) nofun⟩))))

theorem stf_faultsAsFormed (d a m : BitVec 8) : FaultsAsFormed (.stf d a m) := by
  rintro _ ⟨⟩ s x hp hres hu hwin ha hd
  have hd : d.toNat < x.win := hd _ List.mem_cons_self
  exact addressChecks_of_checks hp hu (exec_stf d a m s) (.after (me_run hp.thread) (.after (latch_run hp.thread)
    (.after (plain_readOnce hp hres 0 _ ha) (.after (plain_readDataOnce hp hres 1 _ hd (resident_ne_sdq hwin hd))
      (.after (effective_fresh hp.thread hres)
        ⟨_, rfl, .ofAperture nofun (fun _ => rfl) nofun⟩)))))

theorem ldex_faultsAsFormed (d a m : BitVec 8) : FaultsAsFormed (.ldex d a m) := by
  rintro _ ⟨⟩ s x hp hres hu - ha -
  exact addressChecks_of_checks hp hu (exec_ldex d a m s) (.after (me_run hp.thread) (.after (latch_run hp.thread)
    (.after (plain_read hp _ ha) (.after (effective_fresh hp.thread hres)
      ⟨_, rfl, .ofAperture (fun _ => rfl) nofun fun _ => storePage_judges _ _ _ s⟩))))

theorem vld_faultsAsFormed (d a m : BitVec 8) : FaultsAsFormed (.vld d a m) := by
  rintro _ ⟨⟩ s x hp hres hu - ha -
  refine addressChecks_of_checks hp hu (exec_vld d a m s) (.after (me_run hp.thread) (.after (latch_run hp.thread)
    (.after (checkGroup_ok hp.thread (plain_group hp hres List.mem_cons_self))
      (.after (plain_readOnce hp hres 0 _ ha) (.after (effective_fresh hp.thread hres)
        ⟨_, rfl, .ofAperture nofun nofun fun _ => ?_⟩)))))
  obtain ⟨g, hg⟩ := loadBlock_translates _ _ _ _ _ s
  exact ⟨g, hg, nofun⟩

theorem vst_faultsAsFormed (d a m : BitVec 8) : FaultsAsFormed (.vst d a m) := by
  rintro _ ⟨⟩ s x hp hres hu - ha -
  have hgroup : d.toNat + 7 < x.win := plain_group hp hres List.mem_cons_self
  obtain ⟨vs, hvs⟩ := plain_readGroupOnce hp hres 1 (wordOf (.vst d a m)) hgroup
  exact addressChecks_of_checks hp hu (exec_vst d a m s) (.after (me_run hp.thread) (.after (latch_run hp.thread)
    (.after (checkGroup_ok hp.thread hgroup) (.after (plain_readOnce hp hres 0 _ ha) (.after hvs
      (.after (effective_fresh hp.thread hres)
        ⟨_, rfl, .ofAperture nofun nofun fun _ => storePage_judges _ _ _ s⟩))))))

/-- HOLD and UNHOLD take any address of a COH page outside the format regions (10 R241). -/
theorem holdPage_checks (a : BitVec 8) (ea : Word) (s : State) :
    Checks ⟨a, fun _ => 0, 1, true, [], true, false, fun s p => p.attr != .coh || s.inRegion (p.pa / 32 * 32) 32⟩ (holdPage ea) s ea := by
  unfold holdPage
  exact .ofByte rfl (.ofAperture (fun _ => rfl) nofun fun _ => ⟨_, rfl, fun p hf => congrFun (if_pos hf) s⟩)

theorem hold_faultsAsFormed (d a : BitVec 8) : FaultsAsFormed (.hold d a) := by
  rintro _ ⟨⟩ s x hp hres hu - ha -
  exact addressChecks_of_base hp hu (exec_hold d a s) (.after (plain_readOnce hp hres 0 _ ha) ((holdPage_checks a _ s).bind _))

theorem unhold_faultsAsFormed (d a : BitVec 8) : FaultsAsFormed (.unhold d a) := by
  rintro _ ⟨⟩ s x hp hres hu - ha -
  exact addressChecks_of_base hp hu (exec_unhold d a s) (.after (plain_readOnce hp hres 0 _ ha) ((holdPage_checks a _ s).bind _))

theorem tsprobe_faultsAsFormed (d a : BitVec 8) : FaultsAsFormed (.tsprobe d a) := by
  rintro _ ⟨⟩ s x hp hres hu - ha -
  exact addressChecks_of_base hp hu (exec_tsprobe d a s) (.after (plain_read hp _ ha)
    (.ofByte rfl (.ofAperture (fun _ => rfl) nofun fun _ => ⟨_, rfl, fun p hf => congrFun (if_pos hf) s⟩)))

theorem access_faultsAsFormed (i : Instr) : FaultsAsFormed i := by
  cases i
  case lde => exact lde_faultsAsFormed _ _ _
  case ldex => exact ldex_faultsAsFormed _ _ _
  case stf => exact stf_faultsAsFormed _ _ _
  case vld => exact vld_faultsAsFormed _ _ _
  case vst => exact vst_faultsAsFormed _ _ _
  case hold => exact hold_faultsAsFormed _ _
  case unhold => exact unhold_faultsAsFormed _ _
  case tsprobe => exact tsprobe_faultsAsFormed _ _
  case ldb => exact load_faultsAsFormed rfl
  case ldbu => exact load_faultsAsFormed rfl
  case ldh => exact load_faultsAsFormed rfl
  case ldhu => exact load_faultsAsFormed rfl
  case lds => exact load_faultsAsFormed rfl
  case ldsu => exact load_faultsAsFormed rfl
  case ldw => exact load_faultsAsFormed rfl
  case ldro => exact load_faultsAsFormed rfl
  case stb => exact store_faultsAsFormed rfl
  case sth => exact store_faultsAsFormed rfl
  case sts => exact store_faultsAsFormed rfl
  case stw => exact store_faultsAsFormed rfl
  case aadd => exact atomic_faultsAsFormed rfl
  case aswp => exact atomic_faultsAsFormed rfl
  case acas => exact atomic_faultsAsFormed rfl
  case amin => exact atomic_faultsAsFormed rfl
  case amax => exact atomic_faultsAsFormed rfl
  all_goals exact fun _ h => nomatch h

theorem laneCount_pos : ∀ code < 8, 0 < laneCount code := by decide

/-- A VLDN that names lanes checks its address as a load does; of one that names none the alignment is checked. -/
theorem vldn_faults {d a b : BitVec 8} {s : State} {x : Thread} (hp : Plain (.vldn d a b) s x) (hres : x.resume = {})
    (hu : prv (s.slot s.cur).tstat = false) (ha : a.toNat < x.win) (hb : b.toNat < x.win) :
    (s.resident x b.toNat ≠ 0 → addressChecks (.vldn d a b) ⟨a, fun _ => 0, 64, false, [b.toNat], true, true, fun _ _ => false⟩ s x
      (s.resident x a.toNat)) ∧
    (s.resident x b.toNat = 0 → (s.resident x a.toNat).toNat % 64 ≠ 0 → Faults (.vldn d a b) s x 4 (s.resident x a.toNat)) := by
  have hgroup := checkGroup_ok (w := wordOf (.vldn d a b)) hp.thread (plain_group hp hres (n := d) List.mem_cons_self)
  constructor
  · intro hB
    have hlanes : min (s.resident x b.toNat).toNat (laneCount (x.latch.aux % 8)) ≠ 0 := by
      have hpos := laneCount_pos _ (Nat.mod_lt x.latch.aux (by decide : 0 < 8))
      have hne : (s.resident x b.toNat).toNat ≠ 0 := fun h => hB (BitVec.eq_of_toNat_eq h)
      omega
    refine addressChecks_of_checks hp hu (exec_vldn d a b s) (.after (me_run hp.thread) (.after (latch_run hp.thread)
      (.after (laneCode_run hp.thread) (.after hgroup (.after (plain_readOnce hp hres 0 _ ha) (.after (plain_readOnce hp hres 1 _ hb)
        (.after (effective_fresh hp.thread hres) ?_)))))))
    simp only [hlanes, if_false]
    refine ⟨_, rfl, .ofAperture nofun nofun fun _ => ?_⟩
    obtain ⟨g, hg⟩ := loadBlock_translates _ _ _ _ _ s
    exact ⟨g, hg, nofun⟩
  · intro hB halign
    have hbad : ((s.resident x a.toNat).toNat % 64 != 0) = true := bne_iff_ne.2 halign
    refine faults_of_trap hp hu (exec_vldn d a b s) ?_
    rw [bind_ok (me_run hp.thread), bind_ok (latch_run hp.thread), bind_ok (laneCode_run hp.thread), bind_ok hgroup,
      bind_ok (plain_readOnce hp hres 0 _ ha), bind_ok (plain_readOnce hp hres 1 _ hb),
      bind_ok (effective_fresh hp.thread hres), hB]
    simp only [if_true, checkAlign, hbad]
    exact bind_error (trap_run _ _ _)

/-! A window that holds the name of sdq: the data of a store of that name come from the queue, not from the resident name (02 R29). A thread
that the package makes has at most 128 names (02 R27), but the statement bounds no window. -/

/-- A thread of context 1 in slot 0 of core 0 with names 0 to 247 resident, whose sdq holds one poisoned word. -/
def wideThread : Thread := { newThread 0 1 0 none 0 248 0 0x100000 with sdq := [(0, true)] }

/-- A state of that thread in which the name 0 holds the first address outside the space. -/
def wideState : State := { cores := [(0, {
  slots := [(0, { thread := some wideThread })]
  rf := [(0, { val := 1 <<< 55 })] })] }

/-- Nothing but registers stands in the way of the thread: its resident names hold no poison. -/
theorem wideState_plain : Plain (.stw 246 0 0) wideState wideThread where
  thread := rfl
  issues := ⟨wideThread, rfl, rfl, by decide, by decide, rfl⟩
  single := rfl
  sound := rfl
  clean := fun k _ => by
    cases k with
    | zero => rfl
    | succ k =>
      have hfind : find [(0, ({ val := 1 <<< 55 } : Reg))] (0 + (k + 1)) = none := by rw [find, if_neg (by omega), find]
      exact congrArg (fun r => (Option.getD r {}).poison) hfind
  open_ := rfl
  room := by decide

/-- The unit consumes the poisoned word, and its thread is killed before its address is checked (15 R364): it does not go on where a trap would
leave it. -/
theorem wideState_not_trapped : pcAfter (exec (.stw 246 0 0) wideState) ≠
    pcAfter (.next (wideState.takeTrap wideState.cur wideThread { cause := 7, value := 1 <<< 55 })) := by decide

/-- Refutes O17: it does not bound the window, and in one of 248 names a store of name 246 to an address outside the space is killed by the
poisoned head of sdq before its address is checked. In a window that holds no special name every access faults as its form says
(`access_faultsAsFormed`, `vldn_faults`). -/
theorem not_addressFaults : ¬ Obligations.AddressFaults := by
  unfold Obligations.AddressFaults
  rintro ⟨-, -, -, stores⟩
  obtain ⟨outsideFaults, -⟩ := stores (.stw 246 0 0) 246 0 0 8 rfl wideState wideThread (1 <<< 55) wideState_plain rfl rfl (by decide)
    (by decide) rfl (by decide)
  exact wideState_not_trapped (congrArg pcAfter (outsideFaults (by decide)))

end Sys2Proof.Proofs
end

