-- ==== Sys2Proof/Proofs/EngineCommands.lean ====
section
/-! The engine commands, and JWAIT and JPOLL (06 R158, R160, R161; 10 R248, R255). -/

namespace Sys2Proof.Proofs

open Sys2Proof.Machine Sys2Proof.Statements

theorem setSlot_setSlot (s : State) (tid : Nat) (v w : Slot) : (s.setSlot tid v).setSlot tid w = s.setSlot tid w := by
  simp only [State.setSlot, State.core_setCore, put_put]
  exact congrArg (fun m => { s with cores := m }) (put_put _ _ _ _)

theorem setBst_run (n : Nat) (s : State) : setBst n s = .ok ((), s.setSlot s.cur { s.slot s.cur with
    thread := (s.slot s.cur).thread.map (fun x => { x with bst := BitVec.ofNat 3 n }) }) := modMe_run _ _

/-! What an engine command reads leaves the state as it is, so it asks for its engine where it began (02 R52, R54; 09 R216). -/

theorem readGroupOnce_state {k : Nat} {w : IWord} {n : BitVec 8} {s t : State} {ws : List Word}
    (h : Gives (readGroupOnce k w n) s ws t) : t = s := by
  have keeps : Keeps (· = s) (readGroupOnce k w n) := by
    unfold readGroupOnce
    refine Keeps.bind keeps_me fun x => ?_
    split
    · exact Keeps.bind keeps_me fun _ => Keeps.pure _
    · exact Keeps.bind (keeps_checkGroup w n) fun _ => keeps_readResidents n.toNat 8
  exact keeps s ws t rfl h

theorem waitOlder_state {s t : State} {x : Thread} (hx : s.thread s.cur = some x) (h : Gives waitOlder s () t) : t = s := by
  rw [Gives, waitOlder_run hx] at h
  split at h
  · cases h
    rfl
  · cases h

/-- A destination that keeps the identity of a command (06 R158, R161). -/
def keepsIdentity (d : BitVec 8) : Bool := !(d = 247#8 || d = 254#8 || d = 255#8)

theorem keepsIdentity_eq (d : BitVec 8) : keepsIdentity d = decide (d ≠ 247#8 ∧ d ≠ 254#8 ∧ d ≠ 255#8) := by
  simp only [keepsIdentity, ne_eq, Bool.not_or, Bool.decide_and, decide_not]
  rw [Bool.and_assoc]

section
variable {kind : Nat} {d n : BitVec 8} {w : IWord} {s : State} {x : Thread} {ws : List Word}
  (hx : s.thread s.cur = some x) (hread : Gives (readGroupOnce 0 w n) s ws s) (hwait : Gives waitOlder s () s)
  (hhead : ¬(d = 251#8 ∧ (s.slot s.cur).compose = [])) (hrole : x.role = .single)
include hx hread hwait hhead hrole

/-- A command goes on with what its engine has answered. -/
theorem engineCommand_answered {r : Reply} {s3 s4 t : State} (hr : x.resume.reply = some r) (hraise : Gives (raisePts r.time) s () s3)
    (hwrite : Gives (writeName w d r.value) s3 () s4)
    (hretire : Retires (s4.setSlot s4.cur { s4.slot s4.cur with
      thread := (s4.slot s4.cur).thread.map (fun x => { x with bst := BitVec.ofNat 3 r.status }) }) t) :
    engineCommand kind d n w s = .ok ((), t) := by
  have status : BitVec.ofNat 3 (word r.status).toNat = BitVec.ofNat 3 r.status := by
    apply BitVec.eq_of_toNat_eq
    simp only [word, BitVec.toNat_ofNat]
    omega
  unfold engineCommand
  rw [bind_ok hread, bind_ok hwait, bind_ok (noHeader_ok hhead)]
  dsimp only
  rw [bind_ok (a := (r.value, [word r.status])) (t := s3) (by
    rw [outward_single hx hrole, bind_ok (me_run hx)]
    simp only [hr]
    rw [bind_ok hraise]
    rfl)]
  dsimp only
  rw [bind_ok hwrite, bind_ok (setBst_run _ _), List.headD_cons, status]
  exact hretire

/-- A command that its engine has not answered parks for it with the words of its parameter group (02 R54). -/
theorem engineCommand_asks (hr : x.resume.reply = none) (hpc : x.pc.toNat + 4 < 2 ^ 55) :
    engineCommand kind d n w s = .error (.begun (.engine kind ws (keepsIdentity d)) ws (bits (s.slot s.cur).tstat 7 3)
      x.resume.entered) := by
  have entered : s.entered = x.resume.entered := by
    rw [State.entered, hx]
    rfl
  unfold engineCommand
  rw [bind_ok hread, bind_ok hwait, bind_ok (noHeader_ok hhead)]
  dsimp only
  refine bind_error ?_
  rw [outward_single hx hrole, bind_ok (me_run hx)]
  simp only [hr]
  rw [bind_ok (checkNext_ok hx hpc), ← entered]
  rfl

end

/-- A thread that parks for its engine keeps the words of its unit's names and the flags that they raised, and counts none of its
recorded values as used. -/
theorem settle_engine {s : State} {x : Thread} (hx : s.thread s.cur = some x) (kind : Nat) (ws : List Word) (keep : Bool) (flags : Nat) :
    settle s.cur (.begun (.engine kind ws keep) ws flags []) s = .ok ((), s.setSlot s.cur { s.slot s.cur with
      thread := some { x with
        park := some (.engine kind ws keep)
        resume := { x.resume with
          operands := some ws
          used := 0
          flags := flags } } }) := by
  unfold settle
  simp only [List.isEmpty_nil, if_true]
  rw [bind_ok (modThread_run _ hx)]
  unfold parkThread
  simp only [bind_getS, State.thread_setSlot]
  rw [modThread_run _ (State.thread_setSlot _ _ _), setSlot_setSlot, State.slot_setSlot]
  rfl

/-- An engine command and its kind (06 R158; 10 R248, R255). -/
def isCommand (i : Instr) (kind : Nat) (d n : BitVec 8) : Prop :=
  (i = .mm d n ∧ kind = 0) ∨ (i = .mms d n ∧ kind = 1) ∨ (i = .cpy d n ∧ kind = 2) ∨ (i = .coll d n ∧ kind = 3)

theorem exec_command {i : Instr} {kind : Nat} {d n : BitVec 8} (hi : isCommand i kind d n) (s : State) :
    exec i s = runUnit i (engineCommand kind d n) s := by
  obtain ⟨rfl, rfl⟩ | ⟨rfl, rfl⟩ | ⟨rfl, rfl⟩ | ⟨rfl, rfl⟩ := hi <;> rfl

/-- The engine commands complete as `engineCommandsComplete` says, of a thread that has used none of its recorded values where its command
parks. -/
theorem engineCommands_complete {i : Instr} {kind : Nat} {d n : BitVec 8} (hi : isCommand i kind d n) {s s1 s2 : State} {x y : Thread}
    {ws : List Word} (hissues : Issues i s) (hx : s.thread s.cur = some x) (hread : Gives (readGroupOnce 0 (wordOf i) n) s ws s1)
    (hwait : Gives waitOlder s1 () s2) (hhead : ¬(d = 251#8 ∧ (s2.slot s2.cur).compose = [])) (hy : s2.thread s2.cur = some y)
    (hrole : y.role = .single) :
    (∀ r s3 s4 t, y.resume.reply = some r → Gives (raisePts r.time) s2 () s3 → Gives (writeName (wordOf i) d r.value) s3 () s4 →
      Retires (s4.setSlot s4.cur { s4.slot s4.cur with
        thread := (s4.slot s4.cur).thread.map (fun x => { x with bst := BitVec.ofNat 3 r.status }) }) t →
      exec i s = .next t) ∧
    (y.resume.reply = none → y.resume.entered = [] → y.resume.used = 0 → y.pc.toNat + 4 < 2 ^ 55 →
      exec i s = .next (s.setSlot s.cur { s.slot s.cur with
        thread := some { x with
          park := some (.engine kind ws (d ≠ 247#8 ∧ d ≠ 254#8 ∧ d ≠ 255#8))
          resume := { x.resume with
            operands := some ws
            flags := bits (s2.slot s2.cur).tstat 7 3 } } })) := by
  obtain rfl : s1 = s := readGroupOnce_state hread
  obtain rfl : s2 = s1 := waitOlder_state hx hwait
  obtain rfl : y = x := Option.some.inj (hy.symm.trans hx)
  rw [exec_command hi]
  refine ⟨fun r s3 s4 t hr h3 h4 ht => runUnit_ok hissues (engineCommand_answered hx hread hwait hhead hrole hr h3 h4 ht), ?_⟩
  intro hr hentered hused hpc
  have asks := engineCommand_asks (kind := kind) hx hread hwait hhead hrole hr hpc
  rw [hentered] at asks
  rw [runUnit_settled hissues asks (settle_engine hx _ _ _ _), keepsIdentity_eq, ← hused]

/-! JWAIT and JPOLL (06 R160, R161). -/

/-- An entry that no other JWAIT still waits for is freed. -/
theorem freeEntry_frees {core id uid : Nat} {s : State} (h : ∀ f ∈ (s.core core).status, f.jid = id → ∀ v ∈ f.waiting,
    v = uid ∨ ∀ p, s.byUid v = some p → p.2.resume.reply = none) : ∃ t, Gives (freeEntry core id uid) s () t ∧ EntryFreed s t core id := by
  have freed : (s.core core).status.filterMap (fun e => if e.jid = id then
      let left := e.waiting.filter (fun u => u != uid && (s.byUid u).any (fun p => p.2.resume.reply.isSome))
      if left.isEmpty then none else some { e with waiting := left }
    else some e) = (s.core core).status.filter (fun e => e.jid != id) := by
    refine (List.filterMap_congr fun f hf => ?_).trans (congrFun (List.filterMap_eq_filter (p := fun e : StatusEntry => e.jid != id)) _)
    by_cases hid : f.jid = id
    · have none_waits : f.waiting.filter (fun u => u != uid && (s.byUid u).any (fun p => p.2.resume.reply.isSome)) = [] := by
        refine List.filter_eq_nil_iff.2 fun v hv => ?_
        obtain rfl | hp := h f hf hid v hv
        · simp
        · cases hu : s.byUid v with
          | none => simp
          | some p => simp [hp p hu]
      simp [hid, none_waits, Option.guard]
    · simp [hid, Option.guard]
  exact ⟨_, rfl, congrArg (fun l => s.setCore core { s.core core with status := l }) freed⟩

section
variable {A : Word} {id : Nat} {s : State} {x : Thread} (hx : s.thread s.cur = some x) (hid : id = bits A 15 0)
include hx hid

/-- A job that has been answered to its JWAIT gives what it was answered. -/
theorem jobWord_replied {s1 : State} {r : Reply} (hr : x.resume.reply = some r) (hraise : Gives (raisePts r.time) s () s1)
    (h : ∀ f ∈ (s1.core (coreOf s.cur)).status, f.jid = id → ∀ v ∈ f.waiting,
      v = x.uid ∨ ∀ p, s1.byUid v = some p → p.2.resume.reply = none) :
    ∃ t, Gives (jobWord true A) s r.value t ∧ EntryFreed s1 t (coreOf s.cur) id := by
  obtain ⟨t, ht, hfreed⟩ := freeEntry_frees h
  refine ⟨t, ?_, hfreed⟩
  rw [Gives, jobWord]
  dsimp only
  rw [bind_ok (me_run hx), bind_ok (myCore_run s)]
  simp only [hr]
  rw [bind_ok hraise, ← hid, bind_ok ht]
  rfl

variable (hr : x.resume.reply = none)
include hr

theorem jobWord_absent (wait : Bool) (h : s.statusOf (coreOf s.cur) x id = none) : Gives (jobWord wait A) s 8 s := by
  rw [Gives, jobWord]
  dsimp only
  rw [bind_ok (me_run hx), bind_ok (myCore_run s)]
  simp only [hr, bind_getS]
  rw [← hid, h]
  rfl

theorem jobWord_runs {e : StatusEntry} (he : s.statusOf (coreOf s.cur) x id = some e) (hended : e.ended = none) :
    Gives (jobWord false A) s 1 s ∧
      jobWord true A s = .error (.begun (.job id) [A] (bits (s.slot s.cur).tstat 7 3) x.resume.entered) := by
  have entered : s.entered = x.resume.entered := by
    rw [State.entered, hx]
    rfl
  constructor
  · rw [Gives, jobWord]
    dsimp only
    rw [bind_ok (me_run hx), bind_ok (myCore_run s)]
    simp only [hr, bind_getS]
    rw [← hid, he]
    simp only [hended]
    rfl
  · rw [jobWord]
    dsimp only
    rw [bind_ok (me_run hx), bind_ok (myCore_run s)]
    simp only [hr, bind_getS]
    rw [← hid, he]
    simp only [hended]
    rw [← entered]
    rfl

theorem jobWord_ended {e : StatusEntry} {w : Word} {u : Stamp} {s1 : State} (he : s.statusOf (coreOf s.cur) x id = some e)
    (hended : e.ended = some (w, u)) (hraise : Gives (raisePts u) s () s1) : Gives (jobWord false A) s w s1 ∧
      ((∀ f ∈ (s1.core (coreOf s.cur)).status, f.jid = id → ∀ v ∈ f.waiting,
        v = x.uid ∨ ∀ p, s1.byUid v = some p → p.2.resume.reply = none) →
        ∃ t, Gives (jobWord true A) s w t ∧ EntryFreed s1 t (coreOf s.cur) id) := by
  have gives : ∀ wait, jobWord wait A s =
      (if wait then do
        freeEntry (coreOf s.cur) id x.uid
        return w
      else pure w : M Word) s1 := fun wait => by
    rw [jobWord]
    dsimp only
    rw [bind_ok (me_run hx), bind_ok (myCore_run s)]
    simp only [hr, bind_getS]
    rw [← hid, he]
    simp only [hended]
    rw [bind_ok hraise]
  refine ⟨gives false, fun h => ?_⟩
  obtain ⟨t, ht, hfreed⟩ := freeEntry_frees h
  refine ⟨t, ?_, hfreed⟩
  rw [Gives, gives, if_pos rfl, bind_ok ht]
  rfl

end

/-- JWAIT and JPOLL complete as the second half of O34 says. -/
theorem jobStatus_completes : jobStatusCompletes := by
  refine ⟨?_, ?_, ?_, ?_⟩
  · intro d a s s1 s2 s3 t A v hi ha hv hw ht
    rw [exec_jwait]
    refine runUnit_ok hi ?_
    rw [bind_ok ha, bind_ok hv, bind_ok hw]
    exact ht
  · intro d a s s1 s2 s3 t A v hi ha hv hw ht
    rw [exec_jpoll]
    refine runUnit_ok hi ?_
    rw [bind_ok ha, bind_ok hv, bind_ok hw]
    exact ht
  · rintro A id core s x hx hr hid rfl
    exact ⟨fun h => ⟨jobWord_absent hx hid hr true h, jobWord_absent hx hid hr false h⟩, fun e he hended => jobWord_runs hx hid hr he hended,
      fun e w u s1 he hended hraise => jobWord_ended hx hid hr he hended hraise⟩
  · rintro A id core s s1 x r hx hr hid rfl hraise h
    exact jobWord_replied hx hid hr hraise h

/-! A command that parks counts none of its thread's recorded values as used, whatever it counted before. -/

/-- A thread of context 1 in slot 0 of core 0 with names 0 to 127 resident, which has recorded no value and counts one as used. -/
def countsOne : Thread := { newThread 0 1 0 none 0 128 0 0x100000 with resume := { used := 1 } }

def countsOneState : State := { cores := [(0, { slots := [(0, { thread := some countsOne })] })] }

/-- How many recorded values the unit of the thread at slot 0 counts as used after a step. -/
def usedAfter : Host.Outcome State Fault Refusal → Option Nat
  | .next t => (t.thread 0).map (·.resume.used)
  | _ => none

theorem countsOneState_issues : Issues (.mm 4 8) countsOneState := ⟨countsOne, rfl, rfl, by decide, by decide, rfl⟩

theorem countsOneState_parks : usedAfter (exec (.mm 4 8) countsOneState) = some 0 := by decide

/-- Refutes O34: of a command whose engine has not answered it says that the thread parks with the count of its recorded values that its
unit has used as it was, and does not say that the count is 0. The unit begins anew, so the model clears the count: here it was 1 with no
value recorded. With the count 0 the commands complete as O34 says (`engineCommands_complete`), and so do JWAIT and JPOLL
(`jobStatus_completes`). -/
theorem not_engineInstructionsComplete : ¬ Obligations.EngineInstructionsComplete := by
  unfold Obligations.EngineInstructionsComplete
  rintro ⟨commands, -⟩
  obtain ⟨-, asks⟩ := commands (.mm 4 8) 0 4 8 (.inl ⟨rfl, rfl⟩) countsOneState countsOneState countsOneState countsOne countsOne
    (List.replicate 8 0) countsOneState_issues rfl rfl rfl (by decide) rfl rfl
  have parks := congrArg usedAfter (asks rfl rfl (by decide))
  rw [countsOneState_parks] at parks
  exact absurd parks (by decide)

end Sys2Proof.Proofs
end

