-- ==== Sys2Proof/Proofs/TileSums.lean ====
section
/-! Products, the sum of a chunk and what a tile-step adds to an accumulator (06 R144, R145). -/

namespace Sys2Proof.Proofs

open Sys2Proof.Machine Sys2Proof.Statements

theorem fpMul_value (a b : Bool) (m n : Nat) (e f : Int) :
    valueOf (fpMul (.fin a m e) (.fin b n f)).1 = valueOf (.fin a m e) * valueOf (.fin b n f) := by
  have : (2 : ℚ) ^ (e + f) = 2 ^ e * 2 ^ f := zpow_add₀ (by norm_num) e f
  cases a <;> cases b <;> simp [fpMul, valueOf, this] <;> ring

/-- A partial sum, as a multiple of a power of two, with one more product. -/
def addTerm (t : Int × Int) : Fp → Int × Int
  | .fin n m e =>
    if m = 0 then t
    else (t.1 * 2 ^ (t.2 - min t.2 e).toNat + (if n then -((m * 2 ^ (e - min t.2 e).toNat : Nat) : Int)
      else ((m * 2 ^ (e - min t.2 e).toNat : Nat) : Int)), min t.2 e)
  | _ => t

/-- Whether a list of values has none but finite ones. -/
def allFinite (l : List Fp) : Prop := ∀ x ∈ l, ∃ n m e, x = .fin n m e

theorem sumProducts_finite {l : List Fp} (h : allFinite l) : sumProducts l =
    if (l.foldl addTerm (0, 0)).1 = 0 then .fin false 0 0
    else .fin (decide ((l.foldl addTerm (0, 0)).1 < 0)) (l.foldl addTerm (0, 0)).1.natAbs (l.foldl addTerm (0, 0)).2 := by
  have hnan : l.any Fp.isNan = false := List.any_eq_false.2 fun x hx => by
    obtain ⟨n, m, e, rfl⟩ := h x hx
    simp [Fp.isNan]
  have hinf : ∀ b, l.any (fun x => decide (x = .inf b)) = false := fun b => List.any_eq_false.2 fun x hx => by
    obtain ⟨n, m, e, rfl⟩ := h x hx
    simp
  unfold sumProducts
  simp only [hnan, hinf, Bool.and_self, Bool.or_self, Bool.false_eq_true, if_false]
  rfl

theorem units_lower {lo k : ℤ} (h : lo ≤ k) (c : ℚ) : c * 2 ^ (k - lo).toNat * 2 ^ lo = c * 2 ^ k := by
  rw [mul_assoc, ← zpow_natCast, Int.toNat_of_nonneg (by omega), ← zpow_add₀ (by norm_num), sub_add_cancel]

theorem addTerm_value (t : Int × Int) (n : Bool) (m : Nat) (e : Int) :
    ((addTerm t (.fin n m e)).1 : ℚ) * 2 ^ (addTerm t (.fin n m e)).2 = t.1 * 2 ^ t.2 + valueOf (.fin n m e) := by
  unfold addTerm
  dsimp only
  split
  · next h => simp [valueOf, h]
  · have h1 := units_lower (min_le_left t.2 e) t.1
    have h2 := units_lower (min_le_right t.2 e) m
    cases n
    · simp only [valueOf, Bool.false_eq_true, if_false]
      push_cast
      rw [add_mul, h1, h2]
      ring
    · simp only [valueOf, if_true]
      push_cast
      rw [add_mul, h1, neg_mul, h2]
      ring

theorem foldl_addTerm_value {l : List Fp} (h : allFinite l) (t : Int × Int) :
    ((l.foldl addTerm t).1 : ℚ) * 2 ^ (l.foldl addTerm t).2 = t.1 * 2 ^ t.2 + (l.map valueOf).sum := by
  induction l generalizing t with
  | nil => simp
  | cons x l ih =>
    obtain ⟨n, m, e, rfl⟩ := h x List.mem_cons_self
    rw [List.foldl_cons, ih (fun y hy => h y (List.mem_cons_of_mem _ hy)), addTerm_value, List.map_cons, List.sum_cons, add_assoc]

/-- An integer in units is the finite value of its sign and magnitude. -/
theorem valueOf_natAbs (s e : ℤ) : valueOf (.fin (decide (s < 0)) s.natAbs e) = s * 2 ^ e := by
  dsimp only [valueOf]
  obtain h | h := lt_or_ge s 0
  · rw [if_pos (decide_eq_true h), Nat.cast_natAbs, abs_of_neg h]
    push_cast
    ring
  · rw [if_neg (by simpa using h), Nat.cast_natAbs, abs_of_nonneg h, one_mul]

/-- The sum of finite products is exact, and an exact zero is +0. -/
theorem sumProducts_exact {l : List Fp} (h : allFinite l) : ∃ n m e, sumProducts l = .fin n m e ∧
    valueOf (sumProducts l) = (l.map valueOf).sum ∧ ((l.map valueOf).sum = 0 → sumProducts l = .fin false 0 0) := by
  have value := foldl_addTerm_value h (0, 0)
  rw [Int.cast_zero, zero_mul, zero_add] at value
  rw [sumProducts_finite h]
  split
  · next hs =>
    rw [hs, Int.cast_zero, zero_mul] at value
    exact ⟨_, _, _, rfl, by rw [← value]; simp [valueOf], fun _ => rfl⟩
  · next hs =>
    refine ⟨_, _, _, rfl, by rw [valueOf_natAbs, value], fun h0 => absurd ?_ hs⟩
    rw [h0] at value
    exact_mod_cast (mul_eq_zero.1 value).resolve_right (by positivity)

theorem sumProducts_nan {l : List Fp} (h : (∃ x ∈ l, x.isNan = true) ∨ (.inf false ∈ l ∧ .inf true ∈ l)) : sumProducts l = .nan false := by
  have : (l.any Fp.isNan || (l.any (fun x => x = .inf false) && l.any (fun x => x = .inf true))) = true := by
    simpa [List.any_eq_true] using h
  unfold sumProducts
  simp only [this, if_true]

/-- Infinite products of one sign, and no NaN, give their infinity. -/
theorem sumProducts_inf {l : List Fp} (hnan : ∀ x ∈ l, x.isNan = false) {b : Bool} (hin : .inf b ∈ l) (hout : .inf (!b) ∉ l) :
    sumProducts l = .inf b := by
  have nan : l.any Fp.isNan = false := by simpa [List.any_eq_false] using hnan
  have here : l.any (fun x => decide (x = .inf b)) = true := by simpa [List.any_eq_true] using hin
  have there : l.any (fun x => decide (x = .inf (!b))) = false := by
    rw [List.any_eq_false]
    rintro x hx h
    exact hout (of_decide_eq_true h ▸ hx)
  unfold sumProducts
  cases b <;> simp only [Bool.not_false, Bool.not_true] at there <;> simp [nan, here, there]

theorem chunksExact_holds : chunksExact :=
  ⟨fpMul_value, fun s y => by cases y <;> exact ⟨rfl, rfl⟩, fun a b e => ⟨rfl, rfl⟩,
    fun a b m e hm => by rw [fpMul, if_neg hm],
    fun _ h => sumProducts_exact h,
    fun _ => ⟨sumProducts_nan, fun hnan hin hout => sumProducts_inf hnan hin hout, fun hnan hin hout => sumProducts_inf hnan hin hout⟩⟩

end Sys2Proof.Proofs
end

