-- ==== Sys2Proof/Proofs/TileSteps.lean ====
section
/-! What a tile-step of each class does to an accumulator (06 R144, R149, R150). -/

namespace Sys2Proof.Proofs

open Sys2Proof.Machine Sys2Proof.Statements

/-- The entry of row `x` and column `y` in a table of rows by columns, row by row. -/
theorem getElem?_table {α β γ : Type} (f : α → β → γ) {a : List α} {b : List β} {x y : Nat} (hx : x < a.length) (hy : y < b.length) :
    (a.flatMap (fun r => b.map (f r)))[x * b.length + y]? = some (f a[x] b[y]) := by
  induction a generalizing x with
  | nil => cases hx
  | cons r a ih =>
    rw [List.flatMap_cons]
    cases x with
    | zero =>
      rw [Nat.zero_mul, Nat.zero_add, List.getElem?_append_left (by simpa using hy), List.getElem?_map, List.getElem?_eq_getElem hy]
      rfl
    | succ x =>
      have past : (b.map (f r)).length ≤ (x + 1) * b.length + y := by
        rw [List.length_map, Nat.succ_mul]
        omega
      rw [List.getElem?_append_right past, List.length_map, Nat.succ_mul, Nat.add_right_comm, Nat.add_sub_cancel,
        ih (Nat.lt_of_succ_lt_succ hx)]
      rfl

/-- Finite factors give no special product, so their pair's step has no tag (06 R150). -/
theorem no_special {u v : List Fp} (h : allFinite (u ++ v)) :
    (List.zipWith (fun s t => (fpMul s t).1) u v).filter (fun y => tagOfValue y != 0) = [] := by
  refine List.filter_eq_nil_iff.2 fun z hz => ?_
  rw [← List.map_uncurry_zip_eq_zipWith] at hz
  obtain ⟨⟨s, t⟩, hst, rfl⟩ := List.mem_map.1 hz
  obtain ⟨hs, ht⟩ := List.of_mem_zip hst
  obtain ⟨n, k, e, rfl⟩ := h s (List.mem_append_left _ hs)
  obtain ⟨i, j, g, rfl⟩ := h t (List.mem_append_right _ ht)
  simp [fpMul, tagOfValue]

section
variable {a b : List (List Nat)} {acc : List (BitVec 128)} {x y : Nat} {X : BitVec 128} (hx : x < a.length) (hy : y < b.length)
  (hX : acc[x * b.length + y]? = some X)
include hx hy hX

/-- The accumulator of a row and a column meets what the row of A and the column of B give, each as it is prepared for its class. -/
theorem getElem?_step {α β γ : Type} (step : BitVec 128 → γ → BitVec 128) (row : List Nat → α) (col : List Nat → β) (f : α → β → γ) :
    (List.zipWith step acc ((a.map row).flatMap (fun r => (b.map col).map (f r))))[x * b.length + y]? =
      some (step X (f (row (a.getD x [])) (col (b.getD y [])))) := by
  have table : ((a.map row).flatMap (fun r => (b.map col).map (f r)))[x * b.length + y]? = some (f (row a[x]) (col b[y])) := by
    simp only [List.flatMap_map, List.map_map]
    exact getElem?_table (fun r c => f (row r) (col c)) hx hy
  rw [List.getElem?_zipWith, hX, table, List.getD_eq_getElem _ _ hx, List.getD_eq_getElem _ _ hy]

omit hx hy in
/-- The accumulators of a step that has some are those of the step. -/
theorem given_accumulators : (if acc.isEmpty then List.replicate (a.length * b.length) 0 else acc) = acc := by
  rw [if_neg]
  intro h
  rw [List.isEmpty_iff.1 h] at hX
  cases hX

variable (m : MatJob) (p : MatPos)

theorem accumulate_integer (hc : m.cls = some .integer) : (m.accumulate p acc a b)[x * b.length + y]? = some (BitVec.ofNat 128
    (((X.toNat : Int) + (List.zipWith (fun u v => intElem m.fa u * intElem m.fb v) (a.getD x []) (b.getD y [])).sum) %
      2 ^ m.accBits).toNat) := by
  unfold MatJob.accumulate
  simp only [given_accumulators hX, hc]
  rw [getElem?_step hx hy hX, List.zipWith_map, ← List.sum_eq_foldl]

theorem accumulate_float (hc : m.cls = some .float) : (m.accumulate p acc a b)[x * b.length + y]? = some (BitVec.ofNat 128
    (m.accFmt.write 0 (fpAdd 0 (m.accFmt.read X.toNat) (sumProducts (List.zipWith
      (fun u v => (fpMul ((matFmt m.fa).read u) ((matFmt m.fb).read v)).1) (a.getD x []) (b.getD y [])))).1).1) := by
  unfold MatJob.accumulate
  simp only [given_accumulators hX, hc]
  rw [if_neg nofun, getElem?_step hx hy hX, List.zipWith_map]

theorem accumulate_logarithmic (hc : m.cls = some .logarithmic) : (m.accumulate p acc a b)[x * b.length + y]? = some (BitVec.ofNat 128
    (m.accFmt.write 0 (fpAdd 0 (m.accFmt.read X.toNat) (sumProducts (List.zipWith
      (fun u v => logProduct (logElem m.fa u) (logElem m.fb v)) (a.getD x []) (b.getD y [])))).1).1) := by
  unfold MatJob.accumulate
  simp only [given_accumulators hX, hc, if_true]
  rw [getElem?_step hx hy hX, List.zipWith_map]

theorem accumulate_sliced {q r : Nat} {u v : List Fp} {e f : Int} (hc : m.cls = some .sliced)
    (hpair : (slicePairs m.s)[p.pair]? = some (q, r)) (hu : u = (a.getD x []).map (matFmt m.fa).read)
    (hv : v = (b.getD y []).map (matFmt m.fa).read) (hfin : allFinite (u ++ v)) (he : groupExponent u = some e)
    (hf : groupExponent v = some f) : (m.accumulate p acc a b)[x * b.length + y]? = some (extAdd X
      (List.zipWith (fun s t => sliceElem e q s * sliceElem f r t) u v).sum (e + f - 7 * ((q + r : Nat) : Int)) 0) := by
  unfold MatJob.accumulate
  simp only [given_accumulators hX, hc]
  rw [List.getD_eq_getElem?_getD, hpair, Option.getD_some, getElem?_step hx hy hX]
  simp only [← hu, ← hv, he, hf, no_special hfin, Option.getD_some]
  rw [List.zipWith_map, ← List.sum_eq_foldl]
  rfl

end

/-- A tile's first step finds its accumulators zero (06 R154). -/
theorem accumulate_first (m : MatJob) (p : MatPos) (a b : List (List Nat)) :
    m.accumulate p [] a b = m.accumulate p (List.replicate (a.length * b.length) 0) a b := by
  have zeros : (if (List.replicate (a.length * b.length) (0 : BitVec 128)).isEmpty then List.replicate (a.length * b.length) 0
      else List.replicate (a.length * b.length) 0) = List.replicate (a.length * b.length) (0 : BitVec 128) := ite_self _
  unfold MatJob.accumulate
  simp only [zeros, List.isEmpty_nil, if_true]

theorem chunksAccumulate_holds : chunksAccumulate := fun m p _ a b _ _ _ hx hy _ hX =>
  ⟨accumulate_integer hx hy hX m p, accumulate_float hx hy hX m p, accumulate_logarithmic hx hy hX m p, accumulate_first m p a b⟩

end Sys2Proof.Proofs
end

