-- ==== Sys2Proof/Proofs/Slices.lean ====
section
/-! Group exponents, slices and the pairs of slices (03 R79; 06 R147). -/

namespace Sys2Proof.Proofs

open Sys2Proof.Machine Sys2Proof.Statements

theorem abs_valueOf (n : Bool) (m : Nat) (k : Int) : |valueOf (.fin n m k)| = m * 2 ^ k := by
  have : (0 : ℚ) ≤ m * 2 ^ k := by positivity
  cases n <;> simp [valueOf, abs_of_nonneg this]

/-- The exponent of the least power of two above a magnitude. -/
def topOf (m : Nat) (k : Int) : Int := k + (Nat.log2 m : Int) + 1

theorem lt_topOf (m : Nat) (k : Int) : (m : ℚ) * 2 ^ k < 2 ^ topOf m k := by
  have h : (m : ℚ) < 2 ^ (Nat.log2 m + 1) := by exact_mod_cast Nat.lt_log2_self
  rw [show topOf m k = ((Nat.log2 m + 1 : ℕ) : ℤ) + k by unfold topOf; push_cast; ring, zpow_add₀ (by norm_num), zpow_natCast]
  exact mul_lt_mul_of_pos_right h (by positivity)

theorem topOf_le {m : Nat} (hm : m ≠ 0) (k : Int) : (2 : ℚ) ^ (topOf m k - 1) ≤ m * 2 ^ k := by
  have h : (2 : ℚ) ^ Nat.log2 m ≤ m := by exact_mod_cast Nat.log2_self_le hm
  rw [show topOf m k - 1 = (Nat.log2 m : ℤ) + k by unfold topOf; ring, zpow_add₀ (by norm_num), zpow_natCast]
  exact mul_le_mul_of_nonneg_right h (by positivity)

/-- An exponent with that of one more element. -/
def joinedExponent (t : Int) : Option Int → Int
  | none => t
  | some u => max t u

/-- A group's exponent once an element has joined it. -/
def raisedExponent (o : Option Int) : Fp → Option Int
  | .fin _ m k => if m = 0 then o else some (joinedExponent (topOf m k) o)
  | _ => o

theorem groupExponent_eq (l : List Fp) : groupExponent l = l.foldl raisedExponent none := rfl

/-- An exponent that elements have joined bounds them, and one of them reaches its half, or none has raised it. -/
theorem foldl_raisedExponent {l : List Fp} (h : allFinite l) {o : Option Int} {e : Int} (he : l.foldl raisedExponent o = some e) :
    (∀ u, o = some u → u ≤ e) ∧ (∀ x ∈ l, |valueOf x| < 2 ^ e) ∧ (o = some e ∨ ∃ x ∈ l, 2 ^ (e - 1) ≤ |valueOf x|) := by
  induction l generalizing o with
  | nil =>
    cases (show o = some e from he)
    exact ⟨fun u hu => (Option.some.inj hu).ge, nofun, .inl rfl⟩
  | cons x l ih =>
    obtain ⟨n, m, k, rfl⟩ := h x List.mem_cons_self
    obtain ⟨above, bounds, reached⟩ := ih (fun y hy => h y (List.mem_cons_of_mem _ hy)) he
    by_cases hm : m = 0
    · subst hm
      refine ⟨above, fun y hy => ?_, reached.imp id fun ⟨y, hy, hr⟩ => ⟨y, List.mem_cons_of_mem _ hy, hr⟩⟩
      obtain rfl | hy := List.mem_cons.1 hy
      · rw [abs_valueOf]
        simp only [Nat.cast_zero, zero_mul]
        positivity
      · exact bounds y hy
    · have joined : raisedExponent o (.fin n m k) = some (joinedExponent (topOf m k) o) := if_neg hm
      rw [joined] at above reached
      have top : topOf m k ≤ e ∧ ∀ u, o = some u → u ≤ e := by
        have := above _ rfl
        cases o with
        | none => exact ⟨this, nofun⟩
        | some u => exact ⟨(le_max_left _ _).trans this, fun v hv => Option.some.inj hv ▸ (le_max_right _ _).trans this⟩
      refine ⟨top.2, fun y hy => ?_, ?_⟩
      · obtain rfl | hy := List.mem_cons.1 hy
        · rw [abs_valueOf]
          exact (lt_topOf m k).trans_le (zpow_le_zpow_right₀ (by norm_num) top.1)
        · exact bounds y hy
      · have here : topOf m k = e → ∃ x ∈ Fp.fin n m k :: l, 2 ^ (e - 1) ≤ |valueOf x| := fun ht =>
          ⟨_, List.mem_cons_self, by rw [abs_valueOf, ← ht]; exact topOf_le hm k⟩
        obtain heq | ⟨y, hy, hr⟩ := reached
        · cases o with
          | none => exact .inr (here (Option.some.inj heq))
          | some u =>
            obtain hmax | hmax := max_choice (topOf m k) u
            · exact .inr (here (hmax.symm.trans (Option.some.inj heq)))
            · exact .inl (congrArg some (hmax.symm.trans (Option.some.inj heq)))
        · exact .inr ⟨y, List.mem_cons_of_mem _ hy, hr⟩

/-- The group exponent is the least that bounds its elements. -/
theorem groupExponent_least (l : List Fp) (e : Int) (h : ∀ x ∈ l, ∃ n m k, x = .fin n m k) (he : groupExponent l = some e) :
    (∀ x ∈ l, |valueOf x| < 2 ^ e) ∧ ∃ x ∈ l, 2 ^ (e - 1) ≤ |valueOf x| := by
  obtain ⟨-, bounds, reached⟩ := foldl_raisedExponent h (groupExponent_eq l ▸ he)
  exact ⟨bounds, reached.resolve_left nofun⟩

/-- The digits of a magnitude from a weight on, whether the weight cuts digits off or not. -/
theorem floor_scaled (m : Nat) (h : Int) :
    ⌊(m : ℚ) * 2 ^ h⌋ = ((if 0 ≤ h then m * 2 ^ h.toNat else m / 2 ^ (-h).toNat : Nat) : ℤ) := by
  split
  · next hh =>
    obtain ⟨n, rfl⟩ := Int.eq_ofNat_of_zero_le hh
    rw [Int.toNat_natCast, zpow_natCast]
    exact_mod_cast Int.floor_natCast (R := ℚ) (m * 2 ^ n)
  · next hh =>
    obtain ⟨n, rfl⟩ : ∃ n : ℕ, h = -(n : ℤ) := ⟨(-h).toNat, by omega⟩
    rw [neg_neg, Int.toNat_natCast, zpow_neg, zpow_natCast, ← div_eq_mul_inv]
    exact_mod_cast Rat.floor_natCast_div_natCast m (2 ^ n)

/-- A slice is the truncated digit of its weight, with its element's sign. -/
theorem sliceElem_digit (n : Bool) (m : Nat) (k e : Int) (p : Nat) :
    ((sliceElem e p (.fin n m k)).natAbs : Int) = ⌊(m : ℚ) * 2 ^ (k + 7 * p - e)⌋ % 128 ∧
    (sliceElem e p (.fin n m k) < 0 → n = true) ∧ (0 < sliceElem e p (.fin n m k) → n = false) := by
  rw [floor_scaled]
  unfold sliceElem
  dsimp only
  generalize (if 0 ≤ k + 7 * (p : Int) - e then m * 2 ^ (k + 7 * (p : Int) - e).toNat else m / 2 ^ (-(k + 7 * (p : Int) - e)).toNat) = d
  cases n
  · rw [if_neg Bool.false_ne_true, Int.natAbs_natCast]
    exact ⟨Int.natCast_mod d 128, fun h => absurd h (by omega), fun _ => rfl⟩
  · rw [if_pos rfl, Int.natAbs_neg, Int.natAbs_natCast]
    exact ⟨Int.natCast_mod d 128, fun _ => rfl, fun h => absurd h (by omega)⟩

/-! The pairs of slices that are kept, in their order (06 R147). -/

theorem mem_numbers {a n k : Nat} : k ∈ numbers a n ↔ a ≤ k ∧ k < a + n := by
  unfold numbers
  rw [List.mem_map]
  constructor
  · rintro ⟨i, hi, rfl⟩
    have := List.mem_range.1 hi
    omega
  · exact fun ⟨h1, h2⟩ => ⟨k - a, List.mem_range.2 (by omega), by omega⟩

theorem numbers_pairwise (a n : Nat) : (numbers a n).Pairwise (· < ·) :=
  List.pairwise_map.2 (List.pairwise_lt_range.imp fun h => by omega)

/-- The pairs of `s` slices whose numbers have the sum `t`, by the first. -/
def pairsOfSum (s t : Nat) : List (Nat × Nat) :=
  (numbers (max 1 (t - s)) (min s (t - 1) + 1 - max 1 (t - s))).map (fun p => (p, t - p))

theorem slicePairs_eq {s : Nat} (hs : 1 ≤ s) : slicePairs s = (numbers 0 s).flatMap (fun d => pairsOfSum s (s + 1 - d)) := by
  unfold slicePairs
  rw [if_neg (by omega)]
  rfl

theorem mem_pairsOfSum {s t p q : Nat} (hts : t ≤ s + 1) : (p, q) ∈ pairsOfSum s t ↔ 1 ≤ p ∧ 1 ≤ q ∧ p + q = t := by
  unfold pairsOfSum
  simp only [List.mem_map, mem_numbers, Prod.mk.injEq]
  constructor
  · rintro ⟨i, ⟨h1, h2⟩, rfl, rfl⟩
    omega
  · rintro ⟨hp, hq, rfl⟩
    exact ⟨p, ⟨by omega, by omega⟩, rfl, by omega⟩

theorem mem_slicePairs {s p q : Nat} (hs : 1 ≤ s) : (p, q) ∈ slicePairs s ↔ 1 ≤ p ∧ 1 ≤ q ∧ p + q ≤ s + 1 := by
  rw [slicePairs_eq hs, List.mem_flatMap]
  constructor
  · rintro ⟨d, -, hd⟩
    have := (mem_pairsOfSum (by omega)).1 hd
    omega
  · rintro ⟨hp, hq, hsum⟩
    exact ⟨s + 1 - (p + q), mem_numbers.2 (by omega), (mem_pairsOfSum (by omega)).2 (by omega)⟩

theorem slicePairs_ordered {s : Nat} (hs : 1 ≤ s) :
    (slicePairs s).Pairwise (fun a b => b.1 + b.2 < a.1 + a.2 ∨ (a.1 + a.2 = b.1 + b.2 ∧ a.1 < b.1)) := by
  rw [slicePairs_eq hs, List.pairwise_flatMap]
  constructor
  · intro d _
    have sums : ∀ a ∈ pairsOfSum s (s + 1 - d), a.1 + a.2 = s + 1 - d := fun a ha => ((mem_pairsOfSum (by omega)).1 ha).2.2
    have firsts : (pairsOfSum s (s + 1 - d)).Pairwise (fun a b => a.1 < b.1) := List.pairwise_map.2 (numbers_pairwise _ _)
    exact firsts.imp_of_mem fun ha hb h => .inr ⟨(sums _ ha).trans (sums _ hb).symm, h⟩
  · refine (numbers_pairwise 0 s).imp_of_mem fun {d e} hd he hde a ha b hb => .inl ?_
    have ha := (mem_pairsOfSum (by omega)).1 ha
    have hb := (mem_pairsOfSum (by omega)).1 hb
    have := mem_numbers.1 he
    omega

end Sys2Proof.Proofs
end

