-- ==== Sys2Proof/Proofs/ExtendedFormat.lean ====
section
/-! The accumulators' extended format (06 R148, R154): 96 significant bits, which hold a value of as many digits and round others to the
nearest. -/

namespace Sys2Proof.Proofs

open Sys2Proof.Machine Sys2Proof.Statements

theorem getLsbD_top (x : BitVec 128) : x.getLsbD 127 = decide (2 ^ 127 ≤ x.toNat) := by
  rw [← BitVec.msb_eq_getLsbD_last, BitVec.msb_eq_decide]

/-- The number that the fields of an accumulator make: sign, biased exponent, significand and tag. -/
def packExt (neg : Bool) (f n tag : Nat) : Nat := (if neg then 2 ^ 127 else 0) + f * 2 ^ 112 + n * 2 ^ 16 + tag

section
variable (neg : Bool) {f n tag : Nat} (hf : f < 2 ^ 15) (hn : n < 2 ^ 96) (ht : tag < 4)

include hf hn ht in
theorem packExt_lt : packExt neg f n tag < 2 ^ 128 := by
  unfold packExt
  split <;> omega

include hf hn ht in
theorem packExt_sign : 2 ^ 127 ≤ packExt neg f n tag ↔ neg = true := by
  unfold packExt
  split
  · next h => exact iff_of_true (by omega) h
  · next h => exact iff_of_false (by omega) h

include hn ht in
theorem packExt_significand : packExt neg f n tag / 2 ^ 16 % 2 ^ 96 = n := by
  unfold packExt
  split <;> omega

include hf hn ht in
theorem packExt_exponent : packExt neg f n tag / 2 ^ 112 % 2 ^ 15 = f := by
  unfold packExt
  split <;> omega

include ht in
theorem packExt_tag : packExt neg f n tag % 4 = tag := by
  unfold packExt
  split <;> omega

include hf hn ht in
theorem extRead_pack : extRead (BitVec.ofNat 128 (packExt neg f n tag)) =
    (if neg then -(n : Int) else n, (f : Int) - 16383 - 95, tag) := by
  have number : (BitVec.ofNat 128 (packExt neg f n tag)).toNat = packExt neg f n tag :=
    (BitVec.toNat_ofNat _ _).trans (Nat.mod_eq_of_lt (packExt_lt neg hf hn ht))
  have sign : (BitVec.ofNat 128 (packExt neg f n tag)).getLsbD 127 = neg := by
    rw [getLsbD_top, number, Bool.eq_iff_iff, decide_eq_true_iff, packExt_sign neg hf hn ht]
  unfold extRead
  rw [number, sign, packExt_significand neg hn ht, packExt_exponent neg hf hn ht, packExt_tag neg ht]

end

/-- The unit in the last place of the extended format at a value. -/
def extUnit (v e : Int) : Int := e + Nat.log2 v.natAbs - 95

/-- A value's magnitude rounded to its unit. -/
def extDigits (v e : Int) : Nat := (roundAt 0 (decide (v < 0)) v.natAbs e false (extUnit v e)).1

/-- The magnitude in its unit. -/
theorem ext_scaled (v e : Int) : ((v.natAbs : ℚ) * 2 ^ e) / 2 ^ extUnit v e = v.natAbs * 2 ^ (95 - Nat.log2 v.natAbs : ℤ) := by
  rw [mul_div_assoc, ← zpow_sub₀ (by norm_num), extUnit]
  congr 2
  ring

theorem extDigits_near (v e : Int) : |(extDigits v e : ℚ) - v.natAbs * 2 ^ e / 2 ^ extUnit v e| ≤ 1 / 2 := by
  obtain ⟨rounds, -⟩ := roundAt_roundsTo (mode := 0) (q := extUnit v e) (by norm_num) (decide (v < 0)) (scaled_exact v.natAbs e) nofun
  have near := (rounds.near (.inl rfl)).1
  rw [← extDigits] at near
  rw [← Rat.cast_le (K := ℝ)]
  push_cast
  exact near

section
variable {v : Int} (hv : v ≠ 0) (e : Int)
include hv

theorem ext_bounds : (2 : ℚ) ^ 95 ≤ v.natAbs * 2 ^ e / 2 ^ extUnit v e ∧ (v.natAbs : ℚ) * 2 ^ e / 2 ^ extUnit v e < 2 ^ 96 := by
  rw [ext_scaled]
  have h1 := topOf_le (Int.natAbs_ne_zero.2 hv) (95 - Nat.log2 v.natAbs)
  have h2 := lt_topOf v.natAbs (95 - Nat.log2 v.natAbs)
  have top : topOf v.natAbs (95 - Nat.log2 v.natAbs) = 96 := by unfold topOf; ring
  rw [top] at h1 h2
  exact ⟨by exact_mod_cast h1, by exact_mod_cast h2⟩

theorem extDigits_range : 2 ^ 95 ≤ extDigits v e ∧ extDigits v e ≤ 2 ^ 96 := by
  obtain ⟨lo, hi⟩ := ext_bounds hv e
  obtain ⟨near1, near2⟩ := abs_le.1 (extDigits_near v e)
  have h1 : ((2 ^ 95 : ℕ) : ℚ) < (extDigits v e + 1 : ℕ) := by push_cast; linarith
  have h2 : (extDigits v e : ℚ) < (2 ^ 96 + 1 : ℕ) := by push_cast; linarith
  have h1 : 2 ^ 95 < extDigits v e + 1 := by exact_mod_cast h1
  have h2 : extDigits v e < 2 ^ 96 + 1 := by exact_mod_cast h2
  omega

/-- A value of at most 96 digits is exact in its unit. -/
theorem extDigits_exact (h : v.natAbs < 2 ^ 96) : (extDigits v e : ℚ) = v.natAbs * 2 ^ e / 2 ^ extUnit v e := by
  have hlog : Nat.log2 v.natAbs < 96 := (Nat.log2_lt (Int.natAbs_ne_zero.2 hv)).2 h
  have below : extUnit v e ≤ e := by
    unfold extUnit
    omega
  unfold extDigits roundAt
  rw [if_pos below, mul_div_assoc, ← zpow_sub₀ (by norm_num)]
  push_cast
  rw [← zpow_natCast, Int.toNat_of_nonneg (by omega)]

end

/-- The digits and the unit that are written: those of the value, or half the digits in twice the unit where rounding has grown them by
one. -/
def extNormal (v e : Int) : Nat × Int :=
  if extDigits v e = 2 ^ 96 then (2 ^ 95, extUnit v e + 1) else (extDigits v e, extUnit v e)

theorem extWrite_eq {v e : Int} (hv : v ≠ 0) (tag : Nat) : extWrite v e tag = BitVec.ofNat 128
    (packExt (decide (v < 0)) (((extNormal v e).2 + 95 + 16383).toNat % 2 ^ 15) (extNormal v e).1 tag) := by
  unfold extWrite packExt
  simp only [if_neg hv, decide_eq_true_eq]
  rfl

theorem extNormal_value (v e : Int) : ((extNormal v e).1 : ℚ) * 2 ^ (extNormal v e).2 = extDigits v e * 2 ^ extUnit v e := by
  unfold extNormal
  split
  · next h =>
    rw [h, zpow_add₀ (by norm_num)]
    push_cast
    ring
  · rfl

theorem extNormal_lt {v : Int} (hv : v ≠ 0) (e : Int) : (extNormal v e).1 < 2 ^ 96 := by
  have := (extDigits_range hv e).2
  unfold extNormal
  split
  · norm_num
  · exact lt_of_le_of_ne this ‹_›

theorem extNormal_unit (v e : Int) : extUnit v e ≤ (extNormal v e).2 ∧ (extNormal v e).2 ≤ extUnit v e + 1 := by
  unfold extNormal
  split
  · exact ⟨by omega, le_rfl⟩
  · exact ⟨le_rfl, by omega⟩

section
variable {v e : Int} {tag : Nat} (hv : v ≠ 0) (htag : tag < 4) (hlo : -16383 ≤ e + Nat.log2 v.natAbs) (hhi : e + Nat.log2 v.natAbs < 16383)
include hv htag hlo hhi

/-- A value in the format's range reads as the digits and the unit that are written. -/
theorem extRead_extWrite : extRead (extWrite v e tag) =
    (if decide (v < 0) then -((extNormal v e).1 : Int) else ((extNormal v e).1 : Int), (extNormal v e).2, tag) := by
  have biased : ((((extNormal v e).2 + 95 + 16383).toNat % 2 ^ 15 : ℕ) : Int) - 16383 - 95 = (extNormal v e).2 := by
    have unit := extNormal_unit v e
    unfold extUnit at unit
    omega
  rw [extWrite_eq hv, extRead_pack _ (Nat.mod_lt _ (by norm_num)) (extNormal_lt hv e) htag, biased]

theorem extValue_extWrite : extValue (extWrite v e tag) = (if v < 0 then -1 else 1) * (extDigits v e * 2 ^ extUnit v e) := by
  rw [extValue, extRead_extWrite hv htag hlo hhi, ← extNormal_value]
  simp only [decide_eq_true_eq]
  split <;> push_cast <;> ring

end

/-- A value is its magnitude with its sign. -/
theorem eq_sign_mul (v : Int) (c : ℚ) : (v : ℚ) * c = (if v < 0 then -1 else 1) * (v.natAbs * c) := by
  rw [Nat.cast_natAbs]
  split
  · next h =>
    rw [abs_of_neg h]
    push_cast
    ring
  · next h => rw [abs_of_nonneg (not_lt.1 h), one_mul]

/-- The extended format holds 96 bits exactly and rounds to the nearest. -/
theorem extWrite_rounds (v e : Int) (tag : Nat) (hv : v ≠ 0) (htag : tag < 4) (hlo : -16383 ≤ e + Nat.log2 v.natAbs)
    (hhi : e + Nat.log2 v.natAbs < 16383) :
    (extRead (extWrite v e tag)).2.2 = tag ∧ (v.natAbs < 2 ^ 96 → extValue (extWrite v e tag) = v * 2 ^ e) ∧
    |extValue (extWrite v e tag) - v * 2 ^ e| ≤ 2 ^ (e + Nat.log2 v.natAbs - 96) := by
  have pos : (0 : ℚ) < 2 ^ extUnit v e := by positivity
  rw [extRead_extWrite hv htag hlo hhi, extValue_extWrite hv htag hlo hhi, eq_sign_mul]
  refine ⟨rfl, fun h => ?_, ?_⟩
  · rw [extDigits_exact hv e h, div_mul_cancel₀ _ pos.ne']
  · have unsigned : |(if v < 0 then -1 else 1 : ℚ)| = 1 := by split <;> simp
    have half : (2 : ℚ) ^ (e + Nat.log2 v.natAbs - 96) = 1 / 2 * 2 ^ extUnit v e := by
      rw [show e + (Nat.log2 v.natAbs : ℤ) - 96 = extUnit v e - 1 by unfold extUnit; ring, zpow_sub₀ (by norm_num), zpow_one]
      ring
    have scaled : (extDigits v e : ℚ) * 2 ^ extUnit v e - v.natAbs * 2 ^ e =
        (extDigits v e - v.natAbs * 2 ^ e / 2 ^ extUnit v e) * 2 ^ extUnit v e := by
      rw [sub_mul, div_mul_cancel₀ _ pos.ne']
    rw [← mul_sub, abs_mul, unsigned, one_mul, scaled, abs_mul, abs_of_pos pos, half]
    exact mul_le_mul_of_nonneg_right (extDigits_near v e) pos.le

theorem slicesAccumulate_holds : slicesAccumulate :=
  ⟨groupExponent_least, sliceElem_digit, ⟨rfl, fun _ _ _ hs => ⟨mem_slicePairs hs, slicePairs_ordered hs⟩⟩, extWrite_rounds,
    fun m pos _ _ _ _ _ _ _ _ _ _ _ _ hx hy _ hX hc hpair hu hv hfin he hf =>
      accumulate_sliced hx hy hX m pos hc hpair hu hv hfin he hf⟩

end Sys2Proof.Proofs
end

