-- ==== Sys2Proof/Proofs/TileResults.lean ====
section
/-! The value of a finished element (06 R144, R149, R150). -/

namespace Sys2Proof.Proofs

open Sys2Proof.Machine Sys2Proof.Statements

theorem plusZero_ne_minusZero {w : Nat} (v : Nat) : plusZero w v ≠ 2 ^ (w - 1) := by
  unfold plusZero
  split
  · exact (Nat.two_pow_pos _).ne
  · next h =>
    rintro rfl
    exact h (Nat.mod_self _)

section
variable {m : MatJob} (x : BitVec 128)

/-- An integer element adds C, sign-extended, modulo its width. -/
theorem result_integer (hc : m.cls = some .integer) : m.result x none = x.toNat % 2 ^ m.accBits ∧
    ∀ v < 2 ^ elemBits m.fc, m.result x (some v) =
      (((x.toNat : Int) + (if 2 ^ (elemBits m.fc - 1) ≤ v then (v : Int) - 2 ^ elemBits m.fc else v)) % 2 ^ m.accBits).toNat := by
  constructor
  · simp only [MatJob.result, hc, add_zero]
    exact_mod_cast Int.toNat_natCast (x.toNat % 2 ^ m.accBits)
  · intro v _
    simp only [MatJob.result, hc]

/-- A float or logarithmic element adds C rounded to the accumulator's format, and rounds to D's. -/
theorem result_float (hc : m.cls = some .float ∨ m.cls = some .logarithmic) (hx : x.toNat < 2 ^ 64) :
    m.result x none = plusZero (elemBits m.fd) ((matFmt m.fd).write 0 (m.accFmt.read x.toNat)).1 ∧
    ∀ v, m.result x (some v) = plusZero (elemBits m.fd) ((matFmt m.fd).write 0 (m.accFmt.read (m.accFmt.write 0 (fpAdd 0
      (m.accFmt.read x.toNat) (m.accFmt.read (m.accFmt.write 0 ((matFmt m.fc).read v)).1)).1).1)).1 := by
  have low : x.toNat % 2 ^ 64 = x.toNat := Nat.mod_eq_of_lt hx
  obtain hc | hc := hc <;> exact ⟨by simp only [MatJob.result, hc, low], fun v => by simp only [MatJob.result, hc]⟩

variable (hc : m.cls = some .sliced) {v e : Int}
include hc

/-- A sliced element adds C exactly and rounds once. -/
theorem result_sliced {s se : Int} (hx : extRead x = (v, e, 0)) (hs : s ≠ 0) {c : Nat} {n : Bool} {k : Nat} {ce : Int}
    (hread : (matFmt m.fc).read c = .fin n k ce) (hsum : exactSum (decide (v < 0)) v.natAbs e n k ce = (s, se)) :
    m.result x (some c) = plusZero (elemBits m.fd) ((matFmt m.fd).round 0 (decide (s < 0)) s.natAbs se).1 := by
  simp [MatJob.result, hc, hx, hread, hsum, hs, joinTags, tagOfValue]

/-- A sliced element whose tag is a special value is that value. -/
theorem result_special : (extRead x = (v, e, 3) → m.result x none = (matFmt m.fd).nanBits) ∧
    (extRead x = (v, e, 1) → m.result x none = (matFmt m.fd).signed false (matFmt m.fd).infBits) ∧
    (extRead x = (v, e, 2) → m.result x none = (matFmt m.fd).signed true (matFmt m.fd).infBits) := by
  refine ⟨fun hx => ?_, fun hx => ?_, fun hx => ?_⟩ <;> simp [MatJob.result, hc, hx, joinTags, tagOfValue]

end

theorem elementsFinished_holds : elementsFinished :=
  ⟨fun _ x hc => result_integer x hc, fun _ x hc hx => result_float x hc hx,
    fun _ x _ _ _ _ hc hx hs _ _ _ _ hread hsum => result_sliced x hc hx hs hread hsum, fun _ x _ _ hc => result_special x hc,
    fun _ v _ => plusZero_ne_minusZero v⟩

end Sys2Proof.Proofs
end

