-- ==== Sys2Proof/Proofs/EngineEvents.lean ====
section
/-! The events of the engines: the acceptance of a command, the tile-step, the publish and the saves (06 R139 to R159; 10 R248; 15 R378). -/

namespace Sys2Proof.Proofs

open Sys2Proof.Machine Sys2Proof.Statements

/-- A state with an engine of a cluster changed. -/
def withEngine (s : State) (k : Nat) (copy : Bool) (f : Engine → Engine) : State :=
  s.setCluster k (if copy then { s.cluster k with copy := f (s.cluster k).copy } else { s.cluster k with trestle := f (s.cluster k).trestle })

theorem modEngine_run (k : Nat) (copy : Bool) (f : Engine → Engine) (s : State) :
    modEngine k copy f s = .ok ((), withEngine s k copy f) := rfl

@[simp] theorem withEngine_engine (s : State) (k : Nat) (copy : Bool) (f : Engine → Engine) :
    (withEngine s k copy f).engine k copy = f (s.engine k copy) := by
  rw [withEngine, State.engine, State.cluster_setCluster]
  cases copy <;> rfl

@[simp] theorem withEngine_thread (s : State) (k tid : Nat) (copy : Bool) (f : Engine → Engine) :
    (withEngine s k copy f).thread tid = s.thread tid := rfl

@[simp] theorem withEngine_core (s : State) (k c : Nat) (copy : Bool) (f : Engine → Engine) :
    (withEngine s k copy f).core c = s.core c := rfl

@[simp] theorem engine_setSlot (s : State) (tid k : Nat) (copy : Bool) (v : Slot) : (s.setSlot tid v).engine k copy = s.engine k copy := rfl

@[simp] theorem engine_setCore (s : State) (c k : Nat) (copy : Bool) (v : Core) : (s.setCore c v).engine k copy = s.engine k copy := rfl

theorem thread_setCore_of_slots {s : State} {c : Nat} {v : Core} (h : v.slots = (s.core c).slots) (tid : Nat) :
    (s.setCore c v).thread tid = s.thread tid := congrArg Slot.thread (slot_setCore_of_slots h tid)

theorem answer_run {s : State} {tid : Nat} {x : Thread} (r : Reply) (hx : s.thread tid = some x) :
    answer tid r s = .ok ((), s.setSlot tid { s.slot tid with thread := some { x with
      park := none
      resume := { x.resume with reply := some r } } }) := modThread_run _ hx

/-- The number of an engine's identities (06 R158): 0 of the trestle, 1 of the copy unit. -/
def unitNumber (copy : Bool) : Nat := if copy then 1 else 0

/-- A command whose context has a share and whose core has room becomes a job with an identity (06 R139, R158, R159; 10 R248). -/
theorem acceptJob_accepts {tid kind serial : Nat} {copy keep : Bool} {ws : List Word} {s s1 s2 : State} {x : Thread}
    (hx : s.thread tid = some x) (hpark : x.park = some (.engine kind ws keep)) (hkind : decide (2 ≤ kind) = copy)
    (hflush : Gives (flushFor tid x) s () s1)
    (hraise : Gives (raise (engineAgent (clusterOf (coreOf tid)) copy) (s.pts (coreOf tid))) s1 () s2) (hx2 : s2.thread tid = some x)
    (hshare : copy = false → s2.weight (coreOf tid) x.ctx ≠ 0)
    (hjobs : ((s2.engine (clusterOf (coreOf tid)) copy).jobs.filter (fun j => j.core = coreOf tid)).length < (if copy then 8 else 4))
    (hheld : ((s2.core (coreOf tid)).status.filter (fun e => decide (32768 ≤ e.jid) = copy)).length < 64)
    (hserial : serial = nextJobSerial (((s2.core (coreOf tid)).status.filter (fun e => decide (32768 ≤ e.jid) = copy)).map (·.jid % 4096))
      4096 ((s2.core (coreOf tid)).serial.getD (unitNumber copy) 1 % 4096)) :
    ∃ t j, acceptJob tid copy s = .ok (some j, t) ∧
      j = { jid := 32768 * unitNumber copy + 4096 * (coreOf tid % 8) + serial, kind := kind, ctx := x.ctx, core := coreOf tid, tid := x.home
            launch := x.launch, param := ws, time := (s2.clock (engineAgent (clusterOf (coreOf tid)) copy)).t } ∧
      (t.engine (clusterOf (coreOf tid)) copy).jobs = (s2.engine (clusterOf (coreOf tid)) copy).jobs ++ [j] ∧
      (t.core (coreOf tid)).status = (s2.core (coreOf tid)).status ++ [{ jid := j.jid, ctx := x.ctx, launch := x.launch, keep := keep }] ∧
      t.thread tid = some { x with
        park := none
        resume := { x.resume with reply := some { status := 0, value := word j.jid, time := j.time } } } := by
  have share : ¬(!copy && decide (s2.weight (coreOf tid) x.ctx = 0)) = true := by
    cases copy
    · simpa using hshare rfl
    · simp
  have room : ¬(decide ((if copy then 8 else 4) ≤ ((s2.engine (clusterOf (coreOf tid)) copy).jobs.filter
      (fun j => decide (j.core = coreOf tid))).length) || decide (64 ≤ ((s2.core (coreOf tid)).status.filter
      (fun e => decide (decide (32768 ≤ e.jid) = copy))).length)) = true := by
    simp only [Bool.or_eq_true, decide_eq_true_eq, not_or, not_le]
    exact ⟨hjobs, hheld⟩
  unfold acceptJob
  rw [bind_getS, bind_ok (needSome_ok hx)]
  simp only [hpark]
  rw [bind_ok (need_ok (decide_eq_true hkind)), bind_ok hflush, bind_ok hraise, bind_ok (timeOf_run _ _), bind_getS, if_neg share,
    if_neg room, ← unitNumber, ← hserial, bind_ok (modCore_run _ _ _), bind_ok (modEngine_run _ _ _ _), bind_ok (answer_run _ ?hx3)]
  case hx3 =>
    rw [withEngine_thread, thread_setCore_of_slots]
    · exact hx2
    · rfl
  refine ⟨_, _, rfl, rfl, ?_, ?_, ?_⟩
  · rw [engine_setSlot, withEngine_engine, engine_setCore]
  · rw [core_setSlot, withEngine_core, State.core_setCore]
  · exact State.thread_setSlot _ _ _

/-- TRESTLE_ACCEPT and COPY_ACCEPT complete as O44 says. -/
theorem engineAcceptance_completes : engineAcceptanceCompletes := by
  intro i tid kind copy keep ws s s1 s2 x n serial hi ht hx hpark hflush hraise hx2 hshare hjobs hheld hserial
  have form : decide (2 ≤ kind) = copy ∧ n = unitNumber copy ∧ kind ≠ 3 := by
    obtain ⟨-, rfl, hk, rfl⟩ | ⟨-, rfl, rfl, rfl⟩ := hi
    · exact ⟨decide_eq_false (by omega), rfl, by omega⟩
    · exact ⟨rfl, rfl, by decide⟩
  obtain ⟨hkind, rfl, hcoll⟩ := form
  obtain ⟨t, j, hjob, rfl, jobs, status, thread⟩ :=
    acceptJob_accepts hx hpark hkind hflush hraise hx2 hshare hjobs hheld hserial
  refine ⟨t, _, ?_, rfl, jobs, status, by rw [thread]; rfl, by rw [thread]; rfl⟩
  obtain ⟨rfl, rfl, -, -⟩ | ⟨rfl, rfl, -, -⟩ := hi
  · rw [exec_trestleAccept]
    refine unit_ok (decide_eq_true ht) ?_
    rw [bind_ok hjob]
    rfl
  · rw [exec_copyAccept]
    refine unit_ok (decide_eq_true ht) ?_
    rw [bind_ok hjob]
    simp only [hcoll, if_false]
    rfl

/-- TILE_STEP runs the current job of the next core for one step of its tile, and a turn that its job no longer needs ends (06 R142, R149). -/
theorem tileStep_completes {k mism core : Nat} {room fetch : Bool} {s s1 t : State} {j : Job} (hk : k < 512)
    (hcore : (s.engine k false).nextCore = some core) (hj : (s.engine k false).current core = some j) (hcancel : j.cancel = false)
    (hs1 : s1 = s.setCluster k { s.cluster k with trestle := { (s.engine k false) with
      pointer := core
      turn := (if 0 < (s.engine k false).turn ∧ (s.engine k false).pointer = core then (s.engine k false).turn
        else max 1 (s.weight j.core j.ctx)) - 1 } })
    (h : Gives (do
      runJob k false j (tileOf mism room fetch)
      modEngine k false (fun e => if e.jobs.any (fun x => x.jid = j.jid && !x.ready) then e else { e with turn := 0 })) s1 () t) :
    exec (.tileStep k mism room fetch) s = .next t := by
  have turns : withEngine s k false (fun e => { e with
      pointer := core
      turn := (if (decide (0 < (s.engine k false).turn) && decide ((s.engine k false).pointer = core)) = true then e.turn
        else max 1 (s.weight j.core j.ctx)) - 1 }) = s1 := by
    rw [hs1]
    simp only [Bool.and_eq_true, decide_eq_true_eq]
    rfl
  rw [exec_tileStep]
  refine unit_ok (decide_eq_true hk) ?_
  rw [bind_getS, bind_ok (needSome_ok hcore), bind_ok (needSome_ok hj), bind_ok (modEngine_run _ _ _ _), turns]
  simp only [hcancel, Bool.false_eq_true, if_false]
  exact h

section
variable {k core : Nat} {copy : Bool} {s s2 t : State} {j : Job} {sh : FMap Shadow}
  (hj : (s.engine k copy).jobs.find? (fun j => j.ready && j.core % 8 = core && !(j.shadow.any (fun p => p.2.attr = .coh && s.isHeld p.1))) =
    some j) (hsh : Gives (shadowOf k copy j) s sh s2)
include hj hsh

theorem publish_visible {s1 : State} (hclean : sh.find? (fun p => p.2.poison) = none)
    (hlines : Gives (publishLines (engineAgent k copy) (some j.core) sh) s2 () s1) (hend : Gives (endJob k copy j 0 0) s1 () t) :
    publish k copy core s = .ok ((), t) := by
  unfold publish
  rw [bind_getS, bind_ok (needSome_ok hj), bind_ok hsh]
  simp only [hclean]
  rw [bind_ok hlines]
  exact hend

theorem publish_poisoned {p : Nat × Shadow} (hbad : sh.find? (fun p => p.2.poison) = some p) (hend : Gives (endJob k copy j 5 p.2.va) s2 () t) :
    publish k copy core s = .ok ((), t) := by
  unfold publish
  rw [bind_getS, bind_ok (needSome_ok hj), bind_ok hsh]
  simp only [hbad]
  exact hend

end

/-- PUBLISH makes a clean shadow visible and ends its job with status OK; a poisoned line ends it POISON (06 R157; 15 R364). -/
theorem publish_completes {k core : Nat} {copy : Bool} {s : State} {j : Job} (hk : k < 512) (hc : core < 8)
    (hj : (s.engine k copy).jobs.find? (fun j => j.ready && j.core % 8 = core &&
      !(j.shadow.any (fun p => p.2.attr = .coh && s.isHeld p.1))) = some j) {sh : FMap Shadow} {s2 : State}
    (hsh : Gives (shadowOf k copy j) s sh s2) :
    (∀ s1 t, sh.find? (fun p => p.2.poison) = none → Gives (publishLines (engineAgent k copy) (some j.core) sh) s2 () s1 →
      Gives (endJob k copy j 0 0) s1 () t → exec (.publish k copy core) s = .next t) ∧
    (∀ p t, sh.find? (fun p => p.2.poison) = some p → Gives (endJob k copy j 5 p.2.va) s2 () t →
      exec (.publish k copy core) s = .next t) := by
  have wf : wellFormed (.publish k copy core) = true := by simp [wellFormed, hk, hc]
  rw [exec_publish]
  exact ⟨fun s1 t hclean hlines hend => unit_ok wf (publish_visible hj hsh hclean hlines hend),
    fun p t hbad hend => unit_ok wf (publish_poisoned hj hsh hbad hend)⟩

/-- What a save leaves of its job and its engine once the area is written and the job's lines and misses are gone (15 R378). -/
def markSaved (k : Nat) (copy : Bool) (j : Job) (p : PreRequest) (floor : Nat) : M Unit := do
  modJob k copy j.jid (fun j => { j with
    saved := some p.addr
    savedTime := extendTime floor j.time
    pinned := [] })
  modEngine k copy (fun e => { e with
    pre := none
    preJob := j.jid
    turn := if e.pointer = j.core % 8 then 0 else e.turn })

/-- A state in which a job's misses have left the walker's queue (14 R343). -/
def missesDropped (s : State) (k : Nat) (copy : Bool) (jid : Nat) : State :=
  s.setCluster k { s.cluster k with asked := (s.cluster k).asked.filter (fun m => !(m.copy = copy && m.jid = jid)) }

section
variable {k : Nat} {s s1 s2 t : State} {j : Job} {p : PreRequest}

/-- A job is saved: its area is written, its lines are unpinned, and its misses leave the walker's queue. -/
theorem saveJob_saves {copy : Bool} {area : Job → M (List Word)} {s0 : State} {ws : List Word} (hpre : (s.engine k copy).pre = some p)
    (hstep : p.stepped = true) (hj : (s.engine k copy).jobs.find? (fun j => j.jid = p.jid) = some j) (hcancel : j.cancel = false)
    (harea : Gives (area j) s ws s0) (hwrite : Gives (physWrites p.addr ws) s0 () s1) (hunpin : Gives (unpin j.pinned) s1 () s2)
    (hmark : Gives (markSaved k copy j p s2.floor) (missesDropped s2 k copy j.jid) () t) : saveJob k copy area s = .ok ((), t) := by
  unfold saveJob
  rw [bind_getS, bind_ok (needSome_ok hpre), bind_ok (need_ok hstep), bind_ok (needSome_ok hj), bind_ok harea, bind_ok hwrite,
    bind_ok hunpin, bind_ok (show dropMisses k copy j.jid s2 = .ok ((), missesDropped s2 k copy j.jid) from rfl), bind_getS]
  simp only [hcancel, Bool.false_eq_true, if_false]
  exact hmark

variable (hk : k < 512) (hstep : p.stepped = true) (hcancel : j.cancel = false) (hunpin : Gives (unpin j.pinned) s1 () s2)
include hk hstep hcancel hunpin

/-- TRESTLE_SAVE writes the job's area (06 R154; 15 R378). -/
theorem trestleSave_completes (hpre : (s.engine k false).pre = some p)
    (hj : (s.engine k false).jobs.find? (fun j => j.jid = p.jid) = some j) (hwrite : Gives (physWrites p.addr j.area) s () s1)
    (hmark : Gives (markSaved k false j p s2.floor) (missesDropped s2 k false j.jid) () t) : exec (.trestleSave k) s = .next t := by
  rw [exec_trestleSave]
  exact unit_ok (decide_eq_true hk) (saveJob_saves hpre hstep hj hcancel rfl hwrite hunpin hmark)

/-- COPY_SAVE writes the job's area, and keeps the contributions that the area holds (10 R253, R258; 15 R378). -/
theorem copySave_completes {s0 : State} (hpre : (s.engine k true).pre = some p)
    (hj : (s.engine k true).jobs.find? (fun j => j.jid = p.jid) = some j)
    (hparts : Gives (modJob k true j.jid (fun y => { y with parts := if y.kind = 3 then s.partsOf y else [] })) s () s0)
    (hwrite : Gives (physWrites p.addr (j.copyArea s)) s0 () s1)
    (hmark : Gives (markSaved k true j p s2.floor) (missesDropped s2 k true j.jid) () t) : exec (.copySave k) s = .next t := by
  rw [exec_copySave]
  refine unit_ok (decide_eq_true hk) (saveJob_saves hpre hstep hj hcancel (ws := j.copyArea s) ?_ hwrite hunpin hmark)
  rw [Gives, bind_getS, bind_ok hparts]
  rfl

end

/-! A job that is saved while a miss of its own waits for its walk. -/

/-- A copy job of core 0. -/
def missingJob : Job := { jid := 9, kind := 2, ctx := 1, core := 0, tid := 0, launch := 0, param := [], time := 0 }

/-- The request that the job be pre-empted. -/
def missingRequest : PreRequest := { addr := 0x300000, jid := 9, stepped := true }

/-- The copy unit of cluster 0 is to save the job, of which a miss waits for the walk of page 2. -/
def missingState : State := { clusters := [(0, {
  copy := { jobs := [missingJob], pre := some missingRequest }
  asked := [{ ctx := 1, page := 2, copy := true, jid := 9 }] })] }

/-- How many misses wait in cluster 0 after a computation that goes through. -/
def missesLeft : Except Abort (Unit × State) → Option Nat
  | .ok (_, t) => some (t.cluster 0).asked.length
  | .error _ => none

/-- How many misses wait in cluster 0 after a step. -/
def missesAfter : Host.Outcome State Fault Refusal → Option Nat
  | .next t => missesLeft (.ok ((), t))
  | _ => none

theorem missesLeft_some {r : Except Abort (Unit × State)} {n : Nat} (h : missesLeft r = some n) :
    ∃ t, r = .ok ((), t) ∧ missesAfter (.next t) = some n := by
  cases r with
  | ok v => exact ⟨v.2, rfl, h⟩
  | error e => cases h

/-- The computations that O44 says make a COPY_SAVE of the job. -/
def savedAsStated : M Unit := do
  modJob 0 true missingJob.jid (fun y => { y with parts := if y.kind = 3 then missingState.partsOf y else [] })
  physWrites missingRequest.addr (missingJob.copyArea missingState)
  unpin missingJob.pinned
  let s ← getS
  markSaved 0 true missingJob missingRequest s.floor

theorem savedAsStated_keeps : missesLeft (savedAsStated missingState) = some 1 := by decide +kernel

theorem missingState_saved : missesAfter (exec (.copySave 0) missingState) = some 0 := by decide +kernel

/-- Refutes O44: of TRESTLE_SAVE and COPY_SAVE it leaves out that the misses of the saved job leave the walker's queue (14 R343), so with
one there, as here, the state that it says they leave is not theirs. With the misses dropped the saves complete (`trestleSave_completes`,
`copySave_completes`), and the rest of O44 holds: `engineAcceptance_completes`, `tileStep_completes`, `publish_completes`,
`chunksExact_holds`, `chunksAccumulate_holds`, `slicesAccumulate_holds` and `elementsFinished_holds`. -/
theorem not_engineEventsComplete : ¬ Obligations.EngineEventsComplete := by
  unfold Obligations.EngineEventsComplete
  rintro ⟨-, ⟨-, -, -, saves⟩, -⟩
  obtain ⟨t, ht, hone⟩ := missesLeft_some savedAsStated_keeps
  obtain ⟨_, s0, hparts, ht⟩ := bind_inv ht
  obtain ⟨_, s1, hwrite, ht⟩ := bind_inv ht
  obtain ⟨_, s2, hunpin, hmark⟩ := bind_inv ht
  have saved := saves 0 missingState s0 s1 s2 t missingJob missingRequest (by decide) rfl rfl rfl rfl hparts hwrite hunpin hmark
  rw [← saved, missingState_saved] at hone
  exact absurd hone (by decide)

end Sys2Proof.Proofs
end

