-- ==== Sys2Proof/Proofs/RecipeBodies.lean ====
section
/-! The bodies of recipes as RCP fetches and judges them (02 R33, R34; 07 R163, R164). -/

namespace Sys2Proof.Proofs

open Sys2Proof.Machine Sys2Proof.Statements

/-! The units that words make. -/

/-- The words of a body's unit. -/
def unitWords (u : BodyUnit) : List IWord := u.pre ++ [u.last]

theorem secondPrefix_iff {p q : IWord} :
    secondPrefix p q = true ↔ isPrefix q = true ∧ ¬(opcodeOf p = 0xFF#8 ∧ opcodeOf q = 0xFF#8) := by
  simp [secondPrefix, imp_iff_not_or]

/-- The words of a whole unit make it, whatever follows. -/
theorem unitsOf_unit {u : BodyUnit} (hu : IsUnit u) (n : Nat) (ws : List IWord) :
    unitsOf (n + 1) (unitWords u ++ ws) = (unitsOf n ws).map (u :: ·) := by
  obtain ⟨pre, last⟩ := u
  rcases hu with ⟨rfl, hlast⟩ | ⟨p, rfl, hp, hlast⟩ | ⟨p, q, rfl, hp, hq, hmod⟩
  · have hlast : isPrefix last = false := hlast
    simp [unitWords, unitsOf, hlast]
  · have ends : secondPrefix p last = false := by
      rcases hlast with h | ⟨h, h'⟩
      · simp [secondPrefix, show isPrefix last = false from h]
      · simp [secondPrefix, h, show opcodeOf last = 0xFF#8 from h']
    simp [unitWords, unitsOf, hp, ends]
  · have goesOn : secondPrefix p q = true := secondPrefix_iff.2 ⟨hq, hmod⟩
    simp [unitWords, unitsOf, hp, goesOn]

/-- No unit ends before its last word. -/
theorem unitsOf_part {u : BodyUnit} (hu : IsUnit u) (n : Nat) {m : Nat} (hm : m < (unitWords u).length) :
    unitsOf (n + 1) ((unitWords u).take m) = none := by
  obtain ⟨pre, last⟩ := u
  rcases hu with ⟨rfl, -⟩ | ⟨p, rfl, hp, -⟩ | ⟨p, q, rfl, hp, hq, hmod⟩
  · obtain rfl : m = 0 := by simpa [unitWords] using hm
    rfl
  · obtain rfl | rfl : m = 0 ∨ m = 1 := by simp [unitWords] at hm; omega
    · rfl
    · simp [unitWords, unitsOf, hp]
  · have goesOn : secondPrefix p q = true := secondPrefix_iff.2 ⟨hq, hmod⟩
    obtain rfl | rfl | rfl : m = 0 ∨ m = 1 ∨ m = 2 := by simp [unitWords] at hm; omega
    · rfl
    · simp [unitWords, unitsOf, hp]
    · simp [unitWords, unitsOf, hp, goesOn]

/-- The words of units make them. -/
theorem unitsOf_units {us : List BodyUnit} (h : ∀ u ∈ us, IsUnit u) : unitsOf us.length (us.flatMap unitWords) = some us := by
  induction us with
  | nil => rfl
  | cons u us ih =>
    obtain ⟨hu, hus⟩ := List.forall_mem_cons.1 h
    rw [List.flatMap_cons, List.length_cons, unitsOf_unit hu, ih hus]
    rfl

/-- The last word of units makes the last of them, and no word before it. -/
theorem unitsOf_cut {us : List BodyUnit} (h : ∀ u ∈ us, IsUnit u) {m : Nat} (hm : m < (us.flatMap unitWords).length) :
    unitsOf us.length ((us.flatMap unitWords).take m) = none := by
  induction us generalizing m with
  | nil => exact absurd hm (Nat.not_lt_zero m)
  | cons u us ih =>
    obtain ⟨hu, hus⟩ := List.forall_mem_cons.1 h
    rw [List.flatMap_cons, List.length_append] at hm
    rw [List.flatMap_cons, List.length_cons]
    by_cases hfirst : m < (unitWords u).length
    · rw [List.take_append_of_le_length hfirst.le]
      exact unitsOf_part hu _ hfirst
    · obtain ⟨r, rfl⟩ := Nat.exists_eq_add_of_le (Nat.le_of_not_lt hfirst)
      rw [List.take_length_add_append, unitsOf_unit hu, ih hus (by omega)]
      rfl

/-! The units that break 07 R163. -/

/-- No unit of a body is a breach where each meets the rule and no second one is a load; `seen`: one has been before. -/
theorem firstBreach_none_iff (win : Nat) (d : BitVec 8) (seen : Bool) (us : List BodyUnit) : firstBreach win d seen us = none ↔
    (∀ u ∈ us, unitOk win d u = true) ∧ (us.filter BodyUnit.loads).length + seen.toNat ≤ 1 := by
  induction us generalizing seen with
  | nil => cases seen <;> simp [firstBreach]
  | cons u us ih =>
    cases hok : unitOk win d u with
    | false => simp [firstBreach, hok]
    | true => cases hloads : u.loads <;> cases seen <;> simp [firstBreach, hok, hloads, ih]

/-- A unit that breaks the rule by itself is the first breach where none is before it. -/
theorem firstBreach_append {win : Nat} {d : BitVec 8} {seen : Bool} {us vs : List BodyUnit} {u : BodyUnit}
    (h : firstBreach win d seen us = none) (hu : unitOk win d u = false) : firstBreach win d seen (us ++ u :: vs) = some u.first := by
  induction us generalizing seen with
  | nil => simp [firstBreach, hu]
  | cons v us ih =>
    unfold firstBreach at h
    split at h
    · cases h
    · next good =>
      rw [List.cons_append, firstBreach, if_neg good]
      exact ih h

theorem bodyWords_makeUnits : bodyWordsMakeUnits :=
  ⟨fun _ h => ⟨unitsOf_units h, fun _ hm => unitsOf_cut h hm⟩, fun win d us => firstBreach_none_iff win d false us,
    fun _ _ _ _ _ h hu => firstBreach_append h hu⟩

end Sys2Proof.Proofs
end

