-- ==== Sys2Proof/Proofs/Recipes.lean ====
section
/-! RCP, RCPFREE and RCPQ complete, and RCP traps (07 R162 to R171; 12 R285; 15 R372). -/

namespace Sys2Proof.Proofs

open Sys2Proof.Machine Sys2Proof.Statements

/-! What the instructions of recipes ask of their names. -/

/-- A formula name and a count from 1 to 4 pass RCP's own checks (07 R164). -/
theorem rcp_judged {d : BitVec 8} {k : BitVec 16} {win : Nat} (hw : wellFormed (.rcp d k) = true) (hwin : win ≤ d.toNat) :
    (decide (d.toNat < win) || decide (240 ≤ d.toNat) || decide (k.toNat = 0) || decide (4 < k.toNat)) = false := by
  obtain ⟨⟨-, hd⟩, hk⟩ := of_decide_eq_true hw
  simp only [Bool.or_eq_false_iff, decide_eq_false_iff_not]
  omega

theorem wellFormed_of_issues {i : Instr} {s : State} (hi : Issues i s) : wellFormed i = true := by
  obtain ⟨_, -, -, hw, -⟩ := hi
  exact hw

/-- What an RCP of a formula name does in one of its turns, once its names are judged (07 R164; 12 R285): its own word has taken its turn, or
the next word of its body is fetched. -/
def rcpTurn (d : BitVec 8) (n : Nat) (x : Thread) : M Unit :=
  match x.resume.body with
  | none => modMe (fun x => { x with resume := { x.resume with body := some [] } })
  | some ws => do
    let w ← fetchBody x.pc.toNat (ws.length + 1)
    match unitsOf n (ws ++ [w]) with
    | none => modMe (fun x => { x with resume := { x.resume with body := some (ws ++ [w]) } })
    | some units => bindBody d units (ws ++ [w]).length

section
variable {d : BitVec 8} {k : BitVec 16} {s : State} {x : Thread} (hi : Issues (.rcp d k) s) (hx : s.thread s.cur = some x)
  (hwin : x.win ≤ d.toNat)
include hi hx hwin

/-- The unit of an RCP of a formula name is one of its turns. -/
theorem exec_rcp_turn : ∃ body, exec (.rcp d k) s = runUnit (.rcp d k) body s ∧ ∀ w, body w s = rcpTurn d k.toNat x s := by
  refine ⟨_, exec_rcp d k s, fun w => ?_⟩
  rw [bind_ok (me_run hx)]
  simp only [rcp_judged (wellFormed_of_issues hi) hwin, Bool.false_eq_true, if_false]
  unfold rcpTurn
  cases x.resume.body <;> rfl

/-- An RCP of a formula name whose turn goes through. -/
theorem rcp_completes {t : State} (h : rcpTurn d k.toNat x s = .ok ((), t)) : exec (.rcp d k) s = .next t := by
  obtain ⟨body, hexec, hturn⟩ := exec_rcp_turn hi hx hwin
  rw [hexec]
  exact runUnit_ok hi ((hturn _).trans h)

/-- An RCP of a formula name whose turn traps. -/
theorem rcp_traps {f : TrapInfo} (hr : x.role = .single) (hu : prv (s.slot s.cur).tstat = false)
    (h : rcpTurn d k.toNat x s = .error (.trap f)) : exec (.rcp d k) s = .next (s.takeTrap s.cur x f) := by
  obtain ⟨body, hexec, hturn⟩ := exec_rcp_turn hi hx hwin
  rw [hexec]
  exact runUnit_trap hi hx hr hu ((hturn _).trans h)

end

/-! Computations that catch an abort. -/

theorem tryCatch_ok {α : Type} {m : M α} {s t : State} {v : α} (h : m s = .ok (v, t)) (f : Abort → M α) :
    tryCatch m f s = .ok (v, t) := by
  simp [tryCatch, tryCatchThe, MonadExceptOf.tryCatch, Except.tryCatch, h]

theorem tryCatch_error {α : Type} {m : M α} {s : State} {e : Abort} (h : m s = .error e) (f : Abort → M α) :
    tryCatch m f s = f e s := by
  simp [tryCatch, tryCatchThe, MonadExceptOf.tryCatch, Except.tryCatch, h]

/-! Changes of the issuing thread. -/

@[simp] theorem setThread_thread (s : State) (tid : Nat) (o : Option Thread) : (s.setThread tid o).thread tid = o :=
  State.thread_setSlot _ _ _

/-- A change of the thread leaves its slot's tstat. -/
theorem setThread_tstat (s : State) (tid : Nat) (o : Option Thread) : ((s.setThread tid o).slot tid).tstat = (s.slot tid).tstat := by
  rw [State.setThread, State.slot_setSlot]

theorem setThread_setThread (s : State) (tid : Nat) (o o' : Option Thread) : (s.setThread tid o).setThread tid o' = s.setThread tid o' := by
  simp only [State.setThread, State.slot_setSlot, setSlot_setSlot]

theorem modMe_thread {s : State} {x : Thread} (f : Thread → Thread) (hx : s.thread s.cur = some x) :
    modMe f s = .ok ((), s.setThread s.cur (some (f x))) := modMe_ok f hx

/-! The turns of an RCP (07 R164; 12 R285). -/

/-- A thread whose name has no recipe. -/
def unbound (x : Thread) (d : BitVec 8) : Thread := { x with recipes := del x.recipes d.toNat }

/-- A thread whose name has a recipe of units, with a rounding mode (07 R164). -/
def boundTo (x : Thread) (d : BitVec 8) (rm : BitVec 3) (us : List BodyUnit) : Thread := { x with
  recipes := put (del x.recipes d.toNat) d.toNat { rm := rm, stale := false, body := us.map (·.step) }
  bst := 0 }

/-- Where no soft error is outstanding, none can be forgotten (15 R361). -/
theorem forget_errs_sound {s : State} (h : s.errs = []) (p : Loc × Word → Bool) : { s with errs := s.errs.filter p } = s := by
  rw [h]
  cases s
  simp_all

/-- The steps that the thread at `cur` could take once its name has no recipe (07 R162). -/
def roomFor (s : State) (x : Thread) (d : BitVec 8) : Nat :=
  (s.setThread s.cur (some (unbound x d))).freeSteps (coreOf s.cur) (unbound x d)

section
variable {d : BitVec 8} {s t : State} {y : Thread} {us : List BodyUnit} {n : Nat} (hy : s.thread s.cur = some y)
include hy

theorem bindBody_breaks {bad : IWord} (h : firstBreach y.win d false us = some bad) :
    bindBody d us n s = (illegal bad n : M Unit) s := by
  unfold bindBody
  rw [bind_ok (me_run hy)]
  simp only [h]

variable (h : firstBreach y.win d false us = none) (he : s.errs = [])
include h he

/-- What becomes of units that meet the rule: they are bound to d where steps are free for them, else d stays unbound and FULL is set. -/
theorem bindBody_judged : bindBody d us n s = retire (1 + n) (s.setThread s.cur (some (
    if roomFor s y d < us.length then { unbound y d with bst := 1 }
    else boundTo y d (BitVec.ofNat 3 (bits (s.slot s.cur).tstat 2 0)) us))) := by
  have hdel : modMe (unbound · d) s = .ok ((), s.setThread s.cur (some (unbound y d))) := modMe_thread _ hy
  have hz : (s.setThread s.cur (some (unbound y d))).thread (s.setThread s.cur (some (unbound y d))).cur = some (unbound y d) :=
    setThread_thread _ _ _
  have after : ∀ z : Thread, (s.setThread s.cur (some (unbound y d))).setThread s.cur (some z) = s.setThread s.cur (some z) :=
    fun z => setThread_setThread _ _ _ _
  unfold bindBody
  rw [bind_ok (me_run hy)]
  simp only [h]
  refine (bind_ok hdel).trans ?_
  rw [bind_getS, bind_ok (me_run hz), apply_ite (fun z => retire (1 + n) (s.setThread s.cur (some z)))]
  change (if roomFor s y d < us.length then _ else _ : M Unit) _ = _
  split
  · rw [bind_ok (modMe_thread _ hz), bind_modS, forget_errs_sound (by simpa using he), State.setThread_cur, after]
  · rw [bind_ok (modMe_thread _ hz), bind_modS, forget_errs_sound (by simpa using he), State.setThread_cur, after, setThread_tstat]
    rfl

end

/-- A fault in the fetching of a body's word counts the words fetched after RCP's (15 R372). -/
theorem fetchBody_faults {pc k : Nat} {s : State} {f : TrapInfo} (h : fetchAt (word (pc + 4 * k)) s = .error (.trap f)) :
    fetchBody pc k s = .error (.trap { f with extra := k }) :=
  (tryCatch_error h _).trans rfl

section
variable {d : BitVec 8} {n : Nat} {s s1 : State} {x : Thread} {ws : List IWord} {w : IWord} (hb : x.resume.body = some ws)
  (hf : Gives (fetchBody x.pc.toNat (ws.length + 1)) s w s1)
include hb hf

/-- The turn of a word after which more must follow. -/
theorem rcpTurn_goesOn {y : Thread} (hn : unitsOf n (ws ++ [w]) = none) (hy : s1.thread s1.cur = some y) :
    rcpTurn d n x s = .ok ((), s1.setThread s1.cur (some { y with resume := { y.resume with body := some (ws ++ [w]) } })) := by
  unfold rcpTurn
  simp only [hb]
  rw [bind_ok hf]
  simp only [hn]
  exact modMe_thread _ hy

/-- The turn of a body's last word. -/
theorem rcpTurn_whole {us : List BodyUnit} (hn : unitsOf n (ws ++ [w]) = some us) :
    rcpTurn d n x s = bindBody d us (ws.length + 1) s1 := by
  unfold rcpTurn
  simp only [hb]
  rw [bind_ok hf]
  simp only [hn, List.length_append, List.length_singleton]

end

theorem rcpTurn_faults {d : BitVec 8} {n : Nat} {s : State} {x : Thread} {ws : List IWord} {f : TrapInfo} (hb : x.resume.body = some ws)
    (hf : fetchAt (word (x.pc.toNat + 4 * (ws.length + 1))) s = .error (.trap f)) :
    rcpTurn d n x s = .error (.trap { f with extra := ws.length + 1 }) := by
  unfold rcpTurn
  simp only [hb]
  exact bind_error (fetchBody_faults hf)

/-! RCPFREE and RCPQ (07 R170, R171). -/

/-- RCPFREE of a formula name frees its recipe and sets OK, or finds none and sets ABSENT (07 R170). -/
theorem rcpfree_completes {d : BitVec 8} {s t : State} {x : Thread} (hi : Issues (.rcpfree d) s) (hx : s.thread s.cur = some x)
    (hwin : x.win ≤ d.toNat) (hd : d.toNat < 240)
    (ht : Retires (s.setThread s.cur (some (if (find x.recipes d.toNat).isSome then { unbound x d with bst := 0 }
      else { x with bst := 3 }))) t) : exec (.rcpfree d) s = .next t := by
  have judged : (decide (d.toNat < x.win) || decide (240 ≤ d.toNat)) = false := by
    simp only [Bool.or_eq_false_iff, decide_eq_false_iff_not]
    omega
  rw [exec_rcpfree]
  refine runUnit_ok hi ?_
  rw [bind_ok (me_run hx)]
  simp only [judged, Bool.false_eq_true, if_false]
  cases hr : find x.recipes d.toNat <;> rw [hr] at ht <;> exact (bind_ok (modMe_thread _ hx)).trans ht

/-- RCPQ writes the state of the name that its a field holds (07 R171). -/
theorem rcpq_completes {d a : BitVec 8} {s s1 t : State} {x : Thread} (hi : Issues (.rcpq d a) s) (hx : s.thread s.cur = some x)
    (hw : Gives (writeName (wordOf (.rcpq d a)) d (recipeWord (if a.toNat < x.win ∨ 240 ≤ a.toNat then none else find x.recipes a.toNat)
      (s.freeSteps (coreOf s.cur) x) x.steps)) s () s1) (ht : Retires s1 t) : exec (.rcpq d a) s = .next t := by
  rw [exec_rcpq]
  refine runUnit_ok hi ?_
  rw [bind_ok (me_run hx), bind_getS]
  simp only [Bool.or_eq_true, decide_eq_true_eq]
  exact (bind_ok hw).trans ht

theorem recipes_complete : recipesComplete := by
  unfold recipesComplete
  refine ⟨fun d k s x hi hx hwin hb => ?_, fun d k s s1 x y ws w hs hf hn hy => ?_,
    fun d k s s1 s2 t x y ws w us hs hf hn hok he hy hwin hs2 => ?_, fun d s t x r hi hx hwin hd hr ht => ?_,
    fun d s t x hi hx hwin hd hr ht => ?_, fun d a s s1 t x hi hx hw ht => rcpq_completes hi hx hw ht⟩
  · refine rcp_completes hi hx hwin ?_
    unfold rcpTurn
    rw [hb]
    exact modMe_thread _ hx
  · exact rcp_completes hs.issues hs.thread hs.name (rcpTurn_goesOn hs.fetched hf hn hy)
  · subst hs2
    have turn := (rcpTurn_whole (d := d) hs.fetched hf hn).trans (bindBody_judged hy (hwin ▸ hok) he)
    rw [show 1 + (ws.length + 1) = 2 + ws.length by omega] at turn
    constructor
    · intro (hroom : us.length ≤ roomFor s1 y d) ht
      refine rcp_completes hs.issues hs.thread hs.name (turn.trans ?_)
      rw [if_neg (Nat.not_lt.2 hroom)]
      exact ht
    · intro (hfull : roomFor s1 y d < us.length) ht
      refine rcp_completes hs.issues hs.thread hs.name (turn.trans ?_)
      rw [if_pos hfull]
      exact ht
  · exact rcpfree_completes hi hx hwin hd (by rw [hr]; exact ht)
  · exact rcpfree_completes hi hx hwin hd (by rw [hr]; exact ht)

/-- RCP of a name or a count that no window makes right is ill-formed (02 R27; 07 R164). -/
theorem rcp_illFormed {d : BitVec 8} {k : BitVec 16} (h : 240 ≤ d.toNat ∨ d.toNat < 8 ∨ k = 0 ∨ 4 < k.toNat) :
    wellFormed (.rcp d k) = false := by
  refine decide_eq_false ?_
  rintro ⟨hd, hk⟩
  rcases h with h | h | rfl | h
  · omega
  · omega
  · exact absurd hk.1 (by decide)
  · omega

/-- RCP of a resident name is illegal (07 R164). -/
theorem rcp_resident_traps {d : BitVec 8} {k : BitVec 16} {s : State} {x : Thread} (hi : Issues (.rcp d k) s)
    (hx : s.thread s.cur = some x) (hr : x.role = .single) (hu : prv (s.slot s.cur).tstat = false) (hd : d.toNat < x.win) :
    exec (.rcp d k) s = .next (s.takeTrap s.cur x { cause := 2, value := (wordOf (.rcp d k)).setWidth 64 }) := by
  rw [exec_rcp]
  refine (runUnit_trap hi hx hr hu ?_).trans (congrArg _ (takeTrap_entered s s.cur x _ s.entered))
  rw [bind_ok (me_run hx)]
  simp only [hd, decide_true, Bool.true_or, if_true, illegal_run]

theorem recipes_trap : recipesTrap := by
  unfold recipesTrap
  refine ⟨fun d k s x hx hp hr hu h => ?_, fun d k s s1 x y ws w bad us hs hr hu hf hy hwin hn hbad => ?_,
    fun d k s x ws f hs hr hu hf => ?_, fun s tid x f hx => ?_⟩
  · by_cases hres : Issues (.rcp d k) s ∧ d.toNat < x.win
    · exact rcp_resident_traps hres.1 hx hr hu hres.2
    · rw [exec_rcp]
      exact runUnit_refused hx hp hr hu (.inl (rcp_illFormed (by tauto)))
  · have turn := (rcpTurn_whole (d := d) hs.fetched hf hn).trans (bindBody_breaks hy (hwin ▸ hbad))
    rw [rcp_traps hs.issues hs.thread hs.name hr hu (turn.trans (illegal_run _ _ _))]
    exact congrArg _ (takeTrap_entered s s.cur x { cause := 2, value := bad.setWidth 64, extra := ws.length + 1 } _)
  · exact rcp_traps hs.issues hs.thread hs.name hr hu (rcpTurn_faults hs.fetched hf)
  · rw [State.thread, (takeTrap_enteredHandler s tid x f).1]
    rfl

end Sys2Proof.Proofs
end

