-- ==== Sys2Proof/Proofs/Replays.lean ====
section
/-! Formula names are read by replays of their recipes (07 R163 to R168; 10 R230; 12 R285). -/

namespace Sys2Proof.Proofs

open Sys2Proof.Machine Sys2Proof.Statements

/-! The turns of a replay's steps (07 R166; 12 R285). -/

/-- A thread whose unit has made one more step. -/
def ranOn (x : Thread) : Thread := { x with resume := { x.resume with ran := x.resume.ran + 1 } }

section
variable {s : State} {x : Thread} (hx : s.thread s.cur = some x)
include hx

theorem entered_run : s.entered = x.resume.entered := by simp [State.entered, hx]

/-- A step has its turn, or its unit waits for one with the lines that its loads took. -/
theorem takeTurn_run : takeTurn s = if x.resume.turns ≤ x.resume.ran then .error (.turn x.resume.served)
    else .ok ((), s.setThread s.cur (some (ranOn x))) := by
  unfold takeTurn
  refine (bind_ok (modMe_thread ranOn hx)).trans ?_
  rw [bind_ok (me_run (setThread_thread _ _ _))]
  have hran : (ranOn x).resume.turns < (ranOn x).resume.ran ↔ x.resume.turns ≤ x.resume.ran := Nat.lt_succ_iff
  simp only [hran]
  split <;> rfl

/-- What follows a step goes on where the thread has had a turn for it, and the unit waits where it has not. -/
theorem takeTurn_bind {α : Type} (f : Unit → M α) :
    (x.resume.ran < x.resume.turns → (takeTurn >>= f) s = f () (s.setThread s.cur (some (ranOn x)))) ∧
    (x.resume.turns ≤ x.resume.ran → (takeTurn >>= f) s = .error (.turn x.resume.served)) := by
  refine ⟨fun h => bind_ok ?_, fun h => bind_error ?_⟩
  · rw [takeTurn_run hx, if_neg (Nat.not_le.2 h)]
  · rw [takeTurn_run hx, if_pos h]

/-! The steps that are no loads (07 R163, R165). -/

/-- What a step reads of a source (07 R165). -/
def stepRead (x : Thread) (name : Nat) (run : Word) (n : BitVec 8) : M Word :=
  if n.toNat = name then pure run
  else if n.toNat < x.win then readResident n.toNat
  else if n = 247#8 then pure (word x.home)
  else pure 0

/-- A source reads as the running value, its register, the home slot or 0, where no soft error and no poison stands in the way. -/
theorem stepRead_run {name : Nat} (run : Word) {n : BitVec 8} (he : s.errs = [])
    (hclean : n.toNat < x.win → (findD (s.core (coreOf s.cur)).rf {} (x.wbase + n.toNat)).poison = false) :
    stepRead x name run n s = .ok (stepSource s x name run n, s) := by
  unfold stepRead stepSource
  by_cases hname : n.toNat = name
  · rw [if_pos hname, if_pos hname]
    rfl
  rw [if_neg hname, if_neg hname]
  by_cases hwin : n.toNat < x.win
  · rw [if_pos hwin, if_pos hwin]
    exact readResident_plain hx he (hclean hwin)
  rw [if_neg hwin, if_neg hwin]
  split <;> rfl

end

theorem loadShape_of_bodyOp {i : Instr} (h : isBodyOp i = true) : loadShape i = none := by
  unfold loadShape
  split
  case h_9 => rfl
  all_goals cases h

section
variable {i : Instr} (hbody : isBodyOp i = true) (mode : Nat) (l : Latch) (rd : BitVec 8 → M Word) (run : Word)

include hbody in
/-- An integer step of two operands (04 R90 to R98). -/
theorem bodyResult_integerPair {d a b : BitVec 8} {f : Word → Word → Word} (hi : integerPair i = some (d, a, b, f)) :
    bodyResult i mode (assembled l) rd run = (do
      let A ← rd a
      let B ← rd b
      return (f A B, 0)) := by
  cases i <;> cases hi
  case div | divu | rem | remu => cases hbody
  case slt => simp only [bodyResult, truth_ltS]
  case sltu => simp only [bodyResult, truth_ltU]
  case seq => simp only [bodyResult, truth_decide]
  all_goals rfl

/-- An integer step of one operand, whose prefix word may hold the higher bits of its immediate (02 R36; 04 R90 to R99). -/
theorem bodyResult_integerOne {d a : BitVec 8} {f : Latch → Word → Word} (hi : integerOne i = some (d, a, f)) :
    bodyResult i mode (assembled l) rd run = (do
      let A ← rd a
      return (f l A, 0)) := by
  cases i <;> cases hi
  case slti => simp only [bodyResult, truth_ltS]
  all_goals rfl

include hbody in
/-- A float step of two operands is FP32 (05 R110, R111). -/
theorem bodyResult_floatPair {d a b : BitVec 8} {f : Latch → Fmt → Nat → Nat → Nat → Nat × Flags} (hi : floatPair i = some (d, a, b, f)) :
    bodyResult i mode (assembled l) rd run = (do
      let A ← rd a
      let B ← rd b
      let r := f {} Fmt.fp32 mode (operand Fmt.fp32 A) (operand Fmt.fp32 B)
      return (word r.1, r.2)) := by
  cases i <;> cases hi
  case fadd | fsub | fmul => rfl
  all_goals cases hbody

/-- A fused step takes the running value as C (05 R111; 07 R163). -/
theorem bodyResult_fused {d a b : BitVec 8} {neg : Bool} (hi : fused i = some (d, a, b, neg)) :
    bodyResult i mode (assembled l) rd run = (do
      let A ← rd a
      let B ← rd b
      let r := Fmt.fp32.fma mode (operand Fmt.fp32 A) (operand Fmt.fp32 B) (operand Fmt.fp32 run) neg
      return (word r.1, r.2)) := by
  cases i <;> cases hi <;> rfl

/-- A step that is no load gives its result from what its sources read (07 R163, R165). -/
theorem bodyResult_run {s : State} {v : BitVec 8 → Word} {r : Word × Flags} (hread : ∀ n, rd n s = .ok (v n, s))
    (h : stepResult i l mode run v = some r) : bodyResult i mode (assembled l) rd run s = .ok (r, s) := by
  unfold stepResult at h
  split at h
  · cases h
  next hnot =>
    have hbody : isBodyOp i = true := by simpa using hnot
    split at h
    · next hi =>
      cases h
      rw [bodyResult_integerPair hbody _ _ _ _ hi, bind_ok (hread _), bind_ok (hread _)]
      rfl
    · next hi _ =>
      cases h
      rw [bodyResult_integerOne _ _ _ _ hi, bind_ok (hread _)]
      rfl
    · next hi _ _ =>
      cases h
      rw [bodyResult_floatPair hbody _ _ _ _ hi, bind_ok (hread _), bind_ok (hread _)]
      rfl
    · next hi _ _ _ =>
      cases h
      rw [bodyResult_fused _ _ _ _ hi, bind_ok (hread _), bind_ok (hread _)]
      rfl
    · split at h <;> cases h
      · rfl
      · exact bind_ok (hread _)

end

/-! What a step of a replay does (07 R165). -/

section
variable {name k : Nat} {rm : BitVec 3} {st : RecipeStep} {rest : List RecipeStep} {run : Word} {fl : Flags} {i : Instr} {s : State}
  {x : Thread}

/-- A step that is no load: its result is the running value of the steps after it, and its flags are gathered. -/
theorem replaySteps_op {v : Word} {g : Flags} (hx : s.thread s.cur = some x) (hwhole : st.poison = false)
    (hi : decodeWord st.iw = .ok i) (hload : loadShape i = none)
    (hres : bodyResult i (min rm.toNat 4) (assembled (stepLatch st)) (stepRead x name run) run s = .ok ((v, g), s)) :
    replaySteps name rm k (st :: rest) run fl s = (do
      takeTurn
      replaySteps name rm (k + 1) rest v (fl ||| g)) s := by
  rw [replaySteps, if_neg (by simp [hwhole])]
  simp only [hi]
  rw [bind_ok (me_run hx)]
  simp only [hload]
  exact bind_ok hres

/-- A load step: its value is the running value of the steps after it. -/
theorem replaySteps_load {d a m : BitVec 8} {size : Nat} {signed ro : Bool} {A : Word} (hx : s.thread s.cur = some x)
    (hwhole : st.poison = false) (hi : decodeWord st.iw = .ok i) (hload : loadOf i = some (d, a, m, size, signed, ro))
    (hbase : stepRead x name run a s = .ok (A, s)) :
    replaySteps name rm k (st :: rest) run fl s = (do
      let v ← replayLoad name k size signed (A + word size * assembled (stepLatch st) 8 m.toNat)
      takeTurn
      replaySteps name rm (k + 1) rest v fl) s := by
  have hshape : loadShape i = some (size, signed, a, m) := by
    unfold loadOf at hload
    split at hload <;> cases hload <;> rfl
  rw [replaySteps, if_neg (by simp [hwhole])]
  simp only [hi]
  rw [bind_ok (me_run hx)]
  simp only [hshape]
  exact bind_ok hbase

/-- Nothing stands in the way of what a step reads. -/
theorem replays_read (h : Replays s x name st i) (run : Word) (n : BitVec 8) :
    stepRead x name run n s = .ok (stepSource s x name run n, s) :=
  stepRead_run h.thread run h.sound (h.clean _)

theorem replaySteps_goOn : replayStepsGoOn := by
  unfold replayStepsGoOn
  refine ⟨fun _ _ _ _ _ _ => rfl, fun name k rm st rest run v fl g i s x h hres => ?_⟩
  have hbody : isBodyOp i = true := by
    by_contra hnot
    simp [stepResult, hnot] at hres
  have step := replaySteps_op (k := k) (rest := rest) (fl := fl) h.thread h.whole h.decodes (loadShape_of_bodyOp hbody)
    (bodyResult_run _ _ _ _ (replays_read h run) hres)
  obtain ⟨goesOn, waits⟩ := takeTurn_bind h.thread (fun _ => replaySteps name rm (k + 1) rest v (fl ||| g))
  exact ⟨fun hturn => step.trans (goesOn hturn), fun hturn => step.trans (waits hturn)⟩

end

/-! The load step of a replay (07 R165, R167; 10 R230). -/

/-- The page of a load step: a fault and a wait for a walk keep the recipe's name and the step's number (07 R167; 14 R343). -/
def stepPage (name k : Nat) (ea : Word) : M Page :=
  tryCatch (Machine.translate ea 0) (fun e => match e with
    | .trap t => abort (.trap { t with replay := some (name, k) })
    | .park (.walk va kind _) => abort (.park (.walk va kind (some (name, k))))
    | e => abort e)

theorem checkL1_sound {s : State} (core key : Nat) (h : s.errs = []) : s.checkL1 core key = s := by
  simp [State.checkL1, h]

section
variable {name k size : Nat} {signed : Bool} {ea : Word} {s : State} {x : Thread} (hx : s.thread s.cur = some x)
include hx

theorem stepPage_mapped {p : Page} (h : Mapped s x ea 0 p) : stepPage name k ea s = .ok (p, s) :=
  tryCatch_ok (translate_mapped hx h) _

theorem stepPage_denied {e : TlbEntry} (hfind : tlbFind (s.core (coreOf s.cur)).tlb x.ctx ea.toNat = some e)
    (hdenied : permits e.leaf 0 (!prv (s.slot s.cur).tstat) = false) : stepPage name k ea s =
      .error (.trap { cause := 13, value := ea, replay := some (name, k), entered := x.resume.entered }) := by
  rw [← entered_run hx]
  exact tryCatch_error ((translate_denied hx hfind hdenied).trans (trap_run _ _ _)) _

theorem stepPage_missed (h1 : tlbFind (s.core (coreOf s.cur)).tlb x.ctx ea.toNat = none)
    (h2 : tlbFind (s.cluster (clusterOf (coreOf s.cur))).tlb x.ctx ea.toNat = none) :
    stepPage name k ea s = .error (.park (.walk ea 0 (some (name, k)))) :=
  tryCatch_error (translate_missed hx h1 h2) _

theorem replayFault_run {α : Type} (cause : Nat) (v : Word) : (replayFault name k cause v : M α) s =
    .error (.trap { cause := cause, value := v, replay := some (name, k), entered := x.resume.entered }) := by
  rw [← entered_run hx]
  rfl

/-- An address out of the space, misaligned or in the aperture faults before its page is asked for. -/
theorem replayLoad_outside (h : outside ea = true) : replayLoad name k size signed ea s =
    .error (.trap { cause := 5, value := ea, replay := some (name, k), entered := x.resume.entered }) := by
  unfold replayLoad
  rw [if_pos h]
  exact replayFault_run hx 5 ea

theorem replayLoad_misaligned (ho : outside ea = false) (h : ea.toNat % size ≠ 0) : replayLoad name k size signed ea s =
    .error (.trap { cause := 4, value := ea, replay := some (name, k), entered := x.resume.entered }) := by
  unfold replayLoad
  rw [if_neg (by simp [ho]), if_pos (by simpa using h)]
  exact replayFault_run hx 4 ea

variable (ha : Addressed ea size)
include ha

theorem replayLoad_aperture (h : inAperture ea = true) : replayLoad name k size signed ea s =
    .error (.trap { cause := 5, value := ea, replay := some (name, k), entered := x.resume.entered }) := by
  unfold replayLoad
  rw [if_neg (by simp [ha.1]), if_neg (by simp [ha.2]), if_pos h]
  exact replayFault_run hx 5 ea

variable (hap : inAperture ea = false)
include hap

omit hx in
/-- A load step whose page is not to be had. -/
theorem replayLoad_unpaged {e : Abort} (h : stepPage name k ea s = .error e) : replayLoad name k size signed ea s = .error e := by
  unfold replayLoad
  rw [if_neg (by simp [ha.1]), if_neg (by simp [ha.2]), if_neg (by simp [hap])]
  exact bind_error h

/-- A load step from a page that is not RSHR. -/
theorem replayLoad_unshared {p : Page} (h : stepPage name k ea s = .ok (p, s)) (hp : p.attr ≠ .rshr) :
    replayLoad name k size signed ea s =
      .error (.trap { cause := 5, value := ea, replay := some (name, k), entered := x.resume.entered }) := by
  unfold replayLoad
  rw [if_neg (by simp [ha.1]), if_neg (by simp [ha.2]), if_neg (by simp [hap])]
  refine (bind_ok h).trans ?_
  rw [if_neg hp]
  exact replayFault_run hx 5 ea

end

/-! The line of a load step (08 R181, R184; 09 R210, R213). -/

section
variable {s : State} {x : Thread} {p : Page} {y : L1Line} (hx : s.thread s.cur = some x) (he : s.errs = []) (hattr : p.attr = .rshr)
include hx he hattr

/-- A load of an RSHR line that the core's L1 holds, with no store in its way, is answered there. -/
theorem performLoad_held {mask : LineMask} (hst : s.buffered (coreOf s.cur) x (p.pa / 32) .rshr mask s.fresh = [])
    (hy : find (s.core (coreOf s.cur)).l1 (l1Key (p.pa / 32) .rshr) = some y) :
    performLoad s.cur (p.pa / 32) p.attr mask s.fresh true s = .ok (.got (served (p.pa / 32) .rshr y.data y.poison), s) := by
  have hread : l1Read (coreOf s.cur) (p.pa / 32) .rshr s = .ok (some y, s) := by
    unfold l1Read
    rw [bind_modS, checkL1_sound _ _ he, bind_getS, hy]
    rfl
  unfold performLoad
  rw [bind_getS]
  simp only [hx, hattr, hst, List.filter_nil, List.isEmpty_nil, Bool.not_true, Bool.false_eq_true, if_false, reduceCtorEq, decide_false,
    Bool.false_and]
  rw [bind_ok hread]
  rfl

/-- Such a line is the one that the load takes, where none has arrived for its unit. -/
theorem lineOf_held {away next : M Unit} {ea : Word} {mask : LineMask} {step : Bool} (hserved : x.resume.served = [])
    (holder : s.olderDone (coreOf s.cur) x = true) (hst : s.buffered (coreOf s.cur) x (p.pa / 32) .rshr mask s.fresh = [])
    (hy : find (s.core (coreOf s.cur)).l1 (l1Key (p.pa / 32) .rshr) = some y) (hpoison : y.poison = false) :
    lineOf away next ea p mask 0 true step s = .ok (y.data, s) := by
  have harrived : x.arrived (p.pa / 32) p.attr = none := by rw [Thread.arrived, hserved]; rfl
  unfold lineOf
  rw [bind_ok (me_run hx), bind_getS]
  simp only [harrived, Bool.not_true, Bool.false_eq_true, if_false]
  rw [holder, bind_ok (performLoad_held hx he hattr hst hy)]
  dsimp only
  rw [bind_modS, consume, hpoison]
  rfl

end

/-- A thread whose unit keeps the line that its load step took. -/
def tookLine (x : Thread) (l : Served) : Thread := { x with resume := { x.resume with served := [l] } }

/-- A load step from a line that the core's L1 holds gives the bytes at its address, extended; the line stays with the unit. -/
theorem replayLoad_held {name k size : Nat} {signed : Bool} {ea : Word} {s : State} {x : Thread} {p : Page} {y : L1Line}
    (hx : s.thread s.cur = some x) (hr : x.role = .single) (he : s.errs = []) (ha : Addressed ea size) (hap : inAperture ea = false)
    (hp : Mapped s x ea 0 p) (hattr : p.attr = .rshr) (hserved : x.resume.served = []) (holder : s.olderDone (coreOf s.cur) x = true)
    (hst : s.buffered (coreOf s.cur) x (p.pa / 32) .rshr (maskOf (p.pa % 32) size) s.fresh = [])
    (hy : find (s.core (coreOf s.cur)).l1 (l1Key (p.pa / 32) .rshr) = some y) (hpoison : y.poison = false) :
    replayLoad name k size signed ea s = .ok (extendBytes size signed (fromByte y.data (p.pa % 32)),
      s.setThread s.cur (some (tookLine x (served (p.pa / 32) .rshr y.data false)))) := by
  have harrived : x.arrived (p.pa / 32) .rshr = none := by rw [Thread.arrived, hserved]; rfl
  unfold replayLoad
  rw [if_neg (by simp [ha.1]), if_neg (by simp [ha.2]), if_neg (by simp [hap])]
  refine (bind_ok (stepPage_mapped (name := name) (k := k) hx hp)).trans ?_
  rw [if_pos hattr]
  refine enterWord_single hx hr ?_
  dsimp only
  rw [bind_ok (lineOf_held hx he hattr hserved holder hst hy hpoison), bind_ok (modMe_thread _ hx)]
  simp only [harrived, Option.isSome_none, Bool.false_eq_true, if_false, hserved, List.nil_append]
  rfl

theorem replayLoads_goOn : replayLoadsGoOn := by
  unfold replayLoadsGoOn
  intro name k rm st rest run ea fl i s x d a m size signed ro h hi hea
  subst hea
  have step := replaySteps_load (k := k) (rm := rm) (rest := rest) (fl := fl) h.thread h.whole h.decodes hi (replays_read h run a)
  refine ⟨fun ho => step.trans (bind_error (replayLoad_outside h.thread ho)),
    fun ho hmis => step.trans (bind_error (replayLoad_misaligned h.thread ho hmis)),
    fun ha hap => step.trans (bind_error (replayLoad_aperture h.thread ha hap)),
    fun ha hap h1 h2 => step.trans (bind_error (replayLoad_unpaged ha hap (stepPage_missed h.thread h1 h2))),
    fun e ha hap hfind hdenied => step.trans (bind_error (replayLoad_unpaged ha hap (stepPage_denied h.thread hfind hdenied))),
    fun p ha hap hp hattr => step.trans (bind_error (replayLoad_unshared h.thread ha hap (stepPage_mapped h.thread hp) hattr)),
    fun p y ha hap hp hattr hserved holder hst hy hpoison => ?_⟩
  have taken := step.trans (bind_ok (replayLoad_held h.thread h.single h.sound ha hap hp hattr hserved holder hst hy hpoison))
  obtain ⟨goesOn, waits⟩ := takeTurn_bind (setThread_thread s s.cur (some (tookLine x (served (p.pa / 32) .rshr y.data false))))
    (fun _ => replaySteps name rm (k + 1) rest (extendBytes size signed (fromByte y.data (p.pa % 32))) fl)
  rw [State.setThread_cur, setThread_setThread] at goesOn
  exact ⟨fun hturn => ⟨_, taken.trans (goesOn hturn)⟩, fun hturn => ⟨_, taken.trans (waits hturn), rfl, rfl⟩⟩

/-! Formula names (07 R165, R168; 12 R285). -/

/-- A recipe's steps are met as they stand where no soft error is outstanding (15 R361). -/
theorem metSteps_sound {s : State} (h : s.errs = []) (tid name : Nat) (body : List RecipeStep) : s.metSteps tid name body = body :=
  List.ext_getElem? (fun k => by simp [State.metSteps, h])

section
variable {w : IWord} {n : BitVec 8} {s : State} {x : Thread} (hx : s.thread s.cur = some x) (hwin : x.win ≤ n.toNat) (hn : n.toNat < 240)
include hx hwin hn

theorem readName_formula : readName w n s = readFormula w n.toNat s := by
  unfold readName
  rw [bind_ok (me_run hx), if_neg (Nat.not_lt.2 hwin), if_pos hn]

/-- A name without a recipe. -/
theorem readName_unbound (h : find x.recipes n.toNat = none) :
    readName w n s = .error (.trap { cause := 2, value := w.setWidth 64, entered := x.resume.entered }) := by
  rw [readName_formula hx hwin hn, readFormula, bind_ok (me_run hx), ← entered_run hx]
  simp only [h]
  rfl

variable {r : Recipe} (h : find x.recipes n.toNat = some r)
include h

theorem readName_stale (hst : r.stale = true) :
    readName w n s = .error (.trap { cause := 24, value := word n.toNat, entered := x.resume.entered }) := by
  rw [readName_formula hx hwin hn, readFormula, bind_ok (me_run hx), ← entered_run hx]
  simp only [h, hst, if_true]
  rfl

/-- A recipe that is not stale is replayed from a running value of 0, and the flags that its steps gather are raised. -/
theorem readName_replays (hst : r.stale = false) (he : s.errs = []) : readName w n s = (do
    let v ← replaySteps n.toNat r.rm 0 r.body 0 0
    raiseFlags v.2
    return v.1) s := by
  rw [readName_formula hx hwin hn, readFormula, bind_ok (me_run hx)]
  simp only [h, hst, Bool.false_eq_true, if_false]
  rw [bind_getS, bind_ok (myTid_run s), metSteps_sound he]

end

/-- The 8 bits of an ADDI's immediate, without a prefix, are a signed number (02 R36). -/
theorem assembled_unprefixed (k : BitVec 8) : assembled {} 8 k.toNat = k.signExtend 64 := by
  simp [assembled, signExtendFrom, word]

/-- The step of an ADDI without a prefix word. -/
def addiStep (n a k : BitVec 8) : RecipeStep := { px := false, hi := 0, iw := wordOf (.addi n a k), poison := false }

theorem decode_addiStep (n a k : BitVec 8) : decodeWord (addiStep n a k).iw = .ok (.addi n a k) := by
  unfold addiStep
  exact decodeWord_of_encode (.addi n a k) rfl

/-- The replay of one ADDI of a resident name is one step, whose result is the sum. -/
theorem replaySteps_addi {n a k : BitVec 8} {s : State} {x : Thread} (hx : s.thread s.cur = some x) (he : s.errs = [])
    (ha : a.toNat < x.win) (hwin : x.win ≤ n.toNat)
    (hclean : (findD (s.core (coreOf s.cur)).rf {} (x.wbase + a.toNat)).poison = false) :
    replaySteps n.toNat 0 0 [addiStep n a k] 0 0 s = (do
      takeTurn
      return (s.resident x a.toNat + k.signExtend 64, 0)) s := by
  have hread : stepRead x n.toNat 0 a s = .ok (s.resident x a.toNat, s) := by
    rw [stepRead_run hx 0 he (fun _ => hclean), stepSource, if_neg (by omega), if_pos ha]
  refine (replaySteps_op (v := s.resident x a.toNat + k.signExtend 64) (g := 0) hx rfl (decode_addiStep n a k) rfl ?_).trans rfl
  rw [bodyResult_integerOne _ _ _ _ rfl, bind_ok hread, show stepLatch (addiStep n a k) = {} from rfl, assembled_unprefixed]
  rfl

theorem formulaNames_replay : formulaNamesReplay := by
  unfold formulaNamesReplay
  intro w n a k s x hx hwin hn
  refine ⟨readName_unbound hx hwin hn, fun r => readName_stale hx hwin hn, fun r h hst he => ⟨fun v fl s1 s2 hsteps hraise => ?_,
    fun e hsteps => ?_⟩, fun he ha hclean h => ?_⟩
  · rw [Gives, readName_replays hx hwin hn h hst he, bind_ok hsteps, bind_ok hraise]
    rfl
  · rw [readName_replays hx hwin hn h hst he, bind_error hsteps]
  · have step := replaySteps_addi (k := k) hx he ha hwin hclean
    obtain ⟨goesOn, waits⟩ := takeTurn_bind hx (fun _ => (return (s.resident x a.toNat + k.signExtend 64, 0) : M (Word × Flags)))
    refine ⟨fun hturn => ?_, fun hturn => ?_⟩
    · rw [Gives, readName_replays hx hwin hn h rfl he]
      exact bind_ok (step.trans (goesOn hturn))
    · rw [readName_replays hx hwin hn h rfl he]
      exact bind_error (step.trans (waits hturn))

/-- Settles O33: an RCP is followed turn by turn, and a replay step by step, each from what its turn or step reads. -/
theorem recipesFormedAndReplayed : Obligations.RecipesFormedAndReplayed :=
  ⟨bodyWords_makeUnits, recipes_complete, recipes_trap, replaySteps_goOn, replayLoads_goOn, formulaNames_replay⟩

end Sys2Proof.Proofs
end

