-- ==== Sys2Proof/Proofs/Times.lean ====
section
/-! The events of own times and the floor, and the sweeps over stamps, stored words and registers (09 R206, R207, R225 to R227; 15 R359
to R361). -/

namespace Sys2Proof.Proofs

open Sys2Proof.Machine Sys2Proof.Statements

/-! Own times and the floor. -/

/-- An own time that rises by no more than the limit leaves (09 R227). -/
theorem raise_rises {a : Agent} {u : Stamp} {s : State} (hl : later (s.clock a).t u = true)
    (hr : (u - (s.clock a).t).toNat ≤ (s.clock a).room) :
    raise a u s = .ok ((), s.setClock a { t := u, room := (s.clock a).room - (u - (s.clock a).t).toNat, late := none }) := by
  rw [raise_run, if_pos hl, if_pos hr]

/-- An own time that goes on by one. -/
theorem raise_next {a : Agent} {s : State} (hr : 1 ≤ (s.clock a).room) : raise a ((s.clock a).t + 1) s =
    .ok ((), s.setClock a { t := (s.clock a).t + 1, room := (s.clock a).room - 1, late := none }) := by
  have hstep : (s.clock a).t + 1 - (s.clock a).t = 1 := add_sub_cancel_left _ _
  rw [raise_rises (by rw [later, hstep]; rfl) (by rw [hstep]; exact hr), hstep]
  rfl

/-- An own time that has been raised: it is the later of the two times, and nothing but clocks has changed (09 R206). -/
theorem raise_inv {a : Agent} {u : Stamp} {s t : State} (h : Gives (raise a u) s () t) :
    (later (s.clock a).t u = true → (t.clock a).t = u) ∧ (later (s.clock a).t u = false → t = s) ∧
      t = { s with clocks := t.clocks } := by
  rw [Gives, raise_run] at h
  split at h
  · next hl =>
    split at h
    · cases h
      refine ⟨fun _ => by rw [State.clock_setClock], fun hn => absurd (hl.symm.trans hn) (by decide), rfl⟩
    · cases h
  · next hl =>
    cases h
    exact ⟨fun hn => absurd hn hl, fun _ => rfl, rfl⟩

/-- The state after a tick of a core (09 R207). -/
def afterTick (s : State) (core : Nat) : State :=
  (s.setCore core { s.core core with ticked := (s.core core).cycle }).setClock (.core core)
    { t := s.pts core + 1, room := (s.clock (.core core)).room - 1, late := none }

theorem ptsTick_run {core : Nat} {s : State} (hcore : core < 4096) (hon : s.ticking core = true)
    (hroom : 1 ≤ (s.clock (.core core)).room) : exec (.ptsTick core) s = .next (afterTick s core) := by
  refine (exec_ptsTick core s).trans (unit_ok (decide_eq_true hcore) ?_)
  rw [bind_getS, bind_ok (need_ok hon), bind_ok (modCore_run _ _ _)]
  exact raise_next (a := .core core) hroom

/-- The floor rises to the latest own time less 2^21, where that is later (09 R225). -/
theorem floorRaise_run (s : State) : exec .floorRaise s = .next
    (let g := BitVec.ofNat 24 s.floor
     let new := s.clocks.foldl (fun t c => tmax t c.2.t) g - BitVec.ofNat 24 (2 ^ 21)
     if later g new then { s with floor := (s.floor + (new - g).toNat) % 2 ^ 40 } else s) := by
  refine (exec_floorRaise s).trans (unit_ok rfl ?_)
  rw [bind_getS]
  dsimp only
  split <;> rfl

theorem ownTimeRaise_run {a : Agent} {s t : State} (ha : a.valid = true) (h : raise a (BitVec.ofNat 24 s.floor) s = .ok ((), t)) :
    exec (.ownTimeRaise a) s = .next t :=
  (exec_ownTimeRaise a s).trans (unit_ok ha h)

/-- The clock of an agent that goes on by `n` towards a time (09 R227). -/
def steppedClock (c : Clock) (u : Stamp) (n : Nat) : Clock :=
  { t := c.t + BitVec.ofNat 24 n, room := c.room - n, late := if c.t + BitVec.ofNat 24 n = u then none else some u }

theorem steppedAdvance_run {a : Agent} {s : State} {u : Stamp} (ha : a.valid = true) (hlate : (s.clock a).late = some u)
    (hl : later (s.clock a).t u = true) (hn : min (u - (s.clock a).t).toNat (2 ^ 20) ≤ (s.clock a).room) :
    exec (.steppedAdvance a) s =
      .next (s.setClock a (steppedClock (s.clock a) u (min (u - (s.clock a).t).toNat (2 ^ 20)))) := by
  refine (exec_steppedAdvance a s).trans (unit_ok ha ?_)
  rw [bind_getS]
  dsimp only
  rw [bind_ok (needSome_ok hlate), if_pos hl, bind_ok (need_ok (decide_eq_true hn))]
  rfl

/-- An advance ends with the step that covers what is left. -/
theorem steppedClock_late (c : Clock) (u : Stamp) {n : Nat} (h : n ≤ 2 ^ 20) :
    (steppedClock c u n).late = none ↔ n = (u - c.t).toNat := by
  have hn : (BitVec.ofNat 24 n).toNat = n := by rw [BitVec.toNat_ofNat, Nat.mod_eq_of_lt (by omega)]
  have hnow : c.t + BitVec.ofNat 24 n = u ↔ n = (u - c.t).toNat := by
    rw [← eq_sub_iff_add_eq', ← BitVec.toNat_inj, hn]
  rw [← hnow, steppedClock]
  split <;> simp_all

/-- Settles O42: each event is one advance of one time. -/
theorem timesMove : Obligations.TimesMove := by
  unfold Obligations.TimesMove
  refine ⟨fun core s hcore hon hroom => ⟨_, ptsTick_run hcore hon hroom, ?_, fun a ha => State.clock_setClock_other _ _ _ _ ha, rfl⟩,
    fun s g new hg hnew => ?_, fun a s ha => ⟨fun hl hr => ownTimeRaise_run ha (raise_rises hl hr),
      fun hl => ownTimeRaise_run ha (raise_keeps hl)⟩, fun a s u n ha hlate hl hn hr => ?_⟩
  · rw [State.pts, afterTick, State.clock_setClock]
  · subst hnew
    subst hg
    rw [floorRaise_run]
    exact ⟨fun hl => congrArg _ (if_pos hl), fun hl => congrArg _ (if_neg (by rw [hl]; decide))⟩
  · subst hn
    refine ⟨_, steppedAdvance_run ha hlate hl hr, ?_⟩
    rw [State.clock_setClock]
    exact ⟨rfl, steppedClock_late _ _ (min_le_right _ _), rfl⟩

/-! The sweeps over stamps (09 R226). -/

/-- A slice whose eviction time is brought to within 2^21 of its own time. -/
def sweptSlice (s : State) (n : Nat) : Slice :=
  if stale (s.slice n).ets (s.clock (.slice n)).t then { s.slice n with ets := (s.clock (.slice n)).t - BitVec.ofNat 24 (2 ^ 21) }
  else s.slice n

section
variable {n line : Nat} {s : State} (hn : n < 768) (hline : line < 2 ^ 47)
include hn hline

/-- The sweep of a slice that has no state of the line that it meets. -/
theorem l2StampSweep_absent (hx : find s.l2 line = none) : exec (.l2StampSweep n line) s = .next (s.setSlice n (sweptSlice s n)) := by
  refine (exec_l2StampSweep n line s).trans (unit_ok (Bool.and_eq_true_iff.2 ⟨decide_eq_true hn, decide_eq_true hline⟩) ?_)
  rw [bind_getS, hx]
  rfl

/-- The sweep of a slice that meets an old tag of a line that no core owns. -/
theorem l2StampSweep_stale {x : L2Line} {t : State} (hx : find s.l2 line = some x) (hslice : sliceOf line = n)
    (htag : x.tag.isSome = true) (howner : x.owner = none) (hstale : stale (s.stamps line).2 (s.clock (.slice n)).t = true)
    (h : Gives (setStamps line ((s.clock (.slice n)).t - BitVec.ofNat 24 (2 ^ 21)) ((s.clock (.slice n)).t - BitVec.ofNat 24 (2 ^ 21)))
      (s.setSlice n (sweptSlice s n)) () t) : exec (.l2StampSweep n line) s = .next t := by
  refine (exec_l2StampSweep n line s).trans (unit_ok (Bool.and_eq_true_iff.2 ⟨decide_eq_true hn, decide_eq_true hline⟩) ?_)
  rw [bind_getS, hx]
  simp only [hslice, htag, howner, hstale, decide_true, Option.isNone_none, Bool.and_self, if_true]
  exact h

end

/-- What a sweep of a core does with a copy. -/
theorem coreStampSweep_run {core line : Nat} {s t : State} {y : L1Line} (hcore : core < 4096) (hline : line < 2 ^ 47)
    (hy : find (s.core core).l1 (l1Key line .coh) = some y)
    (h : (if y.excl then if y.held.isNone && stale y.wts (s.pts core) then recallNow line false else pure ()
      else if stale y.rts (s.pts core) then l1Drop core line .coh else pure ()) s = .ok ((), t)) :
    exec (.coreStampSweep core line) s = .next t := by
  refine (exec_coreStampSweep core line s).trans (unit_ok (Bool.and_eq_true_iff.2 ⟨decide_eq_true hcore, decide_eq_true hline⟩) ?_)
  rw [bind_getS, bind_ok (needSome_ok hy)]
  exact h

theorem stampSweeps_complete : stampSweepsComplete := by
  unfold stampSweepsComplete
  refine ⟨fun n line s hn hline hx => ⟨_, l2StampSweep_absent hn hline hx, ?_, rfl, rfl⟩,
    fun n line s s1 t x hn hline hx hslice htag howner hstale hs1 h =>
      l2StampSweep_stale hn hline hx hslice htag howner hstale (hs1 ▸ h),
    fun core line s y hcore hline hy => ⟨fun hexcl hstale => coreStampSweep_run hcore hline hy ?_,
      fun hexcl hstale => coreStampSweep_run hcore hline hy ?_,
      fun hexcl hheld hstale t h => coreStampSweep_run hcore hline hy ?_⟩⟩
  · rw [State.slice, State.setSlice, findD_put_same, sweptSlice]
    split <;> rfl
  · rw [hexcl, hstale]
    rfl
  · rw [hexcl, hstale]
    rfl
  · rw [hexcl, hheld, hstale]
    exact h

/-! The sweeps over stored words and registers (15 R359 to R361). -/

/-- A core with a register marked poisoned. -/
def poisonedReg (k : Core) (n : Nat) : Core := { k with rf := put k.rf n { findD k.rf {} n with poison := true } }

theorem poisonEntry_reg (c n : Nat) (s : State) : poisonEntry (.reg c n) s = .ok ((), s.setCore c (poisonedReg (s.core c) n)) := rfl

/-- A core with one more register found poisoned. -/
def countedReg (k : Core) : Core := { k with regPoison := k.regPoison + 1 }

/-- The state in which a register is marked poisoned and its error is gone (15 R361). -/
def regMarked (s : State) (c n : Nat) : State :=
  { s.setCore c (poisonedReg (s.core c) n) with errs := s.errs.filter (fun e => e.1 != .reg c n) }

theorem regMarked_core (s : State) (c n : Nat) : (regMarked s c n).core c = poisonedReg (s.core c) n := State.core_setCore _ _ _

theorem registerSweep_run {c n : Nat} {m : Word} {s : State} (hloc : (Loc.reg c n).valid = true)
    (herr : s.errs.find? (fun e => e.1 = .reg c n) = some (.reg c n, m)) (hodd : popCount m % 2 = 1) :
    exec (.registerSweep (.reg c n)) s = .next ((regMarked s c n).setCore c (countedReg ((regMarked s c n).core c))) := by
  refine (exec_registerSweep _ s).trans (unit_ok hloc ?_)
  rw [bind_getS, bind_ok (needSome_ok herr), bind_ok (need_ok (decide_eq_true hodd)), bind_ok (poisonEntry_reg c n s), bind_modS]
  exact modCore_run c countedReg (regMarked s c n)

theorem errorSweeps_complete : errorSweepsComplete := by
  unfold errorSweepsComplete
  refine ⟨fun c k w s h => (exec_storageSweep _ s).trans (unit_ok h rfl), fun l w s h => (exec_storageSweep _ s).trans (unit_ok h rfl),
    fun b w s t h hg => (exec_storageSweep _ s).trans (unit_ok h hg), fun c l w s h => (exec_storageSweep _ s).trans (unit_ok h rfl),
    fun k copy jid l w s t h hg => (exec_storageSweep _ s).trans (unit_ok h hg),
    fun c n m s h herr hodd => ⟨_, registerSweep_run h herr hodd, ?_⟩⟩
  rw [State.core_setCore, regMarked_core]
  exact ⟨findD_put_same _ _ _ _, fun k hk => findD_put_other _ _ _ _ _ hk, rfl, rfl, rfl⟩

/-- Settles O43: a sweep's condition picks its branch, and the branch is one change. -/
theorem sweepsComplete : Obligations.SweepsComplete := ⟨stampSweeps_complete, errorSweeps_complete⟩

end Sys2Proof.Proofs
end

