-- ==== Sys2Proof/Proofs/LineBytes.lean ====
section
/-! The bytes of a line under a masked write (08 R182), and what an atomic does to a line that its core holds exclusively (09 R221;
10 R239, R240). -/

namespace Sys2Proof.Proofs

open Sys2Proof.Machine Sys2Proof.Statements

/-! A bit of a line after a masked write: the byte that it lies in says which line it comes from. -/

theorem getLsbD_byteBits (k i : Nat) :
    (BitVec.ofNat 256 (255 * 2 ^ (8 * k))).getLsbD i = (decide (i < 256) && decide (i / 8 = k)) := by
  rw [BitVec.getLsbD_ofNat, Nat.testBit_mul_two_pow, show (255 : Nat) = 2 ^ 8 - 1 from rfl, Nat.testBit_two_pow_sub_one,
    ← Bool.decide_and]
  exact congrArg _ (decide_eq_decide.2 (by omega))

/-- The bit mask of the first `n` bytes of a byte mask. -/
theorem getLsbD_wideMask_range (m : LineMask) (n i : Nat) : ((List.range n).foldl (fun acc k =>
      if m.getLsbD k then acc ||| (BitVec.ofNat 256 (255 * 2 ^ (8 * k))) else acc) (0 : LineData)).getLsbD i =
    (decide (i < 256) && decide (i / 8 < n) && m.getLsbD (i / 8)) := by
  induction n with
  | zero => simp
  | succ n ih =>
    rw [List.range_succ, List.foldl_append, List.foldl_cons, List.foldl_nil]
    obtain hk | hk := eq_or_ne (i / 8) n
    · subst hk
      split
      · next h => rw [BitVec.getLsbD_or, ih, getLsbD_byteBits]; simp [h]
      · next h => rw [ih]; simp [h]
    · have hlt : decide (i / 8 < n + 1) = decide (i / 8 < n) := decide_eq_decide.2 (by omega)
      rw [hlt, ← ih]
      split
      · rw [BitVec.getLsbD_or, getLsbD_byteBits]; simp [hk]
      · rfl

theorem getLsbD_wideMask (m : LineMask) (i : Nat) : (wideMask m).getLsbD i = m.getLsbD (i / 8) := by
  rw [wideMask, getLsbD_wideMask_range]
  by_cases h : i / 8 < 32
  · have : i < 256 := by omega
    simp [h, this]
  · rw [BitVec.getLsbD_of_ge m (i / 8) (by omega)]
    simp

theorem getLsbD_mergeLine (old new : LineData) (m : LineMask) (i : Nat) :
    (mergeLine old new m).getLsbD i = if m.getLsbD (i / 8) then new.getLsbD i else old.getLsbD i := by
  by_cases hi : i < 256
  · have hk : i / 8 < 32 := by omega
    unfold mergeLine
    split
    · next h => simp only [h, fullMask, BitVec.getLsbD_allOnes, hk, decide_true, if_true]
    · simp only [BitVec.getLsbD_or, BitVec.getLsbD_and, BitVec.getLsbD_not, getLsbD_wideMask, hi]
      cases m.getLsbD (i / 8) <;> simp
  · simp [BitVec.getLsbD_of_ge _ i (Nat.le_of_not_lt hi)]

theorem getLsbD_maskOf (off n i : Nat) : (maskOf off n).getLsbD i = (decide (i < 32) && decide (off ≤ i ∧ i < off + n)) := by
  rw [maskOf, BitVec.getLsbD_ofNat, Nat.testBit_mul_two_pow, Nat.testBit_two_pow_sub_one, ← Bool.decide_and]
  exact congrArg _ (decide_eq_decide.2 (by omega))

/-! A word of a line. -/

theorem getLsbD_fromByte (d : LineData) (off i : Nat) : (fromByte d off).getLsbD i = (decide (i < 64) && d.getLsbD (8 * off + i)) := by
  rw [fromByte, BitVec.getLsbD_setWidth, BitVec.getLsbD_ushiftRight]

theorem getLsbD_atByte (v : Word) (off i : Nat) (h : 8 * off + i < 256) :
    (atByte v off).getLsbD (8 * off + i) = v.getLsbD i := by
  simp [atByte, h]

/-- The word that is written reads back. -/
theorem fromByte_mergeLine_same (d : LineData) (v : Word) {off : Nat} (h : off + 8 ≤ 32) :
    fromByte (mergeLine d (atByte v off) (maskOf off 8)) off = v := by
  apply BitVec.eq_of_getLsbD_eq
  intro i hi
  have hin : (8 * off + i) / 8 < 32 ∧ off ≤ (8 * off + i) / 8 ∧ (8 * off + i) / 8 < off + 8 := by omega
  rw [getLsbD_fromByte, getLsbD_mergeLine, getLsbD_maskOf, getLsbD_atByte v off i (by omega)]
  simp [hi, hin]

/-- A word that lies apart from the one that is written stays. -/
theorem fromByte_mergeLine_apart (d n : LineData) {off o : Nat} (h : o + 8 ≤ off ∨ off + 8 ≤ o) :
    fromByte (mergeLine d n (maskOf off 8)) o = fromByte d o := by
  apply BitVec.eq_of_getLsbD_eq
  intro i hi
  have hout : ¬(off ≤ (8 * o + i) / 8 ∧ (8 * o + i) / 8 < off + 8) := by omega
  rw [getLsbD_fromByte, getLsbD_fromByte, getLsbD_mergeLine, getLsbD_maskOf]
  simp [hout]

/-! Atomics. -/

theorem minS_toInt (a b : Word) : (minS a b).toInt = min a.toInt b.toInt := by
  unfold minS; split <;> omega

theorem maxS_toInt (a b : Word) : (maxS a b).toInt = max a.toInt b.toInt := by
  unfold maxS; split <;> omega

theorem minU_toNat (a b : Word) : (minU a b).toNat = min a.toNat b.toNat := by
  unfold minU; split <;> omega

theorem maxU_toNat (a b : Word) : (maxU a b).toNat = max a.toNat b.toNat := by
  unfold maxU; split <;> omega

theorem atomicWord_kinds : atomicWords := by
  unfold atomicWords
  exact fun old b c => ⟨rfl, rfl, fun h => if_pos h, fun h => if_neg h, minS_toInt old b, maxS_toInt old b, minU_toNat old b,
    maxU_toNat old b⟩

/-- The copy of a line after an atomic at a time (09 R221). -/
def afterAtomic (y : L1Line) (off : Nat) (v : Word) (t : Stamp) : L1Line := { y with
  data := mergeLine y.data (atByte v off) (maskOf off 8)
  dirty := y.dirty ||| maskOf off 8
  wts := t
  rts := t }

/-- What an atomic on a held line does: the core's time rises past the copy's lease, and the copy is replaced. -/
theorem nearAtomic_inv {core line off : Nat} {k : AtomicKind} {b ea old : Word} {y : L1Line} {s t : State}
    (h : Gives (nearAtomic core line off k b ea y) s old t) : ∃ u, Gives (raise (.core core) (y.rts + 1)) s () u ∧
      old = fromByte y.data off ∧ t = u.setCore core { u.core core with
        l1 := put (u.core core).l1 (l1Key line .coh) (afterAtomic y off (atomicWord k old b) (u.pts core)) } := by
  unfold Gives nearAtomic at h
  split at h
  · cases h
  · dsimp only at h
    obtain ⟨⟨⟩, u, hraise, h⟩ := bind_inv h
    cases h
    exact ⟨u, hraise, rfl, rfl⟩

theorem heldLines_atomic : atomicsOnHeldLines := by
  unfold atomicsOnHeldLines
  intro core line off k b ea old y s t halign hoff h
  obtain ⟨u, hraise, hold, rfl⟩ := nearAtomic_inv h
  obtain ⟨hlater, hearly, hclocks⟩ := raise_inv hraise
  refine ⟨afterAtomic y off (atomicWord k old b) (u.pts core), ?_, hold, fromByte_mergeLine_same _ _ (by omega), rfl, rfl, hlater,
    fun hn => ?_, ?_, fun o ho ho32 hne => fromByte_mergeLine_apart _ _ (by omega)⟩
  · rw [State.core_setCore]
    exact find_put_same _ _ _
  · show u.pts core = s.pts core
    rw [hearly hn]
  · rw [State.setCore_mem, hclocks]

/-- Settles O12: a masked write at an aligned word replaces that word and no other. -/
theorem atomicsPerformed : Obligations.AtomicsPerformed := ⟨atomicWord_kinds, heldLines_atomic⟩

end Sys2Proof.Proofs
end

