-- ==== Sys2Proof/Proofs/HomeRequests.lean ====
section
/-! Requests that a line's home serves, and the replies that cores use (09 R209 to R213, R221; 08 R181, R184, R187, R204; 10 R239). -/

namespace Sys2Proof.Proofs

open Sys2Proof.Machine Sys2Proof.Statements

/-! A request for a line that no core owns and that nothing has waited for. -/

section
variable {s : State} {line : Nat} (howner : s.ownerAt line = none)
include howner

theorem heldAway_unowned : s.heldAway line = false := by
  rw [State.heldAway, howner]

/-- It is performed at once. -/
theorem enqueue_first (r : Request) (hqueue : s.queueAt line = []) :
    enqueue line r s = .ok (true, { s with requests := del s.requests line }) := by
  unfold enqueue
  rw [bind_getS, heldAway_unowned howner, howner, hqueue]
  rfl

end

/-- What follows a step that is made only where a condition holds. -/
theorem ite_bind_ok {α : Type} {c : Prop} [Decidable c] {m : M Unit} {k : M α} {s t : State}
    (h : Gives (if c then m else pure ()) s () t) : (if c then m >>= fun _ => k else k) s = k t := by
  split
  · next hc =>
    rw [if_pos hc] at h
    exact bind_ok h
  · next hc =>
    rw [if_neg hc] at h
    cases h
    rfl

/-! COH_READ (09 R209). -/

/-- What a home answers a read with: a core whose copy has the line's write is sent no data. -/
def readAnswer (s : State) (line : Nat) (held : Option L1Line) (w r : Stamp) : Served :=
  let renew := if held.map (·.wts) = some w then held.map (·.wts) else none
  { line := line
    attr := .coh
    data := if renew.isSome then 0 else (s.homeLine line).1
    poison := renew.isNone && (s.homeLine line).2
    wts := (tagOf w r).1
    rts := r
    once := !s.atHome line
    renew := renew }

theorem readAnswer_eq {s : State} {line : Nat} {held : Option L1Line} {w r : Stamp} {v : Served} (hline : v.line = line)
    (hattr : v.attr = .coh) (hwts : v.wts = (tagOf w r).1) (hrts : v.rts = r) (honce : v.once = !s.atHome line)
    (hrenew : held.map (·.wts) = some w → v.renew = some w ∧ v.data = 0 ∧ v.poison = false)
    (hdata : held.map (·.wts) ≠ some w → v.renew = none ∧ v.data = (s.homeLine line).1 ∧ v.poison = (s.homeLine line).2) :
    readAnswer s line held w r = v := by
  obtain ⟨line', attr, data, poison, wts, rts, once, renew⟩ := v
  dsimp only at *
  subst hline hattr hwts hrts honce
  unfold readAnswer
  by_cases h : held.map (·.wts) = some w
  · obtain ⟨rfl, rfl, rfl⟩ := hrenew h
    simp [h]
  · obtain ⟨rfl, rfl, rfl⟩ := hdata h
    simp [h]

theorem cohRead_completes : cohReadCompletes := by
  unfold cohReadCompletes
  intro tid part s s1 s2 s3 s4 s5 t x q copy held w rts r htid hq hx hattr hreply huse howner hqueue hcopy hheld hraise hfill hs4 hstamps
    hr hset v hline hattr' hwts hrts honce hrenew hdata h
  have hneed : (decide (q.attr = .coh) && q.reply.isNone && !s.usable (coreOf tid) q.line) = true := by simp [hattr, hreply, huse]
  have hv := readAnswer_eq hline hattr' hwts hrts honce hrenew hdata
  subst hs4 hheld hr
  refine (exec_cohRead tid part s).trans (unit_ok (decide_eq_true htid) ?_)
  rw [bind_getS, bind_ok (needSome_ok hq), bind_ok (needSome_ok hx)]
  dsimp only
  rw [bind_ok (need_ok hneed), bind_ok (enqueue_first howner _ hqueue), if_pos rfl, bind_ok hcopy, bind_ok hraise, bind_ok hfill, bind_modS,
    bind_getS, ← hstamps]
  dsimp only
  rw [bind_ok hset, bind_getS, bind_getS]
  subst hv
  exact h

/-! LOAD_REPLY (09 R209, R210, R213; 08 R181, R184). -/

/-- What follows the reply to a read of a COH line, with what it brings: a line whose lease the core's time has not passed is used, and one
that can no longer be used is asked for again (09 R209, R213). -/
def useReply (s : State) (tid part : Nat) (q : Waiting) (copy : Option L1Line) : Option Served → M Unit
  | none => setReply tid part none
  | some v => if atMost (s.pts (coreOf tid)) v.rts then do
      raise (.core (coreOf tid)) v.wts
      if !v.once && (q.ch != 1 || copy.isSome) then
        l1Place (coreOf tid) q.line .coh { data := v.data, wts := v.wts, rts := v.rts, poison := v.poison, soon := q.ch = 2 }
      else pure ()
      finishLoad tid part q v
    else setReply tid part none

section
variable {tid part : Nat} {s : State} {q : Waiting}

theorem useReply_fresh {copy : Option L1Line} {v : Served} {s2 s3 s4 t : State} (hlease : atMost (s.pts (coreOf tid)) v.rts = true)
    (hraise : Gives (raise (.core (coreOf tid)) v.wts) s2 () s3)
    (hplace : Gives (if !v.once && (q.ch != 1 || copy.isSome) then l1Place (coreOf tid) q.line .coh
        { data := v.data, wts := v.wts, rts := v.rts, poison := v.poison, soon := q.ch = 2 }
      else pure ()) s3 () s4)
    (h : Gives (finishLoad tid part q v) s4 () t) : Gives (useReply s tid part q copy (some v)) s2 () t := by
  rw [Gives, useReply, if_pos hlease, bind_ok hraise]
  dsimp only
  rw [ite_bind_ok hplace]
  exact h

theorem useReply_again {o : Option Served} {copy : Option L1Line} {s2 t : State}
    (hstale : o = none ∨ ∃ v, o = some v ∧ atMost (s.pts (coreOf tid)) v.rts = false)
    (h : Gives (setReply tid part none) s2 () t) : Gives (useReply s tid part q copy o) s2 () t := by
  obtain rfl | ⟨v, rfl, hlease⟩ := hstale
  · exact h
  · rw [Gives, useReply, hlease]
    exact h

end

section
variable {tid part : Nat} {s s1 : State} {q : Waiting} (htid : tid < 262144) (hq : s.waitingLoad tid part = some q)
include htid hq

/-- A load that its core performs from what it holds. -/
theorem loadReply_held {v : Served} {t : State} (hload : Gives (performLoad tid q.line q.attr q.mask q.seq q.older) s (.got v) s1)
    (h : Gives (finishLoad tid part q v) (s1.markSoon (coreOf tid) q.line q.attr q.ch) () t) : exec (.loadReply tid part) s = .next t := by
  refine (exec_loadReply tid part s).trans (unit_ok (decide_eq_true htid) ?_)
  rw [bind_getS, bind_ok (needSome_ok hq)]
  dsimp only
  rw [bind_ok hload]
  exact h

variable (hload : Gives (performLoad tid q.line q.attr q.mask q.seq q.older) s .miss s1)
include hload

theorem loadReply_replied {r : Served} {copy : Option L1Line} {s2 t : State} (hattr : q.attr = .coh) (hr : q.reply = some r)
    (hcopy : Gives (l1Read (coreOf tid) q.line .coh) s1 copy s2)
    (h : Gives (useReply s tid part q copy (r.renewed copy)) s2 () t) : exec (.loadReply tid part) s = .next t := by
  refine (exec_loadReply tid part s).trans (unit_ok (decide_eq_true htid) ?_)
  rw [bind_getS, bind_ok (needSome_ok hq)]
  dsimp only
  rw [bind_ok hload]
  dsimp only
  rw [hattr]
  dsimp only
  rw [bind_ok (needSome_ok hr), bind_ok hcopy]
  exact h

/-- A line that is not COH is read from what the core or the home has of it. -/
theorem loadReply_read {x : Thread} {d : LineData} {bad : Bool} {s2 s4 t : State} (hattr : q.attr ≠ .coh) (hx : s.thread tid = some x)
    (hpriv : q.attr = .priv → Gives (privRead (coreOf tid) q.line (s.isMigratory x.launch)) s1 (d, bad) s2)
    (hrshr : q.attr = .rshr → Gives (fillHome q.line false) s1 () s2 ∧ s2.homeLine q.line = (d, bad))
    (hplace : Gives (if q.ch != 1 && (s2.markSoon (coreOf tid) q.line q.attr q.ch).atHome q.line &&
        !(q.attr = .priv && s.isMigratory x.launch) then
        l1Place (coreOf tid) q.line q.attr { data := d, poison := bad, soon := q.ch = 2 }
      else pure ()) (s2.markSoon (coreOf tid) q.line q.attr q.ch) () s4)
    (h : Gives (finishLoad tid part q (served q.line q.attr d bad)) s4 () t) : exec (.loadReply tid part) s = .next t := by
  refine (exec_loadReply tid part s).trans (unit_ok (decide_eq_true htid) ?_)
  rw [bind_getS, bind_ok (needSome_ok hq)]
  dsimp only
  rw [bind_ok hload]
  cases ha : q.attr with
  | coh => exact absurd ha hattr
  | priv =>
    rw [ha] at hplace h
    simp only [decide_true, Bool.true_and] at hplace ⊢
    rw [bind_ok (needSome_ok hx), if_pos trivial, bind_ok (hpriv ha), bind_modS, bind_getS, ite_bind_ok hplace]
    exact h
  | rshr =>
    obtain ⟨hfill, hline⟩ := hrshr ha
    rw [ha] at hplace h
    simp only [reduceCtorEq, decide_false, Bool.false_and] at hplace ⊢
    rw [bind_ok (needSome_ok hx), if_neg not_false, bind_assoc_run, bind_ok hfill, bind_assoc_run, bind_getS, hline, bind_pure_run,
      bind_modS, bind_getS, ite_bind_ok hplace]
    exact h

end

theorem loadReply_completes : loadReplyCompletes := by
  unfold loadReplyCompletes
  intro tid part s s1 q htid hq
  exact ⟨fun v t hload h => loadReply_held htid hq hload h,
    fun r v copy s2 s3 s4 t hload hattr hr hcopy hv hlease hraise hplace h =>
      loadReply_replied htid hq hload hattr hr hcopy (hv ▸ useReply_fresh hlease hraise hplace h),
    fun r copy s2 t hload hattr hr hcopy hstale h => loadReply_replied htid hq hload hattr hr hcopy (useReply_again hstale h),
    fun x d bad s2 s3 s4 t hload hattr hx hpriv hrshr hs3 hplace h =>
      loadReply_read htid hq hload hattr hx hpriv hrshr (hs3 ▸ hplace) h⟩

/-- Settles O36: a read is served where its line's home stands, and its reply is used as its lease allows. -/
theorem loadsAreServed : Obligations.LoadsAreServed := ⟨cohRead_completes, loadReply_completes⟩

/-! FAR_ATOMIC (09 R221; 10 R239). -/

/-- The state in which a home has answered the atomic of a thread. -/
def atomicAnswered (s : State) (tid : Nat) (r : Reply) : State :=
  s.setSlot tid { s.slot tid with thread := (s.slot tid).thread.map (fun x => { x with
    park := none
    resume := { x.resume with reply := some r } }) }

/-- The home answers with the old word; it writes the new one and the time, unless the old word was to begin a message and cannot. -/
theorem farAtomic_run {tid line off : Nat} {k : AtomicKind} {b : Word} {header : Bool} {s s1 s2 s4 : State} {x : Thread} {d : LineData}
    {tau : Stamp} {old : Word} (htid : tid < 262144) (hx : s.thread tid = some x) (hpark : x.park = some (.atomic k b line off header))
    (howner : s.ownerAt line = none) (hqueue : s.queueAt line = [])
    (hraise : Gives (raise (.slice (sliceOf line)) (s.pts (coreOf tid))) { s with requests := del s.requests line } () s1)
    (hfill : Gives (fillHome line true) s1 () s2) (hline : s2.homeLine line = (d, false))
    (htau : tau = tmax (s.pts (coreOf tid)) ((s2.stamps line).2 + 1)) (hold : old = fromByte d off)
    (hwrite : Gives (if header && headerless old then pure () else do
      writeAsked line (maskOf off 8) (atByte (atomicWord k old b) off)
      setStamps line tau tau) s2 () s4) :
    exec (.farAtomic tid) s = .next (atomicAnswered s4 tid
      { value := old, time := if header && headerless old then s.pts (coreOf tid) else tau }) := by
  subst htau hold
  refine (exec_farAtomic tid s).trans (unit_ok (decide_eq_true htid) ?_)
  rw [bind_getS, bind_ok (needSome_ok hx)]
  dsimp only
  rw [hpark]
  dsimp only
  rw [bind_ok (need_ok (by simp [howner])), bind_ok (enqueue_first howner _ hqueue), if_pos rfl, bind_ok hraise, bind_ok hfill, bind_getS,
    hline]
  dsimp only
  rw [bind_getS]
  simp only [Bool.false_or, Bool.false_eq_true, if_false]
  split at hwrite
  · next h =>
    cases hwrite
    rw [if_pos h]
    rfl
  · next h =>
    obtain ⟨⟨⟩, s3, hword, hstamps⟩ := bind_inv hwrite
    rw [if_neg h, bind_ok hword, bind_ok hstamps]
    rfl

/-- Settles O40: whether the old word may begin a message decides whether the home writes. -/
theorem farAtomicCompletes : Obligations.FarAtomicCompletes := by
  unfold Obligations.FarAtomicCompletes
  intro tid line off k b old header tau s s1 s2 x d htid hx hpark howner hqueue hraise hfill hline htau hold
  refine ⟨fun hgood s3 s4 hwrite hset => ?_, fun hheader hbad => ?_⟩
  · have good : (header && headerless old) = false := by
      obtain rfl | ⟨h1, h2, h3⟩ := hgood
      · rfl
      · simp [headerless, h1, h2, h3]
    have done := farAtomic_run (s4 := s4) htid hx hpark howner hqueue hraise hfill hline htau hold
    rw [good] at done
    exact done (bind_ok hwrite |>.trans hset)
  · have bad : (header && headerless old) = true := by simpa [hheader, headerless, or_assoc] using hbad
    have done := farAtomic_run (s4 := s2) htid hx hpark howner hqueue hraise hfill hline htau hold
    rw [bad] at done
    exact done rfl

end Sys2Proof.Proofs
end

