-- ==== Sys2Proof/Proofs/Exclusive.lean ====
section
/-! The grant of a line to one core, and its return to its home (09 R211, R212; 08 R187, R190, R204). -/

namespace Sys2Proof.Proofs

open Sys2Proof.Machine Sys2Proof.Statements

/-! What an access with a cache hint of 2 marks (08 R187). -/

theorem find_mapAt {α : Type} (m : FMap α) (k : Nat) (f : α → α) (j : Nat) :
    find (m.map (fun p => if p.1 = k then (p.1, f p.2) else p)) j = if j = k then (find m j).map f else find m j := by
  induction m with
  | nil => simp [find]
  | cons p m ih =>
    obtain ⟨n, v⟩ := p
    rw [List.map_cons]
    by_cases hn : n = k
    · subst hn
      rw [if_pos rfl]
      simp only [find]
      by_cases hj : n = j
      · subst hj; simp
      · rw [if_neg hj, if_neg hj, ih]
    · rw [if_neg hn]
      simp only [find]
      by_cases hj : n = j
      · subst hj; simp [hn]
      · rw [if_neg hj, if_neg hj, ih]

/-- A core with its copy of a key marked first to be replaced. -/
def markedCore (c : Core) (key : Nat) : Core := { c with
  l1 := c.l1.map (fun p => if p.1 = key then (p.1, (fun y : L1Line => { y with soon := true }) p.2) else p) }

/-- Homes with their state of a line marked first to be replaced. -/
def markedHomes (l2 : FMap L2Line) (line : Nat) : FMap L2Line :=
  l2.map (fun p => if p.1 = line then (p.1, (fun x : L2Line => { x with soon := true }) p.2) else p)

section
variable (s : State) (core line : Nat) (a : Attr)

theorem markSoon_two : s.markSoon core line a 2 =
    { s.setCore core (markedCore (s.core core) (l1Key line a)) with l2 := markedHomes s.l2 line } := rfl

theorem markSoon_two_core : (s.markSoon core line a 2).core core = markedCore (s.core core) (l1Key line a) :=
  State.core_setCore s core _

variable {ch : Nat}

theorem markSoon_other (h : ch ≠ 2) : s.markSoon core line a ch = s := if_neg h

variable (ch)

theorem markSoon_l2 (l : Nat) : find (s.markSoon core line a ch).l2 l =
    if ch = 2 ∧ l = line then (find s.l2 l).map (fun x => { x with soon := true }) else find s.l2 l := by
  by_cases h : ch = 2
  · subst h
    simp only [true_and]
    exact find_mapAt s.l2 line (fun x : L2Line => { x with soon := true }) l
  · rw [markSoon_other _ _ _ _ h, if_neg (fun hc => h hc.1)]

/-- A mark leaves a line's data and tag. -/
theorem markSoon_line {x : L2Line} (hx : find s.l2 line = some x) :
    ∃ z, find (s.markSoon core line a ch).l2 line = some z ∧ z.data = x.data ∧ z.tag = x.tag := by
  rw [markSoon_l2, hx]
  split <;> exact ⟨_, rfl, rfl, rfl⟩

theorem markSoon_l1 (k : Nat) : find ((s.markSoon core line a ch).core core).l1 k =
    if ch = 2 ∧ k = l1Key line a then (find (s.core core).l1 k).map (fun y => { y with soon := true }) else find (s.core core).l1 k := by
  by_cases h : ch = 2
  · subst h
    rw [markSoon_two_core]
    simp only [true_and]
    exact find_mapAt (s.core core).l1 (l1Key line a) (fun y : L1Line => { y with soon := true }) k
  · rw [markSoon_other _ _ _ _ h, if_neg (fun hc => h hc.1)]

/-- A mark takes no place. -/
theorem markSoon_l1Set (key : Nat) :
    (((s.markSoon core line a ch).core core).l1Set line key).length = ((s.core core).l1Set line key).length := by
  by_cases h : ch = 2
  · subst h
    rw [markSoon_two_core, Core.l1Set, markedCore, List.filter_map, List.length_map, Core.l1Set]
    refine congrArg List.length (List.filter_congr (fun p _ => ?_))
    simp only [Function.comp]
    split <;> rfl
  · rw [markSoon_other _ _ _ _ h]

theorem markSoon_thread (n : Nat) : (s.markSoon core line a ch).thread n = s.thread n := by
  by_cases h : ch = 2
  · subst h
    exact congrArg Slot.thread (slot_setCore_of_slots (v := markedCore (s.core core) (l1Key line a)) rfl n)
  · rw [markSoon_other _ _ _ _ h]

theorem markSoon_mem : (s.markSoon core line a ch).mem = s.mem := by
  unfold State.markSoon
  split <;> rfl

end

/-! A line that stands where it is asked for. -/

section
variable {s : State} (he : s.errs = [])
include he

theorem checkL2_sound (line : Nat) : s.checkL2 line = s := by
  simp [State.checkL2, he]

theorem l1Read_sound (core line : Nat) (a : Attr) : l1Read core line a s = .ok (find (s.core core).l1 (l1Key line a), s) := by
  unfold l1Read
  rw [bind_modS, checkL1_sound _ _ he, bind_getS]
  rfl

variable {line : Nat} {x : L2Line} {d : LineData} (hx : find s.l2 line = some x) (hdata : x.data = some d)
include hx hdata

theorem homeRead_there : homeRead line s = .ok ((d, x.poison), s) := by
  obtain ⟨data, dirty, tag, owner, poison, pins, mate, soon⟩ := x
  dsimp only at hdata
  subst hdata
  unfold homeRead
  rw [bind_modS, checkL2_sound he, bind_getS, hx]
  show Except.ok (s.homeLine line, s) = _
  rw [State.homeLine, hx]

/-- A line that has its data and its tag at its home is not filled. -/
theorem fillHome_there (htag : x.tag.isSome = true) : fillHome line true s = .ok ((), { s with l2 := put s.l2 line x }) := by
  have hnone : x.tag.isNone = false := by rw [← Option.not_isSome, htag]; rfl
  unfold fillHome fillLine
  rw [bind_ok (homeRead_there he hx hdata)]
  dsimp only
  rw [bind_getS, hx]
  simp only [hnone, hdata, Bool.and_false, Bool.false_eq_true, if_false, Option.isSome_some, if_true]
  rfl

end

section
variable {s : State} {line : Nat} {x : L2Line} (hx : find s.l2 line = some x)
include hx

theorem homeLine_there {d : LineData} (hdata : x.data = some d) : s.homeLine line = (d, x.poison) := by
  obtain ⟨data, dirty, tag, owner, poison, pins, mate, soon⟩ := x
  dsimp only at hdata
  subst hdata
  rw [State.homeLine, hx]

theorem stamps_tagged {w : Stamp} {n : Nat} (htag : x.tag = some (w, n)) : s.stamps line = (w, w + BitVec.ofNat 24 n) := by
  obtain ⟨data, dirty, tag, owner, poison, pins, mate, soon⟩ := x
  dsimp only at htag
  subst htag
  rw [State.stamps, hx]

theorem ownerAt_there : s.ownerAt line = x.owner := by
  rw [State.ownerAt, hx]
  rfl

/-- A line that shares no data entry takes none (08 R189). -/
theorem expand_alone (hmate : x.mate = none) : expand line s = .ok ((), s) := by
  obtain ⟨data, dirty, tag, owner, poison, pins, mate, soon⟩ := x
  dsimp only at hmate
  subst hmate
  unfold expand
  rw [bind_getS, hx]
  cases data <;> rfl

end

/-- The copies of a core with one placed. -/
def placed (s : State) (core line : Nat) (a : Attr) (y : L1Line) : State :=
  s.setCore core { s.core core with l1 := put (s.core core).l1 (l1Key line a) y }

/-- A line takes its place in a set that has room (08 R187). -/
theorem l1Place_room {core line : Nat} {a : Attr} {s : State} (h : ((s.core core).l1Set line (l1Key line a)).length < 20) (y : L1Line) :
    l1Place core line a y s = .ok ((), placed s core line a y) := by
  unfold l1Place
  rw [bind_getS]
  dsimp only
  rw [if_pos h]
  rfl

/-- A loop whose every turn goes through. -/
theorem forIn_yields {β : Type} {f : β → PUnit → M (ForInStep PUnit)} {g : State → β → State}
    (h : ∀ a, f a ⟨⟩ = fun u => .ok (.yield ⟨⟩, g u a)) (l : List β) (s : State) :
    (forIn l PUnit.unit f : M PUnit) s = .ok (⟨⟩, l.foldl g s) := by
  induction l generalizing s with
  | nil => rfl
  | cons a l ih =>
    rw [List.forIn_cons, bind_ok (congrFun (h a) s)]
    exact ih _

/-! The accesses that a grant wakes (09 R211). -/

/-- A thread of a core that waits for a line exclusively. -/
def waitsFor (core line : Nat) (p : Nat × Thread) : Bool :=
  coreOf p.1 = core && match p.2.park with
    | some (.line _ l _ _ true _ _ _ _) => l = line
    | some (.atomic _ _ l _ _) => l = line
    | _ => false

section
variable {core line : Nat} {p : Nat × Thread}

theorem waitsFor_line {ea : Word} {l lease ch : Nat} {a : Attr} {m : LineMask} {r : Option Served} {step : Bool}
    (hp : p.2.park = some (.line ea l a lease true ch m r step)) :
    waitsFor core line p = (decide (coreOf p.1 = core) && decide (l = line)) := by
  rw [waitsFor, hp]

theorem waitsFor_atomic {k : AtomicKind} {b : Word} {l off : Nat} {header : Bool} (hp : p.2.park = some (.atomic k b l off header)) :
    waitsFor core line p = (decide (coreOf p.1 = core) && decide (l = line)) := by
  rw [waitsFor, hp]

/-- A thread that is parked for anything else does not wait for a line exclusively. -/
theorem waitsFor_none (hline : ∀ ea l a lease ch m r step, p.2.park = some (.line ea l a lease true ch m r step) → False)
    (hatomic : ∀ k b l off header, p.2.park = some (.atomic k b l off header) → False) : waitsFor core line p = false := by
  unfold waitsFor
  split
  · next hp => exact (hline _ _ _ _ _ _ _ _ hp).elim
  · next hp => exact (hatomic _ _ _ _ _ hp).elim
  · exact Bool.and_false _

end

/-- A state in which a thread that waits is ready. -/
def woken (core line : Nat) (s : State) (p : Nat × Thread) : State :=
  if waitsFor core line p then s.setSlot p.1 (slotReady (s.slot p.1)) else s

theorem woken_thread (core line : Nat) (s : State) (p : Nat × Thread) (n : Nat) : (woken core line s p).thread n =
    if n = p.1 ∧ waitsFor core line p = true then (s.thread n).map unparked else s.thread n := by
  unfold woken
  by_cases hw : waitsFor core line p = true
  · rw [if_pos hw]
    by_cases hn : n = p.1
    · rw [if_pos ⟨hn, hw⟩, hn, State.thread_setSlot]
      rfl
    · rw [if_neg (fun hc => hn hc.1), State.thread, State.slot_setSlot_other _ _ _ _ hn, State.thread]
  · rw [if_neg hw, if_neg (fun hc => hw hc.2)]

theorem woken_l1 (core line : Nat) (s : State) (p : Nat × Thread) (c : Nat) : ((woken core line s p).core c).l1 = (s.core c).l1 := by
  unfold woken
  split
  · by_cases hc : c = coreOf p.1
    · rw [hc, core_setSlot]
    · rw [core_setSlot_other _ _ _ _ hc]
  · rfl

theorem woken_homes (core line : Nat) (s : State) (p : Nat × Thread) :
    (woken core line s p).l2 = s.l2 ∧ (woken core line s p).mem = s.mem := by
  unfold woken
  split <;> exact ⟨rfl, rfl⟩

section
variable (core line : Nat) (l : List (Nat × Thread)) (s : State)

/-- A state in which the threads of a list that wait have been woken, one after another. -/
def wokenAll : State := l.foldl (woken core line) s

theorem wokenAll_l1 (c : Nat) : ((wokenAll core line l s).core c).l1 = (s.core c).l1 := by
  induction l generalizing s with
  | nil => rfl
  | cons p l ih => exact (ih _).trans (woken_l1 core line s p c)

theorem wokenAll_homes : (wokenAll core line l s).l2 = s.l2 ∧ (wokenAll core line l s).mem = s.mem := by
  induction l generalizing s with
  | nil => exact ⟨rfl, rfl⟩
  | cons p l ih =>
    obtain ⟨hl2, hmem⟩ := ih (woken core line s p)
    obtain ⟨wl2, wmem⟩ := woken_homes core line s p
    exact ⟨hl2.trans wl2, hmem.trans wmem⟩

/-- A thread that is ready stays so. -/
theorem wokenAll_ready {n : Nat} (h : (s.thread n).map (·.park) = some none) :
    ((wokenAll core line l s).thread n).map (·.park) = some none := by
  induction l generalizing s with
  | nil => exact h
  | cons p l ih =>
    refine ih _ ?_
    rw [woken_thread]
    split
    · obtain ⟨x, hx, -⟩ := Option.map_eq_some_iff.1 h
      rw [hx]
      rfl
    · exact h

/-- A thread that waits is woken. -/
theorem wokenAll_waiting {n : Nat} {x : Thread} (hl : (n, x) ∈ l) (hw : waitsFor core line (n, x) = true)
    (hn : (s.thread n).isSome = true) : ((wokenAll core line l s).thread n).map (·.park) = some none := by
  induction l generalizing s with
  | nil => cases hl
  | cons p l ih =>
    show ((wokenAll core line l (woken core line s p)).thread n).map (·.park) = some none
    obtain rfl | hl := List.mem_cons.1 hl
    · refine wokenAll_ready _ _ _ _ ?_
      obtain ⟨y, hy⟩ := Option.isSome_iff_exists.1 hn
      rw [woken_thread, if_pos ⟨rfl, hw⟩, hy]
      rfl
    · refine ih _ hl ?_
      rw [woken_thread]
      split
      · rw [Option.isSome_map]
        exact hn
      · exact hn

theorem wakeExcl_run : wakeExcl core line s = .ok ((), wokenAll core line s.threads s) := by
  unfold wakeExcl
  rw [bind_getS]
  refine (bind_ok (forIn_yields (g := woken core line) (fun p => ?_) s.threads s)).trans rfl
  unfold woken
  split
  · next hc =>
    split
    · next l _ _ _ _ _ _ hp =>
      simp only [waitsFor_line hp, hc, decide_true, Bool.true_and, decide_eq_true_eq]
      split <;> rfl
    · next l _ _ hp =>
      simp only [waitsFor_atomic hp, hc, decide_true, Bool.true_and, decide_eq_true_eq]
      split <;> rfl
    · next hline hatomic =>
      rw [waitsFor_none hline hatomic]
      rfl
  · next hc =>
    have hw : waitsFor core line p = false := by simp [waitsFor, hc]
    rw [hw]
    rfl

end

/-! EXCLUSIVE_REQUEST (09 R211). -/

/-- What waits for a line that is to be placed waits for it exclusively. -/
theorem wantsExcl_placed {s : State} {core line : Nat} (h : s.wantsExcl core line true = true) : s.wantsExcl core line = true := by
  simp only [State.wantsExcl, Bool.or_eq_true, List.any_eq_true, Bool.and_eq_true] at h ⊢
  refine h.imp (fun ⟨e, he, hc, _⟩ => ⟨e, he, hc, rfl⟩) (fun ⟨p, hp, hc, hw⟩ => ⟨p, hp, hc, ?_⟩)
  split at hw
  · exact Bool.and_eq_true_iff.2 ⟨(Bool.and_eq_true_iff.1 hw).1, rfl⟩
  · exact hw
  · exact hw
  · cases hw

/-- Whether what asks for a line exclusively makes it the first to be replaced (08 R187). -/
def asksSoon (s : State) (core line : Nat) : Bool :=
  (s.core core).buffer.any (fun e => e.attr = .coh && e.line = line && e.ch = 2) || (s.exclusiveLoads core line).any (fun p => p.2.2 = 2)

/-- The data of a line that is granted to a core: those of its own copy, where that is the line's state and has not been discarded (08
R204). -/
def grantedData (s : State) (line : Nat) (copy : Option L1Line) : LineData × Bool :=
  match copy with
  | some o => if o.wts = (s.stamps line).1 && !o.discarded then (o.data, o.poison) else s.homeLine line
  | none => s.homeLine line

/-- The copy that a core is granted of a line. -/
def grantedLine (s : State) (line : Nat) (copy : Option L1Line) (soon : Bool) : L1Line :=
  { data := (grantedData s line copy).1
    excl := true
    wts := (s.stamps line).1
    rts := (s.stamps line).2
    poison := (grantedData s line copy).2
    soon := soon }

theorem grantedData_own {s : State} {line : Nat} {o : L1Line} (hw : o.wts = (s.stamps line).1) (hd : o.discarded = false) :
    grantedData s line (some o) = (o.data, o.poison) := by
  simp [grantedData, hw, hd]

theorem grantedData_home {s : State} {line : Nat} {copy : Option L1Line}
    (h : ∀ o, copy = some o → o.wts = (s.stamps line).1 → o.discarded = true) : grantedData s line copy = s.homeLine line := by
  unfold grantedData
  split
  · next o =>
    split
    · next hc =>
      obtain ⟨hw, hd⟩ := Bool.and_eq_true_iff.1 hc
      rw [h o rfl (of_decide_eq_true hw)] at hd
      cases hd
    · rfl
  · rfl

theorem exclusiveRequest_run {core line : Nat} {s s1 s2 s3 s5 t : State} {copy : Option L1Line} {z : L2Line} (hcore : core < 4096)
    (hline : line < 2 ^ 47) (hwants : s.wantsExcl core line true = true) (howner : s.ownerAt line = none) (hqueue : s.queueAt line = [])
    (hraise : Gives (raise (.slice (sliceOf line)) (s.pts core)) { s with requests := del s.requests line } () s1)
    (hfill : Gives (fillHome line true) s1 () s2) (hhome : s2.atHome line = true) (hcopy : Gives (l1Read core line .coh) s2 copy s3)
    (hz : find (s3.markSoon core line .coh (if asksSoon s core line then 2 else 0)).l2 line = some z)
    (hplace : Gives (l1Place core line .coh (grantedLine s2 line copy (asksSoon s core line)))
      (let s4 := s3.markSoon core line .coh (if asksSoon s core line then 2 else 0)
       { s4 with l2 := put s4.l2 line { z with owner := some core } }) () s5)
    (hwake : Gives (wakeExcl core line) s5 () t) : exec (.exclusiveRequest core line) s = .next t := by
  refine (exec_exclusiveRequest core line s).trans (unit_ok (Bool.and_eq_true_iff.2 ⟨decide_eq_true hcore, decide_eq_true hline⟩) ?_)
  rw [bind_getS, bind_ok (need_ok (by simp [wantsExcl_placed hwants, howner])), bind_ok (enqueue_first howner _ hqueue), if_pos rfl,
    bind_ok hraise, bind_ok hfill, bind_getS]
  dsimp only
  rw [bind_getS, bind_getS, hwants, hhome, if_pos (by rfl), bind_ok hcopy, bind_modS]
  refine (bind_ok (s := s3.markSoon core line .coh (if asksSoon s core line then 2 else 0)) (by rw [modS_run, hz])).trans ?_
  exact (bind_ok hplace).trans hwake

/-- The fields of a granted copy say which it is. -/
theorem grantedLine_eq {s : State} {line : Nat} {copy : Option L1Line} {soon : Bool} {y : L1Line} (hexcl : y.excl = true)
    (hwts : y.wts = (s.stamps line).1) (hrts : y.rts = (s.stamps line).2) (hsoon : y.soon = soon) (hdirty : y.dirty = 0)
    (hheld : y.held = none) (hdiscarded : y.discarded = false)
    (hown : ∀ o, copy = some o → o.wts = (s.stamps line).1 → o.discarded = false → y.data = o.data ∧ y.poison = o.poison)
    (hhome : (∀ o, copy = some o → o.wts = (s.stamps line).1 → o.discarded = true) →
      y.data = (s.homeLine line).1 ∧ y.poison = (s.homeLine line).2) : grantedLine s line copy soon = y := by
  have hdata : grantedData s line copy = (y.data, y.poison) := by
    by_cases h : ∀ o, copy = some o → o.wts = (s.stamps line).1 → o.discarded = true
    · obtain ⟨h1, h2⟩ := hhome h
      rw [grantedData_home h, h1, h2]
    · push Not at h
      obtain ⟨o, rfl, hw, hd⟩ := h
      have hd : o.discarded = false := by simpa using hd
      obtain ⟨h1, h2⟩ := hown o rfl hw hd
      rw [grantedData_own hw hd, h1, h2]
  obtain ⟨data, dirty, excl, wts, rts, held, poison, soon', discarded⟩ := y
  dsimp only at *
  subst hexcl hwts hrts hsoon hdirty hheld hdiscarded
  rw [grantedLine, hdata]

/-- A state in which a request for a line has found the line's state at its home. -/
def foundHome (s : State) (line : Nat) (x : L2Line) : State :=
  { s with
    requests := del s.requests line
    l2 := put s.l2 line x }

/-- Such a state with the marks that the request makes (08 R187). -/
def foundMarked (s : State) (core line : Nat) (x : L2Line) : State :=
  (foundHome s line x).markSoon core line .coh (if asksSoon s core line then 2 else 0)

/-- A state in which a home names a core as the owner of a line. -/
def ownedBy (s : State) (core line : Nat) (z : L2Line) : State := { s with l2 := put s.l2 line { z with owner := some core } }

section
variable {s : State} {core line : Nat} {x : L2Line}

theorem foundHome_line : find (foundHome s line x).l2 line = some x := find_put_same _ _ _

theorem foundMarked_l2_other {l : Nat} (h : l ≠ line) : find (foundMarked s core line x).l2 l = find s.l2 l := by
  rw [foundMarked, markSoon_l2, if_neg (fun hc => h hc.2)]
  exact find_put_other _ _ _ _ h

theorem foundMarked_l1_other {k : Nat} (h : k ≠ l1Key line .coh) :
    find ((foundMarked s core line x).core core).l1 k = find (s.core core).l1 k := by
  rw [foundMarked, markSoon_l1, if_neg (fun hc => h hc.2)]
  rfl

theorem foundMarked_thread (n : Nat) : (foundMarked s core line x).thread n = s.thread n := markSoon_thread _ _ _ _ _ _

theorem placed_thread (a : Attr) (y : L1Line) (n : Nat) : (placed s core line a y).thread n = s.thread n :=
  congrArg Slot.thread (slot_setCore_of_slots
    (v := { s.core core with l1 := put (s.core core).l1 (l1Key line a) y }) rfl n)

theorem placed_l1 (a : Attr) (y : L1Line) : ((placed s core line a y).core core).l1 = put (s.core core).l1 (l1Key line a) y := by
  rw [placed, State.core_setCore]

end

/-- The state in which a core owns a line and holds its copy, and what waited for it goes on. -/
def granted (s : State) (core line : Nat) (z : L2Line) (y : L1Line) : State :=
  wokenAll core line (placed (ownedBy s core line z) core line .coh y).threads (placed (ownedBy s core line z) core line .coh y)

section
variable (s : State) (core line : Nat) (z : L2Line) (y : L1Line)

theorem granted_l1 : ((granted s core line z y).core core).l1 = put (s.core core).l1 (l1Key line .coh) y :=
  (wokenAll_l1 _ _ _ _ _).trans (placed_l1 _ _)

theorem granted_l2 : (granted s core line z y).l2 = put s.l2 line { z with owner := some core } := (wokenAll_homes _ _ _ _).1

theorem granted_mem : (granted s core line z y).mem = s.mem := (wokenAll_homes _ _ _ _).2

/-- A thread that waits for the line goes on. -/
theorem granted_wakes {n : Nat} {x : Thread} (hx : s.thread n = some x) (hw : waitsFor core line (n, x) = true) :
    ((granted s core line z y).thread n).map (·.park) = some none := by
  have hthread : (placed (ownedBy s core line z) core line .coh y).thread n = some x := (placed_thread _ _ _).trans hx
  exact wokenAll_waiting _ _ _ _ (mem_threads.2 hthread) hw (by rw [hthread]; rfl)

end

section
variable {s : State} {core line : Nat} {x : L2Line} {d : LineData} {w : Stamp} {n : Nat} (hx : find s.l2 line = some x)
  (hdata : x.data = some d) (htag : x.tag = some (w, n))

include htag in
theorem foundHome_stamps : (foundHome s line x).stamps line = (w, w + BitVec.ofNat 24 n) := stamps_tagged foundHome_line htag

include htag in
/-- The data of the core's own copy are granted where it has the line's write. -/
theorem grantedData_found_own {o : L1Line} (hw : o.wts = w) (hd : o.discarded = false) :
    grantedData (foundHome s line x) line (some o) = (o.data, o.poison) :=
  grantedData_own (by rw [foundHome_stamps htag]; exact hw) hd

include hdata htag

/-- Else the home's are. -/
theorem grantedData_found_home {copy : Option L1Line} (h : ∀ o, copy = some o → o.wts = w → o.discarded = true) :
    grantedData (foundHome s line x) line copy = (d, x.poison) := by
  rw [← homeLine_there (s := foundHome s line x) foundHome_line hdata]
  refine grantedData_home (fun o ho hw => h o ho ?_)
  rw [foundHome_stamps htag] at hw
  exact hw

include hx

/-- A line that stands at its home, with room for it in the core's L1, is granted. -/
theorem exclusiveRequest_found {z : L2Line} (hcore : core < 4096) (hline : line < 2 ^ 47) (he : s.errs = [])
    (hwants : s.wantsExcl core line true = true) (howner : x.owner = none) (hqueue : s.queueAt line = [])
    (htime : later (s.clock (.slice (sliceOf line))).t (s.pts core) = false)
    (hroom : ((s.core core).l1Set line (l1Key line .coh)).length < 20) (hz : find (foundMarked s core line x).l2 line = some z) :
    exec (.exclusiveRequest core line) s = .next (granted (foundMarked s core line x) core line z
      (grantedLine (foundHome s line x) line (find (s.core core).l1 (l1Key line .coh)) (asksSoon s core line))) := by
  have hthere : (foundHome s line x).atHome line = true := by rw [State.atHome, foundHome_line, Option.bind_some, hdata]; rfl
  have hset : (((ownedBy (foundMarked s core line x) core line z).core core).l1Set line (l1Key line .coh)).length < 20 :=
    (markSoon_l1Set _ _ _ _ _ _).trans_lt hroom
  exact exclusiveRequest_run hcore hline hwants ((ownerAt_there hx).trans howner) hqueue (raise_keeps htime)
    (fillHome_there (s := { s with requests := del s.requests line }) he hx hdata (by rw [htag]; rfl)) hthere
    (l1Read_sound (s := foundHome s line x) he core line .coh) hz (l1Place_room hset _) (wakeExcl_run core line _)

end

theorem exclusive_granted : exclusiveGranted := by
  unfold exclusiveGranted
  intro core line s x d w n hcore hline he hwants hx hdata htag howner hqueue htime hroom
  obtain ⟨z, hz, zdata, ztag⟩ := markSoon_line (foundHome s line x) core line .coh (if asksSoon s core line then 2 else 0)
    (foundHome_line (s := s) (line := line) (x := x))
  have hstamps := foundHome_stamps (s := s) (line := line) htag
  refine ⟨_, { z with owner := some core }, grantedLine (foundHome s line x) line (find (s.core core).l1 (l1Key line .coh))
      (asksSoon s core line), exclusiveRequest_found hx hdata htag hcore hline he hwants howner hqueue htime hroom hz, ?_, rfl,
    zdata.trans hdata, ztag.trans htag, ?_, rfl, congrArg Prod.fst hstamps, congrArg Prod.snd hstamps, fun o ho hw hd => ?_, fun hold => ?_,
    fun k hk => ?_, fun l hl => ?_, (granted_mem _ _ _ _ _).trans (markSoon_mem _ _ _ _ _), fun tid v k b off header hc hv hpark => ?_⟩
  · rw [granted_l2]
    exact find_put_same _ _ _
  · rw [granted_l1]
    exact find_put_same _ _ _
  · rw [grantedLine, ho, grantedData_found_own htag hw hd]
    exact ⟨rfl, rfl⟩
  · rw [grantedLine, grantedData_found_home hdata htag hold]
    exact ⟨rfl, rfl⟩
  · rw [granted_l1, find_put_other _ _ _ _ hk]
    exact foundMarked_l1_other hk
  · rw [granted_l2, find_put_other _ _ _ _ hl]
    exact foundMarked_l2_other hl
  · exact granted_wakes _ _ _ _ _ ((foundMarked_thread _).trans hv) (by simp [waitsFor, hc, hpark])

/-! RECALL (09 R212). -/

/-- A tag that holds two stamps gives the later back. -/
theorem tagOf_rts (w r : Stamp) : (tagOf w r).1 + BitVec.ofNat 24 (tagOf w r).2 = r := by
  unfold tagOf
  split
  · exact sub_add_cancel r 255
  · rw [BitVec.ofNat_toNat, BitVec.setWidth_eq]
    exact add_sub_cancel w r

theorem tagOf_near {w r : Stamp} (h : (r - w).toNat ≤ 255) : (tagOf w r).1 = w := by
  rw [tagOf, if_neg (by omega)]

theorem tagOf_far {w r : Stamp} (h : 255 < (r - w).toNat) : (tagOf w r).1 = r - 255 := by
  rw [tagOf, if_pos h]

/-- A home's state of a line that its owner has returned (09 R212). -/
def returnedLine (x : L2Line) (y : L1Line) : L2Line := { x with
  data := x.data.map (fun _ => y.data)
  dirty := x.data.isSome && (x.dirty || y.dirty != 0)
  poison := y.poison
  tag := some (tagOf y.wts y.rts)
  owner := none }

/-- The copies of a core that has returned a line, with a shared one or without. -/
def returnedCopies (c : Core) (line : Nat) (keep : Bool) (y : L1Line) : Core := { c with
  l1 := if keep then put c.l1 (l1Key line .coh) { y with
      excl := false
      dirty := 0 }
    else del c.l1 (l1Key line .coh) }

/-- The state in which the owner of a line has returned it. -/
def returned (s : State) (core line : Nat) (keep : Bool) (x : L2Line) (y : L1Line) : State :=
  { s with l2 := put s.l2 line (returnedLine x y) }.setCore core (returnedCopies (s.core core) line keep y)

section
variable {s : State} {core line : Nat} {keep : Bool} {x : L2Line} {y : L1Line} {d : LineData} (he : s.errs = [])
  (hx : find s.l2 line = some x) (howner : x.owner = some core) (hdata : x.data = some d)
  (hy : find (s.core core).l1 (l1Key line .coh) = some y) (hheld : y.held = none)
include he hx howner hdata hy hheld

theorem takeBack_returns : takeBack line keep true s = .ok ((), returned s core line keep x y) := by
  unfold takeBack
  rw [bind_getS, hx]
  dsimp only
  rw [howner]
  dsimp only
  rw [bind_modS, checkL1_sound _ _ he, bind_getS, hx, hy]
  dsimp only
  rw [bind_ok (need_ok (by rw [hheld]; rfl)), bind_set, if_neg (by simp [hdata]), he, List.filter_nil, ← he]
  exact modCore_run core (fun c => returnedCopies c line keep y) _

/-- The owner's data and stamps return with no more than the line's own entry. -/
theorem recallNow_returns (hmate : x.mate = none) : recallNow line keep s = .ok ((), returned s core line keep x y) := by
  unfold recallNow
  rw [bind_ok (takeBack_returns he hx howner hdata hy hheld)]
  exact expand_alone (x := returnedLine x y) (find_put_same _ _ _) hmate

end

theorem recall_run {core line : Nat} {keep : Bool} {s t : State} (hline : line < 2 ^ 47) (howner : s.ownerAt line = some core)
    (hserves : s.recallServes core line keep = true) (h : Gives (recallNow line keep) s () t) : exec (.recall line keep) s = .next t := by
  refine (exec_recall line keep s).trans (unit_ok (decide_eq_true hline) ?_)
  rw [bind_getS, bind_ok (needSome_ok howner), bind_ok (need_ok hserves)]
  exact h

section
variable {s : State} {core line : Nat} {keep : Bool} {x : L2Line} {y : L1Line}

theorem returned_line : find (returned s core line keep x y).l2 line = some (returnedLine x y) := find_put_same _ _ _

theorem returned_stamps : (returned s core line keep x y).stamps line = ((tagOf y.wts y.rts).1, y.rts) := by
  rw [stamps_tagged (w := (tagOf y.wts y.rts).1) (n := (tagOf y.wts y.rts).2) returned_line rfl, tagOf_rts]

theorem returned_copies : (returned s core line keep x y).core core = returnedCopies (s.core core) line keep y := State.core_setCore _ _ _

end

theorem recall_returns : recallReturns := by
  unfold recallReturns
  intro core line keep s x y d hline he hx howner hdata hmate hy hheld hserves
  refine ⟨_, returnedLine x y, recall_run hline ((ownerAt_there hx).trans howner) hserves
      (recallNow_returns he hx howner hdata hy hheld hmate), returned_line, ?_, rfl, rfl, ?_, ?_, fun hnear => ?_, fun hfar => ?_,
    fun hkeep => ?_, fun hkeep => ?_, fun k hk => ?_, fun l hl => find_put_other _ _ _ _ hl, rfl, rfl⟩
  · rw [returnedLine, hdata]
    rfl
  · simp [returnedLine, hdata]
  · rw [returned_stamps]
  · rw [returned_stamps]
    exact tagOf_near hnear
  · rw [returned_stamps]
    exact tagOf_far hfar
  · rw [returned_copies, returnedCopies, hkeep]
    exact find_del_same _ _
  · rw [returned_copies, returnedCopies, hkeep]
    exact find_put_same _ _ _
  · rw [returned_copies, returnedCopies]
    cases keep with
    | true => exact find_put_other _ _ _ _ hk
    | false => exact find_del_other _ _ _ hk

/-- Settles O38: a grant and a recall each move the line's state and its stamps as a whole. -/
theorem exclusivePermissionMoves : Obligations.ExclusivePermissionMoves := by
  unfold Obligations.ExclusivePermissionMoves
  refine ⟨fun core line s s1 s2 s3 s4 s5 t soon copy z hcore hline hwants howner hqueue hraise hfill hhome hcopy hsoon hs4 hz y hexcl hwts
    hrts hysoon hdirty hheld hdisc hown hfrom hplace hwake => ?_, exclusive_granted, recall_returns⟩
  have hy := grantedLine_eq hexcl hwts hrts hysoon hdirty hheld hdisc hown hfrom
  subst hsoon hs4 hy
  exact exclusiveRequest_run hcore hline hwants howner hqueue hraise hfill hhome hcopy hz hplace hwake

end Sys2Proof.Proofs
end
